-- ==== Sys2Proof/Word.lean ====
section
/-! DEFINITION. The word types of the machine (spec/00_scope.md R5: a byte is 8 bits, a half 16, a word 32, a
dword 64). Everything that computes on them stands in files under Sys2Proof/Machine/. -/

namespace Sys2Proof

/-- A dword of R5: the contents of a general register. -/
abbrev Word := BitVec 64

/-- A word of R5: the width of an instruction word and of a vector lane. -/
abbrev IWord := BitVec 32

/-- A byte of R5. -/
abbrev Byte := BitVec 8

/-- The image of a vector register: 32 lanes of 32 bits (R123). -/
abbrev VWord := BitVec 1024

end Sys2Proof
end

