-- ==== Sys2Proof/Syntax.lean ====
section
/-! DEFINITION. The syntax: every row of spec/opcode_table.json as one constructor of `Instr`. A Nellyn instruction
carries its operands with register numbers and operation codes already read (R22 to R27); an event or a command
carries what the outside world or its place in a queue gives it (95_what_each_step_holds.md). -/

namespace Sys2Proof

/-- g0 to g15. -/
abbrev GReg := BitVec 4
/-- f0–f7, p0–p7, h0–h7, v0–v7: a class of eight (R27). -/
abbrev Reg8 := BitVec 3
/-- m0–m3, a0–a3, c0–c3: a class of four (R27, R128). -/
abbrev Reg4 := BitVec 2

/-- Conditions of `cmp` and `cmpi` (R93). -/
inductive Cond | eq | ne | lt | ltn | le | len
  deriving DecidableEq, Repr

/-- Rounding modes (R96). -/
inductive RMode | rne | rz | rd | ru | rna
  deriving DecidableEq, Repr

/-- Precision of a scalar FP instruction (R97). -/
inductive Prec | f64 | f32
  deriving DecidableEq, Repr

/-- Integer types of conversions (R99). -/
inductive ITy | i32 | i64 | w32 | w64
  deriving DecidableEq, Repr

/-- Conditions of `fcmp` (R98). -/
inductive FCond | eq | lt | le | un
  deriving DecidableEq, Repr

/-- Access sizes (R25). -/
inductive Sz | b | h | w | d
  deriving DecidableEq, Repr

/-- Scopes (R15), coded as in R192. -/
inductive Scope | lane | core | quad | clus | die | pkg | pod
  deriving DecidableEq, Repr

/-- Ordering of an atomic (R242). -/
inductive Ord4 | none | acq | rel | ar
  deriving DecidableEq, Repr

/-- Operations 0–7 of `amo` (R242). -/
inductive AmoOp | add | and | or | xor | min | max | minn | maxn
  deriving DecidableEq, Repr

/-- Kinds of sync object (R223, R235). -/
inductive SoKind | lock | bar | ring
  deriving DecidableEq, Repr

/-- Element types of vector instructions (R128). -/
inductive VTy | i32 | w32 | i16 | w16 | i8 | w8 | h16 | f32
  deriving DecidableEq, Repr

/-- Conditions of `vcmp` (R131). -/
inductive VCond | eq | ne | lt | le | un
  deriving DecidableEq, Repr

/-- Operations of `vred` and `gred` (R139, R259). -/
inductive RedOp | add | min | max
  deriving DecidableEq, Repr

/-- Types of `gred` (R259). -/
inductive GTy | i64 | w64 | f32
  deriving DecidableEq, Repr

/-- Kinds of `gvote` (R259). -/
inductive Vote | any | all
  deriving DecidableEq, Repr

/-- Tensor formats (R170). -/
inductive TFmt | q8 | h16
  deriving DecidableEq, Repr

/-- System registers (R282, R346, R350, R354, R369), the FIFOs apart. -/
inductive SysReg
  | stat | rcnt | tvec | tepc | tcause | tval | phase | place | spen | mring | sopol | gpol | drth | tres
  | dispq | tmrfree | nport
  deriving DecidableEq, Repr

/-- The four inline words of a tensor shape record (R33). -/
structure Shape where
  w0 : IWord
  w1 : IWord
  w2 : IWord
  w3 : IWord
  deriving DecidableEq, Repr

/-- A 32-byte command of the service core (R277): dword 0 with CMD and PART, the operands and the tag. -/
structure Cmd where
  d0   : Word
  a    : Word
  b    : Word
  tag  : Word
  deriving DecidableEq, Repr

/-- What the physical world gives one start (R392): the outcome of each of the seven steps, the step in whose middle power
or a reset cuts the start off (R394), the 64 KiB units that the full and the short array test find failing, the pod
configuration (PKG, the port modes, which ports train) and the Belfry value the pod agrees on. -/
structure StartInput where
  good    : List Bool
  cut     : Option Nat
  full    : List Nat
  short   : List Nat
  pkg     : Nat
  modes   : List Bool
  trained : List Bool
  belfry  : Nat
  deriving DecidableEq, Repr

/-- How an uncorrectable error comes out when its data is read once more (R396): it has gone; it lasts in the storage; or it
lasts in a way of the LLC, whose line is clean and is fetched again, or is dirty and lost. -/
inductive ReadFault | transient | lasting | llcClean | llcDirty
  deriving DecidableEq, Repr

/-- Kinds of section (R43). -/
inductive SecKind | text | data | scratch | cupola | fleet
  deriving DecidableEq, Repr

/-- One section of an NLO object with its name and the address the loader chose for it (R54, R55). -/
structure ObjSec where
  name : List Byte
  kind : SecKind
  align : Nat
  size : Nat
  bytes : List Byte
  va   : Word
  deriving DecidableEq, Repr

/-- One symbol of an NLO object (R44, R54): its name, section and offset, and its flags global and entry. A symbol that
another object defines (R45) has no section here. -/
structure ObjSym where
  name : List Byte
  sec  : Option Nat
  off  : Nat
  glob : Bool
  entry : Bool
  deriving DecidableEq, Repr

/-- An NLO object as the loader receives it (R54): the bytes of its header; whether its tables, whose byte layout the
manual does not give, follow R54; the sections, the symbols, the address words (section, offset, size, symbol) and the
layouts declared for scratch pages (page, code) in their order; `textWritable` is the host's request for W = 1. -/
structure ObjImage where
  header : List Byte
  tablesOk : Bool
  secs  : List ObjSec
  syms  : List ObjSym
  addrs : List (Nat × Nat × Nat × Nat)
  lays  : List (Nat × Nat)
  textWritable : Bool
  deriving DecidableEq, Repr

/-- Where a packet goes (R372): over Ethernet to an IPv6 address; on the scale-up path to a die of a package, in the
sender's partition. -/
inductive Dest | ether (addr : BitVec 128) | scale (pkg die : Nat)
  deriving DecidableEq, Repr

/-- A packet of a WRITE message (R375): sender, with the registration of its endpoint, destination and its endpoint, number
in the sender's order, request index, offset in the message, the message's remote offset, length and CNT, and its bytes. -/
structure Packet where
  srcPkg  : Nat
  srcDie  : Nat
  srcPart : Nat
  srcEp   : Nat
  inc     : Nat
  dst     : Dest
  dstEp   : Nat
  num     : Nat
  req     : Nat
  off     : Nat
  roff    : Nat
  len     : Nat
  cnt     : Bool
  bytes   : List Byte
  deriving DecidableEq, Repr

/-- An acknowledgement that reaches a sending endpoint (R387), with the endpoint's registration: the packets it covers, and
those it answers with a CODE of their own (R374). -/
structure Ack where
  die  : Nat
  part : Nat
  ep   : Nat
  inc  : Nat
  covers : List Nat
  codes  : List (Nat × Nat)
  deriving DecidableEq, Repr

/-- A flit of the scale-up link (R370): the partition identity, the phase tag and the FX of its message, the source place
number, for an in-switch reduction its identity and the contributor's rank, and its payload: of the packet `pkt`, which
stands for the whole of a contribution or result, the `len` bytes from `at_`. -/
structure Flit where
  part  : Nat
  phase : Bool
  fx    : Bool
  place : BitVec 32
  red   : Option (Nat × Nat)
  at_   : Nat
  len   : Nat
  pkt   : Packet
  deriving DecidableEq, Repr

/-- A contribution to an in-switch reduction (R378), with what its flits carry (R370) and the request of this package that
made it, if any (die, partition, endpoint, request index). -/
structure Contrib where
  part : Nat
  phase : Bool
  fx   : Bool
  place : BitVec 32
  rid  : Nat
  rank : Nat
  nr   : Nat
  len  : Nat
  roff : Nat
  bytes : List Byte
  mine : Option (Nat × Nat × Nat × Nat)
  deriving DecidableEq, Repr

/-- An access of the host or a peer through a BAR of a partition's virtual function, at an offset in the BAR (R379). -/
structure HostAcc where
  part  : Nat
  addr  : Word
  size  : Nat
  write : Bool
  val   : Word
  deriving DecidableEq, Repr

/-- One row of spec/opcode_table.json each. An event that acts on one unit, message or queue entry takes its number
from `State.sel`, and a command of the service core is the head of the command queue of die `State.sel` (R277); such
constructors, and instructions without operands, stand last. -/
inductive Instr
  -- integer register forms (R89, R90)
  | add (d a b : GReg) | sub (d a b : GReg) | and (d a b : GReg) | or (d a b : GReg) | xor (d a b : GReg)
  | shl (d a b : GReg) | shr (d a b : GReg) | sar (d a b : GReg) | rol (d a b : GReg)
  | min (d a b : GReg) | max (d a b : GReg) | minn (d a b : GReg) | maxn (d a b : GReg)
  | clz (d a : GReg) | ctz (d a : GReg) | pop (d a : GReg)
  | bfx (d a b : GReg) | bfi (d a b : GReg) | sel (d a b : GReg) (c : Reg8)
  -- immediate forms (R91, R92)
  | addi (d a : GReg) (i : BitVec 18)
  | andi (d a : GReg) (i : BitVec 16) | ori (d a : GReg) (i : BitVec 16) | xori (d a : GReg) (i : BitVec 16)
  | shli (d a : GReg) (n : BitVec 6) | shri (d a : GReg) (n : BitVec 6) | sari (d a : GReg) (n : BitVec 6)
  | bfxImm (d a : GReg) (l w : BitVec 6) | bfiImm (d a : GReg) (l w : BitVec 6)
  | lui (d : GReg) (i : BitVec 22) | adpc (d : GReg) (i : BitVec 22)
  | cmp (k : Cond) (d : Reg8) (a b : GReg) | cmpi (k : Cond) (d : Reg8) (a : GReg) (i : BitVec 15)
  -- multiply and divide (R94)
  | mul (d a b : GReg) | mulh (d a b : GReg) | mulhn (d a b : GReg)
  | div (d a b : GReg) | divn (d a b : GReg) | rem (d a b : GReg) | remn (d a b : GReg)
  -- scalar floating point (R97–R99)
  | fadd (s : Prec) (r : RMode) (d a b : Reg8) | fsub (s : Prec) (r : RMode) (d a b : Reg8)
  | fmul (s : Prec) (r : RMode) (d a b : Reg8) | fma (s : Prec) (r : RMode) (d a b c : Reg8)
  | fdiv (s : Prec) (r : RMode) (d a b : Reg8) | fsqrt (s : Prec) (r : RMode) (d a : Reg8)
  | fmin (s : Prec) (d a b : Reg8) | fmax (s : Prec) (d a b : Reg8)
  | fcmp (k : FCond) (s : Prec) (d a b : Reg8) | fclass (s : Prec) (d : GReg) (a : Reg8)
  | fcvtD2s (r : RMode) (d a : Reg8) | fcvtS2d (d a : Reg8)
  | fcvtD2i (r : RMode) (t : ITy) (d : GReg) (a : Reg8) | fcvtS2i (r : RMode) (t : ITy) (d : GReg) (a : Reg8)
  | fcvtI2d (r : RMode) (t : ITy) (d : Reg8) (a : GReg) | fcvtI2s (r : RMode) (t : ITy) (d : Reg8) (a : GReg)
  | fmvgf (d : Reg8) (a : GReg) | fmvfg (d : GReg) (a : Reg8)
  -- control (R100) and the repeat frame (R31, R102)
  | br (p : Reg8) (neg : Bool) (o : BitVec 22) | jmp (o : BitVec 22) | jal (d : GReg) (o : BitVec 22)
  | jr (a : GReg) (i : BitVec 18) | jalr (d a : GReg) (i : BitVec 18)
  | rpt (len : BitVec 4) (stride fsel : BitVec 3) (cnt : BitVec 15)
  | rptReg (len : BitVec 4) (stride fsel : BitVec 3) (g : GReg)
  -- load, store, migrate, prefetch (R156–R158, R82)
  | ld (z : Sz) (sx : Bool) (d a : GReg) (o : BitVec 14) | ldAcq (z : Sz) (sx : Bool) (d a : GReg) (o : BitVec 14)
  | st (z : Sz) (d a : GReg) (o : BitVec 14) | stRel (z : Sz) (d a : GReg) (o : BitVec 14)
  | mig (a : GReg) | pf (a : GReg) (o : BitVec 14) | pfLlc (a : GReg) (o : BitVec 14)
  -- fleeting memory (R299)
  | ldf (z : Sz) (sx : Bool) (d a : GReg) (c : Reg8) | ldfIndexed (z : Sz) (sx : Bool) (d a b : GReg) (c : Reg8)
  | stf (z : Sz) (d a : GReg) | stfIndexed (z : Sz) (d a b : GReg)
  | rnw (d a : GReg) | life (d a : GReg) | fdrop (a : GReg) | lifeSet (a b : GReg)
  -- atomics and reservations (R242)
  | amo (op : AmoOp) (dbl : Bool) (o : Ord4) (s : Scope) (d a b : GReg)
  | amoSwap (dbl : Bool) (o : Ord4) (s : Scope) (d a b : GReg)
  | amoCas (dbl : Bool) (o : Ord4) (s : Scope) (d a b c : GReg)
  | resv (dbl acq : Bool) (s : Scope) (d a : GReg) | rlse (dbl rel : Bool) (s : Scope) (d : Reg8) (a b : GReg)
  -- fences and cache maintenance (R192)
  | fenceAcq (s : Scope) | fenceRel (s : Scope) | fenceAr (s : Scope)
  | cwb (a : GReg) | cinv (a : GReg) | iinv (s : Scope) (a : GReg)
  | qwait (s : Scope) (t : Bool) | mfree (d a : GReg)
  -- synchronisation objects (R235)
  | sinit (k : SoKind) (s : Scope) (d a : GReg) | sfin (d : Reg8) (a : GReg)
  | slock (a : GReg) | slockCall (d a : GReg) | sunlk (a : GReg)
  | sarr (d a : GReg) | sarrEos (d a : GReg) | sexp (d a : GReg) | swait (d a : GReg) | smode (d a : GReg)
  -- groups (R259)
  | gmake (s : Scope) (d h : Reg8) (a : GReg) | gjoin (d h : Reg8) (a : GReg) | gleave (d h : Reg8)
  | gbar (d : GReg) (h : Reg8) | gvote (v : Vote) (d : GReg) (h : Reg8) (a : GReg)
  | gred (o : RedOp) (t : GTy) (d : GReg) (h : Reg8) (a : GReg)
  | gsize (d : GReg) (h : Reg8) | grank (d : GReg) (h : Reg8) | gstat (d : GReg) (h : Reg8)
  -- contexts (R74) and the messages between them (R64–R71)
  | spawn (d : Reg8) (a b c : GReg) | reap (d : GReg) (c : Reg8) | kill (d : Reg8) (a : GReg)
  | cfw (d : Reg8) | yield (n : BitVec 4) | ctxs (d a : GReg)
  -- vector unit (R125–R141)
  | vadd (r : RMode) (d a b : Reg8) (m : Reg4) | vsub (r : RMode) (d a b : Reg8) (m : Reg4)
  | vmul (r : RMode) (d a b : Reg8) (m : Reg4) | vfma (r : RMode) (d a b c : Reg8) (m : Reg4)
  | vmax (d a b : Reg8) (m : Reg4) | vmin (d a b : Reg8) (m : Reg4)
  | vabs (d a : Reg8) (m : Reg4) | vneg (d a : Reg8) (m : Reg4)
  | vand (d a b : Reg8) (m : Reg4) | vor (d a b : Reg8) (m : Reg4) | vxor (d a b : Reg8) (m : Reg4)
  | vshl (t : VTy) (d a b : Reg8) (m : Reg4) | vshr (t : VTy) (d a b : Reg8) (m : Reg4)
  | vaddInt (t : VTy) (d a b : Reg8) (m : Reg4) | vsubInt (t : VTy) (d a b : Reg8) (m : Reg4)
  | vcmp (k : VCond) (t : VTy) (d : Reg4) (a b : Reg8) (m : Reg4) | vsel (d a b : Reg8) (c m : Reg4)
  | vld (d : Reg8) (g : GReg) (o : BitVec 6) (m : Reg4) | vst (c : Reg8) (g : GReg) (o : BitVec 6) (m : Reg4)
  | vgath (d : Reg8) (g : GReg) (b : Reg8) (m : Reg4) | vscat (c : Reg8) (g : GReg) (b : Reg8) (m : Reg4)
  | vbcast (d : Reg8) (g : GReg) (m : Reg4) | vperm (d a b : Reg8) (g : GReg) (m : Reg4)
  | vcvtF2h (r : RMode) (d a b : Reg8) (m : Reg4) | vcvtH2fl (r : RMode) (d a : Reg8) (m : Reg4)
  | vcvtH2fh (r : RMode) (d a : Reg8) (m : Reg4) | vcvtF2i (r : RMode) (t : VTy) (d a : Reg8) (m : Reg4)
  | vcvtI2f (r : RMode) (t : VTy) (d a : Reg8) (m : Reg4)
  | vdec (d a : Reg8) (n : BitVec 2) (m : Reg4) | venc (d a : Reg8) (n : BitVec 2) (m : Reg4)
  | vdot (d a b c : Reg8) (m : Reg4) | ldtab (a : GReg)
  | vred (o : RedOp) (t : VTy) (d a : Reg8) (m : Reg4) | vbfly (d a b c : Reg8) (m : Reg4)
  | vtwid (d a : Reg8) (l : BitVec 5) (m : Reg4)
  -- homes and scratchpad pages (R146–R151)
  | refillComplete (core page : Nat) | pageWritebackComplete (core page : Nat)
  -- tensor unit (R163–R177)
  | mclr (n : Reg4) | mmaQ8 (n : Reg4) (a b s : GReg) | mmaH16 (n : Reg4) (a b : GReg)
  | mmrQ8 (n : Reg4) (a s : GReg) | mmrH16 (n : Reg4) (a : GReg) | mlatch (f : TFmt) (b : GReg)
  | mcv (n : Reg4) (a b s : GReg) (sh : Shape) | mshp (a : GReg) (sh : Shape)
  | mld (n : Reg4) (a : GReg) | mst (n : Reg4) (a : GReg)
  | tensorOpComplete (quad k : Nat)
  -- global memory and coherence (R183–R189)
  | l1Eviction (core line : Nat)
  -- engines (R317)
  | cpy (s : Scope) (t : GReg) (c : Reg8) (d a n : GReg) | cpyX (s : Scope) (t : GReg) (c : Reg8) (d a n : GReg)
  | cpy2 (s : Scope) (t : GReg) (c : Reg8) (d a n : GReg) | cpy2X (s : Scope) (t : GReg) (c : Reg8) (d a n : GReg)
  | cph (s : Scope) (t : GReg) (c : Reg8) (a n : GReg) | cpt (s : Scope) (t : GReg) (c : Reg8) (d a n : GReg)
  | cvbF2q (s : Scope) (t : GReg) (c : Reg8) (d a n : GReg) | cvbQ2f (s : Scope) (t : GReg) (c : Reg8) (d a n : GReg)
  | cvbF2h (s : Scope) (t : GReg) (c : Reg8) (d a n : GReg) | cvbH2f (s : Scope) (t : GReg) (c : Reg8) (d a n : GReg)
  | cpst (d : GReg) (c : Reg8) | cpw (c : Reg8) (a : GReg)
  -- launches, graphs, wake words (R339)
  | lnch (d a : GReg) | tkadd (d a : GReg) | tkaddAt (d a t : GReg) | tgrun (d a : GReg) | notify (a b : GReg)
  | wwait (d a b : GReg) | wake (a : GReg) | wakeAt (d a t : GReg)
  | coreDoneReport (id core : Nat)
  -- time and power (R359, R352–R358)
  | time (d : GReg) | cyc (d : GReg) | pwrq (d a : GReg) | pstat (d : GReg)
  | lanternPolicyAction (quad ceil wd : Nat)
  | capMessage (seq : BitVec 32) (watts : Nat)
  -- network (R382, R375–R387)
  | nring (d a : GReg) | npost (d a n : GReg) | ncnt (d a : GReg) | ncw (a n : GReg)
  | workRequestStart (die part ep : Nat) | packetReceive (p : Packet) | ackReceive (a : Ack)
  | retransmitTimeout (die part ep num : Nat) | neSpawnSend (die part ep : Nat) | neSpawnRetry (die part ep : Nat)
  | reduceContribution (c : Contrib)
  | flitReceive (f : Flit)
  | hostBarAccess (h : HostAcc) | notifyPageWrite (h : HostAcc) | wakePageWrite (h : HostAcc)
  | attestationRequest (nonce : BitVec 256) (vf : Option Nat)
  -- system (R282)
  | trap (n : BitVec 12) | brk (n : BitVec 12) | mfs (d : GReg) (r : SysReg) | mts (r : SysReg) (a : GReg)
  | fifoPop (d : GReg) (c : Reg4) | fifoPush (c : Reg4) (a : GReg)
  | tlbi (s : Scope) (a : GReg) | tlbiAll (s : Scope)
  | readRetry (line : Nat) (f : ReadFault)
  -- the rest of the device (R331, R55, R357, R273, R276, R392–R393)
  | clusterHandover (cluster : Nat) (part : Option Nat) | loadObject (part : Nat) (o : ObjImage)
  | runAheadFetch (cx n : Nat) | firmwareUpdate (lantern : Bool) (version : Nat) (verified : Bool)
  | deviceReset (i : StartInput)
  -- instructions without operands
  | cwbAll | cinvAll | fbar | quit | ldtabQa | ldtabQb | nop | eret | halt
  -- commands of the service core (R277, R347, R361, R395)
  | pdesc | unpin | setregMring | setregSopol | setregGpol | ptroot | fqreplay | fqdeny | tlbshoot | preempt
  | restore | term | resume0 | launch | tgdrop | settres | setdrth | recclr | unassignedCommand
  -- events on a message, a queue entry or one unit
  | reservationGrant | reservationBreak | quietReport | delegatedReply | soPoll | soWake | soWindowBoundary
  | groupCompletion | yieldExpiry | spawnMessage | spawnAnswer | migrationMessage | migrationAccept
  | migrationCommit | migrationAbort | contextFreeNotice | refusalTimerExpiry | vectorSlotEntry | remoteRequest
  | remoteReply | tensorOpStart | tileArrival | homeSliceAccess | drain | drainAck | sweep | sweepEnd
  | tileExpiry | engineCommandStart | engineCommandComplete | launchSelect | depRecheck | dispatcherSpawnRetry
  | teardownNotice | taskRecord | nodeRun | plainNodeComplete | belfryTimer | opMoveStart | opMoveEnd
  | droopTrip | droopStretchEnd | droopWithdrawalEnd | currentLimitTrip | currentLimitRelease | thermalTrip
  | thermalTripEnd | watchdogExpiry | lanternSignal | leaseExpiry | packetSend | reduceResult | reduceTimeout
  | portLinkDown | portLinkUp | walkComplete | lanternRestart | clusterTlbHit
  deriving DecidableEq, Repr

end Sys2Proof
end

