-- ==== Sys2Proof/WellFormed.lean ====
section
/-! DEFINITION. Which terms of `Instr` stand for a Nellyn instruction that some word encodes, and which events name
units that the package has (R12). -/

namespace Sys2Proof

/-- The scope and ordering of an atomic agree (R242). -/
def atomicScopeOk (o : Ord4) (s : Scope) : Bool :=
  if o = .none then decide (s = .lane) else decide (s ≠ .lane)

/-- A load has no extension on a dword (R25, R299). -/
def loadOk (z : Sz) (sx : Bool) : Bool := !(sx && decide (z = .d))

/-- Element types of `vshl`, `vshr`, `vadd` and `vsub` (R130). -/
def VTy.isInt (t : VTy) : Bool := decide (t ≠ .h16) && decide (t ≠ .f32)

/-- 32-bit integer types. -/
def VTy.isInt32 (t : VTy) : Bool := decide (t = .i32) || decide (t = .w32)

/-- `ShapeInvalid` of R33, negated. -/
def Shape.valid (s : Shape) : Bool :=
  let w := s.w3.toNat
  let base := w / 4096 % 16
  let ok (i : Nat) : Bool := !(w.testBit (8 + i)) || decide (base + i ≤ 15)
  decide (w < 65536) && ok 0 && ok 1 && ok 2 && ok 3

/-- Completion scopes of the engine forms other than `cpt` (R317). -/
def engScopeOk (s : Scope) : Bool := decide (s ≠ .lane)

/-- Well-formed instructions, events and commands. -/
def Instr.wf : Instr → Bool
  | .jal d _ => decide (d ≠ 0)
  | .jalr d _ _ => decide (d ≠ 0)
  | .ld z sx _ _ _ | .ldAcq z sx _ _ _ => loadOk z sx
  | .ldf z sx _ _ _ | .ldfIndexed z sx _ _ _ _ => loadOk z sx
  | .amo _ _ o s _ _ _ | .amoSwap _ o s _ _ _ | .amoCas _ o s _ _ _ _ => atomicScopeOk o s
  | .resv _ acq s _ _ => atomicScopeOk (if acq then .acq else .none) s
  | .rlse _ rel s _ _ _ => atomicScopeOk (if rel then .rel else .none) s
  | .fenceAcq s | .fenceRel s | .fenceAr s => decide (s ≠ .lane)
  | .iinv s _ => decide (s ≠ .lane) && decide (s ≠ .core) && decide (s ≠ .pod)
  | .qwait s _ => decide (s ≠ .lane) && decide (s ≠ .core)
  | .sinit _ s _ _ => decide (s ≠ .lane)
  | .gmake s _ _ _ => decide (s ≠ .lane) && decide (s ≠ .core) && decide (s ≠ .pod)
  | .vshl t _ _ _ _ | .vshr t _ _ _ _ | .vaddInt t _ _ _ _ | .vsubInt t _ _ _ _ => t.isInt
  | .vcmp k t _ _ _ _ => (t.isInt32 && decide (k ≠ .un)) || decide (t = .f32)
  | .vcvtF2i _ t _ _ _ | .vcvtI2f _ t _ _ _ => t.isInt32
  | .vred _ t _ _ _ => t.isInt32 || decide (t = .f32)
  | .vtwid _ _ l _ => decide (l.toNat ≤ 20)
  | .mcv _ _ _ _ sh | .mshp _ sh => sh.valid
  | .cpy s _ _ _ _ _ | .cpyX s _ _ _ _ _ | .cpy2 s _ _ _ _ _ | .cpy2X s _ _ _ _ _ | .cph s _ _ _ _ => engScopeOk s
  | .cvbF2q s _ _ _ _ _ | .cvbQ2f s _ _ _ _ _ | .cvbF2h s _ _ _ _ _ | .cvbH2f s _ _ _ _ _ => engScopeOk s
  | .cpt s _ _ _ _ _ => decide (s = .pkg) || decide (s = .pod)
  | .tlbi s _ | .tlbiAll s => decide (s = .core) || decide (s = .clus) || decide (s = .die) || decide (s = .pkg)
  | .runAheadFetch cx _ => decide (cx < 1638400)
  | .refillComplete c _ | .pageWritebackComplete c _ | .l1Eviction c _ | .coreDoneReport _ c => decide (c < 102400)
  | .tensorOpComplete q _ | .lanternPolicyAction q _ _ => decide (q < 25600)
  | .clusterHandover c _ => decide (c < 1600)
  | .loadObject p _ => decide (p < 1024)
  | _ => true

end Sys2Proof
end

