-- ==== Sys2Proof/Decode.lean ====
section
/-! DEFINITION. Decoding (R21–R33): the twelve formats of R22 as records of their fields, the words of every Nellyn
instruction, and the encoder written from the same tables. Decoding is total on any bytes and rejects by name in the
order of R28: major, selector, reserved fields, inline record. -/

namespace Sys2Proof

/-- Why bytes are no instruction. -/
inductive DecodeError
  /-- Major 0x00 or 0x24–0x3F (R23, R29). -/
  | major
  /-- A selector value that no instruction of the major defines (R24, R25, R29). -/
  | selector
  /-- A reserved field or bit that is not zero (R27, R29). -/
  | reserved
  /-- A shape record that breaks R33. -/
  | shape
  /-- Fewer bytes than the instruction has (R21). -/
  | truncated
  deriving DecidableEq, Repr

/-- The result of decoding. -/
abbrev Dec := Except DecodeError Instr

/-- An instruction whose reserved fields must be zero (R28). -/
def need (b : Bool) (i : Instr) : Dec := if b then .ok i else .error .reserved

/-- A selector that must be assigned (R28). -/
def sel {α : Type} (o : Option α) (f : α → Dec) : Dec :=
  match o with
  | some x => f x
  | none => .error .selector

/-- Format A of R22: three sources. -/
structure FA where
  d : BitVec 4
  a : BitVec 4
  b : BitVec 4
  c : BitVec 4
  fn : BitVec 10

/-- The fields of a word in format A. -/
def FA.of (w : IWord) : FA where
  d := w.extractLsb' 22 4
  a := w.extractLsb' 18 4
  b := w.extractLsb' 14 4
  c := w.extractLsb' 10 4
  fn := w.extractLsb' 0 10

/-- The word of major `op` in format A. -/
def FA.word (op : BitVec 6) (x : FA) : IWord :=
  op ++ x.d ++ x.a ++ x.b ++ x.c ++ x.fn

/-- Format I of R22: immediate. -/
structure FI where
  d : BitVec 4
  a : BitVec 4
  imm : BitVec 18

/-- The fields of a word in format I. -/
def FI.of (w : IWord) : FI where
  d := w.extractLsb' 22 4
  a := w.extractLsb' 18 4
  imm := w.extractLsb' 0 18

/-- The word of major `op` in format I. -/
def FI.word (op : BitVec 6) (x : FI) : IWord :=
  op ++ x.d ++ x.a ++ x.imm

/-- Format U of R22: upper immediate. -/
structure FU where
  d : BitVec 4
  imm : BitVec 22

/-- The fields of a word in format U. -/
def FU.of (w : IWord) : FU where
  d := w.extractLsb' 22 4
  imm := w.extractLsb' 0 22

/-- The word of major `op` in format U. -/
def FU.word (op : BitVec 6) (x : FU) : IWord :=
  op ++ x.d ++ x.imm

/-- Format B of R22: branch. -/
structure FB where
  p : BitVec 3
  neg : BitVec 1
  off : BitVec 22

/-- The fields of a word in format B. -/
def FB.of (w : IWord) : FB where
  p := w.extractLsb' 23 3
  neg := w.extractLsb' 22 1
  off := w.extractLsb' 0 22

/-- The word of major `op` in format B. -/
def FB.word (op : BitVec 6) (x : FB) : IWord :=
  op ++ x.p ++ x.neg ++ x.off

/-- Format J of R22: jump. -/
structure FJ where
  d : BitVec 4
  off : BitVec 22

/-- The fields of a word in format J. -/
def FJ.of (w : IWord) : FJ where
  d := w.extractLsb' 22 4
  off := w.extractLsb' 0 22

/-- The word of major `op` in format J. -/
def FJ.word (op : BitVec 6) (x : FJ) : IWord :=
  op ++ x.d ++ x.off

/-- Format M of R22: memory. -/
structure FM where
  d : BitVec 4
  a : BitVec 4
  sz : BitVec 2
  ord : BitVec 2
  off : BitVec 14

/-- The fields of a word in format M. -/
def FM.of (w : IWord) : FM where
  d := w.extractLsb' 22 4
  a := w.extractLsb' 18 4
  sz := w.extractLsb' 16 2
  ord := w.extractLsb' 14 2
  off := w.extractLsb' 0 14

/-- The word of major `op` in format M. -/
def FM.word (op : BitVec 6) (x : FM) : IWord :=
  op ++ x.d ++ x.a ++ x.sz ++ x.ord ++ x.off

/-- Format P of R22: repeat frame. -/
structure FP where
  mode : BitVec 1
  len : BitVec 4
  stride : BitVec 3
  fsel : BitVec 3
  cnt : BitVec 15

/-- The fields of a word in format P. -/
def FP.of (w : IWord) : FP where
  mode := w.extractLsb' 25 1
  len := w.extractLsb' 21 4
  stride := w.extractLsb' 18 3
  fsel := w.extractLsb' 15 3
  cnt := w.extractLsb' 0 15

/-- The word of major `op` in format P. -/
def FP.word (op : BitVec 6) (x : FP) : IWord :=
  op ++ x.mode ++ x.len ++ x.stride ++ x.fsel ++ x.cnt

/-- Format V of R22: vector. -/
structure FV where
  vd : BitVec 3
  va : BitVec 3
  vb : BitVec 3
  vc : BitVec 3
  ty : BitVec 3
  m : BitVec 2
  fn : BitVec 9

/-- The fields of a word in format V. -/
def FV.of (w : IWord) : FV where
  vd := w.extractLsb' 23 3
  va := w.extractLsb' 20 3
  vb := w.extractLsb' 17 3
  vc := w.extractLsb' 14 3
  ty := w.extractLsb' 11 3
  m := w.extractLsb' 9 2
  fn := w.extractLsb' 0 9

/-- The word of major `op` in format V. -/
def FV.word (op : BitVec 6) (x : FV) : IWord :=
  op ++ x.vd ++ x.va ++ x.vb ++ x.vc ++ x.ty ++ x.m ++ x.fn

/-- Format S of R22: sync and group. -/
structure FS where
  h : BitVec 3
  d : BitVec 4
  a : BitVec 4
  sc : BitVec 3
  fn : BitVec 12

/-- The fields of a word in format S. -/
def FS.of (w : IWord) : FS where
  h := w.extractLsb' 23 3
  d := w.extractLsb' 19 4
  a := w.extractLsb' 15 4
  sc := w.extractLsb' 12 3
  fn := w.extractLsb' 0 12

/-- The word of major `op` in format S. -/
def FS.word (op : BitVec 6) (x : FS) : IWord :=
  op ++ x.h ++ x.d ++ x.a ++ x.sc ++ x.fn

/-- Format X of R22: tensor. -/
structure FX where
  acc : BitVec 2
  ga : BitVec 4
  gb : BitVec 4
  gs : BitVec 4
  fmt : BitVec 4
  fn : BitVec 8

/-- The fields of a word in format X. -/
def FX.of (w : IWord) : FX where
  acc := w.extractLsb' 24 2
  ga := w.extractLsb' 20 4
  gb := w.extractLsb' 16 4
  gs := w.extractLsb' 12 4
  fmt := w.extractLsb' 8 4
  fn := w.extractLsb' 0 8

/-- The word of major `op` in format X. -/
def FX.word (op : BitVec 6) (x : FX) : IWord :=
  op ++ x.acc ++ x.ga ++ x.gb ++ x.gs ++ x.fmt ++ x.fn

/-- Format E of R22: engine. -/
structure FE where
  tok : BitVec 4
  ch : BitVec 3
  d : BitVec 4
  a : BitVec 4
  n : BitVec 4
  fn : BitVec 7

/-- The fields of a word in format E. -/
def FE.of (w : IWord) : FE where
  tok := w.extractLsb' 22 4
  ch := w.extractLsb' 19 3
  d := w.extractLsb' 15 4
  a := w.extractLsb' 11 4
  n := w.extractLsb' 7 4
  fn := w.extractLsb' 0 7

/-- The word of major `op` in format E. -/
def FE.word (op : BitVec 6) (x : FE) : IWord :=
  op ++ x.tok ++ x.ch ++ x.d ++ x.a ++ x.n ++ x.fn

/-- Format Y of R22: system. -/
structure FY where
  d : BitVec 4
  a : BitVec 4
  fn : BitVec 18

/-- The fields of a word in format Y. -/
def FY.of (w : IWord) : FY where
  d := w.extractLsb' 22 4
  a := w.extractLsb' 18 4
  fn := w.extractLsb' 0 18

/-- The word of major `op` in format Y. -/
def FY.word (op : BitVec 6) (x : FY) : IWord :=
  op ++ x.d ++ x.a ++ x.fn

/-- The major opcode (R21). -/
def majorOf (w : IWord) : BitVec 6 := w.extractLsb' 26 6

/-- A 4-bit field that names a class of eight holds a legal number (R27). -/
def is8 (x : BitVec 4) : Bool := x.extractLsb' 3 1 == 0

/-- The register of a 4-bit field that names a class of eight (R27). -/
def r8 (x : BitVec 4) : Reg8 := x.extractLsb' 0 3

/-- The 4-bit field of a register of a class of eight (R27). -/
def f8 (x : Reg8) : BitVec 4 := 0#1 ++ x

/-- Bit `i` of a field. -/
def fbit {n : Nat} (x : BitVec n) (i : Nat) : Bool := x.getLsbD i

/-- One bit of a field. -/
def b1 (b : Bool) : BitVec 1 := BitVec.ofBool b

/-- The code of conditions of R93. -/
def Cond.code : Cond → BitVec 3
  | .eq => 0
  | .ne => 1
  | .lt => 2
  | .ltn => 3
  | .le => 4
  | .len => 5

/-- Reads the code of conditions of R93. -/
def Cond.ofCode? (x : BitVec 3) : Option Cond :=
  match x.toNat with
  | 0 => some .eq
  | 1 => some .ne
  | 2 => some .lt
  | 3 => some .ltn
  | 4 => some .le
  | 5 => some .len
  | _ => none

/-- The code of rounding modes of R96. -/
def RMode.code : RMode → BitVec 3
  | .rne => 0
  | .rz => 1
  | .rd => 2
  | .ru => 3
  | .rna => 4

/-- Reads the code of rounding modes of R96. -/
def RMode.ofCode? (x : BitVec 3) : Option RMode :=
  match x.toNat with
  | 0 => some .rne
  | 1 => some .rz
  | 2 => some .rd
  | 3 => some .ru
  | 4 => some .rna
  | _ => none

/-- The code of precision of R97. -/
def Prec.code : Prec → BitVec 1
  | .f64 => 0
  | .f32 => 1

/-- Reads the code of precision of R97. -/
def Prec.ofCode? (x : BitVec 1) : Option Prec :=
  match x.toNat with
  | 0 => some .f64
  | _ => some .f32

/-- The code of integer types of R99. -/
def ITy.code : ITy → BitVec 2
  | .i32 => 0
  | .i64 => 1
  | .w32 => 2
  | .w64 => 3

/-- Reads the code of integer types of R99. -/
def ITy.ofCode? (x : BitVec 2) : Option ITy :=
  match x.toNat with
  | 0 => some .i32
  | 1 => some .i64
  | 2 => some .w32
  | _ => some .w64

/-- The code of conditions of R98. -/
def FCond.code : FCond → BitVec 4
  | .eq => 0
  | .lt => 1
  | .le => 2
  | .un => 3

/-- Reads the code of conditions of R98. -/
def FCond.ofCode? (x : BitVec 4) : Option FCond :=
  match x.toNat with
  | 0 => some .eq
  | 1 => some .lt
  | 2 => some .le
  | 3 => some .un
  | _ => none

/-- The code of access sizes of R25. -/
def Sz.code : Sz → BitVec 2
  | .b => 0
  | .h => 1
  | .w => 2
  | .d => 3

/-- Reads the code of access sizes of R25. -/
def Sz.ofCode? (x : BitVec 2) : Option Sz :=
  match x.toNat with
  | 0 => some .b
  | 1 => some .h
  | 2 => some .w
  | _ => some .d

/-- The code of scopes of R192. -/
def Scope.code : Scope → BitVec 3
  | .lane => 0
  | .core => 1
  | .quad => 2
  | .clus => 3
  | .die => 4
  | .pkg => 5
  | .pod => 6

/-- Reads the code of scopes of R192. -/
def Scope.ofCode? (x : BitVec 3) : Option Scope :=
  match x.toNat with
  | 0 => some .lane
  | 1 => some .core
  | 2 => some .quad
  | 3 => some .clus
  | 4 => some .die
  | 5 => some .pkg
  | 6 => some .pod
  | _ => none

/-- The code of orderings of R242. -/
def Ord4.code : Ord4 → BitVec 2
  | .none => 0
  | .acq => 1
  | .rel => 2
  | .ar => 3

/-- Reads the code of orderings of R242. -/
def Ord4.ofCode? (x : BitVec 2) : Option Ord4 :=
  match x.toNat with
  | 0 => some .none
  | 1 => some .acq
  | 2 => some .rel
  | _ => some .ar

/-- The code of operations 0–7 of R242. -/
def AmoOp.code : AmoOp → BitVec 3
  | .add => 0
  | .and => 1
  | .or => 2
  | .xor => 3
  | .min => 4
  | .max => 5
  | .minn => 6
  | .maxn => 7

/-- Reads the code of operations 0–7 of R242. -/
def AmoOp.ofCode? (x : BitVec 3) : Option AmoOp :=
  match x.toNat with
  | 0 => some .add
  | 1 => some .and
  | 2 => some .or
  | 3 => some .xor
  | 4 => some .min
  | 5 => some .max
  | 6 => some .minn
  | _ => some .maxn

/-- The code of object kinds of R235. -/
def SoKind.code : SoKind → BitVec 6
  | .lock => 0
  | .bar => 1
  | .ring => 2

/-- Reads the code of object kinds of R235. -/
def SoKind.ofCode? (x : BitVec 6) : Option SoKind :=
  match x.toNat with
  | 0 => some .lock
  | 1 => some .bar
  | 2 => some .ring
  | _ => none

/-- The code of types of R128. -/
def VTy.code : VTy → BitVec 3
  | .i32 => 0
  | .w32 => 1
  | .i16 => 2
  | .w16 => 3
  | .i8 => 4
  | .w8 => 5
  | .h16 => 6
  | .f32 => 7

/-- Reads the code of types of R128. -/
def VTy.ofCode? (x : BitVec 3) : Option VTy :=
  match x.toNat with
  | 0 => some .i32
  | 1 => some .w32
  | 2 => some .i16
  | 3 => some .w16
  | 4 => some .i8
  | 5 => some .w8
  | 6 => some .h16
  | _ => some .f32

/-- The code of conditions of R131. -/
def VCond.code : VCond → BitVec 3
  | .eq => 0
  | .ne => 1
  | .lt => 2
  | .le => 3
  | .un => 4

/-- Reads the code of conditions of R131. -/
def VCond.ofCode? (x : BitVec 3) : Option VCond :=
  match x.toNat with
  | 0 => some .eq
  | 1 => some .ne
  | 2 => some .lt
  | 3 => some .le
  | 4 => some .un
  | _ => none

/-- The code of operations of R139 and R259. -/
def RedOp.code : RedOp → BitVec 2
  | .add => 0
  | .min => 1
  | .max => 2

/-- Reads the code of operations of R139 and R259. -/
def RedOp.ofCode? (x : BitVec 2) : Option RedOp :=
  match x.toNat with
  | 0 => some .add
  | 1 => some .min
  | 2 => some .max
  | _ => none

/-- The code of types of R259. -/
def GTy.code : GTy → BitVec 2
  | .i64 => 0
  | .w64 => 1
  | .f32 => 2

/-- Reads the code of types of R259. -/
def GTy.ofCode? (x : BitVec 2) : Option GTy :=
  match x.toNat with
  | 0 => some .i64
  | 1 => some .w64
  | 2 => some .f32
  | _ => none

/-- The code of votes of R259. -/
def Vote.code : Vote → BitVec 6
  | .any => 0
  | .all => 1

/-- Reads the code of votes of R259. -/
def Vote.ofCode? (x : BitVec 6) : Option Vote :=
  match x.toNat with
  | 0 => some .any
  | 1 => some .all
  | _ => none

/-- The code of formats of R170. -/
def TFmt.code : TFmt → BitVec 4
  | .q8 => 0
  | .h16 => 1

/-- Reads the code of formats of R170. -/
def TFmt.ofCode? (x : BitVec 4) : Option TFmt :=
  match x.toNat with
  | 0 => some .q8
  | 1 => some .h16
  | _ => none

/-- The code of register numbers of R282, R346, R350, R354 and R369. -/
def SysReg.code : SysReg → BitVec 12
  | .stat => 0x0
  | .rcnt => 0x1
  | .tvec => 0x2
  | .tepc => 0x3
  | .tcause => 0x4
  | .tval => 0x5
  | .phase => 0x6
  | .place => 0x10
  | .spen => 0x11
  | .mring => 0x12
  | .sopol => 0x13
  | .gpol => 0x14
  | .drth => 0x30
  | .tres => 0x31
  | .dispq => 0x40
  | .tmrfree => 0x41
  | .nport => 0x50

/-- Reads the code of register numbers of R282, R346, R350, R354 and R369. -/
def SysReg.ofCode? (x : BitVec 12) : Option SysReg :=
  match x.toNat with
  | 0x0 => some .stat
  | 0x1 => some .rcnt
  | 0x2 => some .tvec
  | 0x3 => some .tepc
  | 0x4 => some .tcause
  | 0x5 => some .tval
  | 0x6 => some .phase
  | 0x10 => some .place
  | 0x11 => some .spen
  | 0x12 => some .mring
  | 0x13 => some .sopol
  | 0x14 => some .gpol
  | 0x30 => some .drth
  | 0x31 => some .tres
  | 0x40 => some .dispq
  | 0x41 => some .tmrfree
  | 0x50 => some .nport
  | _ => none

/-- Major 0x01 (R89). -/
def dec01 (x : FA) : Dec :=
  match x.fn.toNat with
  | 0x000 => need (x.c == 0) (.add x.d x.a x.b)
  | 0x001 => need (x.c == 0) (.sub x.d x.a x.b)
  | 0x002 => need (x.c == 0) (.and x.d x.a x.b)
  | 0x003 => need (x.c == 0) (.or x.d x.a x.b)
  | 0x004 => need (x.c == 0) (.xor x.d x.a x.b)
  | 0x005 => need (x.c == 0) (.shl x.d x.a x.b)
  | 0x006 => need (x.c == 0) (.shr x.d x.a x.b)
  | 0x007 => need (x.c == 0) (.sar x.d x.a x.b)
  | 0x008 => need (x.c == 0) (.rol x.d x.a x.b)
  | 0x009 => need (x.c == 0) (.min x.d x.a x.b)
  | 0x00A => need (x.c == 0) (.max x.d x.a x.b)
  | 0x00B => need (x.c == 0) (.minn x.d x.a x.b)
  | 0x00C => need (x.c == 0) (.maxn x.d x.a x.b)
  | 0x00D => need (x.b == 0 && x.c == 0) (.clz x.d x.a)
  | 0x00E => need (x.b == 0 && x.c == 0) (.ctz x.d x.a)
  | 0x00F => need (x.b == 0 && x.c == 0) (.pop x.d x.a)
  | 0x010 => need (x.c == 0) (.bfx x.d x.a x.b)
  | 0x011 => need (x.c == 0) (.bfi x.d x.a x.b)
  | 0x012 => need (is8 x.c) (.sel x.d x.a x.b (r8 x.c))
  | _ => .error .selector

/-- Major 0x03 (R24). -/
def dec03 (x : FI) : Dec :=
  let i : BitVec 16 := x.imm.extractLsb' 0 16
  match (x.imm.extractLsb' 16 2).toNat with
  | 0 => .ok (.andi x.d x.a i)
  | 1 => .ok (.ori x.d x.a i)
  | 2 => .ok (.xori x.d x.a i)
  | _ => .error .selector

/-- Major 0x04 (R24). -/
def dec04 (x : FI) : Dec :=
  let n : BitVec 6 := x.imm.extractLsb' 0 6
  let l : BitVec 6 := x.imm.extractLsb' 6 6
  let z : Bool := x.imm.extractLsb' 6 9 == 0
  let y : Bool := x.imm.extractLsb' 12 3 == 0
  match (x.imm.extractLsb' 15 3).toNat with
  | 0 => need z (.shli x.d x.a n)
  | 1 => need z (.shri x.d x.a n)
  | 2 => need z (.sari x.d x.a n)
  | 3 => need y (.bfxImm x.d x.a l n)
  | 4 => need y (.bfiImm x.d x.a l n)
  | _ => .error .selector

/-- Major 0x07 (R93). -/
def dec07 (x : FA) : Dec :=
  sel (if x.fn.extractLsb' 3 7 == 0 then Cond.ofCode? (x.fn.extractLsb' 0 3) else none) fun k =>
    need (is8 x.d && x.c == 0) (.cmp k (r8 x.d) x.a x.b)

/-- Major 0x08 (R24, R93). -/
def dec08 (x : FI) : Dec :=
  sel (Cond.ofCode? (x.imm.extractLsb' 15 3)) fun k =>
    need (is8 x.d) (.cmpi k (r8 x.d) x.a (x.imm.extractLsb' 0 15))

/-- Major 0x09 (R94). -/
def dec09 (x : FA) : Dec :=
  match x.fn.toNat with
  | 0x000 => need (x.c == 0) (.mul x.d x.a x.b)
  | 0x001 => need (x.c == 0) (.mulh x.d x.a x.b)
  | 0x002 => need (x.c == 0) (.mulhn x.d x.a x.b)
  | 0x003 => need (x.c == 0) (.div x.d x.a x.b)
  | 0x004 => need (x.c == 0) (.divn x.d x.a x.b)
  | 0x005 => need (x.c == 0) (.rem x.d x.a x.b)
  | 0x006 => need (x.c == 0) (.remn x.d x.a x.b)
  | _ => .error .selector

/-- Major 0x0A (R97, R98). -/
def dec0A (x : FA) : Dec :=
  let r := RMode.ofCode? (x.fn.extractLsb' 7 3)
  let r0 : Bool := x.fn.extractLsb' 7 3 == 0
  let d := r8 x.d
  let a := r8 x.a
  let b := r8 x.b
  let ab := is8 x.d && is8 x.a && is8 x.b
  sel (Prec.ofCode? (x.fn.extractLsb' 6 1)) fun s =>
  match (x.fn.extractLsb' 0 6).toNat with
  | 0x00 => sel r fun r => need (ab && x.c == 0) (.fadd s r d a b)
  | 0x01 => sel r fun r => need (ab && x.c == 0) (.fsub s r d a b)
  | 0x02 => sel r fun r => need (ab && x.c == 0) (.fmul s r d a b)
  | 0x03 => sel r fun r => need (ab && is8 x.c) (.fma s r d a b (r8 x.c))
  | 0x04 => sel r fun r => need (ab && x.c == 0) (.fdiv s r d a b)
  | 0x05 => sel r fun r => need (ab && x.b == 0 && x.c == 0) (.fsqrt s r d a)
  | 0x06 => need (ab && x.c == 0 && r0) (.fmin s d a b)
  | 0x07 => need (ab && x.c == 0 && r0) (.fmax s d a b)
  | 0x08 => sel (FCond.ofCode? x.c) fun k => need (ab && r0) (.fcmp k s d a b)
  | 0x09 => need (is8 x.a && x.b == 0 && x.c == 0 && r0) (.fclass s x.d a)
  | _ => .error .selector

/-- Major 0x0B (R99). -/
def dec0B (x : FA) : Dec :=
  let r := RMode.ofCode? (x.fn.extractLsb' 7 3)
  let r0 : Bool := x.fn.extractLsb' 7 3 == 0
  let t0 : Bool := x.fn.extractLsb' 2 2 == 0
  let z : Bool := x.fn.extractLsb' 0 2 == 0 && x.b == 0 && x.c == 0
  sel (ITy.ofCode? (x.fn.extractLsb' 2 2)) fun t =>
  match (x.fn.extractLsb' 4 3).toNat with
  | 0 => sel r fun r => need (z && t0 && is8 x.d && is8 x.a) (.fcvtD2s r (r8 x.d) (r8 x.a))
  | 1 => need (z && r0 && t0 && is8 x.d && is8 x.a) (.fcvtS2d (r8 x.d) (r8 x.a))
  | 2 => sel r fun r => need (z && is8 x.a) (.fcvtD2i r t x.d (r8 x.a))
  | 3 => sel r fun r => need (z && is8 x.a) (.fcvtS2i r t x.d (r8 x.a))
  | 4 => sel r fun r => need (z && is8 x.d) (.fcvtI2d r t (r8 x.d) x.a)
  | 5 => sel r fun r => need (z && is8 x.d) (.fcvtI2s r t (r8 x.d) x.a)
  | 6 => need (z && r0 && t0 && is8 x.d) (.fmvgf (r8 x.d) x.a)
  | _ => need (z && r0 && t0 && is8 x.a) (.fmvfg x.d (r8 x.a))

/-- Major 0x0C (R22, R26). -/
def dec0C (x : FB) : Dec := .ok (.br x.p (fbit x.neg 0) x.off)

/-- Major 0x0D (R24). -/
def dec0D (x : FJ) : Dec := .ok (if x.d == 0 then .jmp x.off else .jal x.d x.off)

/-- Major 0x0E (R24). -/
def dec0E (x : FI) : Dec := .ok (if x.d == 0 then .jr x.a x.imm else .jalr x.d x.a x.imm)

/-- Major 0x0F (R31). -/
def dec0F (x : FP) : Dec :=
  if x.mode == 0 then .ok (.rpt x.len x.stride x.fsel x.cnt)
  else need (x.cnt.extractLsb' 4 11 == 0) (.rptReg x.len x.stride x.fsel (x.cnt.extractLsb' 0 4))

/-- Major 0x10 (R25). -/
def dec10 (x : FM) : Dec :=
  let sx := fbit x.ord 1
  sel (Sz.ofCode? x.sz) fun z =>
  if sx && x.sz == 3 then .error .selector
  else if fbit x.ord 0 then .ok (.ldAcq z sx x.d x.a x.off)
  else .ok (.ld z sx x.d x.a x.off)

/-- Major 0x11 (R25). -/
def dec11 (x : FM) : Dec :=
  sel (Sz.ofCode? x.sz) fun z =>
  match x.ord.toNat with
  | 0 => .ok (.st z x.d x.a x.off)
  | 2 => .ok (.stRel z x.d x.a x.off)
  | _ => .error .selector

/-- Major 0x12 (R24, R158). -/
def dec12 (x : FM) : Dec :=
  match x.sz.toNat with
  | 0 => need (x.ord == 0 && x.d == 0 && x.off == 0) (.mig x.a)
  | 1 =>
    match x.d.toNat with
    | 0 => need (x.ord == 0) (.pf x.a x.off)
    | 1 => need (x.ord == 0) (.pfLlc x.a x.off)
    | _ => .error .selector
  | _ => .error .selector

/-- Major 0x13 (R299). -/
def dec13 (x : FA) : Dec :=
  let ix := fbit x.fn 3
  let sx := fbit x.fn 2
  let lo : Bool := x.fn.extractLsb' 0 2 == 0
  let z4 : Bool := x.fn.extractLsb' 0 6 == 0
  sel (Sz.ofCode? (x.fn.extractLsb' 4 2)) fun z =>
  match (x.fn.extractLsb' 6 4).toNat with
  | 0 =>
    if sx && x.fn.extractLsb' 4 2 == 3 then .error .selector
    else if ix then need (lo && is8 x.c) (.ldfIndexed z sx x.d x.a x.b (r8 x.c))
    else need (lo && is8 x.c && x.b == 0) (.ldf z sx x.d x.a (r8 x.c))
  | 1 =>
    if ix then need (lo && !sx && x.c == 0) (.stfIndexed z x.d x.a x.b)
    else need (lo && !sx && x.c == 0 && x.b == 0) (.stf z x.d x.a)
  | 2 => need (z4 && x.b == 0 && x.c == 0) (.rnw x.d x.a)
  | 3 => need (z4 && x.b == 0 && x.c == 0) (.life x.d x.a)
  | 4 => need (z4 && x.d == 0 && x.b == 0 && x.c == 0) (.fdrop x.a)
  | 5 => need (z4 && x.d == 0 && x.c == 0) (.lifeSet x.a x.b)
  | _ => .error .selector

/-- The scope of an atomic (R242): with an ordering, codes 1 to 6; without one, the field must be 0. -/
def atomicScope? (o : Ord4) (x : BitVec 3) : Option Scope :=
  if o = .none then some .lane else if x == 0 then none else Scope.ofCode? x

/-- Major 0x14 (R242). -/
def dec14 (x : FA) : Dec :=
  let dbl := fbit x.fn 0
  let sc : BitVec 3 := x.fn.extractLsb' 3 3
  let op : BitVec 4 := x.fn.extractLsb' 6 4
  sel (Ord4.ofCode? (x.fn.extractLsb' 1 2)) fun o =>
  sel (atomicScope? o sc) fun s =>
  let sz : Bool := decide (o ≠ .none) || sc == 0
  match op.toNat with
  | 8 => need (sz && x.c == 0) (.amoSwap dbl o s x.d x.a x.b)
  | 9 => need sz (.amoCas dbl o s x.d x.a x.b x.c)
  | 10 =>
    match o with
    | .none => need (sz && x.b == 0 && x.c == 0) (.resv dbl false s x.d x.a)
    | .acq => need (sz && x.b == 0 && x.c == 0) (.resv dbl true s x.d x.a)
    | _ => .error .selector
  | 11 =>
    match o with
    | .none => need (sz && is8 x.d && x.c == 0) (.rlse dbl false s (r8 x.d) x.a x.b)
    | .rel => need (sz && is8 x.d && x.c == 0) (.rlse dbl true s (r8 x.d) x.a x.b)
    | _ => .error .selector
  | _ =>
    sel (if fbit op 3 then none else AmoOp.ofCode? (op.extractLsb' 0 3)) fun k =>
      need (sz && x.c == 0) (.amo k dbl o s x.d x.a x.b)

/-- A scope of a set. -/
def scopeIn (l : List Scope) (x : BitVec 3) : Option Scope :=
  match Scope.ofCode? x with
  | some s => if s ∈ l then some s else none
  | none => none

/-- Scopes from `.core` up. -/
def coreUp : List Scope := [.core, .quad, .clus, .die, .pkg, .pod]

/-- Major 0x15 (R192). -/
def dec15 (x : FY) : Dec :=
  let sc : BitVec 3 := x.fn.extractLsb' 9 3
  let mid : Bool := x.fn.extractLsb' 1 8 == 0
  let t := fbit x.fn 0
  let z12 : Bool := x.fn.extractLsb' 0 12 == 0
  let z9 : Bool := mid && !t
  match (x.fn.extractLsb' 12 6).toNat with
  | 0x01 => sel (scopeIn coreUp sc) fun s => need (z9 && x.d == 0 && x.a == 0) (.fenceAcq s)
  | 0x02 => sel (scopeIn coreUp sc) fun s => need (z9 && x.d == 0 && x.a == 0) (.fenceRel s)
  | 0x03 => sel (scopeIn coreUp sc) fun s => need (z9 && x.d == 0 && x.a == 0) (.fenceAr s)
  | 0x04 => need (z12 && x.d == 0) (.cwb x.a)
  | 0x05 => need (z12 && x.d == 0 && x.a == 0) .cwbAll
  | 0x06 => need (z12 && x.d == 0) (.cinv x.a)
  | 0x07 => need (z12 && x.d == 0 && x.a == 0) .cinvAll
  | 0x08 => sel (scopeIn [.quad, .clus, .die, .pkg] sc) fun s => need (z9 && x.d == 0) (.iinv s x.a)
  | 0x09 => need (z12 && x.d == 0 && x.a == 0) .fbar
  | 0x0A => sel (scopeIn [.quad, .clus, .die, .pkg, .pod] sc) fun s => need (mid && x.d == 0 && x.a == 0) (.qwait s t)
  | 0x0B => need z12 (.mfree x.d x.a)
  | _ => .error .selector

/-- Major 0x16 (R235). -/
def dec16 (x : FS) : Dec :=
  let v : BitVec 6 := x.fn.extractLsb' 0 6
  let h0 : Bool := x.h == 0
  let r : Bool := x.h == 0 && x.sc == 0
  match (x.fn.extractLsb' 6 6).toNat with
  | 0x01 => sel (SoKind.ofCode? v) fun k => sel (scopeIn coreUp x.sc) fun s => need h0 (.sinit k s x.d x.a)
  | 0x03 =>
    match v.toNat with
    | 0 => need (r && x.d == 0) (.slock x.a)
    | 1 => need r (.slockCall x.d x.a)
    | _ => .error .selector
  | 0x05 =>
    match v.toNat with
    | 0 => need r (.sarr x.d x.a)
    | 1 => need r (.sarrEos x.d x.a)
    | _ => .error .selector
  | 0x02 => if v == 0 then need (r && is8 x.d) (.sfin (r8 x.d) x.a) else .error .selector
  | 0x04 => if v == 0 then need (r && x.d == 0) (.sunlk x.a) else .error .selector
  | 0x06 => if v == 0 then need r (.sexp x.d x.a) else .error .selector
  | 0x07 => if v == 0 then need r (.swait x.d x.a) else .error .selector
  | 0x08 => if v == 0 then need r (.smode x.d x.a) else .error .selector
  | _ => .error .selector

/-- Major 0x17 (R259). -/
def dec17 (x : FS) : Dec :=
  let v : BitVec 6 := x.fn.extractLsb' 0 6
  let s0 : Bool := x.sc == 0
  match (x.fn.extractLsb' 6 6).toNat with
  | 0x01 => if v == 0 then sel (scopeIn [.quad, .clus, .die, .pkg] x.sc) fun s =>
      need (is8 x.d) (.gmake s (r8 x.d) x.h x.a) else .error .selector
  | 0x02 => if v == 0 then need (s0 && is8 x.d) (.gjoin (r8 x.d) x.h x.a) else .error .selector
  | 0x03 => if v == 0 then need (s0 && is8 x.d && x.a == 0) (.gleave (r8 x.d) x.h) else .error .selector
  | 0x04 => if v == 0 then need (s0 && x.a == 0) (.gbar x.d x.h) else .error .selector
  | 0x05 => sel (Vote.ofCode? v) fun k => need s0 (.gvote k x.d x.h x.a)
  | 0x06 => sel (RedOp.ofCode? (x.fn.extractLsb' 4 2)) fun o => sel (GTy.ofCode? (x.fn.extractLsb' 0 2)) fun t =>
      need (s0 && x.fn.extractLsb' 2 2 == 0) (.gred o t x.d x.h x.a)
  | 0x07 => if v == 0 then need (s0 && x.a == 0) (.gsize x.d x.h) else .error .selector
  | 0x08 => if v == 0 then need (s0 && x.a == 0) (.grank x.d x.h) else .error .selector
  | 0x09 => if v == 0 then need (s0 && x.a == 0) (.gstat x.d x.h) else .error .selector
  | _ => .error .selector

/-- Major 0x18 (R74). -/
def dec18 (x : FA) : Dec :=
  match x.fn.toNat with
  | 0x001 => need (is8 x.d) (.spawn (r8 x.d) x.a x.b x.c)
  | 0x002 => need (x.d == 0 && x.a == 0 && x.b == 0 && x.c == 0) .quit
  | 0x003 => need (x.a == 0 && x.b == 0 && is8 x.c) (.reap x.d (r8 x.c))
  | 0x004 => need (is8 x.d && x.b == 0 && x.c == 0) (.kill (r8 x.d) x.a)
  | 0x005 => need (is8 x.d && x.a == 0 && x.b == 0 && x.c == 0) (.cfw (r8 x.d))
  | 0x006 => need (x.d == 0 && x.a == 0 && x.c == 0) (.yield x.b)
  | 0x007 => need (x.b == 0 && x.c == 0) (.ctxs x.d x.a)
  | _ => .error .selector

/-- Major 0x19 (R129). -/
def dec19 (x : FV) : Dec :=
  let r := RMode.ofCode? (x.fn.extractLsb' 6 3)
  let r0 : Bool := x.fn.extractLsb' 6 3 == 0
  let t0 : Bool := x.ty == 0
  let c0 : Bool := x.vc == 0
  match (x.fn.extractLsb' 0 6).toNat with
  | 0x00 => sel r fun r => need (t0 && c0) (.vadd r x.vd x.va x.vb x.m)
  | 0x01 => sel r fun r => need (t0 && c0) (.vsub r x.vd x.va x.vb x.m)
  | 0x02 => sel r fun r => need (t0 && c0) (.vmul r x.vd x.va x.vb x.m)
  | 0x03 => sel r fun r => need t0 (.vfma r x.vd x.va x.vb x.vc x.m)
  | 0x04 => need (r0 && t0 && c0) (.vmax x.vd x.va x.vb x.m)
  | 0x05 => need (r0 && t0 && c0) (.vmin x.vd x.va x.vb x.m)
  | 0x06 => need (r0 && t0 && c0 && x.vb == 0) (.vabs x.vd x.va x.m)
  | 0x07 => need (r0 && t0 && c0 && x.vb == 0) (.vneg x.vd x.va x.m)
  | _ => .error .selector

/-- A vector type of a set (R128). -/
def vtyIn (p : VTy → Bool) (x : BitVec 3) : Option VTy :=
  match VTy.ofCode? x with
  | some t => if p t then some t else none
  | none => none

/-- A 3-bit field that names a mask register (R128). -/
def isM (x : BitVec 3) : Bool := x.extractLsb' 2 1 == 0

/-- The mask register of such a field. -/
def rM (x : BitVec 3) : Reg4 := x.extractLsb' 0 2

/-- The 3-bit field of a mask register. -/
def fM (x : Reg4) : BitVec 3 := 0#1 ++ x

/-- The types of `vcmp` under a condition (R131). -/
def vcmpTy (k : VCond) (t : VTy) : Bool := (t.isInt32 && decide (k ≠ .un)) || decide (t = .f32)

/-- Major 0x1A (R130, R131). -/
def dec1A (x : FV) : Dec :=
  let c0 : Bool := x.vc == 0
  match x.fn.toNat with
  | 0x000 => need (x.ty == 0 && c0) (.vand x.vd x.va x.vb x.m)
  | 0x001 => need (x.ty == 0 && c0) (.vor x.vd x.va x.vb x.m)
  | 0x002 => need (x.ty == 0 && c0) (.vxor x.vd x.va x.vb x.m)
  | 0x003 => sel (vtyIn VTy.isInt x.ty) fun t => need c0 (.vshl t x.vd x.va x.vb x.m)
  | 0x004 => sel (vtyIn VTy.isInt x.ty) fun t => need c0 (.vshr t x.vd x.va x.vb x.m)
  | 0x005 => sel (vtyIn VTy.isInt x.ty) fun t => need c0 (.vaddInt t x.vd x.va x.vb x.m)
  | 0x006 => sel (vtyIn VTy.isInt x.ty) fun t => need c0 (.vsubInt t x.vd x.va x.vb x.m)
  | 0x007 => sel (VCond.ofCode? x.vc) fun k => sel (vtyIn (vcmpTy k) x.ty) fun t =>
      need (isM x.vd) (.vcmp k t (rM x.vd) x.va x.vb x.m)
  | 0x008 => need (x.ty == 0 && isM x.vc) (.vsel x.vd x.va x.vb (rM x.vc) x.m)
  | _ => .error .selector

/-- Major 0x1B (R132). -/
def dec1B (x : FV) : Dec :=
  let g : GReg := x.fn.extractLsb' 2 4
  let z : Bool := x.fn.extractLsb' 0 2 == 0 && x.ty == 0
  let a0 : Bool := x.va == 0
  let c0 : Bool := x.vc == 0
  match (x.fn.extractLsb' 6 3).toNat with
  | 0 => need (z && c0) (.vld x.vd g (x.va ++ x.vb) x.m)
  | 1 => need (z && x.vd == 0) (.vst x.vc g (x.va ++ x.vb) x.m)
  | 2 => need (z && a0 && c0) (.vgath x.vd g x.vb x.m)
  | 3 => need (z && x.vd == 0 && a0) (.vscat x.vc g x.vb x.m)
  | 4 => need (z && a0 && x.vb == 0 && c0) (.vbcast x.vd g x.m)
  | 5 => need (z && c0) (.vperm x.vd x.va x.vb g x.m)
  | _ => .error .selector

/-- Major 0x1C (R134–R136, R138). -/
def dec1C (x : FV) : Dec :=
  let hi : BitVec 3 := x.fn.extractLsb' 6 3
  let r := RMode.ofCode? hi
  let h0 : Bool := hi == 0
  let t0 : Bool := x.ty == 0
  let b0 : Bool := x.vb == 0
  let c0 : Bool := x.vc == 0
  let lo : BitVec 6 := x.fn.extractLsb' 0 6
  let n : BitVec 2 := x.fn.extractLsb' 0 2
  let all0 : Bool := x.vd == 0 && x.va == 0 && b0 && c0 && t0 && x.m == 0
  match (lo.extractLsb' 2 4).toNat with
  | 0 =>
    match n.toNat with
    | 0 => sel r fun r => need (t0 && c0) (.vcvtF2h r x.vd x.va x.vb x.m)
    | 1 => sel r fun r => need (t0 && b0 && c0) (.vcvtH2fl r x.vd x.va x.m)
    | 2 => sel r fun r => need (t0 && b0 && c0) (.vcvtH2fh r x.vd x.va x.m)
    | _ => sel r fun r => sel (vtyIn VTy.isInt32 x.ty) fun t => need (b0 && c0) (.vcvtF2i r t x.vd x.va x.m)
  | 1 =>
    if n == 0 then sel r fun r => sel (vtyIn VTy.isInt32 x.ty) fun t => need (b0 && c0) (.vcvtI2f r t x.vd x.va x.m)
    else .error .selector
  | 2 => need (h0 && t0 && b0 && c0) (.vdec x.vd x.va n x.m)
  | 3 => need (h0 && t0 && b0 && c0) (.venc x.vd x.va n x.m)
  | 4 => if n == 0 then need (h0 && t0) (.vdot x.vd x.va x.vb x.vc x.m) else .error .selector
  | k =>
    if k < 12 then .error .selector
    else
      match hi.toNat with
      | 0 => need all0 (.ldtab (x.fn.extractLsb' 0 4))
      | 1 => need (all0 && x.fn.extractLsb' 0 4 == 0) .ldtabQa
      | 2 => need (all0 && x.fn.extractLsb' 0 4 == 0) .ldtabQb
      | _ => .error .selector

/-- Types of `vred` (R139). -/
def vredTy (t : VTy) : Bool := t.isInt32 || decide (t = .f32)

/-- Major 0x1D (R139–R141). -/
def dec1D (x : FV) : Dec :=
  let h0 : Bool := x.fn.extractLsb' 6 3 == 0
  let t0 : Bool := x.ty == 0
  let b0 : Bool := x.vb == 0
  let c0 : Bool := x.vc == 0
  let l : BitVec 5 := x.fn.extractLsb' 0 5
  if fbit x.fn 5 then
    if l.toNat ≤ 20 then need (h0 && t0 && b0 && c0) (.vtwid x.vd x.va l x.m) else .error .selector
  else if l == 8 then need (h0 && t0) (.vbfly x.vd x.va x.vb x.vc x.m)
  else if x.fn.extractLsb' 2 3 == 0 then
    sel (RedOp.ofCode? (x.fn.extractLsb' 0 2)) fun o => sel (vtyIn vredTy x.ty) fun t =>
      need (h0 && b0 && c0) (.vred o t x.vd x.va x.m)
  else .error .selector

/-- Major 0x1E (R170). `sh` is the record of the four inline words. -/
def dec1E (x : FX) (sh : Shape) : Dec :=
  let f0 : Bool := x.fmt == 0
  match x.fn.toNat with
  | 0x01 => need (f0 && x.ga == 0 && x.gb == 0 && x.gs == 0) (.mclr x.acc)
  | 0x02 =>
    match x.fmt.toNat with
    | 0 => .ok (.mmaQ8 x.acc x.ga x.gb x.gs)
    | 1 => need (x.gs == 0) (.mmaH16 x.acc x.ga x.gb)
    | _ => .error .selector
  | 0x03 =>
    match x.fmt.toNat with
    | 0 => need (x.gb == 0) (.mmrQ8 x.acc x.ga x.gs)
    | 1 => need (x.gb == 0 && x.gs == 0) (.mmrH16 x.acc x.ga)
    | _ => .error .selector
  | 0x04 => sel (TFmt.ofCode? x.fmt) fun f => need (x.acc == 0 && x.ga == 0 && x.gs == 0) (.mlatch f x.gb)
  | 0x05 =>
    if f0 then (if sh.valid then .ok (.mcv x.acc x.ga x.gb x.gs sh) else .error .shape) else .error .selector
  | 0x06 =>
    if f0 && x.acc == 0 && x.gb == 0 && x.gs == 0 then
      (if sh.valid then .ok (.mshp x.ga sh) else .error .shape)
    else .error .reserved
  | 0x07 => need (f0 && x.gb == 0 && x.gs == 0) (.mld x.acc x.ga)
  | 0x08 => need (f0 && x.gb == 0 && x.gs == 0) (.mst x.acc x.ga)
  | _ => .error .selector

/-- Major 0x1F (R317). -/
def dec1F (x : FE) : Dec :=
  let sc : BitVec 3 := x.fn.extractLsb' 0 3
  let s := scopeIn coreUp sc
  match (x.fn.extractLsb' 3 4).toNat with
  | 0 => sel s fun s => .ok (.cpy s x.tok x.ch x.d x.a x.n)
  | 1 => sel s fun s => .ok (.cpyX s x.tok x.ch x.d x.a x.n)
  | 2 => sel s fun s => .ok (.cpy2 s x.tok x.ch x.d x.a x.n)
  | 3 => sel s fun s => .ok (.cpy2X s x.tok x.ch x.d x.a x.n)
  | 4 => sel s fun s => need (x.d == 0) (.cph s x.tok x.ch x.a x.n)
  | 5 => sel (scopeIn [.pkg, .pod] sc) fun s => .ok (.cpt s x.tok x.ch x.d x.a x.n)
  | 6 => sel s fun s => .ok (.cvbF2q s x.tok x.ch x.d x.a x.n)
  | 7 => sel s fun s => .ok (.cvbQ2f s x.tok x.ch x.d x.a x.n)
  | 8 => sel s fun s => .ok (.cvbF2h s x.tok x.ch x.d x.a x.n)
  | 9 => sel s fun s => .ok (.cvbH2f s x.tok x.ch x.d x.a x.n)
  | 10 => if sc == 0 then need (x.tok == 0 && x.a == 0 && x.n == 0) (.cpst x.d x.ch) else .error .selector
  | 11 => if sc == 0 then need (x.tok == 0 && x.d == 0 && x.n == 0) (.cpw x.ch x.a) else .error .selector
  | _ => .error .selector

/-- Major 0x20 (R339). -/
def dec20 (x : FY) : Dec :=
  let t : GReg := x.fn.extractLsb' 8 4
  let z8 : Bool := x.fn.extractLsb' 0 8 == 0
  let z : Bool := x.fn.extractLsb' 0 12 == 0
  match (x.fn.extractLsb' 12 6).toNat with
  | 0x01 => need z (.lnch x.d x.a)
  | 0x02 => need z (.tkadd x.d x.a)
  | 0x03 => need z8 (.tkaddAt x.d x.a t)
  | 0x04 => need z (.tgrun x.d x.a)
  | 0x05 => need (z8 && x.d == 0) (.notify x.a t)
  | 0x06 => need z8 (.wwait x.d x.a t)
  | 0x07 => need (z && x.d == 0) (.wake x.a)
  | 0x08 => need z8 (.wakeAt x.d x.a t)
  | _ => .error .selector

/-- Major 0x21 (R359). -/
def dec21 (x : FY) : Dec :=
  let z : Bool := x.fn.extractLsb' 0 12 == 0
  match (x.fn.extractLsb' 12 6).toNat with
  | 0x01 => need (z && x.a == 0) (.time x.d)
  | 0x02 => need (z && x.a == 0) (.cyc x.d)
  | 0x03 => need z (.pwrq x.d x.a)
  | 0x04 => need (z && x.a == 0) (.pstat x.d)
  | _ => .error .selector

/-- Major 0x22 (R382). -/
def dec22 (x : FE) : Dec :=
  let z : Bool := x.fn.extractLsb' 0 3 == 0 && x.tok == 0 && x.ch == 0
  match (x.fn.extractLsb' 3 4).toNat with
  | 0 => need (z && x.n == 0) (.nring x.d x.a)
  | 1 => need z (.npost x.d x.a x.n)
  | 2 => need (z && x.n == 0) (.ncnt x.d x.a)
  | 3 => need (z && x.d == 0) (.ncw x.a x.n)
  | _ => .error .selector

/-- Scopes of `tlbi` (R286). -/
def tlbiScopes : List Scope := [.core, .clus, .die, .pkg]

/-- Major 0x23 (R282). A system register number that no chapter lists is unassigned (log 12). -/
def dec23 (x : FY) : Dec :=
  let n : BitVec 12 := x.fn.extractLsb' 0 12
  let isFifo : Bool := n.extractLsb' 2 10 == 8
  let c : Reg4 := n.extractLsb' 0 2
  match (x.fn.extractLsb' 12 6).toNat with
  | 0x00 => need (n == 0 && x.d == 0 && x.a == 0) .nop
  | 0x01 => need (x.d == 0 && x.a == 0) (.trap n)
  | 0x02 => need (x.d == 0 && x.a == 0) (.brk n)
  | 0x03 => need (n == 0 && x.d == 0 && x.a == 0) .eret
  | 0x04 => if isFifo then need (x.a == 0) (.fifoPop x.d c)
      else sel (SysReg.ofCode? n) fun r => need (x.a == 0) (.mfs x.d r)
  | 0x05 => if isFifo then need (x.d == 0) (.fifoPush c x.a)
      else sel (SysReg.ofCode? n) fun r => need (x.d == 0) (.mts r x.a)
  | 0x06 => sel (scopeIn tlbiScopes (n.extractLsb' 9 3)) fun s =>
      if fbit n 8 then need (n.extractLsb' 0 8 == 0 && x.d == 0 && x.a == 0) (.tlbiAll s)
      else need (n.extractLsb' 0 8 == 0 && x.d == 0) (.tlbi s x.a)
  | 0x07 => need (n == 0 && x.d == 0 && x.a == 0) .halt
  | _ => .error .selector

/-- `InlineWords` of R28: a word, decodable but for its record, that four inline words follow (R170). -/
def inlineWords (w : IWord) : Bool :=
  let x := FX.of w
  majorOf w == 0x1E && x.fmt == 0 &&
    (x.fn == 0x05 || (x.fn == 0x06 && x.acc == 0 && x.gb == 0 && x.gs == 0))

/-- An instruction from its word and the record of the four words after it, which only `inlineWords` read (R28). -/
def decodeWord (w : IWord) (sh : Shape) : Dec :=
  match (majorOf w).toNat with
  | 0x01 => dec01 (FA.of w)
  | 0x02 => .ok (.addi (FI.of w).d (FI.of w).a (FI.of w).imm)
  | 0x03 => dec03 (FI.of w)
  | 0x04 => dec04 (FI.of w)
  | 0x05 => .ok (.lui (FU.of w).d (FU.of w).imm)
  | 0x06 => .ok (.adpc (FU.of w).d (FU.of w).imm)
  | 0x07 => dec07 (FA.of w)
  | 0x08 => dec08 (FI.of w)
  | 0x09 => dec09 (FA.of w)
  | 0x0A => dec0A (FA.of w)
  | 0x0B => dec0B (FA.of w)
  | 0x0C => dec0C (FB.of w)
  | 0x0D => dec0D (FJ.of w)
  | 0x0E => dec0E (FI.of w)
  | 0x0F => dec0F (FP.of w)
  | 0x10 => dec10 (FM.of w)
  | 0x11 => dec11 (FM.of w)
  | 0x12 => dec12 (FM.of w)
  | 0x13 => dec13 (FA.of w)
  | 0x14 => dec14 (FA.of w)
  | 0x15 => dec15 (FY.of w)
  | 0x16 => dec16 (FS.of w)
  | 0x17 => dec17 (FS.of w)
  | 0x18 => dec18 (FA.of w)
  | 0x19 => dec19 (FV.of w)
  | 0x1A => dec1A (FV.of w)
  | 0x1B => dec1B (FV.of w)
  | 0x1C => dec1C (FV.of w)
  | 0x1D => dec1D (FV.of w)
  | 0x1E => dec1E (FX.of w) sh
  | 0x1F => dec1F (FE.of w)
  | 0x20 => dec20 (FY.of w)
  | 0x21 => dec21 (FY.of w)
  | 0x22 => dec22 (FE.of w)
  | 0x23 => dec23 (FY.of w)
  | _ => .error .major

/-- A word from four bytes, least significant first (R5, R21). -/
def leWord (a b c d : Byte) : IWord := d ++ c ++ b ++ a

/-- The record of sixteen inline bytes (R33); none when there are fewer. -/
def shapeOf : List Byte → Option (Shape × List Byte)
  | a :: b :: c :: d :: e :: f :: g :: h :: i :: j :: k :: l :: m :: n :: o :: p :: t =>
    some (⟨leWord a b c d, leWord e f g h, leWord i j k l, leWord m n o p⟩, t)
  | _ => none

/-- The instruction at the head of a list of bytes, and the bytes after it. -/
def decode : List Byte → Except DecodeError (Instr × List Byte)
  | a :: b :: c :: d :: t =>
    let w := leWord a b c d
    if inlineWords w then
      match shapeOf t with
      | some (sh, t') =>
        match decodeWord w sh with
        | .ok i => .ok (i, t')
        | .error e => .error e
      | none => .error .truncated
    else
      match decodeWord w ⟨0, 0, 0, 0⟩ with
      | .ok i => .ok (i, t)
      | .error e => .error e
  | _ => .error .truncated

/-- The bytes of a word, least significant first (R5). -/
def wordBytes (w : IWord) : List Byte :=
  [w.extractLsb' 0 8, w.extractLsb' 8 8, w.extractLsb' 16 8, w.extractLsb' 24 8]

/-- `n` bytes of a number, least significant first. -/
def natBytes : (n : Nat) → Nat → List Byte
  | 0, _ => []
  | n + 1, x => BitVec.ofNat 8 x :: natBytes n (x / 256)

/-- The instruction read from `nbits` bits numbered from bit 0 of the first word; bits above are 0. -/
def decodeTableWord (nbits w : Nat) : Option Instr :=
  match decode (natBytes 20 (w % 2 ^ nbits)) with
  | .ok (i, _) => some i
  | .error _ => none

/-- The bytes `isFifo` number of a FIFO (R282). -/
def fifoNum (c : Reg4) : BitVec 12 := 0x8#10 ++ c

/-- The word of a format Y instruction: operation, then the low twelve bits of fn. -/
def wordY (op : BitVec 6) (d a : BitVec 4) (k : BitVec 6) (n : BitVec 12) : IWord := FY.word op ⟨d, a, k ++ n⟩

/-- The fn of an atomic (R242). -/
def fnAmo (op : BitVec 4) (dbl : Bool) (o : Ord4) (s : Scope) : BitVec 10 := op ++ s.code ++ o.code ++ b1 dbl

/-- The fn of a scalar FP instruction (R97). -/
def fnF (r : BitVec 3) (s : Prec) (op : BitVec 6) : BitVec 10 := r ++ s.code ++ op

/-- The fn of a conversion (R99). -/
def fnC (r : BitVec 3) (op : BitVec 3) (t : BitVec 2) : BitVec 10 := r ++ op ++ t ++ 0#2

/-- The fn of a fleeting instruction (R299). -/
def fnL (op : BitVec 4) (z : Sz) (x s : Bool) : BitVec 10 := op ++ z.code ++ b1 x ++ b1 s ++ 0#2

/-- The inline words of a shape record (R33). -/
def Shape.words (s : Shape) : List IWord := [s.w0, s.w1, s.w2, s.w3]

/-- The words of a Nellyn instruction; none for an event or a command. -/
def encode : Instr → Option (List IWord)
  | .add d a b => some [FA.word 0x01 ⟨d, a, b, 0, 0x000⟩]
  | .sub d a b => some [FA.word 0x01 ⟨d, a, b, 0, 0x001⟩]
  | .and d a b => some [FA.word 0x01 ⟨d, a, b, 0, 0x002⟩]
  | .or d a b => some [FA.word 0x01 ⟨d, a, b, 0, 0x003⟩]
  | .xor d a b => some [FA.word 0x01 ⟨d, a, b, 0, 0x004⟩]
  | .shl d a b => some [FA.word 0x01 ⟨d, a, b, 0, 0x005⟩]
  | .shr d a b => some [FA.word 0x01 ⟨d, a, b, 0, 0x006⟩]
  | .sar d a b => some [FA.word 0x01 ⟨d, a, b, 0, 0x007⟩]
  | .rol d a b => some [FA.word 0x01 ⟨d, a, b, 0, 0x008⟩]
  | .min d a b => some [FA.word 0x01 ⟨d, a, b, 0, 0x009⟩]
  | .max d a b => some [FA.word 0x01 ⟨d, a, b, 0, 0x00A⟩]
  | .minn d a b => some [FA.word 0x01 ⟨d, a, b, 0, 0x00B⟩]
  | .maxn d a b => some [FA.word 0x01 ⟨d, a, b, 0, 0x00C⟩]
  | .clz d a => some [FA.word 0x01 ⟨d, a, 0, 0, 0x00D⟩]
  | .ctz d a => some [FA.word 0x01 ⟨d, a, 0, 0, 0x00E⟩]
  | .pop d a => some [FA.word 0x01 ⟨d, a, 0, 0, 0x00F⟩]
  | .bfx d a b => some [FA.word 0x01 ⟨d, a, b, 0, 0x010⟩]
  | .bfi d a b => some [FA.word 0x01 ⟨d, a, b, 0, 0x011⟩]
  | .sel d a b c => some [FA.word 0x01 ⟨d, a, b, f8 c, 0x012⟩]
  | .addi d a i => some [FI.word 0x02 ⟨d, a, i⟩]
  | .andi d a i => some [FI.word 0x03 ⟨d, a, 0#2 ++ i⟩]
  | .ori d a i => some [FI.word 0x03 ⟨d, a, 1#2 ++ i⟩]
  | .xori d a i => some [FI.word 0x03 ⟨d, a, 2#2 ++ i⟩]
  | .shli d a n => some [FI.word 0x04 ⟨d, a, 0#3 ++ 0#9 ++ n⟩]
  | .shri d a n => some [FI.word 0x04 ⟨d, a, 1#3 ++ 0#9 ++ n⟩]
  | .sari d a n => some [FI.word 0x04 ⟨d, a, 2#3 ++ 0#9 ++ n⟩]
  | .bfxImm d a l w => some [FI.word 0x04 ⟨d, a, 3#3 ++ 0#3 ++ l ++ w⟩]
  | .bfiImm d a l w => some [FI.word 0x04 ⟨d, a, 4#3 ++ 0#3 ++ l ++ w⟩]
  | .lui d i => some [FU.word 0x05 ⟨d, i⟩]
  | .adpc d i => some [FU.word 0x06 ⟨d, i⟩]
  | .cmp k d a b => some [FA.word 0x07 ⟨f8 d, a, b, 0, 0#7 ++ k.code⟩]
  | .cmpi k d a i => some [FI.word 0x08 ⟨f8 d, a, k.code ++ i⟩]
  | .mul d a b => some [FA.word 0x09 ⟨d, a, b, 0, 0x000⟩]
  | .mulh d a b => some [FA.word 0x09 ⟨d, a, b, 0, 0x001⟩]
  | .mulhn d a b => some [FA.word 0x09 ⟨d, a, b, 0, 0x002⟩]
  | .div d a b => some [FA.word 0x09 ⟨d, a, b, 0, 0x003⟩]
  | .divn d a b => some [FA.word 0x09 ⟨d, a, b, 0, 0x004⟩]
  | .rem d a b => some [FA.word 0x09 ⟨d, a, b, 0, 0x005⟩]
  | .remn d a b => some [FA.word 0x09 ⟨d, a, b, 0, 0x006⟩]
  | .fadd s r d a b => some [FA.word 0x0A ⟨f8 d, f8 a, f8 b, 0, fnF r.code s 0⟩]
  | .fsub s r d a b => some [FA.word 0x0A ⟨f8 d, f8 a, f8 b, 0, fnF r.code s 1⟩]
  | .fmul s r d a b => some [FA.word 0x0A ⟨f8 d, f8 a, f8 b, 0, fnF r.code s 2⟩]
  | .fma s r d a b c => some [FA.word 0x0A ⟨f8 d, f8 a, f8 b, f8 c, fnF r.code s 3⟩]
  | .fdiv s r d a b => some [FA.word 0x0A ⟨f8 d, f8 a, f8 b, 0, fnF r.code s 4⟩]
  | .fsqrt s r d a => some [FA.word 0x0A ⟨f8 d, f8 a, 0, 0, fnF r.code s 5⟩]
  | .fmin s d a b => some [FA.word 0x0A ⟨f8 d, f8 a, f8 b, 0, fnF 0 s 6⟩]
  | .fmax s d a b => some [FA.word 0x0A ⟨f8 d, f8 a, f8 b, 0, fnF 0 s 7⟩]
  | .fcmp k s d a b => some [FA.word 0x0A ⟨f8 d, f8 a, f8 b, k.code, fnF 0 s 8⟩]
  | .fclass s d a => some [FA.word 0x0A ⟨d, f8 a, 0, 0, fnF 0 s 9⟩]
  | .fcvtD2s r d a => some [FA.word 0x0B ⟨f8 d, f8 a, 0, 0, fnC r.code 0 0⟩]
  | .fcvtS2d d a => some [FA.word 0x0B ⟨f8 d, f8 a, 0, 0, fnC 0 1 0⟩]
  | .fcvtD2i r t d a => some [FA.word 0x0B ⟨d, f8 a, 0, 0, fnC r.code 2 t.code⟩]
  | .fcvtS2i r t d a => some [FA.word 0x0B ⟨d, f8 a, 0, 0, fnC r.code 3 t.code⟩]
  | .fcvtI2d r t d a => some [FA.word 0x0B ⟨f8 d, a, 0, 0, fnC r.code 4 t.code⟩]
  | .fcvtI2s r t d a => some [FA.word 0x0B ⟨f8 d, a, 0, 0, fnC r.code 5 t.code⟩]
  | .fmvgf d a => some [FA.word 0x0B ⟨f8 d, a, 0, 0, fnC 0 6 0⟩]
  | .fmvfg d a => some [FA.word 0x0B ⟨d, f8 a, 0, 0, fnC 0 7 0⟩]
  | .br p n o => some [FB.word 0x0C ⟨p, b1 n, o⟩]
  | .jmp o => some [FJ.word 0x0D ⟨0, o⟩]
  | .jal d o => some [FJ.word 0x0D ⟨d, o⟩]
  | .jr a i => some [FI.word 0x0E ⟨0, a, i⟩]
  | .jalr d a i => some [FI.word 0x0E ⟨d, a, i⟩]
  | .rpt l s f c => some [FP.word 0x0F ⟨0, l, s, f, c⟩]
  | .rptReg l s f g => some [FP.word 0x0F ⟨1, l, s, f, 0#11 ++ g⟩]
  | .ld z s d a o => some [FM.word 0x10 ⟨d, a, z.code, b1 s ++ 0#1, o⟩]
  | .ldAcq z s d a o => some [FM.word 0x10 ⟨d, a, z.code, b1 s ++ 1#1, o⟩]
  | .st z d a o => some [FM.word 0x11 ⟨d, a, z.code, 0, o⟩]
  | .stRel z d a o => some [FM.word 0x11 ⟨d, a, z.code, 2, o⟩]
  | .mig a => some [FM.word 0x12 ⟨0, a, 0, 0, 0⟩]
  | .pf a o => some [FM.word 0x12 ⟨0, a, 1, 0, o⟩]
  | .pfLlc a o => some [FM.word 0x12 ⟨1, a, 1, 0, o⟩]
  | .ldf z s d a c => some [FA.word 0x13 ⟨d, a, 0, f8 c, fnL 0 z false s⟩]
  | .ldfIndexed z s d a b c => some [FA.word 0x13 ⟨d, a, b, f8 c, fnL 0 z true s⟩]
  | .stf z d a => some [FA.word 0x13 ⟨d, a, 0, 0, fnL 1 z false false⟩]
  | .stfIndexed z d a b => some [FA.word 0x13 ⟨d, a, b, 0, fnL 1 z true false⟩]
  | .rnw d a => some [FA.word 0x13 ⟨d, a, 0, 0, 0x080⟩]
  | .life d a => some [FA.word 0x13 ⟨d, a, 0, 0, 0x0C0⟩]
  | .fdrop a => some [FA.word 0x13 ⟨0, a, 0, 0, 0x100⟩]
  | .lifeSet a b => some [FA.word 0x13 ⟨0, a, b, 0, 0x140⟩]
  | .amo k z o s d a b => some [FA.word 0x14 ⟨d, a, b, 0, fnAmo (0#1 ++ k.code) z o s⟩]
  | .amoSwap z o s d a b => some [FA.word 0x14 ⟨d, a, b, 0, fnAmo 8 z o s⟩]
  | .amoCas z o s d a b c => some [FA.word 0x14 ⟨d, a, b, c, fnAmo 9 z o s⟩]
  | .resv z q s d a => some [FA.word 0x14 ⟨d, a, 0, 0, fnAmo 10 z (if q then .acq else .none) s⟩]
  | .rlse z q s d a b => some [FA.word 0x14 ⟨f8 d, a, b, 0, fnAmo 11 z (if q then .rel else .none) s⟩]
  | .fenceAcq s => some [wordY 0x15 0 0 1 (s.code ++ 0#9)]
  | .fenceRel s => some [wordY 0x15 0 0 2 (s.code ++ 0#9)]
  | .fenceAr s => some [wordY 0x15 0 0 3 (s.code ++ 0#9)]
  | .cwb a => some [wordY 0x15 0 a 4 0]
  | .cwbAll => some [wordY 0x15 0 0 5 0]
  | .cinv a => some [wordY 0x15 0 a 6 0]
  | .cinvAll => some [wordY 0x15 0 0 7 0]
  | .iinv s a => some [wordY 0x15 0 a 8 (s.code ++ 0#9)]
  | .fbar => some [wordY 0x15 0 0 9 0]
  | .qwait s t => some [wordY 0x15 0 0 10 (s.code ++ 0#8 ++ b1 t)]
  | .mfree d a => some [wordY 0x15 d a 11 0]
  | .sinit k s d a => some [FS.word 0x16 ⟨0, d, a, s.code, 1#6 ++ k.code⟩]
  | .sfin d a => some [FS.word 0x16 ⟨0, f8 d, a, 0, 0x080⟩]
  | .slock a => some [FS.word 0x16 ⟨0, 0, a, 0, 0x0C0⟩]
  | .slockCall d a => some [FS.word 0x16 ⟨0, d, a, 0, 0x0C1⟩]
  | .sunlk a => some [FS.word 0x16 ⟨0, 0, a, 0, 0x100⟩]
  | .sarr d a => some [FS.word 0x16 ⟨0, d, a, 0, 0x140⟩]
  | .sarrEos d a => some [FS.word 0x16 ⟨0, d, a, 0, 0x141⟩]
  | .sexp d a => some [FS.word 0x16 ⟨0, d, a, 0, 0x180⟩]
  | .swait d a => some [FS.word 0x16 ⟨0, d, a, 0, 0x1C0⟩]
  | .smode d a => some [FS.word 0x16 ⟨0, d, a, 0, 0x200⟩]
  | .gmake s d x a => some [FS.word 0x17 ⟨x, f8 d, a, s.code, 0x040⟩]
  | .gjoin d x a => some [FS.word 0x17 ⟨x, f8 d, a, 0, 0x080⟩]
  | .gleave d x => some [FS.word 0x17 ⟨x, f8 d, 0, 0, 0x0C0⟩]
  | .gbar d x => some [FS.word 0x17 ⟨x, d, 0, 0, 0x100⟩]
  | .gvote v d x a => some [FS.word 0x17 ⟨x, d, a, 0, 5#6 ++ v.code⟩]
  | .gred o t d x a => some [FS.word 0x17 ⟨x, d, a, 0, 6#6 ++ o.code ++ 0#2 ++ t.code⟩]
  | .gsize d x => some [FS.word 0x17 ⟨x, d, 0, 0, 0x1C0⟩]
  | .grank d x => some [FS.word 0x17 ⟨x, d, 0, 0, 0x200⟩]
  | .gstat d x => some [FS.word 0x17 ⟨x, d, 0, 0, 0x240⟩]
  | .spawn d a b c => some [FA.word 0x18 ⟨f8 d, a, b, c, 1⟩]
  | .quit => some [FA.word 0x18 ⟨0, 0, 0, 0, 2⟩]
  | .reap d c => some [FA.word 0x18 ⟨d, 0, 0, f8 c, 3⟩]
  | .kill d a => some [FA.word 0x18 ⟨f8 d, a, 0, 0, 4⟩]
  | .cfw d => some [FA.word 0x18 ⟨f8 d, 0, 0, 0, 5⟩]
  | .yield n => some [FA.word 0x18 ⟨0, 0, n, 0, 6⟩]
  | .ctxs d a => some [FA.word 0x18 ⟨d, a, 0, 0, 7⟩]
  | .vadd r d a b m => some [FV.word 0x19 ⟨d, a, b, 0, 0, m, r.code ++ 0#6⟩]
  | .vsub r d a b m => some [FV.word 0x19 ⟨d, a, b, 0, 0, m, r.code ++ 1#6⟩]
  | .vmul r d a b m => some [FV.word 0x19 ⟨d, a, b, 0, 0, m, r.code ++ 2#6⟩]
  | .vfma r d a b c m => some [FV.word 0x19 ⟨d, a, b, c, 0, m, r.code ++ 3#6⟩]
  | .vmax d a b m => some [FV.word 0x19 ⟨d, a, b, 0, 0, m, 4⟩]
  | .vmin d a b m => some [FV.word 0x19 ⟨d, a, b, 0, 0, m, 5⟩]
  | .vabs d a m => some [FV.word 0x19 ⟨d, a, 0, 0, 0, m, 6⟩]
  | .vneg d a m => some [FV.word 0x19 ⟨d, a, 0, 0, 0, m, 7⟩]
  | .vand d a b m => some [FV.word 0x1A ⟨d, a, b, 0, 0, m, 0⟩]
  | .vor d a b m => some [FV.word 0x1A ⟨d, a, b, 0, 0, m, 1⟩]
  | .vxor d a b m => some [FV.word 0x1A ⟨d, a, b, 0, 0, m, 2⟩]
  | .vshl t d a b m => some [FV.word 0x1A ⟨d, a, b, 0, t.code, m, 3⟩]
  | .vshr t d a b m => some [FV.word 0x1A ⟨d, a, b, 0, t.code, m, 4⟩]
  | .vaddInt t d a b m => some [FV.word 0x1A ⟨d, a, b, 0, t.code, m, 5⟩]
  | .vsubInt t d a b m => some [FV.word 0x1A ⟨d, a, b, 0, t.code, m, 6⟩]
  | .vcmp k t d a b m => some [FV.word 0x1A ⟨fM d, a, b, k.code, t.code, m, 7⟩]
  | .vsel d a b c m => some [FV.word 0x1A ⟨d, a, b, fM c, 0, m, 8⟩]
  | .vld d g o m => some [FV.word 0x1B ⟨d, o.extractLsb' 3 3, o.extractLsb' 0 3, 0, 0, m, 0#3 ++ g ++ 0#2⟩]
  | .vst c g o m => some [FV.word 0x1B ⟨0, o.extractLsb' 3 3, o.extractLsb' 0 3, c, 0, m, 1#3 ++ g ++ 0#2⟩]
  | .vgath d g b m => some [FV.word 0x1B ⟨d, 0, b, 0, 0, m, 2#3 ++ g ++ 0#2⟩]
  | .vscat c g b m => some [FV.word 0x1B ⟨0, 0, b, c, 0, m, 3#3 ++ g ++ 0#2⟩]
  | .vbcast d g m => some [FV.word 0x1B ⟨d, 0, 0, 0, 0, m, 4#3 ++ g ++ 0#2⟩]
  | .vperm d a b g m => some [FV.word 0x1B ⟨d, a, b, 0, 0, m, 5#3 ++ g ++ 0#2⟩]
  | .vcvtF2h r d a b m => some [FV.word 0x1C ⟨d, a, b, 0, 0, m, r.code ++ 0#6⟩]
  | .vcvtH2fl r d a m => some [FV.word 0x1C ⟨d, a, 0, 0, 0, m, r.code ++ 1#6⟩]
  | .vcvtH2fh r d a m => some [FV.word 0x1C ⟨d, a, 0, 0, 0, m, r.code ++ 2#6⟩]
  | .vcvtF2i r t d a m => some [FV.word 0x1C ⟨d, a, 0, 0, t.code, m, r.code ++ 3#6⟩]
  | .vcvtI2f r t d a m => some [FV.word 0x1C ⟨d, a, 0, 0, t.code, m, r.code ++ 4#6⟩]
  | .vdec d a n m => some [FV.word 0x1C ⟨d, a, 0, 0, 0, m, 2#7 ++ n⟩]
  | .venc d a n m => some [FV.word 0x1C ⟨d, a, 0, 0, 0, m, 3#7 ++ n⟩]
  | .vdot d a b c m => some [FV.word 0x1C ⟨d, a, b, c, 0, m, 0x010⟩]
  | .ldtab a => some [FV.word 0x1C ⟨0, 0, 0, 0, 0, 0, 3#5 ++ a⟩]
  | .ldtabQa => some [FV.word 0x1C ⟨0, 0, 0, 0, 0, 0, 0x070⟩]
  | .ldtabQb => some [FV.word 0x1C ⟨0, 0, 0, 0, 0, 0, 0x0B0⟩]
  | .vred o t d a m => some [FV.word 0x1D ⟨d, a, 0, 0, t.code, m, 0#7 ++ o.code⟩]
  | .vbfly d a b c m => some [FV.word 0x1D ⟨d, a, b, c, 0, m, 8⟩]
  | .vtwid d a l m => some [FV.word 0x1D ⟨d, a, 0, 0, 0, m, 1#4 ++ l⟩]
  | .mclr n => some [FX.word 0x1E ⟨n, 0, 0, 0, 0, 1⟩]
  | .mmaQ8 n a b s => some [FX.word 0x1E ⟨n, a, b, s, 0, 2⟩]
  | .mmaH16 n a b => some [FX.word 0x1E ⟨n, a, b, 0, 1, 2⟩]
  | .mmrQ8 n a s => some [FX.word 0x1E ⟨n, a, 0, s, 0, 3⟩]
  | .mmrH16 n a => some [FX.word 0x1E ⟨n, a, 0, 0, 1, 3⟩]
  | .mlatch f b => some [FX.word 0x1E ⟨0, 0, b, 0, f.code, 4⟩]
  | .mcv n a b s sh => some (FX.word 0x1E ⟨n, a, b, s, 0, 5⟩ :: sh.words)
  | .mshp a sh => some (FX.word 0x1E ⟨0, a, 0, 0, 0, 6⟩ :: sh.words)
  | .mld n a => some [FX.word 0x1E ⟨n, a, 0, 0, 0, 7⟩]
  | .mst n a => some [FX.word 0x1E ⟨n, a, 0, 0, 0, 8⟩]
  | .cpy s t c d a n => some [FE.word 0x1F ⟨t, c, d, a, n, 0#4 ++ s.code⟩]
  | .cpyX s t c d a n => some [FE.word 0x1F ⟨t, c, d, a, n, 1#4 ++ s.code⟩]
  | .cpy2 s t c d a n => some [FE.word 0x1F ⟨t, c, d, a, n, 2#4 ++ s.code⟩]
  | .cpy2X s t c d a n => some [FE.word 0x1F ⟨t, c, d, a, n, 3#4 ++ s.code⟩]
  | .cph s t c a n => some [FE.word 0x1F ⟨t, c, 0, a, n, 4#4 ++ s.code⟩]
  | .cpt s t c d a n => some [FE.word 0x1F ⟨t, c, d, a, n, 5#4 ++ s.code⟩]
  | .cvbF2q s t c d a n => some [FE.word 0x1F ⟨t, c, d, a, n, 6#4 ++ s.code⟩]
  | .cvbQ2f s t c d a n => some [FE.word 0x1F ⟨t, c, d, a, n, 7#4 ++ s.code⟩]
  | .cvbF2h s t c d a n => some [FE.word 0x1F ⟨t, c, d, a, n, 8#4 ++ s.code⟩]
  | .cvbH2f s t c d a n => some [FE.word 0x1F ⟨t, c, d, a, n, 9#4 ++ s.code⟩]
  | .cpst d c => some [FE.word 0x1F ⟨0, c, d, 0, 0, 0x50⟩]
  | .cpw c a => some [FE.word 0x1F ⟨0, c, 0, a, 0, 0x58⟩]
  | .lnch d a => some [wordY 0x20 d a 1 0]
  | .tkadd d a => some [wordY 0x20 d a 2 0]
  | .tkaddAt d a t => some [wordY 0x20 d a 3 (t ++ 0#8)]
  | .tgrun d a => some [wordY 0x20 d a 4 0]
  | .notify a b => some [wordY 0x20 0 a 5 (b ++ 0#8)]
  | .wwait d a b => some [wordY 0x20 d a 6 (b ++ 0#8)]
  | .wake a => some [wordY 0x20 0 a 7 0]
  | .wakeAt d a t => some [wordY 0x20 d a 8 (t ++ 0#8)]
  | .time d => some [wordY 0x21 d 0 1 0]
  | .cyc d => some [wordY 0x21 d 0 2 0]
  | .pwrq d a => some [wordY 0x21 d a 3 0]
  | .pstat d => some [wordY 0x21 d 0 4 0]
  | .nring d a => some [FE.word 0x22 ⟨0, 0, d, a, 0, 0x00⟩]
  | .npost d a n => some [FE.word 0x22 ⟨0, 0, d, a, n, 0x08⟩]
  | .ncnt d a => some [FE.word 0x22 ⟨0, 0, d, a, 0, 0x10⟩]
  | .ncw a n => some [FE.word 0x22 ⟨0, 0, 0, a, n, 0x18⟩]
  | .nop => some [wordY 0x23 0 0 0 0]
  | .trap n => some [wordY 0x23 0 0 1 n]
  | .brk n => some [wordY 0x23 0 0 2 n]
  | .eret => some [wordY 0x23 0 0 3 0]
  | .mfs d r => some [wordY 0x23 d 0 4 r.code]
  | .mts r a => some [wordY 0x23 0 a 5 r.code]
  | .fifoPop d c => some [wordY 0x23 d 0 4 (fifoNum c)]
  | .fifoPush c a => some [wordY 0x23 0 a 5 (fifoNum c)]
  | .tlbi s a => some [wordY 0x23 0 a 6 (s.code ++ 0#9)]
  | .tlbiAll s => some [wordY 0x23 0 0 6 (s.code ++ 1#1 ++ 0#8)]
  | .halt => some [wordY 0x23 0 0 7 0]
  | .refillComplete _ _ | .pageWritebackComplete _ _ | .tensorOpComplete _ _ | .l1Eviction _ _
  | .coreDoneReport _ _ | .lanternPolicyAction _ _ _ | .capMessage _ _ | .workRequestStart _ _ _
  | .packetReceive _ | .ackReceive _ | .retransmitTimeout _ _ _ _ | .neSpawnSend _ _ _ | .neSpawnRetry _ _ _
  | .reduceContribution _ | .flitReceive _ | .hostBarAccess _ | .notifyPageWrite _ | .wakePageWrite _
  | .attestationRequest _ _ | .readRetry _ _ | .clusterHandover _ _ | .loadObject _ _ | .runAheadFetch _ _
  | .firmwareUpdate _ _ _ | .deviceReset _ | .pdesc | .unpin | .setregMring | .setregSopol | .setregGpol
  | .ptroot | .fqreplay | .fqdeny | .tlbshoot | .preempt | .restore | .term | .resume0 | .launch | .tgdrop
  | .settres | .setdrth | .recclr | .unassignedCommand | .reservationGrant | .reservationBreak | .quietReport
  | .delegatedReply | .soPoll | .soWake | .soWindowBoundary | .groupCompletion | .yieldExpiry | .spawnMessage
  | .spawnAnswer | .migrationMessage | .migrationAccept | .migrationCommit | .migrationAbort
  | .contextFreeNotice | .refusalTimerExpiry | .vectorSlotEntry | .remoteRequest | .remoteReply
  | .tensorOpStart | .tileArrival | .homeSliceAccess | .drain | .drainAck | .sweep | .sweepEnd | .tileExpiry
  | .engineCommandStart | .engineCommandComplete | .launchSelect | .depRecheck | .dispatcherSpawnRetry
  | .teardownNotice | .taskRecord | .nodeRun | .plainNodeComplete | .belfryTimer | .opMoveStart | .opMoveEnd
  | .droopTrip | .droopStretchEnd | .droopWithdrawalEnd | .currentLimitTrip | .currentLimitRelease
  | .thermalTrip | .thermalTripEnd | .watchdogExpiry | .lanternSignal | .leaseExpiry | .packetSend
  | .reduceResult | .reduceTimeout | .portLinkDown | .portLinkUp | .walkComplete | .lanternRestart
  | .clusterTlbHit => none

/-- The bytes of a Nellyn instruction, as memory holds them (R21). -/
def encodeBytes (i : Instr) : Option (List Byte) :=
  match encode i with
  | some ws => some (ws.flatMap wordBytes)
  | none => none

end Sys2Proof
end

