-- ==== Sys2Proof/Config.lean ====
section
/-! DEFINITION. What an implementation fixes and the manual leaves open: the free values (no body, so that no proof
can see one) and the typical figures (R10) that the model's default order of events uses. -/

namespace Sys2Proof

/-- The RSA-4096 signature of an attestation report (R381), applied to the model's counter of free values (log 15). -/
opaque Config.signature : Nat → BitVec 4096

/-- The SHA-512 digest of a firmware image, by image number and version (R381, R393; log 15). -/
opaque Config.digest : Nat → Nat → BitVec 512

/-- The package serial number (R381; log 15). -/
opaque Config.serial : BitVec 64

/-- Whether 0 × ∞ + a quiet NaN sets NV: R96 follows IEEE 754, which leaves it to the implementation (log 18). -/
opaque Config.fmaZeroInfNan : Bool

/-- The 32 bytes of an SO entry in a save area: "their contents are internal" (R279), applied to the model's counter of
free values (log 23). -/
opaque Config.soEntry : Nat → BitVec 256

/-- The 4 KiB frame, if one can be allotted, that the service core gives a page with V = 0 which a scratch image covers: R152
names none. Applied to the model's counter of free values (log 20). -/
opaque Config.imageFrame : Nat → Option (BitVec 29)

/-- What a `gred` receives as the result of a phase whose kind is a barrier: R256 gives a barrier no combination. Applied to the
model's counter of free values (log 73). -/
opaque Config.barrierResult : Nat → BitVec 64

/-- CODE of a REDUCE whose peer entry takes part in no reduction: R374 and R378 give none (log 22). -/
opaque Config.soloReduce : BitVec 8

/-- Ticks an operating-point move takes: "typically 20 µs" (R352; log 5). -/
def Config.opMoveTicks : Nat := 20000

/-- Cycles between two polls of a FLAG-mode ticket: "typically every 64 cycles" (R226; log 5). -/
def Config.pollCycles : Nat := 64

/-- Ticks of the retransmission timeout: "typically 40 µs" (R375; log 5). -/
def Config.rtoTicks : Nat := 40000

end Sys2Proof
end

