-- ==== Sys2Proof/Machine/Bits.lean ====
section
/-! DEFINITION. Bit fields, sign extension, byte order and packing (R5, R8): the helpers of the manual's pseudocode
and the views of wide registers as lanes and elements. -/

namespace Sys2Proof.Machine

/-- `Bits(x, hi, lo)` of R8 on a natural number. -/
def nbits (x hi lo : Nat) : Nat := (x >>> lo) % 2 ^ (hi + 1 - lo)

/-- `Bits(x, hi, lo)` of R8. -/
def bits {n : Nat} (x : BitVec n) (hi lo : Nat) : Nat := nbits x.toNat hi lo

/-- Bit `i` of x. -/
def bit {n : Nat} (x : BitVec n) (i : Nat) : Bool := x.getLsbD i

/-- `SignExtend(x, n)` of R8: the low n bits of x read as two's complement. -/
def signExtend (x n : Nat) : Int :=
  let y := x % 2 ^ n
  if y < 2 ^ (n - 1) then (y : Int) else (y : Int) - (2 ^ n : Nat)

/-- The low 64 bits of an integer's two's-complement form (R7). -/
def toWord (x : Int) : Word := BitVec.ofInt 64 x

/-- `Sat(x, lo, hi)` of R8. -/
def sat (x lo hi : Int) : Int := if x < lo then lo else if hi < x then hi else x

/-- Replaces bits [hi:lo] of x by the low bits of v. -/
def setBits {n : Nat} (x : BitVec n) (hi lo v : Nat) : BitVec n :=
  let m : BitVec n := (BitVec.ofNat n (2 ^ (hi + 1 - lo) - 1)) <<< lo
  (x &&& ~~~m) ||| ((BitVec.ofNat n (v % 2 ^ (hi + 1 - lo))) <<< lo)

/-- Element `i` of width `w` of a packed image (R123). -/
def elem {n : Nat} (w : Nat) (x : BitVec n) (i : Nat) : BitVec w := x.extractLsb' (w * i) w

/-- Packs the `k` elements `f 0 … f (k-1)` of width `w`, element 0 lowest (R123). -/
def pack (w : Nat) (f : Nat → BitVec w) : (k : Nat) → BitVec (w * k)
  | 0 => 0
  | k + 1 => (f k ++ pack w f k).cast (by rw [Nat.mul_succ, Nat.add_comm])

/-- Lane `l` of a vector register (R123). -/
def lane (v : VWord) (l : Nat) : IWord := elem 32 v l

/-- A vector register from its 32 lanes. -/
def lanes (f : Nat → IWord) : VWord := (pack 32 f 32).cast (by decide)

/-- `n` bytes of a number, least significant first (R5). -/
def leBytes : (n : Nat) → Nat → List Byte
  | 0, _ => []
  | n + 1, x => BitVec.ofNat 8 x :: leBytes n (x >>> 8)

/-- The number that little-endian bytes spell (R5). -/
def ofBytes : List Byte → Nat
  | [] => 0
  | b :: t => b.toNat + (ofBytes t) <<< 8

/-- The low `n` bits all ones. -/
def ones (n : Nat) : Nat := 2 ^ n - 1

/-- Leading zeros of a value seen in `n` bits. -/
def leadingZeros (n x : Nat) : Nat := if x = 0 then n else n - 1 - Nat.log2 x

/-- Trailing zeros of a value seen in `n` bits, counted from bit `i`. -/
def trailingZerosFrom (x : Nat) : (n i : Nat) → Nat
  | 0, i => i
  | n + 1, i => if x.testBit i then i else trailingZerosFrom x n (i + 1)

/-- The number of set bits among the low `n` bits. -/
def popCount (x : Nat) : Nat → Nat
  | 0 => 0
  | n + 1 => popCount x n + (if x.testBit n then 1 else 0)

/-- Division rounded up. -/
def ceilDiv (a b : Nat) : Nat := (a + b - 1) / b

/-- The first index below `n` with `f`, counted from `i`. -/
def findIdxFrom (f : Nat → Bool) : (n i : Nat) → Option Nat
  | 0, _ => none
  | n + 1, i => if f i then some i else findIdxFrom f n (i + 1)

end Sys2Proof.Machine
end

