-- ==== Sys2Proof/Machine/Float.lean ====
section
/-! DEFINITION. Number formats and the order of sums (06_number_formats.md): exact dyadic values, the one rounding
function of R110, exact sums, Q8 tables and the operations of R96–R99 on exact values. -/

namespace Sys2Proof.Machine

/-- A value that a format reads as (R105–R107): NaN (`s`: signalling), an infinity, or (-1)^neg × m × 2^e with the
sign of a zero kept. -/
inductive Val
  | nan (s : Bool)
  | inf (neg : Bool)
  | fin (neg : Bool) (m : Nat) (e : Int)
  deriving DecidableEq, Repr

/-- The five IEEE 754 flags in the order of `STAT` (R86). -/
structure FFlags where
  nv : Bool
  dz : Bool
  of_ : Bool
  uf : Bool
  nx : Bool
  deriving DecidableEq, Repr

/-- No flag. -/
def FFlags.none : FFlags := ⟨false, false, false, false, false⟩

/-- The invalid-operation flag alone. -/
def FFlags.inv (b : Bool) : FFlags := ⟨b, false, false, false, false⟩

/-- A binary format: exponent and fraction widths, and whether the top exponent is a normal one (H16 under FX = 1). -/
structure FFmt where
  eb : Nat
  mb : Nat
  fx : Bool
  deriving DecidableEq, Repr

/-- binary64 (R105). -/
def fmtF64 : FFmt := ⟨11, 52, false⟩
/-- binary32 (R105). -/
def fmtF32 : FFmt := ⟨8, 23, false⟩
/-- H16 under FX (R106). -/
def fmtH16 (fx : Bool) : FFmt := ⟨8, 7, fx⟩

/-- The exponent bias. -/
def FFmt.bias (f : FFmt) : Int := (2 ^ (f.eb - 1) : Nat) - 1
/-- The exponent of the last place of a subnormal. -/
def FFmt.qmin (f : FFmt) : Int := 1 - f.bias - f.mb
/-- The code of +∞ (without FX). -/
def FFmt.infCode (f : FFmt) : Nat := (2 ^ f.eb - 1) * 2 ^ f.mb
/-- The sign bit. -/
def FFmt.signBit (f : FFmt) : Nat := 2 ^ (f.eb + f.mb)
/-- The largest finite code. -/
def FFmt.maxCode (f : FFmt) : Nat := if f.fx then f.signBit - 1 else f.infCode - 1
/-- The canonical quiet NaN (R96, R110); under FX a NaN becomes +0. -/
def FFmt.nanCode (f : FFmt) : Nat := if f.fx then 0 else f.infCode + 2 ^ (f.mb - 1)
/-- Adds a sign to a code. -/
def FFmt.signed (f : FFmt) (neg : Bool) (c : Nat) : Nat := if neg then c + f.signBit else c

/-- Reads a code of a format (R105, R106). -/
def unpack (f : FFmt) (x : Nat) : Val :=
  let m := x % 2 ^ f.mb
  let e := x / 2 ^ f.mb % 2 ^ f.eb
  let neg := x / f.signBit % 2 = 1
  if e = 2 ^ f.eb - 1 ∧ f.fx = false then
    if m = 0 then .inf neg else .nan (decide (m < 2 ^ (f.mb - 1)))
  else if e = 0 then .fin neg m f.qmin
  else .fin neg (2 ^ f.mb + m) ((e : Int) - 1 + f.qmin)

/-- Whether a magnitude q + rem/2^drop rounds up to q + 1 in a mode (R96). -/
def roundsUp (mode : RMode) (neg : Bool) (q rem drop : Nat) : Bool :=
  match mode with
  | .rne => decide (2 * rem > 2 ^ drop) || (decide (2 * rem = 2 ^ drop) && decide (q % 2 = 1))
  | .rna => decide (2 * rem ≥ 2 ^ drop) && decide (0 < rem)
  | .rz => false
  | .rd => neg && decide (0 < rem)
  | .ru => !neg && decide (0 < rem)

/-- m × 2^e rounded to a multiple of 2^q: the multiple and whether the rounding was inexact. -/
def roundAt (mode : RMode) (neg : Bool) (m : Nat) (e q : Int) : Nat × Bool :=
  if q ≤ e then (m * 2 ^ (e - q).toNat, false)
  else
    let d := (q - e).toNat
    let n := m / 2 ^ d
    let r := m % 2 ^ d
    (if roundsUp mode neg n r d then n + 1 else n, decide (r ≠ 0))

/-- What an overflow gives (R110). -/
def overflowCode (f : FFmt) (mode : RMode) (neg : Bool) : Nat :=
  if f.fx then f.maxCode
  else
    match mode with
    | .rne | .rna => f.infCode
    | .rz => f.maxCode
    | .rd => if neg then f.infCode else f.maxCode
    | .ru => if neg then f.maxCode else f.infCode

/-- `Round(x, F, mode)` of R110: the code and the flags of the rounding; tininess after rounding (R96). -/
def round (f : FFmt) (mode : RMode) : Val → Nat × FFlags
  | .nan _ => (f.nanCode, .none)
  | .inf neg => (f.signed neg (if f.fx then f.maxCode else f.infCode), .none)
  | .fin neg m e =>
    if m = 0 then (f.signed neg 0, .none)
    else
      let top := e + Nat.log2 m
      let qu := top - f.mb
      let q := max qu f.qmin
      let (n, nx) := roundAt mode neg m e q
      let code := (q - f.qmin).toNat * 2 ^ f.mb + n
      if f.maxCode < code then (f.signed neg (overflowCode f mode neg), ⟨false, false, true, false, true⟩)
      else
        let (nu, _) := roundAt mode neg m e qu
        let tiny := decide (qu < f.qmin) && decide (¬(qu = f.qmin - 1 ∧ nu = 2 ^ (f.mb + 1)))
        (f.signed neg code, ⟨false, false, false, tiny && nx, nx⟩)

/-- `RoundF32(x)` without its flags. -/
def roundF32 (mode : RMode) (v : Val) : IWord := BitVec.ofNat 32 (round fmtF32 mode v).1

/-- Whether a value is a NaN. -/
def Val.isNan : Val → Bool
  | .nan _ => true
  | _ => false

/-- Whether a value is a signalling NaN. -/
def Val.isSnan : Val → Bool
  | .nan s => s
  | _ => false

/-- The sign of a value; a NaN has none. -/
def Val.sign : Val → Bool
  | .nan _ => false
  | .inf n => n
  | .fin n _ _ => n

/-- Whether a value is a zero. -/
def Val.isZero : Val → Bool
  | .fin _ m _ => decide (m = 0)
  | _ => false

/-- Whether a value is an infinity. -/
def Val.isInf : Val → Bool
  | .inf _ => true
  | _ => false

/-- The negation of a value. -/
def Val.neg : Val → Val
  | .nan s => .nan s
  | .inf n => .inf (!n)
  | .fin n m e => .fin (!n) m e

/-- The signed integer that a finite value is in units of 2^e. -/
def scaledTo (neg : Bool) (m : Nat) (e0 e : Int) : Int :=
  let x : Int := (m * 2 ^ (e0 - e).toNat : Nat)
  if neg then -x else x

/-- A dyadic value from an integer in units of 2^e; an exact zero takes the given sign. -/
def Val.ofInt (zneg : Bool) (x : Int) (e : Int) : Val :=
  if x = 0 then .fin zneg 0 e else .fin (decide (x < 0)) x.natAbs e

/-- The exact sum of two values and whether it is invalid; the sign of an exact zero sum follows IEEE 754. -/
def addVal (mode : RMode) (a b : Val) : Val × Bool :=
  match a, b with
  | .nan s, .nan t => (.nan false, s || t)
  | .nan s, _ => (.nan false, s)
  | _, .nan t => (.nan false, t)
  | .inf x, .inf y => if x = y then (.inf x, false) else (.nan false, true)
  | .inf x, _ => (.inf x, false)
  | _, .inf y => (.inf y, false)
  | .fin x m e, .fin y n g =>
    let q := min e g
    let z := if m = 0 ∧ n = 0 ∧ x = y then x else decide (mode = .rd)
    (Val.ofInt z (scaledTo x m e q + scaledTo y n g q) q, false)

/-- The exact product of two values and whether it is invalid. -/
def mulVal (a b : Val) : Val × Bool :=
  match a, b with
  | .nan s, .nan t => (.nan false, s || t)
  | .nan s, _ => (.nan false, s)
  | _, .nan t => (.nan false, t)
  | .inf x, .inf y => (.inf (x != y), false)
  | .inf x, .fin y n _ => if n = 0 then (.nan false, true) else (.inf (x != y), false)
  | .fin x m _, .inf y => if m = 0 then (.nan false, true) else (.inf (x != y), false)
  | .fin x m e, .fin y n g => (.fin (x != y) (m * n) (e + g), false)

/-- A quotient of magnitudes to more places than any format holds, its last bit sticky. -/
def divMag (m n : Nat) : Nat × Int :=
  let k := 130 + Nat.log2 n - Nat.log2 m
  let q := m * 2 ^ k / n
  (2 * q + (if m * 2 ^ k % n = 0 then 0 else 1), -(k : Int) - 1)

/-- The quotient of two values with its flags (R97). -/
def divVal (a b : Val) : Val × FFlags :=
  match a, b with
  | .nan s, .nan t => (.nan false, .inv (s || t))
  | .nan s, _ => (.nan false, .inv s)
  | _, .nan t => (.nan false, .inv t)
  | .inf _, .inf _ => (.nan false, .inv true)
  | .inf x, .fin y _ _ => (.inf (x != y), .none)
  | .fin x _ _, .inf y => (.fin (x != y) 0 0, .none)
  | .fin x m e, .fin y n g =>
    if n = 0 then
      if m = 0 then (.nan false, .inv true) else (.inf (x != y), ⟨false, true, false, false, false⟩)
    else if m = 0 then (.fin (x != y) 0 0, .none)
    else
      let (q, k) := divMag m n
      (.fin (x != y) q (k + e - g), .none)

/-- The integer square root by bits, from bit `k` down. -/
def isqrtFrom (x : Nat) : (k r : Nat) → Nat
  | 0, r => r
  | k + 1, r =>
    let t := r + 2 ^ k
    isqrtFrom x k (if t * t ≤ x then t else r)

/-- The square root of a value with its invalid flag (R97). -/
def sqrtVal : Val → Val × Bool
  | .nan s => (.nan false, s)
  | .inf neg => if neg then (.nan false, true) else (.inf false, false)
  | .fin neg m e =>
    if m = 0 then (.fin neg 0 0, false)
    else if neg then (.nan false, true)
    else
      let m1 := if e % 2 = 0 then m else 2 * m
      let e1 := if e % 2 = 0 then e else e - 1
      let x := m1 * 2 ^ 160
      let r := isqrtFrom x 112 0
      (.fin false (2 * r + (if r * r = x then 0 else 1)) (e1 / 2 - 81), false)

/-- Whether a is less than b (neither a NaN). -/
def ltVal (a b : Val) : Bool :=
  match a, b with
  | .nan _, _ => false
  | _, .nan _ => false
  | .inf x, .inf y => x && !y
  | .inf x, .fin _ _ _ => x
  | .fin _ _ _, .inf y => !y
  | .fin x m e, .fin y n g =>
    let q := min e g
    decide (scaledTo x m e q < scaledTo y n g q)

/-- Whether a equals b, with +0 = −0 (R98). -/
def eqVal (a b : Val) : Bool :=
  match a, b with
  | .inf x, .inf y => decide (x = y)
  | .fin x m e, .fin y n g =>
    let q := min e g
    decide (scaledTo x m e q = scaledTo y n g q)
  | _, _ => false

/-- IEEE minimumNumber (`hi` false) or maximumNumber of two values with its invalid flag (R97). -/
def minMaxVal (hi : Bool) (a b : Val) : Val × Bool :=
  let nv := a.isSnan || b.isSnan
  match a, b with
  | .nan _, .nan _ => (.nan false, nv)
  | .nan _, y => (y, nv)
  | x, .nan _ => (x, nv)
  | x, y =>
    let below := ltVal x y || (eqVal x y && x.sign && !y.sign)
    (if below != hi then x else y, nv)

/-- Joins flags. -/
def FFlags.or (a b : FFlags) : FFlags :=
  ⟨a.nv || b.nv, a.dz || b.dz, a.of_ || b.of_, a.uf || b.uf, a.nx || b.nx⟩

/-- A value with its invalid flag, rounded (R110, R96). -/
def roundWith (f : FFmt) (mode : RMode) (r : Val × Bool) : Nat × FFlags :=
  let (c, g) := round f mode r.1
  (c, g.or (.inv r.2))

/-- x × y + z with one rounding of the exact value (R97). Whether zero times infinity plus a quiet NaN is invalid is a
free value (IEEE 754 leaves it to the implementation; log 18). -/
def fmaVal (mode : RMode) (x y z : Val) : Val × Bool :=
  let (p, i) := mulVal x y
  let (s, j) := addVal mode p z
  let snan := x.isSnan || y.isSnan || z.isSnan
  (s, if z.isNan && i && !snan then Config.fmaZeroInfNan else i || j)

/-- Rounds a value to an integer in a mode: the integer and whether it is inexact (R99). -/
def roundInt (mode : RMode) (neg : Bool) (m : Nat) (e : Int) : Int × Bool :=
  let (n, nx) := roundAt mode neg m e 0
  (if neg then -(n : Int) else n, nx)

/-- Float to integer within [lo, hi] (R99, R112). -/
def toIntVal (mode : RMode) (lo hi : Int) : Val → Int × FFlags
  | .nan _ => (0, .inv true)
  | .inf neg => (if neg then lo else hi, .inv true)
  | .fin neg m e =>
    let (y, nx) := roundInt mode neg m e
    if y < lo ∨ hi < y then (sat y lo hi, .inv true) else (y, ⟨false, false, false, false, nx⟩)

/-- The exact value of an integer. -/
def ofIntVal (x : Int) : Val := Val.ofInt false x 0

/-- `fclass` of R98 on a format without FX. -/
def classOf (f : FFmt) (x : Nat) : Nat :=
  match unpack f x with
  | .nan s => if s then 256 else 512
  | .inf n => if n then 1 else 128
  | .fin n m _ =>
    if m = 0 then (if n then 8 else 16)
    else if m < 2 ^ f.mb then (if n then 4 else 32)
    else (if n then 2 else 64)

/-- H16 to F32 under FX (R111). -/
def h16ToF32 (fx : Bool) (mode : RMode) (x : Nat) : IWord :=
  let v := unpack (fmtH16 fx) x
  if fx && decide (x / 128 % 256 = 255) then (if v.sign then 0xFF7FFFFF else 0x7F7FFFFF)
  else roundF32 mode v

/-- `ExactSum` of R117 over values. -/
def exactSum (l : List Val) : Val :=
  if l.any Val.isNan then .nan false
  else
    let pinf := l.any (fun v => decide (v = .inf false))
    let ninf := l.any (fun v => decide (v = .inf true))
    if pinf && ninf then .nan false
    else if pinf then .inf false
    else if ninf then .inf true
    else
      let q := l.foldl (fun q v => match v with | .fin _ _ e => min q e | _ => q) 0
      let x := l.foldl (fun (x : Int) v => match v with | .fin n m e => x + scaledTo n m e q | _ => x) 0
      Val.ofInt (!l.isEmpty && l.all (fun v => v.isZero && v.sign)) x q

/-- The product that `ExactSum` takes (R117). -/
def prod (a b : Val) : Val := (mulVal a b).1

/-- `Scale(s, sa, sb)` of R117. -/
def scaleVal (v : Val) (sa sb : Nat) : Val :=
  if sa = 255 ∨ sb = 255 then .nan false
  else
    match v with
    | .fin n m e => .fin n m (e + (sa : Int) - 127 + (sb : Int) - 127)
    | w => w

/-- acc := RoundF32(acc + RoundF32(s)) (R119, R120). -/
def accumulate (acc : IWord) (s : Val) : IWord :=
  let t := unpack fmtF32 (roundF32 .rne s).toNat
  roundF32 .rne (addVal .rne (unpack fmtF32 acc.toNat) t).1

/-- F32 addition to nearest (R118). -/
def addF32 (a b : IWord) : IWord :=
  roundF32 .rne (addVal .rne (unpack fmtF32 a.toNat) (unpack fmtF32 b.toNat)).1

/-- F32 minimum or maximum (R118). -/
def minMaxF32 (hi : Bool) (a b : IWord) : IWord :=
  roundF32 .rne (minMaxVal hi (unpack fmtF32 a.toNat) (unpack fmtF32 b.toNat)).1

/-- One level of the tree of R118. -/
def treeLevel {α : Type} (op : α → α → α) : List α → List α
  | a :: b :: t => op a b :: treeLevel op t
  | l => l

/-- The tree reduction of R118 over 2^k inputs. -/
def tree {α : Type} (op : α → α → α) (z : α) : Nat → List α → α
  | 0, l => l.headD z
  | k + 1, l => tree op z k (treeLevel op l)

/-- The smallest k with n ≤ 2^k. -/
def log2Up (n : Nat) : Nat := if n ≤ 1 then 0 else Nat.log2 (n - 1) + 1

/-- The tree reduction of R118 over any number of inputs, extended by the identity. -/
def treeReduce {α : Type} (op : α → α → α) (z : α) (l : List α) : α :=
  let k := log2Up l.length
  tree op z k (l ++ List.replicate (2 ^ k - l.length) z)

/-- A Q8 table image (R137). -/
abbrev Q8Tab := BitVec 4096

/-- The value of entry `i` < 128 of a table (R107, R137). -/
def q8Low (t : Q8Tab) (i : Nat) : Val :=
  let w := (elem 32 t i).toNat
  if w.testBit 29 then .inf false
  else
    let m := w % 1024
    let e := w / 1024 % 256
    if e = 0 then .fin false m (-136) else .fin false (1024 + m) ((e : Int) - 137)

/-- Whether code 0x80 is NaN. -/
def q8HasNan (t : Q8Tab) : Bool := bit t 30

/-- Whether code 0x7F is infinite. -/
def q8HasInf (t : Q8Tab) : Bool := (elem 32 t 127).getLsbD 29

/-- Decodes a Q8 code (R114). -/
def q8Dec (t : Q8Tab) (c : Nat) : Val :=
  if c < 128 then q8Low t c
  else if c = 128 ∧ q8HasNan t then .nan false
  else (q8Low t (c - 128)).neg

/-- The magnitude of a finite non-negative value in units of 2^-280. -/
def mag280 : Val → Nat
  | .fin _ m e => m * 2 ^ (e + 280).toNat
  | _ => 0

/-- The code in [i, top] nearest to a, given the best so far; ties go to the even code (R116). -/
def q8Nearest (t : Q8Tab) (a : Nat) : (n i best : Nat) → Nat
  | 0, _, best => best
  | n + 1, i, best =>
    let d (k : Nat) : Nat := (a - mag280 (q8Low t k)) + (mag280 (q8Low t k) - a)
    q8Nearest t a n (i + 1) (if d i < d best ∨ (d i = d best ∧ best % 2 = 1) then i else best)

/-- `Q8Enc(x, T)` of R116, for values that are multiples of 2^-280 (every F32 value scaled by an S8 byte is one). -/
def q8Enc (t : Q8Tab) (x : Val) : Nat :=
  let top := if q8HasInf t then 126 else 127
  match x with
  | .nan _ => if q8HasNan t then 128 else 0
  | v =>
    let a := mag280 v
    let beyond := v.isInf || decide (mag280 (q8Low t top) < a)
    let i := if beyond then (if q8HasInf t then 127 else top) else q8Nearest t a top 1 0
    if v.sign && !((q8Low t i).isZero) then
      if i = 0 ∧ q8HasNan t then
        if mag280 (q8Low t 1) < a + mag280 (q8Low t 0) + a then 129 else 0
      else 128 + i
    else i

/-- Whether an image is a valid table (R113, R137). -/
def q8Valid (t : Q8Tab) : Bool :=
  let w (i : Nat) : Nat := (elem 32 t i).toNat
  let fieldsOk (i : Nat) : Bool :=
    !(w i).testBit 31 && nbits (w i) 28 19 == 0 && !(w i).testBit 18
      && (!(w i).testBit 30 || i == 0)
      && (!(w i).testBit 29 || (i == 127 && nbits (w i) 18 0 == 0))
  (List.range 128).all fieldsOk
    && (List.range (if q8HasInf t then 126 else 127)).all (fun i => decide (nbits (w i) 17 0 < nbits (w (i + 1)) 17 0))

/-- The E19 code of entry i of preset Q8-B (R115). -/
def q8bEntry (i : Nat) : IWord :=
  -- the entry as n × 2^e
  let n : Nat := if i < 8 then i else [4, 5, 6, 7, 8, 10, 12, 14].getD (i % 8) 0
  let e : Int := if i < 8 then -16 else 2 * (i / 8 : Nat) - 17
  if i = 127 then 0x20000000
  else
    let nan : Nat := if i = 0 then 2 ^ 30 else 0
    if n = 0 then BitVec.ofNat 32 nan
    else
      let l := Nat.log2 n
      BitVec.ofNat 32 ((e + l + 127).toNat * 1024 + (n * 1024 / 2 ^ l - 1024))

/-- Preset Q8-B (R115). -/
def q8bImage : Q8Tab := (pack 32 q8bEntry 128).cast (by decide)

/-- One butterfly of R121: `sub` gives a − w·b. The result is (real, imaginary). -/
def butterfly (sub : Bool) (are aim bre bim wre wim : IWord) : IWord × IWord :=
  let u (x : IWord) : Val := unpack fmtF32 x.toNat
  let sg (v : Val) : Val := if sub then v.neg else v
  (roundF32 .rne (exactSum [u are, sg (prod (u wre) (u bre)), sg (prod (u wim) (u bim)).neg]),
   roundF32 .rne (exactSum [u aim, sg (prod (u wre) (u bim)), sg (prod (u wim) (u bre))]))

/-- π in units of 2^-160, rounded down. -/
def piFix : Nat := 0x3243F6A8885A308D313198A2E03707344A4093822

/-- Terms of the Taylor series of sine or cosine in units of 2^-160: `t` is the current term, `k` its exponent,
`x2` the square of the angle; alternating sum. -/
def taylor (x2 : Nat) : (n : Nat) → (t : Nat) → (k : Nat) → Int
  | 0, t, _ => t
  | n + 1, t, k => (t : Int) - taylor x2 n (t * x2 / 2 ^ 160 / ((k + 1) * (k + 2))) (k + 2)

/-- sin and cos of 2πr/2^20 for 0 ≤ r ≤ 2^17 in units of 2^-160 (log 11). -/
def sinCosFix (r : Nat) : Int × Int :=
  let x := 2 * piFix * r / 2 ^ 20
  let x2 := x * x / 2 ^ 160
  (taylor x2 30 x 1, taylor x2 30 (2 ^ 160) 0)

/-- cos and sin of 2πj/2^20, 0 ≤ j < 2^20, rounded to F32 (R122): reduced to the first octant, where an exact zero
is +0 and an exact one is one. -/
def twiddle (j : Nat) : IWord × IWord :=
  let oct := j / 131072
  let r := j % 131072
  let q := if oct % 2 = 0 then r else 131072 - r
  let (s, c) := sinCosFix q
  let cosV (x : Int) (neg : Bool) : IWord :=
    if x = 0 then 0 else roundF32 .rne (.fin neg x.natAbs (-160))
  -- |cos| and |sin| by octant
  let swap := oct % 4 = 1 ∨ oct % 4 = 2
  let ac := if swap then s else c
  let as := if swap then c else s
  (cosV ac (decide (2 ≤ oct ∧ oct < 6)), cosV as (decide (4 ≤ oct)))

end Sys2Proof.Machine
end

