-- ==== Sys2Proof/Machine/Operands.lean ====
section
/-! DEFINITION. Operand forms and the values that scalar instructions compute from them: immediates (R24–R26, R91,
R92), integer results (R88–R94), conditions (R93), and the scalar FP results with their flags (R96–R99). -/

namespace Sys2Proof.Machine

/-- `SignExtend` of a field to 64 bits. -/
def sext {n : Nat} (x : BitVec n) : Word := x.signExtend 64

/-- `ZeroExtend` of a field to 64 bits. -/
def zext {n : Nat} (x : BitVec n) : Word := x.setWidth 64

/-- The shift count `Bits(x, 5, 0)`. -/
def shcnt (x : Word) : Nat := x.toNat % 64

/-- `clz` of R89. -/
def clzW (x : Word) : Word := BitVec.ofNat 64 (leadingZeros 64 x.toNat)

/-- `ctz` of R89. -/
def ctzW (x : Word) : Word := BitVec.ofNat 64 (trailingZerosFrom x.toNat 64 0)

/-- `pop` of R89. -/
def popW (x : Word) : Word := BitVec.ofNat 64 (popCount x.toNat 64)

/-- Rotation left (R89). -/
def rolW (x : Word) (n : Nat) : Word := x.rotateLeft n

/-- Signed minimum. -/
def minW (a b : Word) : Word := if a.slt b then a else b
/-- Signed maximum. -/
def maxW (a b : Word) : Word := if a.slt b then b else a
/-- Unsigned minimum. -/
def minnW (a b : Word) : Word := if a < b then a else b
/-- Unsigned maximum. -/
def maxnW (a b : Word) : Word := if a < b then b else a

/-- `bfx` of R90: the field of width `w` at `lo`, zero-extended. -/
def bfxW (a : Word) (lo w : Nat) : Word := BitVec.ofNat 64 (nbits a.toNat (min (lo + w) 64 - 1) lo)

/-- `bfi` of R90: `d` with the field of width `w` at `lo` replaced by the low bits of `a`. -/
def bfiW (d a : Word) (lo w : Nat) : Word :=
  let n := min w (64 - lo)
  setBits d (lo + n - 1) lo (nbits a.toNat (n - 1) 0)

/-- The lowest bit of a field named by a register (R90). -/
def fieldLo (b : Word) : Nat := bits b 5 0
/-- The width of a field named by a register (R90). -/
def fieldW (b : Word) : Nat := bits b 11 6 + 1

/-- The conditions of R93. -/
def condHolds (k : Cond) (a b : Word) : Bool :=
  match k with
  | .eq => a == b
  | .ne => a != b
  | .lt => a.slt b
  | .ltn => a < b
  | .le => a.sle b
  | .len => a ≤ b

/-- High 64 bits of the signed product (R94). -/
def mulhW (a b : Word) : Word := BitVec.ofInt 64 (a.toInt * b.toInt / 2 ^ 64)
/-- High 64 bits of the unsigned product (R94). -/
def mulhnW (a b : Word) : Word := BitVec.ofNat 64 (a.toNat * b.toNat / 2 ^ 64)
/-- Signed quotient truncated toward zero; −2^63 ÷ −1 keeps its low 64 bits, −2^63 (R94). -/
def divW (a b : Word) : Word := BitVec.ofInt 64 (a.toInt.tdiv b.toInt)
/-- Signed remainder with the sign of the dividend (R94). -/
def remW (a b : Word) : Word := BitVec.ofInt 64 (a.toInt.tmod b.toInt)
/-- Unsigned quotient (R94). -/
def divnW (a b : Word) : Word := BitVec.ofNat 64 (a.toNat / b.toNat)
/-- Unsigned remainder (R94). -/
def remnW (a b : Word) : Word := BitVec.ofNat 64 (a.toNat % b.toNat)

/-- Extends a loaded value of `z` bytes (R25, R85, R156). -/
def extend (z : Sz) (sx : Bool) (v : Nat) : Word :=
  match z, sx with
  | .b, true => sext (BitVec.ofNat 8 v)
  | .h, true => sext (BitVec.ofNat 16 v)
  | .w, true => sext (BitVec.ofNat 32 v)
  | .b, false => zext (BitVec.ofNat 8 v)
  | .h, false => zext (BitVec.ofNat 16 v)
  | .w, false => zext (BitVec.ofNat 32 v)
  | .d, _ => BitVec.ofNat 64 v

/-- Bytes of an access size (R25). -/
def szBytes : Sz → Nat
  | .b => 1 | .h => 2 | .w => 4 | .d => 8

/-- The offset of format M in bytes (R25). -/
def offM (z : Sz) (o : BitVec 14) : Word := sext o * BitVec.ofNat 64 (szBytes z)

/-- A word offset in bytes (R26). -/
def offWords {n : Nat} (o : BitVec n) : Word := sext o * 4

/-- The format of a precision (R97). -/
def precFmt : Prec → FFmt
  | .f64 => fmtF64 | .f32 => fmtF32

/-- Reads an f register under a precision (R85). -/
def fval (s : Prec) (x : Word) : Val :=
  match s with
  | .f64 => unpack fmtF64 x.toNat
  | .f32 => unpack fmtF32 (x.toNat % 2 ^ 32)

/-- The image in an f register of a code with its flags; an F32 result has zeros in bits [63:32] (R85). -/
def fimg (r : Nat × FFlags) : Word × FFlags := (BitVec.ofNat 64 r.1, r.2)

/-- `fadd` (R97). -/
def faddW (s : Prec) (r : RMode) (a b : Word) : Word × FFlags :=
  fimg (roundWith (precFmt s) r (addVal r (fval s a) (fval s b)))
/-- `fsub` (R97). -/
def fsubW (s : Prec) (r : RMode) (a b : Word) : Word × FFlags :=
  fimg (roundWith (precFmt s) r (addVal r (fval s a) (fval s b).neg))
/-- `fmul` (R97). -/
def fmulW (s : Prec) (r : RMode) (a b : Word) : Word × FFlags :=
  fimg (roundWith (precFmt s) r (mulVal (fval s a) (fval s b)))
/-- `fma` (R97). -/
def fmaW (s : Prec) (r : RMode) (a b c : Word) : Word × FFlags :=
  fimg (roundWith (precFmt s) r (fmaVal r (fval s a) (fval s b) (fval s c)))
/-- `fdiv` (R97). -/
def fdivW (s : Prec) (r : RMode) (a b : Word) : Word × FFlags :=
  let (v, g) := divVal (fval s a) (fval s b)
  let (c, h) := round (precFmt s) r v
  (BitVec.ofNat 64 c, g.or h)
/-- `fsqrt` (R97). -/
def fsqrtW (s : Prec) (r : RMode) (a : Word) : Word × FFlags :=
  fimg (roundWith (precFmt s) r (sqrtVal (fval s a)))
/-- `fmin` (`hi` false) and `fmax` (R97). -/
def fminMaxW (hi : Bool) (s : Prec) (a b : Word) : Word × FFlags :=
  fimg (roundWith (precFmt s) .rne (minMaxVal hi (fval s a) (fval s b)))

/-- `fcmp` (R98): the predicate and NV. -/
def fcmpV (k : FCond) (a b : Val) : Bool × Bool :=
  let qn := a.isNan || b.isNan
  let sn := a.isSnan || b.isSnan
  match k with
  | .eq => (eqVal a b, sn)
  | .lt => (ltVal a b, qn)
  | .le => (ltVal a b || eqVal a b, qn)
  | .un => (qn, sn)

/-- `fclass` (R98). -/
def fclassW (s : Prec) (a : Word) : Word :=
  BitVec.ofNat 64 (classOf (precFmt s) (match s with | .f64 => a.toNat | .f32 => a.toNat % 2 ^ 32))

/-- A conversion between precisions (R99); a signalling NaN sets NV. -/
def fcvtW (src dst : Prec) (r : RMode) (a : Word) : Word × FFlags :=
  let v := fval src a
  fimg (roundWith (precFmt dst) r (v, v.isSnan))

/-- The range of an integer type (R99). -/
def ityRange : ITy → Int × Int
  | .i32 => (-2147483648, 2147483647)
  | .i64 => (-9223372036854775808, 9223372036854775807)
  | .w32 => (0, 4294967295)
  | .w64 => (0, 18446744073709551615)

/-- Float to integer (R99). -/
def fcvtIntW (s : Prec) (r : RMode) (t : ITy) (a : Word) : Word × FFlags :=
  let (lo, hi) := ityRange t
  let (x, g) := toIntVal r lo hi (fval s a)
  (toWord x, g)

/-- The integer that `fcvt.i2d` and `fcvt.i2s` read (R99). -/
def ityRead (t : ITy) (a : Word) : Int :=
  match t with
  | .i32 => signExtend a.toNat 32
  | .i64 => a.toInt
  | .w32 => (a.toNat % 2 ^ 32 : Nat)
  | .w64 => (a.toNat : Nat)

/-- Integer to float (R99). -/
def fcvtFromIntW (s : Prec) (r : RMode) (t : ITy) (a : Word) : Word × FFlags :=
  fimg (round (precFmt s) r (ofIntVal (ityRead t a)))

end Sys2Proof.Machine
end

