-- ==== Sys2Proof/Machine/Table.lean ====
section
/-! DEFINITION. Sparse tables: lists of (key, value) pairs with strictly rising keys. A key that is not listed reads
as a default that the reader names. Used for memory (R142) and for the units of the package (R12), most of which
hold their reset record. -/

namespace Sys2Proof.Machine

/-- A sparse table, keyed by number. -/
abbrev Tbl (α : Type) := List (Nat × α)

/-- The value at key `k`, or the default `d`. -/
def tget {α : Type} (d : α) (k : Nat) : Tbl α → α
  | [] => d
  | (j, v) :: t => if j = k then v else tget d k t

/-- The table without key `k`. -/
def tdel {α : Type} (k : Nat) : Tbl α → Tbl α
  | [] => []
  | (j, v) :: t => if j = k then tdel k t else (j, v) :: tdel k t

/-- The table with `(k, v)` put before the first greater key. -/
def tins {α : Type} (k : Nat) (v : α) : Tbl α → Tbl α
  | [] => [(k, v)]
  | (j, w) :: t => if k < j then (k, v) :: (j, w) :: t else (j, w) :: tins k v t

/-- Writes `v` at key `k`. -/
def tset {α : Type} (k : Nat) (v : α) (t : Tbl α) : Tbl α :=
  tins k v (tdel k t)

/-- Writes `v` at key `k` and keeps no entry that holds the default `d`. -/
def tput {α : Type} [DecidableEq α] (d : α) (k : Nat) (v : α) (t : Tbl α) : Tbl α :=
  if v = d then tdel k t else tset k v t

/-- The keys rise strictly and no entry holds the default. -/
def tcanon {α : Type} [DecidableEq α] (d : α) : Tbl α → Bool
  | [] => true
  | [(_, v)] => decide (v ≠ d)
  | (j, v) :: (k, w) :: t => decide (v ≠ d) && decide (j < k) && tcanon d ((k, w) :: t)

/-- Removes the entry at position `k` of a list; the list is unchanged when there is none. -/
def dropAt {α : Type} : Nat → List α → List α
  | _, [] => []
  | 0, _ :: t => t
  | k + 1, x :: t => x :: dropAt k t

/-- Replaces the entry at position `k` of a list by its image under `f`. -/
def modAt {α : Type} (f : α → α) : Nat → List α → List α
  | _, [] => []
  | 0, x :: t => f x :: t
  | k + 1, x :: t => x :: modAt f k t

end Sys2Proof.Machine
end

