-- ==== Sys2Proof/Machine/Memory.lean ====
section
/-! DEFINITION. The bytes at their homes, one canonical list for the whole package, and the numbering of its
locations: global memory (R183), Cupola (R155), fleeting memory (R293) and the scratchpads' SRAM (R142, R153). -/

namespace Sys2Proof.Machine

/-- The bytes of the package that differ from `memDefault`. -/
abbrev Memory := List Host.Cell

/-- What a byte that nothing has written reads as. DESIGN CHOICE (log 1): the manual gives no contents to global
memory and Cupola before they are written; a scratchpad handed over reads 0 (R331). -/
def memDefault : Byte := 0

/-- The canonical form: addresses strictly rising, no entry equal to the default. -/
def Memory.wf (m : Memory) : Bool := tcanon memDefault m

/-- One byte. -/
def memGet (m : Memory) (a : Nat) : Byte := tget memDefault a m

/-- Writes one byte. -/
def memSet (m : Memory) (a : Nat) (b : Byte) : Memory := tput memDefault a b m

/-- The number read, least significant byte first, from a list of byte locations (R5, R153). -/
def memReadAt (m : Memory) : List Nat → Nat
  | [] => 0
  | a :: t => (memGet m a).toNat + (memReadAt m t) <<< 8

/-- Writes a number, least significant byte first, at a list of byte locations. -/
def memWriteAt (m : Memory) (v : Nat) : List Nat → Memory
  | [] => m
  | a :: t => memWriteAt (memSet m a (BitVec.ofNat 8 v)) (v >>> 8) t

/-- `n` consecutive locations. -/
def span (a n : Nat) : List Nat := List.range' a n

/-- Reads `n` consecutive bytes. -/
def memRead (m : Memory) (a n : Nat) : Nat := memReadAt m (span a n)

/-- Writes `n` consecutive bytes. -/
def memWrite (m : Memory) (a n v : Nat) : Memory := memWriteAt m v (span a n)

/-- Every byte of a range reads 0 again (R191, R331). -/
def memClear (m : Memory) (a n : Nat) : Memory :=
  m.filter (fun c => decide (c.1 < a) || decide (a + n ≤ c.1))

/-- Copies `n` bytes from `src` to `dst` (a refill or write-back of a page, R149, R151). -/
def memCopy (m : Memory) (src dst n : Nat) : Memory :=
  (m.filter (fun c => decide (src ≤ c.1) && decide (c.1 < src + n))).foldl
    (fun acc c => memSet acc (c.1 - src + dst) c.2) (memClear m dst n)

/-- The location of byte `pa` of global memory. -/
def globalLoc (pa : Nat) : Nat := pa

/-- The location of byte `off` of a die's Cupola. -/
def cupolaLoc (die off : Nat) : Nat := 2 ^ 42 + die * 2 ^ 26 + off

/-- The location of byte `off` of a die's fleeting memory. -/
def fleetLoc (die off : Nat) : Nat := 2 ^ 43 + die * 2 ^ 29 + off

/-- The location of byte `off` of a core's scratchpad: as an address names it, and, through the page's layout, as the
SRAM holds it. -/
def scratchLoc (core off : Nat) : Nat := 2 ^ 44 + core * 2 ^ 16 + off

/-- `P(o)` of R153 on an offset within a 4 KiB page. -/
def layoutPerm (lay o : Nat) : Nat :=
  match lay with
  | 1 => o ^^^ (nbits o 9 6 * 4)
  | 2 => o ^^^ (nbits o 10 7 * 4)
  | 3 => o ^^^ (nbits o 11 8 * 4)
  | 4 => o ^^^ (nbits o 9 7 * 16)
  | 5 => o ^^^ (nbits o 10 8 * 16)
  | _ => o

end Sys2Proof.Machine
end

