-- ==== Sys2Proof/Machine/State.lean ====
section
/-! DEFINITION. The state of one package as plain data: every context, core, quad, cluster and die (R12), the memories
(R142), the objects, groups, engines, launches, endpoints and power state the manual names, and the machine after
reset (R84, R392). A unit that a table does not list holds its reset record. -/

namespace Sys2Proof.Machine

/-- A signature: 256 bits (R185). -/
abbrev Sig := BitVec 256

/-- The states of a context (R56). `parked` is a view: a READY context whose position is withdrawn (R60). -/
inductive CState | free | ready | waiting | parked | exit | arriving
  deriving DecidableEq, Repr

/-- A release record: the releaser's core and signature (R186). -/
structure Rec where
  core : Nat
  sig  : Sig
  deriving DecidableEq, Repr

/-- A captured repeat-frame body (R102): the address of the `rpt`, its fields and the body words. -/
structure Frame where
  addr   : Word
  len    : Nat
  stride : Nat
  fsel   : BitVec 3
  body   : List IWord
  deriving DecidableEq, Repr

/-- The unfinished instruction of a WAITING context (R59). `ph` 0: held, to be performed again when released; 1: its
requests are on their way; 2: drains of its acquire are outstanding (R187). -/
structure Wait where
  i     : Instr
  ph    : Nat
  acks  : Nat
  next  : Word
  got   : List (Nat × Nat)
  recs  : List Rec
  tbl   : Option (BitVec 4096)
  till  : Nat
  val   : Word
  deriving DecidableEq, Repr

/-- What an owner saves when it starts a delegated request (R230): the object, its own g0–g3, its continuation, its
`SRET`, the address of the diverting `sunlk`, and the requester (log 32). -/
structure Delegated where
  obj  : Nat
  g0   : Word
  g1   : Word
  g2   : Word
  g3   : Word
  cont : Word
  sret : Option (Word × Word)
  at_  : Word
  reqCx  : Nat
  reqTid : BitVec 32
  deriving DecidableEq, Repr

/-- A context: its registers (R84), trap registers (R269) and what the core keeps for it. -/
structure Ctx where
  state : CState
  why   : Nat
  g     : Vector Word 16
  f     : Vector Word 8
  p     : BitVec 8
  h     : Vector IWord 8
  v     : Vector VWord 8
  m     : Vector IWord 4
  pc    : Word
  stat  : Word
  rcnt  : BitVec 32
  tag   : Bool
  tvec  : Word
  tepc  : Word
  tcause : Word
  tval  : Word
  sret  : Option (Word × Word)
  deleg : List Delegated
  tid   : BitVec 32
  fnp   : Bool
  timer : Option Nat
  lrr   : Nat
  lgr   : BitVec 8
  pend  : BitVec 16
  resv  : Option (Nat × Nat)
  relp  : Option (Sig × Scope)
  recs  : List Rec
  hunit : Tbl (Scope × Nat)
  frame : Option Frame
  resume : Bool
  run   : List (Word × IWord)
  last  : Option Nat
  wait  : Option Wait
  reissue : Bool
  launch : Option Nat
  deriving DecidableEq, Repr

/-- A scratchpad page descriptor (R148). `wb` says that BUSY stands for a write-back. -/
structure PageDesc where
  frame : Nat
  lay   : Nat
  dirty : Bool
  busy  : Bool
  wb    : Bool
  res   : Bool
  v     : Bool
  deriving DecidableEq, Repr

/-- A cached translation (R273): granule size 2^lg bytes, tagged by partition, with W and X. -/
structure TlbEnt where
  part : Nat
  lg   : Nat
  vpn  : Nat
  base : Nat
  w    : Bool
  x    : Bool
  deriving DecidableEq, Repr

/-- An L1 line (R184): its number pa div 64, its bytes, its dirty mask and the release record that came with it. -/
structure L1Line where
  line  : Nat
  data  : BitVec 512
  dirty : BitVec 64
  rrec  : Option Rec
  deriving DecidableEq, Repr

/-- The registers that a context had before a vector instruction of fixed latency, whose results are written in the cycle
`till`: a context killed by then has them again (R127). -/
structure VUndo where
  cx   : Nat
  till : Nat
  f    : Vector Word 8
  v    : Vector VWord 8
  m    : Vector IWord 4
  deriving DecidableEq, Repr

/-- The vector slot of a core (R125): its holder with the cycle in which it enters (`noCtx` when the holder has ended),
the context whose instruction enters in this cycle after the slot has passed on to one that issued in it, the contexts
waiting, and the results that are still to be written (R127). -/
structure VSlot where
  holder  : Option (Nat × Nat)
  entering : Option Nat
  waiting : List Nat
  undo    : List VUndo
  deriving DecidableEq, Repr

/-- A pop or push that waits at a FIFO (R72): its context, and the value of a push. -/
structure FifoWait where
  cx  : Nat
  tid : BitVec 32
  val : Word
  deriving DecidableEq, Repr

/-- Who waits on a fault-queue entry (R274), or stands at the head of a remote queue (R150). A graph's accesses are of
four kinds: 0 its status word, 1 the record of its next node, 2 its next ring slot, 3 the condition of its next node. An
access of a network engine names the request that it serves; `place` and `host` are what places packets and what
performs accesses of the host, whose faults are never queued (R375, R379). -/
inductive Requester
  | ctx (cx : Nat) (tid : BitVec 32)
  | req (cx : Nat) (tid : BitVec 32)
  | cmd (id : Nat)
  | launch (id : Nat)
  | tensor (cx : Nat) (tid : BitVec 32)
  | net (die part ep req : Nat)
  | place (die part : Nat)
  | host (part : Nat)
  | graph (part handle kind : Nat)
  | timer (die loc : Nat)
  | command (die : Nat) (tag : Word)
  deriving DecidableEq, Repr

/-- A core (R12, R84). `head` is whose access waits at the head of its remote queue, and for which page (R150). -/
structure Core where
  acc    : Vector (BitVec 8192) 4
  fifo   : Vector (List Word) 4
  popW   : Vector (List FifoWait) 4
  pushW  : Vector (List FifoWait) 4
  q8     : BitVec 4096
  spen   : Word
  reap   : List (Word × Word)
  exits  : List (Nat × Word × Word)
  refused : List (BitVec 32 × BitVec 32)
  gens   : Tbl Nat
  pages  : Tbl PageDesc
  slot   : VSlot
  l1     : List L1Line
  inh    : Sig
  wsig   : Sig
  iss    : Tbl Nat
  done   : Tbl Nat
  tlb    : List TlbEnt
  head   : Option (Requester × Nat)
  req    : Nat
  deriving DecidableEq, Repr

/-- A tile in a latch or out-buffer (R167). -/
structure Tile where
  data  : BitVec 4096
  h16   : Bool
  fx    : Bool
  count : Nat
  deriving DecidableEq, Repr

/-- A tensor operation (R163) with the values, FX and table of its issue. -/
structure TOp where
  cx   : Nat
  tid  : BitVec 32
  i    : Instr
  vals : List Nat
  fx   : Bool
  tbl  : BitVec 4096
  begun : Bool
  deriving DecidableEq, Repr

/-- A quad (R12): tensor unit, instruction cache, clock and power state. `edge` says that it begins a cycle with this
die cycle (R351, R399), `resp` that a droop response is in its stretched cycles, or about to be, and `respNew` that it begins
with the next cycle (R355). -/
structure Quad where
  tq    : List TOp
  trun  : Option TOp
  fwd   : Option Tile
  hand  : Option TOp
  latch : Option Tile
  out   : Option Tile
  icache : List (Nat × BitVec 512)
  op    : Nat
  move  : Option (Nat × Nat)
  cyc   : Nat
  acc   : Nat
  edge  : Bool
  half  : Bool
  drth  : Word
  stretch : Nat
  wdNext  : Nat
  wdLeft  : Nat
  resp  : Bool
  respNew : Bool
  ceil  : Nat
  wd    : Nat
  deriving DecidableEq, Repr

/-- A cluster (R12, R20): its partition, ring length code and second-level TLB. -/
structure Cluster where
  part  : Option Nat
  mring : Nat
  tlb   : List TlbEnt
  deriving DecidableEq, Repr

/-- A fault-queue entry (R274). -/
structure FaultEnt where
  va    : Nat
  tid   : BitVec 32
  core  : Nat
  cx    : Nat
  kind  : Nat
  level : Nat
  cause : Nat
  win   : Nat
  part  : Nat
  count : Nat
  pa    : Nat
  who   : List Requester
  deriving DecidableEq, Repr

/-- An error-log entry (R397); of a fatal trap also the TID and the whole `TVAL` (R271) (log 55). -/
structure ErrEnt where
  kind : Nat
  ovr  : Bool
  part : Nat
  tick : Nat
  addr : Nat
  info : Nat
  tid  : BitVec 32
  tval : Word
  deriving DecidableEq, Repr

/-- A command of the service core that has begun (R277): how far it is, and its status once it is done. Records complete
in queue order: one stands in memory when it and every record before it has a status. -/
structure CmdRec where
  cmd    : Cmd
  stage  : Nat
  status : Option Nat
  deriving DecidableEq, Repr

/-- A die (R12): fault queue, command queue and the commands begun (R277), error log, release records by slice and line,
group-entry generations, port modes and links (R369), the partition that the dispatcher served last, thermal trip, and
whether the ceilings of its quads are still to be restored after one (R358). -/
structure Die where
  fq     : Tbl FaultEnt
  cmdq   : List Cmd
  cmds   : List CmdRec
  recs   : Vector (List (Nat × Rec)) 16
  elog   : List ErrEnt
  gens   : Tbl Nat
  mode   : BitVec 3
  up     : BitVec 3
  lastPart : Nat
  thermal : Bool
  hot   : Bool
  deriving DecidableEq, Repr

/-- Pre-emption of a partition (R278, R280): running, stopping until its operations complete, out with its frames saved,
or back with the accesses that were held for it performed first. -/
inductive Pre | no | stopping | out | restoring
  deriving DecidableEq, Repr

/-- A partition (R20). -/
structure Part where
  root  : Option Nat
  sopol : Word
  dq    : Nat
  tres  : Bool
  pre   : Pre
  sweeping : Bool
  deriving DecidableEq, Repr

/-- The home of an access (R145, R183, R247, R293, R326, R382). -/
inductive Home
  | core (c : Nat) | cupola (die slice : Nat) | fleet (die slice : Nat) | llc (die slice : Nat)
  | group (die : Nat) | disp (die : Nat) | net (die : Nat)
  deriving DecidableEq, Repr

/-- A request on its way to a home (R146): the issuing context, its partition, tag and FX, the instruction, the address
and byte locations, per-lane locations, the operand values of its issue and the release it carries. `blocked`: it waits
on a fault-queue entry. -/
structure Req where
  cx    : Nat
  tid   : BitVec 32
  part  : Nat
  tag   : Bool
  home  : Home
  i     : Instr
  va    : Word
  locs  : List Nat
  lanes : List (Nat × List Nat)
  vals  : List Nat
  sig   : Option (Sig × Scope)
  blocked : Bool
  deriving DecidableEq, Repr

/-- A reply (R146): values, lanes or lines, release records (R187), or a trap (cause and `TVAL`); `made` says that the
release which the request carried stands at its global line (R193). -/
structure Reply where
  cx    : Nat
  tid   : BitVec 32
  tag   : Bool
  part  : Nat
  vals  : List Nat
  lanes : List (Nat × Nat)
  recs  : List Rec
  trap  : Option (Nat × Word)
  made  : Bool
  deriving DecidableEq, Repr

/-- Who sends a spawn message (R64): a context, the dispatcher of a die for a launch, or a network engine's endpoint. -/
inductive Sender
  | ctx (cx : Nat) (tid : BitVec 32)
  | disp (launch die : Nat)
  | net (die part ep : Nat)
  deriving DecidableEq, Repr

/-- A spawn message (R64). -/
structure SpawnMsg where
  core  : Nat
  from_ : Sender
  entry : Word
  a0    : Word
  a1    : Word
  a2    : Word
  a3    : Word
  fx    : Bool
  tag   : Bool
  part  : Nat
  deriving DecidableEq, Repr

/-- For whom a drain is made (R186, R187); for a context, with the tag of its sending (R214). -/
inductive DrainFor
  | ctx (cx : Nat) (tid : BitVec 32) (tag : Bool)
  | req (r : Req)
  | none
  deriving DecidableEq, Repr

/-- Messages and internal steps in flight. `status` is an update of a graph's dword 4 that has not been performed yet
(R332), `ring` the slots that a notify write announced and that are not read yet (R336), and `timerWake` the action of a
timer that its wake word cannot take yet (R338). A `soWake` says whether its object was a ring, a `group` whether its
phase has a result (R256). A `mig` and a `delegated` bear the tag of their sending, the latter with the core of the lock's
owner (R214, R230); a `unitWrite` bears its command's tag and completion scope (R215), and a `teardown` its partition
(R329). -/
inductive Msg
  | req (r : Req)
  | reply (r : Reply)
  | retry (cx : Nat) (tid : BitVec 32)
  | spawn (m : SpawnMsg)
  | answer (dest : Sender) (core : Nat) (reason : Nat)
  | mig (src core : Nat) (tid : BitVec 32) (tag : Bool)
  | migAns (src core : Nat) (slot : Option Nat) (tid : BitVec 32)
  | migCommit (slot : Nat) (data : Ctx)
  | migAbort (slot : Nat) (tid : BitVec 32)
  | notice (core : Nat) (place : BitVec 32) (tid : BitVec 32)
  | drain (core : Nat) (sig : Sig) (part : Nat) (dest : DrainFor)
  | drainAck (dest : DrainFor)
  | walk (who : Requester) (cx : Nat) (va : Nat) (kind : Nat) (part : Nat) (ctlb : Bool)
  | soWake (cx : Nat) (tid : BitVec 32) (obj : Nat) (sig : Sig) (ring : Bool) (v : Word) (st : Word)
  | delegated (cx : Nat) (tid : BitVec 32) (obj : Nat) (sig : Sig) (scope : Scope) (v : Word) (owner : Nat) (tag : Bool)
  | group (cx : Nat) (tid : BitVec 32) (sig : Sig) (val : Bool) (res : Word) (st : Word)
  | task (die part : Nat) (node : Word) (tid : BitVec 32) (asker : Option (Nat × BitVec 32)) (from_ : Option (Nat × Bool))
  | unitWrite (core part : Nat) (tag : Bool) (cells : List Host.Cell) (scope : Scope)
  | node (part graph n : Nat)
  | nodeDone (part graph n : Nat) (ok : Bool) (sig : Sig)
  | status (die part graph : Nat) (va : Word) (v : Nat) (sig : Sig)
  | ring (part graph : Nat) (slot n : Nat)
  | timerWake (die part : Nat) (loc : Nat) (va : Word)
  | spawnRetry (dest : Sender) (core : Nat) (due : Nat)
  | teardown (die part : Nat) (tid : BitVec 32) (term : Bool)
  | pkt (die part ep num : Nat)
  | contrib (c : Contrib)
  | rxPkt (p : Packet)
  | redRes (dest : Nat × Nat × Nat × Nat) (code mask : Nat) (bytes : List Byte)
  | host (kind : Nat) (h : HostAcc)
  deriving DecidableEq, Repr

/-- What a waiting request at an object asks (R226). -/
inductive TKind
  | lock
  | call (r g0 g1 g2 g3 : Word)
  | bar (target : Nat)
  | pop
  | push (item : Word) (prod : Nat) (eos : Bool) (sig : Sig)
  deriving DecidableEq, Repr

/-- A ticket (R226): `polling` when it was taken in FLAG mode and no switch moved it. -/
structure Ticket where
  num  : Nat
  cx   : Nat
  tid  : BitVec 32
  kind : TKind
  polling : Bool
  deriving DecidableEq, Repr

/-- An item or end-of-stream token of a ring with the release it carries (R233, R234). -/
structure RItem where
  val  : Word
  prod : Nat
  eos  : Bool
  sig  : Sig
  deriving DecidableEq, Repr

/-- A synchronisation object (R222–R240). `owed` holds wakes of polling tickets that their next poll will fetch. -/
structure SObj where
  part  : Nat
  kind  : SoKind
  mode  : Nat
  tab   : Bool
  scope : Scope
  ofb   : Bool
  swc   : Nat
  tickets : List Ticket
  nextNum : Nat
  owed  : List (Ticket × Sig × Word × Word)
  holder : Option (Nat × BitVec 32)
  serving : Option Ticket
  served : Nat
  sig   : Sig
  n     : Nat
  xb    : Bool
  phase : Nat
  arr   : Nat
  nextArr : Nat
  posted : Bool
  bal   : Int
  ovf   : Bool
  hist  : List Bool
  credited : Bool
  first : Option Nat
  firstNext : Option Nat
  late  : Nat
  lateNow : Bool
  lateNext : Bool
  quiet : Nat
  sigNext : Sig
  sigDone : Sig
  prods : Nat
  items : List RItem
  eosPushed : BitVec 16
  eosPopped : BitVec 16
  calls : Nat
  sinceFb : Option Nat
  pol   : Word
  wnext : Nat
  deriving DecidableEq, Repr

/-- Kind of a group arrival (R256). -/
inductive GKind | bar | vote (v : Vote) | red (o : RedOp) (t : GTy) | leave
  deriving DecidableEq, Repr

/-- A member of a group (R250–R255). -/
structure Member where
  tid  : BitVec 32
  cx   : Nat
  left : Bool
  lost : Bool
  arr  : Option (GKind × Word)
  susp : Bool
  deriving DecidableEq, Repr

/-- A named group (R246–R258). `early` holds the arrivals of its pending members, in order (R252). -/
structure Group where
  name  : Word
  part  : Nat
  die   : Nat
  idx   : Nat
  gen   : Nat
  scope : Scope
  base  : Nat
  phase : Nat
  mems  : List Member
  pending : List Member
  kind  : Option GKind
  lost  : Bool
  sig   : Sig
  early : List (Nat × BitVec 32 × GKind × Sig)
  deriving DecidableEq, Repr

/-- What waits at a reserved word (R209, R244): a request, or bytes of a write-back of a core or of another writer,
numbered in the order in which they came. -/
inductive QItem
  | req (r : Req)
  | write (core : Option Nat) (cells : List Host.Cell) (n : Nat)
  deriving DecidableEq, Repr

/-- The reservation queue of a word (R209, R244): its first byte's location, the holder (context, TID, the bytes it
reserved and the tick of the grant) and what waits (log 29). -/
structure ResvQ where
  loc    : Nat
  holder : Option (Nat × BitVec 32 × List Nat × Nat)
  queue  : List QItem
  deriving DecidableEq, Repr

/-- State of an engine command (R313–R316): outside its full queue, in its queue, started and waiting for a page, a
reserved word or the end of a fault, waiting for a barrier's phase (`cph`, R319), or ended and still to complete. -/
inductive EngSt
  | outside
  | queued
  | held
  | barrier
  | done (code bytes : Nat) (exp born : Bool) (sig : Sig)
  deriving DecidableEq, Repr

/-- An engine command (R313): operand values, FX, table and tag of its issue; `go` says that the barrier phase of a
`cph` is complete, and `acq` is the signature that its core acquires with it (R216). -/
structure EngCmd where
  id   : Nat
  i    : Instr
  core : Nat
  cx   : Nat
  tid  : BitVec 32
  part : Nat
  ch   : Nat
  seq  : Nat
  tok  : Nat
  vals : List Nat
  fx   : Bool
  tbl  : BitVec 4096
  tag  : Bool
  scope : Scope
  conv : Bool
  st   : EngSt
  go   : Bool
  acq  : Sig
  deriving DecidableEq, Repr

/-- States of a launch (R326); `ending`: its done word is still to be written. -/
inductive LSt | held | queued | placing | running | ending
  deriving DecidableEq, Repr

/-- A launch (R324–R328). `todo` lists the cores whose contexts are still to be placed, one entry each, and `unsent`
those of them whose spawn message the dispatchers have not sent yet; `live` counts the placed contexts of a core that
have not ended, `rep` the cores that have reported, `flight` the spawn messages without an answer, `sig` unites the
releases of the reports, and `check` is the tick at which its dependences are read again. -/
structure Launch where
  id    : Nat
  part  : Nat
  die   : Nat
  prio  : Nat
  dfail : Bool
  entry : Word
  args  : List Word
  doneW : Word
  deps  : List Word
  todo  : List Nat
  unsent : List Nat
  scr   : List Nat
  simg  : Word
  slen  : Nat
  st    : LSt
  check : Nat
  flight : Nat
  live  : Tbl Nat
  rep   : List Nat
  ctxsN : Nat
  faults : Nat
  code  : Nat
  tstat : Nat
  sig   : Sig
  node  : Option (Nat × Nat)
  deriving DecidableEq, Repr

/-- A resident node (R333, R334). -/
structure Node where
  kind  : Nat
  npred : Nat
  addr  : Word
  s0    : Nat
  s1    : Nat
  table : List Nat
  count : Nat
  running : Bool
  pend  : Nat
  deriving DecidableEq, Repr

/-- A resident task graph with its notify register (R332–R336). -/
structure Graph where
  part  : Nat
  handle : Nat
  die   : Nat
  addr  : Word
  nodes : List Node
  ring  : Word
  rlog  : Nat
  notify : Nat
  compl : Nat
  fail  : Bool
  ovf   : Bool
  fnode : Nat
  deriving DecidableEq, Repr

/-- A Belfry timer (R338): die, partition, tick and what it acts on: a wake word, by its location and (in `trec`) its
address, or a task record. -/
structure Timer where
  die  : Nat
  part : Nat
  tick : Nat
  wake : Option Nat
  trec : Word
  tid  : BitVec 32
  deriving DecidableEq, Repr

/-- A context waiting on a wake word (R337). -/
structure Watch where
  cx  : Nat
  tid : BitVec 32
  loc : Nat
  cmp : Word
  deriving DecidableEq, Repr

/-- A packet of a started request (R375, R387): `sends` counts its transmissions, `seq` orders the last one among those
of its endpoint, and `sent` is its tick. -/
structure NPkt where
  num   : Nat
  off   : Nat
  len   : Nat
  port  : Nat
  sends : Nat
  seq   : Nat
  sent  : Nat
  acked : Bool
  deriving DecidableEq, Repr

/-- A started work request that SC has not passed (R374, R388). `six` says that a packet was answered with CODE 6,
`code` that it is complete, `written` that its dwords 3 and 4 are settled, `werr` that they could not be written. -/
structure NReq where
  idx   : Nat
  reduce : Bool
  cnt   : Bool
  len   : Nat
  roff  : Nat
  bytes : List Byte
  peer  : List Word
  pkts  : List NPkt
  six   : Bool
  code  : Option Nat
  rtx   : Nat
  mask  : Nat
  written : Bool
  werr  : Bool
  tag   : Bool
  fx    : Bool
  deriving DecidableEq, Repr

/-- A message being received (R375): the sender's key and request, the offsets placed and whether bytes were lost. -/
structure RxMsg where
  key  : Nat
  req  : Nat
  offs : List Nat
  bad  : Bool
  deriving DecidableEq, Repr

/-- An endpoint (R373): `inc` tells its registration from an earlier one of its number (log 41), `tags` are the phase
tags and FX of the requests from `next` to `prod` (R370, R384), `scSig` and `rcSig` what the rises of SC and RC release
(R376), `seen` and `sixes` the packets received and those answered with CODE 6, `flits` those of packets that are not
whole yet (R370), `spawns` what its threads are still to be told (R377). -/
structure Endpoint where
  die   : Nat
  part  : Nat
  ep    : Nat
  inc   : Nat
  rlog  : Nat
  ring  : Word
  buf   : Word
  blen  : Nat
  peer  : Nat
  entry : Word
  tplace : BitVec 32
  prod  : Nat
  next  : Nat
  reqs  : List NReq
  sc    : Nat
  rc    : Nat
  scErr : Nat
  rcErr : Nat
  scSig : Sig
  rcSig : Sig
  tags  : List (Bool × Bool)
  nextPkt : Nat
  seqNo : Nat
  port  : Nat
  rx    : List RxMsg
  seen  : List (Nat × Nat)
  sixes : List (Nat × Nat)
  flits : List Flit
  spawns : List (Nat × Nat × Nat)
  spawnOut : Bool
  deriving DecidableEq, Repr

/-- A reduction in the pod's switch (R378): the first contribution's shape and tick, what has arrived, and, once it has failed,
the mask of the ranks that contributed before. -/
structure Reduction where
  part  : Nat
  rid   : Nat
  nr    : Nat
  len   : Nat
  roff  : Nat
  first : Nat
  got   : List Contrib
  failed : Option Nat
  deriving DecidableEq, Repr

/-- A fleeting tile's record (R295). -/
structure TileRec where
  birth : Nat
  tlife : Nat
  tpart : Nat
  dead  : Bool
  deriving DecidableEq, Repr

/-- A region record (R294) at one home slice. -/
structure RegionRec where
  life : Nat
  part : Option Nat
  deriving DecidableEq, Repr

/-- What the package sends out: packets over Ethernet and flits over scale-up ports, acknowledgements, host read data,
reports, the completion records of commands (R277), and the step records and error logs that the physical function reads
(R395). -/
inductive OutMsg
  | packet (p : Packet) (peer : List Word) (port : Nat)
  | flit (f : Flit) (peer : List Word) (port : Nat)
  | ack (pkg : Nat) (a : Ack)
  | hostRead (h : HostAcc) (v : Word)
  | report (nonce : BitVec 256) (serial : Word) (pkg : Nat) (digests : List (BitVec 512)) (vf : Option (Nat × List Nat × Word × Word × Nat))
      (sig : BitVec 4096)
  | loaded (part : Nat) (entries : List Word)
  | refusedLoad (part : Nat)
  | startStopped (steps : List Word)
  | exposed (steps : List Word) (logs : List (Nat × List (List Word)))
  | record (die : Nat) (tag : Word) (status : Nat)
  deriving DecidableEq, Repr

/-- What the outside world does to the package: an event, with the number it selects; a command written into a die's
queue (R277); what service-core firmware and the fabric manager write into memory (page tables, frames, data) and into a
peer table (R272, R372; log 2) (log 52); the IPv6 address that the fabric manager assigns to a die and partition (R372);
the bases of a partition's apertures that firmware chooses (R379); the pages that it allots to a partition, by kind
(R55, log 53); Lantern's write of a quad's `DRTH` (R354); and a read of the step records and error logs through the
physical function (R395). -/
inductive Input
  | event (i : Instr) (k : Nat)
  | command (die : Nat) (c : Cmd)
  | write (loc : Nat) (bytes : List Byte)
  | peer (die part idx : Nat) (entry : List Word)
  | addr (die part : Nat) (a : BitVec 128)
  | bars (part : Nat) (two four : Word)
  | allot (part kind : Nat) (pages : List Nat)
  | drth (quad : Nat) (v : Word)
  | expose
  deriving DecidableEq, Repr

/-- What the save area of a pre-empted partition does not hold (R278, R279), or holds as contents of its own form (the
SO area): its clusters, of each context the launch that placed it, its delegated section, its groups' units and whether
a frame is open, the exit records that have no room, and the objects of its scratchpads. -/
structure Kept where
  clusters : List Nat
  ctxs  : List (Nat × Ctx)
  exits : List (Nat × List (Nat × Word × Word))
  objs  : List (Nat × SObj)
  deriving DecidableEq, Repr

/-- What happens once per cycle of its clock (R399): a home performs a remote request (R146, R183), a core takes a spawn
or migration message (R64), a dispatcher takes an arrival or places a context (R326), a slot becomes FREE (R83), an
`mts` replaces the `SPEN` that still governs this cycle's allocations (R83). -/
inductive Used
  | home (h : Home)
  | intake (core : Nat)
  | place (die : Nat)
  | freed (cx : Nat)
  | mask (core : Nat) (old : Word)
  deriving DecidableEq, Repr

/-- A stored firmware image (R393): its version and whether its signature verifies. -/
structure Image where
  ver  : Nat
  good : Bool
  deriving DecidableEq, Repr

/-- The stored images of one firmware (R392, R393): the one that the normal method takes, the second one, the version
run last, whether the first is an update that no start has run yet, and the minimum version. -/
structure Firmware where
  first  : Image
  second : Image
  run    : Nat
  onSecond : Bool
  fresh  : Bool
  min    : Nat
  deriving DecidableEq, Repr

/-- The state of the package. `walked` holds what the walks of units have found for accesses that are not performed yet:
the unit, partition and address, and the translation unless there is none (R273). -/
structure State where
  mem    : Memory
  ctxs   : Tbl Ctx
  cores  : Tbl Core
  walked : List (Requester × Nat × Nat × Option TlbEnt)
  quads  : Tbl Quad
  quadD  : Quad
  clusters : Tbl Cluster
  dies   : Tbl Die
  parts  : Tbl Part
  freeMarks : List Nat
  tiles  : Tbl TileRec
  regions : Tbl RegionRec
  objs   : Tbl SObj
  groups : List Group
  resvq  : List ResvQ
  watches : List Watch
  cmds   : List EngCmd
  nextCmd : Nat
  launches : List Launch
  nextLaunch : Nat
  graphs : List Graph
  timers : List Timer
  eps    : List Endpoint
  nextEp : Nat
  peers  : Tbl (List Word)
  addrs  : Tbl (BitVec 128)
  bars   : Tbl (Word × Word)
  reds   : List Reduction
  steps  : Vector Word 7
  pkg    : Nat
  now    : Nat
  dieCyc : Nat
  cap    : Nat
  capSeq : BitVec 32
  lease  : Option Nat
  lanternUp : Bool
  watchdog : Bool
  signal : Nat
  limiter : Bool
  service : Firmware
  lantern : Firmware
  kept   : Tbl Kept
  stopped : Bool
  flaws  : List (Nat × ReadFault)
  retired : List Nat
  lost   : List Nat
  allots : Tbl (List Nat)
  shapes : Tbl (List (Nat × Nat))
  globals : List (Nat × List Byte × Nat)
  msgs   : List Msg
  ghosts : List (Nat × Ctx)
  inputs : List Input
  picks  : List Nat
  used   : List Used
  turn   : List Nat
  cur    : Nat
  sel    : Nat
  fresh  : Nat
  out    : List OutMsg
  deriving DecidableEq, Repr

/-- Why the machine stops. -/
inductive Fault
  /-- Raised by `step` when the start has stopped (R395: "stop; report on the host link") and no further reset stands
  in `inputs`. Safe: the hardware does nothing either. -/
  | startStopped
  deriving DecidableEq, Repr

/-- Why an instruction has no meaning in this model. -/
inductive Refusal
  /-- An arm of `exec` not modelled yet. Safe: no claim about it can be proved. -/
  | notModelled (mnemonic : String)
  deriving DecidableEq, Repr

/-- The 512-byte table image of preset Q8-A (R115, R137): word i is the E19 code of entry i. -/
def q8aEntry (i : Nat) : IWord :=
  if i = 0 then 0
  else if i < 16 then
    -- i × 2^-9, i < 16: exponent log2 i - 9
    let l := Nat.log2 i
    BitVec.ofNat 32 ((127 + l - 9) * 1024 + (i * 1024 / 2 ^ l - 1024))
  else
    -- (8 + i mod 8) × 2^(i div 8 - 10): exponent i div 8 - 7
    BitVec.ofNat 32 ((127 + i / 8 - 7) * 1024 + (i % 8) * 128)

/-- Preset Q8-A. -/
def q8aImage : BitVec 4096 := (pack 32 q8aEntry 128).cast (by decide)

/-- A FREE context slot (R84, R392) (log 50). -/
def Ctx.reset : Ctx where
  state := .free
  why := 0
  g := Vector.replicate 16 0
  f := Vector.replicate 8 0
  p := 1
  h := Vector.replicate 8 0
  v := Vector.replicate 8 0
  m := Vector.replicate 4 0
  pc := 0
  stat := 0
  rcnt := 0
  tag := false
  tvec := 0
  tepc := 0
  tcause := 0
  tval := 0
  sret := none
  deleg := []
  tid := 0
  fnp := false
  timer := none
  lrr := 0
  lgr := 0
  pend := 0
  resv := none
  relp := none
  recs := []
  hunit := []
  frame := none
  resume := false
  run := []
  last := none
  wait := none
  reissue := false
  launch := none

/-- Context 0 of a core after reset: WAITING with WHY 14, TID CORE × 16 (R67, R392). -/
def Ctx.reset0 (core : Nat) : Ctx :=
  { Ctx.reset with state := .waiting, why := 14, tid := BitVec.ofNat 32 (core * 16) }

/-- A core after reset (R84, R331) (log 50). -/
def Core.reset : Core where
  acc := Vector.replicate 4 0
  fifo := Vector.replicate 4 []
  popW := Vector.replicate 4 []
  pushW := Vector.replicate 4 []
  q8 := q8aImage
  spen := 0xFFFE
  reap := []
  exits := []
  refused := []
  gens := []
  pages := []
  slot := { holder := none, entering := none, waiting := [], undo := [] }
  l1 := []
  inh := 0
  wsig := 0
  iss := []
  done := []
  tlb := []
  head := none
  req := 7

/-- A page descriptor after reset (R148). -/
def PageDesc.reset : PageDesc where
  frame := 0
  lay := 0
  dirty := false
  busy := false
  wb := false
  res := false
  v := false

/-- A quad after reset (R166, R167, R354, R357) (log 4). -/
def Quad.reset : Quad where
  tq := []
  trun := none
  fwd := none
  hand := none
  latch := none
  out := none
  icache := []
  op := 0
  move := none
  cyc := 0
  acc := 0
  edge := true
  half := false
  drth := 0x01040614
  stretch := 0
  wdNext := 0
  wdLeft := 0
  resp := false
  respNew := false
  ceil := 0
  wd := 0

/-- A cluster after reset (R166) (log 7). -/
def Cluster.reset : Cluster where
  part := none
  mring := 3
  tlb := []

/-- A die after reset (log 9). -/
def Die.reset : Die where
  fq := []
  cmdq := []
  cmds := []
  recs := Vector.replicate 16 []
  elog := []
  gens := []
  mode := 0
  up := 0
  lastPart := 1023
  thermal := false
  hot := false

/-- A partition before firmware sets it up (R227, R248, R350) (log 9). -/
def Part.reset : Part where
  root := none
  sopol := 0x0200044004081004
  dq := 256
  tres := false
  pre := .no
  sweeping := false

/-- A tile after reset (R295). -/
def TileRec.reset : TileRec where
  birth := 0
  tlife := 256
  tpart := 0
  dead := true

/-- A region record after reset (R294). -/
def RegionRec.reset : RegionRec where
  life := 256
  part := none

/-- Firmware as a package leaves the factory: both images good, version 0 (log 9). -/
def Firmware.reset : Firmware where
  first := { ver := 0, good := true }
  second := { ver := 0, good := true }
  run := 0
  onSecond := false
  fresh := false
  min := 0

/-- The package after reset (R84, R392): every table empty, so that every unit holds its reset record (log 9). -/
def State.reset : State where
  mem := []
  ctxs := []
  cores := []
  walked := []
  quads := []
  quadD := Quad.reset
  clusters := []
  dies := []
  parts := []
  freeMarks := []
  tiles := []
  regions := []
  objs := []
  groups := []
  resvq := []
  watches := []
  cmds := []
  nextCmd := 0
  launches := []
  nextLaunch := 0
  graphs := []
  timers := []
  eps := []
  nextEp := 0
  peers := []
  addrs := []
  bars := []
  reds := []
  steps := Vector.ofFn (fun i => BitVec.ofNat 64 (2 ^ 32 + (i.val + 1) * 16 + 1))
  pkg := 0
  now := 0
  dieCyc := 0
  cap := 2160
  capSeq := 0
  lease := none
  lanternUp := false
  watchdog := true
  signal := 0
  limiter := false
  service := Firmware.reset
  lantern := Firmware.reset
  kept := []
  stopped := false
  flaws := []
  retired := []
  lost := []
  allots := []
  shapes := []
  globals := []
  msgs := []
  ghosts := []
  inputs := []
  picks := []
  used := []
  turn := []
  cur := 0
  sel := 0
  fresh := 0
  out := []

end Sys2Proof.Machine
end

