-- ==== Sys2Proof/Machine/Flags.lean ====
section
/-! DEFINITION. The fields of `STAT` and the trap registers (R86, R87, R269): reading them, the sticky FP flags, the
repeat-frame state and the reserved fields that an `mts` may not set. -/

namespace Sys2Proof.Machine

/-- `STAT`.FX (R86). -/
def statFX (x : Word) : Bool := bit x 8
/-- `STAT`.IH (R86). -/
def statIH (x : Word) : Bool := bit x 0
/-- `STAT`.RFA (R86). -/
def statRFA (x : Word) : Bool := bit x 31
/-- `STAT`.TRIP (R86). -/
def statTRIP (x : Word) : Nat := bits x 63 32
/-- `STAT`.RIDX (R86). -/
def statRIDX (x : Word) : Nat := bits x 30 26

/-- Sets IH. -/
def setIH (b : Bool) (x : Word) : Word := setBits x 0 0 b.toNat
/-- Sets FX. -/
def setFX (b : Bool) (x : Word) : Word := setBits x 8 8 b.toNat

/-- Sets TRIP, RFA and RIDX (R102). -/
def setFrameState (trip : Nat) (rfa : Bool) (ridx : Nat) (x : Word) : Word :=
  setBits (setBits (setBits x 63 32 trip) 31 31 rfa.toNat) 30 26 ridx

/-- The flags as bits [15:11] of `STAT` (R86). -/
def FFlags.word (g : FFlags) : Word :=
  (if g.nv then 0x8000 else 0) ||| (if g.dz then 0x4000 else 0) ||| (if g.of_ then 0x2000 else 0) |||
  (if g.uf then 0x1000 else 0) ||| (if g.nx then 0x800 else 0)

/-- Records sticky flags (R86, R96). -/
def addFlags (g : FFlags) (x : Word) : Word := x ||| g.word

/-- The RSV fields of `STAT` (R86). -/
def statRsv : Word := 0x0000000003FF06FE
/-- The fields of `STAT` that `mts` writes (R86); IH is RO. -/
def statRW : Word := 0xFFFFFFFFFC00F900

/-- The RSV fields of `TVEC` and `TEPC` (R269). -/
def tvecRsv : Word := 0xFE00000000000003
/-- ADDR × 4 of `TVEC` or `TEPC` (R269). -/
def addrField (x : Word) : Word := x &&& 0x01FFFFFFFFFFFFFC
/-- The RSV fields of `TCAUSE` (R269). -/
def tcauseRsv : Word := 0xFFFFFFFFFFFCFE00
/-- The RSV fields of `RCNT` (R87). -/
def rcntRsv : Word := 0xFFFFFFFF00000000

/-- The fields of `SPEN` (R63). -/
def spenRW : Word := 0x000000000000FFFE

/-- The contents of `TCAUSE` (R269). -/
def tcauseWord (code : Nat) (dsec ptyp pfx : Bool) : Word :=
  BitVec.ofNat 64 (code % 256 + dsec.toNat * 256 + ptyp.toNat * 2 ^ 16 + pfx.toNat * 2 ^ 17)

end Sys2Proof.Machine
end

