-- ==== Sys2Proof/Machine/GroupData.lean ====
section
/-! DEFINITION. Named groups as data (R246–R263): membership, arrivals, the completion of a phase and its results. The
messages are formed in Groups.lean. -/

namespace Sys2Proof.Machine

/-- What a completion returns to a waiting member (R257, R263). `val` says that the phase's kind gives it a result (R256). -/
structure GWake where
  cx  : Nat
  tid : BitVec 32
  sig : Sig
  val : Bool
  res : Word
  st  : Word
  deriving DecidableEq, Repr

/-- The identity of a kind (R256). -/
def gIdentity : GKind → Word
  | .bar | .leave => 0
  | .vote .any => 0
  | .vote .all => 1
  | .red .add .f32 => 0x80000000
  | .red .min .f32 => 0x7F800000
  | .red .max .f32 => 0xFF800000
  | .red .add _ => 0
  | .red .min .i64 => 0x7FFFFFFFFFFFFFFF
  | .red .min .w64 => 0xFFFFFFFFFFFFFFFF
  | .red .max .i64 => 0x8000000000000000
  | .red .max .w64 => 0

/-- One combination of a kind (R256, R118). -/
def gCombine (k : GKind) (a b : Word) : Word :=
  match k with
  | .bar | .leave => 0
  | .vote .any => a ||| b
  | .vote .all => a &&& b
  | .red .add .f32 => (addF32 (a.setWidth 32) (b.setWidth 32)).setWidth 64
  | .red .min .f32 => (minMaxF32 false (a.setWidth 32) (b.setWidth 32)).setWidth 64
  | .red .max .f32 => (minMaxF32 true (a.setWidth 32) (b.setWidth 32)).setWidth 64
  | .red .add _ => a + b
  | .red .min .i64 => if a.slt b then a else b
  | .red .max .i64 => if a.slt b then b else a
  | .red .min .w64 => if a < b then a else b
  | .red .max .w64 => if a < b then b else a

/-- The result of a phase over its ranks (R256). -/
def gResult (k : GKind) (data : List Word) : Word := treeReduce (gCombine k) (gIdentity k) data

/-- Whether an arrival is a `gleave`. -/
def GKind.isLeave : GKind → Bool
  | .leave => true
  | _ => false

/-- The kind of a phase after an arrival (R256): its first arrival other than a `gleave` fixes it. -/
def gFix (k : Option GKind) (a : GKind) : Option GKind :=
  match k with
  | some j => some j
  | none => if a.isLeave then none else some a

/-- What an arrival contributes to a phase of kind `k` (R256). -/
def gDatum (k : GKind) (a : Option (GKind × Word)) : Word :=
  match a with
  | some (j, x) => if j = k then x else gIdentity k
  | none => gIdentity k

/-- Whether an arrival sets MIX in a phase of kind `k` (R256). -/
def gMixes (k : GKind) (a : Option (GKind × Word)) : Bool :=
  match a with
  | some (j, _) => !j.isLeave && decide (j ≠ k)
  | none => false

/-- Whether a kind is a vote. -/
def GKind.isVote : GKind → Bool
  | .vote _ => true
  | _ => false

/-- The status word of R257. -/
def gStatus (phase : Nat) (lost mix vote : Bool) : Word :=
  BitVec.ofNat 64 (phase % 2 ^ 32 + lost.toNat * 2 ^ 32 + mix.toNat * 2 ^ 33 + vote.toNat * 2 ^ 34)

/-- Whether every member of the open phase has arrived (R250). -/
def Group.full (g : Group) : Bool := g.mems.all (fun m => m.arr.isSome || m.lost)

/-- One completion of the open phase (R250, R256, R257). -/
def Group.completeOnce (g : Group) : Group × List GWake :=
  if g.mems.isEmpty || !g.full then (g, [])
  else
    let k := g.kind.getD .bar
    let res := gResult k (g.mems.map (fun m => gDatum k m.arr))
    let mix := g.mems.any (fun m => gMixes k m.arr)
    let vote := k.isVote && res.getLsbD 0
    let st := gStatus g.phase g.lost mix vote
    let waits (m : Member) : Bool :=
      !m.lost && (match m.arr with | some (j, _) => !j.isLeave | none => false)
    let out := (g.mems.filter waits).map (fun m => (⟨m.cx, m.tid, g.sig, decide (k ≠ .bar), res, st⟩ : GWake))
    ({ g with
        phase := (g.phase + 1) % 2 ^ 32
        mems := (g.mems.filter (fun m => !m.left && !m.lost)).map (fun m => { m with arr := none }) ++ g.pending
        pending := []
        kind := g.early.foldl (fun k e => gFix k e.2.2.1) none
        lost := false
        sig := g.early.foldl (fun x e => x ||| e.2.2.2) 0
        early := [] }, out)

/-- Completions after an event (R250, R252). -/
def Group.settle (g : Group) : Group × List GWake :=
  let (g1, w1) := g.completeOnce
  let (g2, w2) := g1.completeOnce
  (g2, w1 ++ w2)

/-- Whether a member is this context. -/
def Member.is (cx : Nat) (tid : BitVec 32) (m : Member) : Bool := m.cx == cx && m.tid == tid

/-- An arrival of a member, or of a pending member in its first phase (R252, R256). -/
def Group.arrive (g : Group) (cx : Nat) (tid : BitVec 32) (k : GKind) (x : Word) (sig : Sig) : Group × List GWake :=
  let set (m : Member) : Member := if m.is cx tid then { m with arr := some (k, x) } else m
  if g.mems.any (fun m => m.is cx tid && !m.left) then
    ({ g with mems := g.mems.map set, kind := gFix g.kind k, sig := g.sig ||| sig } : Group).settle
  else
    ({ g with pending := g.pending.map set, early := g.early ++ [(cx, tid, k, sig)] } : Group).settle

/-- A pending member's join is withdrawn, with an arrival that it has made (R252, R254). -/
def Group.unjoin (g : Group) (cx : Nat) (tid : BitVec 32) : Group :=
  { g with
    pending := g.pending.filter (fun m => !m.is cx tid)
    early := g.early.filter (fun e => !(e.1 == cx && e.2.1 == tid)) }

/-- `gleave` at the home (R262). -/
def Group.leave (g : Group) (cx : Nat) (tid : BitVec 32) (sig : Sig) : Group × List GWake :=
  if g.mems.any (fun m => m.is cx tid && !m.left) then
    let set (m : Member) : Member :=
      if m.is cx tid then { m with left := true, arr := some (m.arr.getD (.leave, 0)) } else m
    ({ g with mems := g.mems.map set, sig := g.sig ||| sig } : Group).settle
  else (g.unjoin cx tid).settle

/-- Whether a context is a member of the open phase that has not left (R254, R260). -/
def Group.member (g : Group) (cx : Nat) (tid : BitVec 32) : Bool := g.mems.any (fun m => m.is cx tid && !m.left)

/-- Whether a context is a pending member (R252). -/
def Group.isPending (g : Group) (cx : Nat) (tid : BitVec 32) : Bool := g.pending.any (Member.is cx tid)

/-- A context ends while it holds a handle (R254): a member is departed-faulted, a pending member's join is
withdrawn. -/
def Group.lose (g : Group) (cx : Nat) (tid : BitVec 32) : Group × List GWake :=
  if g.member cx tid then
    let set (m : Member) : Member := if m.is cx tid && !m.left then { m with lost := true } else m
    ({ g with mems := g.mems.map set, lost := true } : Group).settle
  else if g.isPending cx tid then
    (g.unjoin cx tid).settle
  else (g, [])

/-- The rank of a member of the open phase (R251). -/
def Group.rank? (g : Group) (cx : Nat) (tid : BitVec 32) : Option Nat :=
  g.mems.findIdx? (fun m => m.is cx tid && !m.left)

/-- A handle (R249). -/
def handleWord (die idx gen : Nat) : IWord := BitVec.ofNat 32 (2 ^ 31 + die * 2 ^ 28 + idx * 2 ^ 15 + gen % 2 ^ 15)

/-- V of a handle (R249). -/
def handleV (h : IWord) : Bool := bit h 31
/-- DIE of a handle. -/
def handleDie (h : IWord) : Nat := bits h 30 28
/-- IDX of a handle. -/
def handleIdx (h : IWord) : Nat := bits h 27 15
/-- GEN of a handle. -/
def handleGen (h : IWord) : Nat := bits h 14 0

/-- `x` of R247. -/
def nameHash (n : Word) : Nat := bits n 15 0 ^^^ bits n 31 16 ^^^ bits n 47 32 ^^^ bits n 63 48

end Sys2Proof.Machine
end

