-- ==== Sys2Proof/Machine/Objects.lean ====
section
/-! DEFINITION. Synchronisation objects as data (R222–R240, R289): what a request that is performed at the home does to
the object, and whom it wakes. The messages of a wake are formed in Sync.lean. -/

namespace Sys2Proof.Machine

/-- A wake that a ticket is owed (R226): the signature of its acquire, a value and a status. -/
structure Wake where
  t   : Ticket
  sig : Sig
  v   : Word
  st  : Word
  deriving DecidableEq, Repr

/-- An object's answer to a request that does not wait, or none when the request took a ticket. -/
abbrev ObjStep := SObj × List Wake

/-- `SOPOL`.SKEW (R227). -/
def polSKEW (p : Word) : Nat := bits p 63 48
/-- A window in ticks (R227). -/
def polWindow (p : Word) : Nat := (if bits p 47 40 = 0 then 256 else bits p 47 40) * 256
/-- `SOPOL`.TCAP (R227). -/
def polTCAP (p : Word) : Nat := if bits p 39 32 = 0 then 256 else bits p 39 32
/-- `SOPOL`.QUIET (R227). -/
def polQUIET (p : Word) : Nat := bits p 31 24
/-- `SOPOL`.BTREE (R227). -/
def polBTREE (p : Word) : Nat := bits p 23 16
/-- `SOPOL`.OHI (R227). -/
def polOHI (p : Word) : Nat := bits p 15 8
/-- `SOPOL`.QHI (R227). -/
def polQHI (p : Word) : Nat := bits p 7 0

/-- Mode codes (R223). -/
def modeFLAG : Nat := 0
/-- QUEUE. -/
def modeQUEUE : Nat := 1
/-- TREE. -/
def modeTREE : Nat := 2
/-- OWNER. -/
def modeOWNER : Nat := 3

/-- The code of a kind in the descriptor (R223). -/
def kindCode : SoKind → Nat
  | .lock => 1 | .bar => 2 | .ring => 3

/-- The code of a scope (R192). -/
def scopeNum : Scope → Nat
  | .lane => 0 | .core => 1 | .quad => 2 | .clus => 3 | .die => 4 | .pkg => 5 | .pod => 6

/-- A scope from its code. -/
def scopeOfNum : Nat → Scope
  | 0 => .lane | 1 => .core | 2 => .quad | 3 => .clus | 4 => .die | 5 => .pkg | _ => .pod

/-- WAIT of an object (R223). -/
def SObj.waiting (o : SObj) : Nat := o.tickets.length

/-- The descriptor of R223. -/
def SObj.descriptor (o : SObj) : Word :=
  BitVec.ofNat 64 (kindCode o.kind + o.mode * 8 + o.tab.toNat * 32 + scopeNum o.scope * 64 + o.ofb.toNat * 512
    + min o.waiting 65535 * 2 ^ 16 + o.swc % 2 ^ 32 * 2 ^ 32)

/-- A new object in FLAG mode with phase 0 and no tickets (R237). -/
def SObj.make (part : Nat) (kind : SoKind) (tab : Bool) (scope : Scope) (n : Nat) (xb : Bool) (pol : Word)
    (now : Nat) : SObj where
  part := part
  kind := kind
  mode := modeFLAG
  tab := tab
  scope := scope
  ofb := false
  swc := 0
  tickets := []
  nextNum := 0
  owed := []
  holder := none
  serving := none
  served := 0
  sig := 0
  n := n
  xb := xb
  phase := 0
  arr := 0
  nextArr := 0
  posted := false
  bal := 0
  ovf := false
  hist := []
  credited := false
  first := none
  firstNext := none
  late := 0
  lateNow := false
  lateNext := false
  quiet := 0
  sigNext := 0
  sigDone := 0
  prods := n
  items := []
  eosPushed := 0
  eosPopped := 0
  calls := 0
  sinceFb := none
  pol := pol
  wnext := (now / polWindow pol + 1) * polWindow pol

/-- A mode switch (R228): SWC rises, the counts start again, and a switch from FLAG moves the polling tickets. -/
def SObj.switch (o : SObj) (mode : Nat) : SObj :=
  { o with
    mode := mode
    swc := (o.swc + 1) % 2 ^ 32
    quiet := 0
    calls := 0
    late := 0
    ofb := if mode = modeOWNER then false else o.ofb
    tickets := if o.mode = modeFLAG then o.tickets.map (fun t => { t with polling := false }) else o.tickets }

/-- Whether at least QUIET windows have ended since the last fallback; an object without one meets it (R228, R289). -/
def SObj.fbOld (o : SObj) : Bool :=
  match o.sinceFb with
  | none => true
  | some k => decide (polQUIET o.pol ≤ k)

/-- The switch that a performed request calls for (R228, R289). -/
def SObj.afterRequest (o : SObj) : SObj :=
  if !o.tab then o
  else
    match o.kind with
    | .bar =>
      if o.mode = modeFLAG ∧ polBTREE o.pol ≠ 0 ∧ polBTREE o.pol ≤ o.late ∧ 2 ≤ scopeNum o.scope then
        o.switch modeTREE
      else o
    | k =>
      if o.mode = modeFLAG ∧ polQHI o.pol ≠ 0 ∧ polQHI o.pol ≤ o.waiting then o.switch modeQUEUE
      else if k = .lock ∧ o.mode = modeQUEUE ∧ polOHI o.pol ≠ 0 ∧ polOHI o.pol ≤ o.calls ∧ o.fbOld then
        o.switch modeOWNER
      else o

/-- A window ends (R227, R228): `pol` is the policy that governs from here on. -/
def SObj.boundary (o : SObj) (pol : Word) (now : Nat) : SObj :=
  let o := { o with sinceFb := o.sinceFb.map (· + 1) }
  let q := polQUIET o.pol
  let o1 : SObj :=
    if !o.tab then o
    else
      match o.kind with
      | .bar => o
      | k =>
        if o.mode = modeQUEUE then
          if k = .lock ∧ polOHI o.pol ≠ 0 ∧ polOHI o.pol ≤ o.calls ∧ o.fbOld then o.switch modeOWNER
          else
            let o := { o with quiet := if o.waiting ≤ 1 then o.quiet + 1 else 0 }
            if q ≠ 0 ∧ q ≤ o.quiet then o.switch modeFLAG else o
        else if o.mode = modeOWNER then
          let o := { o with quiet := if o.calls < polOHI o.pol / 2 then o.quiet + 1 else 0 }
          if q ≠ 0 ∧ q ≤ o.quiet then o.switch modeQUEUE else o
        else o
  { o1 with calls := 0, pol := pol, wnext := (now / polWindow pol + 1) * polWindow pol }

/-- Takes a ticket (R226). -/
def SObj.ticket (o : SObj) (cx : Nat) (tid : BitVec 32) (kind : TKind) : SObj :=
  { o with
    tickets := o.tickets ++
      [{ num := o.nextNum, cx := cx, tid := tid, kind := kind, polling := decide (o.mode = modeFLAG) }]
    nextNum := (o.nextNum + 1) % 2 ^ 32 }

/-- Whether a TID already holds a ticket here (R281). -/
def SObj.holdsTicket (o : SObj) (tid : BitVec 32) : Bool := o.tickets.any (fun t => t.tid == tid)

/-- Whether a ticket is a `slock.call`. -/
def Ticket.isCall (t : Ticket) : Bool :=
  match t.kind with
  | .call _ _ _ _ _ => true
  | _ => false

/-- `slock` and `slock.call` at the home (R239): granted at once, or a ticket. -/
def SObj.lockReq (o : SObj) (cx : Nat) (tid : BitVec 32) (kind : TKind) : SObj × Bool :=
  let call := match kind with | .call _ _ _ _ _ => 1 | _ => 0
  let o := { o with calls := o.calls + call }
  if o.holder.isNone && o.tickets.isEmpty then
    (({ o with holder := some (cx, tid), served := 0 } : SObj).afterRequest, true)
  else ((o.ticket cx tid kind).afterRequest, false)

/-- What an `sunlk` gives its issuer: nothing more, or the next delegated request (R230). -/
inductive Unlock
  | released
  | divert (t : Ticket)
  deriving DecidableEq, Repr

/-- `sunlk` at the home with the release's signature (R230, R239) (log 33). -/
def SObj.unlock (o : SObj) (sig : Sig) : SObj × List Wake × Unlock :=
  let o := { o with sig := o.sig ||| sig, serving := none }
  match o.tickets with
  | [] => (({ o with holder := none, served := 0 } : SObj).afterRequest, [], .released)
  | t :: r =>
    if o.mode = modeOWNER ∧ t.isCall ∧ o.served < 32 then
      (({ o with tickets := r, serving := some t, served := o.served + 1 } : SObj).afterRequest, [], .divert t)
    else
      (({ o with tickets := r, holder := some (t.cx, t.tid), served := 0 } : SObj).afterRequest,
        [⟨t, o.sig, 0, 0⟩], .released)

/-- The owner fallback (R231, steps 1 and 2). -/
def SObj.fallback (o : SObj) : SObj :=
  let back := match o.serving with | some t => [{ t with polling := false }] | none => []
  let o := o.switch modeQUEUE
  { o with ofb := true, sinceFb := some 0, serving := none, tickets := back ++ o.tickets }

/-- The producer whose token a waiting push would push. -/
def Ticket.eosOf (t : Ticket) : Option Nat :=
  match t.kind with
  | .push _ prod true _ => some prod
  | _ => none

/-- Withdraws the ticket of a context that was killed (R69): a token that it was to push has not been pushed. -/
def SObj.withdraw (o : SObj) (cx : Nat) (tid : BitVec 32) : SObj :=
  { o with
    eosPushed := (o.tickets.filter (fun t => t.cx == cx && t.tid == tid)).foldl
      (fun b t => match t.eosOf with | some p => b &&& ~~~((1 : BitVec 16) <<< p) | none => b) o.eosPushed
    tickets := o.tickets.filter (fun t => !(t.cx == cx && t.tid == tid))
    owed := o.owed.filter (fun w => !(w.1.cx == cx && w.1.tid == tid))
    serving := match o.serving with
      | some t => if t.cx = cx ∧ t.tid = tid then none else some t
      | none => none }

/-- Whether a barrier phase numbered `q` is complete: (phase − q) mod 2^32 between 1 and 2^31 (R240). -/
def SObj.phaseDone (o : SObj) (q : Nat) : Bool :=
  let d := (o.phase + 2 ^ 32 - q % 2 ^ 32) % 2 ^ 32
  decide (1 ≤ d) && decide (d ≤ 2 ^ 31)

/-- The status that `swait` returns for phase `q` (R240): OVF in bit 0, OLD in bit 1. -/
def SObj.phaseStatus (o : SObj) (q : Nat) : Word :=
  let d := (o.phase + 2 ^ 32 - q % 2 ^ 32) % 2 ^ 32
  match o.hist[d - 1]? with
  | some v => if v then 1 else 0
  | none => 2

/-- Whether a barrier phase may complete (R232). -/
def SObj.complete? (o : SObj) : Bool :=
  decide (o.n ≤ o.arr) && (!o.xb || o.posted) && (decide (o.bal = 0) || o.ovf)

/-- One completion of the open phase (R232, R234): the next phase opens, the waiters are woken. -/
def SObj.completeOnce (o : SObj) : ObjStep :=
  if o.kind = .bar ∧ o.complete? then
    let quiet := if o.lateNow then 0 else o.quiet + 1
    let o1 : SObj :=
      { o with
        phase := (o.phase + 1) % 2 ^ 32
        hist := (o.ovf :: o.hist).take 64
        arr := o.nextArr
        nextArr := 0
        posted := false
        bal := 0
        ovf := false
        credited := false
        first := o.firstNext
        firstNext := none
        lateNow := o.lateNext
        lateNext := false
        sigDone := o.sigDone ||| o.sig
        sig := o.sigNext
        sigNext := 0
        quiet := quiet }
    let o2 := if o1.mode = modeTREE ∧ polQUIET o1.pol ≠ 0 ∧ polQUIET o1.pol ≤ quiet then o1.switch modeFLAG else o1
    let due (t : Ticket) : Bool := match t.kind with | .bar q => o2.phaseDone q | _ => false
    let wake (t : Ticket) : Wake :=
      ⟨t, o2.sigDone, match t.kind with | .bar q => o2.phaseStatus q | _ => 0, 0⟩
    ({ o2 with tickets := o2.tickets.filter (fun t => !due t) }, (o2.tickets.filter due).map wake)
  else (o, [])

/-- Completions after an event; a phase that opens full completes too (R232). -/
def SObj.settle (o : SObj) : ObjStep :=
  let (o1, w1) := o.completeOnce
  let (o2, w2) := o1.completeOnce
  (o2, w1 ++ w2)

/-- `sarr` on a barrier (R232): the phase number returned. -/
def SObj.arrive (o : SObj) (now : Nat) (sig : Sig) : SObj × List Wake × Nat :=
  let lateAt (f : Option Nat) : Bool := match f with | some t0 => decide (polSKEW o.pol < now - t0) | none => false
  if o.arr < o.n then
    let l := lateAt o.first
    let o1 : SObj := { o with
      arr := o.arr + 1
      first := some (o.first.getD now)
      late := o.late + l.toNat
      lateNow := o.lateNow || l
      sig := o.sig ||| sig }
    let (o2, w) := o1.settle
    (o2.afterRequest, w, o.phase)
  else
    let l := lateAt o.firstNext
    let o1 : SObj := { o with
      nextArr := o.nextArr + 1
      firstNext := some (o.firstNext.getD now)
      late := o.late + l.toNat
      lateNext := o.lateNext || l
      sigNext := o.sigNext ||| sig }
    let (o2, w) := o1.settle
    (o2.afterRequest, w, (o.phase + 1) % 2 ^ 32)

/-- Changes the open phase's balance within its range (R232). -/
def SObj.addBalance (o : SObj) (d : Int) : SObj :=
  let b := o.bal + d
  { o with bal := sat b (-2147483648) 2147483647, ovf := o.ovf || decide (sat b (-2147483648) 2147483647 ≠ b) }

/-- `sexp` (R232). Completion is judged at the end of the cycle, after a credit of the same cycle (R245). -/
def SObj.expect (o : SObj) (k : Nat) : SObj := ({ o with posted := true } : SObj).addBalance k

/-- An engine's credit of `k` bytes (R232). Its completion is judged at the end of the cycle, after an `sexp` of the same
cycle (R245). -/
def SObj.credit (o : SObj) (k : Nat) : SObj :=
  if k = 0 then o else ({ o with credited := true } : SObj).addBalance (-(k : Int))

/-- Credits of 1 for each of `k` bytes, one after another (R232, R318): a phase that completes on the way, at balance 0 or
where the balance leaves its range, takes no more of them (log 38). A phase that opens meanwhile has no `sexp` posted, so it
takes all that is left. -/
def SObj.creditBytes (o : SObj) (k : Nat) : ObjStep :=
  let a := if 0 < o.bal ∧ o.bal < k then o.bal.toNat else 0
  let (o1, w1) := if a = 0 then (o, []) else (o.credit a).settle
  let past := (o1.bal + 2147483649).toNat
  let b := if past < k - a then past else 0
  let (o2, w2) := if b = 0 then (o1, []) else (o1.credit b).settle
  (o2.credit (k - a - b), w1 ++ w2)

/-- Whether a producer's token has been pushed. -/
def SObj.eosSeen (o : SObj) (p : Nat) : Bool := o.eosPushed.getLsbD p

/-- Whether tokens of all producers have been popped (R233). -/
def SObj.ended (o : SObj) : Bool := decide (popCount o.eosPopped.toNat 16 = o.prods)

/-- The status word of a popped item (R240). -/
def RItem.status (i : RItem) : Word := BitVec.ofNat 64 (i.prod + i.eos.toNat * 256)

/-- ENDED (R240). -/
def endedStatus : Word := 0x200

/-- Records that an item has been popped. -/
def SObj.popped (o : SObj) (i : RItem) : SObj :=
  if i.eos then { o with eosPopped := o.eosPopped ||| (1 <<< i.prod) } else o

/-- The first waiting pop, and the tickets without it. -/
def takePop : List Ticket → Option (Ticket × List Ticket)
  | [] => none
  | t :: r =>
    match t.kind with
    | .pop => some (t, r)
    | _ => match takePop r with | some (u, r') => some (u, t :: r') | none => none

/-- The first waiting push with its item, and the tickets without it. -/
def takePush : List Ticket → Option (Ticket × RItem × List Ticket)
  | [] => none
  | t :: r =>
    match t.kind with
    | .push item prod eos sig => some (t, ⟨item, prod, eos, sig⟩, r)
    | _ => match takePush r with | some (u, i, r') => some (u, i, t :: r') | none => none

/-- Every waiting pop of an ended ring returns (R233). -/
def SObj.flushEnded (o : SObj) : ObjStep :=
  if o.ended then
    let isPop (t : Ticket) : Bool := match t.kind with | .pop => true | _ => false
    ({ o with tickets := o.tickets.filter (fun t => !isPop t) },
      (o.tickets.filter isPop).map (fun t => ⟨t, 0, 0, endedStatus⟩))
  else (o, [])

/-- An item enters a ring that has room (R233): it goes to the oldest waiting pop, or to the tail. -/
def SObj.accept (o : SObj) (i : RItem) : ObjStep :=
  match takePop o.tickets with
  | some (t, r) =>
    let (o1, w) := (({ o with tickets := r } : SObj).popped i).flushEnded
    (o1, ⟨t, i.sig, i.val, i.status⟩ :: w)
  | none => ({ o with items := o.items ++ [i] }, [])

/-- A push at the home (R233, R240): done, or a ticket because the ring is full. -/
def SObj.push (o : SObj) (cx : Nat) (tid : BitVec 32) (i : RItem) : SObj × List Wake × Bool :=
  let o := if i.eos then { o with eosPushed := o.eosPushed ||| (1 <<< i.prod) } else o
  if o.items.length < 8 then
    let (o1, w) := o.accept i
    (o1.afterRequest, w, true)
  else ((o.ticket cx tid (.push i.val i.prod i.eos i.sig)).afterRequest, [], false)

/-- A pop at the home (R233, R240): an item or ENDED with its acquire, or a ticket. -/
def SObj.pop (o : SObj) (cx : Nat) (tid : BitVec 32) : SObj × List Wake × Option (Word × Word × Sig) :=
  match o.items with
  | i :: r =>
    let o1 := ({ o with items := r } : SObj).popped i
    let (o2, w1) : ObjStep :=
      match takePush o1.tickets with
      | some (t, j, ts) => ({ o1 with tickets := ts, items := o1.items ++ [j] }, [⟨t, 0, 0, 0⟩])
      | none => (o1, [])
    let (o3, w2) := o2.flushEnded
    (o3.afterRequest, w1 ++ w2, some (i.val, i.status, i.sig))
  | [] =>
    if o.ended then (o.afterRequest, [], some (0, endedStatus, 0))
    else ((o.ticket cx tid .pop).afterRequest, [], none)

/-- `swait` on a barrier at the home (R240). -/
def SObj.await (o : SObj) (cx : Nat) (tid : BitVec 32) (q : Nat) : SObj × Option (Word × Sig) :=
  if o.phaseDone q then (o, some (o.phaseStatus q, o.sigDone))
  else ((o.ticket cx tid (.bar q)).afterRequest, none)

/-- Whether an object is idle (R238). -/
def SObj.idle (o : SObj) : Bool :=
  o.tickets.isEmpty && o.owed.isEmpty && o.holder.isNone && o.items.isEmpty
    && decide (o.arr = 0) && !o.credited

/-- Splits wakes: those of polling tickets are kept for their polls, the others are sent (R226). DESIGN CHOICE: a kept wake
is fixed before its poll (log 85). -/
def SObj.keepPolled (o : SObj) (w : List Wake) : ObjStep :=
  ({ o with owed := o.owed ++ (w.filter (fun x => x.t.polling)).map (fun x => (x.t, x.sig, x.v, x.st)) },
    w.filter (fun x => !x.t.polling))

end Sys2Proof.Machine
end

