-- ==== Sys2Proof/Machine/Ops.lean ====
section
/-! DEFINITION. The named operations over the state: units and their numbering (R12, R13), registers with their
hard-wired members (R85), completing an instruction (R58, R102), waiting (R59), messages, ending a context (R68, R69,
R254, R271), taking a trap (R270, R231) and returning from one (R285). -/

namespace Sys2Proof.Machine

/-- The outcome of a meaning. -/
abbrev Out := Host.Outcome State Fault Refusal

-- Units (R12): a context is core × 16 + number, a core quad × 4 + number, and so on.

/-- The core of a context. -/
def coreOf (cx : Nat) : Nat := cx / 16
/-- The number of a context in its core. -/
def ctxNo (cx : Nat) : Nat := cx % 16
/-- The quad of a core. -/
def quadOf (core : Nat) : Nat := core / 4
/-- The cluster of a core. -/
def clusterOf (core : Nat) : Nat := core / 64
/-- The die of a core. -/
def dieOf (core : Nat) : Nat := core / 12800

/-- What a context reads as when the table does not list it (R392). -/
def ctxDefault (cx : Nat) : Ctx := if cx % 16 = 0 then Ctx.reset0 (cx / 16) else Ctx.reset

/-- A context. -/
def State.ctx (s : State) (cx : Nat) : Ctx := tget (ctxDefault cx) cx s.ctxs
/-- Replaces a context. -/
def State.setCtx (s : State) (cx : Nat) (c : Ctx) : State := { s with ctxs := tset cx c s.ctxs }
/-- Changes a context. -/
def State.modCtx (s : State) (cx : Nat) (f : Ctx → Ctx) : State := s.setCtx cx (f (s.ctx cx))

/-- A core. -/
def State.core (s : State) (k : Nat) : Core := tget Core.reset k s.cores
/-- Replaces a core. -/
def State.setCore (s : State) (k : Nat) (c : Core) : State := { s with cores := tset k c s.cores }
/-- Changes a core. -/
def State.modCore (s : State) (k : Nat) (f : Core → Core) : State := s.setCore k (f (s.core k))

/-- The quads of a package (R12). Number `quadCount` names all quads that the table does not list. -/
def quadCount : Nat := 25600

/-- A quad. -/
def State.quad (s : State) (q : Nat) : Quad := if quadCount ≤ q then s.quadD else tget s.quadD q s.quads
/-- Changes a quad. -/
def State.modQuad (s : State) (q : Nat) (f : Quad → Quad) : State :=
  if quadCount ≤ q then { s with quadD := f s.quadD } else { s with quads := tset q (f (s.quad q)) s.quads }

/-- A cluster. -/
def State.cluster (s : State) (k : Nat) : Cluster := tget Cluster.reset k s.clusters
/-- Changes a cluster. -/
def State.modCluster (s : State) (k : Nat) (f : Cluster → Cluster) : State :=
  { s with clusters := tset k (f (s.cluster k)) s.clusters }

/-- A die. -/
def State.die (s : State) (d : Nat) : Die := tget Die.reset d s.dies
/-- Changes a die. -/
def State.modDie (s : State) (d : Nat) (f : Die → Die) : State := { s with dies := tset d (f (s.die d)) s.dies }

/-- A partition. -/
def State.part (s : State) (p : Nat) : Part := tget Part.reset p s.parts
/-- Changes a partition. -/
def State.modPart (s : State) (p : Nat) (f : Part → Part) : State := { s with parts := tset p (f (s.part p)) s.parts }

/-- The number of no context. -/
def noCtx : Nat := 2 ^ 40

/-- What a context that was killed still has outstanding (R69): its instruction, whose access waits for its translation or
for write-backs, with the registers of its issue. -/
def State.ghost? (s : State) (cx : Nat) (tid : BitVec 32) : Option Ctx :=
  (s.ghosts.find? (fun e => e.1 == cx && e.2.tid == tid)).map Prod.snd

/-- Whether a context's frame is in a save area (R279). -/
def State.keptCtx (s : State) (cx : Nat) (tid : BitVec 32) : Bool :=
  s.kept.any (fun k => k.2.ctxs.any (fun e => e.1 == cx && e.2.tid == tid))

/-- Whether a partition is being pre-empted or out (R278). -/
def State.partOut (s : State) (p : Nat) : Bool := decide ((s.part p).pre ≠ .no)

/-- The context that the instruction acts for. -/
def State.me (s : State) : Ctx := s.ctx s.cur
/-- Changes the context that the instruction acts for. -/
def State.modMe (s : State) (f : Ctx → Ctx) : State := s.modCtx s.cur f
/-- The core that the instruction acts for. -/
def State.myCore (s : State) : Nat := coreOf s.cur

/-- The partition of a core: its cluster's (R20). -/
def State.partOf (s : State) (core : Nat) : Option Nat := (s.cluster (clusterOf core)).part
/-- The partition that the instruction acts for; 0 for a core that no partition holds (log 7). -/
def State.myPart (s : State) : Nat := (s.partOf s.myCore).getD 0

/-- Whether two cores lie in one unit of a scope (R15). -/
def sameUnit (sc : Scope) (a b : Nat) : Bool :=
  match sc with
  | .lane | .core => a == b
  | .quad => quadOf a == quadOf b
  | .clus => clusterOf a == clusterOf b
  | .die => dieOf a == dieOf b
  | .pkg | .pod => true

/-- Whether a scope is at or above another (R15). -/
def scopeGe (a b : Scope) : Bool := decide (scopeNum b ≤ scopeNum a)

/-- The cores of a partition within the unit of a scope around a core, among those that the tables list. -/
def State.listedCores (s : State) : List Nat := s.cores.map Prod.fst

/-- `PLACE` of a context (R13). -/
def placeOf (pkg cx : Nat) : Nat :=
  let core := coreOf cx
  pkg * 2 ^ 21 + dieOf core * 2 ^ 18 + core / 64 % 200 * 2 ^ 10 + core % 64 * 2 ^ 4 + ctxNo cx

/-- The core that a place number of this package names; none for CLUS above 199 or another package (R14). Bits [63:32] of
the register are ignored, and a number whose RSV bits [31:29] are not 0 names no place, so that its sender is refused with
reason 3: R13, R14, R64 and R75 say neither (DESIGN CHOICE, log 60). -/
def coreOfPlace (pkg : Nat) (x : Word) : Option Nat :=
  let v := x.toNat % 2 ^ 32
  if v / 2 ^ 29 = 0 ∧ nbits v 28 21 = pkg ∧ nbits v 17 10 < 200 then
    some (nbits v 20 18 * 12800 + nbits v 17 10 * 64 + nbits v 9 4)
  else none

-- Registers (R84, R85).

/-- Reads a general register. -/
def Ctx.gr (c : Ctx) (r : GReg) : Word := c.g[r.toNat]
/-- Writes a general register. -/
def Ctx.setG (r : GReg) (v : Word) (c : Ctx) : Ctx := { c with g := c.g.set r.toNat v }
/-- Reads an f register. -/
def Ctx.fr (c : Ctx) (r : Reg8) : Word := c.f[r.toNat]
/-- Writes an f register. -/
def Ctx.setF (r : Reg8) (v : Word) (c : Ctx) : Ctx := { c with f := c.f.set r.toNat v }
/-- Reads a predicate; `p0` is true. -/
def Ctx.pr (c : Ctx) (r : Reg8) : Bool := r == 0 || c.p.getLsbD r.toNat
/-- Writes a predicate; a write to `p0` is discarded. -/
def Ctx.setP (r : Reg8) (b : Bool) (c : Ctx) : Ctx :=
  if r = 0 then c else { c with p := setBits c.p r.toNat r.toNat b.toNat }
/-- Reads a handle. -/
def Ctx.hr (c : Ctx) (r : Reg8) : IWord := c.h[r.toNat]
/-- Writes a handle. -/
def Ctx.setH (r : Reg8) (v : IWord) (c : Ctx) : Ctx := { c with h := c.h.set r.toNat v }
/-- Reads a vector register. -/
def Ctx.vr (c : Ctx) (r : Reg8) : VWord := c.v[r.toNat]
/-- Writes a vector register. -/
def Ctx.setV (r : Reg8) (v : VWord) (c : Ctx) : Ctx := { c with v := c.v.set r.toNat v }
/-- Reads a mask; `m0` is all ones. -/
def Ctx.mr (c : Ctx) (r : Reg4) : IWord := if r = 0 then 0xFFFFFFFF else c.m[r.toNat]
/-- Writes a mask; a write to `m0` is discarded. -/
def Ctx.setM (r : Reg4) (v : IWord) (c : Ctx) : Ctx := if r = 0 then c else { c with m := c.m.set r.toNat v }
/-- `STAT`.FX of a context. -/
def Ctx.fx (c : Ctx) : Bool := statFX c.stat
/-- Records FP flags. -/
def Ctx.flags (g : FFlags) (c : Ctx) : Ctx := { c with stat := addFlags g c.stat }

/-- The program counter has 57 bits (R84) (log 31). -/
def wrapPc (x : Word) : Word := x &&& 0x01FFFFFFFFFFFFFF

/-- The bytes of an instruction (R21). -/
def instrLen : Instr → Nat
  | .mcv _ _ _ _ _ => 20
  | .mshp _ _ => 20
  | _ => 4

-- Completing an instruction.

/-- The next body instruction of a frame, or its end (R102). -/
def Ctx.frameNext (fr : Frame) (c : Ctx) : Ctx :=
  let i := statRIDX c.stat + 1
  let k := statTRIP c.stat
  let (k, i) := if fr.len < i then (k + 1, 0) else (k, i)
  if k < c.rcnt.toNat then { c with stat := setFrameState k true i c.stat }
  else
    { c with
      stat := setFrameState 0 false 0 c.stat
      frame := none
      pc := wrapPc (fr.addr + BitVec.ofNat 64 (4 * (fr.len + 2))) }

/-- The context moves past an instruction of `n` bytes (R21), or to the next instruction of its frame (R102). -/
def Ctx.advance (n : Nat) (c : Ctx) : Ctx :=
  match c.frame with
  | some fr => c.frameNext fr
  | none => { c with pc := wrapPc (c.pc + BitVec.ofNat 64 n) }

/-- A context whose operation is complete is READY (R56). -/
def Ctx.ready (c : Ctx) : Ctx := { c with state := .ready, why := 0, wait := none, reissue := false }

/-- Completes the current instruction of a context with an effect on its registers. -/
def State.finish (s : State) (cx n : Nat) (f : Ctx → Ctx) : State :=
  s.modCtx cx (fun c => ((f c).advance n).ready)

/-- Completes a four-byte instruction of the current context. -/
def retire (f : Ctx → Ctx) (s : State) : Out := .next (s.finish s.cur 4 f)

/-- Makes a context go on at an address (a control transfer, which discards its run-ahead words, R276: the fetch of an old
word after a `jr` that R213 calls observable does not arise, log 80). -/
def Ctx.goto (a : Word) (c : Ctx) : Ctx := { c with pc := wrapPc a, run := [], frame := none }

/-- Acts for another context. -/
def State.as_ (s : State) (cx : Nat) (k : State → Out) : Out :=
  match k { s with cur := cx } with
  | .next t => .next { t with cur := s.cur }
  | o => o

-- Messages.

/-- Sends a message. -/
def State.send (s : State) (m : Msg) : State := { s with msgs := s.msgs ++ [m] }
/-- Sends messages in order. -/
def State.sendAll (s : State) (l : List Msg) : State := { s with msgs := s.msgs ++ l }

/-- Removes the message at a position. -/
def State.dropMsg (s : State) (k : Nat) : State := { s with msgs := dropAt k s.msgs }

/-- The reply of a home to a request. -/
def Req.reply (r : Req) (vals : List Nat) : Reply where
  cx := r.cx
  tid := r.tid
  tag := r.tag
  part := r.part
  vals := vals
  lanes := []
  recs := []
  trap := none
  made := false

/-- The address under which a request names the first byte for which `hit` holds: of a vector request that of its lane. -/
def Req.addrOf (r : Req) (hit : Nat → Bool) : Word :=
  match r.lanes.findIdx? (fun e => e.2.any hit) with
  | some j => BitVec.ofNat 64 (r.vals.getD j r.va.toNat)
  | none => r.va

/-- A reply that makes the context trap with an address in `TVAL`. -/
def Req.failAt (r : Req) (cause : Nat) (va : Word) : Reply := { r.reply [] with trap := some (cause, va) }

/-- A reply that makes the context trap. -/
def Req.fail (r : Req) (cause : Nat) : Reply := r.failAt cause r.va

/-- A wait record for an instruction. -/
def mkWait (i : Instr) (ph : Nat) (acks : Nat) (next : Word) : Wait where
  i := i
  ph := ph
  acks := acks
  next := next
  got := []
  recs := []
  tbl := none
  till := 0
  val := 0

/-- Puts a context into WAITING (R59). -/
def State.block (s : State) (cx why : Nat) (w : Wait) : State :=
  s.modCtx cx (fun c => { c with state := .waiting, why := why, wait := some w })

/-- Holds an instruction that is performed again when the context is released (log 14). -/
def State.hold (s : State) (cx why : Nat) (i : Instr) : State := s.block cx why (mkWait i 0 0 0)

/-- Holds an instruction whose access at an address waits for a translation or a fault (R273, R274). -/
def State.holdAt (s : State) (cx why : Nat) (i : Instr) (va : Word) : State :=
  s.block cx why { mkWait i 0 0 0 with val := va }

/-- Whether a context still waits under a TID on an instruction in phase `ph`. -/
def Ctx.waits (c : Ctx) (tid : BitVec 32) (ph : Nat) : Bool :=
  decide (c.state = .waiting) && c.tid == tid && (match c.wait with | some w => decide (w.ph = ph) | none => false)

/-- Releases a held context: it performs its instruction again. -/
def State.release (s : State) (cx : Nat) : State := s.send (.retry cx (s.ctx cx).tid)

-- The error log (R397).

/-- Adds an entry to a die's error log, a ring of 256. -/
def State.logErr (s : State) (die kind part addr info : Nat) : State :=
  s.modDie die fun d =>
    let full := decide (256 ≤ d.elog.length)
    let e : ErrEnt :=
      { kind := kind, ovr := full, part := part, tick := s.now, addr := addr, info := info, tid := 0, tval := 0 }
    { d with elog := (if full then d.elog.drop 1 else d.elog) ++ [e] }

/-- Adds to a die's error log what R271 reports of a fatal trap: the entry of R397 and beside it the TID and the whole
`TVAL` (log 55). -/
def State.logFatal (s : State) (die part cause : Nat) (val at_ : Word) (tid : BitVec 32) : State :=
  (s.logErr die 3 part at_.toNat (cause + val.toNat % 2 ^ 32 * 2 ^ 32)).modDie die fun d =>
    { d with elog := d.elog.dropLast ++ (d.elog.getLast?.map fun e => { e with tid := tid, tval := val }).toList }

/-- The four dwords of an error-log entry (R397). -/
def ErrEnt.dwords (e : ErrEnt) : List Word :=
  [BitVec.ofNat 64 (e.kind % 2 ^ 8 + e.ovr.toNat * 2 ^ 8 + e.part % 2 ^ 10 * 2 ^ 16), BitVec.ofNat 64 e.tick,
    BitVec.ofNat 64 e.addr, BitVec.ofNat 64 e.info]

-- Objects and groups: storing a changed one and sending its wakes.

/-- An object at a line. -/
def State.obj? (s : State) (line : Nat) : Option SObj :=
  match s.objs.find? (fun e => e.1 == line) with
  | some e => some e.2
  | none => none

/-- Stores an object and sends the wakes that are not polled for (R226). -/
def State.putObj (s : State) (line : Nat) (r : ObjStep) : State :=
  let (o, w) := r.1.keepPolled r.2
  ({ s with objs := tset line o s.objs } : State).sendAll
    (w.map fun x => .soWake x.t.cx x.t.tid line x.sig (decide (o.kind = .ring)) x.v x.st)

/-- Stores a group, or destroys it when its new phase has no member (R253), and sends its results. -/
def State.putGroup (s : State) (g : Group) (w : List GWake) : State :=
  let same (h : Group) : Bool := h.die == g.die && h.idx == g.idx
  let s1 : State :=
    if g.mems.isEmpty then
      ({ s with groups := s.groups.filter (fun h => !same h) } : State).modDie g.die
        (fun d => { d with gens := tset g.idx ((tget 0 g.idx d.gens + 1) % 2 ^ 15) d.gens })
    else { s with groups := s.groups.map (fun h => if same h then g else h) }
  s1.sendAll (w.map fun x => .group x.cx x.tid x.sig x.val x.res x.st)

-- Ending a context.

/-- A context-free notice to every sender of the core's refusal list, which empties (R66). -/
def State.freeNotices (s : State) (core : Nat) : State :=
  let l := (s.core core).refused
  (s.modCore core (fun c => { c with refused := [] })).sendAll (l.map fun e => .notice core e.1 e.2)

/-- A context as it leaves its slot: the f and v registers, which its core's frame shows (R279), keep their values until the
slot is allocated (R65, R84). -/
def Ctx.left (c : Ctx) : Ctx := { Ctx.reset with f := c.f, v := c.v }

/-- A slot becomes FREE (R66); it can be allocated from the next cycle on (R83). -/
def State.freeSlot (s : State) (cx : Nat) : State :=
  ({ s with used := .freed cx :: s.used } : State).setCtx cx (s.ctx cx).left |>.freeNotices (coreOf cx)

/-- An exit record's dword 0 (R68). -/
def exitDword (tid : BitVec 32) (no reason : Nat) : Word :=
  BitVec.ofNat 64 (tid.toNat + no * 2 ^ 32 + reason * 2 ^ 40)

/-- Queues an exit record, or puts the context into EXIT when the queue holds 8 (R68). -/
def State.queueExit (s : State) (cx : Nat) (r0 r1 : Word) : State :=
  let k := coreOf cx
  if (s.core k).reap.length < 8 then
    (s.modCore k (fun c => { c with reap := c.reap ++ [(r0, r1)] })).freeSlot cx
  else
    (s.modCore k (fun c => { c with exits := c.exits ++ [(ctxNo cx, r0, r1)] })).modCtx cx
      (fun c => { c with state := .exit, why := 0, wait := none })

/-- Steps 1 and 2 of the owner fallback on every lock that a context owns in OWNER mode or serves (R231). DESIGN CHOICE: a
lock whose delegated section is still open counts although it has stepped back to QUEUE at a window boundary meanwhile: OFB
is set and SWC rises, which R231 says only of OWNER mode (log 32). -/
def State.fallbackLocks (s : State) (cx : Nat) (tid : BitVec 32) (serving : List Nat) : State :=
  { s with
    objs := s.objs.map fun e =>
      if e.2.kind = .lock ∧ e.2.holder = some (cx, tid) ∧ (e.2.mode = modeOWNER ∨ e.1 ∈ serving) then
        (e.1, e.2.fallback)
      else e }

/-- A requester leaves the fault-queue entries that it waits on (R275): COUNT does not fall. -/
def State.leaveEntries (s : State) (gone : Requester → Bool) : State :=
  { s with
    dies := s.dies.map (fun e =>
      (e.1, { e.2 with fq := e.2.fq.map (fun f => (f.1, { f.2 with who := f.2.who.filter (fun r => !gone r) })) })) }

/-- Whether a requester is a context's instruction, its request at a home, or its tensor operation. -/
def Requester.isOf (cx : Nat) (tid : BitVec 32) (r : Requester) : Bool :=
  match r with
  | .ctx x t | .req x t | .tensor x t => x == cx && t == tid
  | _ => false

/-- The tickets of a context at every object are withdrawn (R69, R226). -/
def State.withdrawTickets (s : State) (cx : Nat) (tid : BitVec 32) : State :=
  { s with objs := s.objs.map (fun e => (e.1, e.2.withdraw cx tid)) }

/-- The vector slot of a core when a context ends (R127): the instruction of one that waits for it, or holds it and has not
entered, is dropped. -/
def VSlot.without (v : VSlot) (cx : Nat) : VSlot :=
  { holder := v.holder.map (fun h => if h.1 = cx then (noCtx, h.2) else h)
    entering := v.entering.filter (· != cx)
    waiting := v.waiting.filter (· != cx)
    undo := v.undo.filter (fun e => e.cx != cx) }

/-- A killed context has the registers again that its vector instruction in the unit was still to write (R127). -/
def State.dropResults (s : State) (cx : Nat) : State :=
  let k := coreOf cx
  match (s.core k).slot.undo.find? (fun e => e.cx == cx && decide ((s.quad (quadOf k)).cyc ≤ e.till)) with
  | some e => s.modCtx cx (fun c => { c with f := e.f, v := e.v, m := e.m })
  | none => s

/-- Withdraws a context's tickets, watches and places in queues (R69, R226, R337, R127, R274); a request of it that stands
at a fault of its home leaves the entry and is gone (R275). A pop or push that it waits for stays at its FIFO and completes
there (R69, R72). -/
def State.withdraw (s : State) (cx : Nat) (tid : BitVec 32) : State :=
  let stuck (m : Msg) : Bool := match m with | .req r => r.blocked && r.cx == cx && r.tid == tid | _ => false
  let s1 : State :=
    { (s.withdrawTickets cx tid).leaveEntries (Requester.isOf cx tid) with
      watches := s.watches.filter (fun w => !(w.cx == cx && w.tid == tid))
      msgs := s.msgs.filter (fun m => !stuck m) }
  s1.modCore (coreOf cx) fun c => { c with slot := c.slot.without cx }

/-- Every group that a context belongs to loses it (R254). -/
def State.loseGroups (s : State) (cx : Nat) (tid : BitVec 32) : State :=
  s.groups.foldl
    (fun s g =>
      if g.member cx tid || g.isPending cx tid then
        let (g1, w) := g.lose cx tid
        s.putGroup g1 w
      else s) s

/-- A launch counts a context that has ended (R325, R328). -/
def State.countEnd (s : State) (launch : Option Nat) (core : Nat) (fault : Bool) : State :=
  match launch with
  | none => s
  | some id =>
    { s with
      launches := s.launches.map fun l =>
        if l.id = id then
          { l with
            live := tset core (tget 0 core l.live - 1) l.live
            faults := l.faults + fault.toNat
            code := if fault then max l.code 1 else l.code }
        else l }

/-- The next reservation of a word is free to be granted. -/
def dropHolder (cx : Nat) (tid : BitVec 32) (q : ResvQ) : ResvQ :=
  match q.holder with
  | some (x, t, _, _) => if x = cx ∧ t = tid then { q with holder := none } else q
  | none => q

/-- Whether anything is held or waits at a word. -/
def ResvQ.live (q : ResvQ) : Bool := q.holder.isSome || !q.queue.isEmpty

/-- Breaks the reservations of a context (R244). -/
def State.breakResv (s : State) (cx : Nat) (tid : BitVec 32) : State :=
  { s with resvq := (s.resvq.map (dropHolder cx tid)).filter ResvQ.live }

/-- Whether a context has a `lnch` outstanding (R329). -/
def Ctx.launching (c : Ctx) : Bool :=
  match c.wait with
  | some w => (match w.i with | .lnch _ _ => true | _ => false) && decide (w.ph = 1)
  | none => false

/-- Whether an operation is the queued tensor operation of a context. -/
def TOp.isOf (cx : Nat) (tid : BitVec 32) (o : TOp) : Bool := o.cx == cx && o.tid == tid

/-- Whether a queued tensor operation of a context leaves the queue with it: one that has started completes, unless it
waits on a fault (R165, R275). -/
def State.opGoes (s : State) (cx : Nat) (tid : BitVec 32) (o : TOp) : Bool :=
  o.isOf cx tid && (!o.begun || s.dies.any (fun d => d.2.fq.any (fun e => e.2.who.contains (.tensor cx tid))))

/-- Whether a context has an access outstanding that has not left its core yet: it waits for a translation (R273), or for
write-backs before its release (R186). -/
def Ctx.outstanding (c : Ctx) : Bool :=
  decide (c.state = .waiting) && (c.why == 1 || c.why == 17) && (match c.wait with | some w => w.ph == 0 | none => false)

/-- A killed context as its outstanding access sees it: its registers, and a handler, so that a trap of the access ends it
without any other effect. -/
def Ctx.ghost (c : Ctx) : Ctx :=
  { c with tvec := 4, stat := setIH false c.stat, deleg := [], sret := none, launch := none, timer := none }

/-- The access that a killed context has outstanding goes on without it (R69). -/
def State.leaveGhost (s : State) (cx : Nat) : State :=
  if (s.ctx cx).outstanding then { s with ghosts := s.ghosts ++ [(cx, (s.ctx cx).ghost)] } else s

/-- Ends a context (R68, R69): reason 0 `quit`, 1 `kill`, 2 fatal trap, 3 TERM. -/
def State.endCtx (s : State) (cx reason : Nat) : State :=
  let s := if reason = 1 then (s.leaveGhost cx).dropResults cx else s
  let c := s.ctx cx
  let k := coreOf cx
  let serving := c.deleg.map (·.obj)
  let s1 := if reason = 0 then s else s.fallbackLocks cx c.tid serving
  let s2 := ((s1.withdraw cx c.tid).loseGroups cx c.tid).breakResv cx c.tid
  let s3 := s2.modQuad (quadOf k) (fun q => { q with tq := q.tq.filter (fun o => !s.opGoes cx c.tid o) })
  let s4 := if reason ≠ 0 ∧ c.launching then
      s3.send (.teardown (dieOf k) ((s.partOf k).getD 0) c.tid (decide (reason = 3))) else s3
  let s5 := s4.countEnd c.launch k (decide (reason = 1 ∨ reason = 2))
  s5.queueExit cx (exitDword c.tid (ctxNo cx) reason) c.stat

-- Traps.

/-- Trap causes (R268). -/
def causeIllegal : Nat := 1
/-- Divide by zero. -/
def causeDivZero : Nat := 2
/-- Misalignment. -/
def causeMisaligned : Nat := 3
/-- Translation fault. -/
def causeTranslation : Nat := 4
/-- Protection. -/
def causeProtection : Nat := 5
/-- Table invalid. -/
def causeTable : Nat := 6
/-- Format-mode mismatch. -/
def causeFormat : Nat := 7
/-- Uncorrectable data. -/
def causeData : Nat := 8
/-- `trap`. -/
def causeTrap : Nat := 9
/-- Breakpoint. -/
def causeBreak : Nat := 10

/-- `Fatal` (R271): contexts 1–15 end with reason 2; context 0 waits for RESUME0. -/
def State.fatal (s : State) (cx cause : Nat) (val at_ : Word) : State :=
  let k := coreOf cx
  let c := s.ctx cx
  let s1 := s.logFatal (dieOf k) ((s.partOf k).getD 0) cause val at_ c.tid
  if ctxNo cx = 0 then
    s1.setCtx cx { c with state := .waiting, why := 14, wait := none }
  else s1.endCtx cx 2

/-- The owner fallback as a trap sees it (R231): the delegated section is abandoned, the owner's registers and `SRET`
are restored, and the trap is reported at the diverting `sunlk`. Of sections that stand in one another the outermost one's
are restored, since every one of them is abandoned (log 32). -/
def State.ownerFallback (s : State) (cx : Nat) (at_ : Word) : State × Word × Bool :=
  let c := s.ctx cx
  let s1 := s.fallbackLocks cx c.tid (c.deleg.map (·.obj))
  match c.deleg.getLast? with
  | none => (s1, at_, false)
  | some d =>
    (s1.setCtx cx
      { (((c.setG 0 d.g0).setG 1 d.g1).setG 2 d.g2).setG 3 d.g3 with deleg := [], sret := d.sret },
      d.at_, true)

/-- `TakeTrap` of R270 for a context: `at_` is the address that `TEPC` records; `ptyp` and `pfx` describe a payload
(R269). -/
def State.takeTrapAs (s : State) (cx cause : Nat) (val at_ : Word) (ptyp pfx : Bool) : State :=
  let (s1, at_, dsec) := s.ownerFallback cx at_
  let c := s1.ctx cx
  if addrField c.tvec = 0 ∨ statIH c.stat then s1.fatal cx cause val at_
  else
    s1.setCtx cx
      { c with
        tepc := addrField at_
        tval := val
        tcause := tcauseWord cause dsec ptyp pfx
        stat := setIH true c.stat
        pc := addrField c.tvec
        run := []
        frame := none
        resume := false
        reissue := false
        state := .ready
        why := 0
        wait := none }

/-- A trap without a payload (R270). -/
def State.takeTrap (s : State) (cx cause : Nat) (val at_ : Word) : State := s.takeTrapAs cx cause val at_ false false

/-- A trap of a context on its current instruction. -/
def State.trapCtx (s : State) (cx cause : Nat) (val : Word) : State := s.takeTrap cx cause val (s.ctx cx).pc

/-- `Trap(cause)` of the current instruction (R8). -/
def trap (cause : Nat) (val : Word) (s : State) : Out := .next (s.trapCtx s.cur cause val)

/-- The return from a handler (R285). -/
def Ctx.returnFromTrap (c : Ctx) : Ctx :=
  { c with stat := setIH false c.stat, pc := addrField c.tepc, run := [], resume := statRFA c.stat }

/-- An instruction that only context 0, or only contexts 1–15, may issue (R74). -/
def privileged (ok : Bool) (s : State) (k : State → Out) : Out :=
  if ok then k s else trap causeProtection 0 s

end Sys2Proof.Machine
end

