-- ==== Sys2Proof/Machine/Translate.lean ====
section
/-! DEFINITION. Addresses: the windows of R142 and R143, homes (R145, R183, R293), page tables and TLBs (R272, R273),
the fault queue (R274, R275) and who waits on it. -/

namespace Sys2Proof.Machine

/-- Where an access goes once translated: a scratchpad byte, an offset of a die's Cupola or fleeting memory, or a
physical address. -/
inductive Loc
  | scratch (core off : Nat)
  | cupola (die off : Nat)
  | fleet (die off : Nat)
  | global (pa : Nat)
  deriving DecidableEq, Repr

/-- The window of an address (R142); for Cupola and fleeting the offset in the window. -/
inductive Win
  | scratch (core off : Nat)
  | hole
  | cupola (off : Nat)
  | fleet (off : Nat)
  | global
  | none
  deriving DecidableEq, Repr

/-- The slot of a cluster or package window (R143). -/
def slotWin (core off : Nat) : Win := if off < 0xC000 then .scratch core off else .hole

/-- The window of an address as a core sees it (R142, R143). -/
def window (core : Nat) (va : Word) : Win :=
  let a := va.toNat
  if 0x1000000 ≤ a ∧ a < 0x100C000 then .scratch core (a - 0x1000000)
  else if 0x2000000 ≤ a ∧ a < 0x2400000 then
    slotWin (core / 64 * 64 + (a - 0x2000000) / 65536) (a % 65536)
  else if 0x10000000000 ≤ a ∧ a < 0x10190000000 then
    slotWin ((a - 0x10000000000) / 65536) (a % 65536)
  else if 0x20000000000 ≤ a ∧ a < 0x20020000000 then .cupola (a - 0x20000000000)
  else if 0x30000000000 ≤ a ∧ a < 0x30100000000 then .fleet (a - 0x30000000000)
  else if 0x100000000000 ≤ a ∧ a < 0x200000000000000 then .global
  else .none

/-- `InFleetingWindow` (R142). -/
def inFleet (va : Word) : Bool := match window 0 va with | .fleet _ => true | _ => false
/-- Whether an address lies in the global window. -/
def inGlobal (va : Word) : Bool := match window 0 va with | .global => true | _ => false
/-- Whether an address lies in a scratchpad window, holes included. -/
def inScratch (core : Nat) (va : Word) : Bool :=
  match window core va with | .scratch _ _ => true | .hole => true | _ => false
/-- Whether an address lies in the Cupola window. -/
def inCupola (va : Word) : Bool := match window 0 va with | .cupola _ => true | _ => false

/-- The home of a location (R145, R183, R293). -/
def homeOf : Loc → Home
  | .scratch c _ => .core c
  | .cupola d o => .cupola d (nbits o 15 12)
  | .fleet d o => .fleet d (nbits o 15 12)
  | .global pa => .llc (nbits pa 40 38) (nbits pa 9 6)

/-- The die of a home. -/
def Home.die : Home → Nat
  | .core c => dieOf c
  | .cupola d _ | .fleet d _ | .llc d _ | .group d | .disp d | .net d => d

/-- A page descriptor (R148). -/
def State.page (s : State) (core p : Nat) : PageDesc := tget PageDesc.reset p (s.core core).pages
/-- Changes a page descriptor. -/
def State.modPage (s : State) (core p : Nat) (f : PageDesc → PageDesc) : State :=
  s.modCore core (fun c => { c with pages := tset p (f (tget PageDesc.reset p c.pages)) c.pages })

/-- The number of a location: its address as named, layouts apart. -/
def locKey : Loc → Nat
  | .scratch c off => scratchLoc c off
  | .cupola d off => cupolaLoc d off
  | .fleet d off => fleetLoc d off
  | .global pa => globalLoc pa

/-- The byte locations of `n` bytes (R142). -/
def bytesOf (l : Loc) (n : Nat) : List Nat := span (locKey l) n

-- Page tables (R272).

/-- The outcome of a walk: a leaf, or the level, cause and entry address at which it stopped. -/
inductive Walk
  | leaf (e : TlbEnt)
  | stop (level cause pa : Nat)
  deriving DecidableEq, Repr

/-- Whether an entry has a reserved bit set (R272). -/
def pteRsv (e : Nat) : Bool := decide (nbits e 63 41 ≠ 0) || decide (nbits e 7 4 ≠ 0)
/-- PA of an entry (R272). -/
def ptePA (e : Nat) : Nat := nbits e 40 8 * 256

/-- Whether a leaf of 2^lg bytes is one that the window allows (R272). -/
def leafOk (va : Word) (pa lg : Nat) : Bool :=
  decide (pa % 2 ^ lg = 0) &&
    match window 0 va with
    | .cupola off => decide (lg < 30) && decide (pa + 2 ^ lg ≤ 2 ^ 29) && decide (pa / 2 ^ 26 = off / 2 ^ 26)
    | .fleet off => decide (lg < 30) && decide (pa + 2 ^ lg ≤ 2 ^ 32) && decide (pa / 2 ^ 29 = off / 2 ^ 29)
    | _ => true

/-- The index of a level (R272). -/
def vaIndex (va : Word) (level : Nat) : Nat :=
  match level with
  | 4 => bits va 56 48
  | 3 => bits va 47 39
  | 2 => bits va 38 30
  | 1 => bits va 29 21
  | _ => bits va 20 16

/-- lg of a leaf's size at a level (R272); none where no leaf may stand. -/
def leafLg (level : Nat) : Option Nat :=
  match level with
  | 2 => some 30
  | 1 => some 21
  | 0 => some 16
  | _ => none

/-- The walk from a table of a level down (R272), reading entries at their home slices. -/
def walkFrom (m : Memory) (part : Nat) (va : Word) : (fuel level table : Nat) → Walk
  | 0, level, table => .stop level 0 table
  | n + 1, level, table =>
    let pa := table + 8 * vaIndex va level
    let e := memRead m (globalLoc pa) 8
    if e % 2 = 0 then .stop level 0 pa
    else if pteRsv e then .stop level 1 pa
    else if e.testBit 1 then
      match leafLg level with
      | some lg =>
        if leafOk va (ptePA e) lg then
          .leaf { part := part, lg := lg, vpn := va.toNat / 2 ^ lg, base := ptePA e, w := e.testBit 2, x := e.testBit 3 }
        else .stop level 1 pa
      | none => .stop level 1 pa
    else if level = 0 then .stop level 1 pa
    else if level = 1 ∨ ptePA e % 4096 = 0 then walkFrom m part va n (level - 1) (ptePA e)
    else .stop level 1 pa

/-- The physical addresses of the entries that a walk reads, in order. -/
def walkReadsFrom (m : Memory) (va : Word) : (fuel level table : Nat) → List Nat
  | 0, _, _ => []
  | n + 1, level, table =>
    let pa := table + 8 * vaIndex va level
    let e := memRead m (globalLoc pa) 8
    if e % 2 = 0 ∨ pteRsv e ∨ e.testBit 1 ∨ level = 0 ∨ (level ≠ 1 ∧ ptePA e % 4096 ≠ 0) then [pa]
    else pa :: walkReadsFrom m va n (level - 1) (ptePA e)

/-- The entries that a partition's walk of an address reads. -/
def State.walkReads (s : State) (part : Nat) (va : Word) : List Nat :=
  match (s.part part).root with
  | some r => walkReadsFrom s.mem va 5 4 r
  | none => []

/-- The walk of a partition; one without a root finds nothing at level 4 (log 9). -/
def State.walk (s : State) (part : Nat) (va : Word) : Walk :=
  match (s.part part).root with
  | some r => walkFrom s.mem part va 5 4 r
  | none => .stop 4 0 0

/-- A TLB entry for an address (R273). -/
def tlbFind (part : Nat) (va : Word) (l : List TlbEnt) : Option TlbEnt :=
  l.find? (fun e => e.part == part && e.vpn == va.toNat / 2 ^ e.lg)

/-- Adds an entry to a TLB of a capacity, dropping the oldest when it is full (log 8). -/
def tlbAdd (cap : Nat) (e : TlbEnt) (l : List TlbEnt) : List TlbEnt :=
  let l := l.filter (fun x => !(x.part == e.part && x.vpn == e.vpn && x.lg == e.lg))
  (if cap ≤ l.length then l.drop 1 else l) ++ [e]

/-- The location that an entry gives (R272). -/
def tlbLoc (va : Word) (e : TlbEnt) : Loc :=
  let p := e.base + va.toNat % 2 ^ e.lg
  match window 0 va with
  | .cupola _ => .cupola (p / 2 ^ 26) (p % 2 ^ 26)
  | .fleet _ => .fleet (p / 2 ^ 29) (p % 2 ^ 29)
  | _ => .global p

/-- What an access does with memory: load, store, fetch, engine read, engine write (KIND of R274). -/
inductive AccKind | load | store | fetch | engRead | engWrite
  deriving DecidableEq, Repr

/-- KIND (R274). -/
def AccKind.code : AccKind → Nat
  | .load => 0 | .store => 1 | .fetch => 2 | .engRead => 3 | .engWrite => 4
/-- Whether an access needs W (R272). -/
def AccKind.writes : AccKind → Bool
  | .store | .engWrite => true
  | _ => false

/-- The result of translating: a location, a trap cause, or a miss that a cluster TLB or a walk must answer. -/
inductive Tr
  | ok (l : Loc)
  | trap (cause : Nat)
  | miss
  deriving DecidableEq, Repr

/-- The permission check of a translation that is found (R273). -/
def tlbCheck (k : AccKind) (va : Word) (e : TlbEnt) : Tr :=
  if k.writes ∧ e.w = false then .trap causeProtection
  else if k = .fetch ∧ e.x = false then .trap causeProtection
  else .ok (tlbLoc va e)

/-- Translation without a walk for an access of a core in a partition, given a TLB (R142, R143, R273). -/
def State.translateIn (s : State) (core part : Nat) (va : Word) (k : AccKind) (tlb : List TlbEnt) : Tr :=
  match window core va with
  | .none => .trap causeTranslation
  | .hole => .trap causeProtection
  | .scratch c off =>
    if k = .fetch ∨ s.partOf c ≠ some part then .trap causeProtection else .ok (.scratch c off)
  | w =>
    if k = .fetch ∧ w ≠ .global then .trap causeProtection
    else
      match tlbFind part va tlb with
      | some e => tlbCheck k va e
      | none => .miss

/-- Translation of a context's access through its core's TLB (R273). -/
def State.translate (s : State) (core part : Nat) (va : Word) (k : AccKind) : Tr :=
  s.translateIn core part va k (s.core core).tlb

/-- Fills the two TLBs of a core (R273). -/
def State.tlbFill (s : State) (core : Nat) (e : TlbEnt) : State :=
  (s.modCore core (fun c => { c with tlb := tlbAdd 128 e c.tlb })).modCluster (clusterOf core)
    (fun c => { c with tlb := tlbAdd 4096 e c.tlb })

/-- A context's access misses: it waits with WHY = 17 for the cluster TLB or a walk, and performs its instruction
again afterwards (R273, log 14). -/
def State.missWait (s : State) (cx : Nat) (i : Instr) (part : Nat) (va : Word) (k : AccKind) : State :=
  let hit := (tlbFind part va (s.cluster (clusterOf (coreOf cx))).tlb).isSome
  let tid := (s.ctx cx).tid
  (s.holdAt cx 17 i va).send (.walk (.ctx cx tid) cx va.toNat k.code part hit)

-- The fault queue (R274).

/-- WIN of a fault (R274). -/
def winCode (va : Word) : Nat :=
  match window 0 va with
  | .cupola _ => 1 | .fleet _ => 2 | .global => 3 | _ => 4

/-- What of a requester the entry names: its core, context number and TID (R274). -/
structure FaultId where
  tid  : BitVec 32
  core : Nat
  cx   : Nat

/-- Changes the WHY of a requester that is a context. -/
def State.markFault (s : State) (r : Requester) : State :=
  match r with
  | .ctx cx tid | .req cx tid =>
    s.modCtx cx (fun c => if c.tid = tid ∧ c.state = .waiting then { c with why := 13 } else c)
  | _ => s

/-- Whether a fault joins an entry (R274): the same partition and granule, or, for WIN = 4, the same core and page. -/
def FaultEnt.joins (e : FaultEnt) (part va win pa : Nat) : Bool :=
  e.part == part && e.win == win && (if win = 4 then e.pa == pa else nbits e.va 56 16 == nbits va 56 16)

/-- Whether a die's fault queue has room for a fault, or an entry that it joins (R274). -/
def State.fqRoom (s : State) (die part va win pa : Nat) : Bool :=
  decide ((s.die die).fq.length < 512) || (s.die die).fq.any (fun e => e.2.joins part va win pa)

/-- The four dwords of a fault-queue entry (R274). COUNT shows the low 16 bits of the number of requesters (log 56). -/
def FaultEnt.dwords (e : FaultEnt) : List Word :=
  [BitVec.ofNat 64 (e.va % 2 ^ 57),
    BitVec.ofNat 64 (e.tid.toNat + e.core % 2 ^ 17 * 2 ^ 32 + e.cx % 16 * 2 ^ 49),
    BitVec.ofNat 64 (e.kind % 16 + e.level % 16 * 2 ^ 4 + e.cause % 16 * 2 ^ 8 + e.win % 16 * 2 ^ 12
      + e.part % 2 ^ 10 * 2 ^ 16 + e.count % 2 ^ 16 * 2 ^ 32),
    BitVec.ofNat 64 (e.pa % 2 ^ 41)]

/-- Queues a fault: it joins an entry, or takes the lowest free index, which R274 does not state (DESIGN CHOICE, log 75); none
when the queue is full (R274). -/
def State.queueFault (s : State) (die part : Nat) (va : Nat) (k win level cause pa : Nat) (f : FaultId)
    (who : Requester) : Option State :=
  let d := s.die die
  match d.fq.find? (fun e => e.2.joins part va win pa) with
  | some (i, e) =>
    some ((s.modDie die fun d => { d with fq := tset i { e with count := e.count + 1, who := e.who ++ [who] } d.fq }).markFault
      who)
  | none =>
    match findIdxFrom (fun i => (d.fq.find? (fun e => e.1 == i)).isNone) 512 0 with
    | none => none
    | some i =>
      let e : FaultEnt :=
        { va := va % 2 ^ 57, tid := f.tid, core := f.core, cx := f.cx, kind := k, level := level, cause := cause,
          win := win, part := part, count := 1, pa := pa, who := [who] }
      some ((s.modDie die fun d => { d with fq := tset i e d.fq }).markFault who)

/-- The identity that an entry gives a requester (R274): a command names its issuing context. -/
def State.faultId (s : State) (die : Nat) : Requester → FaultId
  | .ctx cx tid | .req cx tid | .tensor cx tid => ⟨tid, coreOf cx, ctxNo cx⟩
  | .cmd id =>
    match s.cmds.find? (fun c => c.id == id) with
    | some c => ⟨c.tid, c.core, ctxNo c.cx⟩
    | none => ⟨0, 0, 0⟩
  | .launch _ | .graph _ _ _ | .timer _ _ | .command _ _ => ⟨0xFFFFFFFF, die * 12800, 0⟩
  | .net _ _ _ _ | .place _ _ | .host _ => ⟨0xFFFFFFFE, die * 12800, 0⟩

/-- WHY of a context whose access waits at its home, not for a page (R59). -/
def whyAtHome (i : Instr) : Nat :=
  match i with
  | .wwait _ _ _ => 11
  | .sinit _ _ _ _ | .sfin _ _ | .smode _ _ | .slock _ | .slockCall _ _ | .sunlk _ | .sarr _ _ | .sarrEos _ _
  | .sexp _ _ | .swait _ _ => 5
  | _ => 1

/-- A requester that waited is released (R275 FQREPLAY): a context or a held unit performs its access again. -/
def State.resume (s : State) (r : Requester) : State :=
  match r with
  | .ctx cx tid =>
    if ((s.ctx cx).tid = tid ∧ (s.ctx cx).state = .waiting) ∨ (s.ghost? cx tid).isSome then s.send (.retry cx tid) else s
  | .req cx tid =>
    let s1 : State :=
      { s with
        msgs := s.msgs.map fun m =>
          match m with
          | .req q => if q.cx = cx ∧ q.tid = tid then .req { q with blocked := false } else m
          | _ => m }
    s1.modCtx cx fun c =>
      match c.wait with
      | some w => if c.tid = tid ∧ c.state = .waiting ∧ c.why = 13 then { c with why := whyAtHome w.i } else c
      | none => c
  | .cmd _ | .launch _ | .tensor _ _ | .net _ _ _ _ | .place _ _ | .host _ | .graph _ _ _ | .timer _ _ | .command _ _ => s

/-- The die whose fault queue and walkers serve a core. -/
def faultDie (core : Nat) : Nat := dieOf core

/-- Translation for an access that does not hold a context in its instruction (of an engine, the tensor unit, a dispatcher,
a network engine, the host): through the TLBs of the core it acts for, or by what a walk has found for it (R272–R274).
`absent`: a walk has found that there is none. -/
inductive Found
  | ok (l : Loc)
  | trap (cause : Nat)
  | miss
  | absent
  deriving DecidableEq, Repr

/-- A translation that is at hand, checked for an access (R273). -/
def Found.of (k : AccKind) (va : Word) (e : TlbEnt) : Found :=
  match tlbCheck k va e with
  | .ok l => .ok l
  | .trap c => .trap c
  | .miss => .miss

/-- What a walk has found for an access of a unit that is not performed yet. -/
def State.walkedFor (s : State) (who : Requester) (part : Nat) (va : Word) : Option (Option TlbEnt) :=
  (s.walked.find? fun x =>
    decide (x.1 = who) && x.2.1 == part &&
      match x.2.2.2 with
      | some e => e.vpn == va.toNat / 2 ^ e.lg
      | none => x.2.2.1 / 65536 == va.toNat / 65536).map (·.2.2.2)

/-- Translates for such a unit. -/
def State.find (s : State) (who : Requester) (core part : Nat) (va : Word) (k : AccKind) : Found :=
  match s.translate core part va k with
  | .ok l => .ok l
  | .trap c => .trap c
  | .miss =>
    match tlbFind part va (s.cluster (clusterOf core)).tlb with
    | some e => Found.of k va e
    | none =>
      match s.walkedFor who part va with
      | some (some e) => Found.of k va e
      | some none => .absent
      | none => .miss

/-- Whether a unit waits for a walk. -/
def State.walking (s : State) (who : Requester) : Bool :=
  s.msgs.any fun m => match m with | .walk w _ _ _ _ _ => decide (w = who) | _ => false

/-- A unit that misses waits for a walk (R273). -/
def State.unitWalk (s : State) (who : Requester) (core part : Nat) (va : Word) (k : AccKind) : State :=
  if s.walking who then s else s.send (.walk who (core * 16) va.toNat k.code part false)

/-- A unit's access is performed or dropped: what its walks have found is not kept. -/
def State.unwalk (s : State) (who : Requester) : State :=
  if s.walked.any (fun x => decide (x.1 = who)) then
    { s with walked := s.walked.filter (fun x => decide (x.1 ≠ who)) }
  else s

end Sys2Proof.Machine
end

