-- ==== Sys2Proof/Machine/Coherence.lean ====
section
/-! DEFINITION. Bytes at their homes and in the L1s: layouts (R153), objects' images (R222, R223), free marks (R191),
wake words (R337), reserved words (R209, R244), read errors (R396), the L1 (R184), signatures (R185), records (R186),
drains (R188), and acquires (R187). A location is named as its address names it; `State.phys` applies the layout. -/

namespace Sys2Proof.Machine

/-- The byte of the storage behind a named location: a scratchpad page's layout permutes it (R153). -/
def State.phys (s : State) (l : Nat) : Nat :=
  if l < 2 ^ 44 then l
  else
    let off := (l - 2 ^ 44) % 65536
    l - off + (off / 4096 * 4096 + layoutPerm (s.page ((l - 2 ^ 44) / 65536) (off / 4096)).lay (off % 4096))

/-- Whether a location is global memory. -/
def isGlobalLoc (l : Nat) : Bool := decide (l < 2 ^ 42)
/-- Whether a location is in a scratchpad. -/
def isScratchLoc (l : Nat) : Bool := decide (2 ^ 44 ≤ l)

/-- The physical address that the error log holds for a location (R397). -/
def locAddr (l : Nat) : Nat :=
  if l < 2 ^ 42 then l else if l < 2 ^ 43 then l - 2 ^ 42 else if l < 2 ^ 44 then l - 2 ^ 43 else l - 2 ^ 44

/-- The die that homes a location. -/
def locDie (l : Nat) : Nat :=
  if l < 2 ^ 42 then nbits l 40 38 else if l < 2 ^ 43 then (l - 2 ^ 42) / 2 ^ 26
  else if l < 2 ^ 44 then (l - 2 ^ 43) / 2 ^ 29 else dieOf ((l - 2 ^ 44) / 65536)

/-- The home of a location (R145, R183, R293). -/
def homeAt (l : Nat) : Home :=
  if l < 2 ^ 42 then .llc (nbits l 40 38) (nbits l 9 6)
  else if l < 2 ^ 43 then .cupola ((l - 2 ^ 42) / 2 ^ 26) (nbits (l - 2 ^ 42) 15 12)
  else if l < 2 ^ 44 then .fleet ((l - 2 ^ 43) / 2 ^ 29) (nbits (l - 2 ^ 43) 15 12)
  else .core ((l - 2 ^ 44) / 65536)

/-- One byte at its home: the image of an object's line, or the stored byte (R222, R223). -/
def State.rdByte (s : State) (l : Nat) : Byte :=
  match s.obj? (l / 64) with
  | some o => if l % 64 < 8 then BitVec.ofNat 8 (o.descriptor.toNat >>> (8 * (l % 64))) else 0
  | none => memGet s.mem (s.phys l)

/-- The number that a list of locations holds at home, least significant byte first. -/
def State.rd (s : State) : List Nat → Nat
  | [] => 0
  | l :: t => (s.rdByte l).toNat + (s.rd t) <<< 8

/-- The bytes at a list of locations. -/
def State.rdBytes (s : State) (l : List Nat) : List Byte := l.map s.rdByte

/-- The cells that storing a number at a list of locations writes. -/
def cellsOf (v : Nat) : List Nat → List Host.Cell
  | [] => []
  | l :: t => (l, BitVec.ofNat 8 v) :: cellsOf (v >>> 8) t

/-- The cells of given bytes. -/
def cellsOfBytes (locs : List Nat) (b : List Byte) : List Host.Cell := locs.zip b

/-- Wakes the waiters of the wake words that a write touched (R337). -/
def State.wakeWatches (s : State) (cells : List Host.Cell) : State :=
  let hit (w : Watch) : Bool :=
    cells.any (fun c => c.1 / 8 == w.loc / 8) && decide (s.rd (span w.loc 8) ≠ w.cmp.toNat)
  ({ s with watches := s.watches.filter (fun w => !hit w) } : State).sendAll
    ((s.watches.filter hit).map fun w =>
      .reply
        { cx := w.cx, tid := w.tid, tag := (s.ctx w.cx).tag, part := (s.partOf (coreOf w.cx)).getD 0,
          vals := [s.rd (span w.loc 8)], lanes := [], recs := [], trap := none, made := false })

/-- The pages of scratchpads that a write touched become DIRTY (R148). -/
def State.dirtyPages (s : State) : List Host.Cell → State
  | [] => s
  | (l, _) :: t =>
    let s1 := s.dirtyPages t
    if isScratchLoc l then
      let o := l - 2 ^ 44
      if (s1.page (o / 65536) (o % 65536 / 4096)).dirty then s1
      else s1.modPage (o / 65536) (o % 65536 / 4096) (fun p => { p with dirty := true })
    else s1

/-- Performs a write at the home (R191, R337). -/
def State.store (s : State) (cells : List Host.Cell) : State :=
  (({ s with
      mem := cells.foldl (fun m c => memSet m (s.phys c.1) c.2) s.mem
      freeMarks := s.freeMarks.filter (fun b => cells.all (fun c => decide (c.1 / 65536 ≠ b))) } : State).dirtyPages
    cells).wakeWatches cells

/-- Stores a number at locations. -/
def State.storeAt (s : State) (locs : List Nat) (v : Nat) : State := s.store (cellsOf v locs)

-- Reserved words (R209, R244).

/-- The bytes of an item that waits. -/
def QItem.locs : QItem → List Nat
  | .req r => r.locs
  | .write _ c _ => c.map Prod.fst

/-- The bytes that a reservation holds. -/
def ResvQ.held (q : ResvQ) : List Nat :=
  match q.holder with
  | some (_, _, l, _) => l
  | none => []

/-- Whether an access to these bytes waits behind this queue: it touches bytes that are reserved, or bytes of an access
that waits there. -/
def ResvQ.touches (q : ResvQ) (locs : List Nat) : Bool :=
  locs.any (fun l => l == q.loc || q.held.contains l || q.queue.any (fun i => i.locs.contains l))

/-- The queue behind which an access waits. -/
def State.resvOn (s : State) (locs : List Nat) : Option ResvQ := s.resvq.find? (fun q => q.touches locs)

/-- Adds to the queue at a reserved word. -/
def State.queueAt (s : State) (loc : Nat) (i : QItem) : State :=
  { s with resvq := s.resvq.map fun q => if q.loc = loc then { q with queue := q.queue ++ [i] } else q }

/-- A write among what waits at a word: before every write that came after it. -/
def insertItem (i : QItem) : List QItem → List QItem
  | [] => [i]
  | x :: t =>
    match i, x with
    | .write _ _ n, .write _ _ k => if n < k then i :: x :: t else x :: insertItem i t
    | _, _ => x :: insertItem i t

/-- A write that has waited at one word waits at another, in the order of the writes (R205, R209). -/
def State.requeueAt (s : State) (loc : Nat) (i : QItem) : State :=
  { s with resvq := s.resvq.map fun q => if q.loc = loc then { q with queue := insertItem i q.queue } else q }

/-- Whether a byte's storage is retired, so that its accesses receive error status (R396): its unit, or the way of the LLC
that held its dirty line. -/
def State.gone (s : State) (l : Nat) : Bool := s.retired.contains (l / 65536) || s.lost.contains (l / 64)

/-- The number of the next write that waits at a reserved word: it is later than every one that waits. -/
def State.nextWrite (s : State) : Nat :=
  s.resvq.foldl (fun n q => q.queue.foldl (fun n i => match i with | .write _ _ k => max n (k + 1) | .req _ => n) n) 0

/-- A write-back, drain or engine write at the home: it waits while a word of it is held (R209). Bytes of a retired unit
are not written (R398). -/
def State.homeWrite (s : State) (core : Option Nat) (cells : List Host.Cell) : State :=
  let c := cells.filter (fun c => !s.gone c.1)
  match s.resvOn (c.map Prod.fst) with
  | some q => s.queueAt q.loc (.write core c s.nextWrite)
  | none => if c.isEmpty then s else s.store c

/-- Puts a numbered write among others in order. -/
def insertWrite (w : Nat × List Host.Cell) : List (Nat × List Host.Cell) → List (Nat × List Host.Cell)
  | [] => [w]
  | x :: t => if w.1 < x.1 then w :: x :: t else x :: insertWrite w t

/-- A core's write-backs that wait at reserved words, in the order in which they came (R205, R209). -/
def State.queuedWrites (s : State) (core : Nat) : List (Nat × List Host.Cell) :=
  s.resvq.foldl (fun l q => q.queue.foldl (fun l i =>
    match i with
    | .write k c n => if k = some core then insertWrite (n, c) l else l
    | .req _ => l) l) []

/-- The bytes of a core's write-backs that wait at reserved words, in the order in which they came. -/
def State.queuedCells (s : State) (core : Nat) : List Host.Cell := ((s.queuedWrites core).map Prod.snd).flatten

/-- Whether a write-back of a core of a line that `p` names is not acknowledged yet (R188, R194). -/
def State.writesQueued (s : State) (core : Nat) (p : Nat → Bool) : Bool := (s.queuedCells core).any (fun c => p (c.1 / 64))

-- Fleeting tiles (R295).

/-- The tile of a location (R293). -/
def tileOf (l : Nat) : Nat := (l - 2 ^ 43) / 4096
/-- The location of a tile's first byte. -/
def tileLoc (t : Nat) : Nat := 2 ^ 43 + t * 4096

/-- A tile's record (R295). -/
def State.tile (s : State) (t : Nat) : TileRec := tget TileRec.reset t s.tiles
/-- Whether a tile's time has run out (R295). -/
def State.tileOver (s : State) (t : Nat) : Bool :=
  decide ((s.tile t).birth + 16000 * (s.tile t).tlife ≤ s.now)

/-- Whether the region of a tile is retired (R396). -/
def State.tileRetired (s : State) (t : Nat) : Bool := s.retired.contains (tileLoc t / 65536)

/-- `Expired(T, P)` (R295); every tile of a retired region reads expired (R396). -/
def State.expired (s : State) (t part : Nat) : Bool :=
  (s.tile t).dead || decide ((s.tile t).tpart ≠ part) || s.tileOver t || s.tileRetired t

-- Read errors (R396).

/-- Whether the agents whose accesses meet an error receive error status (R396). -/
def readFails : ReadFault → Bool
  | .lasting | .llcDirty => true
  | .transient | .llcClean => false

/-- Whether a byte lies in a line, or for fleeting memory in the line's tile (R396). -/
def inUnit (line l : Nat) : Bool :=
  if 2 ^ 43 ≤ l ∧ l < 2 ^ 44 then l / 4096 == line / 64 else l / 64 == line

/-- Whether a request that is held at the home of a line or tile whose error lasts receives error status (R396): not one that
reads and writes no data there, nor a read of a tile that is expired for its partition, which finds no error at all (R297,
R302, R398). -/
def State.heldFails (s : State) (line : Nat) (r : Req) : Bool :=
  !r.blocked && decide (r.home = homeAt (line * 64)) && r.locs.any (inUnit line) &&
    match r.i with
    | .life _ _ | .lifeSet _ _ | .fdrop _ => false
    | .ldf _ _ _ _ _ | .ldfIndexed _ _ _ _ _ _ => !s.expired (tileOf (line * 64)) r.part
    | _ => true

/-- The requests on their way to a line or tile whose error lasts have arrived while it was read once more, and receive
error status with the first one (R396, R398). -/
def State.failHeld (s : State) (line : Nat) : State :=
  { s with
    msgs := s.msgs.map fun m =>
      match m with
      | .req r => if s.heldFails line r then .reply (r.failAt causeData (r.addrOf (inUnit line))) else m
      | _ => m }

/-- An error that a read finds at its line (R396, R397): a transient one is logged; a lasting one is logged, retires its
unit, and fails the accesses that were held behind the second read. The way of a clean LLC line is retired and the line is
fetched again without error. -/
def State.readErr (tid : BitVec 32) (part : Nat) (s : State) (e : Nat × ReadFault) : State :=
  let l := e.1 * 64
  let s1 := s.logErr (locDie l) (if e.2 = .transient then 1 else 2) part (locAddr l) tid.toNat
  match e.2 with
  | .transient | .llcClean => s1
  | .llcDirty => ({ s1 with lost := e.1 :: s1.lost } : State).failHeld e.1
  | .lasting =>
    let s2 := s1.failHeld e.1
    if isScratchLoc l then
      s2.modPage ((l - 2 ^ 44) / 65536) ((l - 2 ^ 44) % 65536 / 4096) (fun p => { p with v := false, res := false })
    else { s2 with retired := l / 65536 :: s2.retired }

/-- The errors that lie in the lines of locations. -/
def State.flawsIn (s : State) (locs : List Nat) : List (Nat × ReadFault) :=
  s.flaws.filter (fun e => locs.any (fun l => l / 64 == e.1))

/-- A read at its home finds every error that lies there (log 16). The flag tells an access that it receives error
status: its unit is retired, or one of the errors is lasting. -/
def State.readCheck (s : State) (locs : List Nat) (tid : BitVec 32) (part : Nat) : State × Bool :=
  if locs.any s.gone then (s, true)
  else if (s.flawsIn locs).isEmpty then (s, false)
  else
    let s1 : State := { s with flaws := s.flaws.filter (fun e => !locs.any (fun l => l / 64 == e.1)) }
    ((s.flawsIn locs).foldl (State.readErr tid part) s1, (s.flawsIn locs).any (fun e => readFails e.2))

-- Signatures (R185).

/-- Bit h1 of a line. -/
def sigH1 (line : Nat) : Nat := nbits (line * 64) 13 6
/-- Bit h2 of a line. -/
def sigH2 (line : Nat) : Nat := nbits (line * 64) 21 14 ^^^ nbits (line * 64) 29 22
/-- Whether a line is in a signature. -/
def inSig (g : Sig) (line : Nat) : Bool := g.getLsbD (sigH1 line) && g.getLsbD (sigH2 line)
/-- Adds a line to a signature. -/
def sigAdd (g : Sig) (line : Nat) : Sig := g ||| (1 <<< sigH1 line) ||| (1 <<< sigH2 line)

-- The L1 (R184).

/-- The L1's entry for a line. -/
def State.l1? (s : State) (core line : Nat) : Option L1Line := (s.core core).l1.find? (fun e => e.line == line)

/-- The dirty bytes of an L1 line as cells. -/
def L1Line.cells (e : L1Line) : List Host.Cell :=
  ((List.range 64).filter (fun i => e.dirty.getLsbD i)).map (fun i => (e.line * 64 + i, elem 8 e.data i))

/-- Drops a line from an L1 without writing it back. -/
def State.l1Drop (s : State) (core line : Nat) : State :=
  s.modCore core (fun c => { c with l1 := c.l1.filter (fun e => decide (e.line ≠ line)) })

/-- The line becomes clean. -/
def State.l1Clean (s : State) (core line : Nat) : State :=
  s.modCore core fun c => { c with l1 := c.l1.map (fun e => if e.line = line then { e with dirty := 0 } else e) }

/-- A core's later releases name a line that it has written at its home (log 17). -/
def State.wroteHome (s : State) (core line : Nat) : State :=
  s.modCore core (fun c => { c with wsig := sigAdd c.wsig line })

/-- Writes a line's dirty bytes back to its home; the line stays, clean (R194 `cwb`). -/
def State.l1WriteBack (s : State) (core line : Nat) : State :=
  match s.l1? core line with
  | some e => if e.dirty = 0 then s else ((s.l1Clean core line).wroteHome core line).homeWrite (some core) e.cells
  | none => s

/-- Writes back and invalidates (R194 `cinv`). -/
def State.l1Invalidate (s : State) (core line : Nat) : State := (s.l1WriteBack core line).l1Drop core line

/-- The lines of an L1. -/
def State.l1Lines (s : State) (core : Nat) : List Nat := (s.core core).l1.map (·.line)

/-- Writes back every line of an L1. -/
def State.writeBackAll (s : State) (core : Nat) : State := (s.l1Lines core).foldl (fun s l => s.l1WriteBack core l) s
/-- Writes back and invalidates every line of an L1. -/
def State.invalidateAll (s : State) (core : Nat) : State := (s.l1Lines core).foldl (fun s l => s.l1Invalidate core l) s
/-- `Drain` (R188). -/
def State.drainCore (s : State) (core : Nat) (g : Sig) : State :=
  ((s.l1Lines core).filter (inSig g)).foldl (fun s l => s.l1WriteBack core l) s
/-- `InvalidateMatching` (R187). -/
def State.invalidateMatching (s : State) (core : Nat) (g : Sig) : State :=
  ((s.l1Lines core).filter (inSig g)).foldl (fun s l => s.l1Invalidate core l) s

/-- The dirty signature of a core (R185). -/
def State.dirtySig (s : State) (core : Nat) : Sig :=
  ((s.core core).l1.filter (fun e => decide (e.dirty ≠ 0))).foldl (fun g e => sigAdd g e.line) 0

/-- The signature of a release of a core (R186); `wsig` holds the lines that it has written at
their homes since the last sweep (log 17). -/
def State.relSig (s : State) (core : Nat) : Sig :=
  s.dirtySig core ||| (s.core core).wsig ||| (s.core core).inh

/-- The release record of a line at its home slice (R186). -/
def State.recOf (s : State) (line : Nat) : Option Rec :=
  match ((s.die (nbits (line * 64) 40 38)).recs[nbits (line * 64) 9 6 % 16]!).find? (fun e => e.1 == line) with
  | some e => some e.2
  | none => none

/-- The bytes of a line as the L1 would hold them: `dirty` bytes of the old copy over those of the home. -/
def mergeLine (home : BitVec 512) (e : L1Line) : BitVec 512 :=
  (pack 8 (fun i => if e.dirty.getLsbD i then elem 8 e.data i else elem 8 home i) 64).cast (by decide)

/-- A line at its home as a core reads it: its own write-backs that wait at a reserved word came before (R205, R207). -/
def State.lineFor (s : State) (core line : Nat) : BitVec 512 :=
  let home : BitVec 512 := BitVec.ofNat 512 (memRead s.mem (line * 64) 64)
  if s.writesQueued core (· == line) then
    (pack 8 (fun i =>
      match (s.queuedCells core).reverse.find? (fun c => c.1 == line * 64 + i) with
      | some c => c.2
      | none => elem 8 home i) 64).cast (by decide)
  else home

/-- Brings a line from its home into an L1 (R184); a copy that is there keeps its dirty bytes. The set that is full
gives up its least recently used line, written back. -/
def State.l1Fill (s : State) (core line : Nat) : State :=
  let home := s.lineFor core line
  let rrec := s.recOf line
  match s.l1? core line with
  | some e =>
    s.modCore core fun c =>
      { c with l1 := c.l1.filter (fun x => decide (x.line ≠ line)) ++ [{ e with data := mergeLine home e, rrec := rrec }] }
  | none =>
    let set := (s.core core).l1.filter (fun e => e.line % 64 == line % 64)
    let s1 := match set with
      | v :: _ => if 4 ≤ set.length then s.l1Invalidate core v.line else s
      | [] => s
    s1.modCore core fun c => { c with l1 := c.l1 ++ [{ line := line, data := home, dirty := 0, rrec := rrec }] }

/-- Marks a line as used last. -/
def State.l1Touch (s : State) (core line : Nat) : State :=
  match s.l1? core line with
  | some e => s.modCore core fun c => { c with l1 := c.l1.filter (fun x => decide (x.line ≠ line)) ++ [e] }
  | none => s

/-- Bytes of an L1 line from offset `o`. -/
def L1Line.read (e : L1Line) (o n : Nat) : Nat := (e.data.toNat >>> (8 * o)) % 2 ^ (8 * n)

/-- Stores `n` bytes of `v` at offset `o` of an L1 line. -/
def L1Line.write (o n v : Nat) (e : L1Line) : L1Line :=
  { e with
    data := setBits e.data (8 * (o + n) - 1) (8 * o) v
    dirty := setBits e.dirty (o + n - 1) o (ones n) }

/-- Stores into a line that the L1 holds. -/
def State.l1Store (s : State) (core line o n v : Nat) : State :=
  (s.l1Touch core line).modCore core fun c =>
    { c with l1 := c.l1.map (fun e => if e.line = line then e.write o n v else e) }

-- Records and drains.

/-- Whether a core belongs to a partition now. -/
def State.inPart (s : State) (core part : Nat) : Bool := s.partOf core == some part

/-- The release records of the slice that homes a line. -/
def State.sliceRecs (s : State) (line : Nat) : List (Nat × Rec) :=
  (s.die (nbits (line * 64) 40 38)).recs[nbits (line * 64) 9 6 % 16]!

/-- The record that must be drained before a release of a core stands at a line (R186): another core's record of the line,
or the oldest one of a slice that holds 4,096. -/
def State.toDrain (s : State) (core line : Nat) : Option Rec :=
  match (s.sliceRecs line).find? (fun e => e.1 == line) with
  | some e => if e.2.core ≠ core then some e.2 else none
  | none => if 4096 ≤ (s.sliceRecs line).length then (s.sliceRecs line).head?.map Prod.snd else none

/-- Whether a record's core still has a line of it to write back, or a write-back that is not acknowledged (R188). -/
def State.undrained (s : State) (r : Rec) : Bool :=
  (s.core r.core).l1.any (fun e => decide (e.dirty ≠ 0) && inSig r.sig e.line) || s.writesQueued r.core (inSig r.sig)

/-- A record leaves a full table, or another core's record takes its place (R186): its core has drained it, and no other L1
of its partition keeps a copy of its lines, so that no acquire needs it any more (R204, R206, R220) (log 62). -/
def State.dropRec (s : State) (r : Rec) : State :=
  (s.listedCores.filter (fun k => decide (k ≠ r.core) && decide (s.partOf k = s.partOf r.core))).foldl
    (fun s k => s.invalidateMatching k r.sig) (s.drainCore r.core r.sig)

/-- A record leaves before another core's release stands at its line. A release of the same core replaces it, but keeps what
a later release of that core, which arrived first, says of lines that the core still names (R193, R204) (log 62). -/
def State.replaceRec (s : State) (line : Nat) (r : Rec) : State × Rec :=
  match s.recOf line with
  | some e => if e.core ≠ r.core then (s.dropRec e, r) else (s, { r with sig := r.sig ||| e.sig &&& s.relSig r.core })
  | none => (s, r)

/-- Records a release at its line (R186); the oldest record makes room when the slice holds 4,096. -/
def State.setRec (s : State) (line : Nat) (r : Rec) : State :=
  let (s0, r0) := s.replaceRec line r
  let l := (s0.sliceRecs line).filter (fun e => decide (e.1 ≠ line))
  let (s1, l1) := match l with
    | e :: t => if 4096 ≤ l.length then (s0.dropRec e.2, t) else (s0, l)
    | [] => (s0, l)
  s1.modDie (nbits (line * 64) 40 38) (fun x => { x with recs := x.recs.set! (nbits (line * 64) 9 6 % 16) (l1 ++ [(line, r0)]) })

/-- Sends a drain request (R188). -/
def State.askDrain (s : State) (part : Nat) (dest : DrainFor) (r : Rec) : State := s.send (.drain r.core r.sig part dest)

/-- What an acquire does to its core (R187). -/
def State.applyRecs (s : State) (core : Nat) (l : List Rec) : State :=
  l.foldl (fun s r => (s.invalidateMatching core r.sig).modCore core (fun c => { c with inh := c.inh ||| r.sig })) s

/-- Writes back every line of the current context's core and goes on once the writes are acknowledged (R186, R194): until
then the context waits, and performs its instruction again. -/
def State.afterWriteBack (s : State) (why : Nat) (i : Instr) (go : State → Out) : Out :=
  let s1 := s.writeBackAll s.myCore
  if s1.writesQueued s1.myCore (fun _ => true) then .next ((s1.hold s.cur why i).release s.cur) else go s1

/-- The same where a release is made at a scope: below `.pkg` nothing is written back (R186). -/
def State.afterRelease (s : State) (why : Nat) (rel : Bool) (sc : Scope) (i : Instr) (go : State → Out) : Out :=
  if rel && scopeGe sc .pkg then s.afterWriteBack why i go else go s

/-- The pending release of `fence.rel.S` (R193): dirty lines are written back at `.pkg` and above. -/
def State.makeRelease (s : State) (core : Nat) (sc : Scope) : State × Sig :=
  let g := s.relSig core
  if scopeGe sc .pkg then (s.writeBackAll core, g) else (s, g)

/-- Leaves a release pending in a context (R193); at `.core` there is nothing to carry. -/
def State.pendRelease (s : State) (cx : Nat) (sc : Scope) : State :=
  let (s1, g) := s.makeRelease (coreOf cx) sc
  if scopeGe sc .quad then s1.modCtx cx (fun c => { c with relp := some (g, sc) }) else s1

/-- Whether writes of engines to one of these homes are on their way (R215), from a core whose unit at the completion scope
holds this one: its accesses to that home stay behind them (R205, R210). -/
def State.unitWritingAt (s : State) (core : Nat) (homes : List Home) : Bool :=
  s.msgs.any fun m =>
    match m with
    | .unitWrite k _ _ cells sc => sameUnit sc k core && cells.any (fun c => homes.contains (homeAt c.1))
    | _ => false

/-- The same for the homes of these locations. -/
def State.unitWriting (s : State) (core : Nat) (locs : List Nat) : Bool :=
  s.unitWritingAt core (locs.map homeAt).eraseDups

/-- A context goes on at an address; one with any of bits [63:57] set faults as a jump to it does (R101, R239). -/
def State.goTo (s : State) (cx : Nat) (next : Word) : State :=
  if next >>> 57 ≠ 0 then s.trapCtx cx causeTranslation next
  else s.modCtx cx (fun c => ({ c with pc := next } : Ctx).ready)

/-- The end of an acquire: the context goes on (R187). The lines are invalidated once more, since another context of the
core may have brought one in before its drain ended (R206) (log 63). `fence.ar` then releases (R193), and waits for its
write-backs as `fence.rel` does. -/
def State.endAcquire (s : State) (cx : Nat) : State :=
  match (s.ctx cx).wait with
  | none => s
  | some w =>
    let s1 := s.applyRecs (coreOf cx) w.recs
    let s2 := s1.goTo cx w.next
    match w.i with
    | .fenceAr sc =>
      let s3 := s2.pendRelease cx sc
      if scopeGe sc .pkg && s3.writesQueued (coreOf cx) (fun _ => true) then
        (((s1.makeRelease (coreOf cx) sc).1.hold cx 1 w.i).release cx)
      else s3
    | _ => s2

/-- Whether the acquires of a context's partition wait for a sweep (R189). -/
def State.sweepingFor (s : State) (cx : Nat) : Bool :=
  match s.partOf (coreOf cx) with
  | some p => (s.part p).sweeping
  | none => false

/-- WHY of a context while an instruction of it acquires (R59): 5 for the instructions of objects and groups. -/
def whyAcquire (i : Instr) : Nat :=
  match i with
  | .gbar _ _ | .gvote _ _ _ _ | .gred _ _ _ _ _ => 5
  | i => whyAtHome i

/-- Begins an acquire of records by a context that continues at `next` (R187): it asks cores to drain, applies the records,
and waits for the acknowledgements. During a sweep it waits with the records until the sweep ends (R189). -/
def State.beginAcquire (s : State) (cx : Nat) (i : Instr) (next : Word) (drains recs : List Rec) : State :=
  let part := (s.partOf (coreOf cx)).getD 0
  let tid := (s.ctx cx).tid
  let sweeping := s.sweepingFor cx
  let s0 := if sweeping then s else s.applyRecs (coreOf cx) recs
  let w : Wait := { mkWait i 2 drains.length next with recs := recs }
  let tag := (s.ctx cx).tag
  let s1 := (s0.block cx (whyAcquire i) w).sendAll (drains.map fun r => .drain r.core r.sig part (.ctx cx tid tag))
  if drains.isEmpty && !sweeping then s1.endAcquire cx else s1

/-- An acquire of the records returned to a context, those of other cores (R187). -/
def State.startAcquire (s : State) (cx : Nat) (i : Instr) (next : Word) (recs : List Rec) : State :=
  let l := (recs.filter (fun r => decide (r.core ≠ coreOf cx))).eraseDups
  s.beginAcquire cx i next l l

/-- The cores of a partition, without one, that have a line of a signature to write back, as drain requests. -/
def State.drainersOf (s : State) (own part : Nat) (g : Sig) : List Rec :=
  (s.listedCores.filter fun k => decide (k ≠ own) && s.inPart k part && s.undrained ⟨k, g⟩).map (⟨·, g⟩)

/-- Begins an acquire of a signature alone, as a wake or a group completion carries it (R216, R234): every other core of
the partition that holds dirty lines of it drains them (log 19). -/
def State.startAcquireSig (s : State) (cx : Nat) (i : Instr) (next : Word) (g : Sig) : State :=
  s.beginAcquire cx i next (s.drainersOf (coreOf cx) ((s.partOf (coreOf cx)).getD 0) g) [⟨coreOf cx, g⟩]

/-- The acquire of a context of everything returned to it since its previous one (R187). -/
def State.acquireAll (s : State) (cx : Nat) (i : Instr) (next : Word) : State :=
  let recs := (s.ctx cx).recs
  (s.modCtx cx (fun c => { c with recs := [] })).startAcquire cx i next recs

end Sys2Proof.Machine
end

