-- ==== Sys2Proof/Machine/Fetch.lean ====
section
/-! DEFINITION. The instruction path (R28, R30, R195, R276): fetching a word through translation, the quad's instruction
cache and a context's run-ahead words. -/

namespace Sys2Proof.Machine

/-- Lines of a quad's instruction cache (R17: 32 KiB). -/
def icacheLines : Nat := 512

/-- What a fetch gives: words, a trap with its `TVAL`, or a miss beyond the first-level TLB at an address. -/
inductive Fetch
  | ok (w : List IWord) (s : State)
  | trap (cause : Nat) (val : Word)
  | miss (a : Word)

/-- The instruction cache's copy of a line, read from the home when it is not there; the oldest line makes room. -/
def State.icacheRead (s : State) (quad line : Nat) : State × BitVec 512 :=
  match (s.quad quad).icache.find? (fun e => e.1 == line) with
  | some e => (s, e.2)
  | none =>
    let v : BitVec 512 := BitVec.ofNat 512 (memRead s.mem (line * 64) 64)
    (s.modQuad quad (fun q =>
      { q with icache := (if icacheLines ≤ q.icache.length then q.icache.drop 1 else q.icache) ++ [(line, v)] }), v)

/-- Whether a line lies in a quad's instruction cache. -/
def State.icacheHit (s : State) (quad line : Nat) : Bool := (s.quad quad).icache.any (fun e => e.1 == line)

/-- The word at an instruction address of a context (R28). A cached line is not read at its home, so no error is found
there (R396). -/
def State.fetchWord (s : State) (cx : Nat) (a : Word) : Fetch :=
  let core := coreOf cx
  match (s.ctx cx).run.find? (fun e => e.1 == a) with
  | some e => .ok [e.2] s
  | none =>
    match s.translate core ((s.partOf core).getD 0) a .fetch with
    | .trap c => .trap c a
    | .miss => .miss a
    | .ok l =>
      let pa := locKey l
      let (s1, bad) :=
        if s.icacheHit (quadOf core) (pa / 64) then (s, false)
        else s.readCheck (bytesOf l 4) (s.ctx cx).tid ((s.partOf core).getD 0)
      if bad then .trap causeData a
      else
        let (s2, v) := s1.icacheRead (quadOf core) (pa / 64)
        .ok [elem 32 v (pa % 64 / 4)] s2

/-- `n` consecutive words, in order; the first that faults decides. -/
def State.fetchWords (s : State) (cx : Nat) (a : Word) : (n : Nat) → Fetch
  | 0 => .ok [] s
  | n + 1 =>
    match s.fetchWord cx a with
    | .ok w s1 =>
      match s1.fetchWords cx (a + 4) n with
      | .ok r s2 => .ok (w ++ r) s2
      | f => f
    | f => f

/-- A context waits on the translation of a fetch (R273): it fetches again when it is released. -/
def State.fetchWait (s : State) (cx : Nat) (a : Word) : State :=
  let core := coreOf cx
  let part := (s.partOf core).getD 0
  let hit := (tlbFind part a (s.cluster (clusterOf core)).tlb).isSome
  (s.modCtx cx (fun c => { c with state := .waiting, why := 17, wait := none })).send
    (.walk (.ctx cx (s.ctx cx).tid) cx a.toNat AccKind.fetch.code part hit)

/-- The word of an instruction, which an illegal-instruction trap records (R268). -/
def wordOf (i : Instr) : Word :=
  match encode i with
  | some (w :: _) => zext w
  | _ => 0

/-- An illegal-instruction trap that an instruction's own checks raise (R28). -/
def illegal (i : Instr) (s : State) : Out := Sys2Proof.Machine.trap causeIllegal (wordOf i) s

end Sys2Proof.Machine
end

