-- ==== Sys2Proof/Machine/Access.lean ====
section
/-! DEFINITION. Accesses of a context: checks and translation at issue (R157), scratchpad pages (R149, R150), requests
and their replies (R146), performing at a home with the release that a request carries (R186), and finishing. -/

namespace Sys2Proof.Machine

/-- How a scratchpad page stands for an access (R149, R151); `lost`: its frame cannot be read (R396). -/
inductive PageSt | ready | prot | fault | busy | lost
  deriving DecidableEq, Repr

/-- Whether the frame of a page lies in a retired unit, until the service core moves the mapping (R396). -/
def State.frameGone (s : State) (core p : Nat) : Bool :=
  let f := globalLoc (s.page core p).frame
  s.retired.contains (f / 65536) || s.lost.any (fun x => x / 64 == f / 4096)

/-- The checks of R149 in their order; a page that is being written back holds accesses too (R151). -/
def State.pageSt (s : State) (core p : Nat) : PageSt :=
  let d := s.page core p
  if !d.v then .fault else if 6 ≤ d.lay then .prot else if d.res ∧ !d.busy then .ready
  else if !d.busy && s.frameGone core p then .lost else .busy

/-- The pages of a core's scratchpad that locations lie on. -/
def pagesOf (locs : List Nat) : List Nat := (locs.map (fun l => (l - 2 ^ 44) % 65536 / 4096)).eraseDups

/-- Whether a location lies on a page of a core's scratchpad. -/
def onPage (core page l : Nat) : Bool := l / 4096 == 2 ^ 32 + core * 16 + page

/-- What the access of a request at a home is (KIND of R274): a load, or a store or atomic. -/
def reqKind (i : Instr) : AccKind :=
  match i with
  | .ld _ _ _ _ _ | .ldAcq _ _ _ _ _ | .ldf _ _ _ _ _ | .ldfIndexed _ _ _ _ _ _ | .vld _ _ _ _ | .vgath _ _ _ _ | .ldtab _
  | .wwait _ _ _ => .load
  | _ => .store

/-- `StartRefill` (R149). -/
def State.startRefill (s : State) (core p : Nat) : State :=
  s.modPage core p (fun d => if d.res ∨ d.busy then d else { d with busy := true, wb := false })

/-- Queues a WIN = 4 fault of a requester (R149, R274); none when the queue is full. -/
def State.pageFault (s : State) (core p part : Nat) (va : Word) (k : AccKind) (who : Requester) : Option State :=
  s.queueFault (dieOf core) part va.toNat k.code 4 0 0 (core * 16 + p) (s.faultId (dieOf core) who) who

/-- A local access of the current context to a page (R149, R150): it goes on; or the context waits for the service core
and performs its instruction again; or `busy` says how it waits for the page. A fault that finds the queue full waits as
a walk does (R274). -/
def localPage (i : Instr) (va : Word) (core p : Nat) (k : AccKind) (go busy : State → Out) (s : State) : Out :=
  match s.pageSt core p with
  | .ready => go s
  | .prot => trap causeProtection va s
  | .lost => trap causeData va s
  | .fault =>
    let s1 := s.holdAt s.cur 13 i va
    let who : Requester := .ctx s.cur s.me.tid
    match s1.pageFault core p s.myPart va k who with
    | some s2 => .next s2
    | none => .next (s1.send (.walk who s.cur va.toNat k.code s.myPart false))
  | .busy => busy (s.startRefill core p)

/-- Translates an address of the current context, or traps, or waits for the translation. -/
def withLoc (i : Instr) (ea : Word) (k : AccKind) (s : State) (go : Loc → Out) : Out :=
  match s.translate s.myCore s.myPart ea k with
  | .trap c => trap c ea s
  | .miss => .next (s.missWait s.cur i s.myPart ea k)
  | .ok l => go l

/-- The checks of a load or store of `n` bytes in the order of R157: alignment, the fleeting window, translation. -/
def checked (i : Instr) (ea : Word) (n : Nat) (k : AccKind) (s : State) (go : Loc → Out) : Out :=
  if ea.toNat % n ≠ 0 then trap causeMisaligned ea s
  else if inFleet ea then trap causeProtection ea s
  else withLoc i ea k s go

/-- A request of the current context. -/
def State.mkReq (s : State) (i : Instr) (ea : Word) (l : Loc) (n : Nat) (vals : List Nat)
    (sig : Option (Sig × Scope)) : Req where
  cx := s.cur
  tid := s.me.tid
  part := s.myPart
  tag := s.me.tag
  home := homeOf l
  i := i
  va := ea
  locs := bytesOf l n
  lanes := []
  vals := vals
  sig := sig
  blocked := false

/-- How the context of a request waits for its reply: its first byte's location says at which home (R59, R226). -/
def State.waitFor (s : State) (r : Req) : Wait :=
  { mkWait r.i 1 0 (wrapPc (s.me.pc + 4)) with val := BitVec.ofNat 64 (r.locs.headD 0) }

/-- Sends a request; its context waits for the reply with a WHY (R59, R146). -/
def State.ask (s : State) (why : Nat) (r : Req) : State := (s.block s.cur why (s.waitFor r)).send (.req r)

/-- What performing a request gives: the state and, unless the request waits at the home, its reply. -/
abbrev HomeOut := State × Option Reply

/-- Performs an access at its home at once when it is local (R146), else sends it. A local access that waits for its page
is a request to its own core (R69, R150). -/
def access (why : Nat) (r : Req) (l : Loc) (k : AccKind) (home : Req → State → HomeOut)
    (fin : Reply → State → State) (s : State) : Out :=
  match l with
  | .scratch core off =>
    if core = s.myCore then
      localPage r.i r.va core (off / 4096) k
        (fun s =>
          if (s.resvOn r.locs).isSome then .next (s.ask why r)
          else
            match home r s with
            | (s1, some rep) => .next (fin rep s1)
            | (s1, none) => .next (s1.block s.cur why (s.waitFor r)))
        (fun s => .next (s.ask 2 r)) s
    else .next (s.ask why r)
  | _ => .next (s.ask why r)

/-- What a reply brings its context beside the result: release records, kept for the context's next acquire (R187), and
whether the release that was pending has been made (R193). -/
def Ctx.brought (rep : Reply) (c : Ctx) : Ctx :=
  { c with recs := c.recs ++ rep.recs, relp := if rep.made then none else c.relp }

/-- Finishes an instruction with its reply: a trap, or an effect on the context's registers. -/
def finishWith (f : Reply → Ctx → Ctx) (rep : Reply) (s : State) : State :=
  match rep.trap with
  | some (c, v) => s.trapCtx rep.cx c v
  | none => (s.modCtx rep.cx (Ctx.brought rep)).finish rep.cx 4 (f rep)

/-- Finishes an instruction that acquires after its result is written (R157, R187). -/
def finishAcquiring (i : Instr) (f : Reply → Ctx → Ctx) (rep : Reply) (s : State) : State :=
  match rep.trap with
  | some (c, v) => s.trapCtx rep.cx c v
  | none =>
    (s.modCtx rep.cx (fun c => f rep (c.brought rep))).acquireAll rep.cx i
      (wrapPc ((s.ctx rep.cx).pc + 4))

/-- The first value of a reply. -/
def Reply.val (r : Reply) : Nat := r.vals.headD 0
/-- The value at a position of a reply. -/
def Reply.at_ (r : Reply) (i : Nat) : Nat := r.vals.getD i 0

-- At the home.

/-- The release record that a reply about a global line carries (R187). -/
def State.recsFor (s : State) (locs : List Nat) : List Rec :=
  match locs with
  | l :: _ => if isGlobalLoc l then (s.recOf (l / 64)).toList else []
  | [] => []

/-- A core's own copy of a global line is written back and dropped for an at-home access (R184, R202). -/
def State.ownCopyOut (s : State) (core : Nat) (l : Loc) : State :=
  match l with
  | .global pa => s.l1Invalidate core (pa / 64)
  | _ => s

/-- The same by locations, at the home. -/
def State.ownCopyOutAt (s : State) (core : Nat) (locs : List Nat) : State :=
  match locs with
  | l :: _ => if isGlobalLoc l then s.l1Invalidate core (l / 64) else s
  | [] => s

/-- Whether the locations lie in an object's line (R222) (log 40). -/
def State.onObject (s : State) (locs : List Nat) : Bool :=
  match locs with
  | l :: _ => (s.obj? (l / 64)).isSome
  | [] => false

/-- Performs a load at its home. -/
def homeRead (r : Req) (s : State) : HomeOut :=
  let (s1, bad) := s.readCheck r.locs r.tid r.part
  if bad then (s1, some (r.fail causeData))
  else (s1, some { r.reply [s1.rd r.locs] with recs := s1.recsFor r.locs })

/-- Performs at the home what a release carries (R186): the record that it replaces is drained first, then the record of
this release is left at the line, then `k`. A request that waits for a drain arrives again with its acknowledgement; a
record whose core holds nothing to write back is not asked to (R188). -/
def withRelease (r : Req) (k : State → HomeOut) (s : State) : HomeOut :=
  match r.sig, r.locs with
  | some (g, _), l :: _ =>
    if isGlobalLoc l then
      match s.toDrain (coreOf r.cx) (l / 64) with
      | some e =>
        if s.undrained e then (s.askDrain ((s.partOf e.core).getD 0) (.req r) e, none)
        else k (s.setRec (l / 64) ⟨coreOf r.cx, g⟩)
      | none => k (s.setRec (l / 64) ⟨coreOf r.cx, g⟩)
    else k s
  | _, _ => k s

/-- The same for an access whose reply carries the record that stood before (R187). -/
def releasing (r : Req) (k : State → State × Reply) (s : State) : HomeOut :=
  let recs := s.recsFor r.locs
  withRelease r (fun s => match k s with
    | (s1, rep) => (s1, some { rep with recs := recs, made := r.sig.isSome && isGlobalLoc (r.locs.headD (2 ^ 44)) })) s

/-- A write of a core at a global line's home: its own copy leaves, and its later releases name the line (log 17). -/
def State.homeWrote (s : State) (core : Nat) (locs : List Nat) : State :=
  match locs with
  | l :: _ => if isGlobalLoc l then (s.l1Invalidate core (l / 64)).wroteHome core (l / 64) else s
  | [] => s

/-- Performs a store at its home (R186, R222). -/
def homeWriteReq (v : Nat) (r : Req) (s : State) : HomeOut :=
  if s.onObject r.locs then (s, some (r.fail causeProtection))
  else if r.locs.any s.gone then (s, some (r.fail causeData))
  else
    releasing r (fun s => ((s.homeWrote (coreOf r.cx) r.locs).storeAt r.locs v, r.reply [])) s

/-- The release that a context's next global store or atomic carries, if one is pending (R193) (log 35). It stays pending
until it has been made, so that an access that traps at its home loses none. -/
def State.pendingFor (s : State) (l : Loc) : Option (Sig × Scope) :=
  match l with
  | .global _ => s.me.relp
  | _ => none

/-- `HoldsReservation` (R243): the context's reservation stands at its home until it is broken (R244). -/
def State.holdsResv (s : State) : Bool :=
  s.me.resv.isSome && s.resvq.any (fun q =>
    match q.holder with
    | some (cx, tid, _, _) => cx == s.cur && tid == s.me.tid
    | none => false)

/-- The bytes of a core's own copies of the lines of a request that are still to be written back, in its L1 or at a reserved
word (R184). -/
def State.ownDirty (s : State) (core : Nat) (locs : List Nat) : List Nat :=
  let mine (line : Nat) : Bool := locs.any (fun l => l / 64 == line)
  ((s.core core).l1.map fun e => if mine e.line then e.cells.map Prod.fst else []).flatten
    ++ ((s.queuedCells core).filter (fun c => mine (c.1 / 64))).map Prod.fst

/-- The queue behind which a request waits (R209): it names bytes of it, or its own core's dirty bytes, which are written
back first (R184), do. -/
def State.resvFor (s : State) (r : Req) : Option ResvQ :=
  if s.resvq.isEmpty then none else s.resvOn (r.locs ++ s.ownDirty (coreOf r.cx) r.locs)

/-- Whether a request of a context is on its way to its home, or waits at a reserved word there. -/
def State.asking (s : State) (cx : Nat) (tid : BitVec 32) : Bool :=
  let mine (r : Req) : Bool := r.cx == cx && r.tid == tid
  s.msgs.any (fun m =>
      match m with
      | .req r | .drain _ _ _ (.req r) | .drainAck (.req r) => mine r
      | _ => false)
    || s.resvq.any (fun q => q.queue.any fun i => match i with | .req r => mine r | .write _ _ _ => false)

end Sys2Proof.Machine
end

