-- ==== Sys2Proof/Machine/Atomics.lean ====
section
/-! DEFINITION. Atomics and reservations (R209, R242–R244). -/

namespace Sys2Proof.Machine

/-- Bytes of an atomic (R243). -/
def dblBytes (dbl : Bool) : Nat := if dbl then 8 else 4

/-- Whether an ordering releases. -/
def ordRels : Ord4 → Bool
  | .rel | .ar => true
  | _ => false

/-- Whether an ordering acquires. -/
def ordAcqs : Ord4 → Bool
  | .acq | .ar => true
  | _ => false

/-- The signed value of `n` bytes. -/
def sbytes (n x : Nat) : Int := signExtend x (8 * n)

/-- The new word of `amo.op` (R243), from the old one and the operand, both of `n` bytes. -/
def amoResult (op : AmoOp) (n old x : Nat) : Nat :=
  match op with
  | .add => (old + x) % 2 ^ (8 * n)
  | .and => old &&& x
  | .or => old ||| x
  | .xor => old ^^^ x
  | .min => if sbytes n old < sbytes n x then old else x
  | .max => if sbytes n old < sbytes n x then x else old
  | .minn => Nat.min old x
  | .maxn => Nat.max old x

/-- Whether `g[d]` of a `.w` atomic is sign-extended (R243). -/
def amoSext : AmoOp → Bool
  | .add | .min | .max => true
  | _ => false

/-- The release that an atomic carries to a location: its own, with one that is pending if the location is global
(R186, R193, R243). -/
def State.atomicRelease (s : State) (rel : Bool) (sc : Scope) (l : Loc) : Option (Sig × Scope) × State :=
  let p := s.pendingFor l
  if rel && scopeGe sc .quad then
    let (s1, g) := s.makeRelease s.myCore sc
    (some (g ||| (match p with | some (h, _) => h | none => 0), sc), s1)
  else (p, s)

/-- The checks of R243, the release, and the request. DESIGN CHOICE: the fault of a page of the core's own scratchpad comes
before the protection trap of a context that holds a reservation, and that of another core's page after it (log 87). -/
def atomicAccess (i : Instr) (ea : Word) (n : Nat) (rel : Bool) (sc : Scope) (vals : List Nat)
    (home : Req → State → HomeOut) (fin : Reply → State → State) (s : State) : Out :=
  checked i ea n .store s fun l =>
    let go (s : State) : Out :=
      s.afterRelease 1 rel sc i fun s =>
        let (g, s1) := s.atomicRelease rel sc l
        let s2 := s1.ownCopyOut s1.myCore l
        access 1 (s2.mkReq i ea l n vals g) l .store home fin s2
    if s.holdsResv then
      match l with
      | .scratch core off =>
        if core = s.myCore then localPage i ea core (off / 4096) .store (trap causeProtection ea) (trap causeProtection ea) s
        else trap causeProtection ea s
      | _ => trap causeProtection ea s
    else go s

/-- An atomic at its home (R209, R243): `new` gives the new word, or none for no write. The reply carries the record
that stood before its own release. -/
def homeAmo (new : Nat → Option Nat) (r : Req) (s : State) : HomeOut :=
  if s.onObject r.locs then (s, some (r.fail causeProtection))
  else
    let (s1, bad) := s.readCheck r.locs r.tid r.part
    if bad then (s1, some (r.fail causeData))
    else
      releasing r (fun s =>
        let s := s.ownCopyOutAt (coreOf r.cx) r.locs
        let old := s.rd r.locs
        let s2 := match new old with
          | some v => (s.homeWrote (coreOf r.cx) r.locs).storeAt r.locs v
          | none => s
        (s2, r.reply [old])) s1

/-- The end of an atomic: its result, then its acquire (R243). -/
def endAmo (i : Instr) (sx : Bool) (dbl acq : Bool) (sc : Scope) (d : GReg) (rep : Reply) (s : State) : State :=
  let f (rep : Reply) (c : Ctx) : Ctx := c.setG d (extend (if dbl then .d else .w) sx rep.val)
  if acq && scopeGe sc .quad then finishAcquiring i f rep s else finishWith f rep s

/-- The low bytes of a register. -/
def lowBytes (n : Nat) (x : Word) : Nat := x.toNat % 2 ^ (8 * n)

/-- The home's part of `amo`. -/
def homeAmoOp (op : AmoOp) (dbl : Bool) (r : Req) (s : State) : HomeOut :=
  homeAmo (fun old => some (amoResult op (dblBytes dbl) old (r.vals.headD 0))) r s

/-- The end of `amo`. -/
def endAmoOp (op : AmoOp) (dbl : Bool) (o : Ord4) (sc : Scope) (d a b : GReg) : Reply → State → State :=
  endAmo (.amo op dbl o sc d a b) (amoSext op) dbl (ordAcqs o) sc d

/-- `amo` (R242, R243). -/
def execAmo (op : AmoOp) (dbl : Bool) (o : Ord4) (sc : Scope) (d a b : GReg) (s : State) : Out :=
  atomicAccess (.amo op dbl o sc d a b) (s.me.gr a) (dblBytes dbl) (ordRels o) sc [lowBytes (dblBytes dbl) (s.me.gr b)]
    (homeAmoOp op dbl) (endAmoOp op dbl o sc d a b) s

/-- The home's part of `amo.swap`. -/
def homeAmoSwap (r : Req) (s : State) : HomeOut := homeAmo (fun _ => some (r.vals.headD 0)) r s

/-- The end of `amo.swap`. -/
def endAmoSwap (dbl : Bool) (o : Ord4) (sc : Scope) (d a b : GReg) : Reply → State → State :=
  endAmo (.amoSwap dbl o sc d a b) false dbl (ordAcqs o) sc d

/-- `amo.swap` (R242, R243). -/
def execAmoSwap (dbl : Bool) (o : Ord4) (sc : Scope) (d a b : GReg) (s : State) : Out :=
  atomicAccess (.amoSwap dbl o sc d a b) (s.me.gr a) (dblBytes dbl) (ordRels o) sc [lowBytes (dblBytes dbl) (s.me.gr b)]
    homeAmoSwap (endAmoSwap dbl o sc d a b) s

/-- The home's part of `amo.cas`. -/
def homeAmoCas (r : Req) (s : State) : HomeOut :=
  homeAmo (fun old => if old = r.vals.getD 1 0 then some (r.vals.headD 0) else none) r s

/-- The end of `amo.cas`. -/
def endAmoCas (dbl : Bool) (o : Ord4) (sc : Scope) (d a b c : GReg) : Reply → State → State :=
  endAmo (.amoCas dbl o sc d a b c) false dbl (ordAcqs o) sc d

/-- `amo.cas` (R242, R243). -/
def execAmoCas (dbl : Bool) (o : Ord4) (sc : Scope) (d a b c : GReg) (s : State) : Out :=
  atomicAccess (.amoCas dbl o sc d a b c) (s.me.gr a) (dblBytes dbl) (ordRels o) sc
    [lowBytes (dblBytes dbl) (s.me.gr b), lowBytes (dblBytes dbl) (s.me.gr c)]
    homeAmoCas (endAmoCas dbl o sc d a b c) s

-- resv and rlse (R244)

/-- A context takes a reservation at the home. A request of a context that has ended reserves nothing (R69). -/
def State.reserve (s : State) (r : Req) : State :=
  if (s.ctx r.cx).tid = r.tid then
    { s with resvq := s.resvq ++ [{ loc := r.locs.headD 0, holder := some (r.cx, r.tid, r.locs, s.now), queue := [] }] }
  else s

/-- `resv` at the home: the word is held for the context. -/
def homeResv (r : Req) (s : State) : HomeOut :=
  if s.onObject r.locs then (s, some (r.fail causeProtection))
  else
    let (s1, bad) := s.readCheck r.locs r.tid r.part
    if bad then (s1, some (r.fail causeData))
    else
      releasing r (fun s =>
        let s2 := (s.ownCopyOutAt (coreOf r.cx) r.locs).reserve r
        (s2, r.reply [s2.rd r.locs, r.locs.headD 0])) s1

/-- The end of `resv`: the context notes the location and size that its reservation names. -/
def endResv (dbl acq : Bool) (sc : Scope) (d a : GReg) (rep : Reply) (s : State) : State :=
  let f (rep : Reply) (c : Ctx) : Ctx :=
    { c.setG d (BitVec.ofNat 64 rep.val) with resv := some (rep.at_ 1, dblBytes dbl) }
  if acq && scopeGe sc .quad then finishAcquiring (.resv dbl acq sc d a) f rep s else finishWith f rep s

/-- `resv` (R242, R244). -/
def execResv (dbl acq : Bool) (sc : Scope) (d a : GReg) (s : State) : Out :=
  atomicAccess (.resv dbl acq sc d a) (s.me.gr a) (dblBytes dbl) false sc [] homeResv (endResv dbl acq sc d a) s

/-- Whether a queue is held by a request's context for the request's bytes. -/
def ResvQ.heldBy (q : ResvQ) (r : Req) : Bool :=
  match q.holder with
  | some (cx, tid, locs, _) => cx == r.cx && tid == r.tid && locs == r.locs
  | none => false

/-- A reservation ends: the word passes on. -/
def State.passWord (s : State) (ended : ResvQ → Bool) : State :=
  { s with resvq := (s.resvq.map (fun q => if ended q then { q with holder := none } else q)).filter ResvQ.live }

/-- `rlse` at the home (R222, R244): it carries its release; it writes while the reservation that it names stands, and
reports a break. The values say whether it wrote, and, as its request does, whether it names the context's
reservation. -/
def homeRlse (r : Req) (s : State) : HomeOut :=
  if s.onObject r.locs then (s, some (r.fail causeProtection))
  else if s.resvq.any (·.heldBy r) then
    if r.locs.any s.gone then (s, some (r.fail causeData))
    else releasing r (fun s =>
      (((s.homeWrote (coreOf r.cx) r.locs).storeAt r.locs (r.vals.headD 0)).passWord (·.heldBy r), r.reply [1, r.vals.getD 1 0])) s
  else releasing r (fun s => (s.ownCopyOutAt (coreOf r.cx) r.locs, r.reply [0, r.vals.getD 1 0])) s

/-- The end of a `rlse`: one that named the context's reservation ends it. -/
def endRlse (d : Reg8) : Reply → State → State :=
  finishWith (fun rep c =>
    { c.setP d (decide (rep.val = 1)) with resv := if rep.at_ 1 = 1 then none else c.resv })

/-- `rlse` (R242, R244): one that names another address or size finds no reservation, and goes to its home only to carry
a release (log 29). -/
def execRlse (dbl rel : Bool) (sc : Scope) (d : Reg8) (a b : GReg) (s : State) : Out :=
  let ea := s.me.gr a
  let n := dblBytes dbl
  let i : Instr := .rlse dbl rel sc d a b
  checked i ea n .store s fun l =>
    s.afterRelease 1 rel sc i fun s =>
      let named := decide (s.me.resv = some (locKey l, n))
      let (g, s1) := s.atomicRelease rel sc l
      let s2 := s1.ownCopyOut s1.myCore l
      let r := s2.mkReq i ea l n [lowBytes n (s.me.gr b), named.toNat] g
      if !named && (g.isNone || !r.locs.any isGlobalLoc) then
        if s.onObject r.locs then trap causeProtection ea s else retire (fun c => c.setP d false) s1
      else
        match l with
        | .scratch core off =>
          if core = s.myCore then
            localPage i ea core (off / 4096) .store
              (fun s =>
                match homeRlse r s with
                | (s1, some rep) => .next (endRlse d rep s1)
                | (s1, none) => .next (s1.block s.cur 1 (mkWait i 1 0 (wrapPc (s.me.pc + 4)))))
              (fun s => .next (s.ask 2 r)) s2
          else .next (s2.ask 1 r)
        | _ => .next (s2.ask 1 r)

end Sys2Proof.Machine
end

