-- ==== Sys2Proof/Machine/Power.lean ====
section
/-! DEFINITION. Time, operating points, droop, Lantern and the hardware limits (R60, R349–R362). -/

namespace Sys2Proof.Machine

/-- The die of a quad; 0 for the unlisted quads taken together. -/
def dieOfQuad (q : Nat) : Nat := if quadCount ≤ q then 0 else q / 3200

/-- Whether thermal trip acts on a quad (R358). -/
def State.thermalOn (s : State) (q : Nat) : Bool := decide (q < quadCount) && (s.die (dieOfQuad q)).thermal

/-- Positions withdrawn on the cores of a quad: the greatest number that a source holds (R356). -/
def State.withdrawn (s : State) (q : Nat) : Nat :=
  let d := s.quad q
  max (max d.wd (if 0 < d.wdLeft then 8 else 0)) (max (if s.limiter then 8 else 0) (if s.thermalOn q then 15 else 0))

/-- Whether a position of a core is withdrawn (R60). -/
def State.posWithdrawn (s : State) (core i : Nat) : Bool := decide (16 ≤ i + s.withdrawn (quadOf core))

/-- Whether the ceilings of a quad's die stand at OP0 since a thermal trip (R358). -/
def State.hotOn (s : State) (q : Nat) : Bool := decide (q < quadCount) && (s.die (dieOfQuad q)).hot

/-- The ceiling of a quad: Lantern's, or OP0 while the watchdog acts, and from a thermal trip until Lantern restores it
(R357, R358). -/
def State.ceiling (s : State) (q : Nat) : Nat := if s.watchdog ∨ s.hotOn q then 0 else (s.quad q).ceil

/-- The target operating point of a quad (R352). -/
def State.opTarget (s : State) (q : Nat) : Nat :=
  let req := if quadCount ≤ q then 7 else
    (List.range 4).foldl (fun m i => max m (s.core (q * 4 + i)).req) 0
  min req (s.ceiling q)

/-- MHz of an operating point (R351). -/
def opMHz (op : Nat) : Nat := [350, 500, 700, 850, 1000, 1100, 1250, 1400].getD op 350

/-- `DRTH` fields (R354). -/
def drthSTR (x : Word) : Nat := bits x 11 8
/-- WDC. -/
def drthWDC (x : Word) : Nat := bits x 23 12
/-- EN. -/
def drthEN (x : Word) : Bool := bit x 24

/-- Belfry as a partition reads it (R350). -/
def State.belfry (s : State) (part : Nat) : Nat := if (s.part part).tres then s.now / 1000 * 1000 else s.now

/-- `time` (R349, R350, R359). -/
def execTime (d : GReg) (s : State) : Out :=
  retire (fun c => c.setG d (BitVec.ofNat 64 (s.belfry s.myPart))) s

/-- `cyc` (R356, R359). -/
def execCyc (d : GReg) (s : State) : Out :=
  retire (fun c => c.setG d (BitVec.ofNat 64 (s.quad (quadOf s.myCore)).cyc)) s

/-- `pwrq` (R352, R359). -/
def execPwrq (d a : GReg) (s : State) : Out :=
  let q := quadOf s.myCore
  let r := min (s.me.gr a).toNat 7
  retire (fun c => c.setG d (BitVec.ofNat 64 (s.ceiling q))) (s.modCore s.myCore (fun k => { k with req := r }))

/-- The word of `pstat` (R360): DRP shows a droop response from the cycle in which it begins (R355). -/
def State.pstatWord (s : State) (core : Nat) : Word :=
  let q := quadOf core
  let d := s.quad q
  let drp := d.resp && !d.respNew || decide (0 < d.wdLeft)
  BitVec.ofNat 64
    (d.op + (s.core core).req * 2 ^ 4 + s.ceiling q * 2 ^ 8 + d.wd * 2 ^ 12 + drp.toNat * 2 ^ 16
      + s.watchdog.toNat * 2 ^ 17 + (s.thermalOn q).toNat * 2 ^ 18 + s.limiter.toNat * 2 ^ 19 + s.cap * 2 ^ 32)

/-- `pstat` (R360). -/
def execPstat (d : GReg) (s : State) : Out := retire (fun c => c.setG d (s.pstatWord s.myCore)) s

-- Operating-point moves.

/-- A move begins toward the target of quad `State.sel` (R352). -/
def execOpMoveStart (s : State) : Out :=
  let q := s.sel
  let t := s.opTarget q
  if (s.quad q).move.isNone ∧ t ≠ (s.quad q).op then
    .next (s.modQuad q (fun d => { d with move := some (t, s.now + Config.opMoveTicks) }))
  else .next s

/-- A move of quad `State.sel` ends at the target that stood when it began (R352); the step makes it so at a boundary
between two cycles, for OP4 on a tick (`State.boundary`). -/
def execOpMoveEnd (s : State) : Out :=
  .next (s.modQuad s.sel (fun d =>
    match d.move with
    | some (t, _) => { d with op := t, move := none, acc := if t = 4 then 0 else d.acc }
    | none => d))

-- Droop (R355).

/-- The detector of quad `State.sel` trips: the response begins in the next cycle. -/
def execDroopTrip (s : State) : Out :=
  .next (s.modQuad s.sel (fun d =>
    if drthEN d.drth then
      { d with stretch := drthSTR d.drth, wdNext := drthWDC d.drth, resp := true, respNew := !d.resp || d.respNew }
    else d))

/-- The stretched cycles of quad `State.sel` are over: positions 8–15 are withdrawn for the WDC cycles of this response. -/
def execDroopStretchEnd (s : State) : Out :=
  .next (s.modQuad s.sel (fun d => { d with stretch := 0, wdLeft := d.wdNext, wdNext := 0, resp := false }))

/-- The withdrawal of quad `State.sel` ends. -/
def execDroopWithdrawalEnd (s : State) : Out := .next (s.modQuad s.sel (fun d => { d with wdLeft := 0 }))

-- The hardware limits (R358).

/-- The current limiter withdraws positions 8–15 of the package. -/
def execCurrentLimitTrip (s : State) : Out := .next { s with limiter := true }

/-- The current limiter lets go. -/
def execCurrentLimitRelease (s : State) : Out := .next { s with limiter := false }

/-- The quads of a die, each changed by `f` and all listed. -/
def State.modQuadsOfDie (s : State) (die : Nat) (f : Quad → Quad) : State :=
  { s with
    quads := s.quads.filter (fun e => decide (e.1 < die * 3200))
      ++ (List.range 3200).map (fun i => (die * 3200 + i, f (s.quad (die * 3200 + i))))
      ++ s.quads.filter (fun e => decide ((die + 1) * 3200 ≤ e.1)) }

/-- Thermal trip of die `State.sel`: every quad goes to OP0 and positions 1–15 are withdrawn; the error log records it
(R397). -/
def execThermalTrip (s : State) : Out :=
  let s1 := (s.modDie s.sel (fun d => { d with thermal := true, hot := true })).logErr s.sel 4 0 0 0
  .next (s1.modQuadsOfDie s.sel (fun d => { d with op := 0, move := none }))

/-- Thermal trip of die `State.sel` ends; Lantern restores the ceilings with its next signal (log 67). -/
def execThermalTripEnd (s : State) : Out := .next (s.modDie s.sel (fun d => { d with thermal := false }))

/-- Ticks without a signal of Lantern after which the watchdog acts: 2 ms (R358). -/
def watchdogTicks : Nat := 2000000

/-- Whether the watchdog's time has come (R358): it does not act yet, and Lantern has not signalled for 2 ms. -/
def State.watchdogDue (s : State) : Bool := !s.watchdog && decide (s.signal + watchdogTicks ≤ s.now)

/-- Lantern has not signalled for 2 ms: every ceiling is OP0; the log of die 0 records it (R358, R397) (log 36). -/
def execWatchdogExpiry (s : State) : Out :=
  if s.watchdogDue then .next (({ s with watchdog := true } : State).logErr 0 5 0 0 0) else .next s

/-- Lantern signals: the watchdog lets go, and Lantern restores the ceilings of the dies whose thermal trip is over; the
first signal after a reset or restart sets every ceiling to OP7 and withdraws nothing (R357, R358). -/
def execLanternSignal (s : State) : Out :=
  let s1 : State :=
    { s with
      watchdog := false, signal := s.now
      dies := s.dies.map (fun e => (e.1, { e.2 with hot := e.2.hot && e.2.thermal })) }
  if s.lanternUp then .next s1
  else
    let f (d : Quad) : Quad := { d with ceil := 7, wd := 0 }
    .next { s1 with lanternUp := true, quadD := f s.quadD, quads := s.quads.map (fun e => (e.1, f e.2)) }

/-- Lantern sets the ceiling and the withdrawn positions of a quad (R356, R357). -/
def execLanternPolicyAction (quad ceil wd : Nat) (s : State) : Out :=
  .next (s.modQuad quad (fun d => { d with ceil := min ceil 7, wd := min wd 15 }))

/-- A rack cap message (R357): a newer one sets the cap and starts the lease. -/
def execCapMessage (seq : BitVec 32) (watts : Nat) (s : State) : Out :=
  let d := (seq - s.capSeq).toNat
  if 1 ≤ d ∧ d ≤ 2 ^ 31 - 1 then
    .next { s with cap := max 1000 (min watts 3600), capSeq := seq, lease := some (s.now + 500000000) }
  else .next s

/-- The lease expires: the floor cap (R357). -/
def execLeaseExpiry (s : State) : Out := .next { s with cap := 2160, lease := none }

/-- Lantern restarts: the floor cap until a newer message, and a new first signal (R357). -/
def execLanternRestart (s : State) : Out := .next { s with cap := 2160, lease := none, lanternUp := false }

-- The quad clock.

/-- A quad's next cycle begins (R355, R356): `cyc` counts it, and the droop response moves on. -/
def State.newCycle (s : State) (q : Nat) : State :=
  let s1 := s.modQuad q (fun d => { d with cyc := d.cyc + 1, respNew := false })
  let d := s1.quad q
  let at_ (e : State → Out) : State :=
    match e { s1 with sel := q } with
    | .next t => { t with sel := s.sel }
    | _ => s1
  if 0 < d.stretch then s1.modQuad q (fun d => { d with stretch := d.stretch - 1, half := true })
  else if d.resp then at_ execDroopStretchEnd
  else if 1 < d.wdLeft then s1.modQuad q (fun d => { d with wdLeft := d.wdLeft - 1 })
  else if d.wdLeft = 1 then at_ execDroopWithdrawalEnd
  else s1

/-- A period of a quad's clock passes: the second half of a stretched cycle, or a new cycle (R355). The flag tells a
new cycle. -/
def State.period (s : State) (q : Nat) : State × Bool :=
  if (s.quad q).half then (s.modQuad q (fun d => { d with half := false }), false) else (s.newCycle q, true)

/-- What happens to a quad's move where one cycle ends and the next begins (R352): nothing, its end, or, toward OP4, a
wait for the next tick boundary, which lengthens the last cycle of the old point. -/
inductive MoveEnd | no | now | tick
  deriving DecidableEq, Repr

/-- How a quad's move stands at the end of a period. -/
def State.moveEnd (s : State) (q : Nat) (tick : Bool) : MoveEnd :=
  match (s.quad q).half, (s.quad q).move with
  | false, some (t, e) => if s.now < e then .no else if t = 4 ∧ !tick then .tick else .now
  | _, _ => .no

/-- A period of a quad's clock has passed: a move that is due ends at the boundary between two cycles (R352). -/
def State.boundary (s : State) (q : Nat) (tick : Bool) : State × Bool :=
  match s.moveEnd q tick with
  | .no => s.period q
  | .tick => (s.modQuad q (fun d => { d with acc := 1400 }), false)
  | .now =>
    match execOpMoveEnd { s with sel := q } with
    | .next t => ({ t with sel := s.sel } : State).period q
    | _ => s.period q

/-- A die cycle passes for a quad: at OP4 its periods are ticks (R351, R353), else they follow its frequency against
the 1.4 GHz die clock (log 4). -/
def State.clockQuad (s : State) (q : Nat) (tick : Bool) : State × Bool :=
  let d := s.quad q
  if d.op = 4 then (if tick then s.boundary q tick else (s, false))
  else
    let a := d.acc + opMHz d.op
    if 1400 ≤ a then (s.modQuad q (fun d => { d with acc := a - 1400 })).boundary q tick
    else (s.modQuad q (fun d => { d with acc := a }), false)

end Sys2Proof.Machine
end

