-- ==== Sys2Proof/Machine/Contexts.lean ====
section
/-! DEFINITION. Contexts (R61, R63–R71, R74–R83): spawning, ending, waiting for notices, yielding, reading a context's
state, and migration. -/

namespace Sys2Proof.Machine

/-- The mask that governs allocations of a core in this cycle: the one before an `mts` of this cycle (R63, R83). -/
def State.spenNow (s : State) (core : Nat) : Word :=
  (s.used.findSome? fun u => match u with | .mask k old => if k = core then some old else none | _ => none).getD
    (s.core core).spen

/-- The slot that an allocation takes (R61, R64): the lowest free, enabled one whose position is in place, else the
lowest free, enabled one. A slot that became FREE in this cycle can be allocated from the next one on (R83). -/
def State.allocSlot (s : State) (core : Nat) : Option Nat :=
  let ok (i : Nat) : Bool :=
    decide ((s.ctx (core * 16 + i)).state = .free) && (s.spenNow core).getLsbD i && !s.used.contains (.freed (core * 16 + i))
  match findIdxFrom (fun i => ok i && !s.posWithdrawn core i) 15 1 with
  | some i => some i
  | none => findIdxFrom ok 15 1

/-- The TID that a slot gives next (R67). -/
def State.nextTid (s : State) (core i : Nat) : BitVec 32 :=
  BitVec.ofNat 32 (tget 0 i (s.core core).gens % 2048 * 2 ^ 21 + core * 16 + i)

/-- The state of a context that a spawn message allocates (R65, R196). An entry address with bits [63:57] set is taken
modulo 2^57, as the 57-bit program counter of R84 holds it (DESIGN CHOICE, log 31). -/
def State.spawned (s : State) (m : SpawnMsg) (i : Nat) : Ctx :=
  { ((((Ctx.reset.setG 0 m.a0).setG 1 m.a1).setG 2 m.a2).setG 3 m.a3) with
    state := .ready
    pc := wrapPc m.entry
    stat := setFX m.fx 0
    tag := m.tag
    tvec := (s.ctx (m.core * 16)).tvec
    tid := s.nextTid m.core i
    launch := match m.from_ with | .disp l _ => some l | _ => none }

/-- The sender as a refusal list holds it (R66): a dispatcher is the one of the die that places the context (R326). -/
def Sender.entry (pkg : Nat) : Sender → BitVec 32 × BitVec 32
  | .ctx cx tid => (BitVec.ofNat 32 (placeOf pkg cx), tid)
  | .disp _ die => (BitVec.ofNat 32 (placeOf pkg (die * 12800 * 16)), 0xFFFFFFFF)
  | .net die _ _ => (BitVec.ofNat 32 (placeOf pkg (die * 12800 * 16)), 0xFFFFFFFE)

/-- A refused sender enters the core's refusal list (R66). -/
def State.listRefused (s : State) (core : Nat) (e : BitVec 32 × BitVec 32) : State :=
  s.modCore core fun c =>
    if c.refused.length < 16 ∧ !c.refused.contains e then { c with refused := c.refused ++ [e] } else c

/-- A launch counts a context that it has placed on a core (R327). -/
def State.countStart (s : State) (from_ : Sender) (core : Nat) : State :=
  match from_ with
  | .disp id _ =>
    { s with
      launches := s.launches.map fun l => if l.id = id then { l with live := tset core (tget 0 core l.live + 1) l.live } else l }
  | _ => s

/-- A spawn message reaches its core (R64–R67): it is accepted into a slot or refused. A placement of the dispatcher
and a spawn of a network engine invalidate the core's clean global lines (R327, R377). -/
def State.takeSpawn (s : State) (m : SpawnMsg) : State :=
  match s.allocSlot m.core with
  | some i =>
    let s1 := s.setCtx (m.core * 16 + i) (s.spawned m i)
    let clean := match m.from_ with | .ctx _ _ => false | _ => true
    let s2 := s1.modCore m.core (fun c =>
      { c with
        gens := tset i ((tget 0 i c.gens + 1) % 2048) c.gens
        l1 := if clean then c.l1.filter (fun e => decide (e.dirty ≠ 0)) else c.l1 })
    (s2.countStart m.from_ m.core).send (.answer m.from_ m.core 0)
  | none => (s.listRefused m.core (m.from_.entry s.pkg)).send (.answer m.from_ m.core 1)

/-- A spawn message is taken by its core; `State.sel` is its position. -/
def execSpawnMessage (s : State) : Out :=
  match s.msgs[s.sel]? with
  | some (.spawn m) => .next ((s.dropMsg s.sel).takeSpawn m)
  | _ => .next s

/-- How an answer changes the sender's notice flag, refusal timer and last refusal reason (R66). -/
def State.answered (s : State) (cx reason : Nat) : State :=
  let cyc := (s.quad (quadOf (coreOf cx))).cyc
  s.modCtx cx fun c =>
    { c with fnp := false, lrr := reason, timer := if reason = 1 then some (cyc + 4096) else none }

/-- An answer to a context (R66, R75). -/
def State.answerCtx (s : State) (cx : Nat) (tid : BitVec 32) (reason : Nat) : State :=
  let c := s.ctx cx
  if c.waits tid 1 then
    match c.wait with
    | some w =>
      match w.i with
      | .spawn d _ _ _ => (s.answered cx reason).finish cx 4 (fun c => c.setP d (decide (reason = 0)))
      | _ => s
    | none => s
  else s

/-- `spawn` (R64, R75). -/
def execSpawn (d : Reg8) (a b c : GReg) (s : State) : Out :=
  let i : Instr := .spawn d a b c
  if 12 < c.toNat then illegal i s
  else
    let e := s.me.gr b
    if e &&& 3 ≠ 0 then trap causeMisaligned e s
    else
      let place := s.me.gr a
      match coreOfPlace s.pkg place with
      | some k =>
        if s.partOf k = s.partOf s.myCore then
          let m : SpawnMsg :=
            { core := k, from_ := .ctx s.cur s.me.tid, entry := e, a0 := s.me.gr c, a1 := s.me.gr (c + 1),
              a2 := s.me.gr (c + 2), a3 := s.me.gr (c + 3), fx := s.me.fx, tag := s.me.tag, part := s.myPart }
          .next ((s.block s.cur 7 (mkWait i 1 0 (wrapPc (s.me.pc + 4)))).send (.spawn m))
        else retire (fun c => c.setP d false) (s.answered s.cur 3)
      | none => retire (fun c => c.setP d false) (s.answered s.cur 3)

/-- `quit` (R68, R76). -/
def execQuit (s : State) : Out := privileged (ctxNo s.cur ≠ 0) s fun s => .next (s.endCtx s.cur 0)

/-- The oldest context in EXIT queues its record when there is room (R68, R77). -/
def State.refillReap (s : State) (core : Nat) : State :=
  match (s.core core).exits with
  | (no, r0, r1) :: t =>
    if (s.core core).reap.length < 8 then
      (s.modCore core (fun c => { c with exits := t, reap := c.reap ++ [(r0, r1)] })).freeSlot (core * 16 + no)
    else s
  | [] => s

/-- `reap` (R77). -/
def execReap (d : GReg) (c : Reg8) (s : State) : Out :=
  privileged (ctxNo s.cur = 0) s fun s =>
    if 14 < d.toNat then illegal (.reap d c) s
    else
      match (s.core s.myCore).reap with
      | (r0, r1) :: t =>
        retire (fun x => ((x.setG d r0).setG (d + 1) r1).setP c true)
          ((s.modCore s.myCore (fun k => { k with reap := t })).refillReap s.myCore)
      | [] => retire (fun x => x.setP c false) s

/-- `kill` (R69, R78). The protection trap of a kill that names context 0 leaves `TVAL` 0: it names no address, and R268
gives 0 only for a use that R28 or R74 forbids (DESIGN CHOICE, log 59). -/
def execKill (d : Reg8) (a : GReg) (s : State) : Out :=
  privileged (ctxNo s.cur = 0) s fun s =>
    let n := bits (s.me.gr a) 3 0
    if n = 0 then trap causeProtection 0 s
    else
      let cx := s.myCore * 16 + n
      let st := (s.ctx cx).state
      if st = .ready ∨ st = .waiting ∨ st = .parked then retire (fun c => c.setP d true) (s.endCtx cx 1)
      else retire (fun c => c.setP d false) s

/-- The end of a `cfw` (R79). -/
def State.endCfw (s : State) (cx : Nat) (d : Reg8) : State :=
  s.finish cx 4 (fun c => ({ c with fnp := false, timer := none } : Ctx).setP d c.fnp)

/-- `cfw` (R79). -/
def execCfw (d : Reg8) (s : State) : Out :=
  if s.me.fnp then retire (fun c => ({ c with fnp := false } : Ctx).setP d true) s
  else
    match s.me.timer with
    | some t =>
      if (s.quad (quadOf s.myCore)).cyc < t then .next (s.block s.cur 9 (mkWait (.cfw d) 1 0 0))
      else retire (fun c => ({ c with timer := none } : Ctx).setP d false) s
    | none => retire (fun c => c.setP d false) s

/-- A context that waits in `cfw` returns (R79). -/
def State.wakeCfw (s : State) (cx : Nat) : State :=
  match (s.ctx cx).wait with
  | some w => match w.i with | .cfw d => s.endCfw cx d | _ => s
  | none => s

/-- A context-free notice reaches a context, if the TID is still there (R66). -/
def State.noticeCtx (s : State) (cx : Nat) (tid : BitVec 32) : State :=
  let c := s.ctx cx
  if c.tid = tid ∧ c.state ≠ .free ∧ c.state ≠ .exit then
    (s.modCtx cx (fun c => { c with fnp := true })).wakeCfw cx
  else s

/-- The refusal timer of context `State.sel` expires (R66, R79). -/
def execRefusalTimerExpiry (s : State) : Out :=
  .next ((s.modCtx s.sel (fun c => { c with timer := none })).wakeCfw s.sel)

/-- The cycle in which a `yield n` issued in cycle `t` by position `i` ends (R80). -/
def yieldUntil (t i n : Nat) : Nat := t + ((i + 15 - t % 16) % 16 + 1) + 16 * n

/-- `yield` (R80). -/
def execYield (n : BitVec 4) (s : State) : Out :=
  let t := (s.quad (quadOf s.myCore)).cyc
  .next (s.block s.cur 10 { mkWait (.yield n) 1 0 0 with till := yieldUntil t (ctxNo s.cur) n.toNat })

/-- The count of a `yield` of context `State.sel` runs out (R80). -/
def execYieldExpiry (s : State) : Out :=
  match (s.ctx s.sel).wait with
  | some w => (match w.i with | .yield _ => .next (s.finish s.sel 4 id) | _ => .next s)
  | none => .next s

/-- STATE as `ctxs` and the save area give it (R56, R81): PARKED is a READY context whose position is withdrawn. -/
def State.stateCode (s : State) (cx : Nat) : Nat :=
  match (s.ctx cx).state with
  | .free => 0
  | .ready => if s.posWithdrawn (coreOf cx) (ctxNo cx) then 3 else 1
  | .waiting => 2
  | .parked => 3
  | .exit => 4
  | .arriving => 5

/-- The word of `ctxs` (R81). -/
def State.ctxsWord (s : State) (cx : Nat) : Word :=
  let c := s.ctx cx
  let k := s.core (coreOf cx)
  BitVec.ofNat 64
    (s.stateCode cx + (if c.state = .waiting then c.why else 0) * 2 ^ 3 + (k.spen.getLsbD (ctxNo cx)).toNat * 2 ^ 8
      + (s.posWithdrawn (coreOf cx) (ctxNo cx)).toNat * 2 ^ 9 + c.fnp.toNat * 2 ^ 10 + c.lrr * 2 ^ 11
      + k.reap.length * 2 ^ 16 + k.refused.length * 2 ^ 20 + (if c.state = .free then 0 else c.tid.toNat) * 2 ^ 32)

/-- `ctxs` (R81). -/
def execCtxs (d a : GReg) (s : State) : Out :=
  retire (fun c => c.setG d (s.ctxsWord (s.myCore * 16 + bits (s.me.gr a) 3 0))) s

-- Migration.

/-- A `mig` is refused: it goes on in place with `p7` false (R71, R82). -/
def refuseMig (reason : Nat) (s : State) : Out := retire (fun c => c.setP 7 false) (s.answered s.cur reason)

/-- Whether a destination core lies in the unit of the scope of every group of the context (R266). -/
def Ctx.unitsHold (c : Ctx) (dest : Nat) : Bool := c.hunit.all (fun e => sameUnit e.2.1 e.2.2 dest)

/-- `mig` (R71, R82, R239, R244, R266) (log 34). -/
def execMig (a : GReg) (s : State) : Out :=
  let i : Instr := .mig a
  privileged (ctxNo s.cur ≠ 0) s fun s =>
    if statIH s.me.stat then refuseMig 4 s
    else if s.me.sret.isSome ∨ s.holdsResv then trap causeProtection 0 s
    else
      let ea := s.me.gr a
      withLoc i ea .load s fun l =>
        match l with
        | .scratch core _ =>
          if !s.me.unitsHold core then refuseMig 2 s
          else if s.me.pend ≠ 0 then .next (s.hold s.cur 8 i)
          else
            s.afterWriteBack 8 i fun s =>
              .next ((s.block s.cur 8 (mkWait i 1 0 (wrapPc (s.me.pc + 4)))).send (.mig s.cur core s.me.tid s.me.tag))
        | _ => refuseMig 3 s

/-- A migration message reaches its destination (R71 step 3). -/
def execMigrationMessage (s : State) : Out :=
  match s.msgs[s.sel]? with
  | some (.mig src core tid _) =>
    let s0 := s.dropMsg s.sel
    match s0.allocSlot core with
    | some i =>
      .next ((s0.setCtx (core * 16 + i) { Ctx.reset with state := .arriving, tid := tid }).send
        (.migAns src core (some (core * 16 + i)) tid))
    | none =>
      .next ((s0.listRefused core (BitVec.ofNat 32 (placeOf s.pkg src), tid)).send (.migAns src core none tid))
  | _ => .next s

/-- What a commit carries (R70): the source's registers; the release of the source core stands first among the records,
so that the context's accesses stay ordered across the move (R71 step 2). -/
def State.departing (s : State) (cx : Nat) : Ctx :=
  let c := s.ctx cx
  { Ctx.reset with
    g := c.g, h := c.h, p := c.p ||| 0x80, pc := wrapPc (c.pc + 4), stat := c.stat, tid := c.tid, tag := c.tag
    hunit := c.hunit, relp := c.relp, deleg := c.deleg
    recs := ⟨coreOf cx, s.relSig (coreOf cx)⟩ :: c.recs }

/-- A launch no longer counts a context that has committed a migration away (R328). -/
def State.countGone (s : State) (launch : Option Nat) (core : Nat) : State :=
  match launch with
  | some id =>
    { s with
      launches := s.launches.map fun l => if l.id = id then { l with live := tset core (tget 0 core l.live - 1) l.live } else l }
  | none => s

/-- The answer to a migration reaches its source (R71 steps 4 to 6). -/
def execMigrationAccept (s : State) : Out :=
  match s.msgs[s.sel]? with
  | some (.migAns src _ slot tid) =>
    let s0 := s.dropMsg s.sel
    let waits := (s0.ctx src).waits tid 1 &&
      (match (s0.ctx src).wait with | some w => (match w.i with | .mig _ => true | _ => false) | none => false)
    match slot with
    | some k =>
      if waits then
        .next (((s0.countGone (s0.ctx src).launch (coreOf src)).freeSlot src).send (.migCommit k (s0.departing src)))
      else .next (s0.send (.migAbort k tid))
    | none => if waits then .next ((s0.answered src 1).finish src 4 (fun c => c.setP 7 false)) else .next s0
  | _ => .next s

/-- What the package keeps about a context by its slot follows it (R239, R266). -/
def State.moveTid (s : State) (tid : BitVec 32) (dest : Nat) : State :=
  let m (x : Member) : Member := if x.tid = tid then { x with cx := dest } else x
  { s with
    objs := s.objs.map (fun e =>
      match e.2.holder with
      | some (_, t) => if t = tid then (e.1, { e.2 with holder := some (dest, tid) }) else e
      | none => e)
    groups := s.groups.map (fun g => { g with mems := g.mems.map m, pending := g.pending.map m }) }

/-- A commit reaches the arriving context: it becomes READY (R71 step 4, R84). From another core it comes with that
core's release; the L1 that it finds keeps no line that could be older than what the context has read (R207) (log 34). -/
def execMigrationCommit (s : State) : Out :=
  match s.msgs[s.sel]? with
  | some (.migCommit k d) =>
    let s0 := s.dropMsg s.sel
    let core := coreOf k
    let moved := (d.recs.take 1).filter (fun r => decide (r.core ≠ core))
    let s1 := if moved.isEmpty then s0 else (s0.applyRecs core moved).invalidateAll core
    .next ((s1.setCtx k { d with state := .ready, recs := d.recs.drop 1, tvec := (s0.ctx (core * 16)).tvec }).moveTid
      d.tid k)
  | _ => .next s

/-- An abort frees the arriving context (R71 step 5). -/
def execMigrationAbort (s : State) : Out :=
  match s.msgs[s.sel]? with
  | some (.migAbort k tid) =>
    let s0 := s.dropMsg s.sel
    if (s0.ctx k).state = .arriving ∧ (s0.ctx k).tid = tid then .next (s0.freeSlot k) else .next s0
  | _ => .next s

end Sys2Proof.Machine
end

