-- ==== Sys2Proof/Machine/Advance.lean ====
section
/-! DEFINITION. `Advance` of R102: the register fields of a body instruction that a repeat frame steps (R31), and the
instructions that may stand in a body (R32). Fields of a class of eight step modulo 8, of a class of sixteen modulo 16,
and mask registers modulo 4 (R128), by the width of the field. -/

namespace Sys2Proof.Machine

/-- One field: it steps by `n` when `fsel` selects its position. -/
def stepField {w : Nat} (on : Bool) (n : Nat) (x : BitVec w) : BitVec w := if on then x + BitVec.ofNat w n else x

/-- `Advance(w, s)`: `d`, `a` and `b` of the instruction are its destination and first and second source positions;
every instruction that no body may hold is left as it is. -/
def advanceInstr (fsel : BitVec 3) (n : Nat) (i : Instr) : Instr :=
  let d8 : Reg8 → Reg8 := stepField (bit fsel 2) n
  let dg : GReg → GReg := stepField (bit fsel 2) n
  let a8 : Reg8 → Reg8 := stepField (bit fsel 1) n
  let ag : GReg → GReg := stepField (bit fsel 1) n
  let b8 : Reg8 → Reg8 := stepField (bit fsel 0) n
  let bg : GReg → GReg := stepField (bit fsel 0) n
  match i with
  | .add d a b => .add (dg d) (ag a) (bg b)
  | .sub d a b => .sub (dg d) (ag a) (bg b)
  | .and d a b => .and (dg d) (ag a) (bg b)
  | .or d a b => .or (dg d) (ag a) (bg b)
  | .xor d a b => .xor (dg d) (ag a) (bg b)
  | .shl d a b => .shl (dg d) (ag a) (bg b)
  | .shr d a b => .shr (dg d) (ag a) (bg b)
  | .sar d a b => .sar (dg d) (ag a) (bg b)
  | .rol d a b => .rol (dg d) (ag a) (bg b)
  | .min d a b => .min (dg d) (ag a) (bg b)
  | .max d a b => .max (dg d) (ag a) (bg b)
  | .minn d a b => .minn (dg d) (ag a) (bg b)
  | .maxn d a b => .maxn (dg d) (ag a) (bg b)
  | .clz d a => .clz (dg d) (ag a)
  | .ctz d a => .ctz (dg d) (ag a)
  | .pop d a => .pop (dg d) (ag a)
  | .bfx d a b => .bfx (dg d) (ag a) (bg b)
  | .bfi d a b => .bfi (dg d) (ag a) (bg b)
  | .sel d a b c => .sel (dg d) (ag a) (bg b) c
  | .addi d a i => .addi (dg d) (ag a) i
  | .andi d a i => .andi (dg d) (ag a) i
  | .ori d a i => .ori (dg d) (ag a) i
  | .xori d a i => .xori (dg d) (ag a) i
  | .shli d a k9 => .shli (dg d) (ag a) k9
  | .shri d a k9 => .shri (dg d) (ag a) k9
  | .sari d a k9 => .sari (dg d) (ag a) k9
  | .bfxImm d a l w => .bfxImm (dg d) (ag a) l w
  | .bfiImm d a l w => .bfiImm (dg d) (ag a) l w
  | .lui d i => .lui (dg d) i
  | .cmp k d a b => .cmp k (d8 d) (ag a) (bg b)
  | .cmpi k d a i => .cmpi k (d8 d) (ag a) i
  | .mul d a b => .mul (dg d) (ag a) (bg b)
  | .mulh d a b => .mulh (dg d) (ag a) (bg b)
  | .mulhn d a b => .mulhn (dg d) (ag a) (bg b)
  | .div d a b => .div (dg d) (ag a) (bg b)
  | .divn d a b => .divn (dg d) (ag a) (bg b)
  | .rem d a b => .rem (dg d) (ag a) (bg b)
  | .remn d a b => .remn (dg d) (ag a) (bg b)
  | .fadd s r d a b => .fadd s r (d8 d) (a8 a) (b8 b)
  | .fsub s r d a b => .fsub s r (d8 d) (a8 a) (b8 b)
  | .fmul s r d a b => .fmul s r (d8 d) (a8 a) (b8 b)
  | .fma s r d a b c => .fma s r (d8 d) (a8 a) (b8 b) c
  | .fdiv s r d a b => .fdiv s r (d8 d) (a8 a) (b8 b)
  | .fsqrt s r d a => .fsqrt s r (d8 d) (a8 a)
  | .fmin s d a b => .fmin s (d8 d) (a8 a) (b8 b)
  | .fmax s d a b => .fmax s (d8 d) (a8 a) (b8 b)
  | .fcmp k s d a b => .fcmp k s (d8 d) (a8 a) (b8 b)
  | .fclass s d a => .fclass s (dg d) (a8 a)
  | .fcvtD2s r d a => .fcvtD2s r (d8 d) (a8 a)
  | .fcvtS2d d a => .fcvtS2d (d8 d) (a8 a)
  | .fcvtD2i r t d a => .fcvtD2i r t (dg d) (a8 a)
  | .fcvtS2i r t d a => .fcvtS2i r t (dg d) (a8 a)
  | .fcvtI2d r t d a => .fcvtI2d r t (d8 d) (ag a)
  | .fcvtI2s r t d a => .fcvtI2s r t (d8 d) (ag a)
  | .fmvgf d a => .fmvgf (d8 d) (ag a)
  | .fmvfg d a => .fmvfg (dg d) (a8 a)
  | .vadd r d a b m => .vadd r (d8 d) (a8 a) (b8 b) m
  | .vsub r d a b m => .vsub r (d8 d) (a8 a) (b8 b) m
  | .vmul r d a b m => .vmul r (d8 d) (a8 a) (b8 b) m
  | .vfma r d a b c m => .vfma r (d8 d) (a8 a) (b8 b) c m
  | .vmax d a b m => .vmax (d8 d) (a8 a) (b8 b) m
  | .vmin d a b m => .vmin (d8 d) (a8 a) (b8 b) m
  | .vabs d a m => .vabs (d8 d) (a8 a) m
  | .vneg d a m => .vneg (d8 d) (a8 a) m
  | .vand d a b m => .vand (d8 d) (a8 a) (b8 b) m
  | .vor d a b m => .vor (d8 d) (a8 a) (b8 b) m
  | .vxor d a b m => .vxor (d8 d) (a8 a) (b8 b) m
  | .vshl t d a b m => .vshl t (d8 d) (a8 a) (b8 b) m
  | .vshr t d a b m => .vshr t (d8 d) (a8 a) (b8 b) m
  | .vaddInt t d a b m => .vaddInt t (d8 d) (a8 a) (b8 b) m
  | .vsubInt t d a b m => .vsubInt t (d8 d) (a8 a) (b8 b) m
  | .vcmp k t d a b m => .vcmp k t (stepField (bit fsel 2) n d) (a8 a) (b8 b) m
  | .vsel d a b c m => .vsel (d8 d) (a8 a) (b8 b) c m
  | .vcvtF2h r d a b m => .vcvtF2h r (d8 d) (a8 a) (b8 b) m
  | .vcvtH2fl r d a m => .vcvtH2fl r (d8 d) (a8 a) m
  | .vcvtH2fh r d a m => .vcvtH2fh r (d8 d) (a8 a) m
  | .vcvtF2i r t d a m => .vcvtF2i r t (d8 d) (a8 a) m
  | .vcvtI2f r t d a m => .vcvtI2f r t (d8 d) (a8 a) m
  | .vdec d a k9 m => .vdec (d8 d) (a8 a) k9 m
  | .venc d a k9 m => .venc (d8 d) (a8 a) k9 m
  | .vdot d a b c m => .vdot (d8 d) (a8 a) (b8 b) c m
  | .vred o t d a m => .vred o t (d8 d) (a8 a) m
  | .vbfly d a b c m => .vbfly (d8 d) (a8 a) (b8 b) c m
  | .vtwid d a l m => .vtwid (d8 d) (a8 a) l m
  | j => j

/-- Whether a body may hold a word of this instruction (R32): majors 0x01–0x05, 0x07–0x0B, 0x19, 0x1A, 0x1D, and 0x1C
but for `ldtab`. -/
def bodyOk (w : IWord) (i : Instr) : Bool :=
  let op := bits w 31 26
  (decide (1 ≤ op) && decide (op ≤ 5)) || (decide (7 ≤ op) && decide (op ≤ 11)) || op == 0x19 || op == 0x1A || op == 0x1D
    || (op == 0x1C && (match i with | .ldtab _ | .ldtabQa | .ldtabQb => false | _ => true))

end Sys2Proof.Machine
end

