-- ==== Sys2Proof/Machine/Control.lean ====
section
/-! DEFINITION. Branches and jumps (R26, R100, R101) and the repeat frame (R102, R103). -/

namespace Sys2Proof.Machine

/-- A control transfer to `t` with an optional link; a target outside 57 bits faults on the transfer itself (R101). -/
def transfer (t : Word) (link : Option GReg) (s : State) : Out :=
  if t >>> 57 ≠ 0 then trap causeTranslation t s
  else
    .next (s.modMe fun c =>
      let c1 := match link with | some d => c.setG d (c.pc + 4) | none => c
      (c1.goto t).ready)

/-- A transfer to a computed target, whose alignment is checked first (R101). -/
def transferReg (t : Word) (link : Option GReg) (s : State) : Out :=
  if t &&& 3 ≠ 0 then trap causeMisaligned t s else transfer t link s

/-- `br` (R100). -/
def execBr (p : Reg8) (neg : Bool) (o : BitVec 22) (s : State) : Out :=
  if (s.me.pr p).xor neg then transfer (s.me.pc + offWords o) none s else retire id s

/-- `jmp` (R100). -/
def execJmp (o : BitVec 22) (s : State) : Out := transfer (s.me.pc + offWords o) none s

/-- `jal` (R100). -/
def execJal (d : GReg) (o : BitVec 22) (s : State) : Out := transfer (s.me.pc + offWords o) (some d) s

/-- `jr` (R100, R101). -/
def execJr (a : GReg) (i : BitVec 18) (s : State) : Out := transferReg (s.me.gr a + offWords i) none s

/-- `jalr` (R100, R101). -/
def execJalr (d a : GReg) (i : BitVec 18) (s : State) : Out := transferReg (s.me.gr a + offWords i) (some d) s

/-- The first body word that may not stand in a body (R29, R32). -/
def badBodyWord (l : List IWord) : Option IWord :=
  l.find? fun w =>
    match decodeWord w ⟨0, 0, 0, 0⟩ with
    | .ok i => !bodyOk w i
    | .error _ => true

/-- The frame begins, or resumes, with count `n`, trip `k` and index `i` (R102). -/
def Ctx.enterFrame (fr : Frame) (n : BitVec 32) (k i : Nat) (c : Ctx) : Ctx :=
  let (k, i) := if fr.len < i then (k + 1, 0) else (k, i)
  if k < n.toNat then
    { c with rcnt := n, stat := setFrameState k true i c.stat, frame := some fr, resume := false }
  else
    { c with
      rcnt := n, stat := setFrameState 0 false 0 c.stat, frame := none, resume := false
      pc := wrapPc (fr.addr + BitVec.ofNat 64 (4 * (fr.len + 2))) }

/-- `rpt` with the count that a new frame takes (R102). The whole body is fetched before its words are judged, so that a
body with a disallowed word and a later word whose fetch traps takes the fetch's trap: R29, R32 and R102 give both traps on
the `rpt` and no order (DESIGN CHOICE, log 66). -/
def startFrame (len : BitVec 4) (stride fsel : BitVec 3) (n : BitVec 32) (s : State) : Out :=
  let a := s.me.pc
  match s.fetchWords s.cur (a + 4) (len.toNat + 1) with
  | .trap c v => trap c v s
  | .miss v => .next (s.fetchWait s.cur v)
  | .ok body s1 =>
    match badBodyWord body with
    | some w => trap causeIllegal (zext w) s1
    | none =>
      let fr : Frame := { addr := a, len := len.toNat, stride := stride.toNat, fsel := fsel, body := body }
      .next (s1.modMe fun c =>
        let (n, k, i) :=
          if c.resume ∧ statRFA c.stat then (c.rcnt, statTRIP c.stat, statRIDX c.stat) else (n, 0, 0)
        (c.enterFrame fr n k i).ready)

/-- `rpt` with an immediate count (R31, R102). -/
def execRpt (len : BitVec 4) (stride fsel : BitVec 3) (cnt : BitVec 15) (s : State) : Out :=
  startFrame len stride fsel (cnt.setWidth 32) s

/-- `rpt` with its count in a register (R31, R102). -/
def execRptReg (len : BitVec 4) (stride fsel : BitVec 3) (g : GReg) (s : State) : Out :=
  startFrame len stride fsel ((s.me.gr g).setWidth 32) s

end Sys2Proof.Machine
end

