-- ==== Sys2Proof/Machine/Fleeting.lean ====
section
/-! DEFINITION. Fleeting memory: tiles, births and expiry at their homes, regions, and the instructions (R293–R304). A
tile's number is its die × 131,072 + its tile number, which is the location of its first byte, counted from the first
fleeting byte, divided by 4,096; a region's 16 home copies are kept under its tiles' numbers (R294). -/

namespace Sys2Proof.Machine

/-- The region record at the home of a tile (R294). -/
def State.region (s : State) (t : Nat) : RegionRec := tget RegionRec.reset t s.regions

/-- `RegionLife(T, P)` (R295). -/
def State.regionLife (s : State) (t part : Nat) : Nat :=
  if (s.region t).part = some part then (s.region t).life else 256

/-- `Birth(T, P)` (R295). -/
def State.birth (s : State) (t part : Nat) : State :=
  { s with
    mem := memClear s.mem (tileLoc t) 4096
    tiles := tset t { birth := s.now, tlife := s.regionLife t part, tpart := part, dead := false } s.tiles }

/-- `fdrop` (R302, R304). -/
def State.dropTile (s : State) (t : Nat) : State :=
  { s with tiles := tset t { s.tile t with dead := true } s.tiles }

/-- A fleeting read at its home: the value, whether the tile was expired, and whether it found lasting bad data (R297,
R301). -/
def State.fleetRead (s : State) (locs : List Nat) (tid : BitVec 32) (part : Nat) : State × Nat × Bool × Bool :=
  if s.expired (tileOf (locs.headD 0)) part then (s, 0, true, false)
  else
    let (s1, bad) := s.readCheck locs tid part
    (s1, s1.rd locs, false, bad)

/-- A fleeting write at its home: an expired tile is born first, unless its region is retired; the first flag says that
there was a birth, the second that it was refused (R301, R396). -/
def State.fleetWrite (s : State) (locs : List Nat) (part v : Nat) : State × Bool × Bool :=
  let t := tileOf (locs.headD 0)
  if s.expired t part then
    if s.tileRetired t then (s, false, true) else ((s.birth t part).storeAt locs v, true, false)
  else (s.storeAt locs v, false, false)

/-- The issue-time checks of R300, then the request to the tile's home. -/
def fleetAccess (i : Instr) (ea : Word) (n : Nat) (k : AccKind) (vals : List Nat) (s : State) : Out :=
  if ea.toNat % n ≠ 0 then trap causeMisaligned ea s
  else if !inFleet ea then trap causeProtection ea s
  else withLoc i ea k s fun l => .next (s.ask 1 (s.mkReq i ea l n vals none))

/-- `ldf` at the home (R301): the value and whether the tile was expired. -/
def homeLdf (r : Req) (s : State) : HomeOut :=
  let (s1, v, e, bad) := s.fleetRead r.locs r.tid r.part
  if bad then (s1, some (r.fail causeData)) else (s1, some (r.reply [v, e.toNat]))

/-- The end of `ldf`. -/
def endLdf (z : Sz) (sx : Bool) (d : GReg) (c : Reg8) : Reply → State → State :=
  finishWith (fun rep x => (x.setG d (extend z sx rep.val)).setP c (decide (rep.at_ 1 = 1)))

/-- `ldf` (R299–R301). -/
def execLdf (z : Sz) (sx : Bool) (d a : GReg) (c : Reg8) (s : State) : Out :=
  fleetAccess (.ldf z sx d a c) (s.me.gr a) (szBytes z) .load [] s

/-- `ldf` with an index (R299–R301). -/
def execLdfIndexed (z : Sz) (sx : Bool) (d a b : GReg) (c : Reg8) (s : State) : Out :=
  fleetAccess (.ldfIndexed z sx d a b c) (s.me.gr a + s.me.gr b) (szBytes z) .load [] s

/-- `stf` at the home (R301). -/
def homeStf (r : Req) (s : State) : HomeOut :=
  let (s1, _, refused) := s.fleetWrite r.locs r.part (r.vals.headD 0)
  if refused then (s, some (r.fail causeData)) else (s1, some (r.reply []))

/-- The end of a fleeting instruction without a result. -/
def endFleet : Reply → State → State := finishWith (fun _ c => c)

/-- `stf` (R299–R301). -/
def execStf (z : Sz) (d a : GReg) (s : State) : Out :=
  fleetAccess (.stf z d a) (s.me.gr a) (szBytes z) .store [(s.me.gr d).toNat] s

/-- `stf` with an index (R299–R301). -/
def execStfIndexed (z : Sz) (d a b : GReg) (s : State) : Out :=
  fleetAccess (.stfIndexed z d a b) (s.me.gr a + s.me.gr b) (szBytes z) .store [(s.me.gr d).toNat] s

/-- `rnw` at the home (R302). -/
def homeRnw (r : Req) (s : State) : HomeOut :=
  let t := tileOf (r.locs.headD 0)
  if s.expired t r.part then
    if s.tileRetired t then (s, some (r.fail causeData)) else (s.birth t r.part, some (r.reply [0]))
  else
    let (s1, bad) := s.readCheck ((List.range 64).map (fun i => tileLoc t + 64 * i)) r.tid r.part
    if bad then (s1.dropTile t, some (r.fail causeData))
    else
      ({ s1 with
          tiles := tset t { s1.tile t with birth := s1.now, tlife := s1.regionLife t r.part } s1.tiles },
        some (r.reply [1]))

/-- `rnw` (R299, R300, R302). -/
def execRnw (d a : GReg) (s : State) : Out := fleetAccess (.rnw d a) (s.me.gr a) 1 .store [] s

/-- `life` at the home (R302), in the partition's time resolution. -/
def homeLife (r : Req) (s : State) : HomeOut :=
  let t := tileOf (r.locs.headD 0)
  if s.expired t r.part then (s, some (r.reply [0]))
  else
    let x := (s.tile t).birth + 16000 * (s.tile t).tlife - s.now
    (s, some (r.reply [if (s.part r.part).tres then x / 1000 * 1000 else x]))

/-- `life` (R299, R300, R302). -/
def execLife (d a : GReg) (s : State) : Out := fleetAccess (.life d a) (s.me.gr a) 1 .load [] s

/-- `fdrop` at the home (R302). -/
def homeFdrop (r : Req) (s : State) : HomeOut := (s.dropTile (tileOf (r.locs.headD 0)), some (r.reply []))

/-- `fdrop` (R299, R300, R302). -/
def execFdrop (a : GReg) (s : State) : Out := fleetAccess (.fdrop a) (s.me.gr a) 1 .store [] s

/-- `life.set` at one of the region's 16 homes (R303). -/
def homeLifeSet (r : Req) (s : State) : HomeOut :=
  ({ s with regions := tset (tileOf (r.locs.headD 0)) { life := r.vals.headD 256, part := some r.part } s.regions },
    some (r.reply []))

/-- An acknowledgement of `life.set`; the last of the 16 completes it (R303). -/
def endLifeSet (rep : Reply) (s : State) : State :=
  match (s.ctx rep.cx).wait with
  | some w =>
    if w.acks ≤ 1 then s.finish rep.cx 4 id
    else s.modCtx rep.cx (fun c => { c with wait := some { w with acks := w.acks - 1 } })
  | none => s

/-- The request of `life.set` to the home of tile `k` of its region. -/
def State.lifeReq (s : State) (i : Instr) (ea : Word) (die off v k : Nat) : Req :=
  s.mkReq i ea (.fleet die (off / 65536 * 65536 + k * 4096)) 1 [v] none

/-- `life.set` (R299, R300, R303). -/
def execLifeSet (a b : GReg) (s : State) : Out :=
  let ea := s.me.gr a
  let v := (s.me.gr b).toNat
  let i : Instr := .lifeSet a b
  if !inFleet ea then trap causeProtection ea s
  else
    withLoc i ea .store s fun l =>
      if v < 1 ∨ 256 < v then illegal i s
      else
        match l with
        | .fleet die off =>
          .next ((s.block s.cur 1 (mkWait i 1 16 (wrapPc (s.me.pc + 4)))).sendAll
            ((List.range 16).map (fun k => .req (s.lifeReq i ea die off v k))))
        | _ => trap causeProtection ea s

/-- Tile `State.sel` expires: a write of zeros to every byte (R304). -/
def execTileExpiry (s : State) : Out :=
  if s.tileOver s.sel ∧ (s.tile s.sel).dead = false then
    .next { s.dropTile s.sel with mem := memClear s.mem (tileLoc s.sel) 4096 }
  else .next s

end Sys2Proof.Machine
end

