-- ==== Sys2Proof/Machine/Sync.lean ====
section
/-! DEFINITION. The synchronisation-object instructions and their events (R222–R241, R289). -/

namespace Sys2Proof.Machine

/-- SO table entries of a core and of a Cupola slice (R155, R279). -/
def soEntries : Home → Nat
  | .core _ => 16
  | _ => 256

/-- The home of a line of the scratchpads or Cupola. -/
def lineHome (line : Nat) : Home :=
  let l := line * 64
  if isScratchLoc l then .core ((l - 2 ^ 44) / 65536)
  else .cupola ((l - 2 ^ 42) / 2 ^ 26) (nbits (l - 2 ^ 42) 15 12)

/-- Whether a new object gets a table entry (R224). -/
def State.soRoom (s : State) (home : Home) (part : Nat) : Bool :=
  let here := s.objs.filter (fun e => e.2.tab && decide (lineHome e.1 = home))
  decide (here.length < soEntries home) &&
    (match home with
     | .core _ => true
     | _ => decide ((here.filter (fun e => e.2.part == part)).length < polTCAP (s.part part).sopol))

/-- The issue-time checks of R236, then the request. -/
def objAccess (i : Instr) (a : GReg) (vals : List Nat) (sig : Option (Sig × Scope)) (home : Req → State → HomeOut)
    (fin : Reply → State → State) (s : State) : Out :=
  let x := s.me.gr a
  if x.toNat % 64 ≠ 0 then trap causeMisaligned x s
  else if !(inScratch s.myCore x || inCupola x) then trap causeProtection x s
  else
    withLoc i x .store s fun l => access 5 (s.mkReq i x l 64 vals sig) l .store home fin s

/-- The signature that a release of an object instruction forms at issue (R234). -/
def State.objSig (s : State) : Option (Sig × Scope) := some (s.relSig s.myCore, .lane)

/-- The object of a request, if its kind is accepted (R236 item 4). -/
def withObj (r : Req) (ok : SoKind → Bool) (s : State) (k : Nat → SObj → State → HomeOut) : HomeOut :=
  let line := (r.locs.headD 0) / 64
  match s.obj? line with
  | some o => if ok o.kind then k line o s else (s, some (r.fail causeProtection))
  | none => (s, some (r.fail causeProtection))

/-- An illegal-instruction trap that the home raises (R240). -/
def Req.illegal (r : Req) : Reply := { r.reply [] with trap := some (causeIllegal, wordOf r.i) }

/-- A release at an object's scope: at `.pkg` and above the issuing core writes back first, and the request waits until
those writes are acknowledged (R234). -/
def withObjRelease (r : Req) (o : SObj) (s : State) (k : Sig → State → HomeOut) : HomeOut :=
  let g := match r.sig with | some (g, _) => g | none => 0
  if scopeGe o.scope .pkg then
    let core := coreOf r.cx
    let s1 := s.writeBackAll core
    if s1.writesQueued core (fun _ => true) then
      (s1.askDrain ((s.partOf core).getD 0) (.req r) ⟨core, BitVec.allOnes 256⟩, none)
    else k g s1
  else k g s

/-- A reply with the acquire that it carries. -/
def Req.replySig (r : Req) (vals : List Nat) (g : Sig) : Reply := { r.reply vals with recs := [⟨coreOf r.cx, g⟩] }

/-- What a wake or a delegated reply on its way from an object to a context brings: the signature, the value and the
status, 1 for a delegated reply. -/
def wakeOf (line cx : Nat) (tid : BitVec 32) (m : Msg) : Option (Sig × Word × Word) :=
  match m with
  | .soWake x t l g _ v st => if x = cx ∧ t = tid ∧ l = line then some (g, v, st) else none
  | .delegated x t l g _ v _ _ => if x = cx ∧ t = tid ∧ l = line then some (g, v, 1) else none
  | _ => none

/-- A request whose TID already holds a ticket or an owed wake here, is being served, or has a wake on its way, is answered
from it (R226, R281). -/
def answered? (r : Req) (line : Nat) (o : SObj) (s : State) : Option HomeOut :=
  match o.owed.find? (fun w => w.1.tid == r.tid && w.1.cx == r.cx) with
  | some (t, g, v, st) =>
    let o1 : SObj := { o with owed := o.owed.filter (fun w => !(w.1.tid == t.tid && w.1.cx == t.cx)) }
    some ({ s with objs := tset line o1 s.objs }, some (r.replySig [v.toNat, st.toNat] g))
  | none =>
    match s.msgs.findSome? (wakeOf line r.cx r.tid) with
    | some (g, v, st) =>
      some ({ s with msgs := s.msgs.filter (fun m => (wakeOf line r.cx r.tid m).isNone) },
        some (r.replySig [v.toNat, st.toNat] g))
    | none =>
      if (o.tickets ++ o.serving.toList).any (fun t => t.tid == r.tid && t.cx == r.cx) then some (s, none) else none

/-- The end of an instruction that carries an acquire of the object's signature (R234). -/
def State.endObjAcquire (s : State) (cx : Nat) (i : Instr) (next : Word) (g : Sig) (f : Ctx → Ctx) : State :=
  (s.modCtx cx f).startAcquireSig cx i next g

/-- The signature that a reply brings. -/
def Reply.sig (r : Reply) : Sig := match r.recs with | x :: _ => x.sig | [] => 0

/-- Runs `k` on a reply that is no trap. -/
def onReply (rep : Reply) (s : State) (k : State → State) : State :=
  match rep.trap with
  | some (c, v) => s.trapCtx rep.cx c v
  | none => k s

-- sinit, sfin, smode

/-- `sinit` at the home (R237): clears the line. DESIGN CHOICE: a new object takes the policy that SOPOL holds then
(log 86). -/
def homeSinit (k : SoKind) (sc : Scope) (r : Req) (s : State) : HomeOut :=
  let line := (r.locs.headD 0) / 64
  let x := r.vals.headD 0
  let n := match k with | .lock => 1 | .bar => nbits x 15 0 | .ring => nbits x 4 0
  if (s.obj? line).isSome then (s, some (r.reply [2]))
  else if n = 0 ∨ (k = .ring ∧ 16 < n) then (s, some (r.reply [3]))
  else
    let tab := s.soRoom r.home r.part
    let xb := decide (k = .bar) && x.testBit 16
    let s1 := s.storeAt r.locs 0
    ({ s1 with objs := tset line (SObj.make r.part k tab sc n xb (s.part r.part).sopol s.now) s1.objs },
      some (r.reply [if tab then 0 else 1]))

/-- The end of an instruction that writes one value into g[d]. -/
def endG (d : GReg) : Reply → State → State := finishWith (fun rep c => c.setG d (BitVec.ofNat 64 rep.val))

/-- `sinit` (R235, R237). -/
def execSinit (k : SoKind) (sc : Scope) (d a : GReg) (s : State) : Out :=
  objAccess (.sinit k sc d a) a [(s.me.gr d).toNat] none (homeSinit k sc) (endG d) s

/-- `sfin` at the home (R238). -/
def homeSfin (r : Req) (s : State) : HomeOut :=
  withObj r (fun _ => true) s fun line o s =>
    if o.idle then ({ s with objs := tdel line s.objs }, some (r.reply [1])) else (s, some (r.reply [0]))

/-- The end of an instruction that writes p[d]. -/
def endP (d : Reg8) : Reply → State → State := finishWith (fun rep c => c.setP d (decide (rep.val = 1)))

/-- `sfin` (R235, R238). -/
def execSfin (d : Reg8) (a : GReg) (s : State) : Out := objAccess (.sfin d a) a [] none homeSfin (endP d) s

/-- `smode` at the home (R223, R241): 0 for a line that is no object. DESIGN CHOICE: neither an `smode` nor an `sfin` that
fails is a request that can switch a mode, although R228 speaks of "a performed request": they leave the object as it is
(R238, R241; log 72). -/
def homeSmode (r : Req) (s : State) : HomeOut :=
  match s.obj? ((r.locs.headD 0) / 64) with
  | some o => (s, some (r.reply [o.descriptor.toNat]))
  | none => (s, some (r.reply [0]))

/-- `smode` (R235, R241). -/
def execSmode (d a : GReg) (s : State) : Out := objAccess (.smode d a) a [] none homeSmode (endG d) s

-- Locks

/-- Whether a kind is LOCK. -/
def isLock (k : SoKind) : Bool := decide (k = .lock)

/-- Whether `SRET` of a context forbids its `slock.call` (R239): it is valid, and was not left by this same instruction
before a pre-emption. -/
def Ctx.inSection (c : Ctx) (lock : Word) : Bool :=
  c.sret.isSome && !(c.reissue && decide (c.sret = some (wrapPc (c.pc + 4), lock)))

/-- `slock` at the home (R239): granted at once, or a ticket. -/
def homeSlock (r : Req) (s : State) : HomeOut :=
  withObj r isLock s fun line o s =>
    match answered? r line o s with
    | some h => h
    | none =>
      let (o1, granted) := o.lockReq r.cx r.tid .lock
      ({ s with objs := tset line o1 s.objs }, if granted then some (r.replySig [0, 0] o.sig) else none)

/-- `slock.call` at the home (R239): the tests that follow the check of the object, and then as `slock`. It leaves its
return in `SRET`. -/
def homeSlockCall (kind : TKind) (r : Req) (s : State) : HomeOut :=
  withObj r isLock s fun line o s =>
    let here := decide ((s.ctx r.cx).tid = r.tid)
    if here && (s.ctx r.cx).inSection r.va then (s, some (r.fail causeProtection))
    else if r.vals.headD 0 % 4 ≠ 0 then
      (s, some { r.reply [] with trap := some (causeMisaligned, BitVec.ofNat 64 (r.vals.headD 0)) })
    else
      match answered? r line o s with
      | some h => h
      | none =>
        let s1 := if here then s.modCtx r.cx (fun c => { c with sret := some (wrapPc (c.pc + 4), r.va) }) else s
        let (o1, granted) := o.lockReq r.cx r.tid kind
        ({ s1 with objs := tset line o1 s1.objs }, if granted then some (r.replySig [0, 0] o.sig) else none)

/-- The end of a `slock` on its grant. -/
def endSlock (a : GReg) (rep : Reply) (s : State) : State :=
  onReply rep s fun s => s.endObjAcquire rep.cx (.slock a) (wrapPc ((s.ctx rep.cx).pc + 4)) rep.sig id

/-- `slock` (R239). -/
def execSlock (a : GReg) (s : State) : Out :=
  objAccess (.slock a) a [] none homeSlock (endSlock a) s

/-- A `slock.call` ends (R239): the requester runs its own section, whose address faults as that of a jump (R101), or the
delegated reply `v` came. -/
def State.endCall (s : State) (cx : Nat) (i : Instr) (g : Sig) (reply : Option Word) : State :=
  match i, reply, (s.ctx cx).sret with
  | .slockCall _ _, some v, some (ret, _) =>
    s.endObjAcquire cx i ret g (fun c => { (c.setG 0 v) with sret := none, run := [] })
  | .slockCall d _, none, _ => s.endObjAcquire cx i ((s.ctx cx).gr d) g (fun c => { c with run := [] })
  | _, _, _ => s

/-- The end of a `slock.call` on its grant, or on a delegated reply that was owed to it (R239, R281). -/
def endSlockCall (d a : GReg) (rep : Reply) (s : State) : State :=
  onReply rep s fun s =>
    s.endCall rep.cx (.slockCall d a) rep.sig (if rep.at_ 1 = 1 then some (BitVec.ofNat 64 rep.val) else none)

/-- The ticket that a `slock.call` asks for. -/
def callKind (vals : List Nat) : TKind :=
  let w (i : Nat) : Word := BitVec.ofNat 64 (vals.getD i 0)
  .call (w 0) (w 1) (w 2) (w 3) (w 4)

/-- `slock.call` (R229, R239). -/
def execSlockCall (d a : GReg) (s : State) : Out :=
  let vals := [(s.me.gr d).toNat, (s.me.gr 0).toNat, (s.me.gr 1).toNat, (s.me.gr 2).toNat, (s.me.gr 3).toNat]
  objAccess (.slockCall d a) a vals none (homeSlockCall (callKind vals)) (endSlockCall d a) s

/-- `sunlk` at the home (R230, R239): the reply's values are the scope, whether a delegated request follows, the line, and
then that request's routine, registers and requester (log 32). -/
def homeSunlk (r : Req) (s : State) : HomeOut :=
  withObj r isLock s fun line o s =>
    match o.holder with
    | some (_, t) =>
      if t ≠ r.tid then (s, some (r.fail causeProtection))
      else
        withObjRelease r o s fun g s1 =>
          let (o1, w, u) := o.unlock g
          let s2 := s1.putObj line (o1, w)
          match u with
          | .released => (s2, some (r.replySig [scopeNum o.scope, 0, line] g))
          | .divert t =>
            match t.kind with
            | .call rt g0 g1 g2 g3 =>
              (s2, some (r.replySig [scopeNum o.scope, 1, line, rt.toNat, g0.toNat, g1.toNat, g2.toNat, g3.toNat, t.cx,
                t.tid.toNat] g))
            | _ => (s2, some (r.replySig [scopeNum o.scope, 0, line] g))
    | none => (s, some (r.fail causeProtection))

/-- The end of a `sunlk` (R229, R230, R239): it closes the delegated section of the same lock, or its own, and starts the
next delegated request that the home handed over, whose routine's address may fault (R101), or goes on. -/
def endSunlk (a : GReg) (rep : Reply) (s : State) : State :=
  onReply rep s fun s =>
    let c := s.ctx rep.cx
    let w (i : Nat) : Word := BitVec.ofNat 64 (rep.at_ i)
    let own := match c.sret with | some (_, lk) => decide (lk = c.gr a) | none => false
    let cont0 := match c.sret with | some (ret, _) => if own then ret else wrapPc (c.pc + 4) | none => wrapPc (c.pc + 4)
    let sret1 := if own then none else c.sret
    -- a delegated section closes: its requester gets g0, the owner its registers
    let (s1, c1, cont, sret0, at_) :=
      match c.deleg.find? (fun d => d.obj == rep.at_ 2) with
      | some d =>
        (s.send (.delegated d.reqCx d.reqTid d.obj rep.sig (scopeOfNum (rep.at_ 0)) (c.gr 0) (coreOf rep.cx) c.tag),
          ({ ((((c.setG 0 d.g0).setG 1 d.g1).setG 2 d.g2).setG 3 d.g3) with deleg := c.deleg.erase d } : Ctx),
          d.cont, d.sret, d.at_)
      | none => (s, { c with sret := sret1 }, cont0, c.sret, c.pc)
    if rep.at_ 1 = 1 then
      let d : Delegated :=
        { obj := rep.at_ 2, g0 := c1.gr 0, g1 := c1.gr 1, g2 := c1.gr 2, g3 := c1.gr 3, cont := cont, sret := sret0,
          at_ := at_, reqCx := rep.at_ 8, reqTid := BitVec.ofNat 32 (rep.at_ 9) }
      (s1.setCtx rep.cx
        { ((((c1.setG 0 (w 4)).setG 1 (w 5)).setG 2 (w 6)).setG 3 (w 7)) with
          deleg := d :: c1.deleg, run := [], frame := none }).goTo rep.cx (w 3)
    else
      let c2 : Ctx := if cont = wrapPc (c.pc + 4) then { c1 with pc := cont } else c1.goto cont
      s1.setCtx rep.cx c2.ready

/-- The object at an address of the current context, if its translation is at hand. -/
def State.objectAt (s : State) (x : Word) : Option (Nat × SObj) :=
  match s.find (.ctx s.cur s.me.tid) s.myCore s.myPart x .load with
  | .ok l => let line := (bytesOf l 1).headD 0 / 64; (s.obj? line).map (fun o => (line, o))
  | _ => none

/-- Whether a `sunlk` of the current context reads a pending token in `g0`–`g3` (R59): of the lock's owner in OWNER mode, or
where it closes a delegated section (R230). -/
def State.sunlkPending (s : State) (a : GReg) : Bool :=
  [0, 1, 2, 3].any (fun r => s.me.pend.getLsbD r) &&
    match s.objectAt (s.me.gr a) with
    | some (line, o) =>
      decide (o.kind = .lock ∧ o.holder = some (s.cur, s.me.tid))
        && (decide (o.mode = modeOWNER) || s.me.deleg.any (fun d => d.obj == line))
    | none => false

/-- `sunlk` (R230, R239). -/
def execSunlk (a : GReg) (s : State) : Out :=
  if s.sunlkPending a then .next (s.hold s.cur 6 (.sunlk a))
  else objAccess (.sunlk a) a [] s.objSig homeSunlk (endSunlk a) s

-- Barriers and rings

/-- Whether a kind is BARRIER or RING. -/
def isBarRing (k : SoKind) : Bool := decide (k ≠ .lock)
/-- Whether a kind is RING. -/
def isRing (k : SoKind) : Bool := decide (k = .ring)
/-- Whether a kind is BARRIER. -/
def isBar (k : SoKind) : Bool := decide (k = .bar)

/-- A push at the home (R233, R240). -/
def homePush (d : GReg) (eos : Bool) (r : Req) (line : Nat) (o : SObj) (s : State) : HomeOut :=
  let prod := nbits (r.vals.getD 1 0) 3 0
  if 14 < d.toNat then (s, some r.illegal)
  else
    match answered? r line o s with
    | some (s1, rep) => (s1, rep.map (fun x => { x with vals := [0, 1] }))
    | none =>
      if o.prods ≤ prod ∨ o.eosSeen prod then (s, some (r.fail causeProtection))
      else
        withObjRelease r o s fun g s1 =>
          let it : RItem :=
            { val := if eos then 0 else BitVec.ofNat 64 (r.vals.headD 0), prod := prod, eos := eos, sig := g }
          let (o1, w, done) := o.push r.cx r.tid it
          (s1.putObj line (o1, w), if done then some (r.reply [0, 1]) else none)

/-- `sarr` at the home (R232, R233, R240): the values are the phase, and 1 for a ring. -/
def homeSarr (d : GReg) (r : Req) (s : State) : HomeOut :=
  withObj r isBarRing s fun line o s =>
    if o.kind = .bar then
      withObjRelease r o s fun g s1 =>
        let (o1, w, ph) := o.arrive s.now g
        (s1.putObj line (o1, w), some (r.reply [ph, 0]))
    else homePush d false r line o s

/-- The end of an `sarr`: a barrier's phase number goes to g[d]. -/
def endSarr (d : GReg) : Reply → State → State :=
  finishWith (fun rep c => if rep.at_ 1 = 1 then c else c.setG d (BitVec.ofNat 64 rep.val))

/-- The values that a push reads: g[d] and g[d + 1]. -/
def State.pushVals (s : State) (d : GReg) : List Nat := [(s.me.gr d).toNat, (s.me.gr (d + 1)).toNat]

/-- Whether a push of the current context to a ring reads a pending token in g[d + 1] (R59, R240). -/
def State.pushPending (s : State) (d a : GReg) : Bool :=
  decide (d.toNat ≤ 14) && s.me.pend.getLsbD (d.toNat + 1) &&
    (s.objectAt (s.me.gr a)).any (fun e => decide (e.2.kind = .ring))

/-- `sarr` (R240). -/
def execSarr (d a : GReg) (s : State) : Out :=
  if s.pushPending d a then .next (s.hold s.cur 6 (.sarr d a))
  else
  objAccess (.sarr d a) a (s.pushVals d) s.objSig (homeSarr d) (endSarr d) s

/-- `sarr.eos` at the home (R233, R240). -/
def homeSarrEos (d : GReg) (r : Req) (s : State) : HomeOut :=
  withObj r isRing s fun line o s => homePush d true r line o s

/-- `sarr.eos` (R240). -/
def execSarrEos (d a : GReg) (s : State) : Out :=
  objAccess (.sarrEos d a) a (s.pushVals d) s.objSig (homeSarrEos d) (finishWith (fun _ c => c)) s

/-- `sexp` at the home (R232, R240). -/
def homeSexp (r : Req) (s : State) : HomeOut :=
  withObj r isBar s fun line o s =>
    let k := r.vals.headD 0
    if 2 ^ 31 ≤ k then (s, some r.illegal)
    else if !o.xb then (s, some (r.fail causeProtection))
    else (s.putObj line (o.expect k, []), some (r.reply []))

/-- `sexp` (R240). -/
def execSexp (d a : GReg) (s : State) : Out :=
  objAccess (.sexp d a) a [(s.me.gr d).toNat] none homeSexp (finishWith (fun _ c => c)) s

/-- `swait` at the home (R232, R233, R240): the values are the status or item, the ring status, and 1 for a ring. -/
def homeSwait (d : GReg) (r : Req) (s : State) : HomeOut :=
  withObj r isBarRing s fun line o s =>
    if o.kind = .bar then
      match answered? r line o s with
      | some h => h
      | none =>
        let (o1, a) := o.await r.cx r.tid (r.vals.headD 0)
        match a with
        | some (st, g) => ({ s with objs := tset line o1 s.objs }, some (r.replySig [st.toNat, 0, 0] g))
        | none => ({ s with objs := tset line o1 s.objs }, none)
    else if 14 < d.toNat then (s, some r.illegal)
    else
      match answered? r line o s with
      | some (s1, some rep) => (s1, some { rep with vals := rep.vals ++ [1] })
      | some h => h
      | none =>
        let (o1, w, a) := o.pop r.cx r.tid
        match a with
        | some (v, st, g) => (s.putObj line (o1, w), some (r.replySig [v.toNat, st.toNat, 1] g))
        | none => (s.putObj line (o1, w), none)

/-- What a `swait` writes: a barrier's status, or a ring's item and status. -/
def swaitRegs (d : GReg) (ring : Bool) (v st : Word) (c : Ctx) : Ctx :=
  if ring then (c.setG d v).setG (d + 1) st else c.setG d v

/-- The end of a `swait` with its acquire (R234). -/
def endSwait (d a : GReg) (rep : Reply) (s : State) : State :=
  onReply rep s fun s =>
    s.endObjAcquire rep.cx (.swait d a) (wrapPc ((s.ctx rep.cx).pc + 4)) rep.sig
      (swaitRegs d (decide (rep.at_ 2 = 1)) (BitVec.ofNat 64 (rep.at_ 0)) (BitVec.ofNat 64 (rep.at_ 1)))

/-- `swait` (R240). -/
def execSwait (d a : GReg) (s : State) : Out :=
  objAccess (.swait d a) a [(s.me.gr d).toNat] none (homeSwait d) (endSwait d a) s

-- Wakes

/-- Whether a context waits at an object under a TID. -/
def Ctx.waitsOn (c : Ctx) (tid : BitVec 32) (line : Nat) : Bool :=
  c.waits tid 1 && (match c.wait with | some w => w.val.toNat / 64 == line | none => false)

/-- A wake of an object reaches its context (R226, R234): a grant, a phase completion, an item, or room for a push. -/
def State.wake (s : State) (cx : Nat) (tid : BitVec 32) (line : Nat) (ring : Bool) (g : Sig) (v st : Word) : State :=
  let c := s.ctx cx
  if c.waitsOn tid line then
    match c.wait with
    | some w =>
      let next := wrapPc (c.pc + 4)
      match w.i with
      | .slock _ => s.endObjAcquire cx w.i next g id
      | .slockCall _ _ => s.endCall cx w.i g none
      | .swait d _ => s.endObjAcquire cx w.i next g (swaitRegs d ring v st)
      | .sarr _ _ | .sarrEos _ _ => s.finish cx 4 id
      | _ => s
    | none => s
  else s

/-- A wake, or a delegated reply, for a context that does not wait for it at the moment is kept at the object until its
instruction is issued again (R226, R281). -/
def State.oweWake (s : State) (line cx : Nat) (tid : BitVec 32) (g : Sig) (v st : Word) : State :=
  match s.obj? line with
  | some o =>
    let t : Ticket := { num := 0, cx := cx, tid := tid, kind := .lock, polling := false }
    { s with objs := tset line { o with owed := o.owed ++ [(t, g, v, st)] } s.objs }
  | none => s

/-- Whether a context waits at an object, and no request of it is still on its way there. -/
def State.waitsAt (s : State) (cx : Nat) (tid : BitVec 32) : Bool := (s.ctx cx).waits tid 1 && !s.asking cx tid

/-- Whether a wake is owed to a context that does not wait for it: its partition is out, or it has been restored and has
not come back to the object yet (R226, R281). -/
def State.owedLater (s : State) (line cx : Nat) (tid : BitVec 32) : Bool :=
  (match s.obj? line with | some o => s.partOut o.part | none => false)
    || decide ((s.ctx cx).tid = tid) && ((s.ctx cx).reissue || s.asking cx tid)

/-- The reply to a delegated requester: the message at `State.sel` (R229, R230). -/
def execDelegatedReply (s : State) : Out :=
  match s.msgs[s.sel]? with
  | some (.delegated cx tid line g _ v _ _) =>
    let s0 := s.dropMsg s.sel
    if s0.waitsAt cx tid then
      match (s0.ctx cx).wait with
      | some w => .next (s0.endCall cx w.i g (some v))
      | none => .next s0
    else if s0.owedLater line cx tid then .next (s0.oweWake line cx tid g v 1)
    else .next s0
  | _ => .next s

/-- Tickets of an engine command at a barrier (R319) stand under this number plus the command's. -/
def engBase : Nat := 1638400

/-- The phase that an engine command waits for is complete (R316, R319): it goes on, and its core acquires the phase's
releases. -/
def State.engWake (s : State) (id : Nat) (g : Sig) : State :=
  { s with cmds := s.cmds.map (fun x => if x.id = id then { x with go := true, acq := g } else x) }

/-- The wake message at `State.sel` arrives (R226). -/
def execSoWake (s : State) : Out :=
  match s.msgs[s.sel]? with
  | some (.soWake cx tid line g ring v st) =>
    let s0 := s.dropMsg s.sel
    if engBase ≤ cx then .next (s0.engWake (cx - engBase) g)
    else if s0.waitsAt cx tid then .next (s0.wake cx tid line ring g v st)
    else if s0.owedLater line cx tid then .next (s0.oweWake line cx tid g v st)
    else .next s0
  | _ => .next s

/-- The core of the waiting context, or the engine of the command, that `State.sel` names polls: a wake owed to its polling
ticket is the answer (R226). -/
def execSoPoll (s : State) : Out :=
  let cx := s.sel
  let c := s.ctx cx
  let mine (w : Ticket × Sig × Word × Word) : Bool := w.1.cx == cx && (decide (engBase ≤ cx) || w.1.tid == c.tid)
  match s.objs.find? (fun e => e.2.owed.any mine) with
  | some (line, o) =>
    match o.owed.find? mine with
    | some (_, g, v, st) =>
      let s1 : State := { s with objs := tset line { o with owed := o.owed.filter (fun w => !mine w) } s.objs }
      if engBase ≤ cx then .next (s1.engWake (cx - engBase) g)
      else if s.waitsAt cx c.tid then
        .next (s1.wake cx c.tid line (decide (o.kind = .ring)) g v st)
      else .next s
    | none => .next s
  | none => .next s

/-- The window of the object at a line ends when its tick has come (R227, R228). -/
def State.windowEnd (s : State) (line : Nat) : State :=
  match s.obj? line with
  | some o => if o.wnext ≤ s.now then { s with objs := tset line (o.boundary (s.part o.part).sopol s.now) s.objs } else s
  | none => s

/-- A window of the object at line `State.sel` ends (R227, R228). -/
def execSoWindowBoundary (s : State) : Out := .next (s.windowEnd s.sel)

/-- The completion of an object's phase is judged after the cycle's credits and `sexp`s (R245). -/
def State.judge (s : State) (line : Nat) : State :=
  match s.obj? line with
  | some o => if o.kind = .bar ∧ o.complete? then s.putObj line o.settle else s
  | none => s

/-- Windows end for the objects in the save areas of pre-empted partitions too (R227, R278). -/
def State.keptWindows (s : State) : State :=
  { s with
    kept := s.kept.map fun k =>
      (k.1, { k.2 with objs := k.2.objs.map fun e =>
        if e.2.wnext ≤ s.now then (e.1, e.2.boundary (s.part e.2.part).sopol s.now) else e }) }

/-- What objects do at the end of a cycle, after its requests (R245). -/
def State.objectsEnd (s : State) : State :=
  let lines := s.objs.map Prod.fst
  (lines.foldl State.windowEnd (lines.foldl State.judge s)).keptWindows

end Sys2Proof.Machine
end

