-- ==== Sys2Proof/Machine/Units.lean ====
section
/-! DEFINITION. Accesses of the units that act for a core without holding a context in an instruction (the tensor unit,
the engines, the dispatcher, the network engine): translating a range, its pages and reserved words (R149, R209, R272,
R274; log 13). -/

namespace Sys2Proof.Machine

/-- How a unit's access to one range stands: it can be performed at these byte locations; a trap cause; a translation to
walk for; a page with V = 0, whose fault is to be queued; a page to wait for at the head of its home's remote queue; or
something else that it must wait for. `held`: it stands at the head already, and its page is on its way. -/
inductive Plan
  | ok (locs : List Nat)
  | trap (cause : Nat) (va : Word)
  | walk (va : Word) (k : AccKind)
  | fault (va : Word) (k : AccKind) (core page : Nat)
  | refill (core page : Nat)
  | held
  | busy
  deriving DecidableEq, Repr

/-- Whether a requester still has an access to perform; a context's is judged where it waits. -/
def State.lives (s : State) (who : Requester) : Bool :=
  match who with
  | .ctx _ _ | .place _ _ | .host _ => true
  | .req cx tid => s.msgs.any fun m => match m with | .req r => r.cx == cx && r.tid == tid | _ => false
  | .cmd id => s.cmds.any (fun c => c.id == id && (match c.st with | .done _ _ _ _ _ => false | _ => true))
  | .launch id => s.launches.any (fun l => l.id == id)
  | .tensor cx tid => s.quads.any (fun e => e.2.tq.any (fun o => o.cx == cx && o.tid == tid))
  | .net die part ep _ => s.eps.any (fun e => e.die == die && e.part == part && e.ep == ep)
  | .graph part handle kind =>
    s.msgs.any fun m =>
      match m with
      | .status _ p g _ _ _ => kind == 0 && p == part && g == handle
      | .node p g _ => (kind == 1 || kind == 3) && p == part && g == handle
      | .ring p g _ _ => kind == 2 && p == part && g == handle
      | _ => false
  | .timer die loc => s.msgs.any fun m => match m with | .timerWake d _ l _ => d == die && l == loc | _ => false
  | .command die tag => (s.die die).cmds.any (fun r => r.cmd.tag == tag && r.status.isNone)

/-- Whether a requester still has an access to a core's scratchpad to perform. -/
def State.livesAt (s : State) (core : Nat) (who : Requester) : Bool :=
  match who with
  | .req cx tid =>
    s.msgs.any fun m =>
      match m with
      | .req r => r.cx == cx && r.tid == tid && (match r.home with | .core k => k == core | .disp _ => true | _ => false)
      | _ => false
  | w => s.lives w

/-- Whether another requester's access waits at the head of a core's remote queue, so that a later one waits behind it
(R149, R150). A head whose access is gone holds nothing. -/
def State.headBefore (s : State) (core : Nat) (who : Requester) : Bool :=
  match (s.core core).head with
  | some (w, _) => decide (w ≠ who) && s.livesAt core w
  | none => false

/-- Whether a requester's access waits at the head of a core's remote queue for a page. -/
def State.atHead (s : State) (core page : Nat) (who : Requester) : Bool := decide ((s.core core).head = some (who, page))

/-- The access of a requester waits for a page at the head of a core's remote queue, unless another one stands there
(R150). -/
def State.takeHead (s : State) (core page : Nat) (who : Requester) : State :=
  if s.headBefore core who then s else s.modCore core (fun k => { k with head := some (who, page) })

/-- Whether a requester stands at the head of a core's queue. -/
def Core.headOf (k : Core) (who : Requester) : Bool := match k.head with | some (w, _) => decide (w = who) | none => false

/-- A requester waits at no head any more: its access has been performed, or waits for another one. -/
def State.unhead (s : State) (who : Requester) : State :=
  if s.cores.any (fun e => e.2.headOf who) then
    { s with cores := s.cores.map (fun e => (e.1, if e.2.headOf who then { e.2 with head := none } else e.2)) }
  else s

/-- A unit's access is performed: it stands at no head, and its translations are not kept. -/
def State.unitDone (s : State) (who : Requester) : State := (s.unhead who).unwalk who

/-- Whether a unit stands at the head of some queue. One that waits for another access leaves it, so that two units at the
heads of each other's homes do not wait for ever: DESIGN CHOICE (log 61). -/
def State.headIdle (s : State) (who : Requester) : Bool := s.cores.any (fun e => e.2.headOf who)

/-- A unit's remote access to a page of a scratchpad: an access at the head of the home's queue is performed before it
(R146, R149, R150). -/
def State.pagePlan (s : State) (who : Requester) (core page : Nat) (va : Word) (k : AccKind) (free : Plan) : Plan :=
  if s.headBefore core who then .busy
  else
    match s.pageSt core page with
    | .ready => free
    | .prot => .trap causeProtection va
    | .lost => .trap causeData va
    | .fault => .fault va k core page
    | .busy => if (s.page core page).busy && s.atHead core page who then .held else .refill core page

/-- One range that lies in one page of its window. -/
def State.planOne (s : State) (who : Requester) (core part : Nat) (va : Word) (n : Nat) (k : AccKind) : Plan :=
  match s.find who core part va k with
  | .trap c => .trap c va
  | .absent => .trap causeTranslation va
  | .miss => .walk va k
  | .ok l =>
    let locs := bytesOf l n
    let free : Plan := if (s.resvOn locs).isSome || s.unitWriting core locs then .busy else .ok locs
    match l with
    | .scratch c off => s.pagePlan who c (off / 4096) va k free
    | _ => free

/-- Ranges in order; the first that cannot be performed decides. -/
def State.plan (s : State) (who : Requester) (core part : Nat) (k : AccKind) : List (Word × Nat) → Plan
  | [] => .ok []
  | (va, n) :: t =>
    match s.planOne who core part va n k with
    | .ok l =>
      match s.plan who core part k t with
      | .ok r => .ok (l ++ r)
      | p => p
    | p => p

/-- Two plans in order. -/
def Plan.andThen (p q : Plan) : Plan :=
  match p with
  | .ok _ => q
  | p => p

/-- The locations of a plan that can be performed. -/
def Plan.locs : Plan → List Nat
  | .ok l => l
  | _ => []

/-- Splits `n` bytes at `va` at the 4 KiB page boundaries (a range may cross pages of any window). -/
def pieces : (fuel : Nat) → (va : Word) → (n : Nat) → List (Word × Nat)
  | 0, _, _ => []
  | f + 1, va, n =>
    if n = 0 then []
    else
      let k := min n (4096 - va.toNat % 4096)
      (va, k) :: pieces f (va + BitVec.ofNat 64 k) (n - k)

/-- The pieces of a range. -/
def piecesOf (va : Word) (n : Nat) : List (Word × Nat) := pieces (n / 4096 + 2) va n

/-- A unit waits for what stands before its access: a walk (R273); a page without a frame, whose fault the page's die queues
if it has room, or a page on its way, at the head of the home's remote queue (R149, R150, R274). It stays at the heads that
it has until its accesses have been performed, but for a wait for another one's access (log 61). -/
def State.unitWait (s : State) (who : Requester) (core part : Nat) (p : Plan) : State :=
  match p with
  | .walk va k => s.unitWalk who core part va k
  | .fault va k home page =>
    let s2 := s.takeHead home page who
    (s2.queueFault (dieOf home) part va.toNat k.code 4 0 0 (home * 16 + page) (s2.faultId (faultDie core) who) who).getD s2
  | .refill home page => (s.startRefill home page).takeHead home page who
  | .busy => s.unhead who
  | .ok _ | .trap _ _ | .held => s

/-- Whether a unit waits on a fault-queue entry. -/
def State.faulted (s : State) (who : Requester) : Bool :=
  s.dies.any (fun d => d.2.fq.any (fun e => e.2.who.contains who))

/-- Whether a unit's step would make progress: it is not waiting for a walk, a page, a reserved word or a full fault
queue. -/
def State.planMoves (s : State) (who : Requester) (part : Nat) : Plan → Bool
  | .busy => s.headIdle who
  | .held => false
  | .walk _ _ => !s.walking who
  | .fault va _ core page =>
    !s.atHead core page who || s.fqRoom (dieOf core) part va.toNat 4 (core * 16 + page)
  | _ => true

-- Reads of a unit

/-- Whether a location is fleeting memory. -/
def isFleetLoc (l : Nat) : Bool := decide (2 ^ 43 ≤ l) && decide (l < 2 ^ 44)

/-- Locations split where their 4 KiB page changes. -/
def pageRuns : List Nat → List (List Nat)
  | [] => []
  | l :: t =>
    match pageRuns t with
    | (x :: r) :: rest => if x / 4096 = l / 4096 then (l :: x :: r) :: rest else [l] :: (x :: r) :: rest
    | rest => [l] :: rest

/-- What a unit has read: the state, the bytes, whether a tile was expired, and whether it found lasting bad data. -/
structure UnitRead where
  s     : State
  bytes : List Byte
  exp   : Bool
  bad   : Bool

/-- A unit reads bytes of one page at their home (R297, R301, R315, R396). -/
def readPage (tid : BitVec 32) (part : Nat) (x : UnitRead) (locs : List Nat) : UnitRead :=
  if isFleetLoc (locs.headD 0) then
    let (s1, v, e, bad) := x.s.fleetRead locs tid part
    { s := s1, bytes := x.bytes ++ leBytes locs.length v, exp := x.exp || e, bad := x.bad || bad }
  else
    let (s1, bad) := x.s.readCheck locs tid part
    { s := s1, bytes := x.bytes ++ s1.rdBytes locs, exp := x.exp, bad := x.bad || bad }

/-- A unit reads locations, page by page; none when one of its reads finds lasting bad data. -/
def State.unitRead (s : State) (locs : List Nat) (tid : BitVec 32) (part : Nat) : State × Option (List Byte) :=
  let x := (pageRuns locs).foldl (readPage tid part) { s := s, bytes := [], exp := false, bad := false }
  (x.s, if x.bad then none else some x.bytes)

end Sys2Proof.Machine
end

