-- ==== Sys2Proof/Machine/Engines.lean ====
section
/-! DEFINITION. The copy and convert engines (R313–R323): issue, channels, starting a command with its accesses, and
its completion. A command's accesses are planned together; once all of them can be performed they are performed in one
step (log 13), so a command whose check fails has written nothing; one whose write of a fleeting tile is refused ends there. -/

namespace Sys2Proof.Machine

/-- The fields of an engine instruction (R317): token, channel, scope, the g registers it reads, the greatest n. -/
structure EngInfo where
  tok  : GReg
  ch   : Nat
  sc   : Scope
  conv : Bool
  d    : GReg
  a    : GReg
  n    : GReg
  lim  : Nat
  deriving DecidableEq, Repr

/-- The command forms and their limits (R317). -/
def engInfo : Instr → Option EngInfo
  | .cpy s t c d a n => some ⟨t, c.toNat, s, false, d, a, n, 15⟩
  | .cpyX s t c d a n => some ⟨t, c.toNat, s, false, d, a, n, 14⟩
  | .cpy2 s t c d a n => some ⟨t, c.toNat, s, false, d, a, n, 14⟩
  | .cpy2X s t c d a n => some ⟨t, c.toNat, s, false, d, a, n, 13⟩
  | .cph s t c a n => some ⟨t, c.toNat, s, false, 0, a, n, 15⟩
  | .cpt s t c d a n => some ⟨t, c.toNat, s, false, d, a, n, 14⟩
  | .cvbF2q s t c d a n => some ⟨t, c.toNat, s, true, d, a, n, 14⟩
  | .cvbQ2f s t c d a n => some ⟨t, c.toNat, s, true, d, a, n, 14⟩
  | .cvbF2h s t c d a n => some ⟨t, c.toNat, s, true, d, a, n, 15⟩
  | .cvbH2f s t c d a n => some ⟨t, c.toNat, s, true, d, a, n, 15⟩
  | _ => none

/-- Whether two commands or contexts share an engine: a core's copy engine or a quad's convert engine. -/
def sameEngine (conv : Bool) (a b : Nat) : Bool := if conv then quadOf a == quadOf b else a == b

/-- The commands in an engine's queue (R313). -/
def State.engQueued (s : State) (conv : Bool) (core : Nat) : List EngCmd :=
  s.cmds.filter (fun c => c.conv == conv && sameEngine conv c.core core && decide (c.st = .queued))

/-- Whether an engine's queue has room (R313). -/
def State.engRoom (s : State) (conv : Bool) (core : Nat) : Bool :=
  decide ((s.engQueued conv core).length < if conv then 16 else 32)

/-- Whether commands wait outside an engine's queue. -/
def State.engOutside (s : State) (conv : Bool) (core : Nat) : List EngCmd :=
  s.cmds.filter (fun c => c.conv == conv && sameEngine conv c.core core && decide (c.st = .outside))

/-- ISS of a channel. -/
def Core.issOf (c : Core) (ch : Nat) : Nat := tget 0 ch c.iss
/-- DONE of a channel. -/
def Core.doneOf (c : Core) (ch : Nat) : Nat := tget 0 ch c.done

/-- The command that an instruction of the current context issues (R313, R314, R321): its number is the channel's ISS,
and its registers, table, FX and tag are those of its issue. -/
def State.engCmd (s : State) (i : Instr) (x : EngInfo) (st : EngSt) : EngCmd where
  id := s.nextCmd
  i := i
  core := s.myCore
  cx := s.cur
  tid := s.me.tid
  part := s.myPart
  ch := x.ch
  seq := (s.core s.myCore).issOf x.ch
  tok := x.tok.toNat
  vals := [s.me.gr x.d, s.me.gr x.a, s.me.gr x.n, s.me.gr (x.n + 1), s.me.gr (x.n + 2)].map (·.toNat)
  fx := s.me.fx
  tbl := (s.core s.myCore).q8
  tag := s.me.tag
  scope := x.sc
  conv := x.conv
  st := st
  go := false
  acq := 0

/-- A command is issued (R313, R314): ISS rises and its token is pending. -/
def State.engPut (s : State) (c : EngCmd) : State :=
  let s1 : State := { s with cmds := s.cmds ++ [c], nextCmd := s.nextCmd + 1 }
  (s1.modCore c.core (fun k => { k with iss := tset c.ch ((c.seq + 1) % 2 ^ 32) k.iss })).modCtx c.cx
    (fun x => { x with pend := x.pend ||| (1 <<< c.tok) })

/-- Issue of a command (R313, R317): a broken limit traps. A command for a queue that is full waits outside it, and its
context with it. -/
def engIssue (i : Instr) (s : State) : Out :=
  match engInfo i with
  | none => .next s
  | some x =>
    if x.lim < x.n.toNat then illegal i s
    else if s.engRoom x.conv s.myCore ∧ (s.engOutside x.conv s.myCore).isEmpty then
      .next ((s.engPut (s.engCmd i x .queued)).finish s.cur 4 id)
    else .next ((s.engPut (s.engCmd i x .outside)).block s.cur 15 (mkWait i 1 0 0))

/-- `cpy` (R317, R318). -/
def execCpy (sc : Scope) (t : GReg) (c : Reg8) (d a n : GReg) (s : State) : Out := engIssue (.cpy sc t c d a n) s
/-- `cpy.x` (R317, R318). -/
def execCpyX (sc : Scope) (t : GReg) (c : Reg8) (d a n : GReg) (s : State) : Out := engIssue (.cpyX sc t c d a n) s
/-- `cpy2` (R317, R318). -/
def execCpy2 (sc : Scope) (t : GReg) (c : Reg8) (d a n : GReg) (s : State) : Out := engIssue (.cpy2 sc t c d a n) s
/-- `cpy2.x` (R317, R318). -/
def execCpy2X (sc : Scope) (t : GReg) (c : Reg8) (d a n : GReg) (s : State) : Out := engIssue (.cpy2X sc t c d a n) s
/-- `cph` (R317, R319). -/
def execCph (sc : Scope) (t : GReg) (c : Reg8) (a n : GReg) (s : State) : Out := engIssue (.cph sc t c a n) s
/-- `cpt` (R317, R320). -/
def execCpt (sc : Scope) (t : GReg) (c : Reg8) (d a n : GReg) (s : State) : Out := engIssue (.cpt sc t c d a n) s
/-- `cvb.f2q` (R317, R321). -/
def execCvbF2q (sc : Scope) (t : GReg) (c : Reg8) (d a n : GReg) (s : State) : Out := engIssue (.cvbF2q sc t c d a n) s
/-- `cvb.q2f` (R317, R321). -/
def execCvbQ2f (sc : Scope) (t : GReg) (c : Reg8) (d a n : GReg) (s : State) : Out := engIssue (.cvbQ2f sc t c d a n) s
/-- `cvb.f2h` (R317, R321). -/
def execCvbF2h (sc : Scope) (t : GReg) (c : Reg8) (d a n : GReg) (s : State) : Out := engIssue (.cvbF2h sc t c d a n) s
/-- `cvb.h2f` (R317, R321). -/
def execCvbH2f (sc : Scope) (t : GReg) (c : Reg8) (d a n : GReg) (s : State) : Out := engIssue (.cvbH2f sc t c d a n) s

/-- `cpst` (R322). -/
def execCpst (d : GReg) (c : Reg8) (s : State) : Out :=
  let k := s.core s.myCore
  retire (fun x => x.setG d (BitVec.ofNat 64 (k.doneOf c.toNat + k.issOf c.toNat * 2 ^ 32))) s

/-- Whether DONE has reached the value that a `cpw` names (R322). -/
def Core.cpwDone (k : Core) (c : Reg8) (x : Nat) : Bool :=
  decide ((k.doneOf c.toNat + 2 ^ 32 - x % 2 ^ 32) % 2 ^ 32 < 2 ^ 31)

/-- `cpw` (R322): its acquire at `.core` takes no cache action. -/
def execCpw (c : Reg8) (a : GReg) (s : State) : Out :=
  if (s.core s.myCore).cpwDone c (s.me.gr a).toNat then retire id s
  else .next (s.block s.cur 6 { mkWait (.cpw c a) 1 0 0 with val := s.me.gr a })

-- What a command reads and writes.

/-- An operand of a command: 0 d, 1 a, 2 n, 3 n + 1, 4 n + 2, and from 5 the descriptor of a `cph`. -/
def EngCmd.op (c : EngCmd) (i : Nat) : Nat := c.vals.getD i 0
/-- The same as an address. -/
def EngCmd.addr (c : EngCmd) (i : Nat) : Word := BitVec.ofNat 64 (c.op i)
/-- L of a copy, or E of a conversion. -/
def EngCmd.len (c : EngCmd) : Nat := nbits (c.op 2) 31 0
/-- Scale bytes of a conversion (R321). -/
def EngCmd.blocks (c : EngCmd) : Nat := ceilDiv c.len 32

/-- The rows of `cpy2` from a base with a stride (R318). -/
def EngCmd.rows (c : EngCmd) (base : Word) (stride : Nat) : List (Word × Nat) :=
  let r := nbits (c.op 2) 31 0
  if r = 0 then []
  else ((List.range (nbits (c.op 2) 63 32)).map fun (k : Nat) =>
    piecesOf (base + toWord ((k : Int) * signExtend stride 32)) r).flatten

/-- The address of an offset in a core's scratchpad, in the package window (R143). -/
def scratchVa (core off : Nat) : Word := BitVec.ofNat 64 (0x10000000000 + core * 65536 + off)

/-- The halos of a `cph` (R319): neighbour, source offset, destination offset, length; absent neighbours are skipped. -/
def EngCmd.halos (c : EngCmd) : List (Nat × Nat × Nat × Nat) :=
  let q := c.core % 64
  let base := c.core - q
  let dw (k : Nat) : Nat := c.op (5 + k)
  let one (k : Nat) (ok : Bool) (nb : Nat) : List (Nat × Nat × Nat × Nat) :=
    if ok then [(base + nb, nbits (dw k) 15 0, nbits (dw k) 31 16, nbits (dw k) 47 32)] else []
  one 0 (decide (8 ≤ q)) (q - 8) ++ one 1 (decide (q < 56)) (q + 8) ++ one 2 (decide (q % 8 ≠ 0)) (q - 1)
    ++ one 3 (decide (q % 8 ≠ 7)) (q + 1)

/-- The ranges that a command reads. -/
def EngCmd.reads (c : EngCmd) : List (Word × Nat) :=
  match c.i with
  | .cpy2 _ _ _ _ _ _ | .cpy2X _ _ _ _ _ _ => c.rows (c.addr 1) (nbits (c.op 3) 31 0)
  | .cph _ _ _ _ _ => (c.halos.map (fun h => piecesOf (scratchVa h.1 h.2.1) h.2.2.2)).flatten
  | .cvbF2q _ _ _ _ _ _ | .cvbF2h _ _ _ _ _ _ => piecesOf (c.addr 1) (4 * c.len)
  | .cvbQ2f _ _ _ _ _ _ => piecesOf (c.addr 1) c.len ++ piecesOf (c.addr 3) c.blocks
  | .cvbH2f _ _ _ _ _ _ => piecesOf (c.addr 1) (2 * c.len)
  | _ => piecesOf (c.addr 1) c.len

/-- The ranges that a command writes. -/
def EngCmd.writes (c : EngCmd) : List (Word × Nat) :=
  match c.i with
  | .cpy2 _ _ _ _ _ _ | .cpy2X _ _ _ _ _ _ => c.rows (c.addr 0) (nbits (c.op 3) 63 32)
  | .cph _ _ _ _ _ => (c.halos.map (fun h => piecesOf (scratchVa c.core h.2.2.1) h.2.2.2)).flatten
  | .cvbF2q _ _ _ _ _ _ => piecesOf (c.addr 0) c.len ++ piecesOf (c.addr 3) c.blocks
  | .cvbQ2f _ _ _ _ _ _ | .cvbH2f _ _ _ _ _ _ => piecesOf (c.addr 0) (4 * c.len)
  | .cvbF2h _ _ _ _ _ _ => piecesOf (c.addr 0) (2 * c.len)
  | _ => piecesOf (c.addr 0) c.len

/-- Bytes of the source and destination elements of a conversion (R321). -/
def EngCmd.elemSizes (c : EngCmd) : Nat × Nat :=
  match c.i with
  | .cvbF2q _ _ _ _ _ _ => (4, 1)
  | .cvbQ2f _ _ _ _ _ _ => (1, 4)
  | .cvbF2h _ _ _ _ _ _ => (4, 2)
  | .cvbH2f _ _ _ _ _ _ => (2, 4)
  | _ => (1, 1)

/-- The address of the barrier that a command credits (R318), if it has one. -/
def EngCmd.credits (c : EngCmd) : Option Word :=
  match c.i with
  | .cpyX _ _ _ _ _ _ => some (c.addr 3)
  | .cpy2X _ _ _ _ _ _ => some (c.addr 4)
  | _ => none

/-- What a command that is to start or go on does: it ends with a CODE, waits, reads its descriptor at these locations,
arrives at its barrier with the descriptor's dwords, or performs its accesses. -/
inductive EngDo
  | end_ (code : Nat)
  | wait (p : Plan)
  | desc (locs : List Nat)
  | arrive (desc : List Nat) (line : Nat)
  | copy (reads writes : List Nat) (obj : Option Nat)

/-- The requester of a command's accesses. -/
def EngCmd.who (c : EngCmd) : Requester := .cmd c.id

/-- Goes on with the locations of a plan: a trap ends the command with a CODE, of data that are lost with CODE 3
(R314, R396). -/
def onPlan (p : Plan) (code : Nat) (go : List Nat → EngDo) : EngDo :=
  match p with
  | .ok l => go l
  | .trap c _ => .end_ (if c = causeData then 3 else code)
  | q => .wait q

/-- The barrier object at an address (R318, R319): CODE 6 when there is none that is accepted. -/
def State.engObj (s : State) (c : EngCmd) (x : Word) (ok : SObj → Bool) (go : Nat → EngDo) : EngDo :=
  onPlan (s.planOne c.who c.core c.part x (if x.toNat % 64 = 0 then 64 else 1) .engWrite) 2 fun l =>
    let line := l.headD 0 / 64
    match s.obj? line with
    | some o => if x.toNat % 64 = 0 ∧ o.kind = .bar ∧ ok o then go line else .end_ 6
    | none => .end_ 6

/-- Whether a halo descriptor is bad (R319). -/
def badHalo (d : List Nat) : Bool :=
  d.any fun w => decide (nbits w 63 48 ≠ 0) || decide (0xC000 < nbits w 15 0 + nbits w 47 32) ||
    decide (0xC000 < nbits w 31 16 + nbits w 47 32)

/-- The accesses of a command with its checks (R314, R315). -/
def State.engAccesses (s : State) (c : EngCmd) (obj : Option Nat) : EngDo :=
  onPlan (s.plan c.who c.core c.part .engRead c.reads) 2 fun r =>
    onPlan (s.plan c.who c.core c.part .engWrite c.writes) 2 fun w =>
      if w.any (fun l => (s.obj? (l / 64)).isSome) then .end_ 4
      else if w.any (fun l => s.gone l && !isFleetLoc l) then .end_ 3
      else .copy r w obj

/-- What a `cph` does once its descriptor is read (R319). -/
def State.engHalo (s : State) (c : EngCmd) (l : List Nat) : EngDo :=
  let d := (List.range 4).map (fun i => s.rd ((l.drop (8 * i)).take 8))
  if badHalo d then .end_ 7 else s.engObj c (c.addr 2) (fun _ => true) (fun line => .arrive d line)

/-- What a command does next (R314, R318, R319, R321). -/
def State.engDo (s : State) (c : EngCmd) : EngDo :=
  match c.i with
  | .cph _ _ _ _ _ =>
    if c.go then s.engAccesses c none
    else
      let x := c.addr 1
      if x.toNat % 32 ≠ 0 then .end_ 7
      else
        match window c.core x with
        | .scratch k _ =>
          if s.partOf k ≠ s.partOf c.core then .end_ 7
          else
            onPlan (s.planOne c.who c.core c.part x 32 .engRead) 7 .desc
        | _ => .end_ 7
  | _ =>
    if (c.reads.isEmpty && c.writes.isEmpty) then .copy [] [] none
    else if (c.op 1) % c.elemSizes.1 ≠ 0 ∨ (c.op 0) % c.elemSizes.2 ≠ 0 then .end_ 5
    else
      match c.credits with
      | some x => s.engObj c x (·.xb) (fun line => s.engAccesses c (some line))
      | none => s.engAccesses c none

/-- Whether a command is the first one of its engine that can start (R313). -/
def State.engTurn (s : State) (c : EngCmd) : Bool :=
  let busy := s.cmds.filter (fun x =>
    x.conv == c.conv && sameEngine c.conv x.core c.core && decide (x.st ≠ .queued ∧ x.st ≠ .outside))
  let open_ (x : EngCmd) : Bool := decide (x.seq = (s.core x.core).doneOf x.ch)
  let q := s.engQueued c.conv c.core
  let first := if c.conv then q.head? else q.find? open_
  decide (busy.length < if c.conv then 1 else 4) && open_ c && first == some c

/-- Whether a command that is to do this makes progress, not waiting for what it already waits for. -/
def EngDo.moves (s : State) (c : EngCmd) (d : EngDo) : Bool :=
  match (match d with | .desc l => s.engHalo c l | d => d) with
  | .wait p => s.planMoves c.who c.part p
  | _ => true

/-- Whether a partition is being swept: its acquires wait (R189). -/
def State.sweptNow (s : State) (part : Nat) : Bool := (s.part part).sweeping

/-- Whether write-backs that a command needs are not acknowledged: those of the start's drain (R215), or of another core's
drain for the acquire of leaving a barrier (R187, R216). -/
def State.drainWaits (s : State) (c : EngCmd) : Bool :=
  match c.st with
  | .barrier =>
    s.listedCores.any (fun k => decide (k ≠ c.core) && s.inPart k c.part && s.writesQueued k (inSig c.acq))
  | _ => s.writesQueued c.core (fun _ => true)

/-- Whether a command can start or go on. One that has started and waits takes one of its engine's places. -/
def State.engReady (s : State) (c : EngCmd) : Bool :=
  match c.st with
  | .outside | .done _ _ _ _ _ => false
  | .queued => s.engTurn c
  | .held => !s.faulted c.who && !s.drainWaits c && (s.engDo c).moves s c
  | .barrier => c.go && !s.sweptNow c.part && !s.faulted c.who && !s.drainWaits c && (s.engDo c).moves s c

-- Performing

/-- Splits locations into the pieces that a plan gave them. -/
def chunks {α : Type} : List (Word × Nat) → List α → List (List α)
  | [], _ => []
  | (_, n) :: t, l => l.take n :: chunks t (l.drop n)

/-- What writing the pieces of a command gives: `sig` names the global lines written (R316), `n` counts the bytes. -/
structure EngWrite where
  s    : State
  born : Bool
  bad  : Bool
  sig  : Sig
  n    : Nat

/-- The signature of the global lines of locations. -/
def linesSig (locs : List Nat) : Sig := (locs.filter isGlobalLoc).foldl (fun g l => sigAdd g (l / 64)) 0

/-- Whether a piece of a command is still under way when the command completes (R215): its home is on another die, and the
completion scope is narrower than `.pkg`. DESIGN CHOICE: writes of scratchpads and fleeting tiles, which can still end the
command with a CODE at their home, and those that credit a barrier are performed first (log 81). -/
def EngCmd.leaves (c : EngCmd) (locs : List Nat) : Bool :=
  let l := locs.headD 0
  !scopeGe c.scope .pkg && decide (locDie l ≠ dieOf c.core) && decide (l < 2 ^ 43) && c.credits.isNone

/-- Writes one piece at its home, or sends it there (R215, R315, R396). -/
def engWriteOne (c : EngCmd) (x : EngWrite) (p : List Nat × List Byte) : EngWrite :=
  if x.bad then x
  else if isFleetLoc (p.1.headD 0) then
    let (s1, b, refused) := x.s.fleetWrite p.1 c.part (ofBytes p.2)
    { x with s := s1, born := x.born || b, bad := refused, n := if refused then x.n else x.n + p.1.length }
  else
    { x with
      s := if c.leaves p.1 then x.s.send (.unitWrite c.core c.part c.tag (cellsOfBytes p.1 p.2) c.scope)
        else x.s.store (cellsOfBytes p.1 p.2)
      sig := x.sig ||| linesSig p.1, n := x.n + p.1.length }

/-- Element `i` of `w` bytes. -/
def elemAt (w : Nat) (b : List Byte) (i : Nat) : Nat := ofBytes ((b.drop (w * i)).take w)

/-- A value times 2^k. -/
def shiftVal (v : Val) (k : Int) : Val :=
  match v with
  | .fin n m e => .fin n m (e + k)
  | w => w

/-- Whether a value is finite. -/
def finite? : Val → Bool
  | .fin _ _ _ => true
  | _ => false

/-- The scale of a block (R321). -/
def blockScale (t : Q8Tab) (l : List Val) : Nat :=
  let tmax := mag280 (q8Low t (if q8HasInf t then 126 else 127))
  let mag (s : Nat) (v : Val) : Nat := if finite? v then mag280 (shiftVal v (127 - (s : Int))) else 0
  if l.all (fun v => mag 127 v == 0) then 127
  else (findIdxFrom (fun s => l.all (fun v => decide (mag s v ≤ tmax))) 255 0).getD 254

/-- The bytes that a conversion writes from those it reads (R321). -/
def EngCmd.convert (c : EngCmd) (b : List Byte) : List Byte :=
  let n := c.len
  let f32 (i : Nat) : Val := unpack fmtF32 (elemAt 4 b i)
  match c.i with
  | .cvbF2q _ _ _ _ _ _ =>
    let scale (k : Nat) : Nat := blockScale c.tbl ((List.range (min 32 (n - 32 * k))).map (fun j => f32 (32 * k + j)))
    let sc := (List.range c.blocks).map scale
    (List.range n).map (fun i => BitVec.ofNat 8 (q8Enc c.tbl (shiftVal (f32 i) (127 - (sc.getD (i / 32) 127 : Int)))))
      ++ sc.map (BitVec.ofNat 8)
  | .cvbQ2f _ _ _ _ _ _ =>
    ((List.range n).map fun i =>
      let s := elemAt 1 b (n + i / 32)
      let v := if s = 255 then Val.nan false else shiftVal (q8Dec c.tbl (elemAt 1 b i)) ((s : Int) - 127)
      leBytes 4 (roundF32 .rne v).toNat).flatten
  | .cvbF2h _ _ _ _ _ _ => ((List.range n).map (fun i => leBytes 2 (round (fmtH16 c.fx) .rne (f32 i)).1)).flatten
  | .cvbH2f _ _ _ _ _ _ => ((List.range n).map (fun i => leBytes 4 (h16ToF32 c.fx .rne (elemAt 2 b i)).toNat)).flatten
  | _ => b

/-- Sets the state of a command. -/
def State.setEng (s : State) (id : Nat) (f : EngCmd → EngCmd) : State :=
  { s with cmds := s.cmds.map (fun c => if c.id = id then f c else c) }

/-- A command ends (R314): what it has read and written so far stands. -/
def State.engEndAs (s : State) (id code bytes : Nat) (exp born : Bool) (sig : Sig) : State :=
  (s.unitDone (.cmd id)).setEng id (fun c => { c with st := .done code bytes exp born sig })

/-- A command ends before its first access (R314). -/
def State.engEnd (s : State) (id code : Nat) : State := s.engEndAs id code 0 false false 0

/-- Each byte that a command has written credits its barrier (R232, R318). -/
def State.engCredit (s : State) (obj : Option Nat) (n : Nat) : State :=
  match obj with
  | some line =>
    match s.obj? line with
    | some o => s.putObj line (o.creditBytes n)
    | none => s
  | none => s

/-- Performs the accesses of a command (R315, R318, R319, R321). A write that its home refuses ends it with CODE 3; what was
written before stands, with its credits and its lines (R190, R314). -/
def State.engPerform (s : State) (c : EngCmd) (r w : List Nat) (obj : Option Nat) : State :=
  let rd := (chunks c.reads r).foldl (readPage c.tid c.part) { s := s, bytes := [], exp := false, bad := false }
  if rd.bad then rd.s.engEndAs c.id 3 0 rd.exp false 0
  else
    let out := c.convert rd.bytes
    let wr := ((chunks c.writes w).zip (chunks c.writes out)).foldl (engWriteOne c)
      { s := rd.s, born := false, bad := false, sig := 0, n := 0 }
    (wr.s.engCredit obj wr.n).engEndAs c.id (if wr.bad then 3 else 0) (if wr.bad then 0 else min out.length 0xFFFFFFFF)
      rd.exp wr.born wr.sig

/-- The arrival of a `cph` at its barrier (R319), with the issuer's start release. -/
def State.engArrive (s : State) (c : EngCmd) (desc : List Nat) (line : Nat) : State :=
  match s.obj? line with
  | none => s.engEnd c.id 6
  | some o =>
    let (o1, w, ph) := o.arrive s.now (s.relSig c.core)
    let (o2, a) := o1.await (engBase + c.id) c.tid ph
    let s1 := ((s.unitDone c.who).putObj line (o2, w)).setEng c.id
      (fun c => { c with vals := c.vals ++ desc, st := .barrier })
    match a with
    | some (_, g) => s1.engWake c.id g
    | none => s1

/-- A command that has started waits; one whose barrier has completed keeps its state. -/
def State.engHold (s : State) (c : EngCmd) : State :=
  if c.st = .barrier then s else s.setEng c.id (fun c => { c with st := .held })

/-- A command waits for what stands before its accesses (R149, R273, R274, R315). -/
def State.engWaitFor (s : State) (c : EngCmd) (p : Plan) : State := (s.unitWait c.who c.core c.part p).engHold c

/-- A `cph` reads its descriptor: an error there ends it with CODE 3; then its fields and its barrier are judged, and it
arrives (R314, R319). -/
def State.engDescribed (s : State) (c : EngCmd) (l : List Nat) : State :=
  let (t, bad) := s.readCheck l c.tid c.part
  if bad then t.engEnd c.id 3
  else
    match t.engHalo c l with
    | .end_ code => t.engEnd c.id code
    | .arrive d line => t.engArrive c d line
    | .wait p => t.engWaitFor c p
    | _ => t

/-- A command that waits outside enters a queue that has room (R313): its context continues. -/
def State.engAdmit (s : State) (conv : Bool) (core : Nat) : State :=
  if s.engRoom conv core then
    match (s.engOutside conv core).head? with
    | some c =>
      let s1 := s.setEng c.id (fun c => { c with st := .queued })
      if (s1.ctx c.cx).waits c.tid 1 then s1.finish c.cx 4 id else s1
    | none => s
  else s

/-- What a command that starts or goes on does first: the start's drain (R215), or the acquire of leaving its barrier, for
which the other cores of the partition drain (R216). -/
def State.engFirst (s : State) (c : EngCmd) : State :=
  match c.st with
  | .queued => s.writeBackAll c.core
  | .barrier =>
    ((s.drainersOf c.core c.part c.acq).foldl (fun s r => s.drainCore r.core r.sig) s).applyRecs c.core [⟨c.core, c.acq⟩]
  | _ => s

/-- Engine command `State.sel` starts, or goes on after its fault was ended or its barrier's phase completed (R215,
R313–R321). -/
def execEngineCommandStart (s : State) : Out :=
  match s.cmds.find? (fun c => c.id == s.sel) with
  | none => .next s
  | some c =>
    if !s.engReady c then .next s
    else
      let s0 := s.engFirst c
      let s1 :=
        if s0.drainWaits c then s0.engHold c
        else
          match s0.engDo c with
          | .end_ code => s0.engEnd c.id code
          | .wait p => s0.engWaitFor c p
          | .desc l => s0.engDescribed c l
          | .arrive d line => s0.engArrive c d line
          | .copy r w obj => s0.engPerform c r w obj
      .next (s1.engAdmit c.conv c.core)

-- Completion

/-- The token word (R314). -/
def EngCmd.token (c : EngCmd) : Word :=
  match c.st with
  | .done code bytes exp born _ =>
    BitVec.ofNat 64 (code + exp.toNat * 2 ^ 8 + born.toNat * 2 ^ 9 + c.seq % 65536 * 2 ^ 16 + bytes * 2 ^ 32)
  | _ => 0

/-- The token is written, unless its context has ended (R314, R323); the context goes on if it waited for it. -/
def State.writeToken (s : State) (c : EngCmd) : State :=
  let x := s.ctx c.cx
  if x.tid = c.tid ∧ x.pend.getLsbD c.tok then
    let s1 := s.modCtx c.cx (fun x =>
      { x.setG (BitVec.ofNat 4 c.tok) c.token with pend := setBits x.pend c.tok c.tok 0 })
    let held := match x.wait with | some w => decide (w.ph = 0) && (x.why == 6 || x.why == 8) | none => false
    if decide (x.state = .waiting) && held then s1.release c.cx else s1
  else s

/-- Contexts of a core that wait in `cpw` and whose channel has reached their value go on (R322). -/
def State.wakeCpw (s : State) (core : Nat) : State :=
  (List.range 16).foldl (fun s j =>
    let cx := core * 16 + j
    match (s.ctx cx).wait with
    | some w =>
      match w.i with
      | .cpw c _ => if w.ph = 1 ∧ (s.core core).cpwDone c w.val.toNat then s.finish cx 4 id else s
      | _ => s
    | none => s) s

/-- The task record of a `cpt` that completed (R320). -/
def State.engTask (s : State) (c : EngCmd) : State :=
  match c.i, c.st with
  | .cpt _ _ _ _ _ _, .done 0 _ _ _ _ => s.send (.task (dieOf c.core) c.part (c.addr 3) c.tid none (some (c.core, c.tag)))
  | _, _ => s

/-- Engine command `State.sel` completes (R316): the core acquires what the engine wrote, DONE rises, the token is
written. During a sweep of its partition its acquire waits (R189, R198). -/
def execEngineCommandComplete (s : State) : Out :=
  match s.cmds.find? (fun c => c.id == s.sel) with
  | none => .next s
  | some c =>
    match c.st, s.sweptNow c.part with
    | .done _ _ _ _ g, false =>
      let s0 : State := { s with cmds := s.cmds.filter (fun x => decide (x.id ≠ c.id)) }
      let s1 := s0.applyRecs c.core [⟨c.core, g⟩]
      let s2 := s1.modCore c.core (fun k => { k with done := tset c.ch ((k.doneOf c.ch + 1) % 2 ^ 32) k.done })
      .next (((s2.writeToken c).wakeCpw c.core).engTask c)
    | _, _ => .next s

end Sys2Proof.Machine
end

