-- ==== Sys2Proof/Machine/Fences.lean ====
section
/-! DEFINITION. Fences, cache maintenance, the phase tag's `qwait`, free marks, drains and sweeps (R184, R188, R189,
R191–R197, R214). -/

namespace Sys2Proof.Machine

/-- `fence.acq` (R193): at `.core` it only orders the context's own accesses. -/
def execFenceAcq (sc : Scope) (s : State) : Out :=
  if scopeGe sc .quad then .next (s.acquireAll s.cur (.fenceAcq sc) (wrapPc (s.me.pc + 4))) else retire id s

/-- `fence.rel` (R193): it leaves a release pending. -/
def execFenceRel (sc : Scope) (s : State) : Out :=
  s.afterRelease 1 true sc (.fenceRel sc) fun s => retire id (s.pendRelease s.cur sc)

/-- `fence.ar` (R193): `fence.acq`, then `fence.rel`. -/
def execFenceAr (sc : Scope) (s : State) : Out :=
  if scopeGe sc .quad then .next (s.acquireAll s.cur (.fenceAr sc) (wrapPc (s.me.pc + 4))) else retire id s

/-- The checks of R194 on an address that must lie in the global window. -/
def globalOnly (i : Instr) (x : Word) (s : State) (go : Nat → Out) : Out :=
  match window s.myCore x with
  | .none => trap causeTranslation x s
  | .global => withLoc i x .load s fun l => match l with | .global pa => go pa | _ => trap causeProtection x s
  | _ => trap causeProtection x s

/-- The completion of a cache instruction that has written back a line, or all (R194): once those writes are acknowledged.
Until then the context waits, and performs its instruction again. -/
def whenWritten (i : Instr) (line : Option Nat) (s : State) : Out :=
  if s.writesQueued s.myCore (fun l => line.all (l == ·)) then
    .next ((s.holdAt s.cur 1 i (BitVec.ofNat 64 (line.getD 0 * 64))).release s.cur)
  else retire id s

/-- Whether a held instruction waits for write-backs that are not acknowledged yet (R186, R194). -/
def State.heldForWrites (s : State) (cx : Nat) (tid : BitVec 32) : Bool :=
  let c := (s.ghost? cx tid).getD (s.ctx cx)
  match c.wait with
  | some w =>
    w.ph == 0 && [1, 5, 8].contains c.why &&
      match w.i with
      | .cwb _ | .cinv _ => s.writesQueued (coreOf cx) (· == w.val.toNat / 64)
      | _ => s.writesQueued (coreOf cx) (fun _ => true)
  | none => false

/-- `cwb [gA]` (R194). -/
def execCwb (a : GReg) (s : State) : Out :=
  globalOnly (.cwb a) (s.me.gr a) s fun pa =>
    whenWritten (.cwb a) (some (pa / 64)) (s.l1WriteBack s.myCore (pa / 64))

/-- `cwb.all` (R194). -/
def execCwbAll (s : State) : Out := whenWritten .cwbAll none (s.writeBackAll s.myCore)

/-- `cinv [gA]` (R194). -/
def execCinv (a : GReg) (s : State) : Out :=
  globalOnly (.cinv a) (s.me.gr a) s fun pa =>
    whenWritten (.cinv a) (some (pa / 64)) (s.l1Invalidate s.myCore (pa / 64))

/-- `cinv.all` (R194). -/
def execCinvAll (s : State) : Out := whenWritten .cinvAll none (s.invalidateAll s.myCore)

/-- Drops a line from the instruction caches of a partition's quads within a scope of a core (R195). -/
def State.icacheDrop (s : State) (part : Option Nat) (core : Nat) (sc : Scope) (line : Nat) : State :=
  { s with
    quads := s.quads.map fun e =>
      if sameUnit sc (e.1 * 4) core ∧ s.partOf (e.1 * 4) = part then
        (e.1, { e.2 with icache := e.2.icache.filter (fun x => decide (x.1 ≠ line)) })
      else e }

/-- `iinv` (R195). -/
def execIinv (sc : Scope) (a : GReg) (s : State) : Out :=
  globalOnly (.iinv sc a) (s.me.gr a) s fun pa =>
    retire id (s.icacheDrop (s.partOf s.myCore) s.myCore sc (pa / 64))

/-- `fbar` (R195). -/
def execFbar (s : State) : Out := retire (fun c => { c with run := [] }) s

/-- Whether a message bears a tag, was sent by a context of a partition within a scope of a core, and is still to be
delivered or performed (R196, R214) (log 37). -/
def State.outstanding (s : State) (part : Option Nat) (core : Nat) (sc : Scope) (t : Bool) : Msg → Bool
  | .req r => r.tag == t && some r.part == part && sameUnit sc (coreOf r.cx) core
  | .spawn m =>
    match m.from_ with
    | .ctx cx _ => m.tag == t && some m.part == part && sameUnit sc (coreOf cx) core
    | _ => false
  | .mig src _ _ b => b == t && s.partOf (coreOf src) == part && sameUnit sc (coreOf src) core
  | .delegated _ _ _ _ _ _ k b => b == t && s.partOf k == part && sameUnit sc k core
  | .migCommit k d =>
    d.tag == t && s.partOf (coreOf k) == part &&
      (match d.recs with | r :: _ => sameUnit sc r.core core | [] => sameUnit sc (coreOf k) core)
  | .drain _ _ p (.ctx cx _ b) => b == t && some p == part && sameUnit sc (coreOf cx) core
  | .drain _ _ _ (.req r) => r.tag == t && some r.part == part && sameUnit sc (coreOf r.cx) core
  | .drainAck (.req r) => r.tag == t && some r.part == part && sameUnit sc (coreOf r.cx) core
  | .task _ p _ _ _ (some (k, b)) => b == t && some p == part && sameUnit sc k core
  | .unitWrite k p b _ _ => b == t && some p == part && sameUnit sc k core
  | _ => false

/-- Whether what waits at a reserved word is outstanding (R209, R214). A write-back of a core bears no tag of its own; it
counts for either (log 37). -/
def State.queuedOut (s : State) (part : Option Nat) (core : Nat) (sc : Scope) (t : Bool) : QItem → Bool
  | .req r => s.outstanding part core sc t (.req r)
  | .write (some k) _ _ => s.partOf k == part && sameUnit sc k core
  | .write none _ _ => false

/-- Whether a network engine, placed at core 0 of its die, has a request of a partition with a tag under way within a
scope of a core (R214, R376, R384) (log 37). -/
def State.netOutstanding (s : State) (part : Option Nat) (core : Nat) (sc : Scope) (t : Bool) : Bool :=
  s.eps.any fun e =>
    some e.part == part && sameUnit sc (e.die * 12800) core && e.reqs.any (fun r => r.code.isNone && r.tag == t)

/-- Whether an engine command that has started, with the tag of its issue, or an operation of a tensor unit that waits at the
head of a remote queue, with its context's, has accesses that are not performed (R161, R214, R315) (log 37). -/
def State.unitsOutstanding (s : State) (part : Option Nat) (core : Nat) (sc : Scope) (t : Bool) : Bool :=
  (s.cmds.any fun c =>
    some c.part == part && c.tag == t && sameUnit sc c.core core && (decide (c.st = .held) || (decide (c.st = .barrier) && c.go)))
    || s.cores.any fun k =>
      match k.2.head with
      | some (.tensor cx _, _) => (s.ctx cx).tag == t && s.partOf (coreOf cx) == part && sameUnit sc (coreOf cx) core
      | _ => false

/-- Whether the partition is quiet in a tag within a scope of a core (R196). -/
def State.quiet (s : State) (core : Nat) (sc : Scope) (t : Bool) : Bool :=
  let part := s.partOf core
  !s.msgs.any (s.outstanding part core sc t) && !s.netOutstanding part core sc t && !s.unitsOutstanding part core sc t &&
    !s.resvq.any (fun q => q.queue.any (s.queuedOut part core sc t))

/-- `qwait` (R196): the Spire networks report to the context (R214). A message that another core sends in the cycle of
the issue counts as sent before it (R220): while a core is still to take its turn in this cycle, the context waits for the
report. -/
def execQwait (sc : Scope) (t : Bool) (s : State) : Out :=
  if s.turn.isEmpty && s.quiet s.myCore sc t then retire id s
  else .next (s.block s.cur 1 (mkWait (.qwait sc t) 1 0 (wrapPc (s.me.pc + 4))))

/-- A Spire network reports to context `State.sel` that its tag is quiet (R214). -/
def execQuietReport (s : State) : Out :=
  match (s.ctx s.sel).wait with
  | some w =>
    match w.i with
    | .qwait sc t => if s.quiet (coreOf s.sel) sc t then .next (s.finish s.sel 4 id) else .next s
    | _ => .next s
  | none => .next s

-- Free marks

/-- The blocks of `n` 64 KiB pages from an address, each in the global window and mapped writable (R197); the first page
that is not, or whose translation is still to come (R273), decides. -/
inductive Pages
  | ok (blocks : List Nat)
  | trap (cause : Nat) (va : Word)
  | miss (va : Word)

/-- The translation of one of the pages: by the core's TLB, or kept from a walk or an answer of the cluster TLB for which
the context has waited (R273), since a range has more pages than the core's TLB has entries. -/
def State.freePage (s : State) (va : Word) : Found :=
  match s.translate s.myCore s.myPart va .store with
  | .ok l => .ok l
  | .trap c => .trap c
  | .miss =>
    match s.walkedFor (.ctx s.cur s.me.tid) s.myPart va with
    | some (some e) => Found.of .store va e
    | _ => .miss

/-- Checks `n` pages in order. -/
def State.freePages (s : State) (va : Word) : (n : Nat) → Pages
  | 0 => .ok []
  | n + 1 =>
    match window s.myCore va with
    | .none => .trap causeTranslation va
    | .global =>
      match s.freePage va with
      | .ok (.global pa) =>
        match s.freePages (va + 65536) n with
        | .ok l => .ok (pa / 65536 :: l)
        | p => p
      | .ok _ => .trap causeProtection va
      | .trap c => .trap c va
      | .miss | .absent => .miss va
    | _ => .trap causeProtection va

/-- Marks a block free: its lines leave the LLC and every L1 of the partition without write-back, and it reads 0
(R191, R197). -/
def State.markFree (s : State) (part : Option Nat) (b : Nat) : State :=
  { s with
    mem := memClear s.mem (b * 65536) 65536
    freeMarks := if s.freeMarks.contains b then s.freeMarks else b :: s.freeMarks
    cores := s.cores.map fun e =>
      if s.partOf e.1 = part then (e.1, { e.2 with l1 := e.2.l1.filter (fun x => decide (x.line / 1024 ≠ b)) }) else e }

/-- `mfree` (R197): it waits for the translation of each page that the core's TLB does not hold (R273). -/
def execMfree (d a : GReg) (s : State) : Out :=
  let x := s.me.gr a
  let n := (s.me.gr d).toNat
  let i : Instr := .mfree d a
  if x.toNat % 65536 ≠ 0 then trap causeMisaligned x s
  else if n = 0 ∨ 4096 < n then illegal i s
  else
    let s1 := s.unwalk (.ctx s.cur s.me.tid)
    match s.freePages x n with
    | .trap c va => trap c va s1
    | .miss va => .next (s.missWait s.cur i s.myPart va .store)
    | .ok l => retire id (l.foldl (fun s b => s.markFree (s.partOf s.myCore) b) s1)

-- Events of the L1s

/-- An L1 gives up a line: its dirty bytes are written back first (R184). -/
def execL1Eviction (core line : Nat) (s : State) : Out := .next (s.l1Invalidate core line)

/-- Whether a drain request can go on: its core has a line to write back, or every write of it is acknowledged (R188). -/
def State.drainMoves (s : State) (core : Nat) (g : Sig) (part : Nat) : Bool :=
  !s.inPart core part || (s.core core).l1.any (fun e => decide (e.dirty ≠ 0) && inSig g e.line)
    || !s.writesQueued core (inSig g)

/-- The drain request at `State.sel` reaches its core (R188): the lines are written back, and it is acknowledged once
those writes are. -/
def execDrain (s : State) : Out :=
  match s.msgs[s.sel]? with
  | some (.drain core g part dest) =>
    let s0 := s.dropMsg s.sel
    let s1 := if s0.inPart core part then s0.drainCore core g else s0
    .next (s1.send (if s0.inPart core part && s1.writesQueued core (inSig g) then .drain core g part dest else .drainAck dest))
  | _ => .next s

/-- One drain of an acquire is acknowledged (R187). -/
def State.ackDrain (s : State) (cx : Nat) (tid : BitVec 32) : State :=
  if (s.ctx cx).waits tid 2 then
    let s1 := s.modCtx cx (fun c => { c with wait := c.wait.map (fun w => { w with acks := w.acks - 1 }) })
    match (s1.ctx cx).wait with
    | some w => if w.acks = 0 ∧ !s1.sweepingFor cx then s1.endAcquire cx else s1
    | none => s1
  else s

/-- The acknowledgement of a drain at `State.sel` arrives (R186, R187): an acquire goes on, or a request that carries a
release is performed at its home. -/
def execDrainAck (s : State) : Out :=
  match s.msgs[s.sel]? with
  | some (.drainAck dest) =>
    let s0 := s.dropMsg s.sel
    match dest with
    | .ctx cx tid _ => .next (s0.ackDrain cx tid)
    | .req r => .next (s0.send (.req r))
    | .none => .next s0
  | _ => .next s

/-- The listed cores of a partition. -/
def State.coresOf (s : State) (part : Nat) : List Nat := s.listedCores.filter (fun k => s.inPart k part)

/-- The first pass of a sweep (R189). No L1 keeps a copy of a line written before, so later releases need not name it
(log 17); lines whose write-backs wait at reserved words are named still. -/
def State.sweepPass (s : State) (part : Nat) : State :=
  let s1 := (s.coresOf part).foldl (fun s k => s.invalidateAll k) s
  (s1.coresOf part).foldl (fun s k =>
    s.modCore k (fun c => { c with wsig := (s.queuedCells k).foldl (fun g x => sigAdd g (x.1 / 64)) 0 })) s1

/-- The second pass of a sweep (R189): inherited signatures are cleared. -/
def State.sweepClear (s : State) (part : Nat) : State :=
  (s.coresOf part).foldl (fun s k => s.modCore k (fun c => { c with inh := 0 })) s

/-- Whether every L1 of a partition has finished the first pass of a sweep (R189): its writes are acknowledged. -/
def State.sweepDone (s : State) (part : Nat) : Bool := (s.coresOf part).all (fun k => !s.writesQueued k (fun _ => true))

/-- A sweep of partition `State.sel` starts (R189): acquires wait until its end. -/
def execSweep (s : State) : Out := .next ((s.modPart s.sel (fun p => { p with sweeping := true })).sweepPass s.sel)

/-- The sweep of partition `State.sel` ends (R189): acquires whose drains are acknowledged complete. -/
def execSweepEnd (s : State) : Out :=
  let s1 := (s.modPart s.sel (fun p => { p with sweeping := false })).sweepClear s.sel
  let due (cx : Nat) : Bool :=
    s1.partOf (coreOf cx) == some s.sel && decide ((s1.ctx cx).state = .waiting) &&
      (match (s1.ctx cx).wait with | some w => decide (w.ph = 2) && decide (w.acks = 0) | none => false)
  .next (((s1.ctxs.map Prod.fst).filter due).foldl (fun s cx => s.endAcquire cx) s1)

end Sys2Proof.Machine
end

