-- ==== Sys2Proof/Machine/Fp.lean ====
section
/-! DEFINITION. Scalar floating point (R96–R99). -/

namespace Sys2Proof.Machine

/-- Writes an FP result and records its flags (R86, R96). -/
def fpResult (d : Reg8) (k : Ctx → Word × FFlags) (s : State) : Out :=
  retire (fun c =>
    let r := k c
    (c.setF d r.1).flags r.2) s

/-- `fadd` (R96, R97). -/
def execFadd (z : Prec) (r : RMode) (d a b : Reg8) (s : State) : Out :=
  fpResult d (fun c => faddW z r (c.fr a) (c.fr b)) s

/-- `fsub` (R96, R97). -/
def execFsub (z : Prec) (r : RMode) (d a b : Reg8) (s : State) : Out :=
  fpResult d (fun c => fsubW z r (c.fr a) (c.fr b)) s

/-- `fmul` (R96, R97). -/
def execFmul (z : Prec) (r : RMode) (d a b : Reg8) (s : State) : Out :=
  fpResult d (fun c => fmulW z r (c.fr a) (c.fr b)) s

/-- `fdiv` (R96, R97). -/
def execFdiv (z : Prec) (r : RMode) (d a b : Reg8) (s : State) : Out :=
  fpResult d (fun c => fdivW z r (c.fr a) (c.fr b)) s

/-- `fma` (R96, R97). -/
def execFma (z : Prec) (r : RMode) (d a b e : Reg8) (s : State) : Out :=
  fpResult d (fun c => fmaW z r (c.fr a) (c.fr b) (c.fr e)) s

/-- `fsqrt` (R96, R97). -/
def execFsqrt (z : Prec) (r : RMode) (d a : Reg8) (s : State) : Out :=
  fpResult d (fun c => fsqrtW z r (c.fr a)) s

/-- `fmin` (R97). -/
def execFmin (z : Prec) (d a b : Reg8) (s : State) : Out :=
  fpResult d (fun c => fminMaxW false z (c.fr a) (c.fr b)) s

/-- `fmax` (R97). -/
def execFmax (z : Prec) (d a b : Reg8) (s : State) : Out :=
  fpResult d (fun c => fminMaxW true z (c.fr a) (c.fr b)) s

/-- `fcmp` (R98). -/
def execFcmp (k : FCond) (z : Prec) (d a b : Reg8) (s : State) : Out :=
  retire (fun c =>
    let r := fcmpV k (fval z (c.fr a)) (fval z (c.fr b))
    (c.setP d r.1).flags (FFlags.inv r.2)) s

/-- `fclass` (R98). -/
def execFclass (z : Prec) (d : GReg) (a : Reg8) (s : State) : Out :=
  retire (fun c => c.setG d (fclassW z (c.fr a))) s

/-- `fcvt.d2s` (R99). -/
def execFcvtD2s (r : RMode) (d a : Reg8) (s : State) : Out :=
  fpResult d (fun c => fcvtW .f64 .f32 r (c.fr a)) s

/-- `fcvt.s2d` (R99). -/
def execFcvtS2d (d a : Reg8) (s : State) : Out :=
  fpResult d (fun c => fcvtW .f32 .f64 .rne (c.fr a)) s

/-- `fcvt.d2i` (R99). -/
def execFcvtD2i (r : RMode) (t : ITy) (d : GReg) (a : Reg8) (s : State) : Out :=
  retire (fun c =>
    let x := fcvtIntW .f64 r t (c.fr a)
    (c.setG d x.1).flags x.2) s

/-- `fcvt.s2i` (R99). -/
def execFcvtS2i (r : RMode) (t : ITy) (d : GReg) (a : Reg8) (s : State) : Out :=
  retire (fun c =>
    let x := fcvtIntW .f32 r t (c.fr a)
    (c.setG d x.1).flags x.2) s

/-- `fcvt.i2d` (R99). -/
def execFcvtI2d (r : RMode) (t : ITy) (d : Reg8) (a : GReg) (s : State) : Out :=
  fpResult d (fun c => fcvtFromIntW .f64 r t (c.gr a)) s

/-- `fcvt.i2s` (R99). -/
def execFcvtI2s (r : RMode) (t : ITy) (d : Reg8) (a : GReg) (s : State) : Out :=
  fpResult d (fun c => fcvtFromIntW .f32 r t (c.gr a)) s

/-- `fmvgf` (R99). -/
def execFmvgf (d : Reg8) (a : GReg) (s : State) : Out :=
  retire (fun c => c.setF d (c.gr a)) s

/-- `fmvfg` (R99). -/
def execFmvfg (d : GReg) (a : Reg8) (s : State) : Out :=
  retire (fun c => c.setG d (c.fr a)) s

end Sys2Proof.Machine
end

