-- ==== Sys2Proof/Machine/Pages.lean ====
section
/-! DEFINITION. Scratchpad pages and their frames: refills, write-backs and unpinning (R148–R151). -/

namespace Sys2Proof.Machine

/-- The first location of a page's SRAM. -/
def pageLoc (core page : Nat) : Nat := scratchLoc core (page * 4096)

/-- Copies the frame into the SRAM unchanged (R149). -/
def State.copyIn (s : State) (core page : Nat) : State :=
  { s with mem := memCopy s.mem (globalLoc (s.page core page).frame) (pageLoc core page) 4096 }

/-- Copies the SRAM into the frame unchanged (R151): a write to its block, which clears a free mark (R191). -/
def State.copyOut (s : State) (core page : Nat) : State :=
  { s with
    mem := memCopy s.mem (pageLoc core page) (globalLoc (s.page core page).frame) 4096
    freeMarks := s.freeMarks.filter (fun b => decide (b ≠ globalLoc (s.page core page).frame / 65536)) }

/-- The first location of every line of 4 KiB. -/
def pageLines (loc : Nat) : List Nat := (List.range 64).map (fun i => loc + 64 * i)

/-- A read of 4 KiB that finds the errors there (R396). -/
def State.readPageAt (s : State) (core loc : Nat) : State × Bool :=
  s.readCheck (pageLines loc) 0 ((s.partOf core).getD 0)

/-- A refill (R149): the page is resident, unless its frame cannot be read (R396). -/
def State.refillPage (s : State) (core page : Nat) : State :=
  match s.readPageAt core (globalLoc (s.page core page).frame) with
  | (s1, false) => (s1.copyIn core page).modPage core page (fun d => { d with res := true, dirty := false, busy := false })
  | (s1, true) => s1.modPage core page (fun d => { d with busy := false })

/-- A write-back (R151): the page's bytes are in its frame, unless they cannot be read or the frame is gone (R396, R398), and
the page is no longer resident. DESIGN CHOICE: DIRTY is cleared; R148 and R151 say so only of the next refill (log 74). -/
def State.writeBackPage (s : State) (core page : Nat) : State :=
  let s2 := match s.readPageAt core (pageLoc core page) with
    | (s1, bad) => if bad || s1.frameGone core page then s1 else s1.copyOut core page
  s2.modPage core page (fun d => { d with res := false, dirty := false, busy := false, wb := false })

/-- A refill ends: the page is resident, and the requests that wait for it can be performed (R149, R150); they receive error
status when its frame cannot be read (R396). -/
def execRefillComplete (core page : Nat) (s : State) : Out :=
  let d := s.page core page
  if d.busy ∧ !d.wb then .next (s.refillPage core page) else .next s

/-- Unpinning starts (R151): a dirty page is written back, a clean one leaves at once. A refill in progress ends first. -/
def State.unpin (s : State) (core page : Nat) : State :=
  let d := s.page core page
  if d.busy ∨ !d.res then s
  else if d.dirty then s.modPage core page (fun d => { d with busy := true, wb := true })
  else s.modPage core page (fun d => { d with res := false })

/-- A write-back ends (R151): the page is no longer resident, and a request that waits for it starts a new refill. -/
def execPageWritebackComplete (core page : Nat) (s : State) : Out :=
  let d := s.page core page
  if d.busy ∧ d.wb then .next (s.writeBackPage core page) else .next s

/-- A page is unpinned with everything that is in progress on it complete (R152, R278). -/
def State.unpinNow (s : State) (core page : Nat) : State :=
  let d := s.page core page
  let leave (s : State) : State :=
    s.modPage core page (fun d => { d with res := false, dirty := false, busy := false, wb := false })
  if d.busy ∧ !d.wb then leave (s.refillPage core page)
  else if d.res ∧ d.dirty then s.writeBackPage core page
  else if d.res then leave s else s

end Sys2Proof.Machine
end

