-- ==== Sys2Proof/Machine/Launch.lean ====
section
/-! DEFINITION. Launches: the record and its checks, the dispatcher's states, placement, the done tree and the done word
(R152, R324–R330, R340). The dispatcher of a die acts as an engine through the partition's translation (R326), for core 0
of cluster 0 of its die (R274). -/

namespace Sys2Proof.Machine

/-- The core under whose place a die's dispatcher stands (R66, R274). -/
def dieCore (die : Nat) : Nat := die * 12800
/-- The name under which the releases of a die's dispatcher stand in release records: no core has it (log 30). -/
def dispCore (die : Nat) : Nat := 102400 + die

/-- A store of the dispatcher that carries a release (R186, R325, R332). -/
def State.releaseStore (s : State) (by_ : Nat) (locs : List Nat) (v : Nat) (g : Sig) : State :=
  let l := locs.headD 0
  if isGlobalLoc l then
    let s1 := match s.recOf (l / 64) with
      | some e => if e.core ≠ by_ then s.drainCore e.core e.sig else s
      | none => s
    (s1.setRec (l / 64) ⟨by_, g⟩).storeAt locs v
  else s.storeAt locs v

-- The record (R324)

/-- Dword `i` of bytes. -/
def dwordAt (b : List Byte) (i : Nat) : Nat := ofBytes ((b.drop (8 * i)).take 8)

/-- The cores of a range of clusters that a mask names, ascending (R324, R326). -/
def maskedCores (first count mask : Nat) : List Nat :=
  ((List.range' first count).map fun cl =>
    ((List.range 64).filter (fun q => mask.testBit q)).map (fun q => cl * 64 + q)).flatten

/-- Whether a value is an 8-byte aligned global address. -/
def globalDword (x : Nat) : Bool := decide (x % 8 = 0) && inGlobal (BitVec.ofNat 64 x)

/-- Whether a record is valid in a partition (R324). -/
def State.recordOk (s : State) (b : List Byte) : Bool :=
  let d := dwordAt b
  let c := d 0
  let part := nbits c 9 0
  let first := nbits (d 2) 10 0
  let count := nbits (d 2) 26 16
  let ndep := nbits c 22 20
  decide (nbits c 15 10 = 0) && !c.testBit 19 && !c.testBit 23 && decide (nbits c 63 29 = 0)
    && decide (nbits (d 2) 15 11 = 0) && decide (nbits (d 2) 63 27 = 0) && decide (nbits (d 15) 63 16 = 0)
    && decide (ndep ≤ 4) && decide (nbits c 27 24 ≠ 0) && decide (d 3 ≠ 0) && decide (count ≠ 0)
    && decide (first + count ≤ 1600)
    && (List.range' first count).all (fun cl => (s.cluster cl).part == some part)
    && decide (d 1 % 4 = 0) && inGlobal (BitVec.ofNat 64 (d 1))
    && globalDword (d 8) && (List.range ndep).all (fun i => globalDword (d (9 + i)))
    && (decide (d 14 = 0) || (decide (d 15 ≠ 0) && decide (d 15 ≤ 49152)))

/-- The launch of a valid record (R324, R326). -/
def State.launchOf (s : State) (die : Nat) (b : List Byte) (node : Option (Nat × Nat)) : Launch :=
  let d := dwordAt b
  let c := d 0
  let first := nbits (d 2) 10 0
  let count := nbits (d 2) 26 16
  let w (i : Nat) : Word := BitVec.ofNat 64 (d i)
  let ndep := nbits c 22 20
  { id := s.nextLaunch, part := nbits c 9 0, die := die, prio := nbits c 18 16, dfail := c.testBit 28
    entry := w 1, args := [w 4, w 5, w 6, w 7], doneW := w 8
    deps := (List.range ndep).map (fun i => w (9 + i))
    todo := ((maskedCores first count (d 3)).map (fun k => List.replicate (nbits c 27 24) k)).flatten
    unsent := [], scr := if d 14 = 0 then [] else maskedCores first count (d 3 ||| d 13)
    simg := w 14, slen := nbits (d 15) 15 0
    st := if ndep = 0 then .queued else .held, check := s.now, flight := 0, live := [], rep := [], ctxsN := 0, faults := 0
    code := 0, tstat := 0, sig := 0, node := node }

/-- The answer of a dispatcher to a record (R326, R340): 0 accepted, 3 the partition's 64 are full, 4 invalid or another
partition's. -/
def State.acceptRecord (s : State) (die part : Nat) (b : List Byte) (node : Option (Nat × Nat)) : State × Nat :=
  if !s.recordOk b || decide (nbits (dwordAt b 0) 9 0 ≠ part) then (s, 4)
  else
    let here := s.launches.filter fun l =>
      l.die == die && l.part == part && (decide (l.st = .held) || decide (l.st = .queued))
    if 64 ≤ here.length then (s, 3)
    else ({ s with launches := s.launches ++ [s.launchOf die b node], nextLaunch := s.nextLaunch + 1 }, 0)

-- The done word (R325)

/-- The done word of a launch. -/
def Launch.doneWord (l : Launch) : Nat :=
  l.code + 2 ^ 8 + l.tstat % 16 * 2 ^ 12 + min l.faults 65535 * 2 ^ 16 + l.ctxsN % 2 ^ 32 * 2 ^ 32

/-- Changes a launch. -/
def State.modLaunch (s : State) (id : Nat) (f : Launch → Launch) : State :=
  { s with launches := s.launches.map (fun l => if l.id = id then f l else l) }

/-- A launch is over: it leaves the dispatcher, held launches of its partition read their dependences again, and a node
that waits for it learns its outcome (R326, R334). -/
def State.launchOver (s : State) (l : Launch) : State :=
  let s1 : State :=
    { s with
      launches := (s.launches.filter (fun x => decide (x.id ≠ l.id))).map fun x =>
        if x.part = l.part ∧ x.st = .held then { x with check := s.now } else x }
  match l.node with
  | some (g, n) => s1.send (.nodeDone l.part g n (decide (l.code = 0)) l.sig)
  | none => s1

/-- Writes a word of the dispatcher with a release, if its page can be written now; none when it cannot be written at all
(R326). -/
inductive DevWrite
  | done (s : State)
  | denied
  | wait (p : Plan)

/-- A device write of a dword, with a release: another core's record at its line is drained first (R186). -/
def State.devWrite (s : State) (who : Requester) (die part : Nat) (va : Word) (v : Nat) (g : Sig) : DevWrite :=
  match s.planOne who (dieCore die) part va 8 .engWrite with
  | .ok l =>
    if l.any s.gone || (s.obj? (l.headD 0 / 64)).isSome then .denied
    else
      let line := l.headD 0 / 64
      let old := if isGlobalLoc (l.headD 0) then s.toDrain (dispCore die) line else none
      let s1 := match old with | some e => s.drainCore e.core e.sig | none => s
      if old.any s1.undrained then .wait .busy else .done ((s1.unitDone who).releaseStore (dispCore die) l v g)
  | .trap _ _ => .denied
  | p => .wait p

/-- A dispatcher's unit waits for what stands before its access: a fault is queued with its TID (R274). -/
def State.devWait (s : State) (who : Requester) (die part : Nat) (p : Plan) : State := s.unitWait who (dieCore die) part p

/-- What an at-home read of the dispatcher meets: the bytes, an error or a trap, or something to wait for. -/
inductive DevRead
  | got (s : State) (b : List Byte)
  | bad (s : State)
  | wait (p : Plan)

/-- The records of the lines of locations. -/
def State.recsAt (s : State) (locs : List Nat) : List Rec :=
  ((locs.filter isGlobalLoc).map (fun l => l / 64)).eraseDups.filterMap s.recOf

/-- A read of the dispatcher at its home, with an acquire at `.pkg` (R334, R336): the cores of the records at its lines
drain first. During a sweep of the partition the acquire waits, and the read with it (R189, R198). -/
def State.devRead (s : State) (who : Requester) (die part : Nat) (va : Word) (n : Nat) : DevRead :=
  match s.plan who (dieCore die) part .engRead (piecesOf va n) with
  | .ok locs =>
    let s1 := (s.recsAt locs).foldl (fun s r => s.drainCore r.core r.sig) s
    if (s.part part).sweeping || (s.recsAt locs).any s1.undrained then .wait .busy
    else
      let (s2, r) := (s1.unitDone who).unitRead locs 0xFFFFFFFF part
      match r with
      | some b => .got s2 b
      | none => .bad s2
  | .trap _ _ => .bad (s.unitDone who)
  | p => .wait p

/-- Whether a read of the dispatcher does something now. -/
def State.devReads (s : State) (who : Requester) (part : Nat) (r : DevRead) : Bool :=
  match r with
  | .wait p => s.planMoves who part p
  | _ => true

/-- A dispatcher's launch waits: a fault is queued with its TID (R274, R326). -/
def State.launchWait (s : State) (l : Launch) (p : Plan) : State := s.devWait (.launch l.id) l.die l.part p

/-- Writes the done word (R325, R326): one that cannot be written is logged with KIND 8. -/
def State.launchDone (s : State) (l : Launch) : State :=
  match s.devWrite (.launch l.id) l.die l.part l.doneW l.doneWord l.sig with
  | .done s1 => s1.launchOver l
  | .denied => (s.logErr l.die 8 l.part l.doneW.toNat 0).launchOver l
  | .wait p => s.launchWait l p

/-- Whether nothing of a launch is left to place or to report (R328). -/
def Launch.reported (l : Launch) : Bool :=
  l.todo.isEmpty && decide (l.flight = 0) && l.live.all (fun e => l.rep.contains e.1)

/-- A launch whose reports are complete writes its done word (R328). -/
def State.launchSettle (s : State) (id : Nat) : State :=
  match s.launches.find? (fun l => l.id == id) with
  | some l =>
    if l.reported && decide (l.st = .placing ∨ l.st = .running ∨ l.st = .ending) then
      let l1 : Launch := { l with st := .ending }
      (s.modLaunch id (fun _ => l1)).launchDone l1
    else s
  | none => s

/-- A launch places no further context (R326): CODE 4 or 5; its done word is written once the placed ones have ended. -/
def State.launchStop (s : State) (id code : Nat) : State :=
  ((s.unitDone (.launch id)).modLaunch id (fun l =>
    { l with todo := [], unsent := [], scr := [], flight := l.flight - l.unsent.length
             st := if l.st = .running then .running else .placing, code := max l.code code })).launchSettle id

-- Dependences (R326)

/-- What the dependences of a held launch say. -/
inductive Deps
  | ready
  | failed
  | pending
  | unreadable
  | wait (p : Plan)

/-- Reads the dependences in order; a read finds the errors that lie there (R396). -/
def State.readDeps (s : State) (l : Launch) : List Word → State × Deps
  | [] => (s, .ready)
  | a :: t =>
    match s.planOne (.launch l.id) (dieCore l.die) l.part a 8 .engRead with
    | .ok locs =>
      let (s1, bad) := (s.unitDone (.launch l.id)).readCheck locs 0xFFFFFFFF l.part
      let v := s1.rd locs
      if bad then (s1, .unreadable)
      else if v.testBit 8 then
        if nbits v 7 0 ≠ 0 ∧ l.dfail then (s1, .failed) else s1.readDeps l t
      else
        match s1.readDeps l t with
        | (s2, .ready) => (s2, .pending)
        | r => r
    | .trap _ _ => (s, .unreadable)
    | p => (s, .wait p)

-- Scratch images (R152)

/-- A page that a scratch image covers has a frame: its own, or one that the service core allots, if it can (R152)
(log 20). -/
def State.imageFrame (s : State) (core page : Nat) : State :=
  if (s.page core page).v then s
  else
    let s1 : State := { s with fresh := s.fresh + 1 }
    match Config.imageFrame s.fresh with
    | some f => s1.modPage core page (fun d => { d with v := true, frame := f.toNat * 4096 })
    | none => s1

/-- Places the bytes of an image that fall on one page (R152). A page that no frame can be allotted to keeps V = 0, and one
whose frame cannot be read takes none (R396). -/
def State.imagePage (s : State) (core page lay : Nat) (b : List Byte) : State :=
  let s1 := ((s.unpinNow core page).modPage core page (fun d => { d with lay := lay })).imageFrame core page
  if (s1.page core page).v then
    let s2 := s1.refillPage core page
    if (s2.page core page).res then s2.store (cellsOfBytes (span (scratchLoc core (page * 4096)) b.length) b) else s2
  else s1

/-- The layouts that the object of an image declares (R46, R55) (log 53). -/
def State.imageLay (s : State) (part : Nat) (simg : Word) (page : Nat) : Nat :=
  match (tget [] (part * 2 ^ 64 + simg.toNat) s.shapes).reverse.find? (fun e => e.1 == page) with
  | some e => e.2
  | none => 0

/-- Places an image on a core, page by page. -/
def State.placeImage (s : State) (l : Launch) (b : List Byte) (core : Nat) : State :=
  (List.range (ceilDiv b.length 4096)).foldl
    (fun s p => s.imagePage core p (s.imageLay l.part l.simg p) ((b.drop (p * 4096)).take 4096)) s

/-- The spawn message of a placement (R327): the dispatcher of the core's die sends it (R326). -/
def Launch.spawnMsg (l : Launch) (core : Nat) : SpawnMsg :=
  { core := core, from_ := .disp l.id (dieOf core), entry := l.entry, a0 := l.args.getD 0 0, a1 := l.args.getD 1 0
    a2 := l.args.getD 2 0, a3 := l.args.getD 3 0, fx := false, tag := false, part := l.part }

/-- The dispatcher of every die that a launch touches receives its part (R326): its spawn messages go out one per cycle. -/
def State.launchSpawn (s : State) (l : Launch) : State :=
  (s.unitDone (.launch l.id)).modLaunch l.id (fun l => { l with scr := [], unsent := l.todo, flight := l.todo.length })

/-- A placement that is not accepted is tried again after 4,096 die cycles, or with a notice (R327). -/
def State.placeLater (s : State) (id die core : Nat) : State := s.send (.spawnRetry (.disp id die) core (s.dieCyc + 4096))

/-- A dispatcher sends the spawn message of a placement; one to a core that has left the launch's partition is refused like
any such spawn, and nothing is sent (R14, R64). -/
def State.placeOn (s : State) (l : Launch) (core : Nat) : State :=
  if s.partOf core = some l.part then s.send (.spawn (l.spawnMsg core)) else s.placeLater l.id (dieOf core) core

/-- The dispatcher of a die sends the next spawn message of its part of a launch (R326): by ascending core. -/
def State.placeNext (s : State) (id die : Nat) : State :=
  match s.launches.find? (fun l => l.id == id) with
  | some l =>
    match l.unsent.find? (fun k => dieOf k == die) with
    | some k =>
      (({ s with used := .place die :: s.used } : State).modLaunch id (fun l => { l with unsent := l.unsent.erase k })).placeOn l k
    | none => s
  | none => s

/-- A launch that is placing reads its scratch image as an engine does and places it on those of its cores that its partition
still holds (R20, R331); then its contexts are placed (R326). -/
def State.launchPlace (s : State) (l : Launch) : State :=
  if l.scr.isEmpty then s.launchSpawn l
  else
    match s.plan (.launch l.id) (dieCore l.die) l.part .engRead (piecesOf l.simg l.slen) with
    | .ok locs =>
      let (s1, r) := s.unitRead locs 0xFFFFFFFF l.part
      match r with
      | none => s1.launchStop l.id 5
      | some b =>
        ((l.scr.filter (fun k => decide (s1.partOf k = some l.part))).foldl (fun s k => s.placeImage l b k) s1).launchSpawn l
    | .trap _ _ => s.launchStop l.id 5
    | p => s.launchWait l p

/-- Whether a launch has something to do that nothing stands in the way of. -/
def State.launchMoves (s : State) (l : Launch) : Bool :=
  let who : Requester := .launch l.id
  !s.faulted who && !s.partOut l.part &&
    match l.st with
    | .held => decide (l.check ≤ s.now) &&
        (match (s.readDeps l l.deps).2 with | .wait p => s.planMoves who l.part p | _ => true)
    | .placing =>
      !l.scr.isEmpty &&
        s.planMoves who l.part (s.plan who (dieCore l.die) l.part .engRead (piecesOf l.simg l.slen))
    | .ending =>
      (match s.devWrite who l.die l.part l.doneW l.doneWord l.sig with
       | .wait p => s.planMoves who l.part p
       | _ => true)
    | _ => false

/-- The dispatcher goes on with launch `State.sel`: a held one reads its dependences again (R326); one that waited for a
translation or page goes on. -/
def execDepRecheck (s : State) : Out :=
  match s.launches.find? (fun l => l.id == s.sel) with
  | none => .next s
  | some l =>
    if !s.launchMoves l then .next s
    else
      match l.st with
      | .held =>
        match s.readDeps l l.deps with
        | (s1, .ready) => .next (s1.modLaunch l.id (fun l => { l with st := .queued }))
        | (s1, .failed) => .next (s1.launchStop l.id 4)
        | (s1, .unreadable) => .next (s1.launchStop l.id 5)
        | (s1, .pending) => .next (s1.modLaunch l.id (fun l => { l with check := s.now + 65536 }))
        | (s1, .wait p) => .next (s1.launchWait l p)
      | .placing => .next (s.launchPlace l)
      | .ending => .next (s.launchDone l)
      | _ => .next s

-- Selection (R326)

/-- The launches that a die can take for placing. -/
def State.selectable (s : State) (die : Nat) : List Launch :=
  s.launches.filter fun l =>
    l.die == die && decide (l.st = .queued) && !s.partOut l.part

/-- The launches that are placing on a die. -/
def State.placing (s : State) (die : Nat) : Nat :=
  (s.launches.filter (fun l => l.die == die && decide (l.st = .placing))).length

/-- How far a partition's turn is from the one served last. -/
def turnDist (last part : Nat) : Nat := (part + 1023 - last) % 1024

/-- The launch whose turn it is: its partition's turn, then the greatest priority, then the oldest. -/
def State.nextLaunchOf (s : State) (die : Nat) : Option Launch :=
  let last := (s.die die).lastPart
  let better (a b : Launch) : Bool :=
    if a.part ≠ b.part then decide (turnDist last a.part < turnDist last b.part)
    else decide (b.prio < a.prio)
  match s.selectable die with
  | [] => none
  | l :: t => some (t.foldl (fun b a => if better a b then a else b) l)

/-- The dispatcher of die `State.sel` takes a launch for placing (R326). -/
def execLaunchSelect (s : State) : Out :=
  if 4 ≤ s.placing s.sel then .next s
  else
    match s.nextLaunchOf s.sel with
    | none => .next s
    | some l =>
      let l1 : Launch := { l with st := .placing }
      let s1 := (s.modLaunch l.id (fun _ => l1)).modDie s.sel (fun d => { d with lastPart := l.part })
      .next (s1.launchPlace l1)

-- Answers to placements (R327)

/-- A placement was accepted: the launch runs once its last context is placed. -/
def State.placed (s : State) (id core : Nat) : State :=
  s.modLaunch id fun l =>
    let todo := l.todo.erase core
    { l with todo := todo, flight := l.flight - 1, ctxsN := l.ctxsN + 1
             st := if todo.isEmpty ∧ l.st = .placing ∧ l.code < 4 then .running else l.st }

/-- An answer to a placement (R327): a refused message is sent again later. -/
def State.answerDisp (s : State) (id die core reason : Nat) : State :=
  if reason = 0 then (s.placed id core).launchSettle id
  else s.placeLater id die core

/-- The refused placement at `State.sel` is sent again (R327). -/
def execDispatcherSpawnRetry (s : State) : Out :=
  match s.msgs[s.sel]? with
  | some (.spawnRetry (.disp id _) core _) =>
    let s0 := s.dropMsg s.sel
    match s0.launches.find? (fun l => l.id == id) with
    | some l =>
      if l.todo.contains core then .next (s0.placeOn l core)
      else .next ((s0.modLaunch id (fun l => { l with flight := l.flight - 1 })).launchSettle id)
    | none => .next s0
  | _ => .next s

/-- A context-free notice of a core reaches a die's dispatcher: what it refused is sent again (R327). -/
def State.noticeDisp (s : State) (die core : Nat) : State :=
  { s with
    msgs := s.msgs.map fun m =>
      match m with
      | .spawnRetry (.disp id d) k _ => if d = die ∧ k = core then .spawnRetry (.disp id d) k 0 else m
      | _ => m }

-- Reports (R328)

/-- Whether a core can report to a launch: everything placed on it has ended or moved away. -/
def Launch.canReport (l : Launch) (core : Nat) : Bool :=
  !l.todo.contains core && !l.rep.contains core && l.live.any (fun e => e.1 == core) && decide (tget 0 core l.live = 0)

/-- Whether a core's report, or the release before it, can go on: it has dirty lines, or its write-backs are
acknowledged (R186, R328). -/
def State.reports (s : State) (l : Launch) (core : Nat) : Bool :=
  l.canReport core
    && ((s.core core).l1.any (fun e => decide (e.dirty ≠ 0)) || !s.writesQueued core (fun _ => true))

/-- A core reports to a launch after it has released at `.pkg` (R328): its write-backs are acknowledged first (R186). -/
def execCoreDoneReport (id core : Nat) (s : State) : Out :=
  match s.launches.find? (fun l => l.id == id) with
  | some l =>
    if l.canReport core then
      let (s1, g) := s.makeRelease core .pkg
      if s1.writesQueued core (fun _ => true) then .next s1
      else .next ((s1.modLaunch id (fun l => { l with rep := core :: l.rep, sig := l.sig ||| g })).launchSettle id)
    else .next s
  | none => .next s

-- lnch (R329, R340)

/-- A request of the current context to the dispatcher of a die. -/
def State.dispReq (s : State) (i : Instr) (die : Nat) (va : Word) (locs vals : List Nat) : Req where
  cx := s.cur
  tid := s.me.tid
  part := s.myPart
  tag := s.me.tag
  home := .disp die
  i := i
  va := va
  locs := locs
  lanes := []
  vals := vals
  sig := none
  blocked := false

/-- `lnch` at its dispatcher. One whose issuer was torn down first is dropped, and its done word written (R329): the
values then hold CODE and TSTAT. -/
def homeLnch (r : Req) (s : State) : HomeOut :=
  let die := r.home.die
  let (s1, bad) := s.readCheck r.locs r.tid r.part
  if bad then (s1, some (r.fail causeData))
  else
    let b := s1.rdBytes r.locs
    match r.vals with
    | code :: tstat :: _ =>
      if s1.recordOk b && decide (nbits (dwordAt b 0) 9 0 = r.part) then
        let l : Launch :=
          { s1.launchOf die b none with st := .ending, todo := [], unsent := [], scr := [], code := code, tstat := tstat }
        ((({ s1 with launches := s1.launches ++ [l], nextLaunch := s1.nextLaunch + 1 } : State).launchDone l), none)
      else (s1, none)
    | _ =>
      let (s2, code) := s1.acceptRecord die r.part b none
      (s2, some (r.reply [code]))

/-- The end of an instruction whose home answers a code. -/
def endCode (d : GReg) : Reply → State → State := finishWith (fun rep c => c.setG d (BitVec.ofNat 64 rep.val))

/-- `lnch` (R339, R340): its release writes every dirty line back. -/
def execLnch (d a : GReg) (s : State) : Out :=
  let x := s.me.gr a
  let i : Instr := .lnch d a
  if x.toNat % 128 ≠ 0 then trap causeMisaligned x s
  else if !inGlobal x then trap causeProtection x s
  else
    withLoc i x .load s fun l =>
      s.afterWriteBack 1 i fun s1 => .next (s1.ask 1 (s1.dispReq i (dieOf s.myCore) x (bytesOf l 128) []))

/-- Drops the `lnch` of a torn-down context of a partition that is still on its way (R329). -/
def dropLnch (part : Nat) (tid : BitVec 32) (code tstat : Nat) (m : Msg) : Msg :=
  match m with
  | .req r =>
    match r.i with
    | .lnch _ _ => if r.part = part ∧ r.tid = tid ∧ r.vals = [] then .req { r with vals := [code, tstat] } else m
    | _ => m
  | _ => m

/-- The tear-down notice at `State.sel` reaches its dispatcher (R329). -/
def execTeardownNotice (s : State) : Out :=
  match s.msgs[s.sel]? with
  | some (.teardown _ part tid term) =>
    let s0 := s.dropMsg s.sel
    .next { s0 with msgs := s0.msgs.map (dropLnch part tid (if term then 2 else 3) 0) }
  | _ => .next s

/-- What FQDENY does to a launch that waits (R326). -/
def State.launchDenied (s : State) (id : Nat) : State :=
  match s.launches.find? (fun l => l.id == id) with
  | some l =>
    if l.st = .ending then ((s.unitDone (.launch id)).logErr l.die 8 l.part l.doneW.toNat 0).launchOver l else s.launchStop id 5
  | none => s

end Sys2Proof.Machine
end

