-- ==== Sys2Proof/Machine/Graphs.lean ====
section
/-! DEFINITION. Task graphs, notify registers, wake words and Belfry timers (R332–R345). -/

namespace Sys2Proof.Machine

-- Graphs (R332–R335)

/-- Whether two numbers name a graph. -/
def Graph.is (part handle : Nat) (g : Graph) : Bool := g.part == part && g.handle == handle

/-- A resident graph. -/
def State.graph? (s : State) (part handle : Nat) : Option Graph := s.graphs.find? (Graph.is part handle)

/-- Dword 4 of a graph's header (R332). -/
def Graph.status (g : Graph) : Nat :=
  g.compl % 2 ^ 32 + g.fail.toNat * 2 ^ 32 + g.ovf.toNat * 2 ^ 33 + g.fnode % 4096 * 2 ^ 36

/-- Whether an update of a graph's status is not performed yet. -/
def State.statusDue (s : State) (part handle : Nat) : Bool :=
  s.msgs.any fun m => match m with | .status _ p g _ _ _ => p == part && g == handle | _ => false

/-- Stores a changed graph and updates its status in memory, with a release at `.pkg` (R332): updates are performed at the
word's home in order, and one that cannot be performed yet waits (R209, R274). -/
def State.putGraph (s : State) (g : Graph) (sig : Sig) : State :=
  let old := match s.graph? g.part g.handle with | some h => h.status | none => g.status
  let s1 : State := { s with graphs := s.graphs.map (fun h => if Graph.is g.part g.handle h then g else h) }
  if old = g.status then s1
  else
    let later := s1.send (.status g.die g.part g.handle (g.addr + 32) g.status sig)
    if s1.statusDue g.part g.handle then later
    else
      match s1.devWrite (.graph g.part g.handle 0) g.die g.part (g.addr + 32) g.status sig with
      | .done s2 => s2
      | .denied => s1
      | .wait _ => later

/-- Whether the status update at a message can go on. -/
def State.statusMoves (s : State) (die part handle : Nat) (va : Word) (v : Nat) (sig : Sig) : Bool :=
  !s.faulted (.graph part handle 0) &&
    match s.devWrite (.graph part handle 0) die part va v sig with
    | .wait p => s.planMoves (.graph part handle 0) part p
    | _ => true

/-- The status update at a message is performed, or waits (R332). One that can never be performed is dropped (log 21). -/
def State.putStatus (s : State) (k : Nat) : State :=
  match s.msgs[k]? with
  | some (.status die part handle va v sig) =>
    let who : Requester := .graph part handle 0
    match s.devWrite who die part va v sig with
    | .done s1 => s1.dropMsg k
    | .denied => s.dropMsg k
    | .wait p => s.devWait who die part p
  | _ => s

/-- Changes a node of a graph. -/
def Graph.modNode (g : Graph) (n : Nat) (f : Node → Node) : Graph := { g with nodes := modAt f n g.nodes }

/-- Makes a node ready (R334): it runs, or its readiness is kept while it runs. -/
def State.readyNode (s : State) (g : Graph) (n : Nat) (sig : Sig) : State :=
  match g.nodes[n]? with
  | none => s
  | some x =>
    if x.running then
      if x.pend < 255 then s.putGraph (g.modNode n (fun x => { x with pend := x.pend + 1 })) sig
      else s.putGraph { g with ovf := true } sig
    else (s.putGraph (g.modNode n (fun x => { x with running := true })) sig).send (.node g.part g.handle n)

/-- Decrements a successor (R334); 0xFFFF means none. -/
def State.decNode (s : State) (part handle n : Nat) (sig : Sig) : State :=
  if n = 0xFFFF then s
  else
    match s.graph? part handle with
    | none => s
    | some g =>
      match g.nodes[n]? with
      | none => s
      | some x =>
        if x.count ≤ 1 then s.readyNode (g.modNode n (fun x => { x with count := x.npred })) n sig
        else s.putGraph (g.modNode n (fun x => { x with count := x.count - 1 })) sig

/-- A run of a node ends; readiness that was kept starts the next run (R334). -/
def State.endRun (s : State) (part handle n : Nat) (sig : Sig) : State :=
  match s.graph? part handle with
  | none => s
  | some g =>
    match g.nodes[n]? with
    | none => s
    | some x =>
      if 0 < x.pend then
        (s.putGraph (g.modNode n (fun x => { x with pend := x.pend - 1 })) sig).send (.node part handle n)
      else s.putGraph (g.modNode n (fun x => { x with running := false })) sig

/-- A node fails: FAIL and the first FNODE are recorded, no successor is decremented (R332, R334). -/
def State.failNode (s : State) (g : Graph) (n : Nat) (sig : Sig) : State :=
  (s.putGraph { g with fail := true, fnode := if g.fail then g.fnode else n } sig).endRun g.part g.handle n sig

/-- The successor that a control node chooses (R334). -/
def Node.choose (x : Node) (c : Nat) : Nat :=
  if x.kind = 3 then x.table.getD (if c < x.table.length then c else x.table.length - 1) 0xFFFF
  else if c ≠ 0 then x.s0 else x.s1

/-- Whether an address can be a launch record's (R324). -/
def recordAddr (x : Word) : Bool := decide (x.toNat % 128 = 0) && inGlobal x

/-- The access of a graph's next node. -/
def Graph.nodeWho (g : Graph) (x : Node) : Requester := .graph g.part g.handle (if x.kind = 0 then 1 else 3)

/-- What a node reads when it runs: a plain node its launch record, a control node its condition, which a fault fails at
once (R334). -/
def State.nodeRead (s : State) (g : Graph) (x : Node) : DevRead :=
  let who := g.nodeWho x
  if x.kind = 0 then
    if recordAddr x.addr then s.devRead who g.die g.part x.addr 128 else .bad (s.unitDone who)
  else if inFleet x.addr then .bad (s.unitDone who)
  else
    match s.devRead who g.die g.part x.addr 8 with
    | .wait (.fault _ _ _ _) => .bad (s.unitDone who)
    | r => r

/-- Whether the node of a message can run, or begin to wait: the nodes of a graph run in the order in which they became
ready (log 21). -/
def State.nodeMoves (s : State) (part handle n : Nat) : Bool :=
  match s.graph? part handle with
  | none => true
  | some g =>
    match g.nodes[n]? with
    | none => true
    | some x => !s.faulted (.graph part handle 1) && s.devReads (g.nodeWho x) part (s.nodeRead g x)

/-- The node named by the message at `State.sel` runs (R334). A plain node's record is read as LAUNCH reads it, so a fault
of it is queued (R326). -/
def execNodeRun (s : State) : Out :=
  match s.msgs[s.sel]? with
  | some (.node part handle n) =>
    match s.graph? part handle with
    | none => .next (s.dropMsg s.sel)
    | some g =>
      match g.nodes[n]? with
      | none => .next (s.dropMsg s.sel)
      | some x =>
        match s.nodeRead g x with
        | .wait p => .next (s.devWait (g.nodeWho x) g.die part p)
        | .bad s1 => .next ((s1.dropMsg s.sel).failNode g n 0)
        | .got s1 b =>
          let s2 := s1.dropMsg s.sel
          if x.kind = 0 then
            match s2.acceptRecord g.die part b (some (handle, n)) with
            | (s3, 0) => .next s3
            | (s3, _) => .next (s3.failNode g n 0)
          else .next ((s2.decNode part handle (x.choose (ofBytes b)) 0).endRun part handle n 0)
  | _ => .next s

/-- FQDENY of the record of a graph's next node: the node fails (R326, R334). -/
def State.nodeDenied (s : State) (part handle : Nat) : State :=
  match s.msgs.findIdx? (fun m => match m with | .node p g _ => p == part && g == handle | _ => false) with
  | none => s
  | some k =>
    match s.msgs[k]?, s.graph? part handle with
    | some (.node _ _ n), some g => (s.dropMsg k).failNode g n 0
    | _, _ => s

/-- The dispatcher reports the launch of a plain node, in the message at `State.sel` (R334). -/
def execPlainNodeComplete (s : State) : Out :=
  match s.msgs[s.sel]? with
  | some (.nodeDone part handle n ok sig) =>
    let s0 := s.dropMsg s.sel
    match s0.graph? part handle with
    | none => .next s0
    | some g =>
      let g1 : Graph := { g with compl := (g.compl + 1) % 2 ^ 32 }
      if ok then
        match g.nodes[n]? with
        | some x =>
          .next ((((s0.putGraph g1 sig).decNode part handle x.s0 sig).decNode part handle x.s1 sig).endRun part handle n
            sig)
        | none => .next s0
      else .next (s0.failNode g1 n sig)
  | _ => .next s

/-- The answer of a graph to a `tkadd` (R341). -/
def State.tellAsker (s : State) (asker : Option (Nat × BitVec 32)) (code : Nat) : State :=
  match asker with
  | some (cx, tid) =>
    if (s.ctx cx).waits tid 1 then
      match (s.ctx cx).wait with
      | some w =>
        match w.i with
        | .tkadd d _ => s.finish cx 4 (fun c => c.setG d (BitVec.ofNat 64 code))
        | _ => s
      | none => s
    else s
  | none => s

/-- A task record reaches its graph (R335, R341). -/
def State.applyTask (s : State) (part : Nat) (w : Word) (asker : Option (Nat × BitVec 32)) : State :=
  let n := bits w 11 0
  match s.graph? part (bits w 15 12) with
  | none => s.tellAsker asker 1
  | some g =>
    if g.nodes.length ≤ n then (s.putGraph { g with ovf := true } 0).tellAsker asker 2
    else (s.readyNode g n 0).tellAsker asker 0

/-- The task record at `State.sel` reaches its graph (R335, R341). -/
def execTaskRecord (s : State) : Out :=
  match s.msgs[s.sel]? with
  | some (.task _ part w _ asker _) => .next ((s.dropMsg s.sel).applyTask part w asker)
  | _ => .next s

/-- `tkadd` (R339, R341): its release writes every dirty line back. -/
def execTkadd (d a : GReg) (s : State) : Out :=
  s.afterWriteBack 1 (.tkadd d a) fun s1 =>
    .next ((s1.block s.cur 1 (mkWait (.tkadd d a) 1 0 (wrapPc (s.me.pc + 4)))).send
      (.task (dieOf s.myCore) s.myPart (s.me.gr a) s.me.tid (some (s.cur, s.me.tid)) (some (s.myCore, s.me.tag))))

-- tgrun (R332, R333, R342)

/-- A header's node array, ring and RLOG, when it is valid (R332). -/
def headerOk (b : List Byte) : Bool :=
  let d := dwordAt b
  decide (1 ≤ d 0) && decide (d 0 ≤ 4096) && decide (d 1 % 32 = 0) && inGlobal (BitVec.ofNat 64 (d 1))
    && decide (d 2 % 16 = 0) && inGlobal (BitVec.ofNat 64 (d 2)) && decide (4 ≤ d 3) && decide (d 3 ≤ 16)
    && decide (d 5 = 0) && decide (d 6 = 0) && decide (d 7 = 0)

/-- Whether a successor index is allowed. -/
def succOk (nnode x : Nat) : Bool := decide (x = 0xFFFF) || decide (x < nnode)

/-- Whether the 32 bytes of a node are valid, its switch table apart (R333). -/
def nodeOk (nnode : Nat) (b : List Byte) : Bool :=
  let d := dwordAt b
  let kind := nbits (d 0) 2 0
  let ncase := nbits (d 0) 23 16
  decide (kind ≤ 3) && decide (nbits (d 0) 7 3 = 0) && decide (nbits (d 0) 63 24 = 0) && decide (nbits (d 2) 63 32 = 0)
    && succOk nnode (nbits (d 2) 15 0) && succOk nnode (nbits (d 2) 31 16)
    && (if kind = 3 then decide (ncase ≠ 0) && decide (d 3 % 2 = 0) && inGlobal (BitVec.ofNat 64 (d 3))
        else decide (ncase = 0) && decide (d 3 = 0))
    && (if kind = 0 then true else decide (d 1 % 8 = 0))

/-- A node as it becomes resident, with its table. -/
def nodeOf (b : List Byte) (table : List Nat) : Node :=
  let d := dwordAt b
  { kind := nbits (d 0) 2 0, npred := nbits (d 0) 15 8, addr := BitVec.ofNat 64 (d 1), s0 := nbits (d 2) 15 0
    s1 := nbits (d 2) 31 16, table := table, count := nbits (d 0) 15 8, running := false, pend := 0 }

/-- What reading a graph meets (R334): its nodes, an invalid one, an error or a trap, or something to wait for. -/
inductive TgRead
  | ok (s : State) (nodes : List Node)
  | invalid (s : State)
  | bad (s : State)
  | wait (p : Plan)

/-- A node read before others. -/
def TgRead.cons (x : Node) : TgRead → TgRead
  | .ok s l => .ok s (x :: l)
  | r => r

/-- Reads the switch tables of nodes in order (R333, R334). -/
def State.readNodes (s : State) (who : Requester) (die part nnode : Nat) : List (List Byte) → TgRead
  | [] => .ok s []
  | x :: rest =>
    let n := nbits (dwordAt x 0) 23 16
    if !nodeOk nnode x then .invalid s
    else if n = 0 then (s.readNodes who die part nnode rest).cons (nodeOf x [])
    else
      match s.devRead who die part (BitVec.ofNat 64 (dwordAt x 3)) (2 * n) with
      | .wait p => .wait p
      | .bad s1 => .bad s1
      | .got s1 t =>
        let l := (List.range n).map (fun i => ofBytes ((t.drop (2 * i)).take 2))
        if l.all (succOk nnode) then (s1.readNodes who die part nnode rest).cons (nodeOf x l) else .invalid s1

/-- Reads the nodes and tables of a graph, given its header (R334). -/
def State.readGraph (s : State) (who : Requester) (die part : Nat) (b : List Byte) : TgRead :=
  let n := dwordAt b 0
  if !headerOk b then .invalid s
  else
    match s.devRead who die part (BitVec.ofNat 64 (dwordAt b 1)) (32 * n) with
    | .wait p => .wait p
    | .bad s1 => .bad s1
    | .got s1 nb => s1.readNodes who die part n ((List.range n).map (fun i => (nb.drop (32 * i)).take 32))

/-- The answer of a failed `tgrun` (R342). -/
def tgFail (reason : Nat) : Nat := 2 ^ 63 + reason

/-- The lowest handle that a partition has free. -/
def State.freeHandle (s : State) (part : Nat) : Option Nat := findIdxFrom (fun h => (s.graph? part h).isNone) 16 0

/-- What the nodes and tables that a `tgrun` reads stand behind (R209, R272, R334), if anything. -/
def State.tgWaits (s : State) (r : Req) : Option Plan :=
  match r.i with
  | .tgrun _ _ =>
    let (s1, bad) := s.readCheck r.locs r.tid r.part
    if bad || (s1.freeHandle r.part).isNone then none
    else
      match s1.readGraph (.req r.cx r.tid) r.home.die r.part (s1.rdBytes r.locs) with
      | .wait p => some p
      | _ => none
  | _ => none

/-- `tgrun` at the dispatcher (R334, R342): it makes the graph resident, once all of it can be read. Without a free handle
it gives reason 1, whatever the header says (log 79). -/
def homeTgrun (r : Req) (s : State) : HomeOut :=
  let die := r.home.die
  let (s1, bad) := s.readCheck r.locs r.tid r.part
  if bad then (s1, some (r.fail causeData))
  else
    match s1.freeHandle r.part with
    | none => (s1, some (r.reply [tgFail 1]))
    | some h =>
      let b := s1.rdBytes r.locs
      match s1.readGraph (.req r.cx r.tid) die r.part b with
      | .wait _ => (s1, none)
      | .bad s2 => (s2, some (r.fail causeData))
      | .invalid s2 => (s2, some (r.reply [tgFail 2]))
      | .ok s2 nodes =>
        let used := ((s2.graphs.filter (fun g => g.die == die)).map (fun g => g.nodes.length)).sum
        if 65536 < used + nodes.length then (s2, some (r.reply [tgFail 3]))
        else
          let g : Graph :=
            { part := r.part, handle := h, die := die, addr := r.va, nodes := nodes, ring := BitVec.ofNat 64 (dwordAt b 2)
              rlog := dwordAt b 3, notify := 0, compl := 0, fail := false, ovf := false, fnode := 0 }
          ({ s2 with graphs := s2.graphs ++ [g] }, some (r.reply [h]))

/-- `tgrun` (R339, R342). -/
def execTgrun (d a : GReg) (s : State) : Out :=
  let x := s.me.gr a
  let i : Instr := .tgrun d a
  if x.toNat % 64 ≠ 0 then trap causeMisaligned x s
  else if !inGlobal x then trap causeProtection x s
  else withLoc i x .load s fun l => .next (s.ask 1 (s.dispReq i (dieOf s.myCore) x (bytesOf l 64) []))

-- Notify registers (R336, R343)

/-- A write of `v` to notify register `n` of a partition (R336). The records that it announces are read after it. -/
def State.notifyWrite (s : State) (part n v : Nat) : State :=
  match s.graph? part n with
  | none => s
  | some g =>
    let k := (v + 2 ^ 32 - g.notify) % 2 ^ 32
    if 2 ^ g.rlog < k then s.putGraph { g with ovf := true } 0
    else
      let s1 := s.putGraph { g with notify := v } 0
      if k = 0 then s1 else s1.send (.ring part n g.notify k)

/-- A graph's next ring slot, read at its home with an acquire at `.pkg` (R336). -/
def State.ringRead (s : State) (g : Graph) (slot : Nat) : DevRead :=
  s.devRead (.graph g.part g.handle 2) g.die g.part (g.ring + BitVec.ofNat 64 (16 * (slot % 2 ^ g.rlog))) 16

/-- Whether the next slot of a message can be read, or begin to wait; not while its partition is pre-empted (R338). -/
def State.ringMoves (s : State) (part handle slot : Nat) : Bool :=
  match s.graph? part handle with
  | none => true
  | some g =>
    !s.partOut part && !s.faulted (.graph part handle 2) && s.devReads (.graph part handle 2) part (s.ringRead g slot)

/-- The slots of the message at a position have one fewer to read. -/
def State.ringStep (s : State) (k part handle slot n : Nat) : State :=
  if n ≤ 1 then s.dropMsg k else { s with msgs := s.msgs.set k (.ring part handle ((slot + 1) % 2 ^ 32) (n - 1)) }

/-- The next slot of a message cannot be read: its record is lost, and OVF is set (R332) (log 21). -/
def State.ringLost (s : State) (k part handle slot n : Nat) : State :=
  let s1 := s.ringStep k part handle slot n
  match s1.graph? part handle with
  | some g => s1.putGraph { g with ovf := true } 0
  | none => s1

/-- The next slot of the message at a position is read, and its record admitted (R336). -/
def State.admitRing (s : State) (k : Nat) : State :=
  match s.msgs[k]? with
  | some (.ring part handle slot n) =>
    match s.graph? part handle with
    | none => s.dropMsg k
    | some g =>
      match s.ringRead g slot with
      | .got s1 b =>
        (s1.ringStep k part handle slot n).applyTask part (BitVec.ofNat 64 (dwordAt b 0)) none
      | .bad s1 => s1.ringLost k part handle slot n
      | .wait p => s.devWait (.graph part handle 2) g.die part p
  | _ => s

/-- FQDENY of a graph's next ring slot. -/
def State.ringDenied (s : State) (part handle : Nat) : State :=
  match s.msgs.findIdx? (fun m => match m with | .ring p g _ _ => p == part && g == handle | _ => false) with
  | none => s
  | some k =>
    match s.msgs[k]? with
    | some (.ring _ _ slot n) => s.ringLost k part handle slot n
    | _ => s

/-- FQDENY of an access of a graph: a status update is dropped, a node fails, a record is lost (R326, R334) (log 21). -/
def State.graphDenied (s : State) (part handle kind : Nat) : State :=
  match kind with
  | 0 =>
    match s.msgs.findIdx? (fun m => match m with | .status _ p g _ _ _ => p == part && g == handle | _ => false) with
    | some k => s.dropMsg k
    | none => s
  | 1 => s.nodeDenied part handle
  | _ => s.ringDenied part handle

/-- `notify` at the dispatcher. -/
def homeNotify (r : Req) (s : State) : HomeOut :=
  (s.notifyWrite r.part (r.vals.getD 0 0) (r.vals.getD 1 0), some (r.reply []))

/-- `notify` (R339, R343). -/
def execNotify (a b : GReg) (s : State) : Out :=
  let n := bits (s.me.gr a) 3 0
  let die := match s.graph? s.myPart n with | some g => g.die | none => dieOf s.myCore
  .next (s.ask 1 (s.dispReq (.notify a b) die 0 [] [n, bits (s.me.gr b) 31 0]))

-- Wake words (R337, R344, R345)

/-- The checks of R344, then the access. -/
def wakeAccess (i : Instr) (x : Word) (k : AccKind) (s : State) (go : Loc → Out) : Out :=
  if x.toNat % 8 ≠ 0 then trap causeMisaligned x s
  else if !(inScratch s.myCore x || inCupola x) then trap causeProtection x s
  else withLoc i x k s go

/-- `wwait` at the home: it returns at once if the word differs, else its context is watched. -/
def homeWwait (r : Req) (s : State) : HomeOut :=
  let (s1, bad) := s.readCheck r.locs r.tid r.part
  if bad then (s1, some (r.fail causeData))
  else
    let w := s1.rd r.locs
    if w ≠ r.vals.headD 0 then (s1, some (r.reply [w]))
    else
      ({ s1 with
          watches := s1.watches ++
            [{ cx := r.cx, tid := r.tid, loc := r.locs.headD 0, cmp := BitVec.ofNat 64 (r.vals.headD 0) }] }, none)

/-- The clean global lines of an L1 are invalidated (R344). -/
def State.dropClean (s : State) (core : Nat) : State :=
  s.modCore core (fun c => { c with l1 := c.l1.filter (fun e => decide (e.dirty ≠ 0)) })

/-- The end of `wwait`. -/
def endWwait (d : GReg) (rep : Reply) (s : State) : State :=
  finishWith (fun rep c => c.setG d (BitVec.ofNat 64 rep.val)) rep
    (if rep.trap.isSome then s else s.dropClean (coreOf rep.cx))

/-- `wwait` (R339, R344). -/
def execWwait (d a b : GReg) (s : State) : Out :=
  let x := s.me.gr a
  let i : Instr := .wwait d a b
  wakeAccess i x .load s fun l =>
    access 11 (s.mkReq i x l 8 [(s.me.gr b).toNat] none) l .load homeWwait (endWwait d) s

/-- The addition of a wake at its word's home (R337, R345). -/
def homeWake (r : Req) (s : State) : HomeOut :=
  if s.onObject r.locs then (s, some (r.fail causeProtection))
  else
    let (s1, bad) := s.readCheck r.locs r.tid r.part
    if bad then (s1, some (r.fail causeData))
    else (s1.storeAt r.locs ((s1.rd r.locs + 1) % 2 ^ 64), some (r.reply []))

/-- `wake` (R339, R345): its release writes every dirty line back. -/
def execWake (a : GReg) (s : State) : Out :=
  let x := s.me.gr a
  let i : Instr := .wake a
  wakeAccess i x .store s fun l =>
    s.afterWriteBack 1 i fun s1 => access 1 (s1.mkReq i x l 8 [] none) l .store homeWake (finishWith (fun _ c => c)) s1

-- Belfry timers (R338, R341, R345)

/-- Timers of a die that are set. -/
def State.timersOf (s : State) (die : Nat) : Nat := (s.timers.filter (fun t => t.die == die)).length

/-- Sets a timer at the dispatcher: 0, or 1 when none is free. The values are the tick, the record, and whether the
location is a wake word. -/
def homeTimer (r : Req) (s : State) : HomeOut :=
  let die := r.home.die
  if 1024 ≤ s.timersOf die then (s, some (r.reply [1]))
  else
    let t : Timer :=
      { die := die, part := r.part, tick := r.vals.headD 0, wake := r.locs.head?
        trec := BitVec.ofNat 64 (r.vals.getD 1 0), tid := r.tid }
    ({ s with timers := s.timers ++ [t] }, some (r.reply [0]))

/-- `tkadd.at` (R339, R341). -/
def execTkaddAt (d a t : GReg) (s : State) : Out :=
  .next (s.ask 1 (s.dispReq (.tkaddAt d a t) (dieOf s.myCore) 0 [] [(s.me.gr t).toNat, (s.me.gr a).toNat]))

/-- `wake.at` (R337, R339, R345): the instruction releases at `.pkg`, its timer's addition does not. -/
def execWakeAt (d a t : GReg) (s : State) : Out :=
  let x := s.me.gr a
  let i : Instr := .wakeAt d a t
  wakeAccess i x .store s fun l =>
    s.afterWriteBack 1 i fun s1 =>
      .next (s1.ask 1 (s1.dispReq i (dieOf s.myCore) x (bytesOf l 8) [(s.me.gr t).toNat, x.toNat]))

/-- How the wake word of a timer stands: a remote access to its home (R149, R150, R209, R338). -/
def State.wakePlan (s : State) (die loc : Nat) (va : Word) : Plan :=
  let free : Plan := if (s.resvOn (span loc 8)).isSome then .busy else .ok (span loc 8)
  if isScratchLoc loc then
    s.pagePlan (.timer die loc) ((loc - 2 ^ 44) / 65536) ((loc - 2 ^ 44) % 65536 / 4096) va .store free
  else free

/-- The addition of a timer to its wake word (R337, R338); none to an object, or to a word that cannot be read (log 21). -/
def State.wakeWord (s : State) (part : Nat) (locs : List Nat) : State :=
  if s.onObject locs then s
  else
    let (s1, bad) := s.readCheck locs 0xFFFFFFFF part
    if bad then s1 else s1.storeAt locs ((s1.rd locs + 1) % 2 ^ 64)

/-- Whether the actions of timers on what a pre-empted partition has saved wait until its RESTORE begins (R278, R338). -/
def State.timersWait (s : State) (part : Nat) : Bool := decide ((s.part part).pre ∈ [.stopping, .out])

/-- Whether the home of a timer's wake word holds its action: it is a scratchpad of a pre-empted partition (R278, R338). -/
def State.wakeOut (s : State) (part loc : Nat) : Bool :=
  isScratchLoc loc && s.timersWait part

/-- Whether a task record is a timer's, which waits at its graph while its partition is pre-empted (R338): neither a
context nor an engine sent it. -/
def timerTask (m : Msg) : Bool := match m with | .task _ _ _ _ none none => true | _ => false

/-- Whether actions of timers wait for a partition's RESTORE (R278, R280, R338): at its scratchpad homes, but for those at
faults, and at its graphs. -/
def State.wakesHeld (s : State) (part : Nat) : Bool :=
  s.msgs.any fun m =>
    match m with
    | .timerWake die p loc _ => p == part && isScratchLoc loc && !s.faulted (.timer die loc)
    | .task _ p _ _ _ _ => p == part && timerTask m
    | _ => false

/-- Whether the action of a timer whose wake word could not take it can go on. -/
def State.wakeMoves (s : State) (die part loc : Nat) (va : Word) : Bool :=
  !s.wakeOut part loc && !s.faulted (.timer die loc)
    && s.planMoves (.timer die loc) part (s.wakePlan die loc va)

/-- The action of the timer at message `k` goes on. -/
def State.putWake (s : State) (k : Nat) : State :=
  match s.msgs[k]? with
  | some (.timerWake die part loc va) =>
    match s.wakePlan die loc va with
    | .ok l => ((s.unhead (.timer die loc)).dropMsg k).wakeWord part l
    | .trap _ _ => (s.unhead (.timer die loc)).dropMsg k
    | p => s.devWait (.timer die loc) die part p
  | _ => s

/-- A timer acts (R338). A wake word that cannot take the addition now, or that an earlier one waits for, takes it later;
so does a graph whose partition is pre-empted, or at which an earlier timer's record waits. -/
def State.timerActs (s : State) (t : Timer) : State :=
  match t.wake with
  | none =>
    let earlier := s.msgs.any fun x => timerTask x && (match x with | .task d p _ _ _ _ => d == t.die && p == t.part | _ => false)
    if earlier || s.timersWait t.part then s.send (.task t.die t.part t.trec t.tid none none)
    else s.applyTask t.part t.trec none
  | some l =>
    let earlier := s.msgs.any fun x => match x with | .timerWake d _ k _ => d == t.die && k == l | _ => false
    match s.wakePlan t.die l t.trec with
    | .ok locs =>
      if earlier || s.wakeOut t.part l then s.send (.timerWake t.die t.part l t.trec)
      else s.wakeWord t.part locs
    | .trap _ _ => s
    | _ => s.send (.timerWake t.die t.part l t.trec)

/-- The timer at position `State.sel` acts when its tick has come (R338). -/
def execBelfryTimer (s : State) : Out :=
  match s.timers[s.sel]? with
  | none => .next s
  | some t => if s.now < t.tick then .next s else .next (({ s with timers := dropAt s.sel s.timers } : State).timerActs t)

end Sys2Proof.Machine
end

