-- ==== Sys2Proof/Machine/Groups.lean ====
section
/-! DEFINITION. The group instructions and the delivery of phase results (R246–R266). -/

namespace Sys2Proof.Machine

/-- The dies that hold clusters of a partition, ascending (R247). -/
def State.diesOf (s : State) (part : Nat) : List Nat :=
  ((s.clusters.filter (fun e => e.2.part == some part)).map (fun e => e.1 / 200)).eraseDups

/-- The home die of a name (R247); the own die for a core that no partition holds (log 7). -/
def State.nameDie (s : State) (part core : Nat) (n : Word) : Nat :=
  let l := s.diesOf part
  l.getD (nameHash n % l.length) (dieOf core)

/-- A request of the current context to a group unit. -/
def State.groupReq (s : State) (i : Instr) (die : Nat) (vals : List Nat) (sig : Option (Sig × Scope)) : Req where
  cx := s.cur
  tid := s.me.tid
  part := s.myPart
  tag := s.me.tag
  home := .group die
  i := i
  va := 0
  locs := []
  lanes := []
  vals := vals
  sig := sig
  blocked := false

/-- A local failure of `gmake`, `gjoin` or `gleave` (R260). -/
def groupFail (d : Reg8) (reason : Nat) (s : State) : Out :=
  retire (fun c => { c.setP d false with lgr := BitVec.ofNat 8 reason }) s

/-- The local checks of R261, then the request to the name's home. -/
def groupName (i : Instr) (d h : Reg8) (a : GReg) (s : State) : Out :=
  if handleV (s.me.hr h) then groupFail d 1 s
  else if s.me.gr a = 0 then groupFail d 6 s
  else .next (s.ask 5 (s.groupReq i (s.nameDie s.myPart s.myCore (s.me.gr a)) [(s.me.gr a).toNat] none))

/-- The group of a name in a partition (R246). -/
def State.groupNamed (s : State) (part : Nat) (n : Word) : Option Group :=
  s.groups.find? (fun g => g.part == part && g.name == n)

/-- A new member. -/
def Member.make (cx : Nat) (tid : BitVec 32) : Member where
  tid := tid
  cx := cx
  left := false
  lost := false
  arr := none
  susp := false

/-- The reply of a home that made a handle: reason 0, the handle, and the scope unit that the core keeps (R266). -/
def Group.handleVals (g : Group) : List Nat := [0, (handleWord g.die g.idx g.gen).toNat, scopeNum g.scope, g.base]

/-- The entries that a partition may hold on a die (R248). -/
def Part.quota (p : Part) : Nat := if p.dq = 0 then 8192 else p.dq

/-- `gmake` at the home (R249, R260, R261). One of a context that has been killed meanwhile is performed as issued, and makes
a member that no context is: DESIGN CHOICE (log 82). -/
def homeGmake (sc : Scope) (r : Req) (s : State) : HomeOut :=
  let n : Word := BitVec.ofNat 64 (r.vals.headD 0)
  let die := r.home.die
  let here := s.groups.filter (fun g => g.die == die)
  if (s.groupNamed r.part n).isSome then (s, some (r.reply [2]))
  else
    match findIdxFrom (fun i => !here.any (fun g => g.idx == i)) 8192 0 with
    | none => (s, some (r.reply [4]))
    | some i =>
      if (s.part r.part).quota ≤ (here.filter (fun g => g.part == r.part)).length then (s, some (r.reply [4]))
      else if 65536 ≤ (s.groups.filter (fun g => g.part == r.part)).length then (s, some (r.reply [5]))
      else
        let g : Group :=
          { name := n, part := r.part, die := die, idx := i, gen := tget 0 i (s.die die).gens, scope := sc
            base := coreOf r.cx, phase := 0, mems := [Member.make r.cx r.tid], pending := [], kind := none
            lost := false, sig := 0, early := [] }
        ({ s with groups := s.groups ++ [g] }, some (r.reply g.handleVals))

/-- `gjoin` at the home (R252, R260, R261). One of a context that has been killed meanwhile is performed as issued, and makes
a member that no context is: DESIGN CHOICE (log 82). -/
def homeGjoin (r : Req) (s : State) : HomeOut :=
  match s.groupNamed r.part (BitVec.ofNat 64 (r.vals.headD 0)) with
  | none => (s, some (r.reply [3]))
  | some g =>
    if g.member r.cx r.tid || g.isPending r.cx r.tid then (s, some (r.reply [8]))
    else if !sameUnit g.scope (coreOf r.cx) g.base then (s, some (r.reply [9]))
    else (s.putGroup { g with pending := g.pending ++ [Member.make r.cx r.tid] } [], some (r.reply g.handleVals))

/-- The end of `gmake` and `gjoin` (R261). -/
def endHandle (d h : Reg8) : Reply → State → State :=
  finishWith fun rep c =>
    if rep.at_ 0 = 0 then
      { ((c.setH h (BitVec.ofNat 32 (rep.at_ 1))).setP d true) with
        lgr := 0, hunit := tset h.toNat (scopeOfNum (rep.at_ 2), rep.at_ 3) c.hunit }
    else { c.setP d false with lgr := BitVec.ofNat 8 (rep.at_ 0) }

/-- `gmake` (R259, R261). -/
def execGmake (sc : Scope) (d h : Reg8) (a : GReg) (s : State) : Out := groupName (.gmake sc d h a) d h a s

/-- `gjoin` (R259, R261). -/
def execGjoin (d h : Reg8) (a : GReg) (s : State) : Out := groupName (.gjoin d h a) d h a s

/-- The group that a handle names, while it is not stale (R249). -/
def State.groupOf (s : State) (h : IWord) : Option Group :=
  s.groups.find? (fun g => g.die == handleDie h && g.idx == handleIdx h && g.gen == handleGen h)

/-- The group of a request's handle of which its context is a member or a pending member (log 39). -/
def State.groupReq? (s : State) (r : Req) : Option Group :=
  match s.groupOf (BitVec.ofNat 32 (r.vals.headD 0)) with
  | some g => if g.member r.cx r.tid || g.isPending r.cx r.tid then some g else none
  | none => none

/-- The scope of a handle's group, from the core's copy (R258, R266). -/
def Ctx.handleScope (c : Ctx) (h : Reg8) : Scope := (tget (Scope.quad, 0) h.toNat c.hunit).1

/-- A group request that carries a release at its group's scope (R258): it is sent once the write-backs of the release are
acknowledged (R186). -/
def groupReleased (i : Instr) (h : Reg8) (vals : List Nat) (s : State) : Out :=
  let sc := s.me.handleScope h
  s.afterRelease 5 true sc i fun s =>
    let (s1, g) := s.makeRelease s.myCore sc
    .next (s1.ask 5 (s1.groupReq i (handleDie (s.me.hr h)) vals (some (g, sc))))

/-- `gleave` at the home (R262). -/
def homeGleave (r : Req) (s : State) : HomeOut :=
  match s.groupReq? r with
  | none => (s, some (r.reply [7]))
  | some g =>
    let (g1, w) := g.leave r.cx r.tid (match r.sig with | some (x, _) => x | none => 0)
    (s.putGroup g1 w, some (r.reply [0]))

/-- The end of `gleave` (R262). -/
def endGleave (d h : Reg8) : Reply → State → State :=
  finishWith fun rep c =>
    if rep.at_ 0 = 0 then { ((c.setH h 0).setP d true) with lgr := 0, hunit := tdel h.toNat c.hunit }
    else { c.setP d false with lgr := BitVec.ofNat 8 (rep.at_ 0) }

/-- `gleave` (R259, R262). -/
def execGleave (d h : Reg8) (s : State) : Out :=
  let x := s.me.hr h
  if !handleV x then groupFail d 7 s else groupReleased (.gleave d h) h [x.toNat] s

/-- Whether a phase result is owed to a context (R255, R281). -/
def State.resultOwed (s : State) (cx : Nat) (tid : BitVec 32) : Bool :=
  s.msgs.any (fun m => match m with | .group x t _ _ _ _ => x == cx && t == tid | _ => false)

/-- Whether a member or pending member has an arrival already (R281). -/
def Group.arrived (g : Group) (cx : Nat) (tid : BitVec 32) : Bool :=
  (g.mems ++ g.pending).any (fun m => m.is cx tid && !m.left && m.arr.isSome)

/-- An arrival at the home (R252, R263): it waits for its phase. One that is there already, or whose result is owed,
answers a request issued again (R281). -/
def homeArrive (k : GKind) (r : Req) (s : State) : HomeOut :=
  if s.resultOwed r.cx r.tid then (s, none)
  else
    match s.groupReq? r with
    | none => (s, some (r.fail causeProtection))
    | some g =>
      if g.arrived r.cx r.tid then (s, none)
      else
        let (g1, w) := g.arrive r.cx r.tid k (BitVec.ofNat 64 (r.vals.getD 1 0))
          (match r.sig with | some (x, _) => x | none => 0)
        (s.putGroup g1 w, none)

/-- An arrival (R263): the datum is read and the release made at issue. The trap of an empty or stale handle has no address,
and R268 gives 0 for no such use: its `TVAL` is 0 (DESIGN CHOICE, log 59). -/
def groupArrive (i : Instr) (h : Reg8) (ok : Bool) (x : Nat) (s : State) : Out :=
  let v := s.me.hr h
  if !handleV v then trap causeProtection 0 s
  else if !ok then illegal i s
  else groupReleased i h [v.toNat, x] s

/-- The only answer of a home to an arrival besides its result: a trap. -/
def endArrive : Reply → State → State := finishWith (fun _ c => c)

/-- `gbar` (R259, R263). -/
def execGbar (d : GReg) (h : Reg8) (s : State) : Out := groupArrive (.gbar d h) h true 0 s

/-- `gvote` (R256, R259, R263). -/
def execGvote (v : Vote) (d : GReg) (h : Reg8) (a : GReg) (s : State) : Out :=
  groupArrive (.gvote v d h a) h true (bits (s.me.gr a) 0 0) s

/-- The datum of a reduction (R256). -/
def redDatum (t : GTy) (x : Word) : Nat :=
  match t with
  | .f32 => bits x 31 0
  | _ => x.toNat

/-- `gred` (R256, R259, R263). -/
def execGred (o : RedOp) (t : GTy) (d : GReg) (h : Reg8) (a : GReg) (s : State) : Out :=
  groupArrive (.gred o t d h a) h (decide (d.toNat ≤ 14)) (redDatum t (s.me.gr a)) s

/-- A read of the open phase at the home (R264). -/
def groupRead (i : Instr) (h : Reg8) (s : State) : Out :=
  let v := s.me.hr h
  if !handleV v then trap causeProtection 0 s else .next (s.ask 5 (s.groupReq i (handleDie v) [v.toNat] none))

/-- `gsize` at the home (R264). -/
def homeGsize (r : Req) (s : State) : HomeOut :=
  match s.groupReq? r with
  | none => (s, some (r.fail causeProtection))
  | some g => (s, some (r.reply [g.mems.length + g.pending.length * 2 ^ 32]))

/-- `grank` at the home (R264). -/
def homeGrank (r : Req) (s : State) : HomeOut :=
  match s.groupReq? r with
  | none => (s, some (r.fail causeProtection))
  | some g => (s, some (r.reply [(g.rank? r.cx r.tid).getD (2 ^ 64 - 1)]))

/-- The end of `gsize` and `grank`. -/
def endGroupRead (d : GReg) : Reply → State → State := finishWith (fun rep c => c.setG d (BitVec.ofNat 64 rep.val))

/-- `gsize` (R259, R264). -/
def execGsize (d : GReg) (h : Reg8) (s : State) : Out := groupRead (.gsize d h) h s

/-- `grank` (R259, R264). -/
def execGrank (d : GReg) (h : Reg8) (s : State) : Out := groupRead (.grank d h) h s

/-- `gstat` (R259, R265). -/
def execGstat (d : GReg) (h : Reg8) (s : State) : Out :=
  retire (fun c => c.setG d (BitVec.ofNat 64 (c.lgr.toNat + (c.hr h).toNat * 2 ^ 32))) s

/-- The end of an arrival with its phase's result (R263): the registers, then the acquire. The result of a `gred` in a phase
that became a barrier's, for which R256 gives none, is a free value (log 73). -/
def State.endGroup (s : State) (cx : Nat) (g : Sig) (val : Bool) (res st : Word) : State :=
  let c := s.ctx cx
  match c.wait with
  | some w =>
    let next := wrapPc (c.pc + 4)
    match w.i with
    | .gbar d _ | .gvote _ d _ _ => (s.modCtx cx (fun c => c.setG d st)).startAcquireSig cx w.i next g
    | .gred _ _ d _ _ =>
      let (s1, x) : State × Word :=
        if val then (s, res) else ({ s with fresh := s.fresh + 1 }, Config.barrierResult s.fresh)
      (s1.modCtx cx (fun c => (c.setG d x).setG (d + 1) st)).startAcquireSig cx w.i next g
    | _ => s
  | none => s

/-- Whether the message at a position that carries a phase result can be taken: its context waits for it, or is gone for
good. One that was pre-empted finds it when it issues its arrival again (R255, R281): once that request has reached the
home, which answers from the result that is owed and makes no arrival anew. -/
def State.resultTakes (s : State) (cx : Nat) (tid : BitVec 32) : Bool :=
  let c := s.ctx cx
  let out := s.keptCtx cx tid || (match s.partOf (coreOf cx) with | some p => s.partOut p | none => false)
  (c.waits tid 1 && !s.asking cx tid) || (!out && (decide (c.tid ≠ tid) || decide (c.state = .free)))

/-- The phase result at `State.sel` reaches its member (R257, R263). -/
def execGroupCompletion (s : State) : Out :=
  match s.msgs[s.sel]? with
  | some (.group cx tid g val res st) =>
    if !s.resultTakes cx tid then .next s
    else
      let s0 := s.dropMsg s.sel
      if (s0.ctx cx).waits tid 1 then .next (s0.endGroup cx g val res st) else .next s0
  | _ => .next s

end Sys2Proof.Machine
end

