-- ==== Sys2Proof/Machine/LoadStore.lean ====
section
/-! DEFINITION. Load, store and prefetch (R156–R158). -/

namespace Sys2Proof.Machine

/-- The effective address of format M (R25). -/
def eaM (z : Sz) (a : GReg) (o : BitVec 14) (s : State) : Word := s.me.gr a + offM z o

/-- A plain load at its home: a global line is brought into the issuer's L1 (R184). -/
def homeLd (z : Sz) (r : Req) (s : State) : HomeOut :=
  match r.locs with
  | l :: _ =>
    if isGlobalLoc l then
      let (s1, bad) := s.readCheck r.locs r.tid r.part
      if bad then (s1, some (r.fail causeData))
      else
        let s2 := s1.l1Fill (coreOf r.cx) (l / 64)
        let v := match s2.l1? (coreOf r.cx) (l / 64) with
          | some e => e.read (l % 64) (szBytes z)
          | none => s2.rd r.locs
        (s2, some { r.reply [v] with recs := s2.recsFor r.locs })
    else homeRead r s
  | [] => homeRead r s

/-- The end of a load. -/
def endLd (z : Sz) (sx : Bool) (d : GReg) : Reply → State → State :=
  finishWith (fun rep c => c.setG d (extend z sx rep.val))

/-- `ld` (R157). -/
def execLd (z : Sz) (sx : Bool) (d a : GReg) (o : BitVec 14) (s : State) : Out :=
  let ea := eaM z a o s
  let i : Instr := .ld z sx d a o
  checked i ea (szBytes z) .load s fun l =>
    let r := s.mkReq i ea l (szBytes z) [] none
    match l with
    | .global pa =>
      match s.l1? s.myCore (pa / 64) with
      | some e =>
        retire (fun c => ({ c with recs := c.recs ++ e.rrec.toList } : Ctx).setG d (extend z sx (e.read (pa % 64) (szBytes z))))
          (s.l1Touch s.myCore (pa / 64))
      | none => .next (s.ask 1 r)
    | _ => access 1 r l .load (homeLd z) (endLd z sx d) s

/-- A load with acquire at its home (R184, R222). -/
def homeLdAcq (r : Req) (s : State) : HomeOut :=
  if s.onObject r.locs then (s, some (r.fail causeProtection))
  else homeRead r (s.ownCopyOutAt (coreOf r.cx) r.locs)

/-- The end of a load with acquire at `.die`. -/
def endLdAcq (z : Sz) (sx : Bool) (d a : GReg) (o : BitVec 14) : Reply → State → State :=
  finishAcquiring (.ldAcq z sx d a o) (fun rep c => c.setG d (extend z sx rep.val))

/-- `ld.acq` (R25, R157, R187). -/
def execLdAcq (z : Sz) (sx : Bool) (d a : GReg) (o : BitVec 14) (s : State) : Out :=
  let ea := eaM z a o s
  let i : Instr := .ldAcq z sx d a o
  checked i ea (szBytes z) .load s fun l =>
    let s1 := s.ownCopyOut s.myCore l
    access 1 (s1.mkReq i ea l (szBytes z) [] none) l .load homeLdAcq (endLdAcq z sx d a o) s1

/-- A plain store at its home: a global line is brought into the issuer's L1 and written there (R184); with a pending
release it is performed at the home (R193). -/
def homeSt (z : Sz) (r : Req) (s : State) : HomeOut :=
  let v := r.vals.headD 0
  match r.locs, r.sig with
  | l :: _, none =>
    if isGlobalLoc l then
      let (s1, bad) := s.readCheck r.locs r.tid r.part
      if bad then (s1, some (r.fail causeData))
      else
        let s2 := (s1.l1Fill (coreOf r.cx) (l / 64)).l1Store (coreOf r.cx) (l / 64) (l % 64) (szBytes z) v
        (s2, some { r.reply [] with recs := s2.recsFor r.locs })
    else homeWriteReq v r s
  | _, _ => homeWriteReq v r s

/-- The end of a store. -/
def endSt : Reply → State → State := finishWith (fun _ c => c)

/-- `st` (R157). -/
def execSt (z : Sz) (d a : GReg) (o : BitVec 14) (s : State) : Out :=
  let ea := eaM z a o s
  let i : Instr := .st z d a o
  let v := (s.me.gr d).toNat
  checked i ea (szBytes z) .store s fun l =>
    match s.pendingFor l with
    | some g =>
      let s1 := s.ownCopyOut s.myCore l
      access 1 (s1.mkReq i ea l (szBytes z) [v] (some g)) l .store (homeSt z) endSt s1
    | none =>
      let r := s.mkReq i ea l (szBytes z) [v] none
      match l with
      | .global pa =>
        if (s.l1? s.myCore (pa / 64)).isSome then
          retire id (s.l1Store s.myCore (pa / 64) (pa % 64) (szBytes z) v)
        else .next (s.ask 1 r)
      | _ => access 1 r l .store (homeSt z) endSt s

/-- A store with release at its home. -/
def homeStRel (r : Req) (s : State) : HomeOut := homeWriteReq (r.vals.headD 0) r s

/-- `st.rel` (R25, R157, R186): a release at `.die`, carried to the home of a global line. -/
def execStRel (z : Sz) (d a : GReg) (o : BitVec 14) (s : State) : Out :=
  let ea := eaM z a o s
  let i : Instr := .stRel z d a o
  let v := (s.me.gr d).toNat
  checked i ea (szBytes z) .store s fun l =>
    let (s1, g) := s.makeRelease s.myCore .die
    let s2 := s1.ownCopyOut s.myCore l
    access 1 (s2.mkReq i ea l (szBytes z) [v] (some (g, .die))) l .store homeStRel endSt s2

/-- The address of a prefetch (R158). -/
def eaPf (a : GReg) (o : BitVec 14) (s : State) : Word := s.me.gr a + sext o * 64

/-- The prefetch of a scratchpad page (R158). -/
def prefetchPage (core off : Nat) (s : State) : State :=
  if (s.page core (off / 4096)).v then s.startRefill core (off / 4096) else s

/-- Whether a prefetch brings nothing in: the L1 has the line, its read would find an error (a fault of any kind is no
effect, R158), it holds an object, or a write of the core's engines to its home is on its way (R205). -/
def State.pfDrops (s : State) (pa : Nat) : Bool :=
  (s.l1? s.myCore (pa / 64)).isSome || s.gone pa || !(s.flawsIn (span pa 1)).isEmpty
    || (s.obj? (pa / 64)).isSome || s.unitWriting s.myCore [pa]

/-- `pf` (R158). -/
def execPf (a : GReg) (o : BitVec 14) (s : State) : Out :=
  retire id <|
    match s.find (.ctx s.cur s.me.tid) s.myCore s.myPart (eaPf a o s) .load with
    | .ok (.scratch core off) => prefetchPage core off s
    | .ok (.global pa) =>
      if s.pfDrops pa then s else s.l1Fill s.myCore (pa / 64)
    | _ => s

/-- `pf.llc` (R158): what the LLC holds is not architectural (R183). -/
def execPfLlc (a : GReg) (o : BitVec 14) (s : State) : Out :=
  retire id <|
    match s.find (.ctx s.cur s.me.tid) s.myCore s.myPart (eaPf a o s) .load with
    | .ok (.scratch core off) => prefetchPage core off s
    | _ => s

end Sys2Proof.Machine
end

