-- ==== Sys2Proof/Machine/Lanes.lean ====
section
/-! DEFINITION. The values that register-only vector instructions compute (R123, R124, R128–R131, R134–R136, R139–R141):
lanes, elements, masks, conversions, dot products, reductions, butterflies and twiddles. -/

namespace Sys2Proof.Machine

/-- A destination: active lanes take `f`, the others keep their value (R124). -/
def masked (m : IWord) (old : VWord) (f : Nat → IWord) : VWord :=
  lanes (fun l => if m.getLsbD l then f l else lane old l)

/-- The value of an F32 lane. -/
def f32v (x : IWord) : Val := unpack fmtF32 x.toNat

/-- Whether an F32 code is NaN. -/
def isNan32 (x : IWord) : Bool := (f32v x).isNan

/-- A two-source lane result. -/
def laneOp2 (f : IWord → IWord → IWord) (d a b : Reg8) (m : Reg4) (c : Ctx) : Ctx :=
  c.setV d (masked (c.mr m) (c.vr d) (fun l => f (lane (c.vr a) l) (lane (c.vr b) l)))

/-- A one-source lane result. -/
def laneOp1 (f : IWord → IWord) (d a : Reg8) (m : Reg4) (c : Ctx) : Ctx :=
  c.setV d (masked (c.mr m) (c.vr d) (fun l => f (lane (c.vr a) l)))

/-- `vadd` on a lane (R129). -/
def f32Add (r : RMode) (a b : IWord) : IWord := roundF32 r (addVal r (f32v a) (f32v b)).1
/-- `vsub` on a lane. -/
def f32Sub (r : RMode) (a b : IWord) : IWord := roundF32 r (addVal r (f32v a) (f32v b).neg).1
/-- `vmul` on a lane. -/
def f32Mul (r : RMode) (a b : IWord) : IWord := roundF32 r (mulVal (f32v a) (f32v b)).1
/-- `vfma` on a lane. -/
def f32Fma (r : RMode) (a b c : IWord) : IWord := roundF32 r (fmaVal r (f32v a) (f32v b) (f32v c)).1
/-- `vabs` on a lane. -/
def f32Abs (a : IWord) : IWord := if isNan32 a then 0x7FC00000 else a &&& 0x7FFFFFFF
/-- `vneg` on a lane. -/
def f32Neg (a : IWord) : IWord := if isNan32 a then 0x7FC00000 else a ^^^ 0x80000000

/-- Width of an element type in bits (R128). -/
def vtyBits : VTy → Nat
  | .i32 | .w32 | .f32 => 32
  | .i16 | .w16 | .h16 => 16
  | .i8 | .w8 => 8

/-- Whether a type is signed. -/
def vtySigned : VTy → Bool
  | .i32 | .i16 | .i8 => true
  | _ => false

/-- Applies an operation to the elements of width `w` of two lanes (R130). -/
def elems (w : Nat) (f : Nat → Nat → Nat) (a b : IWord) : IWord :=
  BitVec.ofNat 32 ((List.range (32 / w)).foldl
    (fun acc i => acc + (f (nbits a.toNat (w * i + w - 1) (w * i)) (nbits b.toNat (w * i + w - 1) (w * i)) % 2 ^ w)
      * 2 ^ (w * i)) 0)

/-- `vshl` on an element. -/
def elemShl (w x y : Nat) : Nat := x <<< (y % w)
/-- `vshr` on an element (R130). -/
def elemShr (signed : Bool) (w x y : Nat) : Nat :=
  if signed ∧ x.testBit (w - 1) then (x + (2 ^ w - 1) * 2 ^ w) >>> (y % w) else x >>> (y % w)

/-- The integer that a 32-bit lane holds under a type. -/
def laneInt (t : VTy) (x : IWord) : Int := if vtySigned t then x.toInt else (x.toNat : Int)

/-- A condition of `vcmp` on a lane (R131). -/
def vcondHolds (k : VCond) (t : VTy) (a b : IWord) : Bool :=
  match t with
  | .f32 =>
    match k with
    | .eq => (fcmpV .eq (f32v a) (f32v b)).1
    | .ne => !(fcmpV .eq (f32v a) (f32v b)).1
    | .lt => (fcmpV .lt (f32v a) (f32v b)).1
    | .le => (fcmpV .le (f32v a) (f32v b)).1
    | .un => (fcmpV .un (f32v a) (f32v b)).1
  | _ =>
    match k with
    | .eq => a == b
    | .ne => a != b
    | .lt => decide (laneInt t a < laneInt t b)
    | .le => decide (laneInt t a ≤ laneInt t b)
    | .un => false

/-- `vcmp` (R131). -/
def vcmpRes (k : VCond) (t : VTy) (d : Reg4) (a b : Reg8) (m : Reg4) (c : Ctx) : Ctx :=
  c.setM d (BitVec.ofNat 32 ((List.range 32).foldl
    (fun acc l =>
      acc + (if (c.mr m).getLsbD l && vcondHolds k t (lane (c.vr a) l) (lane (c.vr b) l) then 2 ^ l else 0)) 0))

/-- `vsel` (R131). -/
def vselRes (d a b : Reg8) (q m : Reg4) (c : Ctx) : Ctx :=
  c.setV d (masked (c.mr m) (c.vr d) (fun l => if (c.mr q).getLsbD l then lane (c.vr a) l else lane (c.vr b) l))

/-- `vbcast` (R133). -/
def vbcastRes (d : Reg8) (g : GReg) (m : Reg4) (c : Ctx) : Ctx :=
  c.setV d (masked (c.mr m) (c.vr d) (fun _ => (c.gr g).setWidth 32))

/-- `vperm` (R133). -/
def vpermRes (d a b : Reg8) (m : Reg4) (c : Ctx) : Ctx :=
  c.setV d (masked (c.mr m) (c.vr d) (fun l => lane (c.vr a) (bits (lane (c.vr b) l) 4 0)))

/-- `vcvt.f2h` (R134). -/
def vcvtF2hRes (r : RMode) (d a b : Reg8) (m : Reg4) (c : Ctx) : Ctx :=
  let h (e : Nat) : Nat :=
    let x := if e < 32 then lane (c.vr a) e else lane (c.vr b) (e - 32)
    (round (fmtH16 c.fx) r (f32v x)).1
  c.setV d (masked (c.mr m) (c.vr d) (fun l => BitVec.ofNat 32 (h (2 * l) + h (2 * l + 1) * 65536)))

/-- `vcvt.h2fl` (`off` 0) and `vcvt.h2fh` (`off` 32) (R111, R134). -/
def vcvtH2fRes (off : Nat) (r : RMode) (d a : Reg8) (m : Reg4) (c : Ctx) : Ctx :=
  c.setV d (masked (c.mr m) (c.vr d) (fun l => h16ToF32 c.fx r (elem 16 (c.vr a) (off + l)).toNat))

/-- The range of a 32-bit integer type. -/
def vtyRange (t : VTy) : Int × Int := if vtySigned t then (-2147483648, 2147483647) else (0, 4294967295)

/-- `vcvt.f2i` on a lane (R112). -/
def f32ToInt (r : RMode) (t : VTy) (x : IWord) : IWord :=
  BitVec.ofInt 32 (toIntVal r (vtyRange t).1 (vtyRange t).2 (f32v x)).1

/-- `vcvt.i2f` on a lane. -/
def intToF32 (r : RMode) (t : VTy) (x : IWord) : IWord := roundF32 r (ofIntVal (laneInt t x))

/-- `vdec` (R135). -/
def vdecRes (t : Q8Tab) (d a : Reg8) (n : BitVec 2) (m : Reg4) (c : Ctx) : Ctx :=
  c.setV d (masked (c.mr m) (c.vr d)
    (fun l => roundF32 .rne (q8Dec t (elem 8 (c.vr a) (32 * n.toNat + l)).toNat)))

/-- `venc` (R135). -/
def vencRes (t : Q8Tab) (d a : Reg8) (n : BitVec 2) (m : Reg4) (c : Ctx) : Ctx :=
  let old := c.vr d
  let src := c.vr a
  let k := c.mr m
  let byte (i : Nat) : Byte :=
    if i / 32 = n.toNat ∧ k.getLsbD (i % 32) then BitVec.ofNat 8 (q8Enc t (f32v (lane src (i % 32)))) else elem 8 old i
  c.setV d ((pack 8 byte 128).cast (by decide))

/-- `vdot` (R119, R136). -/
def vdotRes (t : Q8Tab) (d a b x : Reg8) (m : Reg4) (c : Ctx) : Ctx :=
  let sc := c.fr x
  let blk (j : Nat) : IWord :=
    let s := exactSum ((List.range 32).map fun i =>
      prod (q8Dec t (elem 8 (c.vr a) (32 * j + i)).toNat) (q8Dec t (elem 8 (c.vr b) (32 * j + i)).toNat))
    accumulate (lane (c.vr d) j) (scaleVal s (bits sc (8 * j + 7) (8 * j)) (bits sc (32 + 8 * j + 7) (32 + 8 * j)))
  c.setV d (masked (c.mr m &&& 0xF) (c.vr d) blk)

/-- The identity of a `vred` (R118, R139). -/
def vredIdentity (o : RedOp) (t : VTy) : IWord :=
  match t, o with
  | .f32, .add => 0x80000000
  | .f32, .min => 0x7F800000
  | .f32, .max => 0xFF800000
  | _, .add => 0
  | .i32, .min => 0x7FFFFFFF
  | .i32, .max => 0x80000000
  | _, .min => 0xFFFFFFFF
  | _, .max => 0

/-- One combination of a `vred` (R118, R139). -/
def vredCombine (o : RedOp) (t : VTy) (a b : IWord) : IWord :=
  match t, o with
  | .f32, .add => addF32 a b
  | .f32, .min => minMaxF32 false a b
  | .f32, .max => minMaxF32 true a b
  | _, .add => a + b
  | _, .min => if laneInt t b < laneInt t a then b else a
  | _, .max => if laneInt t a < laneInt t b then b else a

/-- `vred` (R139). -/
def vredRes (o : RedOp) (t : VTy) (d a : Reg8) (m : Reg4) (c : Ctx) : Ctx :=
  let z := vredIdentity o t
  let x := treeReduce (vredCombine o t) z
    ((List.range 32).map (fun l => if (c.mr m).getLsbD l then lane (c.vr a) l else z))
  c.setF d (match t with | .i32 => x.signExtend 64 | _ => x.setWidth 64)

/-- One output of `vbfly` (R121, R140). -/
def vbflyOut (sub : Bool) (a b w : VWord) (l : Nat) : IWord :=
  let k := l / 2 * 2
  let o := butterfly sub (lane a k) (lane a (k + 1)) (lane b k) (lane b (k + 1)) (lane w k) (lane w (k + 1))
  if l % 2 = 0 then o.1 else o.2

/-- `vbfly` (R140). -/
def vbflyRes (d a b x : Reg8) (m : Reg4) (c : Ctx) : Ctx :=
  let va := c.vr a
  let vb := c.vr b
  let vw := c.vr x
  (c.setV d (masked (c.mr m) (c.vr d) (vbflyOut false va vb vw))).setV (d + 1)
    (masked (c.mr m) (c.vr (d + 1)) (vbflyOut true va vb vw))

/-- `vtwid` (R122, R141). -/
def vtwidRes (d a : Reg8) (l : BitVec 5) (m : Reg4) (c : Ctx) : Ctx :=
  let n := 2 ^ l.toNat
  let out (j : Nat) : IWord :=
    let t := twiddle ((lane (c.vr a) (j / 2 * 2)).toNat % n * (2 ^ 20 / n))
    if j % 2 = 0 then t.1 else t.2
  c.setV d (masked (c.mr m) (c.vr d) out)

end Sys2Proof.Machine
end

