-- ==== Sys2Proof/Machine/Vector.lean ====
section
/-! DEFINITION. The vector unit (R123–R141): the slot (R125), register-only instructions, vector memory (R126, R132,
R133) and the Q8 table (R137, R138). A context's wait record tells how far its vector instruction is: phase 0 it waits
for the slot, 3 it holds the slot, 4 it has entered and completes at `till`, 1 its requests are on their way. -/

namespace Sys2Proof.Machine

/-- The result of `vadd` (R129). -/
def vaddEff (r : RMode) (d a b : Reg8) (m : Reg4) (c : Ctx) : Ctx :=
  laneOp2 (f32Add r) d a b m c

/-- The result of `vsub` (R129). -/
def vsubEff (r : RMode) (d a b : Reg8) (m : Reg4) (c : Ctx) : Ctx :=
  laneOp2 (f32Sub r) d a b m c

/-- The result of `vmul` (R129). -/
def vmulEff (r : RMode) (d a b : Reg8) (m : Reg4) (c : Ctx) : Ctx :=
  laneOp2 (f32Mul r) d a b m c

/-- The result of `vfma` (R129). -/
def vfmaEff (r : RMode) (d a b x : Reg8) (m : Reg4) (c : Ctx) : Ctx :=
  c.setV d (masked (c.mr m) (c.vr d) (fun l => f32Fma r (lane (c.vr a) l) (lane (c.vr b) l) (lane (c.vr x) l)))

/-- The result of `vmax` (R129). -/
def vmaxEff (d a b : Reg8) (m : Reg4) (c : Ctx) : Ctx :=
  laneOp2 (minMaxF32 true) d a b m c

/-- The result of `vmin` (R129). -/
def vminEff (d a b : Reg8) (m : Reg4) (c : Ctx) : Ctx :=
  laneOp2 (minMaxF32 false) d a b m c

/-- The result of `vabs` (R129). -/
def vabsEff (d a : Reg8) (m : Reg4) (c : Ctx) : Ctx :=
  laneOp1 f32Abs d a m c

/-- The result of `vneg` (R129). -/
def vnegEff (d a : Reg8) (m : Reg4) (c : Ctx) : Ctx :=
  laneOp1 f32Neg d a m c

/-- The result of `vand` (R130). -/
def vandEff (d a b : Reg8) (m : Reg4) (c : Ctx) : Ctx :=
  laneOp2 (· &&& ·) d a b m c

/-- The result of `vor` (R130). -/
def vorEff (d a b : Reg8) (m : Reg4) (c : Ctx) : Ctx :=
  laneOp2 (· ||| ·) d a b m c

/-- The result of `vxor` (R130). -/
def vxorEff (d a b : Reg8) (m : Reg4) (c : Ctx) : Ctx :=
  laneOp2 (· ^^^ ·) d a b m c

/-- The result of `vshl` (R130). -/
def vshlEff (t : VTy) (d a b : Reg8) (m : Reg4) (c : Ctx) : Ctx :=
  laneOp2 (elems (vtyBits t) (elemShl (vtyBits t))) d a b m c

/-- The result of `vshr` (R130). -/
def vshrEff (t : VTy) (d a b : Reg8) (m : Reg4) (c : Ctx) : Ctx :=
  laneOp2 (elems (vtyBits t) (elemShr (vtySigned t) (vtyBits t))) d a b m c

/-- The result of `vadd` on integers (R130). -/
def vaddIntEff (t : VTy) (d a b : Reg8) (m : Reg4) (c : Ctx) : Ctx :=
  laneOp2 (elems (vtyBits t) (fun x y => x + y)) d a b m c

/-- The result of `vsub` on integers (R130). -/
def vsubIntEff (t : VTy) (d a b : Reg8) (m : Reg4) (c : Ctx) : Ctx :=
  laneOp2 (elems (vtyBits t) (fun x y => x + 2 ^ vtyBits t - y)) d a b m c

/-- The result of `vcmp` (R131). -/
def vcmpEff (k : VCond) (t : VTy) (d : Reg4) (a b : Reg8) (m : Reg4) (c : Ctx) : Ctx :=
  vcmpRes k t d a b m c

/-- The result of `vsel` (R131). -/
def vselEff (d a b : Reg8) (q m : Reg4) (c : Ctx) : Ctx :=
  vselRes d a b q m c

/-- The result of `vbcast` (R133). -/
def vbcastEff (d : Reg8) (g : GReg) (m : Reg4) (c : Ctx) : Ctx :=
  vbcastRes d g m c

/-- The result of `vperm` (R133); field fn[5:2] is not used (log 12). -/
def vpermEff (d a b : Reg8) (_ : GReg) (m : Reg4) (c : Ctx) : Ctx :=
  vpermRes d a b m c

/-- The result of `vcvt.f2h` (R134). -/
def vcvtF2hEff (r : RMode) (d a b : Reg8) (m : Reg4) (c : Ctx) : Ctx :=
  vcvtF2hRes r d a b m c

/-- The result of `vcvt.h2fl` (R134). -/
def vcvtH2flEff (r : RMode) (d a : Reg8) (m : Reg4) (c : Ctx) : Ctx :=
  vcvtH2fRes 0 r d a m c

/-- The result of `vcvt.h2fh` (R134). -/
def vcvtH2fhEff (r : RMode) (d a : Reg8) (m : Reg4) (c : Ctx) : Ctx :=
  vcvtH2fRes 32 r d a m c

/-- The result of `vcvt.f2i` (R112, R134). -/
def vcvtF2iEff (r : RMode) (t : VTy) (d a : Reg8) (m : Reg4) (c : Ctx) : Ctx :=
  laneOp1 (f32ToInt r t) d a m c

/-- The result of `vcvt.i2f` (R134). -/
def vcvtI2fEff (r : RMode) (t : VTy) (d a : Reg8) (m : Reg4) (c : Ctx) : Ctx :=
  laneOp1 (intToF32 r t) d a m c

/-- The result of `vdec` (R135). -/
def vdecEff (t : Q8Tab) (d a : Reg8) (n : BitVec 2) (m : Reg4) (c : Ctx) : Ctx :=
  vdecRes t d a n m c

/-- The result of `venc` (R135). -/
def vencEff (t : Q8Tab) (d a : Reg8) (n : BitVec 2) (m : Reg4) (c : Ctx) : Ctx :=
  vencRes t d a n m c

/-- The result of `vdot` (R136). -/
def vdotEff (t : Q8Tab) (d a b x : Reg8) (m : Reg4) (c : Ctx) : Ctx :=
  vdotRes t d a b x m c

/-- The result of `vred` (R139). -/
def vredEff (o : RedOp) (t : VTy) (d a : Reg8) (m : Reg4) (c : Ctx) : Ctx :=
  vredRes o t d a m c

/-- The result of `vbfly` (R140). -/
def vbflyEff (d a b x : Reg8) (m : Reg4) (c : Ctx) : Ctx :=
  vbflyRes d a b x m c

/-- The result of `vtwid` (R141). -/
def vtwidEff (d a : Reg8) (l : BitVec 5) (m : Reg4) (c : Ctx) : Ctx :=
  vtwidRes d a l m c

/-- What a register-only vector instruction writes, given its core's Q8 table at issue (R114, R125); a memory
instruction is not one of them. -/
def vecEffect (t : Q8Tab) (i : Instr) : Option (Ctx → Ctx) :=
  match i with
  | .vadd r d a b m => some (vaddEff r d a b m)
  | .vsub r d a b m => some (vsubEff r d a b m)
  | .vmul r d a b m => some (vmulEff r d a b m)
  | .vfma r d a b x m => some (vfmaEff r d a b x m)
  | .vmax d a b m => some (vmaxEff d a b m)
  | .vmin d a b m => some (vminEff d a b m)
  | .vabs d a m => some (vabsEff d a m)
  | .vneg d a m => some (vnegEff d a m)
  | .vand d a b m => some (vandEff d a b m)
  | .vor d a b m => some (vorEff d a b m)
  | .vxor d a b m => some (vxorEff d a b m)
  | .vshl ty d a b m => some (vshlEff ty d a b m)
  | .vshr ty d a b m => some (vshrEff ty d a b m)
  | .vaddInt ty d a b m => some (vaddIntEff ty d a b m)
  | .vsubInt ty d a b m => some (vsubIntEff ty d a b m)
  | .vcmp k ty d a b m => some (vcmpEff k ty d a b m)
  | .vsel d a b q m => some (vselEff d a b q m)
  | .vbcast d g m => some (vbcastEff d g m)
  | .vperm d a b g m => some (vpermEff d a b g m)
  | .vcvtF2h r d a b m => some (vcvtF2hEff r d a b m)
  | .vcvtH2fl r d a m => some (vcvtH2flEff r d a m)
  | .vcvtH2fh r d a m => some (vcvtH2fhEff r d a m)
  | .vcvtF2i r ty d a m => some (vcvtF2iEff r ty d a m)
  | .vcvtI2f r ty d a m => some (vcvtI2fEff r ty d a m)
  | .vdec d a n m => some (vdecEff t d a n m)
  | .venc d a n m => some (vencEff t d a n m)
  | .vdot d a b x m => some (vdotEff t d a b x m)
  | .vred o ty d a m => some (vredEff o ty d a m)
  | .vbfly d a b x m => some (vbflyEff d a b x m)
  | .vtwid d a l m => some (vtwidEff d a l m)
  | .ldtabQa | .ldtabQb => some id
  | _ => none

-- The slot (R125).

/-- The first owned cycle of a core after cycle `t` (R125). -/
def entryCycle (core t : Nat) : Nat := t + 1 + (core % 4 + 4 - (t + 1) % 4) % 4

/-- The cycle of a core's quad. -/
def State.cycOf (s : State) (core : Nat) : Nat := (s.quad (quadOf core)).cyc

/-- Whether a core's slot is free for an instruction that issues now (R125 item 1): no instruction holds it, or its
holder enters in this cycle and no context waits for it. -/
def State.slotFree (s : State) (core : Nat) : Bool :=
  (match (s.core core).slot.holder with | some (_, u) => decide (u ≤ s.cycOf core) | none => true)
    && (s.core core).slot.waiting.isEmpty

/-- A context takes the slot; a holder that enters in this cycle has its entry still to come. -/
def State.takeSlot (s : State) (cx : Nat) : State :=
  let k := coreOf cx
  s.modCore k (fun c =>
    { c with
      slot := { c.slot with
                  holder := some (cx, entryCycle k (s.cycOf k))
                  entering := match c.slot.holder with | some (x, _) => some x | none => c.slot.entering } })

/-- The registers of a context are kept until cycle `till`, in which the results of its vector instruction are written
(R127). -/
def State.keepOld (s : State) (cx till : Nat) : State :=
  let c := s.ctx cx
  s.modCore (coreOf cx) (fun k =>
    { k with
      slot := { k.slot with
                  undo := { cx := cx, till := till, f := c.f, v := c.v, m := c.m } ::
                    k.slot.undo.filter (fun e => decide (s.cycOf (coreOf cx) ≤ e.till)) } })

/-- A context waits for the slot (R125 item 3), with the table of its issue. -/
def State.awaitSlot (s : State) (cx : Nat) (i : Instr) : State :=
  let k := coreOf cx
  (s.block cx 12 { mkWait i 0 0 0 with tbl := some (s.core k).q8 }).modCore k
    (fun c => { c with slot := { c.slot with waiting := c.slot.waiting ++ [cx] } })

/-- A register-only instruction (R125): with the slot free it takes it and its results are there before the context's
next issue, unless the context is killed by the third cycle after the entry (R127); else its context waits for the slot. -/
def vecOp (i : Instr) (f : Ctx → Ctx) (s : State) : Out :=
  if s.slotFree s.myCore then
    retire f ((s.takeSlot s.cur).keepOld s.cur (entryCycle s.myCore (s.cycOf s.myCore) + 3))
  else .next (s.awaitSlot s.cur i)
/-- `vadd` (R129). -/
def execVadd (r : RMode) (d a b : Reg8) (m : Reg4) (s : State) : Out :=
  vecOp (.vadd r d a b m) (vaddEff r d a b m) s

/-- `vsub` (R129). -/
def execVsub (r : RMode) (d a b : Reg8) (m : Reg4) (s : State) : Out :=
  vecOp (.vsub r d a b m) (vsubEff r d a b m) s

/-- `vmul` (R129). -/
def execVmul (r : RMode) (d a b : Reg8) (m : Reg4) (s : State) : Out :=
  vecOp (.vmul r d a b m) (vmulEff r d a b m) s

/-- `vfma` (R129). -/
def execVfma (r : RMode) (d a b x : Reg8) (m : Reg4) (s : State) : Out :=
  vecOp (.vfma r d a b x m) (vfmaEff r d a b x m) s

/-- `vmax` (R129). -/
def execVmax (d a b : Reg8) (m : Reg4) (s : State) : Out :=
  vecOp (.vmax d a b m) (vmaxEff d a b m) s

/-- `vmin` (R129). -/
def execVmin (d a b : Reg8) (m : Reg4) (s : State) : Out :=
  vecOp (.vmin d a b m) (vminEff d a b m) s

/-- `vabs` (R129). -/
def execVabs (d a : Reg8) (m : Reg4) (s : State) : Out :=
  vecOp (.vabs d a m) (vabsEff d a m) s

/-- `vneg` (R129). -/
def execVneg (d a : Reg8) (m : Reg4) (s : State) : Out :=
  vecOp (.vneg d a m) (vnegEff d a m) s

/-- `vand` (R130). -/
def execVand (d a b : Reg8) (m : Reg4) (s : State) : Out :=
  vecOp (.vand d a b m) (vandEff d a b m) s

/-- `vor` (R130). -/
def execVor (d a b : Reg8) (m : Reg4) (s : State) : Out :=
  vecOp (.vor d a b m) (vorEff d a b m) s

/-- `vxor` (R130). -/
def execVxor (d a b : Reg8) (m : Reg4) (s : State) : Out :=
  vecOp (.vxor d a b m) (vxorEff d a b m) s

/-- `vshl` (R130). -/
def execVshl (t : VTy) (d a b : Reg8) (m : Reg4) (s : State) : Out :=
  vecOp (.vshl t d a b m) (vshlEff t d a b m) s

/-- `vshr` (R130). -/
def execVshr (t : VTy) (d a b : Reg8) (m : Reg4) (s : State) : Out :=
  vecOp (.vshr t d a b m) (vshrEff t d a b m) s

/-- `vadd` on integers (R130). -/
def execVaddInt (t : VTy) (d a b : Reg8) (m : Reg4) (s : State) : Out :=
  vecOp (.vaddInt t d a b m) (vaddIntEff t d a b m) s

/-- `vsub` on integers (R130). -/
def execVsubInt (t : VTy) (d a b : Reg8) (m : Reg4) (s : State) : Out :=
  vecOp (.vsubInt t d a b m) (vsubIntEff t d a b m) s

/-- `vcmp` (R131). -/
def execVcmp (k : VCond) (t : VTy) (d : Reg4) (a b : Reg8) (m : Reg4) (s : State) : Out :=
  vecOp (.vcmp k t d a b m) (vcmpEff k t d a b m) s

/-- `vsel` (R131). -/
def execVsel (d a b : Reg8) (q m : Reg4) (s : State) : Out :=
  vecOp (.vsel d a b q m) (vselEff d a b q m) s

/-- `vbcast` (R133). -/
def execVbcast (d : Reg8) (g : GReg) (m : Reg4) (s : State) : Out :=
  vecOp (.vbcast d g m) (vbcastEff d g m) s

/-- `vperm` (R133); field fn[5:2] is not used (log 12). -/
def execVperm (d a b : Reg8) (g : GReg) (m : Reg4) (s : State) : Out :=
  vecOp (.vperm d a b g m) (vpermEff d a b g m) s

/-- `vcvt.f2h` (R134). -/
def execVcvtF2h (r : RMode) (d a b : Reg8) (m : Reg4) (s : State) : Out :=
  vecOp (.vcvtF2h r d a b m) (vcvtF2hEff r d a b m) s

/-- `vcvt.h2fl` (R134). -/
def execVcvtH2fl (r : RMode) (d a : Reg8) (m : Reg4) (s : State) : Out :=
  vecOp (.vcvtH2fl r d a m) (vcvtH2flEff r d a m) s

/-- `vcvt.h2fh` (R134). -/
def execVcvtH2fh (r : RMode) (d a : Reg8) (m : Reg4) (s : State) : Out :=
  vecOp (.vcvtH2fh r d a m) (vcvtH2fhEff r d a m) s

/-- `vcvt.f2i` (R112, R134). -/
def execVcvtF2i (r : RMode) (t : VTy) (d a : Reg8) (m : Reg4) (s : State) : Out :=
  vecOp (.vcvtF2i r t d a m) (vcvtF2iEff r t d a m) s

/-- `vcvt.i2f` (R134). -/
def execVcvtI2f (r : RMode) (t : VTy) (d a : Reg8) (m : Reg4) (s : State) : Out :=
  vecOp (.vcvtI2f r t d a m) (vcvtI2fEff r t d a m) s

/-- `vdec` (R135). -/
def execVdec (d a : Reg8) (n : BitVec 2) (m : Reg4) (s : State) : Out :=
  vecOp (.vdec d a n m) (vdecEff (s.core s.myCore).q8 d a n m) s

/-- `venc` (R135). -/
def execVenc (d a : Reg8) (n : BitVec 2) (m : Reg4) (s : State) : Out :=
  vecOp (.venc d a n m) (vencEff (s.core s.myCore).q8 d a n m) s

/-- `vdot` (R136). -/
def execVdot (d a b x : Reg8) (m : Reg4) (s : State) : Out :=
  vecOp (.vdot d a b x m) (vdotEff (s.core s.myCore).q8 d a b x m) s

/-- `vred` (R139). -/
def execVred (o : RedOp) (t : VTy) (d a : Reg8) (m : Reg4) (s : State) : Out :=
  vecOp (.vred o t d a m) (vredEff o t d a m) s

/-- `vbfly` (R140). -/
def execVbfly (d a b x : Reg8) (m : Reg4) (s : State) : Out :=
  vecOp (.vbfly d a b x m) (vbflyEff d a b x m) s

/-- `vtwid` (R141). -/
def execVtwid (d a : Reg8) (l : BitVec 5) (m : Reg4) (s : State) : Out :=
  vecOp (.vtwid d a l m) (vtwidEff d a l m) s

-- Vector memory (R126, R132, R133, R138).

/-- The active lanes of a memory instruction with their addresses, in lane order (R133), sums that never overflow (R7); the
image of an `ldtab` is eight pieces of 64 bytes. DESIGN CHOICE: TVAL of a fault or an error in a piece is the address of the
piece, not g[a]; R268 says only "the address" (log 83). -/
def vAddrs (i : Instr) (c : Ctx) : List (Nat × Int) :=
  let act (m : Reg4) : List Nat := (List.range 32).filter (fun l => (c.mr m).getLsbD l)
  match i with
  | .vld _ g o m | .vst _ g o m => (act m).map (fun l => (l, (c.gr g).toNat + 128 * o.toInt + 4 * (l : Int)))
  | .vgath _ g b m | .vscat _ g b m => (act m).map (fun l => (l, ((c.gr g).toNat + (lane (c.vr b) l).toNat : Nat)))
  | .ldtab a => (List.range 8).map (fun j => (j, ((c.gr a).toNat + 64 * j : Nat)))
  | _ => []

/-- The window of a sum: none beyond the addresses of 64 bits (R7, R142). -/
def sumWindow (core : Nat) (z : Int) : Win :=
  if 0 ≤ z ∧ z < 2 ^ 64 then window core (BitVec.ofInt 64 z) else .none

/-- The vector register whose lanes a store writes. -/
def vSource (i : Instr) (c : Ctx) : Option VWord :=
  match i with
  | .vst x _ _ _ | .vscat x _ _ _ => some (c.vr x)
  | _ => none

/-- Bytes of each access. -/
def vWidth : Instr → Nat
  | .ldtab _ => 64
  | _ => 4

/-- The outcome of the checks of R133. -/
inductive LaneTr
  | ok (l : List (Nat × Word × Loc))
  | trap (cause : Nat) (a : Word)
  | miss (a : Word)

/-- The checks, lane by lane (R133, R138). -/
def State.laneChecks (s : State) (core part n : Nat) (k : AccKind) : List (Nat × Int) → LaneTr
  | [] => .ok []
  | (l, z) :: t =>
    let a : Word := BitVec.ofInt 64 z
    if a.toNat % n ≠ 0 then .trap causeMisaligned a
    else if z < 0 ∨ 2 ^ 64 ≤ z then .trap causeTranslation a
    else if inFleet a then .trap causeProtection a
    else
      match s.translate core part a k with
      | .trap c => .trap c a
      | .miss => .miss a
      | .ok loc =>
        match s.laneChecks core part n k t with
        | .ok r => .ok ((l, a, loc) :: r)
        | e => e

/-- Whether every lane lies in the core's own scratchpad on a resident page (R126). -/
def State.allLocal (s : State) (core : Nat) (l : List (Nat × Int)) : Bool :=
  l.all fun e =>
    match sumWindow core e.2 with
    | .scratch c off => c == core && s.pageSt c (off / 4096) == .ready
    | _ => false

/-- WHY of a memory instruction that is WAITING from issue (R126): 2 when all that it can wait for is a refill of its own
core's pages. DESIGN CHOICE: one that waits for a refill and for another home shows 1 until its entry, and 2 afterwards while
the refill lasts (log 57). -/
def vecWhy (core : Nat) (l : List (Nat × Int)) : Nat :=
  if l.all (fun e => match sumWindow core e.2 with | .scratch c _ => c == core | _ => false) then 2 else 1

/-- A memory instruction at issue (R125, R126): it takes the slot, READY when it will complete by u + 3 and WAITING
otherwise, or waits for the slot. DESIGN CHOICE: whether its pages are resident is judged here, and the context becomes
WAITING at the entry only when a page has gone by then; R126 does not say which of the two counts (log 69). -/
def vecMem (i : Instr) (s : State) : Out :=
  if s.slotFree s.myCore then
    let l := vAddrs i s.me
    let w := mkWait i 3 0 0
    let s1 := s.takeSlot s.cur
    if s.allLocal s.myCore l then .next (s1.modMe (fun c => { c with wait := some w }))
    else .next (s1.block s.cur (vecWhy s.myCore l) w)
  else .next (s.awaitSlot s.cur i)

/-- A preset form (R138) at issue: the context goes on, and the entry cycle brings the table. -/
def vecPreset (i : Instr) (s : State) : Out :=
  if s.slotFree s.myCore then
    .next (((s.takeSlot s.cur).finish s.cur 4 id).modMe (fun c => { c with wait := some (mkWait i 3 0 0) }))
  else .next (s.awaitSlot s.cur i)

/-- `vld` (R132, R133). -/
def execVld (d : Reg8) (g : GReg) (o : BitVec 6) (m : Reg4) (s : State) : Out := vecMem (.vld d g o m) s
/-- `vst` (R132, R133). -/
def execVst (x : Reg8) (g : GReg) (o : BitVec 6) (m : Reg4) (s : State) : Out := vecMem (.vst x g o m) s
/-- `vgath` (R132, R133). -/
def execVgath (d : Reg8) (g : GReg) (b : Reg8) (m : Reg4) (s : State) : Out := vecMem (.vgath d g b m) s
/-- `vscat` (R132, R133). -/
def execVscat (x : Reg8) (g : GReg) (b : Reg8) (m : Reg4) (s : State) : Out := vecMem (.vscat x g b m) s
/-- `ldtab [gA]` (R138). -/
def execLdtab (a : GReg) (s : State) : Out := vecMem (.ldtab a) s
/-- `ldtab.qa` (R138): the preset stands from the entry cycle. -/
def execLdtabQa (s : State) : Out := vecPreset .ldtabQa s
/-- `ldtab.qb` (R138). -/
def execLdtabQb (s : State) : Out := vecPreset .ldtabQb s

/-- The records of a slice's table that releases of one core at lines displace, one after the other (R186). -/
def displaced (r : Rec) : List Nat → List (Nat × Rec) → List Rec
  | [], _ => []
  | line :: t, tab =>
    match tab.find? (fun e => e.1 == line) with
    | some e =>
      (if e.2.core ≠ r.core then [e.2] else []) ++
        displaced r t (tab.filter (fun e => decide (e.1 ≠ line)) ++ [(line, r)])
    | none =>
      if 4096 ≤ tab.length then (tab.take 1).map Prod.snd ++ displaced r t (tab.drop 1 ++ [(line, r)])
      else displaced r t (tab ++ [(line, r)])

/-- The record that must be drained before the release of a vector store stands at its lines, which one slice homes
(R186). -/
def State.lanesDrain (s : State) (r : Req) : Option Rec :=
  let lines := (r.lanes.filterMap fun e => e.2.head?.filter isGlobalLoc).map (· / 64)
  match r.sig, lines with
  | some (g, _), l :: _ => (displaced ⟨coreOf r.cx, g⟩ lines (s.sliceRecs l)).find? s.undrained
  | _, _ => none

/-- The lines of global memory that a plain store brings into the L1 (R184) are read lane by lane; the first lane whose read
finds lasting bad data, if any (R396). -/
def State.storeReads (s : State) (r : Req) : List Nat → State × Option Nat
  | [] => (s, none)
  | j :: t =>
    let locs := (r.lanes.getD j (0, [])).2
    if r.sig.isNone && isGlobalLoc (locs.headD (2 ^ 44)) then
      let (s1, bad) := s.readCheck locs r.tid r.part
      if bad then (s1, some j) else s1.storeReads r t
    else s.storeReads r t

/-- The home's part of a vector request (R133, R146): its lanes in order. `vals` holds the lanes' addresses, then the
values of a store. -/
def homeVec (n : Nat) (r : Req) (s : State) : HomeOut :=
  let core := coreOf r.cx
  let k := r.lanes.length
  let isSt := decide (k < r.vals.length)
  let addr (j : Nat) : Word := BitVec.ofNat 64 (r.vals.getD j 0)
  let bad := (List.range k).find? fun j =>
    let locs := (r.lanes.getD j (0, [])).2
    (isSt && s.onObject locs) || (isSt && locs.any s.gone)
  match bad with
  | some j =>
    let c := if s.onObject (r.lanes.getD j (0, [])).2 then causeProtection else causeData
    (s, some { r.reply [] with trap := some (c, addr j) })
  | none =>
    let step (x : State × List (Nat × Nat) × List Rec × Option (Nat × Word)) (j : Nat) :
        State × List (Nat × Nat) × List Rec × Option (Nat × Word) :=
      let (s, got, recs, tr) := x
      let (l, locs) := r.lanes.getD j (0, [])
      let a := locs.headD 0
      if isSt then
        let v := r.vals.getD (k + j) 0
        if isGlobalLoc a then
          match r.sig with
          | none =>
            ((s.l1Fill core (a / 64)).l1Store core (a / 64) (a % 64) n v, got, recs ++ s.recsFor locs, tr)
          | some (g, _) =>
            (((s.setRec (a / 64) ⟨core, g⟩).homeWrote core locs).storeAt locs v, got, recs ++ s.recsFor locs, tr)
        else (s.storeAt locs v, got, recs, tr)
      else
        let (s1, err) := s.readCheck locs r.tid r.part
        if err then (s1, got, recs, some (tr.getD (causeData, addr j)))
        else if isGlobalLoc a then
          let s2 := s1.l1Fill core (a / 64)
          let v := match s2.l1? core (a / 64) with | some e => e.read (a % 64) n | none => s2.rd locs
          (s2, got ++ [(l, v)], recs ++ s2.recsFor locs, tr)
        else (s1, got ++ [(l, s1.rd locs)], recs, tr)
    match s.lanesDrain r with
    | some e => (s.askDrain ((s.partOf e.core).getD 0) (.req r) e, none)
    | none =>
      match (if isSt then s.storeReads r (List.range k) else (s, none)) with
      | (s0, some j) => (s0, some { r.reply [] with trap := some (causeData, addr j) })
      | (s0, none) =>
        let (s1, got, recs, tr) := (List.range k).foldl step (s0, [], [], none)
        (s1, some { r.reply [] with lanes := got, recs := recs, trap := tr, made := r.sig.isSome && r.locs.any isGlobalLoc })

/-- The lanes of a load as the destination takes them. -/
def vTake (d : Reg8) (got : List (Nat × Nat)) (c : Ctx) : Ctx :=
  c.setV d (lanes (fun l =>
    match got.find? (fun e => e.1 == l) with
    | some e => BitVec.ofNat 32 e.2
    | none => lane (c.vr d) l))

/-- A trap that a lane's reply brought: kept among the lanes under 64 + cause, with its address. Of the traps that several
homes report the first one counts: a lane of the own core before every reply, and the replies in the order of their arrival.
DESIGN CHOICE: R133 and R396 do not say whose address TVAL shows (log 68). -/
def laneTrap (got : List (Nat × Nat)) : Option (Nat × Nat) :=
  match got.find? (fun e => decide (64 ≤ e.1)) with
  | some e => some (e.1 - 64, e.2)
  | none => none

/-- The image that the pieces of an `ldtab` spell. -/
def tableImage (got : List (Nat × Nat)) : Q8Tab :=
  BitVec.ofNat 4096 ((List.range 8).foldl
    (fun acc j => acc + (match got.find? (fun e => e.1 == j) with | some e => e.2 | none => 0) * 2 ^ (512 * j)) 0)

/-- A memory instruction ends: a trap, the loaded lanes, or the new table (R133, R138). A store that ends without a trap has
made the release that was pending, if it carried one (R193). -/
def State.endVec (s : State) (cx : Nat) (i : Instr) (got : List (Nat × Nat)) (made : Bool) : State :=
  match laneTrap got with
  | some (c, a) => s.trapCtx cx c (BitVec.ofNat 64 a)
  | none =>
    let s := if made then s.modCtx cx (fun c => { c with relp := none }) else s
    match i with
    | .vld d _ _ _ | .vgath d _ _ _ => s.finish cx 4 (vTake d got)
    | .ldtab a =>
      let img := tableImage got
      if q8Valid img then (s.modCore (coreOf cx) (fun k => { k with q8 := img })).finish cx 4 id
      else s.trapCtx cx causeTable ((s.ctx cx).gr a)
    | _ => s.finish cx 4 id

/-- A reply to one of a vector instruction's requests: the last one ends it. -/
def State.vecReply (s : State) (rep : Reply) : State :=
  match (s.ctx rep.cx).wait with
  | some w =>
    let got := w.got ++ rep.lanes ++ (match rep.trap with | some (c, a) => [(64 + c, a.toNat)] | none => [])
    let s1 := s.modCtx rep.cx (fun c =>
      { c with
        recs := c.recs ++ rep.recs
        wait := some { w with got := got, acks := w.acks - 1, val := if rep.made then 1 else w.val } })
    if w.acks ≤ 1 then s1.endVec rep.cx w.i got (rep.made || w.val == 1) else s1
  | none => s

/-- A group of lanes that one home performs. -/
structure LaneGroup where
  home : Home
  loc  : Loc
  ls   : List (Nat × Word × Loc)

/-- Groups lanes by home, in lane order. -/
def groupLanes : List (Nat × Word × Loc) → List LaneGroup
  | [] => []
  | (l, a, loc) :: t =>
    let g := groupLanes t
    match g.find? (fun x => decide (x.home = homeOf loc)) with
    | some _ => g.map (fun x => if x.home = homeOf loc then { x with loc := loc, ls := (l, a, loc) :: x.ls } else x)
    | none => { home := homeOf loc, loc := loc, ls := [(l, a, loc)] } :: g

/-- The request of a group. -/
def State.laneReq (s : State) (i : Instr) (n : Nat) (sig : Option (Sig × Scope)) (g : LaneGroup) : Req :=
  let addrs := g.ls.map (fun e => e.2.1.toNat)
  let vals := match vSource i s.me with
    | some v => g.ls.map (fun e => (lane v e.1).toNat)
    | none => []
  { s.mkReq i (BitVec.ofNat 64 (addrs.headD 0)) g.loc n (addrs ++ vals) sig with
    locs := (g.ls.map (fun e => bytesOf e.2.2 n)).flatten
    lanes := g.ls.map (fun e => (e.1, bytesOf e.2.2 n)) }

/-- A lane that the L1 serves (R184): a hit of a plain load, or of a store without a pending release. -/
def State.laneHit (s : State) (core : Nat) (rel : Bool) (l : Loc) : Bool :=
  match l with
  | .global pa => !rel && (s.l1? core (pa / 64)).isSome
  | _ => false

/-- The lanes that hit, performed in order. -/
def State.laneHits (s : State) (core n : Nat) (src : Option VWord) :
    List (Nat × Word × Loc) → State × List (Nat × Nat) × List Rec
  | [] => (s, [], [])
  | (l, _, .global pa) :: t =>
    match s.l1? core (pa / 64) with
    | some e =>
      match src with
      | some v => (s.l1Store core (pa / 64) (pa % 64) n (lane v l).toNat).laneHits core n src t
      | none =>
        let (s1, got, recs) := (s.l1Touch core (pa / 64)).laneHits core n src t
        (s1, (l, e.read (pa % 64) n) :: got, e.rrec.toList ++ recs)
    | none => s.laneHits core n src t
  | _ :: t => s.laneHits core n src t

/-- The first lane on a page of the core's own scratchpad in one of these states. -/
def State.laneOn (s : State) (core : Nat) (st : PageSt → Bool) (l : List (Nat × Word × Loc)) : Option (Word × Nat) :=
  match l.find? (fun e => match e.2.2 with | .scratch c off => c == core && st (s.pageSt c (off / 4096)) | _ => false) with
  | some (_, a, .scratch _ off) => some (a, off / 4096)
  | _ => none

/-- Refills start for the pages of these lanes that are not resident (R149). -/
def State.refillLanes (s : State) (core : Nat) (l : List (Nat × Word × Loc)) : State :=
  l.foldl (fun s e =>
    match e.2.2 with
    | .scratch c off => if c = core ∧ s.pageSt c (off / 4096) = .busy then s.startRefill c (off / 4096) else s
    | _ => s) s

/-- A memory instruction whose checks passed performs its accesses (R126, R133): hits in the L1, lanes in its own core's
scratchpad, and requests for the others. -/
def vecAccess (i : Instr) (n : Nat) (src : Option VWord) (ls : List (Nat × Word × Loc)) (s : State) : Out :=
  let core := s.myCore
  let anyG := ls.any (fun e => match e.2.2 with | .global _ => true | _ => false)
  let rel := if src.isSome && anyG then s.me.relp else none
  let hits := ls.filter (fun e => s.laneHit core rel.isSome e.2.2)
  let rest := ls.filter (fun e => !s.laneHit core rel.isSome e.2.2)
  let (s1, got1, recs1) := s.laneHits core n src hits
  let reqs := (groupLanes rest).map (s1.laneReq i n rel)
  let late := (s1.laneOn core (fun p => p == .busy) rest).isSome
  let here (r : Req) : Bool := decide (r.home = .core core) && (s1.resvOn r.locs).isNone && !late
  let own := reqs.filter here
  let far := reqs.filter (fun r => !here r)
  let (s2, got2) := own.foldl (fun (x : State × List (Nat × Nat)) r =>
    match homeVec n r x.1 with
    | (t, some rep) =>
      (t, x.2 ++ rep.lanes ++ (match rep.trap with | some (c, a) => [(64 + c, a.toNat)] | none => []))
    | (t, none) => (t, x.2)) (s1.refillLanes core rest, [])
  let s3 := s2.modMe (fun c => { c with recs := c.recs ++ recs1 })
  let got := got1 ++ got2
  if far.isEmpty then
    if s.me.state = .ready then .next (s3.endVec s.cur i got false)
    else
      .next (s3.modMe (fun c =>
        { c with wait := some { mkWait i 4 0 0 with got := got, till := s.cycOf core + 3 } }))
  else
    .next ((s3.block s.cur (if late then 2 else 1) { mkWait i 1 far.length 0 with got := got }).sendAll (far.map .req))

/-- A memory instruction enters the unit (R126, R133): checks in lane order, then its accesses. -/
def vecEnter (i : Instr) (s : State) : Out :=
  let core := s.myCore
  let n := vWidth i
  let src := vSource i s.me
  let k : AccKind := if src.isSome then .store else .load
  match s.laneChecks core s.myPart n k (vAddrs i s.me) with
  | .trap c a => .next (s.trapCtx s.cur c a)
  | .miss a => .next (s.missWait s.cur i s.myPart a k)
  | .ok ls =>
    match s.laneOn core (fun p => p == .prot || p == .fault || p == .lost) ls with
    | some (a, p) => localPage i a core p k (fun s => .next s) (fun s => .next s) s
    | none => vecAccess i n src ls s

/-- The slot of a core passes to the oldest waiting context (R125), unless its partition stops: then those that wait are
left (R278). Its WHY stays 12 until its instruction enters, and for an instruction that needs nothing from elsewhere until it
ends: DESIGN CHOICE, the manual gives no other value (log 57). -/
def State.passSlot (s : State) (core : Nat) : State :=
  let s0 := s.modCore core (fun c => { c with slot := { c.slot with holder := none } })
  match (s0.core core).slot.waiting with
  | [] => s0
  | cx :: t =>
    if (s.partOf core).any s.partOut then s0
    else
      (s0.modCore core (fun c => { c with slot := { c.slot with waiting := t } })).modCtx cx
        (fun c => { c with wait := c.wait.map (fun w => { w with ph := 3 }) }) |>.takeSlot cx

/-- The preset that an `ldtab` without memory brings at its entry (R138). -/
def presetOf : Instr → Option Q8Tab
  | .ldtabQa => some q8aImage
  | .ldtabQb => some q8bImage
  | _ => none

/-- The instruction of a context that has taken the slot, when its entry has something to perform. A context killed in
between has none: its instruction is dropped and the slot passes on in its entry cycle (DESIGN CHOICE, log 57). -/
def State.holderInstr (s : State) (cx : Nat) : Option Instr :=
  match (s.ctx cx).wait with
  | some w => if w.ph = 3 then some w.i else none
  | none => none

/-- Completes the contexts of a core whose entered instruction ends by now (R125 item 3). -/
def State.vecDone (s : State) (core : Nat) : State :=
  (List.range 16).foldl (fun s j =>
    let cx := core * 16 + j
    match (s.ctx cx).wait with
    | some w =>
      if w.ph = 4 ∧ w.till ≤ s.cycOf core then
        match vecEffect (w.tbl.getD (s.core core).q8) w.i with
        | some f => s.finish cx 4 f
        | none => s.endVec cx w.i w.got false
      else s
    | none => s) s

/-- An instruction that has taken the slot of its core enters (R125, R126, R138); a register-only one that issued into a
free slot was performed at issue. -/
def State.enterVec (s : State) (cx : Nat) : Out :=
  let core := coreOf cx
  let later (t : State) : State :=
    t.modCtx cx (fun c => { c with wait := c.wait.map (fun w => { w with ph := 4, till := t.cycOf core + 3 }) })
  match s.holderInstr cx with
  | none => .next s
  | some i =>
    match presetOf i with
    | some t =>
      let s1 := s.modCore core (fun c => { c with q8 := t })
      if (s.ctx cx).state = .waiting then .next (later s1) else .next (s1.modCtx cx (fun c => { c with wait := none }))
    | none =>
      if (vecEffect 0 i).isSome then .next (later s)
      else (if (s.ctx cx).state = .ready then s.keepOld cx (s.cycOf core + 3) else s).as_ cx (vecEnter i)

/-- Core `State.sel`: the instruction that holds the vector slot, or held it until another took it in this cycle, enters,
and instructions that entered and whose results are written end (R125, R126, R138). -/
def execVectorSlotEntry (s : State) : Out :=
  let core := s.sel
  let s0 := s.vecDone core
  match (s0.core core).slot.entering with
  | some cx => (s0.modCore core (fun c => { c with slot := { c.slot with entering := none } })).enterVec cx
  | none =>
    match (s0.core core).slot.holder with
    | none => .next s0
    | some (cx, u) => if s0.cycOf core < u then .next s0 else (s0.passSlot core).enterVec cx

end Sys2Proof.Machine
end

