-- ==== Sys2Proof/Machine/Network.lean ====
section
/-! DEFINITION. The network engine of each die, its endpoints and ports, and in-switch reductions (R369–R378, R382–R388).
The engine acts through the partition's translation for core 0 of cluster 0 of its die (R274, R376). -/

namespace Sys2Proof.Machine

-- Endpoints (R373)

/-- Whether an endpoint has these numbers. -/
def Endpoint.is (die part ep : Nat) (e : Endpoint) : Bool := e.die == die && e.part == part && e.ep == ep

/-- An endpoint. -/
def State.ep? (s : State) (die part ep : Nat) : Option Endpoint := s.eps.find? (Endpoint.is die part ep)

/-- Replaces an endpoint. -/
def State.putEp (s : State) (e : Endpoint) : State :=
  { s with eps := s.eps.map (fun x => if x.is e.die e.part e.ep then e else x) }

/-- A peer-table entry (R372): four dwords; one that the fabric manager has not filled reads 0. -/
def State.peer (s : State) (die part idx : Nat) : List Word := tget [0, 0, 0, 0] ((die * 1024 + part) * 1024 + idx) s.peers

/-- V of a peer-table entry. -/
def peerValid (p : List Word) : Bool := bit (p.headD 0) 0

/-- A place number that names a core of a partition (R14). -/
def State.placeIn (s : State) (part : Nat) (x : Nat) : Bool :=
  match coreOfPlace s.pkg (BitVec.ofNat 64 x) with
  | some k => s.partOf k == some part
  | none => false

/-- Whether a descriptor is valid (R373, R383). -/
def State.descOk (s : State) (die part : Nat) (b : List Byte) : Bool :=
  let d := dwordAt b
  let glob (x : Nat) : Bool := inGlobal (BitVec.ofNat 64 x)
  decide (4 ≤ d 0) && decide (d 0 ≤ 12) && decide (d 1 % 64 = 0) && glob (d 1) && decide (d 2 % 4096 = 0) && glob (d 2)
    && decide (d 3 % 4096 = 0) && decide (4096 ≤ d 3) && decide (d 3 ≤ 2 ^ 32) && decide (d 4 < 1024)
    && peerValid (s.peer die part (d 4)) && decide (d 6 < 2 ^ 32) && decide (d 7 = 0)
    && (decide (d 5 = 0) || (decide (d 5 % 4 = 0) && glob (d 5) && s.placeIn part (d 6)))

/-- The endpoint of a valid descriptor (R383), with the number of its registration. -/
def endpointOf (die part ep inc : Nat) (b : List Byte) : Endpoint :=
  let d := dwordAt b
  { die := die, part := part, ep := ep, inc := inc, rlog := d 0, ring := BitVec.ofNat 64 (d 1), buf := BitVec.ofNat 64 (d 2)
    blen := d 3, peer := d 4, entry := BitVec.ofNat 64 (d 5), tplace := BitVec.ofNat 32 (d 6), prod := 0, next := 0
    reqs := [], sc := 0, rc := 0, scErr := 0, rcErr := 0, scSig := 0, rcSig := 0, tags := [], nextPkt := 0, seqNo := 0
    port := 3, rx := [], seen := [], sixes := [], flits := [], spawns := [], spawnOut := false }

-- Counters (R385)

/-- Whether a count has been reached. -/
def countReached (count n : Nat) : Bool := decide ((count + 2 ^ 32 - n % 2 ^ 32) % 2 ^ 32 < 2 ^ 31)

/-- The word of a counter: COUNT and ERRS. -/
def State.counterWord (s : State) (die part x : Nat) : Nat :=
  match s.ep? die part (x / 2) with
  | some e =>
    if x % 2 = 1 then e.rc % 2 ^ 32 + min e.rcErr 0xFFFF * 2 ^ 32 else e.sc % 2 ^ 32 + min e.scErr 0xFFFF * 2 ^ 32
  | none => 0

/-- The release that a counter that has reached a count carries (R376); none while the count is not reached or the
endpoint does not exist. -/
def State.counterSig (s : State) (die part x n : Nat) : Option Sig :=
  match s.ep? die part (x / 2) with
  | some e =>
    if countReached (if x % 2 = 1 then e.rc else e.sc) n then some (if x % 2 = 1 then e.rcSig else e.scSig) else none
  | none => none

/-- The counter and count that a context waits for in `ncw`: the counter in bits 40:32, the count below. -/
def Ctx.ncwWaits (c : Ctx) : Option (Instr × Word × Nat × Nat) :=
  match c.wait with
  | some w =>
    match w.i with
    | .ncw _ _ => if c.state = .waiting ∧ w.ph = 1 then some (w.i, w.next, bits w.val 40 32, bits w.val 31 0) else none
    | _ => none
  | none => none

/-- Contexts of a partition on a die whose `ncw` is reached go on, acquiring at `.pkg` (R376, R385). -/
def State.wakeNcw (s : State) (die part : Nat) : State :=
  (s.ctxs.map Prod.fst).foldl (fun s cx =>
    if dieOf (coreOf cx) = die ∧ s.partOf (coreOf cx) = some part then
      match (s.ctx cx).ncwWaits with
      | some (i, next, x, n) =>
        match s.counterSig die part x n with
        | some g => s.startAcquireSig cx i next g
        | none => s
      | none => s
    else s) s

-- Completion (R375, R388)

/-- SC passes every request of the ring that is settled (R388). -/
def Endpoint.passSc (e : Endpoint) : (n : Nat) → Endpoint
  | 0 => e
  | n + 1 =>
    match e.reqs.find? (fun r => decide (r.idx = e.sc) && r.written) with
    | some r =>
      ({ e with
          reqs := e.reqs.filter (fun x => decide (x.idx ≠ r.idx)), sc := (e.sc + 1) % 2 ^ 32
          scErr := if r.code ≠ some 0 ∨ r.werr then e.scErr + 1 else e.scErr } : Endpoint).passSc n
    | none => e

/-- Changes a request of an endpoint. -/
def Endpoint.modReq (e : Endpoint) (idx : Nat) (f : NReq → NReq) : Endpoint :=
  { e with reqs := e.reqs.map (fun r => if r.idx = idx then f r else r) }

/-- The address of a request's slot. -/
def Endpoint.slot (e : Endpoint) (idx : Nat) : Word := e.ring + BitVec.ofNat 64 (64 * (idx % 2 ^ e.rlog))

/-- A request's dwords 3 and 4 are settled; one that could not be written is logged with KIND 9 (R375). -/
def State.netSettled (s : State) (e : Endpoint) (idx : Nat) (ok : Bool) (g : Sig) : State :=
  let s1 := if ok then s else s.logErr e.die 9 e.part (e.slot idx + 24).toNat 0
  let e1 := e.modReq idx (fun r => { r with written := true, werr := !ok })
  let e2 := ({ e1 with scSig := e1.scSig ||| g } : Endpoint).passSc e1.reqs.length
  (s1.putEp e2).wakeNcw e.die e.part

/-- The requester of an access that an endpoint makes for a request. -/
def Endpoint.who (e : Endpoint) (idx : Nat) : Requester := .net e.die e.part e.ep idx

/-- How the write of a request's dwords 3 and 4 stands. -/
def State.writePlan (s : State) (e : Endpoint) (idx : Nat) : Plan :=
  s.planOne (e.who idx) (dieCore e.die) e.part (e.slot idx + 24) 16 .engWrite

/-- Writes dwords 3 and 4 of a complete request (R374, R375), or waits for what stands before that write (R274). -/
def State.netWrite (s : State) (e : Endpoint) (r : NReq) : State :=
  match s.writePlan e r.idx with
  | .ok l =>
    let s1 := s.unitDone (e.who r.idx)
    if l.any s.gone then s1.netSettled e r.idx false 0
    else
      let v := r.code.getD 0 + min r.rtx 0xFFFF * 2 ^ 16 + r.mask * 2 ^ 64
      (s1.storeAt l v).netSettled e r.idx true (sigAdd 0 (l.headD 0 / 64))
  | .trap _ _ => (s.unitDone (e.who r.idx)).netSettled e r.idx false 0
  | p => s.unitWait (e.who r.idx) (dieCore e.die) e.part p

/-- A complete request whose dwords 3 and 4 can be written, or waited for, now (R388). -/
def State.netWrites (s : State) (e : Endpoint) : Option NReq :=
  e.reqs.find? fun r =>
    r.code.isSome && !r.written && !s.faulted (e.who r.idx) && s.planMoves (e.who r.idx) e.part (s.writePlan e r.idx)

/-- A request completes with a CODE and a mask (R374, R375), and its dwords 3 and 4 are written (R388). `g` are the lines
that the request wrote into its own receive buffer, which the rise of SC covers (R376). -/
def State.netCompleteWith (s : State) (die part ep idx code mask : Nat) (g : Sig) : State :=
  match s.ep? die part ep with
  | none => s
  | some e =>
    match e.reqs.find? (fun r => decide (r.idx = idx) && r.code.isNone) with
    | none => s
    | some r =>
      let r1 : NReq := { r with code := some code, mask := mask, pkts := [], bytes := [] }
      let e1 : Endpoint := { e.modReq idx (fun _ => r1) with scSig := e.scSig ||| g }
      (s.putEp e1).netWrite e1 r1

/-- A request completes that has written nothing. -/
def State.netComplete (s : State) (die part ep idx code mask : Nat) : State :=
  s.netCompleteWith die part ep idx code mask 0

-- Starting a request (R374, R375)

/-- What an endpoint's next request does: it ends with a CODE, waits, or starts with its source at these locations. -/
inductive NetDo
  | end_ (code : Nat)
  | wait (p : Plan)
  | go (src : List Nat)

/-- Whether a work request is valid (R374) (log 41). -/
def requestOk (b : List Byte) : Bool :=
  let d := dwordAt b
  let len := nbits (d 0) 63 32
  decide (nbits (d 0) 31 5 = 0) && decide (d 5 = 0) && decide (d 6 = 0) && decide (d 7 = 0) &&
    (if nbits (d 0) 3 0 = 0 then decide (1 ≤ len) && decide (len ≤ 2 ^ 24)
     else decide (nbits (d 0) 3 0 = 1) && decide (len % 4 = 0) && decide (len ≤ 2 ^ 20) && decide (d 1 % 4 = 0))

/-- The pieces of a request's source. -/
def requestSource (b : List Byte) : List (Word × Nat) :=
  piecesOf (BitVec.ofNat 64 (dwordAt b 1)) (nbits (dwordAt b 0) 63 32)

/-- How the read of an endpoint's next ring slot stands. -/
def State.slotPlan (s : State) (e : Endpoint) : Plan :=
  s.planOne (e.who e.next) (dieCore e.die) e.part (e.slot e.next) 64 .engRead

/-- What the next request of an endpoint does, once its slot is read: its reads, or why it ends or waits (R374, R375). -/
def State.netDo (s : State) (e : Endpoint) (b : List Byte) : NetDo :=
  if !requestOk b then .end_ 1
  else if !peerValid (s.peer e.die e.part e.peer) then .end_ 3
  else if (requestSource b).any (fun p => !inGlobal p.1) then .end_ 2
  else
    match s.plan (e.who e.next) (dieCore e.die) e.part .engRead (requestSource b) with
    | .ok r => .go r
    | .trap _ _ => .end_ 2
    | p => .wait p

/-- The next request of an endpoint, started with nothing sent. -/
def Endpoint.start (e : Endpoint) (r : NReq) : Endpoint :=
  { e with next := (e.next + 1) % 2 ^ 32, tags := e.tags.drop 1, reqs := e.reqs ++ [r] }

/-- A request that sends nothing. -/
def Endpoint.emptyReq (e : Endpoint) : NReq :=
  { idx := e.next, reduce := false, cnt := false, len := 0, roff := 0, bytes := [], peer := [], pkts := [], six := false
    code := none, rtx := 0, mask := 0, written := false, werr := false, tag := (e.tags.headD (false, false)).1
    fx := (e.tags.headD (false, false)).2 }

/-- The next request ends before anything is sent. -/
def State.netFail (s : State) (e : Endpoint) (code : Nat) : State :=
  (s.putEp (e.start e.emptyReq)).netComplete e.die e.part e.ep e.next code 0

/-- The packets of a message (R375 step 2). -/
def packetsOf (first len : Nat) : List NPkt :=
  (List.range (ceilDiv len 4096)).map fun k =>
    { num := first + k, off := k * 4096, len := min 4096 (len - k * 4096), port := 0, sends := 0, seq := 0, sent := 0
      acked := false }

/-- The ports of a die that carry a path: Ethernet for PATH 0, scale-up for PATH 1 (R369, R372). -/
def Die.ports (d : Die) (scaleUp : Bool) : List Nat :=
  (List.range 3).filter fun k => d.up.getLsbD k && (d.mode.getLsbD k != scaleUp)

/-- The source place number of what a network engine sends: of core 0 of cluster 0 of its die (R13, R370) (log 41). -/
def State.netPlace (s : State) (die : Nat) : BitVec 32 := BitVec.ofNat 32 (placeOf s.pkg (dieCore die * 16))

/-- The next port of the rotation (R387). -/
def nextPort (last : Nat) (l : List Nat) : Option Nat :=
  match l.find? (fun k => decide (last < k ∧ last < 3)) with
  | some k => some k
  | none => l.head?

/-- Whether a request's peer is reached over scale-up ports (PATH of R372). -/
def NReq.scaleUp (r : NReq) : Bool := bit (r.peer.headD 0) 1

/-- Where a request's packets go (R372): to the peer's IPv6 address, or its package and die. -/
def NReq.dest (r : NReq) : Dest :=
  let w := r.peer.headD 0
  if r.scaleUp then .scale (bits w 39 32) (bits w 42 40) else .ether ((r.peer.getD 2 0) ++ (r.peer.getD 1 0))

/-- The reduction identity and the rank of a request (R372). -/
def NReq.redId (r : NReq) : Nat × Nat :=
  let w := r.peer.getD 3 0
  (bits w 15 0, bits w 21 16)

/-- The packet as it travels. -/
def Endpoint.packet (e : Endpoint) (pkg : Nat) (r : NReq) (p : NPkt) : Packet :=
  { srcPkg := pkg, srcDie := e.die, srcPart := e.part, srcEp := e.ep, inc := e.inc, dst := r.dest
    dstEp := bits (r.peer.headD 0) 31 16, num := p.num, req := r.idx, off := p.off, roff := r.roff, len := r.len
    cnt := r.cnt, bytes := (r.bytes.drop p.off).take p.len }

/-- Payload bytes of a flit (R370). -/
def flitBytes : Nat := 224

/-- The flits of a packet (R370). -/
def flitsOf (r : NReq) (place : BitVec 32) (p : Packet) : List Flit :=
  (List.range (ceilDiv p.bytes.length flitBytes)).map fun k =>
    { part := p.srcPart, phase := r.tag, fx := r.fx, place := place, red := none, at_ := k * flitBytes
      len := min flitBytes (p.bytes.length - k * flitBytes), pkt := p }

/-- The flits of a contribution or a result of a reduction: they carry its identity and the contributor's rank (R370). -/
def redFlits (r : NReq) (place : BitVec 32) (p : Packet) : List Flit :=
  (flitsOf r place p).map (fun f => { f with red := some r.redId })

/-- A contribution as one packet, of which its flits are parts (R370, R378) (log 41). -/
def Endpoint.contribPacket (e : Endpoint) (pkg : Nat) (r : NReq) : Packet :=
  e.packet pkg r { num := 0, off := 0, len := r.bytes.length, port := 0, sends := 0, seq := 0, sent := 0, acked := false }

/-- The next request starts: its packets go out, or the flits of its contribution go to the switch (R370, R375, R378),
unless no scale-up port is up (R374). For a `REDUCE` whose peer entry takes part in no reduction the manual gives no CODE:
it is a free value (log 22). -/
def State.netGo (s : State) (e : Endpoint) (b src : List Byte) : State :=
  let d := dwordAt b
  let peer := s.peer e.die e.part e.peer
  let len := nbits (d 0) 63 32
  let r : NReq :=
    { e.emptyReq with reduce := decide (nbits (d 0) 3 0 = 1), cnt := (d 0).testBit 4, len := len, roff := d 2, bytes := src
                      peer := peer }
  if r.reduce then
    let w := peer.getD 3 0
    if bits w 28 22 = 0 then (s.putEp (e.start r)).netComplete e.die e.part e.ep e.next Config.soloReduce.toNat 0
    else
      match nextPort e.port ((s.die e.die).ports true) with
      | none => (s.putEp (e.start r)).netComplete e.die e.part e.ep e.next 3 0
      | some k =>
        let fs := redFlits r (s.netPlace e.die) (e.contribPacket s.pkg r)
        ({ s.putEp { e.start r with port := k } with
            out := s.out ++ fs.map (fun f => .flit f peer (3 * e.die + k)) } : State).send (.contrib
          { part := e.part, phase := r.tag, fx := r.fx, place := s.netPlace e.die, rid := r.redId.1, rank := r.redId.2
            nr := bits w 28 22, len := len, roff := d 2, bytes := src, mine := some (e.die, e.part, e.ep, e.next) })
  else
    let pkts := packetsOf e.nextPkt len
    (s.putEp (({ e with nextPkt := e.nextPkt + pkts.length } : Endpoint).start { r with pkts := pkts })).sendAll
      (pkts.map (fun p => .pkt e.die e.part e.ep p.num))

/-- The next request of an endpoint is read and started, or waits (R375): its slot is read first, and an error there ends it
with CODE 2. -/
def State.netStart (s : State) (e : Endpoint) : State :=
  let who := e.who e.next
  match s.slotPlan e with
  | .ok l =>
    let b := s.rdBytes l
    let (s1, bad) := s.readCheck l 0xFFFFFFFE e.part
    if bad then (s1.unitDone who).netFail e 2
    else
      match s1.netDo e b with
      | .end_ code => (s1.unitDone who).netFail e code
      | .wait p => s1.unitWait who (dieCore e.die) e.part p
      | .go src =>
        let (s2, bad) := (s1.unitDone who).readCheck src 0xFFFFFFFE e.part
        if bad then s2.netFail e 2 else s2.netGo e b (s2.rdBytes src)
  | .trap _ _ => (s.unitDone who).netFail e 2
  | p => s.unitWait who (dieCore e.die) e.part p

/-- Whether an endpoint can start its next request, or wait for what stands before it. -/
def State.netStarts (s : State) (e : Endpoint) : Bool :=
  let who := e.who e.next
  decide (e.next ≠ e.prod) && !s.faulted who && s.planMoves who e.part (s.slotPlan e) &&
    match s.slotPlan e with
    | .ok l => (match s.netDo e (s.rdBytes l) with | .wait p => s.planMoves who e.part p | _ => true)
    | _ => true

/-- The engine goes on with an endpoint: a completion that is still to be written, or the next request (R375). -/
def execWorkRequestStart (die part ep : Nat) (s : State) : Out :=
  match s.ep? die part ep with
  | none => .next s
  | some e =>
    match s.netWrites e with
    | some r => .next (s.netWrite e r)
    | none => if s.netStarts e then .next (s.netStart e) else .next s

/-- An access of an endpoint for a request is denied, or its walk meets an error (R375, R396). -/
def State.netDenied (s : State) (die part ep idx : Nat) : State :=
  let s1 := s.unitDone (.net die part ep idx)
  match s1.ep? die part ep with
  | none => s1
  | some e =>
    if e.reqs.any (fun r => r.idx == idx) then s1.netSettled e idx false 0
    else if e.next = idx then s1.netFail e 2 else s1

-- Packets (R387)

/-- The started request that holds a packet that is not settled. -/
def Endpoint.holding (e : Endpoint) (num : Nat) : Option (NReq × NPkt) :=
  e.reqs.findSome? fun r =>
    if r.code.isNone then
      match r.pkts.find? (fun p => decide (p.num = num) && !p.acked) with
      | some p => some (r, p)
      | none => none
    else none

/-- A packet goes out on the next port of the rotation (R375, R387), as flits on the scale-up path (R370); without a port of
its path its request ends with CODE 3 (R374). -/
def State.transmit (s : State) (e : Endpoint) (r : NReq) (p : NPkt) : State :=
  match nextPort e.port ((s.die e.die).ports r.scaleUp) with
  | none => s.netComplete e.die e.part e.ep r.idx 3 0
  | some k =>
    let p1 : NPkt := { p with port := k, sends := p.sends + 1, seq := e.seqNo + 1, sent := s.now }
    let e1 := e.modReq r.idx fun r =>
      { r with
        pkts := r.pkts.map (fun x => if x.num = p.num then p1 else x), rtx := if p.sends = 0 then r.rtx else r.rtx + 1 }
    let s1 := s.putEp { e1 with port := k, seqNo := e.seqNo + 1 }
    let x := e.packet s1.pkg r p
    { s1 with
      out := s1.out ++
        if r.scaleUp then (flitsOf r (s1.netPlace e.die) x).map (fun f => .flit f r.peer (3 * e.die + k))
        else [.packet x r.peer (3 * e.die + k)] }

/-- The packet named by the message at `State.sel` goes out for the first time (R375, R387). -/
def execPacketSend (s : State) : Out :=
  match s.msgs[s.sel]? with
  | some (.pkt die part ep num) =>
    let s0 := s.dropMsg s.sel
    match s0.ep? die part ep with
    | none => .next s0
    | some e =>
      match e.holding num with
      | some (r, p) => .next (s0.transmit e r p)
      | none => .next s0
  | _ => .next s

/-- A packet is sent again at once (R375, R387); after 17 transmissions its request ends with CODE 3 (R374) (log 42). -/
def State.resend (s : State) (die part ep num : Nat) : State :=
  match s.ep? die part ep with
  | none => s
  | some e =>
    match e.holding num with
    | none => s
    | some (r, p) =>
      if p.sends = 0 then s
      else if 17 ≤ p.sends then s.netComplete die part ep r.idx 3 0
      else s.transmit e r p

/-- Whether a packet's retransmission timeout has passed (R375). -/
def State.rtoDue (s : State) (die part ep num : Nat) : Bool :=
  match s.ep? die part ep with
  | none => false
  | some e =>
    match e.holding num with
    | some (_, p) => decide (p.sends ≠ 0) && decide (p.sent + Config.rtoTicks ≤ s.now)
    | none => false

/-- A packet's retransmission timeout passes (R375). -/
def execRetransmitTimeout (die part ep num : Nat) (s : State) : Out := .next (s.resend die part ep num)

/-- The packets that an acknowledgement shows missing (R387): a packet that it covers left later over the same
port (log 42). -/
def Endpoint.missing (e : Endpoint) (covers : List Nat) : List Nat :=
  let all := (e.reqs.map (·.pkts)).flatten
  (all.filter fun p =>
    decide (p.sends ≠ 0) && !p.acked &&
      all.any (fun q => covers.contains q.num && q.port == p.port && decide (p.seq < q.seq))).map (·.num)

/-- An acknowledgement's effect on a request. -/
def ackReq (a : Ack) (r : NReq) : NReq :=
  { r with
    pkts := r.pkts.map (fun p => if a.covers.contains p.num then { p with acked := true } else p)
    six := r.six || r.pkts.any (fun p => a.codes.contains (p.num, 6)) }

/-- Whether every packet of a request is acknowledged. -/
def NReq.allAcked (r : NReq) : Bool := !r.reduce && r.code.isNone && !r.pkts.isEmpty && r.pkts.all (·.acked)

/-- An acknowledgement arrives (R375, R387): requests complete, and packets that it shows missing are sent again. One for an
earlier registration of the endpoint's number is not for this endpoint. -/
def execAckReceive (a : Ack) (s : State) : Out :=
  match (s.ep? a.die a.part a.ep).filter (fun e => e.inc == a.inc) with
  | none => .next s
  | some e =>
    let miss := e.missing a.covers
    let e1 : Endpoint := { e with reqs := e.reqs.map (ackReq a) }
    let refused := e.reqs.filter (fun r => r.code.isNone && r.pkts.any (fun p => a.codes.contains (p.num, 4)))
    let s1 := s.putEp e1
    let s2 := refused.foldl (fun s r => s.netComplete a.die a.part a.ep r.idx 4 0) s1
    let s3 := (e1.reqs.filter NReq.allAcked).foldl
      (fun s r => s.netComplete a.die a.part a.ep r.idx (if r.six then 6 else 0) 0) s2
    .next ((miss.filter (fun n => !a.covers.contains n)).foldl (fun s n => s.resend a.die a.part a.ep n) s3)

/-- Port `State.sel` of the package goes down (R369, R386): packets that were sent on it and not acknowledged are sent
again at once. -/
def execPortLinkDown (s : State) : Out :=
  let die := s.sel / 3
  let k := s.sel % 3
  let s1 := s.modDie die (fun d => { d with up := setBits d.up k k 0 })
  .next ((s1.eps.filter (fun e => e.die == die)).foldl (fun s e =>
    (((e.reqs.map (·.pkts)).flatten).filter (fun p => decide (p.sends ≠ 0) && p.port == k && !p.acked)).foldl
      (fun s p => s.resend e.die e.part e.ep p.num) s) s1)

/-- Port `State.sel` of the package comes up (R369). -/
def execPortLinkUp (s : State) : Out :=
  .next (s.modDie (s.sel / 3) (fun d => { d with up := setBits d.up (s.sel % 3) (s.sel % 3) 1 }))

-- Receiving (R375)

/-- A piece of a range in the receiving partition's tables: the locations that can be written now, or none
(R375) (log 41). -/
def State.rxPiece (s : State) (die part : Nat) (va : Word) (n : Nat) : Option (List Nat) :=
  if inGlobal va then
    match s.find (.place die part) (dieCore die) part va .engWrite with
    | .ok l => if (bytesOf l n).any s.gone then none else some (bytesOf l n)
    | _ => none
  else none

/-- The first page of a range whose translation is still to be walked for (R375). -/
def State.rxMiss (s : State) (die part : Nat) (va : Word) (n : Nat) : Option Word :=
  ((piecesOf va n).find? fun p =>
    inGlobal p.1 && decide (s.find (.place die part) (dieCore die) part p.1 .engWrite = .miss)).map Prod.fst

/-- Whether a byte of a range is reserved (R209). -/
def State.rxBusy (s : State) (die part : Nat) (va : Word) (n : Nat) : Bool :=
  (piecesOf va n).any fun p =>
    match s.rxPiece die part p.1 p.2 with
    | some l => (s.resvOn l).isSome
    | none => false

/-- How what is to be placed in a range stands: it can be placed, waits for a reserved word (R209), or for a walk (R375). -/
inductive RxDo
  | go
  | busy
  | walk (va : Word)
  deriving DecidableEq, Repr

/-- How what is to be placed in a range stands. -/
def State.rxDo (s : State) (die part : Nat) (va : Word) (n : Nat) : RxDo :=
  match s.rxMiss die part va n with
  | some x => .walk x
  | none => if s.rxBusy die part va n then .busy else .go

/-- Whether what is to be placed can go on: be placed, or ask for a walk. -/
def State.rxMoves (s : State) (die part : Nat) : RxDo → Bool
  | .go => true
  | .busy => false
  | .walk _ => !s.walking (.place die part)

/-- What is to be placed waits, for a walk that it asks for (R273, R375). -/
def State.rxWait (s : State) (die part : Nat) : RxDo → State
  | .walk va => s.unitWalk (.place die part) (dieCore die) part va .engWrite
  | _ => s

/-- Places bytes page by page: what falls on a page that is not present or not writable is dropped (R375) (log 41). -/
def State.place (s : State) (die part : Nat) : List (Word × Nat) → List Byte → State × Sig × Bool
  | [], _ => (s, 0, false)
  | (va, n) :: t, b =>
    match s.rxPiece die part va n with
    | some l =>
      let (s1, g, bad) := (s.store (cellsOfBytes l (b.take n))).place die part t (b.drop n)
      (s1, g ||| l.foldl (fun g x => sigAdd g (x / 64)) 0, bad)
    | none =>
      let (s1, g, _) := s.place die part t (b.drop n)
      (s1, g, true)

/-- RC rises (R375, R376); an endpoint with threads keeps what the next one is told (R377). -/
def State.rcRise (s : State) (e : Endpoint) (roff len : Nat) : State :=
  let rc := (e.rc + 1) % 2 ^ 32
  let e1 : Endpoint :=
    { e with rc := rc, spawns := if e.entry = 0 then e.spawns else e.spawns ++ [(rc, roff, len)] }
  (s.putEp e1).wakeNcw e.die e.part

/-- The number of a sender, in one of its registrations, in an endpoint's records (log 41). -/
def packetKey (p : Packet) : Nat :=
  (((p.inc * 256 + p.srcPkg % 256) * 8 + p.srcDie) * 1024 + p.srcPart) * 65536 + p.srcEp

/-- Sends an acknowledgement to the sender of a packet. -/
def State.sendAck (s : State) (p : Packet) (covers : List Nat) (codes : List (Nat × Nat)) : State :=
  { s with
    out := s.out ++
      [.ack p.srcPkg { die := p.srcDie, part := p.srcPart, ep := p.srcEp, inc := p.inc, covers := covers, codes := codes }] }

/-- An acknowledgement of everything received of a packet's sender (R387). -/
def State.ackAll (s : State) (e : Endpoint) (p : Packet) : State :=
  let of (l : List (Nat × Nat)) : List Nat := (l.filter (fun x => x.1 == packetKey p)).map Prod.snd
  s.sendAck p (of e.seen) ((of e.sixes).map (fun n => (n, 6)))

/-- A message's record with one more packet. -/
def RxMsg.add (m : RxMsg) (p : Packet) (bad : Bool) : RxMsg := { m with offs := p.off :: m.offs, bad := m.bad || bad }

/-- The record of a packet's message. -/
def Endpoint.rxOf (e : Endpoint) (p : Packet) : RxMsg :=
  match e.rx.find? (fun m => m.key == packetKey p && m.req == p.req) with
  | some m => m
  | none => { key := packetKey p, req := p.req, offs := [], bad := false }

/-- The address at which a packet's bytes are placed. -/
def Endpoint.placeVa (e : Endpoint) (p : Packet) : Word := e.buf + BitVec.ofNat 64 (p.roff + p.off)

/-- Places a packet (R375 steps 3, 4 and 6). -/
def State.placePacket (s : State) (e : Endpoint) (p : Packet) : State :=
  let va := e.placeVa p
  let (s0, g, bad) := s.place e.die e.part (piecesOf va p.bytes.length) p.bytes
  let s1 := s0.unwalk (.place e.die e.part)
  let s2 := if bad then s1.logErr e.die 10 e.part va.toNat 0 else s1
  let m := (e.rxOf p).add p bad
  let rest := e.rx.filter (fun x => !(x.key == packetKey p && x.req == p.req))
  let whole := decide (ceilDiv p.len 4096 ≤ m.offs.length)
  let e1 : Endpoint :=
    { e with
      seen := e.seen ++ [(packetKey p, p.num)], sixes := if bad then e.sixes ++ [(packetKey p, p.num)] else e.sixes
      rx := if whole then rest else rest ++ [m], rcErr := if bad then e.rcErr + 1 else e.rcErr, rcSig := e.rcSig ||| g }
  let s3 := if whole && !m.bad && p.cnt then s2.rcRise e1 p.roff p.len else s2.putEp e1
  s3.ackAll e1 p

/-- The die and partition that a packet is for (R372): those of this package whose IPv6 address its destination is, or on
the scale-up path the die that it names, in the sender's own partition. -/
def State.target (s : State) (p : Packet) : Option (Nat × Nat) :=
  match p.dst with
  | .ether a => (s.addrs.find? (fun e => e.2 == a)).map (fun e => (e.1 / 1024, e.1 % 1024))
  | .scale pkg die => if pkg = s.pkg then some (die, p.srcPart) else none

/-- The endpoint that a packet is for. -/
def State.targetEp (s : State) (p : Packet) : Option Endpoint := (s.target p).bind fun t => s.ep? t.1 t.2 p.dstEp

/-- Whether a packet's message lies in the receive buffer, and the packet in its message (R374) (log 41). -/
def Endpoint.bounds (e : Endpoint) (p : Packet) : Bool :=
  decide (p.roff + p.len ≤ e.blen) && decide (p.off + p.bytes.length ≤ p.len)

/-- How a packet that is to be placed stands. -/
def State.packetDo (s : State) (e : Endpoint) (p : Packet) : RxDo := s.rxDo e.die e.part (e.placeVa p) p.bytes.length

/-- A packet arrives (R375) (log 41): one for no endpoint, or beyond its bounds, is answered with CODE 4; a duplicate is
acknowledged; the others are placed, once their pages' walks have ended. -/
def execPacketReceive (p : Packet) (s : State) : Out :=
  match s.targetEp p with
  | none => .next (s.sendAck p [] [(p.num, 4)])
  | some e =>
    if !e.bounds p then .next ((s.putEp { e with rcErr := e.rcErr + 1 }).sendAck p [] [(p.num, 4)])
    else if e.seen.contains (packetKey p, p.num) then .next (s.ackAll e p)
    else
      match s.packetDo e p with
      | .go => .next (s.placePacket e p)
      | w => .next ((s.rxWait e.die e.part w).send (.rxPkt p))

/-- Whether two flits are of one packet, or of one result. -/
def flitOf (x f : Flit) : Bool :=
  packetKey f.pkt == packetKey x.pkt && f.pkt.num == x.pkt.num && f.pkt.req == x.pkt.req && decide (f.red = x.red)

/-- A flit of the scale-up link arrives (R370): it is performed at an endpoint of its partition, whose packet is received
once all of its flits are there; those of a reduction's result are held until it is whole (R378). Any other flit is
discarded and logged, and the sender of a packet learns CODE 4 (log 41). -/
def execFlitReceive (f : Flit) (s : State) : Out :=
  match (s.targetEp f.pkt).filter (fun e => e.part == f.part) with
  | none =>
    let s1 := s.logErr (match f.pkt.dst with | .scale _ die => die | .ether _ => 0) 6 f.part 0 0
    .next (if f.red.isNone then s1.sendAck f.pkt [] [(f.pkt.num, 4)] else s1)
  | some e =>
    let mine := f :: e.flits.filter (fun x => flitOf f x && x.at_ != f.at_)
    let rest := e.flits.filter (fun x => !flitOf f x)
    if f.red.isNone && decide (f.pkt.bytes.length ≤ (mine.map (·.len)).sum) then
      execPacketReceive f.pkt (s.putEp { e with flits := rest })
    else .next (s.putEp { e with flits := rest ++ mine })

-- Threads of an endpoint (R377)

/-- Whether an endpoint can send its next spawn. -/
def State.spawnMoves (s : State) (e : Endpoint) : Bool :=
  !e.spawns.isEmpty && !e.spawnOut && !s.partOut e.part

/-- A spawn of an endpoint that is not accepted is tried again after 4,096 die cycles, or with a notice (R377). -/
def State.netLater (s : State) (e : Endpoint) (core : Nat) : State :=
  s.send (.spawnRetry (.net e.die e.part e.ep) core (s.dieCyc + 4096))

/-- The spawn message of an endpoint; one to a core outside its partition is refused, and nothing is sent (R14, R64). -/
def State.netSpawn (s : State) (e : Endpoint) : State :=
  match e.spawns.head?, coreOfPlace s.pkg (zext e.tplace) with
  | some (rc, roff, len), some core =>
    let s1 := s.putEp { e with spawnOut := true }
    if s1.partOf core = some e.part then
      s1.send (.spawn
        { core := core, from_ := .net e.die e.part e.ep, entry := e.entry, a0 := BitVec.ofNat 64 e.ep, a1 := BitVec.ofNat 64 rc
          a2 := BitVec.ofNat 64 roff, a3 := BitVec.ofNat 64 len, fx := false, tag := false, part := e.part })
    else s1.netLater e core
  | _, _ => s

/-- An endpoint sends its next spawn (R377). -/
def execNeSpawnSend (die part ep : Nat) (s : State) : Out :=
  match s.ep? die part ep with
  | some e => if s.spawnMoves e then .next (s.netSpawn e) else .next s
  | none => .next s

/-- An endpoint's refused spawn is sent again (R377). -/
def execNeSpawnRetry (die part ep : Nat) (s : State) : Out :=
  let mine (m : Msg) : Bool :=
    match m with
    | .spawnRetry (.net d p e) _ _ => d == die && p == part && e == ep
    | _ => false
  match s.ep? die part ep with
  | some e => if s.msgs.any mine then .next (({ s with msgs := s.msgs.filter (fun m => !mine m) } : State).netSpawn e) else .next s
  | none => .next { s with msgs := s.msgs.filter (fun m => !mine m) }

/-- An answer to an endpoint's spawn (R377). -/
def State.answerNet (s : State) (die part ep core reason : Nat) : State :=
  match s.ep? die part ep with
  | some e =>
    if reason = 0 then s.putEp { e with spawns := e.spawns.drop 1, spawnOut := false }
    else s.netLater e core
  | none => s

/-- A context-free notice of a core reaches a die's network engine (R377). -/
def State.noticeNet (s : State) (die core : Nat) : State :=
  { s with
    msgs := s.msgs.map fun m =>
      match m with
      | .spawnRetry (.net d p e) k _ => if d = die ∧ k = core then .spawnRetry (.net d p e) k 0 else m
      | _ => m }

-- In-switch reductions (R378)

/-- The ranks that have contributed. -/
def Reduction.mask (r : Reduction) : Nat := r.got.foldl (fun m c => m ||| 2 ^ c.rank) 0

/-- The F32 element at a position of a contribution. -/
def contribElem (c : Contrib) (i : Nat) : IWord := BitVec.ofNat 32 (ofBytes ((c.bytes.drop (4 * i)).take 4))

/-- The sum of a complete reduction (R118, R378). -/
def Reduction.sum (r : Reduction) : List Byte :=
  ((List.range (r.len / 4)).map fun i =>
    leBytes 4 (treeReduce addF32 0x80000000 ((List.range r.nr).map fun k =>
      match r.got.find? (fun c => c.rank == k) with
      | some c => contribElem c i
      | none => 0x80000000)).toNat).flatten

/-- The results that go to the requests of this package. -/
def redMsgs (l : List Contrib) (code mask : Nat) (b : List Byte) : List Msg :=
  l.filterMap fun c => c.mine.map (fun dest => .redRes dest code mask b)

/-- Ticks within which every contribution of a reduction must come, after the first: 10 ms (R378). -/
def redTicks : Nat := 10000000

/-- A reduction fails with the mask of the ranks that did contribute (R378); it stays until every rank has been told. -/
def Reduction.fail (r : Reduction) : Reduction := { r with failed := some r.mask }

/-- Whether a reduction fails now for want of a contribution (R378). -/
def Reduction.late (now : Nat) (r : Reduction) : Bool := r.failed.isNone && decide (r.first + redTicks < now)

/-- The reductions that are late fail: every contributor learns CODE 5 and who has contributed (R378). -/
def State.endLate (s : State) : State :=
  ({ s with reds := s.reds.map (fun r => if r.late s.now then r.fail else r) } : State).sendAll
    ((s.reds.filter (fun r => r.late s.now)).map (fun r => redMsgs r.got 5 r.mask [])).flatten

/-- A reduction takes its place again, unless every rank has come: then it is over. -/
def State.putRed (s : State) (k : Nat) (r : Reduction) : State :=
  { s with reds := if r.nr ≤ r.got.length then dropAt k s.reds else s.reds.set k r }

/-- The reduction of a contribution: the oldest one of its identity that its rank has not come to, else a new one. -/
def State.redFor (s : State) (c : Contrib) : Nat × State :=
  match s.reds.findIdx? (fun r => r.part == c.part && r.rid == c.rid && !r.got.any (fun x => x.rank == c.rank)) with
  | some k => (k, s)
  | none =>
    (s.reds.length, { s with
      reds := s.reds ++
        [{ part := c.part, rid := c.rid, nr := c.nr, len := c.len, roff := c.roff, first := s.now, got := [], failed := none }] })

/-- A contribution reaches the switch (R378): one whose reduction has failed learns CODE 5 like those before it
(log 43). -/
def State.switchAdd (s0 : State) (c : Contrib) : State :=
  let (k, s) := s0.endLate.redFor c
  match s.reds[k]? with
  | none => s
  | some r =>
    let r1 : Reduction := { r with got := r.got ++ [c] }
    match r.failed with
    | some mask => (s.putRed k r1).sendAll (redMsgs [c] 5 mask [])
    | none =>
      if r.len ≠ c.len ∨ r.roff ≠ c.roff then
        (s.putRed k { r1 with failed := some r.mask }).sendAll (redMsgs r1.got 5 r.mask [])
      else if r.nr ≤ r1.got.length then (s.putRed k r1).sendAll (redMsgs r1.got 0 r1.mask r1.sum)
      else s.putRed k r1

/-- A contribution to a reduction arrives at the pod's switch (R378). -/
def execReduceContribution (c : Contrib) (s : State) : Out := .next (s.switchAdd c)

/-- Reduction `State.sel` of the switch fails: 10 ms have passed since its first contribution, or a contributing package
has failed (R378). -/
def execReduceTimeout (s : State) : Out :=
  match s.reds[s.sel]? with
  | some r =>
    if r.failed.isSome then .next s
    else .next (({ s with reds := s.reds.set s.sel r.fail } : State).sendAll (redMsgs r.got 5 r.mask []))
  | none => .next s

/-- How the result of a reduction that is to be placed stands. -/
def State.resultDo (s : State) (e : Endpoint) (r : NReq) (b : List Byte) : RxDo :=
  s.rxDo e.die e.part (e.buf + BitVec.ofNat 64 r.roff) b.length

/-- The result of a reduction as one packet, of which the flits that bring it are parts (R370) (log 41). -/
def Endpoint.resultPacket (e : Endpoint) (pkg : Nat) (r : NReq) (b : List Byte) : Packet :=
  { srcPkg := pkg, srcDie := e.die, srcPart := e.part, srcEp := e.ep, inc := e.inc, dst := .scale pkg e.die, dstEp := e.ep
    num := 0, req := r.idx, off := 0, roff := r.roff, len := r.len, cnt := r.cnt, bytes := b }

/-- The next flit of a result that has not come (R370): the engine holds the whole result before it writes (R378). -/
def State.resultFlit (s : State) (die part ep idx : Nat) (b : List Byte) : Option Flit :=
  match s.ep? die part ep with
  | some e =>
    match e.reqs.find? (fun r => decide (r.idx = idx) && r.code.isNone) with
    | some r =>
      (redFlits r (s.netPlace die) (e.resultPacket s.pkg r b)).find? fun f =>
        !e.flits.any (fun x => flitOf f x && x.at_ == f.at_)
    | none => none
  | none => none

/-- The flits of a request's result leave the engine. -/
def Endpoint.dropResult (e : Endpoint) (r : NReq) : Endpoint :=
  { e with flits := e.flits.filter (fun x => !(x.pkt.req == r.idx && decide (x.red = some r.redId))) }

/-- The result at `State.sel` reaches a contributor (R378): a whole one is written into its own receive buffer, as a packet
is placed. -/
def execReduceResult (s : State) : Out :=
  match s.msgs[s.sel]? with
  | some (.redRes (die, part, ep, idx) code mask b) =>
    let s0 := s.dropMsg s.sel
    match s0.ep? die part ep with
    | none => .next s0
    | some e =>
      match e.reqs.find? (fun r => decide (r.idx = idx) && r.code.isNone) with
      | none => .next s0
      | some r =>
        if code ≠ 0 then .next (s0.netComplete die part ep idx code mask)
        else if e.blen < r.roff + r.len then .next ((s0.putEp (e.dropResult r)).netComplete die part ep idx 4 mask)
        else
          match s0.resultDo e r b with
          | .go =>
            let va := e.buf + BitVec.ofNat 64 r.roff
            let (s1, g, bad) := (s0.place die part (piecesOf va b.length) b)
            let s2 := s1.unwalk (.place die part)
            let e1 : Endpoint := { e.dropResult r with rcSig := e.rcSig ||| g }
            if bad then .next (((s2.logErr die 10 part va.toNat 0).putEp e1).netCompleteWith die part ep idx 6 mask g)
            else
              let s3 := if r.cnt then s2.rcRise e1 r.roff r.len else s2.putEp e1
              .next (s3.netCompleteWith die part ep idx 0 mask g)
          | w => .next (s.rxWait die part w)
  | _ => .next s

-- The instructions (R382–R385)

/-- A request of the current context to the network engine of its die. -/
def State.netReq (s : State) (i : Instr) (va : Word) (locs vals : List Nat) : Req :=
  { s.dispReq i (dieOf s.myCore) va locs vals with home := .net (dieOf s.myCore) }

/-- The answer of a failed `nring` (R383). -/
def nringFail (reason : Nat) : Nat := 2 ^ 63 + reason

/-- `nring` at the engine (R373, R383) (log 44). -/
def homeNring (r : Req) (s : State) : HomeOut :=
  let die := r.home.die
  let (s1, bad) := s.readCheck r.locs r.tid r.part
  if bad then (s1, some (r.fail causeData))
  else
    match findIdxFrom (fun k => (s1.ep? die r.part k).isNone) 256 0 with
    | none => (s1, some (r.reply [nringFail 1]))
    | some k =>
      let b := s1.rdBytes r.locs
      if s1.descOk die r.part b then
        (({ s1 with nextEp := s1.nextEp + 1, eps := s1.eps ++ [endpointOf die r.part k s1.nextEp b] } : State).wakeNcw die r.part,
          some (r.reply [k]))
      else (s1, some (r.reply [nringFail 2]))

/-- `nring` (R382, R383). -/
def execNring (d a : GReg) (s : State) : Out :=
  let x := s.me.gr a
  let i : Instr := .nring d a
  if x.toNat % 64 ≠ 0 then trap causeMisaligned x s
  else if !inGlobal x then trap causeProtection x s
  else withLoc i x .load s fun l => .next (s.ask 1 (s.netReq i x (bytesOf l 64) []))

/-- `npost` at the engine (R384). -/
def homeNpost (r : Req) (s : State) : HomeOut :=
  match s.ep? r.home.die r.part (r.vals.headD 0) with
  | none => (s, some (r.reply [1]))
  | some e =>
    let v := r.vals.getD 1 0
    let k := (v + 2 ^ 32 - e.prod) % 2 ^ 32
    let held := (e.prod + 2 ^ 32 - e.sc) % 2 ^ 32
    if 2 ^ e.rlog < k + held then (s, some (r.reply [2]))
    else
      (s.putEp { e with prod := v, tags := e.tags ++ List.replicate k (r.tag, decide (r.vals.getD 2 0 = 1)) },
        some (r.reply [0]))

/-- `npost` (R382, R384): its release writes every dirty line back. Its requests carry the FX of the issuer (R370). -/
def execNpost (d a n : GReg) (s : State) : Out :=
  s.afterWriteBack 1 (.npost d a n) fun s1 =>
    .next (s1.ask 1 (s1.netReq (.npost d a n) 0 []
      [bits (s.me.gr a) 7 0, bits (s.me.gr n) 31 0, s.me.fx.toNat]))

/-- `ncnt` (R382, R385). -/
def execNcnt (d a : GReg) (s : State) : Out :=
  retire (fun c => c.setG d (BitVec.ofNat 64 (s.counterWord (dieOf s.myCore) s.myPart (bits (s.me.gr a) 8 0)))) s

/-- `ncw` (R376, R382, R385). -/
def execNcw (a n : GReg) (s : State) : Out :=
  let x := bits (s.me.gr a) 8 0
  let k := bits (s.me.gr n) 31 0
  let next := wrapPc (s.me.pc + 4)
  match s.counterSig (dieOf s.myCore) s.myPart x k with
  | some g => .next (s.startAcquireSig s.cur (.ncw a n) next g)
  | none => .next (s.block s.cur 16 { mkWait (.ncw a n) 1 0 next with val := BitVec.ofNat 64 (x * 2 ^ 32 + k) })

end Sys2Proof.Machine
end

