-- ==== Sys2Proof/Machine/Hostlink.lean ====
section
/-! DEFINITION. The host link (R379–R381): the three BARs of a partition's virtual function, the order of posted writes,
and attestation. Firmware chooses the bases of the two apertures (log 2). -/

namespace Sys2Proof.Machine

/-- What a read of the host returns. -/
def State.hostAnswer (s : State) (h : HostAcc) (v : Nat) : State :=
  if h.write then s else { s with out := s.out ++ [.hostRead h (BitVec.ofNat 64 v)] }

/-- The bases of a partition's apertures; before firmware has chosen them they lie in no window (log 2). -/
def State.bases (s : State) (part : Nat) : Word × Word := tget (0, 0) part s.bars

/-- The address behind an access: of BAR 2 in the aperture onto a global range (kind 0), of BAR 4 in that onto a Cupola range
(kind 2); none where the access lies beyond its aperture, or the aperture outside its window (R379). -/
def State.hostVa (s : State) (kind : Nat) (h : HostAcc) : Option Word :=
  if kind = 0 then
    let va := (s.bases h.part).1 + h.addr
    if h.addr.toNat < 2 ^ 28 ∧ inGlobal va then some va else none
  else
    let va := (s.bases h.part).2 + h.addr
    if h.addr.toNat < 2 ^ 20 ∧ inCupola va then some va else none

/-- The address that the error log gives of an access (R397): the one behind its aperture, or its offset (log 45). -/
def State.hostLogged (s : State) (kind : Nat) (h : HostAcc) : Nat := ((s.hostVa kind h).getD h.addr).toNat

/-- A discarded access (R379): a read returns all ones, and die 0 logs KIND 7. -/
def State.hostDiscard (s : State) (kind : Nat) (h : HostAcc) : State :=
  (s.logErr 0 7 h.part (s.hostLogged kind h) 0).hostAnswer h (2 ^ 64 - 1)

/-- Whether an access has an allowed size and alignment (R379). -/
def hostAligned (h : HostAcc) : Bool := (h.size == 4 || h.size == 8) && h.addr.toNat % h.size == 0

/-- Translates for an access of the host, through die 0's walkers (R379). -/
def State.hostFound (s : State) (h : HostAcc) (va : Word) : Found :=
  s.find (.host h.part) (dieCore 0) h.part va (if h.write then .engWrite else .engRead)

/-- The locations of an aperture access, if it can be performed (R379). -/
def State.hostLoc (s : State) (h : HostAcc) (va : Word) : Option (List Nat) :=
  match s.hostFound h va with
  | .ok l =>
    let locs := bytesOf l h.size
    if h.write ∧ s.onObject locs then none
    else if locs.any s.gone then none else some locs
  | _ => none

/-- Performs an access through an aperture at its home (R379). -/
def State.hostMem (s : State) (kind : Nat) (h : HostAcc) (va : Word) : State :=
  match s.hostLoc h va with
  | none => (s.unwalk (.host h.part)).hostDiscard kind h
  | some locs =>
    let s0 := s.unwalk (.host h.part)
    if h.write then s0.storeAt locs h.val.toNat
    else
      let (s1, bad) := s0.readCheck locs 0 h.part
      if bad then s1.hostDiscard kind h else s1.hostAnswer h (s1.rd locs)

/-- A register of the notify page (R336, R379); an offset beyond the sixteen reads 0 and ignores writes. -/
def State.notifyReg (s : State) (part n : Nat) : Nat :=
  match s.graph? part n with
  | some g => if n < 16 then g.notify else 0
  | none => 0

/-- An access to the notify page (R336, R379, R380) (log 45). -/
def State.hostNotify (s : State) (h : HostAcc) : State :=
  let n := h.addr.toNat % 4096 / 4
  if h.write then
    let s1 := s.notifyWrite h.part n (bits h.val 31 0)
    if h.size = 8 then s1.notifyWrite h.part (n + 1) (bits h.val 63 32) else s1
  else s.hostAnswer h (s.notifyReg h.part n + (if h.size = 8 then s.notifyReg h.part (n + 1) * 2 ^ 32 else 0))

/-- Performs an access of the host: 0 through BAR 2, 1 to the notify page, 2 to the wake page (R379, R380). -/
def State.hostDo (s : State) (kind : Nat) (h : HostAcc) : State :=
  if !hostAligned h then s.hostDiscard kind h
  else if kind = 1 then s.hostNotify h
  else
    match s.hostVa kind h with
    | some va => s.hostMem kind h va
    | none => s.hostDiscard kind h

/-- The address that an access has to translate, if it has one. -/
def State.hostNeeds (s : State) (kind : Nat) (h : HostAcc) : Option Word :=
  if kind ≠ 1 ∧ hostAligned h then s.hostVa kind h else none

/-- Whether an access waits at a reserved word (R209) (log 45), or for a walk (R273). -/
def State.hostHeld (s : State) (kind : Nat) (h : HostAcc) : Bool :=
  match s.hostNeeds kind h with
  | some va =>
    decide (s.hostFound h va = .miss) || (match s.hostLoc h va with | some l => (s.resvOn l).isSome | none => false)
  | none => false

/-- Whether an access that waits is still to ask for its walk. -/
def State.hostAsks (s : State) (kind : Nat) (h : HostAcc) : Bool :=
  match s.hostNeeds kind h with
  | some va => decide (s.hostFound h va = .miss) && !s.walking (.host h.part)
  | none => false

/-- An access that stands first of its function asks for the walk that it waits for. -/
def State.hostAsk (s : State) (kind : Nat) (h : HostAcc) : State :=
  match s.hostNeeds kind h with
  | some va =>
    if s.hostAsks kind h then
      s.unitWalk (.host h.part) (dieCore 0) h.part va (if h.write then .engWrite else .engRead)
    else s
  | none => s

/-- An access of the host enters the package: it waits behind earlier ones of its function (R380), at a reserved word or for
a walk (R209, R273, R379). -/
def State.hostEnter (s : State) (kind : Nat) (h : HostAcc) : State :=
  let earlier := s.msgs.any fun m => match m with | .host _ x => x.part == h.part | _ => false
  if earlier then s.send (.host kind h)
  else if s.hostHeld kind h then (s.hostAsk kind h).send (.host kind h)
  else s.hostDo kind h

/-- An access through BAR 2 (R379). -/
def execHostBarAccess (h : HostAcc) (s : State) : Out := .next (s.hostEnter 0 h)
/-- An access to the notify page (R336, R379). -/
def execNotifyPageWrite (h : HostAcc) (s : State) : Out := .next (s.hostEnter 1 h)
/-- An access to the wake page (R337, R379). -/
def execWakePageWrite (h : HostAcc) (s : State) : Out := .next (s.hostEnter 2 h)

/-- What a report says of a partition (R381): its cluster set, `TRES`, `SOPOL` and `GPOL`. -/
def State.vfReport (s : State) (p : Nat) : Nat × List Nat × Word × Word × Nat :=
  (p, (List.range 1600).filter (fun k => (s.cluster k).part == some p), BitVec.ofNat 64 (s.part p).tres.toNat,
    (s.part p).sopol, (s.part p).dq)

/-- An attestation report (R381): serial number, digests and signature are the part's own (log 15). -/
def execAttestationRequest (nonce : BitVec 256) (vf : Option Nat) (s : State) : Out :=
  let digests := [Config.digest 0 s.service.run, Config.digest 1 s.lantern.run]
  .next
    { s with
      fresh := s.fresh + 1
      out := s.out ++ [.report nonce Config.serial s.pkg digests (vf.map s.vfReport) (Config.signature s.fresh)] }

end Sys2Proof.Machine
end

