-- ==== Sys2Proof/Machine/System.lean ====
section
/-! DEFINITION. The system instructions (R282–R287), the system registers (R86, R87, R196, R269, R283, R346), the FIFOs
(R72, R73), and the events of translation, run-ahead fetch and reading (R273, R274, R276, R396). -/

namespace Sys2Proof.Machine

/-- `nop` (R287). -/
def execNop (s : State) : Out := retire id s

/-- `trap n` (R284): `TEPC` records the address plus 4. -/
def execTrap (n : BitVec 12) (s : State) : Out := .next (s.takeTrap s.cur causeTrap (zext n) (s.me.pc + 4))

/-- `brk n` (R284). -/
def execBrk (n : BitVec 12) (s : State) : Out := trap causeBreak (zext n) s

/-- `eret` (R285). -/
def execEret (s : State) : Out :=
  if statIH s.me.stat then .next (s.modMe fun c => c.returnFromTrap.ready) else trap causeProtection 0 s

/-- `halt` (R287): context 0 waits for RESUME0. -/
def execHalt (s : State) : Out :=
  privileged (ctxNo s.cur = 0) s fun s =>
    .next (s.modMe fun c => { c with state := .waiting, why := 14, wait := none, reissue := false })

-- System registers

/-- `DISPQ` (R346). -/
def State.dispq (s : State) (die part : Nat) : Word :=
  let n (q : Nat) : Nat :=
    min 255 (s.launches.filter (fun l => l.die == die && l.part == part && decide (l.st = .queued) && l.prio == q)).length
  BitVec.ofNat 64 (((List.range 8).map (fun q => n q * 2 ^ (8 * q))).sum)

/-- `NPORT` (R369). -/
def Die.nport (d : Die) : Word :=
  BitVec.ofNat 64 (((List.range 3).map fun k =>
    ((d.mode.getLsbD k).toNat + 2 * (d.up.getLsbD k).toNat) * 2 ^ (8 * k)).sum)

/-- Timers of a die that are set (R338). -/
def State.timersSet (s : State) (die : Nat) : Nat := (s.timers.filter (fun t => t.die == die)).length

/-- The value of a system register as a context reads it (R13, R63, R86, R87, R166, R196, R227, R248, R269, R346, R350,
R354, R369). -/
def State.sysRead (s : State) (cx : Nat) (r : SysReg) : Word :=
  let c := s.ctx cx
  let core := coreOf cx
  let die := dieOf core
  let part := (s.partOf core).getD 0
  match r with
  | .stat => c.stat
  | .rcnt => zext c.rcnt
  | .tvec => c.tvec
  | .tepc => c.tepc
  | .tcause => c.tcause
  | .tval => c.tval
  | .phase => BitVec.ofNat 64 c.tag.toNat
  | .place => BitVec.ofNat 64 (placeOf s.pkg cx)
  | .spen => (s.core core).spen
  | .mring => BitVec.ofNat 64 (s.cluster (clusterOf core)).mring
  | .sopol => (s.part part).sopol
  | .gpol => BitVec.ofNat 64 (s.part part).dq
  | .drth => (s.quad (quadOf core)).drth
  | .tres => BitVec.ofNat 64 (s.part part).tres.toNat
  | .dispq => s.dispq die part
  | .tmrfree => BitVec.ofNat 64 (1024 - s.timersSet die)
  | .nport => (s.die die).nport

/-- `mfs gD, reg` (R283). -/
def execMfs (d : GReg) (r : SysReg) (s : State) : Out := retire (fun c => c.setG d (s.sysRead s.cur r)) s

/-- A write of a register whose reserved fields are `rsv` (R86, R283). -/
def mtsField (r : SysReg) (a : GReg) (rsv v : Word) (f : Ctx → Ctx) (s : State) : Out :=
  if v &&& rsv ≠ 0 then illegal (.mts r a) s else retire f s

/-- `mts reg, gA` (R283). DESIGN CHOICE: TVAL of the protection trap of a register without a writable field is 0 (log 59). -/
def execMts (r : SysReg) (a : GReg) (s : State) : Out :=
  let v := s.me.gr a
  match r with
  | .stat => mtsField r a statRsv v (fun c => { c with stat := (c.stat &&& ~~~statRW) ||| (v &&& statRW) }) s
  | .rcnt => mtsField r a rcntRsv v (fun c => { c with rcnt := v.setWidth 32 }) s
  | .tvec => mtsField r a tvecRsv v (fun c => { c with tvec := v }) s
  | .tepc => mtsField r a tvecRsv v (fun c => { c with tepc := v }) s
  | .tcause => mtsField r a tcauseRsv v (fun c => { c with tcause := v }) s
  | .tval => mtsField r a 0 v (fun c => { c with tval := v }) s
  | .phase => mtsField r a 0xFFFFFFFFFFFFFFFE v (fun c => { c with tag := bit v 0 }) s
  | .spen =>
    privileged (ctxNo s.cur = 0) s fun s =>
      if v &&& 0xFFFFFFFFFFFF0001 ≠ 0 then illegal (.mts r a) s
      else
        retire id (({ s with used := .mask s.myCore (s.core s.myCore).spen :: s.used } : State).modCore s.myCore
          (fun k => { k with spen := v }))
  | .place | .mring | .sopol | .gpol | .drth | .tres | .dispq | .tmrfree | .nport => trap causeProtection 0 s

-- The FIFOs (R72)

/-- Changes a FIFO of a core. -/
def Core.setFifo (k : Core) (c : Reg4) (l : List Word) : Core := { k with fifo := k.fifo.set c.toNat l }

/-- A pop or push that waited completes: its context goes on, unless it has been killed (R69). -/
def State.fifoDone (s : State) (x : FifoWait) (v : Word) : State :=
  if (s.ctx x.cx).waits x.tid 1 then
    match (s.ctx x.cx).wait with
    | some w =>
      match w.i with
      | .fifoPop d _ => s.finish x.cx 4 (fun c => c.setG d v)
      | .fifoPush _ _ => s.finish x.cx 4 id
      | _ => s
    | none => s
  else s

/-- The push that has waited longest is done, if the FIFO has room. -/
def State.servePush (s : State) (core : Nat) (c : Reg4) : State :=
  let k := s.core core
  match k.pushW[c.toNat] with
  | x :: t =>
    if k.fifo[c.toNat].length < 8 then
      (s.setCore core { (k.setFifo c (k.fifo[c.toNat] ++ [x.val])) with pushW := k.pushW.set c.toNat t }).fifoDone x 0
    else s
  | [] => s

/-- The pop that has waited longest is done, if the FIFO has an entry. -/
def State.servePop (s : State) (core : Nat) (c : Reg4) : State :=
  let k := s.core core
  match k.popW[c.toNat], k.fifo[c.toNat] with
  | x :: t, v :: l => (s.setCore core { (k.setFifo c l) with popW := k.popW.set c.toNat t }).fifoDone x v
  | _, _ => s

/-- The current context waits at a FIFO (R72). -/
def State.fifoWait (s : State) (v : Word) : FifoWait where
  cx := s.cur
  tid := s.me.tid
  val := v

/-- `mfs gD, c0`–`c3` (R72, R283). -/
def execFifoPop (d : GReg) (c : Reg4) (s : State) : Out :=
  let k := s.core s.myCore
  match k.fifo[c.toNat], k.popW[c.toNat] with
  | v :: l, [] =>
    match retire (fun x => x.setG d v) (s.setCore s.myCore (k.setFifo c l)) with
    | .next t => .next (t.servePush s.myCore c)
    | o => o
  | _, _ =>
    .next ((s.setCore s.myCore { k with popW := k.popW.set c.toNat (k.popW[c.toNat] ++ [s.fifoWait 0]) }).block s.cur 4
      (mkWait (.fifoPop d c) 1 0 (wrapPc (s.me.pc + 4))))

/-- `mts c0`–`c3, gA` (R72, R283). A push orders nothing; a store that an earlier `st` made stands in the L1 that both
contexts of the core read, so the reordering of R73 that the manual calls observable does not occur here (log 65). -/
def execFifoPush (c : Reg4) (a : GReg) (s : State) : Out :=
  let k := s.core s.myCore
  let v := s.me.gr a
  if k.fifo[c.toNat].length < 8 ∧ k.pushW[c.toNat] = [] then
    match retire id (s.setCore s.myCore (k.setFifo c (k.fifo[c.toNat] ++ [v]))) with
    | .next t => .next (t.servePop s.myCore c)
    | o => o
  else
    .next ((s.setCore s.myCore { k with pushW := k.pushW.set c.toNat (k.pushW[c.toNat] ++ [s.fifoWait v]) }).block s.cur 4
      (mkWait (.fifoPush c a) 1 0 (wrapPc (s.me.pc + 4))))

-- Translations

/-- A TLB without a partition's translations, or without those that cover an address's 64 KiB granule (R286). -/
def tlbDrop (part : Nat) (va : Option Word) (l : List TlbEnt) : List TlbEnt :=
  l.filter fun e =>
    !(e.part == part && (match va with | some a => e.vpn == a.toNat / 2 ^ e.lg | none => true))

/-- Drops translations of a partition from the first-level TLBs of cores, and the TLBs of clusters, that lie in a unit. -/
def State.tlbShoot (s : State) (part : Nat) (va : Option Word) (core cluster : Nat → Bool) : State :=
  { s with
    cores := s.cores.map (fun e => if core e.1 then (e.1, { e.2 with tlb := tlbDrop part va e.2.tlb }) else e)
    clusters := s.clusters.map (fun e => if cluster e.1 then (e.1, { e.2 with tlb := tlbDrop part va e.2.tlb }) else e)
    walked := s.walked.filter fun x =>
      x.2.1 != part || (match va with | some a => x.2.2.1 / 65536 != a.toNat / 65536 | none => false) }

/-- The acknowledgement that the current context waits for, as a reply (R59). -/
def State.ackMe (s : State) : Reply where
  cx := s.cur
  tid := s.me.tid
  tag := s.me.tag
  part := s.myPart
  vals := []
  lanes := []
  recs := []
  trap := none
  made := false

/-- `tlbi` of an address or of all (R286): the translations go at once (log 13), and the context waits for the
acknowledgement. -/
def tlbInval (i : Instr) (sc : Scope) (va : Option Word) (s : State) : Out :=
  privileged (ctxNo s.cur = 0) s fun s =>
    let s1 := s.tlbShoot s.myPart va (fun k => sameUnit sc k s.myCore)
      (fun k => scopeGe sc .clus && sameUnit sc (k * 64) s.myCore)
    .next ((s1.block s.cur 1 (mkWait i 1 0 (wrapPc (s.me.pc + 4)))).send (.reply s.ackMe))

/-- `tlbi.S [gA]` (R286). -/
def execTlbi (sc : Scope) (a : GReg) (s : State) : Out := tlbInval (.tlbi sc a) sc (some (s.me.gr a)) s
/-- `tlbi.all.S` (R286). -/
def execTlbiAll (sc : Scope) (s : State) : Out := tlbInval (.tlbiAll sc) sc none s

-- Run-ahead fetch (R276)

/-- A word that run-ahead may fetch: its translation stands in the first-level or the cluster TLB with X = 1, and its data
is cached or good at its home. -/
def State.aheadWord (s : State) (cx : Nat) (a : Word) : Option (IWord × State) :=
  let core := coreOf cx
  let part := (s.partOf core).getD 0
  let e := match tlbFind part a (s.core core).tlb with
    | some e => some e
    | none => tlbFind part a (s.cluster (clusterOf core)).tlb
  match window core a, e with
  | .global, some e =>
    if e.x then
      let pa := locKey (tlbLoc a e)
      if !s.icacheHit (quadOf core) (pa / 64) && (s.gone pa || s.flaws.any (fun f => f.1 == pa / 64)) then
        none
      else
        let (s1, v) := s.icacheRead (quadOf core) (pa / 64)
        some (elem 32 v (pa % 64 / 4), s1)
    else none
  | _, _ => none

/-- Words fetched ahead at sequential addresses, those that are there already kept. -/
def State.fetchAhead (s : State) (cx : Nat) (a : Word) : (n : Nat) → State × List (Word × IWord)
  | 0 => (s, [])
  | n + 1 =>
    match (s.ctx cx).run.find? (fun e => e.1 == a) with
    | some e => let (s1, l) := s.fetchAhead cx (a + 4) n; (s1, e :: l)
    | none =>
      match s.aheadWord cx a with
      | some (w, s1) => let (s2, l) := s1.fetchAhead cx (a + 4) n; (s2, (a, w) :: l)
      | none => (s, [])

/-- A context fetches up to `n` words ahead, at most 8 (R276). -/
def execRunAheadFetch (cx n : Nat) (s : State) : Out :=
  let c := s.ctx cx
  if c.state = .free ∨ c.state = .exit ∨ c.state = .arriving then .next s
  else
    let (s1, l) := s.fetchAhead cx c.pc (min n 8)
    .next (s1.modCtx cx (fun c => { c with run := l }))

/-- An uncorrectable error lies at a line, found by the next read there; `f` says how the second read finds it (R396). Only
a line of global memory can stand in the LLC. -/
def execReadRetry (line : Nat) (f : ReadFault) (s : State) : Out :=
  let f := match f with
    | .llcClean | .llcDirty => if isGlobalLoc (line * 64) then f else .lasting
    | _ => f
  .next { s with flaws := s.flaws ++ [(line, f)] }

end Sys2Proof.Machine
end

