-- ==== Sys2Proof/Machine/Tensor.lean ====
section
/-! DEFINITION. The tensor unit and the operand ring (R160–R178). An operation is performed whole when it starts
(log 13); `tensorOpComplete` then releases its context, and for an `mmr` that forwards its tile the hand-off does. -/

namespace Sys2Proof.Machine

/-- An accumulator image element (R160). -/
def accElem (a : BitVec 8192) (i j : Nat) : IWord := elem 32 a (16 * i + j)

/-- An accumulator from its elements. -/
def accOf (f : Nat → Nat → IWord) : BitVec 8192 := (pack 32 (fun e => f (e / 16) (e % 16)) 256).cast (by decide)

/-- The ring length of a LEN code (R166). -/
def ringLen (code : Nat) : Nat := 2 ^ (code % 4 + 1)

/-- The next quad on the ring of a quad (R166). -/
def State.nextQuad (s : State) (q : Nat) : Nat :=
  let l := ringLen (s.cluster (q / 16)).mring
  let k := q % 16
  q / 16 * 16 + (l * (k / l) + (k + 1) % l)

/-- The quad before a quad on its ring. -/
def State.prevQuad (s : State) (q : Nat) : Nat :=
  let l := ringLen (s.cluster (q / 16)).mring
  let k := q % 16
  q / 16 * 16 + (l * (k / l) + (k + l - 1) % l)

/-- Images that the issue-time checks know: tiles and scale records, and accumulator images (R161). -/
inductive ImgKind | tile | acc
  deriving DecidableEq, Repr

/-- `CheckImg` of R170. -/
def checkImg (x : Word) (al : Nat) (kind : ImgKind) (s : State) (go : State → Out) : Out :=
  if x.toNat % al ≠ 0 then trap causeMisaligned x s
  else
    match window s.myCore x with
    | .scratch c _ => if s.partOf c = s.partOf s.myCore then go s else trap causeProtection x s
    | .cupola _ => if kind = .acc then go s else trap causeProtection x s
    | _ => trap causeProtection x s

/-- Enters the quad's queue (R163); the context waits with WHY = 3. Entries beyond sixteen stand in the order in which
they began to wait. -/
def enqueueTensor (i : Instr) (vals : List Nat) (s : State) : Out :=
  let op : TOp :=
    { cx := s.cur, tid := s.me.tid, i := i, vals := vals, fx := s.me.fx, tbl := (s.core s.myCore).q8, begun := false }
  .next ((s.block s.cur 3 (mkWait i 1 0 0)).modQuad (quadOf s.myCore) (fun q => { q with tq := q.tq ++ [op] }))

/-- `mclr` (R171). -/
def execMclr (n : Reg4) (s : State) : Out := enqueueTensor (.mclr n) [] s

/-- `mma.q8` (R172). -/
def execMmaQ8 (n : Reg4) (a b z : GReg) (s : State) : Out :=
  checkImg (s.me.gr a) 512 .tile s fun s => checkImg (s.me.gr b) 512 .tile s fun s =>
    checkImg (s.me.gr z) 32 .tile s fun s =>
      enqueueTensor (.mmaQ8 n a b z) [(s.me.gr a).toNat, (s.me.gr b).toNat, (s.me.gr z).toNat] s

/-- `mma.h16` (R172). -/
def execMmaH16 (n : Reg4) (a b : GReg) (s : State) : Out :=
  checkImg (s.me.gr a) 512 .tile s fun s => checkImg (s.me.gr b) 512 .tile s fun s =>
    enqueueTensor (.mmaH16 n a b) [(s.me.gr a).toNat, (s.me.gr b).toNat] s

/-- `mmr.q8` (R174). -/
def execMmrQ8 (n : Reg4) (a z : GReg) (s : State) : Out :=
  checkImg (s.me.gr a) 512 .tile s fun s => checkImg (s.me.gr z) 32 .tile s fun s =>
    enqueueTensor (.mmrQ8 n a z) [(s.me.gr a).toNat, (s.me.gr z).toNat] s

/-- `mmr.h16` (R174). -/
def execMmrH16 (n : Reg4) (a : GReg) (s : State) : Out :=
  checkImg (s.me.gr a) 512 .tile s fun s => enqueueTensor (.mmrH16 n a) [(s.me.gr a).toNat] s

/-- `mlatch` (R173). -/
def execMlatch (f : TFmt) (b : GReg) (s : State) : Out :=
  checkImg (s.me.gr b) 512 .tile s fun s => enqueueTensor (.mlatch f b) [(s.me.gr b).toNat] s

/-- `mld` (R177). -/
def execMld (n : Reg4) (a : GReg) (s : State) : Out :=
  checkImg (s.me.gr a) 1024 .acc s fun s => enqueueTensor (.mld n a) [(s.me.gr a).toNat] s

/-- `mst` (R177). -/
def execMst (n : Reg4) (a : GReg) (s : State) : Out :=
  checkImg (s.me.gr a) 1024 .acc s fun s => enqueueTensor (.mst n a) [(s.me.gr a).toNat] s

-- Shapes (R33, R168).

/-- The fields of a shape record after substitution (R33, R168). -/
structure Geo where
  h : Nat
  w : Nat
  c : Nat
  k : Nat
  fh : Nat
  fw : Nat
  sh : Nat
  sw : Nat
  dh : Nat
  dw : Nat
  pt : Nat
  pl : Nat
  pb : Nat
  pr : Nat
  pad : Nat
  deriving DecidableEq, Repr

/-- Field `i` of the order H, W, C, K, substituted from g[base + i] when the mask says so (R33). -/
def geoField (x : Shape) (c : Ctx) (i v : Nat) : Nat :=
  if bit x.w3 (8 + i) then bits (c.g[(bits x.w3 15 12 + i) % 16]!) 15 0 else v

/-- The geometry that an instruction reads at issue (R33, R168). -/
def geoOf (x : Shape) (c : Ctx) : Geo where
  h := geoField x c 0 (bits x.w0 15 0)
  w := geoField x c 1 (bits x.w0 31 16)
  c := geoField x c 2 (bits x.w1 15 0)
  k := geoField x c 3 (bits x.w1 31 16)
  fh := bits x.w2 3 0
  fw := bits x.w2 7 4
  sh := bits x.w2 10 8
  sw := bits x.w2 13 11
  dh := bits x.w2 16 14
  dw := bits x.w2 19 17
  pt := bits x.w2 22 20
  pl := bits x.w2 25 23
  pb := bits x.w2 28 26
  pr := bits x.w2 31 29
  pad := bits x.w3 7 0

/-- Zero extents that trap (R168). -/
def Geo.bad (x : Geo) : Bool := decide (x.fh = 0 ∨ x.fw = 0 ∨ x.sh = 0 ∨ x.sw = 0 ∨ x.dh = 0 ∨ x.dw = 0)

/-- One output extent (R168). -/
def outExtent (n p q d f st : Nat) : Nat :=
  let x : Int := (n : Int) + p + q - d * ((f : Int) - 1) - 1
  if x < 0 then 0 else x.toNat / st + 1

/-- OH (R168). -/
def Geo.oh (x : Geo) : Nat := if x.h = 0 ∨ x.w = 0 then 0 else outExtent x.h x.pt x.pb x.dh x.fh x.sh
/-- OW (R168). -/
def Geo.ow (x : Geo) : Nat := if x.h = 0 ∨ x.w = 0 then 0 else outExtent x.w x.pl x.pr x.dw x.fw x.sw
/-- KC (R168). -/
def Geo.kc (x : Geo) : Nat := (x.c + 31) / 32
/-- NSTEP (R168). -/
def Geo.nstep (x : Geo) : Nat := x.fh * x.fw * x.kc

/-- The word of `mshp` (R176). -/
def Geo.word (x : Geo) : Word :=
  BitVec.ofNat 64 (min x.oh 65535 + min x.ow 65535 * 2 ^ 16 + min x.nstep 65535 * 2 ^ 32
    + min ((x.k + 15) / 16) 65535 * 2 ^ 48)

/-- `mshp` (R168, R176). -/
def execMshp (a : GReg) (sh : Shape) (s : State) : Out :=
  let x := geoOf sh s.me
  if x.bad then illegal (.mshp a sh) s else .next (s.finish s.cur 20 (fun c => c.setG a x.word))

/-- `mcv` (R175): the operands, geometry and control word are read at issue. -/
def execMcv (n : Reg4) (a b z : GReg) (sh : Shape) (s : State) : Out :=
  let i : Instr := .mcv n a b z sh
  let x := geoOf sh s.me
  if 14 < z.toNat then illegal i s
  else if x.bad then illegal i s
  else
    checkImg (s.me.gr b) 512 .tile s fun s => checkImg (s.me.gr z) 32 .tile s fun s =>
      enqueueTensor i [(s.me.gr a).toNat, (s.me.gr b).toNat, (s.me.gr z).toNat, (s.me.gr (z + 1)).toNat,
        x.h, x.w, x.c, x.k] s

-- What an operation reads and writes.

/-- The geometry of a queued `mcv`. -/
def TOp.geo (o : TOp) : Geo :=
  match o.i with
  | .mcv _ _ _ _ sh =>
    { geoOf sh Ctx.reset with
      h := o.vals.getD 4 0, w := o.vals.getD 5 0, c := o.vals.getD 6 0, k := o.vals.getD 7 0 }
  | _ => geoOf ⟨0, 0, 0, 0⟩ Ctx.reset

/-- An operand address of an operation. -/
def TOp.addr (o : TOp) (i : Nat) : Word := BitVec.ofNat 64 (o.vals.getD i 0)

/-- p₀ and k of an `mcv` (R175). -/
def TOp.p0 (o : TOp) : Nat := nbits (o.vals.getD 3 0) 31 0
/-- The step of an `mcv`. -/
def TOp.step (o : TOp) : Nat := nbits (o.vals.getD 3 0) 47 32

/-- Whether an `mcv` has no effect at all (R169). -/
def TOp.idle (o : TOp) : Bool :=
  let x := o.geo
  decide (x.h = 0 ∨ x.w = 0 ∨ x.c = 0 ∨ x.k = 0 ∨ x.nstep ≤ o.step)

/-- Element A[i][t] of an `mcv` (R169): nothing when the row is beyond the output or the term is left out, the pad
code, or the input byte at an address. -/
inductive ConvElem
  | noRow
  | noTerm
  | pad
  | at_ (z : Int)

/-- The gather of R169: the address is an exact sum (R7). -/
def TOp.conv (o : TOp) (i t : Nat) : ConvElem :=
  let x := o.geo
  let p := o.p0 + i
  if x.oh * x.ow ≤ p then .noRow
  else
    let tap := o.step / x.kc
    let cb := o.step % x.kc
    let ch := 32 * cb + t
    if x.c ≤ ch then .noTerm
    else
      let iy : Int := (p / x.ow * x.sh : Nat) - (x.pt : Int) + (tap / x.fw * x.dh : Nat)
      let ix : Int := (p % x.ow * x.sw : Nat) - (x.pl : Int) + (tap % x.fw * x.dw : Nat)
      if iy < 0 ∨ (x.h : Int) ≤ iy ∨ ix < 0 ∨ (x.w : Int) ≤ ix then .pad
      else .at_ ((o.addr 0).toNat + (iy * x.w + ix) * x.c + ch)

/-- The input bytes of an `mcv`, in row and term order. -/
def TOp.inputs (o : TOp) : List Int :=
  ((List.range 16).map (fun i =>
    (List.range 32).filterMap (fun t => match o.conv i t with | .at_ z => some z | _ => none))).flatten

/-- The images an operation reads. -/
def TOp.reads (o : TOp) : List (Word × Nat) :=
  match o.i with
  | .mmaQ8 _ _ _ _ => [(o.addr 0, 512), (o.addr 1, 512), (o.addr 2, 32)]
  | .mmaH16 _ _ _ => [(o.addr 0, 512), (o.addr 1, 512)]
  | .mmrQ8 _ _ _ => [(o.addr 0, 512), (o.addr 1, 32)]
  | .mmrH16 _ _ => [(o.addr 0, 512)]
  | .mlatch _ _ => [(o.addr 0, 512)]
  | .mld _ _ => [(o.addr 0, 1024)]
  | .mcv _ _ _ _ _ => if o.idle then [] else [(o.addr 1, 512), (o.addr 2, 32)] ++ o.inputs.map (fun z => (BitVec.ofInt 64 z, 1))
  | _ => []

/-- The images an operation writes. -/
def TOp.writes (o : TOp) : List (Word × Nat) :=
  match o.i with
  | .mst _ _ => [(o.addr 0, 1024)]
  | _ => []

/-- The first `mcv` input byte outside the scratchpad windows (R175); a sum beyond the addresses of 64 bits lies in none
(R7, R142), and TVAL holds its low 64 bits (log 64). -/
def TOp.badInput (o : TOp) : Option Word :=
  match o.i with
  | .mcv _ _ _ _ _ =>
    if o.idle then none
    else
      (o.inputs.find? (fun z => decide (z < 0 ∨ 2 ^ 64 ≤ z) || !inScratch (coreOf o.cx) (BitVec.ofInt 64 z))).map
        (BitVec.ofInt 64)
  | _ => none

/-- The requester of an operation's accesses. -/
def TOp.who (o : TOp) : Requester := .tensor o.cx o.tid

/-- How an operation's accesses stand (R164: every fault is found before any result). -/
def State.tensorPlan (s : State) (o : TOp) : Plan :=
  let core := coreOf o.cx
  let part := (s.partOf core).getD 0
  match o.badInput with
  | some a => .trap causeProtection a
  | none => (s.plan o.who core part .load o.reads).andThen (s.plan o.who core part .store o.writes)

/-- The start condition of an operation on its quad (R163, R167). -/
def State.tensorStarts (s : State) (q : Nat) (o : TOp) : Bool :=
  let d := s.quad q
  match o.i with
  | .mlatch _ _ => d.latch.isNone && ((s.quad (s.prevQuad q)).out.isNone || s.prevQuad q == q)
  | .mmrQ8 _ _ _ | .mmrH16 _ _ => d.latch.isSome && d.out.isNone && d.hand.isNone
  | _ => true

/-- Whether the operation at the head of a quad's queue starts, which none does while its partition stops (R278), or one that
has started and waits goes on (R165). -/
def State.tensorReady (s : State) (q : Nat) : Bool :=
  match (s.quad q).trun, (s.quad q).tq with
  | none, o :: _ =>
    let part := (s.partOf (coreOf o.cx)).getD 0
    !s.faulted o.who
      && (if o.begun then s.planMoves o.who part (s.tensorPlan o) else s.tensorStarts q o && !s.partOut part)
  | _, _ => false

/-- Whether a tile can arrive at a quad: its latch is EMPTY (R167), and no `mlatch` that has started and waits for its page
is to fill it. DESIGN CHOICE: R163 and R167 do not say which of the two takes the latch; the `mlatch` does, and the tile waits
(log 70). -/
def State.latchFree (s : State) (q : Nat) : Bool :=
  let d := s.quad q
  d.latch.isNone && (match d.tq with
    | o :: _ => !(o.begun && (match o.i with | .mlatch _ _ => true | _ => false))
    | [] => true)

/-- A tile's element as a value: Q8 through the issuer's table, H16 under its FX (R170). -/
def tileVal (h16 : Bool) (fx : Bool) (t : Q8Tab) (x : BitVec 4096) (e : Nat) : Val :=
  if h16 then unpack (fmtH16 fx) (elem 16 x e).toNat else q8Dec t (elem 8 x e).toNat

/-- The product of R120 added into an accumulator; a row or column that `keep` names stays, and a term that `use` leaves
out is not summed. `a` and `b` give the elements, `sa` and `sb` the scale bytes. -/
def mmaAcc (acc : BitVec 8192) (n : Nat) (a b : Nat → Nat → Val) (use : Nat → Nat → Bool) (keep : Nat → Nat → Bool)
    (sa sb : Nat → Nat) : BitVec 8192 :=
  accOf fun i j =>
    if keep i j then accElem acc i j
    else
      let ts := ((List.range n).filter (use i)).map (fun t => prod (a i t) (b t j))
      accumulate (accElem acc i j) (scaleVal (exactSum ts) (sa i) (sb j))

/-- The plain product of two tiles (R172, R174). -/
def tileProduct (h16 fx : Bool) (t : Q8Tab) (acc : BitVec 8192) (x y : BitVec 4096) (sc : Nat) : BitVec 8192 :=
  let n := if h16 then 16 else 32
  let a (i u : Nat) : Val := tileVal h16 fx t x (n * i + u)
  let b (u j : Nat) : Val := tileVal h16 fx t y (n * j + u)
  let s (k : Nat) : Nat := if h16 then 127 else nbits sc (8 * k + 7) (8 * k)
  mmaAcc acc n a b (fun _ _ => true) (fun _ _ => false) s (fun j => s (16 + j))

/-- One convolution step (R169, R175): `inp` gives the input bytes in the order of `TOp.inputs`. -/
def TOp.convAcc (o : TOp) (acc : BitVec 8192) (inp : List Byte) (y : BitVec 4096) (sc : Nat) : BitVec 8192 :=
  if o.idle then acc
  else
    let x := o.geo
    let rows := (List.range 16).map (fun i => (List.range 32).map (fun t => o.conv i t))
    -- the input bytes placed row by row
    let place := (rows.flatten).foldl (fun (z : List (Option Nat) × List Byte) e =>
      match e, z.2 with
      | .at_ _, b :: r => (some b.toNat :: z.1, r)
      | .pad, r => (some x.pad :: z.1, r)
      | _, r => (none :: z.1, r)) ([], inp)
    let codes := place.1.reverse
    let code (i t : Nat) : Option Nat := (codes.getD (32 * i + t) none)
    let a (i t : Nat) : Val := q8Dec o.tbl ((code i t).getD 0)
    let b (t j : Nat) : Val := q8Dec o.tbl (elem 8 y (32 * j + t)).toNat
    let noRow (i : Nat) : Bool := decide (x.oh * x.ow ≤ o.p0 + i)
    mmaAcc acc 32 a b (fun i t => (code i t).isSome) (fun i j => noRow i || decide (x.k ≤ j))
      (fun i => nbits sc (8 * i + 7) (8 * i)) (fun j => nbits sc (8 * (16 + j) + 7) (8 * (16 + j)))

/-- The accumulator that an operation names. -/
def TOp.acc (o : TOp) : Nat :=
  match o.i with
  | .mclr n | .mmaQ8 n _ _ _ | .mmaH16 n _ _ | .mmrQ8 n _ _ | .mmrH16 n _ | .mld n _ | .mst n _ => n.toNat
  | .mcv n _ _ _ _ => n.toNat
  | _ => 0

/-- A number read at the `i`-th of consecutive ranges of a list of locations. -/
def State.rdImg (s : State) (locs : List Nat) (off n : Nat) : Nat := s.rd ((locs.drop off).take n)

/-- Writes an accumulator of a core. -/
def State.setAcc (s : State) (core n : Nat) (v : BitVec 8192) : State :=
  s.modCore core (fun c => { c with acc := c.acc.set! n v })

/-- An operation ends in a trap of its context and leaves the queue (R164). -/
def State.tensorTrap (s : State) (q : Nat) (o : TOp) (cause : Nat) (va : Word) (ptyp pfx : Bool) : State :=
  let s1 := (s.unitDone o.who).modQuad q (fun d => { d with tq := d.tq.drop 1 })
  if (s1.ctx o.cx).waits o.tid 1 then s1.takeTrapAs o.cx cause va (s1.ctx o.cx).pc ptyp pfx else s1

/-- The operation takes the unit. -/
def State.tensorRun (s : State) (q : Nat) (o : TOp) : State :=
  (s.unitDone o.who).modQuad q (fun d => { d with tq := d.tq.drop 1, trun := some o })

/-- `mmr` at its start: the latch's checks, the product, and the tile's way on (R167, R174). -/
def State.runMmr (s : State) (q : Nat) (o : TOp) (h16 : Bool) (x : BitVec 4096) (sc : Nat) : State :=
  match (s.quad q).latch with
  | none => s
  | some t =>
    if t.h16 ≠ h16 ∨ (h16 ∧ t.fx ≠ o.fx) then s.tensorTrap q o causeFormat 0 t.h16 (t.h16 && t.fx)
    else
      let core := coreOf o.cx
      let acc := (s.core core).acc[o.acc % 4]!
      let s1 := s.setAcc core o.acc (tileProduct h16 o.fx o.tbl acc x t.data sc)
      let t1 : Tile := { t with count := t.count - 1 }
      (s1.modQuad q (fun d => { d with latch := none, fwd := if 0 < t1.count then some t1 else none })).tensorRun q o

/-- An operation performed at its start, with the locations of its images. -/
def State.tensorPerform (s : State) (q : Nat) (o : TOp) (locs : List Nat) : State :=
  let core := coreOf o.cx
  let acc := (s.core core).acc[o.acc % 4]!
  let img (off : Nat) : BitVec 4096 := BitVec.ofNat 4096 (s.rdImg locs off 512)
  match o.i with
  | .mclr _ => (s.setAcc core o.acc 0).tensorRun q o
  | .mmaQ8 _ _ _ _ =>
    (s.setAcc core o.acc (tileProduct false o.fx o.tbl acc (img 0) (img 512) (s.rdImg locs 1024 32))).tensorRun q o
  | .mmaH16 _ _ _ => (s.setAcc core o.acc (tileProduct true o.fx o.tbl acc (img 0) (img 512) 0)).tensorRun q o
  | .mmrQ8 _ _ _ => s.runMmr q o false (img 0) (s.rdImg locs 512 32)
  | .mmrH16 _ _ => s.runMmr q o true (img 0) 0
  | .mlatch f _ =>
    let t : Tile :=
      { data := img 0, h16 := decide (f = .h16), fx := decide (f = .h16) && o.fx, count := ringLen (s.cluster (q / 16)).mring }
    (s.modQuad q (fun d => { d with latch := some t })).tensorRun q o
  | .mcv _ _ _ _ _ =>
    (s.setAcc core o.acc
      (o.convAcc acc (s.rdBytes (locs.drop 544)) (img 0) (s.rdImg locs 512 32))).tensorRun q o
  | .mld _ _ => (s.setAcc core o.acc (BitVec.ofNat 8192 (s.rd locs))).tensorRun q o
  | _ => s.tensorRun q o

/-- Reads the images of an operation at their homes, in order: the address of the first that finds bad data (R164, R396). -/
def State.tensorRead (s : State) (o : TOp) : List (Word × Nat) → State × Option Word
  | [] => (s, none)
  | (va, n) :: t =>
    let core := coreOf o.cx
    let part := (s.partOf core).getD 0
    let (s1, bad) := s.readCheck (s.planOne o.who core part va n .load).locs o.tid part
    if bad then (s1, some va) else s1.tensorRead o t

/-- `mst` writes its image (R164, R177): one on an object or in a retired unit traps before any byte is written. -/
def State.tensorStore (s : State) (q : Nat) (o : TOp) : State :=
  let core := coreOf o.cx
  let w := (s.plan o.who core ((s.partOf core).getD 0) .store o.writes).locs
  if w.any (fun l => (s.obj? (l / 64)).isSome) then s.tensorTrap q o causeProtection (o.addr 0) false false
  else if w.any s.gone then s.tensorTrap q o causeData (o.addr 0) false false
  else (s.storeAt w ((s.core core).acc[o.acc % 4]!).toNat).tensorRun q o

/-- The operation at the head of a quad's queue has started (R163, R165). -/
def State.tensorBegin (s : State) (q : Nat) : State :=
  s.modQuad q fun d =>
    { d with tq := match d.tq with | o :: t => { o with begun := true } :: t | [] => [] }

/-- The head of quad `State.sel`'s queue starts, or goes on (R161, R163, R164): its images are accesses to their homes, and
faults come first; then the whole operation is performed. -/
def execTensorOpStart (s : State) : Out :=
  let q := s.sel
  if !s.tensorReady q then .next s
  else
    match (s.quad q).tq with
    | [] => .next s
    | o :: _ =>
      let core := coreOf o.cx
      let part := (s.partOf core).getD 0
      let s0 := s.tensorBegin q
      match s.tensorPlan o with
      | .trap c va => .next (s0.tensorTrap q o c va false false)
      | .ok _ =>
        let locs := (s.plan o.who core part .load o.reads).locs
        match s0.tensorRead o o.reads with
        | (s1, some va) => .next (s1.tensorTrap q o causeData va false false)
        | (s1, none) =>
          match o.i with
          | .mst _ _ => .next (s1.tensorStore q o)
          | _ => .next (s1.tensorPerform q o locs)
      | p => .next (s0.unitWait o.who core part p)

/-- The context of an operation goes on. -/
def State.tensorRelease (s : State) (o : TOp) : State :=
  if (s.ctx o.cx).waits o.tid 1 then s.finish o.cx (instrLen o.i) id else s

/-- An operation of a quad completes (R163, R167): `k` 0 the unit's own, which for an `mmr` with a tile to hand off puts it
into the out-buffer, leaves the unit and waits; `k` 1 the one whose hand-off has been made. -/
def execTensorOpComplete (quad k : Nat) (s : State) : Out :=
  let d := s.quad quad
  if k = 0 then
    match d.trun with
    | some o =>
      if d.fwd.isSome then
        .next (s.modQuad quad (fun d => { d with trun := none, fwd := none, out := d.fwd, hand := some o }))
      else .next ((s.modQuad quad (fun d => { d with trun := none })).tensorRelease o)
    | none => .next s
  else
    match d.hand with
    | some o =>
      if d.out.isNone then .next ((s.modQuad quad (fun d => { d with hand := none })).tensorRelease o) else .next s
    | none => .next s

/-- The tile in the out-buffer of quad `State.sel` reaches the next quad's empty latch (R167). -/
def execTileArrival (s : State) : Out :=
  let q := s.sel
  let n := s.nextQuad q
  match (s.quad q).out with
  | some t =>
    if s.latchFree n then
      .next ((s.modQuad q (fun d => { d with out := none })).modQuad n (fun d => { d with latch := some t }))
    else .next s
  | none => .next s

end Sys2Proof.Machine
end

