-- ==== Sys2Proof/Machine/Service.lean ====
section
/-! DEFINITION. The commands of the service core (R277, R347, R361, R395) but for PREEMPT, RESTORE and TERM: commands
begin in queue order; one that waits for the machine does not hold up those behind it, and records complete in queue
order. -/

namespace Sys2Proof.Machine

/-- CMD of a command. -/
def cmdCode (c : Cmd) : Nat := bits c.d0 7 0
/-- PART of a command. -/
def cmdPart (c : Cmd) : Nat := bits c.d0 17 8

/-- The command that a code and its operands name (R277, R347, R361, R395). -/
def cmdInstr (c : Cmd) : Instr :=
  match cmdCode c with
  | 0x01 => .pdesc
  | 0x02 => .unpin
  | 0x03 =>
    match bits c.a 15 0 with
    | 0x012 => .setregMring
    | 0x013 => .setregSopol
    | 0x014 => .setregGpol
    | _ => .unassignedCommand
  | 0x04 => .ptroot
  | 0x05 => .fqreplay
  | 0x06 => .fqdeny
  | 0x07 => .tlbshoot
  | 0x08 => .preempt
  | 0x09 => .restore
  | 0x0A => .term
  | 0x0B => .resume0
  | 0x10 => .launch
  | 0x11 => .tgdrop
  | 0x20 => .settres
  | 0x21 => .setdrth
  | 0x30 => .recclr
  | _ => .unassignedCommand

/-- Changes the first of the commands begun that is this one and is not done. -/
def modCmdRec (f : CmdRec → CmdRec) (c : Cmd) : List CmdRec → List CmdRec
  | [] => []
  | r :: t => if r.cmd = c ∧ r.status.isNone then f r :: t else r :: modCmdRec f c t

/-- A command completes with a status (R277). -/
def State.cmdDone (s : State) (die : Nat) (c : Cmd) (status : Nat) : State :=
  s.modDie die (fun d => { d with cmds := modCmdRec (fun r => { r with status := some status }) c d.cmds })

/-- A command that has begun comes to a stage. -/
def State.cmdStage (s : State) (die : Nat) (c : Cmd) (n : Nat) : State :=
  s.modDie die (fun d => { d with cmds := modCmdRec (fun r => { r with stage := n }) c d.cmds })

/-- The command that a step of kind `i` acts on at die `State.sel`: one that has begun and waits, else the one at the head
of the queue, which begins and leaves the queue. Dword 0 with other bits set is a command error (R277) (logs 24, 46). -/
def withCmd (i : Instr) (s : State) (k : CmdRec → State → State) : Out :=
  let d := s.die s.sel
  match d.cmds.find? (fun r => r.status.isNone && decide (cmdInstr r.cmd = i)) with
  | some r => .next (k r s)
  | none =>
    match d.cmdq with
    | c :: t =>
      if cmdInstr c = i then
        let r : CmdRec := { cmd := c, stage := 0, status := none }
        let s1 := s.modDie s.sel (fun d => { d with cmdq := t, cmds := d.cmds ++ [r] })
        if bits c.d0 63 18 ≠ 0 then .next (s1.cmdDone s.sel c 1) else .next (k r s1)
      else .next s
    | [] => .next s

/-- The checks of an operand that names a core and page (R277), then `k`. -/
def State.withPage (s : State) (c : Cmd) (k : Nat → Nat → State) : State :=
  let core := bits c.a 20 4
  let page := bits c.a 3 0
  if bits c.a 63 21 ≠ 0 ∨ 11 < page then s.cmdDone s.sel c 1
  else if s.partOf core ≠ some (cmdPart c) then s.cmdDone s.sel c 2
  else k core page

/-- PDESC (R148, R277). A frame beyond physical memory is a command error (log 24). -/
def execPdesc (s : State) : Out :=
  withCmd .pdesc s fun r s =>
    let c := r.cmd
    s.withPage c fun core page =>
      let d := s.page core page
      let frame := bits c.b 47 12 * 4096
      let lay := bits c.b 7 4
      let v := bit c.b 0
      if bits c.b 63 48 ≠ 0 ∨ bits c.b 11 8 ≠ 0 ∨ 2 ^ 41 ≤ frame then s.cmdDone s.sel c 1
      else if (d.res ∨ d.busy) ∧ (frame ≠ d.frame ∨ lay ≠ d.lay ∨ !v) then s.cmdDone s.sel c 1
      else (s.modPage core page (fun d => { d with frame := frame, lay := lay, v := v })).cmdDone s.sel c 0

/-- UNPIN (R151, R277): it completes when a write-back has been acknowledged, and waits for a refill in progress. -/
def execUnpin (s : State) : Out :=
  withCmd .unpin s fun r s =>
    let c := r.cmd
    if c.b ≠ 0 then s.cmdDone s.sel c 1
    else
      s.withPage c fun core page =>
        let d := s.page core page
        if r.stage = 1 then if d.busy ∧ d.wb then s else s.cmdDone s.sel c 0
        else if d.busy then s
        else if d.res ∧ d.dirty then (s.unpin core page).cmdStage s.sel c 1
        else (s.unpin core page).cmdDone s.sel c 0

/-- The quads of a cluster. -/
def quadsOf (cluster : Nat) : List Nat := List.range' (cluster * 16) 16

/-- Whether a latch or out-buffer of a cluster holds a tile (R166). DESIGN CHOICE: a tile that a computing `mmr` has taken and
will forward is in neither, and is no tile in flight of R178 (log 84). -/
def State.tilesIn (s : State) (cluster : Nat) : Bool :=
  (quadsOf cluster).any (fun q => (s.quad q).latch.isSome || (s.quad q).out.isSome)

/-- SETREG of `MRING` (R166, R277). -/
def execSetregMring (s : State) : Out :=
  withCmd .setregMring s fun r s =>
    let c := r.cmd
    let k := bits c.a 31 16
    if bits c.a 63 32 ≠ 0 ∨ bits c.b 63 2 ≠ 0 then s.cmdDone s.sel c 1
    else if (s.cluster k).part ≠ some (cmdPart c) then s.cmdDone s.sel c 2
    else if s.tilesIn k then s.cmdDone s.sel c 1
    else (s.modCluster k (fun x => { x with mring := bits c.b 1 0 })).cmdDone s.sel c 0

/-- SETREG of `SOPOL` (R227, R277). -/
def execSetregSopol (s : State) : Out :=
  withCmd .setregSopol s fun r s =>
    let c := r.cmd
    if bits c.a 63 16 ≠ 0 then s.cmdDone s.sel c 1
    else (s.modPart (cmdPart c) (fun p => { p with sopol := c.b })).cmdDone s.sel c 0

/-- SETREG of `GPOL` (R248, R277). -/
def execSetregGpol (s : State) : Out :=
  withCmd .setregGpol s fun r s =>
    let c := r.cmd
    if bits c.a 63 16 ≠ 0 ∨ bits c.b 63 14 ≠ 0 then s.cmdDone s.sel c 1
    else (s.modPart (cmdPart c) (fun p => { p with dq := bits c.b 13 0 })).cmdDone s.sel c 0

/-- PTROOT (R272, R277): the table is 4 KiB aligned in physical memory. -/
def execPtroot (s : State) : Out :=
  withCmd .ptroot s fun r s =>
    let c := r.cmd
    if bits c.a 11 0 ≠ 0 ∨ bits c.a 63 41 ≠ 0 ∨ c.b ≠ 0 then s.cmdDone s.sel c 1
    else (s.modPart (cmdPart c) (fun p => { p with root := some c.a.toNat })).cmdDone s.sel c 0

-- The fault queue (R275)

/-- The checks of an entry index, then `k`: an index without an entry is a command error. -/
def State.withEntry (s : State) (c : Cmd) (k : FaultEnt → State) : State :=
  if bits c.a 63 9 ≠ 0 ∨ c.b ≠ 0 then s.cmdDone s.sel c 1
  else
    match (s.die s.sel).fq.find? (fun e => e.1 == bits c.a 8 0) with
    | some (_, e) => if e.part ≠ cmdPart c then s.cmdDone s.sel c 2 else k e
    | none => s.cmdDone s.sel c 1

/-- An entry leaves the fault queue. -/
def State.dropEntry (s : State) (c : Cmd) : State := s.modDie s.sel (fun d => { d with fq := tdel (bits c.a 8 0) d.fq })

/-- FQREPLAY (R275). -/
def execFqreplay (s : State) : Out :=
  withCmd .fqreplay s fun r s =>
    let c := r.cmd
    s.withEntry c fun e => (e.who.foldl State.resume (s.dropEntry c)).cmdDone s.sel c 0

/-- The address that a waiting context's own access names (R275): of a held instruction its address, of a fetch the word
that lies in the faulting granule (log 47). -/
def Ctx.faultAddr (c : Ctx) (va : Nat) : Word :=
  match c.wait with
  | some w => w.val
  | none => if c.pc.toNat / 65536 = va / 65536 then c.pc else BitVec.ofNat 64 ((c.pc.toNat / 65536 + 1) * 65536)

/-- The address at which a waiting request's access faults (R275): its own byte on the page, but for a `tgrun` that of what
it reads. -/
def State.deniedAt (s : State) (r : Req) (page : Nat) : Word :=
  match s.tgWaits r with
  | some (.fault va _ _ _) | some (.walk va _) => va
  | _ => r.addrOf (onPage (page / 16) (page % 16))

/-- The request of a context at its home is answered with a trap. -/
def State.refuseReq (s : State) (cause page cx : Nat) (tid : BitVec 32) : State :=
  { s with
    msgs := s.msgs.map fun m =>
      match m with
      | .req r => if r.cx == cx && r.tid == tid then .reply (r.failAt cause (s.deniedAt r page)) else m
      | _ => m }

/-- The queued tensor operation of a context ends in a trap (R164, R275). -/
def State.refuseTensor (s : State) (cause : Nat) (cx : Nat) (tid : BitVec 32) (va : Nat) : State :=
  let q := quadOf (coreOf cx)
  match (s.quad q).tq.find? (TOp.isOf cx tid) with
  | some o =>
    let a : Word := match s.tensorPlan o with | .fault a _ _ _ | .walk a _ => a | _ => BitVec.ofNat 64 va
    let s1 := (s.unitDone (.tensor cx tid)).modQuad q (fun d => { d with tq := d.tq.filter (fun o => !o.isOf cx tid) })
    if (s1.ctx cx).waits tid 1 then s1.trapCtx cx cause a else s1
  | none => s

/-- A requester's access ends with a trap cause or the error status that stands for it: a denial of a fault at `va`, and for
WIN = 4 of a page, or an entry of its walk that cannot be read (R275, R314, R326, R375, R396). -/
def State.refuse (cause va page : Nat) (s : State) (r : Requester) : State :=
  match r with
  | .ctx cx tid =>
    let c := s.ctx cx
    if c.tid = tid ∧ c.state = .waiting then s.trapCtx cx cause (c.faultAddr va) else s
  | .req cx tid => (s.refuseReq cause page cx tid).unhead r
  | .cmd id => s.engEnd id (if cause = causeData then 3 else 1)
  | .launch id => s.launchDenied id
  | .tensor cx tid => s.refuseTensor cause cx tid va
  | .net die part ep k => s.netDenied die part ep k
  | .place _ _ | .host _ => s
  | .graph part handle kind => s.graphDenied part handle kind
  | .timer die loc =>
    match s.msgs.findIdx? (fun m => match m with | .timerWake d _ l _ => d == die && l == loc | _ => false) with
    | some k => s.dropMsg k
    | none => s
  | .command die tag =>
    match (s.die die).cmds.find? (fun r => r.status.isNone && r.cmd.tag == tag && decide (cmdInstr r.cmd = .launch)) with
    | some r => s.cmdDone die r.cmd 5
    | none => s

/-- FQDENY (R275). -/
def execFqdeny (s : State) : Out :=
  withCmd .fqdeny s fun r s =>
    let c := r.cmd
    s.withEntry c fun e => (e.who.foldl (State.refuse causeTranslation e.va e.pa) (s.dropEntry c)).cmdDone s.sel c 0

/-- TLBSHOOT (R273, R277). -/
def execTlbshoot (s : State) : Out :=
  withCmd .tlbshoot s fun r s =>
    let c := r.cmd
    if c.b ≠ 0 then s.cmdDone s.sel c 1
    else
      (s.tlbShoot (cmdPart c) (if c.a = 0 then none else some c.a) (fun _ => true) (fun _ => true)).cmdDone s.sel c 0

/-- RESUME0 (R271, R277, R392). It clears IH and no other field of `STAT`: RFA, TRIP and RIDX that a trap left in a frame
stay as they stood, and act only when an `eret` reads them (DESIGN CHOICE, log 58). -/
def execResume0 (s : State) : Out :=
  withCmd .resume0 s fun r s =>
    let c := r.cmd
    let core := bits c.a 16 0
    let cx := core * 16
    if bits c.a 63 17 ≠ 0 ∨ bits c.b 1 0 ≠ 0 ∨ bits c.b 63 57 ≠ 0 then s.cmdDone s.sel c 1
    else if s.partOf core ≠ some (cmdPart c) then s.cmdDone s.sel c 2
    else if (s.ctx cx).state ≠ .waiting ∨ (s.ctx cx).why ≠ 14 ∨ (s.part (cmdPart c)).pre = .out then s.cmdDone s.sel c 1
    else
      (s.modCtx cx (fun x =>
        ({ (x.goto c.b) with stat := setIH false x.stat, resume := false } : Ctx).ready)).cmdDone s.sel c 0

-- Launches, graphs (R347)

/-- LAUNCH (R326, R347). A record that is not 128-byte aligned is a command error (log 77). -/
def execLaunch (s : State) : Out :=
  withCmd .launch s fun r s =>
    let c := r.cmd
    let die := s.sel
    let part := cmdPart c
    let who : Requester := .command die c.tag
    if c.a.toNat % 128 ≠ 0 ∨ c.b ≠ 0 then s.cmdDone die c 1
    else if !inGlobal c.a then s.cmdDone die c 5
    else
      match s.planOne who (dieCore die) part c.a 128 .engRead with
      | .ok l =>
        let (s1, bad) := (s.unitDone who).readCheck l 0xFFFFFFFF part
        if bad then s1.cmdDone die c 5
        else
          let (s2, code) := s1.acceptRecord die part (s1.rdBytes l) none
          s2.cmdDone die c code
      | .trap _ _ => s.cmdDone die c 5
      | p => s.unitWait who (dieCore die) part p

/-- Whether a requester is a graph's access to its next node or ring slot. -/
def Requester.ofGraph (part handle : Nat) (r : Requester) : Bool :=
  match r with
  | .graph p h kind => p == part && h == handle && kind != 0
  | _ => false

/-- Messages of a graph's runs, and the walks that they have asked for. -/
def ofGraph (part handle : Nat) (m : Msg) : Bool :=
  match m with
  | .node p g _ | .nodeDone p g _ _ _ | .ring p g _ _ => p == part && g == handle
  | .walk who _ _ _ _ _ => who.ofGraph part handle
  | _ => false

/-- A graph is removed (R342): its launches go on, and their completions decrement nothing. What it waited for in the fault
queue, its walks and its places at heads of queues are left, so that a later graph of its handle finds nothing of it; an
update of its status that has been made is still performed (R332). -/
def State.dropGraph (s : State) (part handle : Nat) : State :=
  { [1, 2, 3].foldl (fun s k => s.unitDone (.graph part handle k)) (s.leaveEntries (Requester.ofGraph part handle)) with
    graphs := s.graphs.filter (fun g => !Graph.is part handle g)
    msgs := s.msgs.filter (fun m => !ofGraph part handle m)
    launches := s.launches.map fun l =>
      match l.node with
      | some (g, _) => if l.part = part ∧ g = handle then { l with node := none } else l
      | none => l }

/-- TGDROP (R342, R347). -/
def execTgdrop (s : State) : Out :=
  withCmd .tgdrop s fun r s =>
    let c := r.cmd
    let h := bits c.a 3 0
    if bits c.a 63 4 ≠ 0 ∨ c.b ≠ 0 ∨ (s.graph? (cmdPart c) h).isNone then s.cmdDone s.sel c 1
    else (s.dropGraph (cmdPart c) h).cmdDone s.sel c 0

-- Time and power (R361)

/-- SETTRES (R350, R361). It takes effect as it completes, in queue order (R277, R362): behind an earlier command of its die
that is not complete it waits. -/
def execSettres (s : State) : Out :=
  withCmd .settres s fun r s =>
    let c := r.cmd
    if bits c.a 63 1 ≠ 0 ∨ c.b ≠ 0 then s.cmdDone s.sel c 1
    else if (s.die s.sel).cmds.head? ≠ some r then s
    else (s.modPart (cmdPart c) (fun p => { p with tres := bit c.a 0 })).cmdDone s.sel c 0

/-- The clusters of a partition. -/
def State.clustersOf (s : State) (part : Nat) : List Nat :=
  (s.clusters.filter (fun e => e.2.part == some part)).map Prod.fst

/-- SETDRTH (R354, R361). -/
def execSetdrth (s : State) : Out :=
  withCmd .setdrth s fun r s =>
    let c := r.cmd
    let all := decide (c.a = 0xFFFF)
    let k := c.a.toNat
    if bits c.b 63 25 ≠ 0 ∨ 2 ^ 16 ≤ k then s.cmdDone s.sel c 1
    else if !all ∧ (s.cluster k).part ≠ some (cmdPart c) then s.cmdDone s.sel c 2
    else
      let l := if all then s.clustersOf (cmdPart c) else [k]
      (((l.map quadsOf).flatten).foldl (fun s q => s.modQuad q (fun d => { d with drth := c.b })) s).cmdDone s.sel c 0

-- Step records (R395)

/-- A step record after RECCLR (R394): RES = 1, METH = 0, FAILS = 0. -/
def clearedRecord (w : Word) : Word := (w &&& 0xFFFFFFFF000000F0) ||| 1

/-- RECCLR (R395). -/
def execRecclr (s : State) : Out :=
  withCmd .recclr s fun r s =>
    let c := r.cmd
    let k := c.a.toNat
    if k = 0 ∨ 7 < k ∨ c.b ≠ 0 then s.cmdDone s.sel c 1
    else ({ s with steps := s.steps.set! (k - 1) (clearedRecord s.steps[k - 1]!) } : State).cmdDone s.sel c 0

/-- A command of an unassigned code, or a SETREG of a register that it does not write (R277). -/
def execUnassignedCommand (s : State) : Out :=
  withCmd .unassignedCommand s fun r s => s.cmdDone s.sel r.cmd 1

-- Answers and notices

/-- The answer at `State.sel` reaches the sender of a spawn message (R64, R66, R327, R377). -/
def execSpawnAnswer (s : State) : Out :=
  match s.msgs[s.sel]? with
  | some (.answer dest core reason) =>
    let s0 := s.dropMsg s.sel
    match dest with
    | .ctx cx tid => .next (s0.answerCtx cx tid reason)
    | .disp id die => .next (s0.answerDisp id die core reason)
    | .net die part ep => .next (s0.answerNet die part ep core reason)
  | _ => .next s

/-- The context that a place number of this package names. -/
def ctxOfPlace (x : BitVec 32) : Nat :=
  (nbits x.toNat 20 18 * 12800 + nbits x.toNat 17 10 * 64 + nbits x.toNat 9 4) * 16 + nbits x.toNat 3 0

/-- The context-free notice at `State.sel` arrives (R66). -/
def execContextFreeNotice (s : State) : Out :=
  match s.msgs[s.sel]? with
  | some (.notice core place tid) =>
    let s0 := s.dropMsg s.sel
    if tid = 0xFFFFFFFF then .next (s0.noticeDisp (nbits place.toNat 20 18) core)
    else if tid = 0xFFFFFFFE then .next (s0.noticeNet (nbits place.toNat 20 18) core)
    else .next (s0.noticeCtx (ctxOfPlace place) tid)
  | _ => .next s

end Sys2Proof.Machine
end

