-- ==== Sys2Proof/Machine/Walks.lean ====
section
/-! DEFINITION. How walks end (R272–R274, R396): the translations that they find, the faults that they queue, and the errors
that they meet. -/

namespace Sys2Proof.Machine

/-- Whether a requester of a walk still waits. -/
def State.walkWaits (s : State) (who : Requester) : Bool :=
  match who with
  | .ctx cx tid => ((s.ctx cx).tid == tid && decide ((s.ctx cx).state = .waiting)) || (s.ghost? cx tid).isSome
  | _ => s.lives who

/-- What a walk's end comes to: the translation, a fault with its window, level, cause and entry address, or an entry that
cannot be read. -/
inductive WalkEnd
  | found (e : Option TlbEnt)
  | fault (win level cause pa : Nat)
  | bad

/-- The entries that a walk reads are checked in order; one with a lasting error ends it (R396). -/
def State.readEntries (s : State) (tid : BitVec 32) (part : Nat) : List Nat → State × Bool
  | [] => (s, false)
  | pa :: t =>
    match s.readCheck (span (globalLoc pa) 8) tid part with
    | (s1, true) => (s1, true)
    | (s1, false) => s1.readEntries tid part t

/-- The end of a walk of an address; an address in a scratchpad stands for its page, whose fault found the queue full
(R149, R274). -/
def State.walkEnd (s : State) (core part : Nat) (va : Word) (tid : BitVec 32) : State × WalkEnd :=
  match window core va with
  | .scratch c off => (s, if (s.page c (off / 4096)).v then .found none else .fault 4 0 0 (c * 16 + off / 4096))
  | _ =>
    match s.readEntries tid part (s.walkReads part va) with
    | (s1, true) => (s1, .bad)
    | (s1, false) =>
      match s1.walk part va with
      | .leaf e => (s1, .found (some e))
      | .stop level cause pa => (s1, .fault (winCode va) level cause pa)

/-- A killed context's access that has come to a fault is over: a requester that is killed leaves the entry (R275). -/
def State.ghostLeaves (s : State) (who : Requester) : State :=
  match who with
  | .ctx cx tid =>
    if (s.ghost? cx tid).isSome then
      ({ s with ghosts := s.ghosts.filter (fun e => !(e.1 == cx && e.2.tid == tid)) } : State).leaveEntries
        (Requester.isOf cx tid)
    else s
  | _ => s

/-- A request at its home that waits in the fault queue goes on only when its entry ends. -/
def State.blockReq (s : State) (who : Requester) : State :=
  match who with
  | .req cx tid =>
    { s with
      msgs := s.msgs.map fun m =>
        match m with
        | .req r => if r.cx = cx ∧ r.tid = tid then .req { r with blocked := true } else m
        | _ => m }
  | _ => s

/-- Whether a walk that fails queues a fault for its requester: not what places a packet, nor an access of the host, which
end without one (R375, R379), nor a control node's read, which fails its node (R334). -/
def Requester.queues : Requester → Bool
  | .place _ _ | .host _ | .graph _ _ 3 => false
  | _ => true

/-- Whether a requester is a context that waits in `mfree`, which has more pages than its core's TLB has entries. -/
def State.freeing (s : State) (cx : Nat) : Bool :=
  match (s.ctx cx).wait with
  | some w => (match w.i with | .mfree _ _ => true | _ => false)
  | none => false

/-- A unit keeps what its walk has found until its access is performed, and so does an `mfree`; another instruction of a
context is performed again, with the TLB that has been filled. -/
def State.keepWalk (s : State) (who : Requester) (part va : Nat) (e : Option TlbEnt) : State :=
  let t : State := { s with walked := s.walked ++ [(who, part, va, e)] }
  match who with
  | .ctx cx _ => if s.freeing cx then t else s
  | _ => t

/-- Ends a walk: the TLBs are filled and the requester goes on, or a fault is queued; with the queue full the walk stays
in its walker (R273, R274). One whose entry cannot be read gives its requester error status (R396). -/
def State.endWalk (s : State) (who : Requester) (cx va kind part : Nat) : State :=
  let core := coreOf cx
  if s.walkWaits who then
    let id := s.faultId (faultDie core) who
    match s.walkEnd core part (BitVec.ofNat 64 va) id.tid with
    | (s1, .found (some e)) => ((s1.tlbFill core e).keepWalk who part va (some e)).resume who
    | (s1, .found none) => s1.resume who
    | (s1, .bad) =>
      if who.queues then (s1.refuse causeData va 0 who).ghostLeaves who else s1.keepWalk who part va none
    | (s1, .fault win level cause pa) =>
      if who.queues then
        match s1.queueFault (faultDie core) part va kind win level cause pa id who with
        | some s2 => (s2.ghostLeaves who).blockReq who
        | none => s1.send (.walk who cx va kind part false)
      else s1.keepWalk who part va none
  else s

/-- Whether a message is a requester that has joined a walk (R273): of the same die, partition and 64 KiB granule. -/
def joinsWalk (cx va part : Nat) (m : Msg) : Bool :=
  match m with
  | .walk _ x v _ p false =>
    faultDie (coreOf x) == faultDie (coreOf cx) && p == part && v / 65536 == va / 65536
      && !inScratch (coreOf x) (BitVec.ofNat 64 v) && !inScratch (coreOf cx) (BitVec.ofNat 64 va)
  | _ => false

/-- A walk ends for every requester that has joined it, in arrival order (R273). -/
def State.endWalks (s : State) : List Msg → State
  | [] => s
  | .walk who cx va kind part _ :: t => (s.endWalk who cx va kind part).endWalks t
  | _ :: t => s.endWalks t

/-- The walk at `State.sel` ends (R273). -/
def execWalkComplete (s : State) : Out :=
  match s.msgs[s.sel]? with
  | some (.walk who cx va kind part b) =>
    let s0 := s.dropMsg s.sel
    let joined := s0.msgs.filter (joinsWalk cx va part)
    let s1 : State := { s0 with msgs := s0.msgs.filter (fun m => !joinsWalk cx va part m) }
    .next (s1.endWalks (.walk who cx va kind part b :: joined))
  | _ => .next s

/-- The cluster TLB answers the miss at `State.sel` (R273); a translation that has left it meanwhile needs a walk. -/
def execClusterTlbHit (s : State) : Out :=
  match s.msgs[s.sel]? with
  | some (.walk who cx va kind part _) =>
    let s0 := s.dropMsg s.sel
    let core := coreOf cx
    match tlbFind part (BitVec.ofNat 64 va) (s.cluster (clusterOf core)).tlb with
    | some e =>
      if s.walkWaits who then
        .next (((s0.modCore core (fun c => { c with tlb := tlbAdd 128 e c.tlb })).keepWalk who part va (some e)).resume who)
      else .next s0
    | none => .next (s0.send (.walk who cx va kind part false))
  | _ => .next s

end Sys2Proof.Machine
end

