-- ==== Sys2Proof/Machine/Preempt.lean ====
section
/-! DEFINITION. PREEMPT and RESTORE (R278–R281, R288): the partition stops issue, its operations complete, its cores and
contexts are written into the save area, and are read back from there. The save area lies in physical memory (log 25). -/

namespace Sys2Proof.Machine

/-- The cores of a partition, ascending. -/
def State.allCores (s : State) (part : Nat) : List Nat :=
  ((s.clustersOf part).map (fun k => List.range' (k * 64) 64)).flatten

/-- The partition of a context's core. -/
def State.partOfCtx (s : State) (cx : Nat) : Option Nat := s.partOf (coreOf cx)

/-- The partition whose contexts or homes a message concerns. -/
def State.msgPart (s : State) (m : Msg) : Option Nat :=
  match m with
  | .req r => some r.part
  | .reply r => some r.part
  | .retry cx _ | .answer (.ctx cx _) _ _ | .delegated cx _ _ _ _ _ _ _ | .group cx _ _ _ _ _ => s.partOfCtx cx
  | .spawn m => some m.part
  | .mig src _ _ _ | .migAns src _ _ _ => s.partOfCtx src
  | .migCommit k _ | .migAbort k _ => s.partOfCtx k
  | .notice _ place tid => if 0xFFFFFFFE#32 ≤ tid then none else s.partOfCtx (ctxOfPlace place)
  | .drain _ _ part _ | .unitWrite _ part _ _ _ | .teardown _ part _ _ => some part
  | .drainAck (.ctx cx _ _) => s.partOfCtx cx
  | .drainAck (.req r) => some r.part
  | .walk _ _ _ _ part _ => some part
  | .soWake cx _ _ _ _ _ _ => if cx < engBase then s.partOfCtx cx else none
  | _ => none

/-- Whether a held instruction of a context completes before its partition is saved (R278 step 2): an access that waited for
its translation, or one that waits for its write-backs or tokens, as releases, `cwb`, launches and `mig` do. -/
def Ctx.finishes (c : Ctx) : Bool := decide (c.state = .waiting) && [1, 8, 17].contains c.why

/-- Whether a message must be settled before the frames of a partition are written (R278 step 2): requests at faults,
instructions to be performed again but for those that complete, and results that no context waits for are not. -/
def State.mustSettle (s : State) (part : Nat) (m : Msg) : Bool :=
  s.msgPart m == some part &&
    match m with
    | .retry cx tid => (s.ctx cx).tid == tid && (s.ctx cx).finishes
    | .walk who _ _ _ _ _ => s.walkWaits who
    | .req r => !r.blocked
    | .group cx tid _ _ _ _ => (s.ctx cx).waits tid 1
    | _ => true

/-- Whether the quad's unit holds an operation of a context that has not started or waits on a fault, or one whose hand-off
alone is left (R165, R278). -/
def State.opLeaves (s : State) (cx : Nat) (tid : BitVec 32) : Bool :=
  let d := s.quad (quadOf (coreOf cx))
  d.tq.any (s.opGoes cx tid) || (match d.hand with | some o => o.isOf cx tid | none => false)

/-- Whether an instruction is `cpw`. -/
def isCpw (i : Instr) : Bool := match i with | .cpw _ _ => true | _ => false

/-- Whether a context can be saved as it stands: it does not wait, or its wait is one that is left unfinished
(R278 step 3). A vector instruction that has taken its slot ends first, and so does an acquire after a result that has been
taken. DESIGN CHOICE: a `cpw` is left unfinished, like `ncw`; R278 lists it neither so nor among what completes, and every
command that it could wait for has completed (log 71). -/
def State.savable (s : State) (cx : Nat) : Bool :=
  let c := s.ctx cx
  match c.wait with
  | none => true
  | some w =>
    decide (c.state = .waiting) && (w.ph == 0 && !c.finishes ||
      (if c.why = 3 then s.opLeaves cx c.tid
      else w.ph != 2 && ([4, 5, 9, 10, 11, 13, 14, 16].contains c.why || c.why == 6 && isCpw w.i)))

/-- The listed contexts of a partition. -/
def State.ctxsOf (s : State) (part : Nat) : List Nat := (s.ctxs.map Prod.fst).filter (fun cx => s.partOfCtx cx == some part)

/-- Whether a request of a partition stands at a fault of its home. -/
def blockedReq (part : Nat) (m : Msg) : Bool := match m with | .req r => r.blocked && r.part == part | _ => false

/-- Whether a quad's unit has a tensor operation that must complete (R165). -/
def State.opRuns (s : State) (d : Quad) : Bool :=
  d.trun.isSome || d.tq.any (fun o => o.begun && !s.opGoes o.cx o.tid o)

/-- Whether everything of R278 step 2 is complete. -/
def State.settled (s : State) (part : Nat) : Bool :=
  !s.msgs.any (s.mustSettle part) && (s.ctxsOf part).all s.savable && s.cmds.all (fun c => c.part != part)
    && s.ghosts.all (fun e => s.partOfCtx e.1 != some part)
    && s.quads.all (fun e => !(s.partOf (e.1 * 4) == some part && s.opRuns e.2))
    && s.cores.all (fun e => !(s.partOf e.1 == some part && e.2.pages.any (fun p => p.2.busy)))
    && s.resvq.all (fun q => q.queue.all fun i => match i with | .req r => r.part != part | .write k _ _ => k.all (fun k => s.partOf k != some part))

/-- Requests at faults of their homes are dropped: their contexts are saved with REISSUE (R278 step 3, R288). -/
def State.dropBlocked (s : State) (part : Nat) : State :=
  s.msgs.foldl (fun s m =>
    match m with
    | .req r => if blockedReq part m then s.modCtx r.cx (fun c => if c.tid = r.tid then { c with why := 13 } else c) else s
    | _ => s) { s with msgs := s.msgs.filter (fun m => !blockedReq part m) }

-- The frames (R279)

/-- Bytes of a core frame and of a core's part of the save area. -/
def coreFrameSize : Nat := 0x6400
/-- A core frame and 16 context frames. -/
def coreAreaSize : Nat := coreFrameSize + 16 * 256

/-- A field of a frame: offset, bytes, value. -/
abbrev Field := Nat × Nat × Nat

/-- Consecutive fields of one size. -/
def fieldsAt (base size : Nat) (l : List Nat) : List Field := l.mapIdx (fun i v => (base + size * i, size, v))

/-- Writes fields at a physical base. -/
def State.putFields (s : State) (base : Nat) (l : List Field) : State :=
  l.foldl (fun s f => s.storeAt (span (globalLoc (base + f.1)) f.2.1) f.2.2) s

/-- A field at a physical base. -/
def State.getField (s : State) (base off n : Nat) : Nat := s.rd (span (globalLoc (base + off)) n)

/-- State, type, FX and count of a latch or out-buffer: 0 for EMPTY. -/
def tileCode (t : Option Tile) : Nat :=
  match t with
  | some t => 1 + t.h16.toNat * 2 ^ 8 + t.fx.toNat * 2 ^ 16 + t.count % 256 * 2 ^ 24
  | none => 0

/-- The quad area. -/
def quadFields (q : Quad) : List Field :=
  let d (t : Option Tile) : Nat := match t with | some t => t.data.toNat | none => 0
  [(0x1460, 512, d q.latch), (0x1660, 512, d q.out), (0x1860, 4, tileCode q.latch), (0x1864, 4, tileCode q.out)]

/-- The f and v registers of a context in its core's frame. -/
def fvFields (i : Nat) (c : Ctx) : List Field :=
  let base := 0x2000 + 0x440 * i
  fieldsAt base 8 (c.f.toList.map (·.toNat)) ++ fieldsAt (base + 64) 128 (c.v.toList.map (·.toNat))

/-- A core frame (R279): the SO area has contents of the part's own (log 23). -/
def State.coreFields (s : State) (core : Nat) : List Field :=
  let k := s.core core
  let fifo (l : List Word) : List Nat := l.length :: l.map (·.toNat)
  fieldsAt 0 1024 (k.acc.toList.map (·.toNat)) ++ [(0x1000, 512, k.q8.toNat)]
    ++ (k.fifo.toList.mapIdx (fun i l => fieldsAt (0x1200 + 72 * i) 8 (fifo l))).flatten
    ++ [(0x1320, 8, k.spen.toNat)]
    ++ fieldsAt 0x1328 8 (k.reap.length :: (k.reap.map (fun r => [r.1.toNat, r.2.toNat])).flatten)
    ++ fieldsAt 0x13B0 8 (k.refused.length :: k.refused.map (fun e => e.1.toNat + e.2.toNat * 2 ^ 32))
    ++ fieldsAt 0x1438 2 ((List.range 16).map (fun i => tget 0 i k.gens))
    ++ (if core % 4 = 0 then quadFields (s.quad (quadOf core)) else [])
    ++ fieldsAt 0x1870 32 ((List.range 16).map (fun i => (Config.soEntry (s.fresh + i)).toNat))
    ++ fieldsAt 0x1A70 4 ((List.range 8).map (fun c => [k.issOf c, k.doneOf c])).flatten
    ++ ((List.range 16).map (fun i => fvFields i (s.ctx (core * 16 + i)))).flatten

/-- Whether a context is saved with REISSUE (R278 step 3). -/
def Ctx.reissues (c : Ctx) : Bool := c.reissue || (decide (c.state = .waiting) && c.why != 14)

/-- Cycles that a refusal timer has left. -/
def State.timerLeft (s : State) (cx : Nat) : Nat :=
  match (s.ctx cx).timer with
  | some t => t - (s.quad (quadOf (coreOf cx))).cyc
  | none => 0

/-- A context frame (R279); a FREE slot's is all zeros. -/
def State.ctxFields (s : State) (cx : Nat) : List Field :=
  let c := s.ctx cx
  if c.state = .free then []
  else
    let sret := match c.sret with | some (ret, lk) => [ret.toNat + 1, lk.toNat] | none => [0, 0]
    fieldsAt 0 8 (c.g.toList.map (·.toNat)) ++ fieldsAt 0x80 4 (c.h.toList.map (·.toNat))
      ++ fieldsAt 0xA0 8 [c.pc.toNat, c.stat.toNat, c.tvec.toNat, c.tepc.toNat, c.tcause.toNat, c.tval.toNat]
      ++ fieldsAt 0xD0 8 sret ++ fieldsAt 0xE0 4 ((c.m.toList.drop 1).map (·.toNat) ++ [c.rcnt.toNat, c.tid.toNat])
      ++ fieldsAt 0xF4 1 [(c.p ||| 1).toNat, c.reissues.toNat + 2 * c.fnp.toNat + 4 * c.tag.toNat, c.lgr.toNat, c.lrr]
      ++ [(0xF8, 2, s.timerLeft cx), (0xFA, 1, s.stateCode cx), (0xFB, 1, if c.state = .waiting then c.why else 0)]

/-- Writes the frames of a core at its part of the save area (R279). -/
def State.saveCore (s : State) (area n core : Nat) : State :=
  let base := area + n * coreAreaSize
  let s1 : State := { s with mem := memClear s.mem (globalLoc base) coreAreaSize }
  let s2 := { s1.putFields base (s.coreFields core) with fresh := s.fresh + 16 }
  (List.range 16).foldl (fun t i => t.putFields (base + coreFrameSize + 256 * i) (s.ctxFields (core * 16 + i))) s2

/-- Writes the frames of cores in ascending order. -/
def State.saveCores (s : State) (area : Nat) : (n : Nat) → List Nat → State
  | _, [] => s
  | n, k :: t => (s.saveCore area n k).saveCores area (n + 1) t

/-- Whether an object's home is one of a partition's scratchpads. -/
def State.scratchObj (s : State) (part line : Nat) : Bool :=
  match lineHome line with
  | .core k => s.partOf k == some part
  | _ => false

/-- What the save area does not hold. -/
def State.keeps (s : State) (part : Nat) : Kept where
  clusters := s.clustersOf part
  ctxs := (s.ctxs.filter (fun e => s.partOfCtx e.1 == some part)).map fun e =>
    (e.1, { Ctx.reset with
              tid := e.2.tid, launch := e.2.launch, deleg := e.2.deleg, hunit := e.2.hunit
              resume := e.2.frame.isSome || e.2.resume })
  exits := (s.cores.filter (fun e => s.partOf e.1 == some part)).map (fun e => (e.1, e.2.exits))
  objs := s.objs.filter (fun e => s.scratchObj part e.1)

/-- Members of a partition's groups are marked suspended, or no longer (R255). -/
def State.suspend (s : State) (part : Nat) (b : Bool) : State :=
  let f (m : Member) : Member := { m with susp := b }
  { s with
    groups := s.groups.map fun g =>
      if g.part = part then { g with mems := g.mems.map f, pending := g.pending.map f } else g }

/-- Hand-offs that are left count as complete: their contexts go on past the `mmr` (R165). -/
def State.finishHands (s : State) (part : Nat) : State :=
  s.quads.foldl (fun s e =>
    if s.partOf (e.1 * 4) = some part then
      match e.2.hand with
      | some o => (s.modQuad e.1 (fun d => { d with hand := none })).tensorRelease o
      | none => s
    else s) s

/-- What waits for a context is withdrawn without ending it (R226: its tickets stay). -/
def State.leaveQueues (s : State) (part : Nat) : State :=
  let mine (cx : Nat) : Bool := s.partOfCtx cx == some part
  let who (r : Requester) : Bool := match r with | .ctx x _ | .req x _ | .tensor x _ => mine x | _ => false
  let drop (m : Msg) : Bool := match m with | .retry cx _ => mine cx | .walk _ _ _ _ p _ => p == part | _ => false
  { s with
    watches := s.watches.filter (fun w => !mine w.cx)
    msgs := s.msgs.filter (fun m => !drop m)
    dies := s.dies.map (fun e =>
      (e.1, { e.2 with fq := e.2.fq.map (fun f => (f.1, { f.2 with who := f.2.who.filter (fun r => !who r) })) })) }

/-- The cores and quads of a partition as pre-emption leaves them: nothing queued, no context. -/
def State.clearOut (s : State) (part : Nat) : State :=
  let mine (core : Nat) : Bool := s.partOf core == some part
  { s with
    ctxs := s.ctxs.filter (fun e => !mine (coreOf e.1))
    objs := s.objs.filter (fun e => !s.scratchObj part e.1)
    quads := s.quads.map (fun e => if mine (e.1 * 4) then (e.1, { e.2 with tq := [] }) else e)
    cores := s.cores.map fun e =>
      if mine e.1 then
        (e.1, { e.2 with
                  popW := Vector.replicate 4 [], pushW := Vector.replicate 4 [], exits := []
                  slot := { holder := none, entering := none, waiting := [], undo := [] } })
      else e }

/-- Unpins every page of a partition's cores (R151, R278 step 6). -/
def State.unpinAll (s : State) (part : Nat) : State :=
  (s.coresOf part).foldl (fun s k => (List.range 12).foldl (fun s p => s.unpinNow k p) s) s

/-- Steps 3 to 7 of R278: the frames are written and the partition is out. -/
def State.putOut (s : State) (part area : Nat) : State :=
  let s1 := (s.finishHands part).leaveQueues part
  let s2 := (s1.ctxsOf part).foldl (fun s cx => s.breakResv cx (s.ctx cx).tid) s1
  let s3 := (s2.sweepPass part).sweepClear part
  let kept := s3.keeps part
  let s4 := s3.saveCores area 0 (s3.allCores part)
  let s5 := ((s4.unpinAll part).suspend part true).clearOut part
  ({ s5 with kept := tset part kept s5.kept } : State).modPart part (fun p => { p with pre := .out })

/-- Whether a PREEMPT that has begun has something to do. -/
def State.preemptMoves (s : State) (part : Nat) : Bool := s.msgs.any (blockedReq part) || s.settled part

/-- PREEMPT (R277, R278): the first step stops issue, once a RESTORE in progress is complete; the last one writes the
frames. DESIGN CHOICE: one for a partition that is stopping or out has status 1 (log 46). -/
def execPreempt (s : State) : Out :=
  withCmd .preempt s fun r s =>
    let c := r.cmd
    let part := cmdPart c
    if r.stage = 0 then
      if c.b = 0 ∧ c.a.toNat < 2 ^ 41 ∧ (s.part part).pre = .restoring then s
      else if c.b ≠ 0 ∨ 2 ^ 41 ≤ c.a.toNat ∨ s.partOut part then s.cmdDone s.sel c 1
      else (s.modPart part (fun p => { p with pre := .stopping })).cmdStage s.sel c 1
    else
      let s1 := s.dropBlocked part
      if s1.settled part then (s1.putOut part c.a.toNat).cmdDone s.sel c 0 else s1

-- RESTORE (R280, R281)

/-- Words of a frame. -/
def State.getFields (s : State) (base off size n : Nat) : List Nat :=
  (List.range n).map (fun i => s.getField base (off + size * i) size)

/-- A list as a register file. -/
def regsOf {w : Nat} (n : Nat) (l : List Nat) : Vector (BitVec w) n := Vector.ofFn (fun i => BitVec.ofNat w (l.getD i.val 0))

/-- What a context of a partition keeps beside its frame. -/
def Kept.ctx (k : Kept) (cx : Nat) (tid : BitVec 32) : Ctx :=
  match k.ctxs.find? (fun e => e.1 == cx && e.2.tid == tid) with
  | some e => e.2
  | none => Ctx.reset

/-- The context of a frame (R279–R281): `fv` is the base of its f and v registers (log 31). Reserved fields of an altered
frame read 0 (R6), and the program counter is a multiple of 4 (R21). -/
def State.loadCtx (s : State) (k : Kept) (cx base fv : Nat) : Ctx :=
  let w (off n : Nat) : Nat := s.getField base off n
  let word (off : Nat) : Word := BitVec.ofNat 64 (w off 8)
  let code := w 0xFA 1
  let why := w 0xFB 1
  let b := w 0xF5 1
  let tid := BitVec.ofNat 32 (w 0xF0 4)
  let own := k.ctx cx tid
  let fvs : Ctx :=
    { Ctx.reset with f := regsOf 8 (s.getFields fv 0 8 8), v := regsOf 8 (s.getFields fv 64 128 8) }
  if code = 0 then fvs
  else
    { fvs with
      state := if code = 4 then .exit else if code = 2 ∧ why = 14 then .waiting else .ready
      why := if code = 2 ∧ why = 14 then 14 else 0
      g := regsOf 16 (s.getFields base 0 8 16), h := regsOf 8 (s.getFields base 0x80 4 8)
      m := regsOf 4 (0 :: s.getFields base 0xE0 4 3), p := BitVec.ofNat 8 (w 0xF4 1) ||| 1
      pc := addrField (word 0xA0), stat := word 0xA8 &&& ~~~statRsv, tvec := addrField (word 0xB0)
      tepc := addrField (word 0xB8), tcause := word 0xC0 &&& ~~~tcauseRsv, tval := word 0xC8
      sret := if w 0xD0 8 % 2 = 1 then some (addrField (word 0xD0), word 0xD8) else none
      rcnt := BitVec.ofNat 32 (w 0xEC 4), tid := tid, fnp := b.testBit 1, tag := b.testBit 2
      lgr := BitVec.ofNat 8 (w 0xF6 1), lrr := w 0xF7 1 % 8
      timer := if w 0xF8 2 = 0 then none else some ((s.quad (quadOf (coreOf cx))).cyc + w 0xF8 2)
      reissue := b.testBit 0, launch := own.launch, deleg := own.deleg, hunit := own.hunit
      resume := own.resume && statRFA (word 0xA8) }

/-- A latch or out-buffer of a frame. -/
def loadTile (data code : Nat) : Option Tile :=
  if code % 256 = 0 then none
  else some { data := BitVec.ofNat 4096 data, h16 := code.testBit 8, fx := code.testBit 16, count := code / 2 ^ 24 % 256 }

/-- Reinstates a core from its frames (R280 step 1). -/
def State.loadCore (s : State) (k : Kept) (area n core : Nat) : State :=
  let base := area + n * coreAreaSize
  let w (off n : Nat) : Nat := s.getField base off n
  let word (off : Nat) : Word := BitVec.ofNat 64 (w off 8)
  let items (off cap size : Nat) : List Nat := s.getFields base (off + 8) size (min cap (w off 8))
  let s1 := s.modCore core fun c =>
    { c with
      acc := regsOf 4 (s.getFields base 0 1024 4), q8 := BitVec.ofNat 4096 (w 0x1000 512)
      fifo := Vector.ofFn (fun i => (items (0x1200 + 72 * i.val) 8 8).map (BitVec.ofNat 64))
      popW := Vector.replicate 4 [], pushW := Vector.replicate 4 [], slot := { holder := none, entering := none, waiting := [], undo := [] }
      spen := word 0x1320 &&& spenRW
      reap := (List.range (min 8 (w 0x1328 8))).map (fun i => (word (0x1330 + 16 * i), word (0x1338 + 16 * i)))
      exits := tget [] core k.exits
      refused := (items 0x13B0 16 8).map (fun x => (BitVec.ofNat 32 x, BitVec.ofNat 32 (x / 2 ^ 32)))
      gens := (List.range 16).map (fun i => (i, w (0x1438 + 2 * i) 2 % 2048))
      iss := (List.range 8).map (fun i => (i, w (0x1A70 + 8 * i) 4))
      done := (List.range 8).map (fun i => (i, w (0x1A74 + 8 * i) 4)) }
  let s2 := if core % 4 = 0 then
      s1.modQuad (quadOf core) (fun q =>
        { q with latch := loadTile (w 0x1460 512) (w 0x1860 4), out := loadTile (w 0x1660 512) (w 0x1864 4) })
    else s1
  (List.range 16).foldl (fun t i =>
    t.setCtx (core * 16 + i) (s.loadCtx k (core * 16 + i) (base + coreFrameSize + 256 * i) (base + 0x2000 + 0x440 * i))) s2

/-- Reinstates cores in ascending order. -/
def State.loadCores (s : State) (k : Kept) (area : Nat) : (n : Nat) → List Nat → State
  | _, [] => s
  | n, c :: t => (s.loadCore k area n c).loadCores k area (n + 1) t

/-- The reads of a save area find the errors that lie there (R396); the frames are read as they stand (log 16). -/
def State.readArea (s : State) (part base n : Nat) : State :=
  let found (l : Nat) : Bool := decide (globalLoc base ≤ l) && decide (l < globalLoc base + n) && !s.gone l
  (s.readCheck ((s.flaws.map (fun e => e.1 * 64)).filter found) 0 part).1

/-- The last steps of RESTORE (R280): the suspended marks are cleared and issue resumes. -/
def State.resumePart (s : State) (part : Nat) : State :=
  (s.suspend part false).modPart part (fun p => { p with pre := .no })

/-- RESTORE (R277, R280): the partition must be out, and its clusters its own again. Where accesses are held for it
(R278), they are performed before issue resumes. -/
def execRestore (s : State) : Out :=
  withCmd .restore s fun r s =>
    let c := r.cmd
    let part := cmdPart c
    if r.stage = 1 then
      if s.wakesHeld part then s else (s.resumePart part).cmdDone s.sel c 0
    else
    match s.kept.find? (fun e => e.1 == part) with
    | none => s.cmdDone s.sel c 1
    | some (_, k) =>
      if c.b ≠ 0 ∨ 2 ^ 41 ≤ c.a.toNat ∨ (s.part part).pre ≠ .out then s.cmdDone s.sel c 1
      else if k.clusters.any (fun x => decide ((s.cluster x).part ≠ some part)) then s.cmdDone s.sel c 2
      else
        let cores := (k.clusters.map (fun x => List.range' (x * 64) 64)).flatten
        let s1 := (s.loadCores k c.a.toNat 0 cores).readArea part c.a.toNat (cores.length * coreAreaSize)
        let s2 : State := { s1 with objs := k.objs.foldl (fun t e => tset e.1 e.2 t) s1.objs, kept := tdel part s1.kept }
        if s2.wakesHeld part then (s2.modPart part (fun p => { p with pre := .restoring })).cmdStage s.sel c 1
        else (s2.resumePart part).cmdDone s.sel c 0

end Sys2Proof.Machine
end

