-- ==== Sys2Proof/Machine/Homes.lean ====
section
/-! DEFINITION. What a home does with a request that reaches it (R146, R149, R150, R183, R209), how its reply ends the
instruction (R59), and how a reserved word passes on (R209, R244). -/

namespace Sys2Proof.Machine

/-- Performs a request at its home: its instruction's part there. -/
def performAt (r : Req) (s : State) : HomeOut :=
  match r.i with
  | .ld z _ _ _ _ => homeLd z r s
  | .ldAcq _ _ _ _ _ => homeLdAcq r s
  | .st z _ _ _ => homeSt z r s
  | .stRel _ _ _ _ => homeStRel r s
  | .ldf _ _ _ _ _ | .ldfIndexed _ _ _ _ _ _ => homeLdf r s
  | .stf _ _ _ | .stfIndexed _ _ _ _ => homeStf r s
  | .rnw _ _ => homeRnw r s
  | .life _ _ => homeLife r s
  | .fdrop _ => homeFdrop r s
  | .lifeSet _ _ => homeLifeSet r s
  | .amo op dbl _ _ _ _ _ => homeAmoOp op dbl r s
  | .amoSwap _ _ _ _ _ _ => homeAmoSwap r s
  | .amoCas _ _ _ _ _ _ _ => homeAmoCas r s
  | .resv _ _ _ _ _ => homeResv r s
  | .rlse _ _ _ _ _ _ => homeRlse r s
  | .sinit k sc _ _ => homeSinit k sc r s
  | .sfin _ _ => homeSfin r s
  | .smode _ _ => homeSmode r s
  | .slock _ => homeSlock r s
  | .slockCall _ _ => homeSlockCall (callKind r.vals) r s
  | .sunlk _ => homeSunlk r s
  | .sarr d _ => homeSarr d r s
  | .sarrEos d _ => homeSarrEos d r s
  | .sexp _ _ => homeSexp r s
  | .swait d _ => homeSwait d r s
  | .gmake sc _ _ _ => homeGmake sc r s
  | .gjoin _ _ _ => homeGjoin r s
  | .gleave _ _ => homeGleave r s
  | .gbar _ _ => homeArrive .bar r s
  | .gvote v _ _ _ => homeArrive (.vote v) r s
  | .gred o t _ _ _ => homeArrive (.red o t) r s
  | .gsize _ _ => homeGsize r s
  | .grank _ _ => homeGrank r s
  | .vld _ _ _ _ | .vst _ _ _ _ | .vgath _ _ _ _ | .vscat _ _ _ _ | .ldtab _ => homeVec (vWidth r.i) r s
  | .lnch _ _ => homeLnch r s
  | .tkaddAt _ _ _ | .wakeAt _ _ _ => homeTimer r s
  | .tgrun _ _ => homeTgrun r s
  | .notify _ _ => homeNotify r s
  | .wwait _ _ _ => homeWwait r s
  | .wake _ => homeWake r s
  | .nring _ _ => homeNring r s
  | .npost _ _ _ => homeNpost r s
  | _ => (s, none)

/-- Ends the waiting instruction `i` of a context with the reply of its home. -/
def endWith (i : Instr) (rep : Reply) (s : State) : State :=
  match i with
  | .ld z sx d _ _ => endLd z sx d rep s
  | .ldAcq z sx d a o => endLdAcq z sx d a o rep s
  | .st _ _ _ _ | .stRel _ _ _ _ => endSt rep s
  | .ldf z sx d _ c | .ldfIndexed z sx d _ _ c => endLdf z sx d c rep s
  | .stf _ _ _ | .stfIndexed _ _ _ _ | .fdrop _ => endFleet rep s
  | .rnw d _ | .life d _ => endCode d rep s
  | .lifeSet _ _ => endLifeSet rep s
  | .amo op dbl o sc d a b => endAmoOp op dbl o sc d a b rep s
  | .amoSwap dbl o sc d a b => endAmoSwap dbl o sc d a b rep s
  | .amoCas dbl o sc d a b c => endAmoCas dbl o sc d a b c rep s
  | .resv dbl acq sc d a => endResv dbl acq sc d a rep s
  | .rlse _ _ _ d _ _ => endRlse d rep s
  | .sinit _ _ d _ | .smode d _ => endG d rep s
  | .sfin d _ => endP d rep s
  | .slock a => endSlock a rep s
  | .slockCall d a => endSlockCall d a rep s
  | .sunlk a => endSunlk a rep s
  | .sarr d _ => endSarr d rep s
  | .swait d a => endSwait d a rep s
  | .sarrEos _ _ | .sexp _ _ | .notify _ _ | .wake _ | .tlbi _ _ | .tlbiAll _ => finishWith (fun _ c => c) rep s
  | .gmake _ d h _ | .gjoin d h _ => endHandle d h rep s
  | .gleave d h => endGleave d h rep s
  | .gbar _ _ | .gvote _ _ _ _ | .gred _ _ _ _ _ => endArrive rep s
  | .gsize d _ | .grank d _ => endGroupRead d rep s
  | .vld _ _ _ _ | .vst _ _ _ _ | .vgath _ _ _ _ | .vscat _ _ _ _ | .ldtab _ => s.vecReply rep
  | .lnch d _ | .tkaddAt d _ _ | .tgrun d _ | .wakeAt d _ _ | .nring d _ | .npost d _ _ => endCode d rep s
  | .wwait d _ _ => endWwait d rep s
  | _ => s

/-- The reply at `State.sel` reaches its context (R59, R146); one for a context that no longer waits is discarded
(R69). -/
def execRemoteReply (s : State) : Out :=
  match s.msgs[s.sel]? with
  | some (.reply rep) =>
    let s0 := s.dropMsg s.sel
    match (s0.ctx rep.cx).wait with
    | some w => if (s0.ctx rep.cx).waits rep.tid 1 then .next (endWith w.i rep s0) else .next s0
    | none => .next s0
  | _ => .next s

-- What stands before a request at its home

/-- What a request meets at its home first: nothing, a page that traps it, a page without a frame, a page that is not
resident, or a reserved word. -/
inductive Gate
  | go
  | prot (page : Nat)
  | lost (page : Nat)
  | fault (page : Nat)
  | page (page : Nat)
  | word (loc : Nat)
  deriving DecidableEq, Repr

/-- Whether the issuing context sits on the home core itself (R146, R150). -/
def Req.isLocal (r : Req) : Bool := decide (r.home = .core (coreOf r.cx))

/-- The pages of a request in order; the first that does not let it go on decides (R149). -/
def State.pageGate (s : State) (core : Nat) : List Nat → Gate
  | [] => .go
  | p :: t =>
    match s.pageSt core p with
    | .ready => s.pageGate core t
    | .prot => .prot p
    | .lost => .lost p
    | .fault => .fault p
    | .busy => .page p

/-- Whether an instruction's request waits at a reserved word that it names: not the `rlse` that ends the reservation,
nor the request that sets a timer (R244, R338). -/
def waitsAtWord (i : Instr) : Bool :=
  match i with
  | .rlse _ _ _ _ _ _ | .wakeAt _ _ _ => false
  | _ => true

/-- What a request meets at its home. -/
def State.gate (s : State) (r : Req) : Gate :=
  let pg := match r.home with
    | .core k => s.pageGate k (pagesOf r.locs)
    | _ => .go
  match pg with
  | .go =>
    if waitsAtWord r.i then
      match s.resvFor r with
      | some q => .word q.loc
      | none => .go
    else .go
  | g => g

/-- Whether the request, once it is its turn, can go on: a page on its way is waited for, at the head of the remote queue,
and so is room in the fault queue (R150, R274). -/
def State.reqMoves (s : State) (r : Req) : Bool :=
  !r.blocked &&
    match r.home, s.gate r with
    | .core k, .page p => !(s.page k p).busy || (!r.isLocal && !s.atHead k p (.req r.cx r.tid))
    | .core k, .fault p => s.fqRoom (dieOf k) r.part r.va.toNat 4 (k * 16 + p)
    | .disp _, .go => (match s.tgWaits r with | some p => s.planMoves (.req r.cx r.tid) r.part p | none => true)
    | _, _ => true

/-- A local context's WHY changes while its request waits. -/
def State.localWhy (s : State) (r : Req) (why : Nat) : State :=
  if r.isLocal then
    s.modCtx r.cx (fun c => if c.tid = r.tid ∧ c.state = .waiting then { c with why := why } else c)
  else s

/-- Whether the context of a request has ended: it is neither in its slot nor in a save area. -/
def State.ended (s : State) (cx : Nat) (tid : BitVec 32) : Bool :=
  let c := s.ctx cx
  !(c.tid == tid && decide (c.state ≠ .free ∧ c.state ≠ .exit)) && !s.keptCtx cx tid

/-- Performs a request and sends its reply, if it has one. One of a context that has been killed is performed as issued, and
a ticket that it takes is withdrawn (R69, R226); a group request makes its member or its arrival all the same (DESIGN CHOICE,
log 82). -/
def State.perform (s : State) (r : Req) : State :=
  let (s1, rep) := performAt r s
  let s2 := if s1.ended r.cx r.tid then s1.withdrawTickets r.cx r.tid else s1
  match rep with
  | some rep => s2.send (.reply rep)
  | none => s2.localWhy r (whyAtHome r.i)

/-- The request at a position leaves the messages, and the head of its home's remote queue if it stood there (R150). -/
def State.takeReq (s : State) (k : Nat) (r : Req) : State :=
  let who : Requester := .req r.cx r.tid
  match r.home with
  | .core c => if (s.core c).headOf who then (s.dropMsg k).modCore c (fun k => { k with head := none }) else s.dropMsg k
  | .disp _ => (s.dropMsg k).unhead who
  | _ => s.dropMsg k

/-- A request that waits for its page stands before every later one of its home; a remote one is at the head of the
remote queue (R150). -/
def State.toFront (s : State) (k page : Nat) (r : Req) : State :=
  let s1 : State := { s with msgs := .req r :: dropAt k s.msgs }
  match r.home with
  | .core c => if r.isLocal then s1 else s1.takeHead c page (.req r.cx r.tid)
  | _ => s1

/-- The request at a position meets a page without a frame: a fault is queued for its address on that page, and the request
stays (R149, R150). -/
def State.reqFault (s : State) (k : Nat) (r : Req) (core page : Nat) : State :=
  match s.pageFault core page r.part (r.addrOf (onPage core page)) (reqKind r.i) (.req r.cx r.tid) with
  | some s1 => s1.toFront k page { r with blocked := true }
  | none => s

/-- A request that is performed, unless its dispatcher must wait for what it reads: a fault of that is queued, and the
request stays (R274, R334). -/
def State.performOrWait (s : State) (k : Nat) (r : Req) : State :=
  match s.tgWaits r with
  | some p =>
    let s1 := s.devWait (.req r.cx r.tid) r.home.die r.part p
    if s1.faulted (.req r.cx r.tid) then { s1 with msgs := s1.msgs.set k (.req { r with blocked := true }) } else s1
  | none => (s.takeReq k r).perform r

/-- A home handles the request at a position of the messages. -/
def State.arrive (s : State) (k : Nat) (r : Req) : State :=
  if r.blocked then s
  else
    match s.gate r, r.home with
    | .go, _ => s.performOrWait k r
    | .prot p, .core c => (s.takeReq k r).send (.reply (r.failAt causeProtection (r.addrOf (onPage c p))))
    | .lost p, .core c => (s.takeReq k r).send (.reply (r.failAt causeData (r.addrOf (onPage c p))))
    | .fault p, .core c => s.reqFault k r c p
    | .page p, .core c => ((s.startRefill c p).toFront k p r).localWhy r 2
    | .word l, _ => (s.takeReq k r).queueAt l (.req r)
    | _, _ => s

/-- The request at `State.sel` is handled by its home core (R146, R149, R150). -/
def execRemoteRequest (s : State) : Out :=
  match s.msgs[s.sel]? with
  | some (.req r) => (match r.home with | .core _ => .next (s.arrive s.sel r) | _ => .next s)
  | _ => .next s

/-- The request at `State.sel` is handled by its home slice, or by a group unit, dispatcher or network engine (R145,
R183, R247, R326, R376). -/
def execHomeSliceAccess (s : State) : Out :=
  match s.msgs[s.sel]? with
  | some (.req r) => (match r.home with | .core _ => .next s | _ => .next (s.arrive s.sel r))
  | _ => .next s

-- Reserved words

/-- The queue of a word without a holder takes another head. -/
def State.setQueue (s : State) (loc : Nat) (t : List QItem) : State :=
  { s with resvq := (s.resvq.map (fun q => if q.loc = loc then { q with queue := t } else q)).filter ResvQ.live }

/-- A reservation is granted: the new holder's record takes over those that wait behind it. -/
def State.grantTo (s : State) (loc : Nat) (r : Req) (t : List QItem) : State :=
  let s0 : State := { s with resvq := s.resvq.filter (fun q => decide (q.loc ≠ loc)) }
  let s1 := s0.perform r
  if s1.resvq.length = s0.resvq.length then
    -- the context has ended: the word passes on
    if t.isEmpty then s1 else { s1 with resvq := s1.resvq ++ [{ loc := loc, holder := none, queue := t }] }
  else { s1 with resvq := s1.resvq.map (fun q => if q.queue.isEmpty ∧ q.heldBy r then { q with queue := t } else q) }

/-- The record that the release of a request still waits for (R186). -/
def State.relDrain (s : State) (r : Req) : Option Rec :=
  if !r.lanes.isEmpty then s.lanesDrain r
  else
    match r.sig, r.locs with
    | some _, l :: _ => if isGlobalLoc l then (s.toDrain (coreOf r.cx) (l / 64)).filter s.undrained else none
    | _, _ => none

/-- Whether a drain of a record is on its way. -/
def State.drainSent (s : State) (e : Rec) : Bool :=
  s.msgs.any fun m => match m with | .drain core g _ _ => core == e.core && g == e.sig | _ => false

/-- What waits first at a word is performed (R209); a request whose page has gone meanwhile arrives again. -/
def State.grantItem (s : State) (loc : Nat) (i : QItem) (t : List QItem) : State :=
  let free : State := { s with resvq := s.resvq.filter (fun q => decide (q.loc ≠ loc)) }
  match i with
  | .write _ c _ =>
    match free.resvOn (c.map Prod.fst) with
    | some q => (s.setQueue loc t).requeueAt q.loc i
    | none => (s.setQueue loc t).store c
  | .req r =>
    match free.gate r with
    | .go =>
      match s.relDrain r, r.i with
      | some e, _ => s.askDrain ((s.partOf e.core).getD 0) .none e
      | none, .resv _ _ _ _ _ => s.grantTo loc r t
      | none, _ => (s.setQueue loc t).perform r
    | .word l => (s.setQueue loc t).queueAt l (.req r)
    | _ => { s.setQueue loc t with msgs := .req r :: (s.setQueue loc t).msgs }

/-- The word whose queue `State.sel` names passes to what waits first (R209, R244) (log 29). -/
def execReservationGrant (s : State) : Out :=
  match s.resvq.find? (fun q => q.loc == s.sel && q.holder.isNone) with
  | some q => (match q.queue with | i :: t => .next (s.grantItem q.loc i t) | [] => .next s)
  | none => .next s

/-- Ticks after which a home breaks a reservation (R244). -/
def resvTicks : Nat := 16384

/-- Whether a reservation has been held for 16,384 ticks. -/
def State.resvOver (s : State) (q : ResvQ) : Bool :=
  match q.holder with
  | some (_, _, _, t) => decide (t + resvTicks ≤ s.now)
  | none => false

/-- The reservation of the word that `State.sel` names is broken (R244): the word passes on unchanged. -/
def execReservationBreak (s : State) : Out := .next (s.passWord (fun q => q.loc == s.sel && s.resvOver q))

end Sys2Proof.Machine
end

