-- ==== Sys2Proof/Machine/Teardown.lean ====
section
/-! DEFINITION. TERM (R275, R296, R329–R331) and the hand-over of a cluster (R331). -/

namespace Sys2Proof.Machine

-- A cluster returns to its reset state (R331)

/-- A core after a hand-over: its slots' generation counts are kept (R67). -/
def Core.handedOver (k : Core) : Core := { Core.reset with gens := k.gens }

/-- A quad after a hand-over: its clock, operating point and power state go on (log 27). -/
def Quad.handedOver (q : Quad) : Quad :=
  { Quad.reset with
    op := q.op, move := q.move, cyc := q.cyc, acc := q.acc, edge := q.edge, half := q.half, stretch := q.stretch
    wdNext := q.wdNext, wdLeft := q.wdLeft, resp := q.resp, respNew := q.respNew, ceil := q.ceil, wd := q.wd }

/-- Whether an object's home is a core of a cluster. -/
def homedIn (cluster line : Nat) : Bool :=
  match lineHome line with
  | .core k => clusterOf k == cluster
  | _ => false

/-- The scratchpads of a cluster read 0. -/
def State.clearScratch (s : State) (cluster : Nat) : State :=
  { s with mem := memClear s.mem (scratchLoc (cluster * 64) 0) (64 * 65536) }

/-- The TID under which an access completes as issued once its context's cluster has been handed over: no context has it, so
that no context of the new partition takes its answer (R331) (log 27). -/
def goneTid : BitVec 32 := 0xFFFFFFFD

/-- A request of a context of a cluster that is handed over. -/
def Req.orphan (cluster : Nat) (r : Req) : Req :=
  if clusterOf (coreOf r.cx) = cluster then { r with tid := goneTid } else r

/-- Whether a request's home is a core of a cluster. -/
def Req.homedIn (cluster : Nat) (r : Req) : Bool :=
  match r.home with
  | .core k => clusterOf k == cluster
  | _ => false

/-- What is left of a request when a cluster is handed over (R331), if anything: nothing performs what its home in the
cluster would have done, so that the new partition's scratchpad is as R331 leaves it, and a context elsewhere that waits
for it takes the protection trap of an address outside its partition (R20, R142) (log 27). -/
def Req.handOver (cluster : Nat) (r : Req) (go : Req → List Msg) : List Msg :=
  let mine : Bool := clusterOf (coreOf r.cx) == cluster
  if !r.homedIn cluster then (if mine && r.blocked then [] else go (r.orphan cluster))
  else if mine then []
  else [.reply (r.fail causeProtection)]

/-- What becomes of a drain when a cluster is handed over: it is made all the same. -/
def DrainFor.handOver (cluster : Nat) (d : DrainFor) (go : DrainFor → Msg) : List Msg :=
  match d with
  | .ctx cx _ _ => [go (if clusterOf (coreOf cx) = cluster then .none else d)]
  | .req r => (if r.homedIn cluster then [go .none] else []) ++ r.handOver cluster (fun r => [go (.req r)])
  | .none => [go .none]

/-- Whether a location lies in a scratchpad of a cluster. -/
def inClusterPad (cluster loc : Nat) : Bool :=
  match homeAt loc with
  | .core k => clusterOf k == cluster
  | _ => false

/-- What becomes of a message when a cluster is handed over (R331): accesses complete as issued but for those of its
scratchpads, what is for a context of the cluster is dropped, and whoever asks for a slot of it is refused (R14, R64)
(log 27). -/
def handMsg (cluster : Nat) (m : Msg) : List Msg :=
  let core (k : Nat) : Bool := clusterOf k == cluster
  let mine (cx : Nat) : Bool := core (coreOf cx)
  match m with
  | .req r => r.handOver cluster (fun r => [.req r])
  | .reply r => if mine r.cx then [] else [m]
  | .retry cx _ | .answer (.ctx cx _) _ _ | .soWake cx _ _ _ _ _ _ | .delegated cx _ _ _ _ _ _ _ | .group cx _ _ _ _ _
  | .migAbort cx _ | .walk (.ctx cx _) _ _ _ _ _ | .walk (.tensor cx _) _ _ _ _ _ => if mine cx then [] else [m]
  | .spawn x => if core x.core then [.answer x.from_ x.core 3] else [m]
  | .mig src k tid _ => if mine src then [] else if core k then [.migAns src k none tid] else [m]
  | .migAns src _ slot tid => if mine src then (slot.map (fun k => Msg.migAbort k tid)).toList else [m]
  | .migCommit cx _ => if mine cx then [] else [m]
  | .notice _ place tid => if !(0xFFFFFFFE#32 ≤ tid) && mine (ctxOfPlace place) then [] else [m]
  | .drain k g p d => d.handOver cluster (.drain k g p)
  | .drainAck d => d.handOver cluster .drainAck
  | .unitWrite k p b cells sc => [.unitWrite k p b (cells.filter (fun c => !inClusterPad cluster c.1)) sc]
  | _ => [m]

/-- What waits at a reserved word, when a cluster is handed over. -/
def QItem.orphan (cluster : Nat) (i : QItem) : QItem :=
  match i with
  | .req r => .req (r.orphan cluster)
  | w => w

/-- What the requests that wait at the reserved words of a cluster's scratchpads leave behind. -/
def State.padWaits (s : State) (cluster : Nat) : List Msg :=
  ((s.resvq.filter (fun q => inClusterPad cluster q.loc)).map fun q =>
    (q.queue.map fun i => match i with | .req r => r.handOver cluster (fun r => [.req r]) | .write _ _ _ => []).flatten).flatten

/-- Whether a fault-queue entry's requester acts for a context of a cluster. -/
def State.requesterIn (s : State) (cluster : Nat) (w : Requester) : Bool :=
  match w with
  | .ctx cx _ | .req cx _ | .tensor cx _ => clusterOf (coreOf cx) == cluster
  | .cmd id => s.cmds.any (fun c => c.id == id && clusterOf c.core == cluster)
  | _ => false

/-- Nothing of the contexts of a cluster is left that a context of the new partition could take or wait behind (R331).
DESIGN CHOICE: a hand-over without TERM ends no member of a group, and no launch counts the contexts that it frees
(log 27). -/
def State.dropContexts (s : State) (cluster : Nat) : State :=
  let mine (cx : Nat) : Bool := clusterOf (coreOf cx) == cluster
  { s.leaveEntries (s.requesterIn cluster) with
    msgs := (s.msgs.map (handMsg cluster)).flatten ++ s.padWaits cluster
    resvq := (s.resvq.filter (fun q => !inClusterPad cluster q.loc)).map
      (fun q => { q with queue := q.queue.map (QItem.orphan cluster) })
    ghosts := s.ghosts.filter (fun e => !mine e.1)
    walked := s.walked.filter (fun e => !s.requesterIn cluster e.1)
    watches := s.watches.filter (fun w => !mine w.cx) }

/-- Every core, quad and ring of a cluster returns to its reset state (R331). -/
def State.resetCluster (s0 : State) (cluster : Nat) : State :=
  let mine (core : Nat) : Bool := clusterOf core == cluster
  let s := s0.dropContexts cluster
  ({ s with
      ctxs := s.ctxs.filter (fun e => !mine (coreOf e.1))
      cores := s.cores.map (fun e => if mine e.1 then (e.1, e.2.handedOver) else e)
      quads := s.quads.map (fun e => if mine (e.1 * 4) then (e.1, e.2.handedOver) else e)
      clusters := s.clusters.map (fun e => if e.1 = cluster then (e.1, { e.2 with tlb := [] }) else e)
      cmds := s.cmds.filter (fun c => !mine c.core)
      objs := s.objs.filter (fun e => !homedIn cluster e.1) } : State).clearScratch cluster

/-- Firmware gives a cluster to a partition, one of 1,024 (R17, R20, R331): its L1s are swept first. -/
def execClusterHandover (cluster : Nat) (part : Option Nat) (s : State) : Out :=
  if 1600 ≤ cluster ∨ (s.cluster cluster).part = part ∨ 1024 ≤ part.getD 0 then .next s
  else
    let s1 := (s.listedCores.filter (fun k => clusterOf k == cluster)).foldl (fun s k => s.invalidateAll k) s
    .next ((s1.resetCluster cluster).modCluster cluster (fun c => { c with part := part }))

-- TERM

/-- Whether a message of a partition ends with it: every one but the accesses and drains that complete as issued (R69). -/
def State.diesWith (s : State) (part : Nat) (m : Msg) : Bool :=
  match m with
  | .req r => r.part == part && r.blocked
  | .drain _ _ _ _ | .drainAck (.req _) | .unitWrite _ _ _ _ _ => false
  | .node p _ _ | .nodeDone p _ _ _ _ | .task _ p _ _ _ _ | .status _ p _ _ _ _ | .ring p _ _ _ | .timerWake _ p _ _
  | .pkt _ p _ _ => p == part
  | .answer (.disp l _) _ _ | .spawnRetry (.disp l _) _ _ => s.launches.any (fun x => x.id == l && x.part == part)
  | .answer (.net _ p _) _ _ | .spawnRetry (.net _ p _) _ _ => p == part
  | m => s.msgPart m == some part

/-- Whether an access of a partition is still to be performed, or a done word to be written (R330). -/
def State.termWaits (s : State) (part : Nat) : Bool :=
  s.msgs.any (fun m =>
      match m with
      | .req r | .drainAck (.req r) | .drain _ _ _ (.req r) => r.part == part
      | .unitWrite _ p _ _ _ => p == part
      | _ => false)
    || s.resvq.any (fun q => q.queue.any fun i =>
      match i with | .req r => r.part == part | .write k _ _ => k.any (fun k => s.partOf k == some part))
    || s.quads.any (fun e => s.partOf (e.1 * 4) == some part && s.opRuns e.2)
    || s.launches.any (fun l => l.part == part && decide (l.st = .ending) && !s.faulted (.launch l.id))

/-- A launch that TERM ends (R325, R330): its done word, of CODE 2 and TSTAT, is written, or waits for what stands before
that write. A launch whose done word is not written is RUNNING still (R326). -/
def State.termLaunch (tstat : Nat) (s : State) (l : Launch) : State :=
  let l1 : Launch :=
    { l with code := 2, tstat := tstat, st := .ending, todo := [], unsent := [], scr := [], flight := 0, live := [] }
  ((s.unitDone (.launch l.id)).modLaunch l.id (fun _ => l1)).launchDone l1

/-- Every launch of a partition ends, those that were accepted since its TERM began too (R330). -/
def State.termLaunches (s : State) (part tstat : Nat) : State :=
  (s.launches.filter (fun l => l.part == part)).foldl (State.termLaunch tstat) s

/-- Whether a launch of a partition has been accepted since its TERM began. -/
def State.termNew (s : State) (part : Nat) : Bool :=
  s.launches.any (fun l => l.part == part && decide (l.st ≠ .ending))

/-- A done word whose page is not there when the partition's pages go is not written (R326, R330). -/
def State.termLost (s : State) (l : Launch) : State := (s.logErr l.die 8 l.part l.doneW.toNat 0).launchOver l

/-- The `lnch` requests of a partition's contexts that are on their way are dropped with its status (R329). -/
def termLnch (part tstat : Nat) (m : Msg) : Msg :=
  match m with
  | .req r =>
    match r.i with
    | .lnch _ _ => if r.part = part ∧ r.vals = [] then .req { r with vals := [2, tstat] } else m
    | _ => m
  | _ => m

/-- Graphs, timers, endpoints and groups of a partition go (R253, R330, R386), and so does what its loads left behind: its
global symbols, layouts and allotments (log 53); its reductions that have failed wait for no contribution any more
(log 43). -/
def State.dropUnits (s : State) (part : Nat) : State :=
  let mine := s.groups.filter (fun g => g.part == part)
  let s1 : State :=
    { s with
      graphs := s.graphs.filter (fun g => g.part != part)
      globals := s.globals.filter (fun e => e.1 != part)
      allots := s.allots.filter (fun e => e.1 / 4 != part)
      shapes := s.shapes.filter (fun e => e.1 / 2 ^ 64 != part)
      timers := s.timers.filter (fun t => t.part != part)
      reds := s.reds.filter (fun r => !(r.part == part && r.failed.isSome))
      eps := s.eps.filter (fun e => e.part != part)
      launches := s.launches.map (fun l => if l.part = part then { l with node := none } else l)
      groups := s.groups.filter (fun g => g.part != part) }
  mine.foldl (fun s g => s.modDie g.die (fun d => { d with gens := tset g.idx ((tget 0 g.idx d.gens + 1) % 2 ^ 15) d.gens }))
    s1

/-- The fault-queue entries of a partition end with it (R275). -/
def State.dropFaults (s : State) (part : Nat) : State :=
  { s with dies := s.dies.map (fun e => (e.1, { e.2 with fq := e.2.fq.filter (fun f => decide (f.2.part ≠ part)) })) }

/-- A LAUNCH of a partition that waits in the fault queue completes with status 5 (log 24). -/
def State.endLaunchCmds (s : State) (part : Nat) : State :=
  let f (r : CmdRec) : CmdRec :=
    if r.status.isNone ∧ cmdInstr r.cmd = .launch ∧ cmdPart r.cmd = part then { r with status := some 5 } else r
  { s with dies := s.dies.map (fun e => (e.1, { e.2 with cmds := e.2.cmds.map f })) }

/-- Every context of a partition ends with reason 3 (R68, R330). -/
def State.endAll (s : State) (part : Nat) : State :=
  ((s.ctxsOf part).filter (fun cx => decide ((s.ctx cx).state ≠ .free))).foldl (fun s cx => s.endCtx cx 3) s

/-- The messages that end with a partition go, and what walks have found for its units. -/
def State.dropMsgs (s : State) (part : Nat) : State :=
  { s with msgs := s.msgs.filter (fun m => !s.diesWith part m), walked := s.walked.filter (fun e => e.2.1 != part) }

/-- The first part of TERM: nothing of the partition begins any more, and its launches' done words are written while its
pages still stand (R330). -/
def State.termStop (s : State) (part tstat : Nat) : State :=
  let s1 := (s.endAll part).dropFaults part |>.endLaunchCmds part |>.dropUnits part
  let s2 : State :=
    { s1.dropMsgs part with
      cmds := s1.cmds.filter (fun c => c.part != part)
      watches := s1.watches.filter (fun w => decide (s1.partOfCtx w.cx ≠ some part))
      ghosts := s1.ghosts.filter (fun e => decide (s1.partOfCtx e.1 ≠ some part)) }
  let s3 : State := { s2 with msgs := s2.msgs.map (termLnch part tstat) }
  (s3.modPart part (fun p => { p with pre := .no })).termLaunches part tstat

/-- The fleeting memory of a partition is dropped and its regions are unset (R296). -/
def State.termFleet (s : State) (part : Nat) : State :=
  { s with
    tiles := s.tiles.map (fun e => if e.2.tpart = part then (e.1, { e.2 with dead := true }) else e)
    regions := s.regions.filter (fun e => decide (e.2.part ≠ some part)) }

/-- The last part of TERM (R296, R330, R331): dirty lines are written back, what is left of the partition goes, and everything
returns to its reset state. -/
def State.termEnd (s : State) (part : Nat) : State :=
  let s0 := (s.launches.filter (fun l => l.part == part)).foldl State.termLost s
  let s1 := ((((s0.sweepPass part).sweepClear part).dropUnits part).dropFaults part).dropMsgs part
  let s2 := s1.termFleet part
  let s3 : State :=
    { s2 with
      objs := s2.objs.filter (fun e => decide (e.2.part ≠ part)), kept := tdel part s2.kept
      launches := s2.launches.filter (fun l => l.part != part) }
  ((s3.clustersOf part).foldl State.resetCluster s3).modPart part (fun p => { p with pre := .no, sweeping := false })

/-- TERM (R275, R277, R330, R331): it waits for a pre-emption or a RESTORE in progress, and for the accesses that are on
their way. -/
def execTerm (s : State) : Out :=
  withCmd .term s fun r s =>
    let c := r.cmd
    let part := cmdPart c
    if bits c.a 63 8 ≠ 0 ∨ c.b ≠ 0 then s.cmdDone s.sel c 1
    else if r.stage = 0 then
      if (s.part part).pre ∈ [.stopping, .restoring] then s else (s.termStop part (bits c.a 7 0)).cmdStage s.sel c 1
    else if s.termNew part then s.termLaunches part (bits c.a 7 0)
    else if s.termWaits part then s
    else (s.termEnd part).cmdDone s.sel c 0

end Sys2Proof.Machine
end

