-- ==== Sys2Proof/Machine/Start.lean ====
section
/-! DEFINITION. Device reset and the seven start steps with their records, and firmware updates (R392–R395). -/

namespace Sys2Proof.Machine

-- Step records (R394)

/-- START of a record. -/
def recStart (w : Word) : Nat := bits w 63 32
/-- FAILS of a record. -/
def recFails (w : Word) : Nat := bits w 15 8
/-- METH of a record. -/
def recMeth (w : Word) : Nat := bits w 3 2
/-- RES of a record. -/
def recRes (w : Word) : Nat := bits w 1 0

/-- A record. -/
def recWord (start fails step meth res : Nat) : Word :=
  BitVec.ofNat 64 (start % 2 ^ 32 * 2 ^ 32 + fails % 256 * 2 ^ 8 + step % 16 * 2 ^ 4 + meth % 4 * 2 ^ 2 + res % 4)

/-- Whether a step is essential (R392). -/
def stepEssential (n : Nat) : Bool := n == 1 || n == 2 || n == 4 || n == 7
/-- Whether a step has an alternate method (R392). -/
def stepAlternate (n : Nat) : Bool := decide (n ≤ 5)

/-- FAILS and METH of a step from its previous record (R395). -/
def nextMethod (n : Nat) (rec : Word) : Nat × Nat :=
  if recRes rec = 1 then (0, recMeth rec)
  else
    let fails := min (recFails rec + 1) 255
    let meth :=
      if recMeth rec = 0 ∧ stepAlternate n then 1
      else if !stepEssential n then 2
      else if stepAlternate n then (if recMeth rec = 1 then 0 else 1)
      else 0
    (fails, meth)

/-- Whether a firmware image can be run (R393). -/
def imageRuns (f : Firmware) (alt : Bool) : Bool :=
  let i := if alt then f.second else f.first
  i.good && decide (f.min ≤ i.ver)

/-- Whether step `n` succeeds by a method, given what the physical world says of it: steps 1 and 2 also need an image
that can be run, and step 5 by its normal method needs every port to train (R392, R393). -/
def stepWorks (s : State) (i : StartInput) (n meth : Nat) : Bool :=
  i.good.getD (n - 1) false &&
    match n with
    | 1 => imageRuns s.service (decide (meth = 1))
    | 2 => imageRuns s.lantern (decide (meth = 1))
    | 5 => decide (meth = 1) || (List.range 24).all (fun k => i.trained.getD k false)
    | _ => true

/-- What a start comes to: its records so far, the methods of its steps, and whether an essential step has failed. -/
structure StartRun where
  recs   : Vector Word 7
  meths  : List Nat
  ok     : List Bool
  halted : Bool
  third  : Bool

/-- The record written before a step begins (R394): RES = 0, and a skipped step is done with. -/
def recBegun (start fails n meth : Nat) : Word := recWord start fails n meth (if meth = 2 then 1 else 0)

/-- One step of a start (R394, R395): its record is written before it begins and again when it ends. After an essential step
that fails, and after a cut in the middle of a step, the start does not go on. -/
def startStep (s : State) (i : StartInput) (start : Nat) (x : StartRun) (n : Nat) : StartRun :=
  if x.halted then x
  else
    let (fails, meth) := nextMethod n s.steps[n - 1]!
    let begun := { x with recs := x.recs.set! (n - 1) (recBegun start fails n meth), meths := x.meths ++ [meth] }
    if meth = 2 then { begun with ok := x.ok ++ [false] }
    else if i.cut = some n then { begun with halted := true }
    else
      let good := stepWorks s i n meth
      let bad := !good && stepEssential n
      { begun with
        recs := begun.recs.set! (n - 1) (recWord start fails n meth (if good then 1 else 2)), ok := x.ok ++ [good]
        halted := bad, third := bad && decide (2 ≤ fails) }

/-- The number of the next start. -/
def State.startNumber (s : State) : Nat := s.steps.toList.foldl (fun m w => max m (recStart w)) 0 + 1

/-- Runs the seven steps. -/
def State.startRun (s : State) (i : StartInput) : StartRun :=
  [1, 2, 3, 4, 5, 6, 7].foldl (startStep s i s.startNumber)
    { recs := s.steps, meths := [], ok := [], halted := false, third := false }

/-- A firmware after a start that ran through step 7 (R393): it notes the image that ran, and an update that ran raises
the minimum version. -/
def Firmware.started (f : Firmware) (alt : Bool) : Firmware :=
  let v := (if alt then f.second else f.first).ver
  { f with
    run := v, onSecond := alt
    min := if f.fresh ∧ !alt then max f.min v else f.min
    fresh := f.fresh && alt }

/-- Three port bits of a die from the list of a package's 24 ports. -/
def portBits (l : List Bool) (die : Nat) : BitVec 3 :=
  BitVec.ofNat 3 ((l.getD (die * 3) false).toNat + 2 * (l.getD (die * 3 + 1) false).toNat
    + 4 * (l.getD (die * 3 + 2) false).toNat)

/-- The dies with the port modes and links that step 5 has set (R369, R392). -/
def portDies (i : StartInput) : Tbl Die :=
  (List.range 8).map (fun d => (d, { Die.reset with mode := portBits i.modes d, up := portBits i.trained d }))

/-- The package after a start that went through (R392 step 7): the reset columns, with what the steps have set. What lies
outside the package, and the errors of its storage, go on (log 49). -/
def State.started (s : State) (i : StartInput) (x : StartRun) : State :=
  { State.reset with
    steps := x.recs
    dies := if x.ok.getD 4 false then portDies i else []
    pkg := if x.ok.getD 4 false then i.pkg % 256 else 0
    now := if x.ok.getD 5 false then i.belfry else 0
    retired := if x.ok.getD 2 false then (if x.meths.getD 2 0 = 1 then i.short else i.full) else []
    service := s.service.started (decide (x.meths.getD 0 0 = 1))
    lantern := s.lantern.started (decide (x.meths.getD 1 0 = 1))
    flaws := s.flaws, inputs := s.inputs, picks := s.picks, fresh := s.fresh, out := s.out }

/-- Power-on or package reset (R392, R395). An essential step that fails ends the start, and its third failure in a row is
reported (log 28); a start that ends before step 7 resets no error log. -/
def execDeviceReset (i : StartInput) (s : State) : Out :=
  let x := s.startRun i
  if x.halted then
    .next
      { State.reset with
        steps := x.recs, service := s.service, lantern := s.lantern, flaws := s.flaws, stopped := true
        dies := s.dies.map (fun e => (e.1, { Die.reset with elog := e.2.elog }))
        inputs := s.inputs, picks := s.picks, fresh := s.fresh
        out := if x.third then s.out ++ [.startStopped x.recs.toList] else s.out }
  else .next (s.started i x)

/-- What the physical function exposes, also of a package whose start has stopped: the seven records and the dies' error
logs (R395). -/
def State.expose (s : State) : State :=
  { s with out := s.out ++ [.exposed s.steps.toList (s.dies.map (fun e => (e.1, e.2.elog.map ErrEnt.dwords)))] }

/-- A firmware update writes the image that is not in use and verifies it (R393). The next start takes it by the normal
method; the image in use is then the second one. -/
def Firmware.update (f : Firmware) (version : Nat) (verified : Bool) : Firmware :=
  let used := if f.onSecond then f.second else f.first
  { f with first := { ver := version, good := verified }, second := used, onSecond := true, fresh := true }

/-- A firmware update (R393). -/
def execFirmwareUpdate (lantern : Bool) (version : Nat) (verified : Bool) (s : State) : Out :=
  if lantern then .next { s with lantern := s.lantern.update version verified }
  else .next { s with service := s.service.update version verified }

end Sys2Proof.Machine
end

