-- ==== Sys2Proof/Machine/Loader.lean ====
section
/-! DEFINITION. The loader (R54, R55, R144): it checks an object, lays out its scratch sections, resolves its address words,
writes its sections where firmware has chosen to place them, sets the permissions of their pages and reports the entry
addresses. -/

namespace Sys2Proof.Machine

/-- The next multiple of an alignment. -/
def roundUp (a n : Nat) : Nat := if n = 0 then a else (a + n - 1) / n * n

/-- The offset of each section in the scratch image, in table order; 0 for sections of other kinds (R144). -/
def scratchOffs (at_ : Nat) : List ObjSec → List Nat
  | [] => []
  | x :: t =>
    if x.kind = .scratch then
      let o := roundUp at_ x.align
      o :: scratchOffs (o + x.size) t
    else 0 :: scratchOffs at_ t

/-- The size of the scratch image (R144). -/
def scratchSize (at_ : Nat) : List ObjSec → Nat
  | [] => at_
  | x :: t => if x.kind = .scratch then scratchSize (roundUp at_ x.align + x.size) t else scratchSize at_ t

/-- The sections of a kind. -/
def secsOf (k : SecKind) (o : ObjImage) : List ObjSec := o.secs.filter (fun x => decide (x.kind = k))
/-- Bytes of the sections of a kind. -/
def sizeOf (k : SecKind) (o : ObjImage) : Nat := ((secsOf k o).map (·.size)).sum

/-- Whether a range lies in one window of the address map. -/
def rangeIn (w : Word → Bool) (va : Word) (n : Nat) : Bool :=
  w va && (decide (n = 0) || w (va + BitVec.ofNat 64 (n - 1))) && decide (va.toNat + n ≤ 2 ^ 64)

/-- Whether a section's own fields are in order (R43, R54, R55). -/
def secOk (x : ObjSec) : Bool :=
  decide (0 < x.align) && decide (x.align ≤ 65536) && decide (2 ^ Nat.log2 x.align = x.align)
    && (if x.kind = .fleet then x.bytes.isEmpty else decide (x.bytes.length = x.size))
    && match x.kind with
       | .text => decide (4 ≤ x.align) && decide (x.va.toNat % x.align = 0) && rangeIn inGlobal x.va x.size
       | .data => decide (x.va.toNat % x.align = 0) && rangeIn inGlobal x.va x.size
       | .scratch => true
       | .cupola => decide (x.va.toNat % x.align = 0) && rangeIn inCupola x.va x.size
           && decide (x.va.toNat % 2 ^ 26 + x.size ≤ 2 ^ 26)
       | .fleet => decide (x.va.toNat % 65536 = 0) && decide (x.va.toNat % x.align = 0) && rangeIn inFleet x.va x.size

/-- A little-endian field of an object's header. -/
def headerField (o : ObjImage) (off n : Nat) : Nat := ofBytes ((o.header.drop off).take n)

/-- Whether an object's header follows R54: its first bytes, the architecture level, the numbers of its tables' entries,
and the tables behind it. -/
def headerOk? (o : ObjImage) : Bool :=
  decide (o.header.length = 48) && decide (o.header.take 4 = [0x4E, 0x4C, 0x4F, 0x01]) && decide (headerField o 4 2 = 1)
    && decide (headerField o 6 2 = o.secs.length) && decide (headerField o 8 4 = o.syms.length)
    && decide (headerField o 12 4 = o.addrs.length) && [0x10, 0x18, 0x20, 0x28].all (fun f => decide (48 ≤ headerField o f 8))

/-- Whether a symbol's entry is in order (R44, R54): an entry is global and a multiple of 4 in a text section; a symbol
that another object defines is global here. -/
def symOk (o : ObjImage) (y : ObjSym) : Bool :=
  (!y.entry || y.glob) &&
    match y.sec with
    | some k =>
      match o.secs[k]? with
      | some x => decide (y.off ≤ x.size) && (!y.entry || (decide (x.kind = .text) && decide (y.off % 4 = 0)))
      | none => false
    | none => y.glob && !y.entry

/-- Whether an object keeps to R54 and to the sizes of R43 (log 54). -/
def objectOk (o : ObjImage) : Bool :=
  headerOk? o && o.tablesOk && o.secs.all secOk
    && decide (sizeOf .text o ≤ 2 ^ 31) && decide (sizeOf .data o ≤ 2 ^ 31) && decide (scratchSize 0 o.secs ≤ 49152)
    && decide (sizeOf .cupola o ≤ 2 ^ 26) && decide (sizeOf .fleet o ≤ 2 ^ 29)
    && o.syms.all (symOk o)
    && o.addrs.all (fun e =>
        match o.secs[e.1]? with
        | some x =>
          decide (x.kind ≠ .fleet) && decide (e.2.1 + e.2.2.1 ≤ x.size) && (e.2.2.1 == 4 || e.2.2.1 == 8)
            && decide (e.2.2.2 < o.syms.length)
        | none => false)
    && o.lays.all (fun e => decide (e.1 < 12) && decide (e.2 < 6))

/-- The final address of a section (R55, R144): a cupola section's in the range of die `low`, the lowest-numbered one of
the partition. -/
def secAddr (o : ObjImage) (low k : Nat) : Nat :=
  match o.secs[k]? with
  | some x =>
    match x.kind with
    | .scratch => 0x1000000 + (scratchOffs 0 o.secs).getD k 0
    | .cupola => 0x20000000000 + low * 2 ^ 26 + x.va.toNat % 2 ^ 26
    | _ => x.va.toNat
  | none => 0

/-- The address of a global symbol that an object of the partition loaded before defines: of two, the later one
(log 53). -/
def State.globalAddr (s : State) (part : Nat) (name : List Byte) : Option Nat :=
  (s.globals.find? (fun e => e.1 == part && e.2.1 == name)).map (·.2.2)

/-- The lowest-numbered die of a partition. -/
def State.lowDie (s : State) (part : Nat) : Nat := (s.diesOf part).headD 0

/-- The final address of symbol `n` of an object (R44, R45, R55); none when no object defines it. -/
def State.symAddr (s : State) (part : Nat) (o : ObjImage) (n : Nat) : Option Nat :=
  match o.syms[n]? with
  | some y =>
    match y.sec with
    | some k => some (secAddr o (s.lowDie part) k + y.off)
    | none => s.globalAddr part y.name
  | none => none

/-- The sum of an address word, if its symbol is defined and it fits (R54). -/
def State.addrSum (s : State) (part : Nat) (o : ObjImage) (e : Nat × Nat × Nat × Nat) : Option Nat :=
  let (k, off, n, y) := e
  match o.secs[k]?, s.symAddr part o y with
  | some x, some a =>
    let v := signExtend (ofBytes ((x.bytes.drop off).take n)) (8 * n) + (a : Int)
    if 0 ≤ v ∧ v < ((2 ^ (8 * n) : Nat) : Int) then some v.toNat else none
  | _, _ => none

/-- Bytes with `n` bytes of `v` at an offset. -/
def patch (b : List Byte) (off n v : Nat) : List Byte :=
  b.take off ++ (List.range n).map (fun i => BitVec.ofNat 8 (v >>> (8 * i))) ++ b.drop (off + n)

/-- The contents of section `k` with its address words resolved. -/
def State.secBytes (s : State) (part : Nat) (o : ObjImage) (k : Nat) : List Byte :=
  match o.secs[k]? with
  | some x =>
    o.addrs.foldl (fun b e => if e.1 = k then patch b e.2.1 e.2.2.1 ((s.addrSum part o e).getD 0) else b) x.bytes
  | none => []

/-- The scratch image: the scratch sections at their offsets, zeros between them (R144). -/
def State.scratchImage (s : State) (part : Nat) (o : ObjImage) : List Byte :=
  (o.secs.zipIdx).foldl
    (fun b e =>
      if e.1.kind = .scratch then
        b ++ List.replicate ((scratchOffs 0 o.secs).getD e.2 0 - b.length) 0 ++ s.secBytes part o e.2
      else b) []

/-- Where the loader keeps the scratch image of an object, which R55 leaves open: in global memory, at the address that it
chose for the first scratch section (DESIGN CHOICE, log 53). -/
def imageVa (o : ObjImage) : Option Word := (secsOf .scratch o).head?.map (·.va)

/-- What the loader writes: addresses with their bytes; a cupola section once per die of the partition (R55). -/
def State.loadPieces (s : State) (part : Nat) (o : ObjImage) : List (Word × List Byte) :=
  ((o.secs.zipIdx).map fun e =>
    match e.1.kind with
    | .text | .data => [(e.1.va, s.secBytes part o e.2)]
    | .cupola =>
      (s.diesOf part).map (fun d =>
        (BitVec.ofNat 64 (0x20000000000 + d * 2 ^ 26 + e.1.va.toNat % 2 ^ 26), s.secBytes part o e.2))
    | _ => []).flatten
    ++ match imageVa o with | some va => [(va, s.scratchImage part o)] | none => []

/-- The ranges that the sections of an object take: each in global memory and the Cupola, the scratch image, and the
reservations of fleeting memory (R55). -/
def State.sectionRanges (s : State) (part : Nat) (o : ObjImage) : List (Word × Nat) :=
  ((s.loadPieces part o).map fun e => (e.1, e.2.length)) ++ (secsOf .fleet o).map (fun x => (x.va, x.size))

/-- Whether two ranges have no byte in common. -/
def apart (x y : Word × Nat) : Bool :=
  decide (x.2 = 0 ∨ y.2 = 0 ∨ x.1.toNat + x.2 ≤ y.1.toNat ∨ y.1.toNat + y.2 ≤ x.1.toNat)

/-- Whether the ranges of a list are apart from one another. -/
def allApart : List (Word × Nat) → Bool
  | [] => true
  | x :: t => t.all (apart x) && allApart t

/-- What a partition has been allotted and has not been mapped yet, by kind (log 53): 0 the 4 KiB pages for its page tables;
64 KiB pages of 1 Cupola, 2 fleeting and 3 global memory. -/
def State.allotted (s : State) (part kind : Nat) : List Nat := tget [] (part * 4 + kind) s.allots

/-- Takes the first allotted page of a kind that serves. -/
def State.takeAllotted (s : State) (part kind : Nat) (ok : Nat → Bool) : Option (Nat × State) :=
  ((s.allotted part kind).find? ok).map fun p =>
    (p, { s with allots := tset (part * 4 + kind) ((s.allotted part kind).erase p) s.allots })

/-- Writes an entry of a page table (R272). -/
def State.putEntry (s : State) (pa v : Nat) : State := s.storeAt (span (globalLoc pa) 8) v

/-- Maps the 64 KiB page of an address by a leaf at level 0 (R272): tables that are missing on the way are made of allotted
pages. -/
def State.mapIn (part : Nat) (va : Word) (leaf : Nat) : (level table : Nat) → State → Option State
  | 0, table, s => some (s.putEntry (table + 8 * vaIndex va 0) leaf)
  | n + 1, table, s =>
    let pa := table + 8 * vaIndex va (n + 1)
    let e := memRead s.mem (globalLoc pa) 8
    if e % 2 = 1 then
      if e.testBit 1 ∨ pteRsv e then none else State.mapIn part va leaf n (ptePA e) s
    else
      match s.takeAllotted part 0 (fun _ => true) with
      | some (t, s1) =>
        let s2 : State := { s1 with mem := memClear s1.mem (globalLoc (t * 4096)) 4096 }
        State.mapIn part va leaf n (t * 4096) (s2.putEntry pa (t * 4096 + 1))
      | none => none

/-- Whether an allotted page serves an address: a Cupola or fleeting page lies in the die's range that its offset names
(R272). -/
def allotServes (va : Word) (p : Nat) : Bool := leafOk va (p * 65536) 16

/-- A page of a partition is mapped, if it is not, with a page that the partition has been allotted; none when there is none
(R55). DESIGN CHOICE: its entry has W = 1 and X = 0, which stay for the ranges whose permissions R55 does not give: the
Cupola, fleeting memory and the scratch image (log 53). -/
def State.mapPage (s : State) (part : Nat) (va : Word) : Option State :=
  match s.walk part va, (s.part part).root with
  | .leaf _, _ => some s
  | _, none => none
  | _, some r =>
    match s.takeAllotted part (winCode va) (allotServes va) with
    | some (p, s1) => State.mapIn part va (p * 65536 + 7) 4 r s1
    | none => none

/-- The pages of ranges are mapped. -/
def State.mapAll (s : State) (part : Nat) : List (Word × Nat) → Option State
  | [] => some s
  | (va, _) :: t => (s.mapPage part va).bind fun s1 => s1.mapAll part t

/-- Where the bytes of a range lie, or none when a page of it is not mapped for the partition. -/
def State.mapped (s : State) (part : Nat) : List (Word × Nat) → Option (List Nat)
  | [] => some []
  | (va, n) :: t =>
    match s.walk part va, s.mapped part t with
    | .leaf e, some l => some (bytesOf (tlbLoc va e) n ++ l)
    | _, _ => none

/-- The pieces of an object's ranges, which are to be mapped. -/
def State.loadRanges (s : State) (part : Nat) (o : ObjImage) : List (Word × Nat) :=
  ((s.sectionRanges part o).map (fun e => piecesOf e.1 e.2)).flatten

/-- The address of the leaf entry that maps an address. -/
def leafEntry (m : Memory) (va : Word) : (fuel level table : Nat) → Option Nat
  | 0, _, _ => none
  | n + 1, level, table =>
    let pa := table + 8 * vaIndex va level
    let e := memRead m (globalLoc pa) 8
    if e % 2 = 0 then none
    else if e.testBit 1 then some pa
    else leafEntry m va n (level - 1) (ptePA e)

/-- The leaf entries that map the pages of sections of a kind. -/
def State.leavesOf (s : State) (part : Nat) (o : ObjImage) (k : SecKind) : List Nat :=
  match (s.part part).root with
  | some r =>
    (((secsOf k o).map (fun x => piecesOf x.va x.size)).flatten.filterMap (fun e => leafEntry s.mem e.1 5 4 r)).eraseDups
  | none => []

/-- Whether the loader's choice of addresses is one that it can make (R55): no two sections take the same byte, text and
data share no page, and the scratch image lies in the global window (log 53). -/
def State.placesOk (s : State) (part : Nat) (o : ObjImage) : Bool :=
  allApart (s.sectionRanges part o)
    && (s.leavesOf part o .text).all (fun e => !(s.leavesOf part o .data).contains e)
    && (match imageVa o with | some va => rangeIn inGlobal va (scratchSize 0 o.secs) | none => true)

/-- Sets W and X of the leaf that maps an address, and drops the cached translations of it (R55, R272). -/
def State.setPerm (s : State) (part : Nat) (va : Word) (w x : Bool) : State :=
  match (s.part part).root with
  | some r =>
    match leafEntry s.mem va 5 4 r with
    | some pa =>
      let b := (memGet s.mem (globalLoc pa)).toNat
      let v := b % 4 + b / 16 * 16 + w.toNat * 4 + x.toNat * 8
      (s.store [(globalLoc pa, BitVec.ofNat 8 v)]).tlbShoot part (some va) (fun _ => true) (fun _ => true)
    | none => s
  | none => s

/-- The permissions of a section's pages (R55). -/
def State.setPerms (s : State) (part : Nat) (o : ObjImage) (x : ObjSec) : State :=
  match x.kind with
  | .text => (piecesOf x.va x.size).foldl (fun s e => s.setPerm part e.1 o.textWritable true) s
  | .data => (piecesOf x.va x.size).foldl (fun s e => s.setPerm part e.1 true false) s
  | _ => s

/-- Writes bytes at an address of a partition. -/
def State.loadBytes (s : State) (part : Nat) (va : Word) (b : List Byte) : State :=
  match s.mapped part (piecesOf va b.length) with
  | some l => s.store (cellsOfBytes l b)
  | none => s

/-- The final addresses of the entries. -/
def State.entryAddrs (s : State) (part : Nat) (o : ObjImage) : List Word :=
  ((o.syms.zipIdx).filter (fun e => e.1.entry)).map (fun e => BitVec.ofNat 64 ((s.symAddr part o e.2).getD 0))

/-- The global symbols that an object defines, with their addresses (R44, R45). -/
def State.exports (s : State) (part : Nat) (o : ObjImage) : List (Nat × List Byte × Nat) :=
  (o.syms.zipIdx).filterMap fun e =>
    if e.1.glob && e.1.sec.isSome then (s.symAddr part o e.2).map (fun a => (part, e.1.name, a)) else none

/-- What the loader does with an object that it accepts, its pages being mapped (R55): it keeps the layouts of the scratch
pages with the image that a launch names (R46, R152), and the global symbols for later objects (R45). -/
def State.placeObject (s : State) (part : Nat) (o : ObjImage) : State :=
  let s1 := o.secs.foldl (fun s x => s.setPerms part o x) s
  let s2 := (s.loadPieces part o).foldl (fun s e => s.loadBytes part e.1 e.2) s1
  let s3 : State := match imageVa o with
    | some va => { s2 with shapes := tset (part * 2 ^ 64 + va.toNat) o.lays s2.shapes }
    | none => s2
  { s3 with globals := s.exports part o ++ s3.globals, out := s3.out ++ [.loaded part (s.entryAddrs part o)] }

/-- Whether the loader accepts an object whose pages are mapped (R54, R55). -/
def State.loadable (s : State) (part : Nat) (o : ObjImage) : Bool :=
  objectOk o && s.placesOk part o && o.addrs.all (fun e => (s.addrSum part o e).isSome)
    && (s.mapped part (s.loadRanges part o)).isSome

/-- The loader places an object for a partition, mapping the pages of its sections, or refuses it (R55). -/
def execLoadObject (part : Nat) (o : ObjImage) (s : State) : Out :=
  let refuse : Out := .next { s with out := s.out ++ [.refusedLoad part] }
  match (if objectOk o then s.mapAll part (s.loadRanges part o) else none) with
  | some s1 => if s1.loadable part o then .next (s1.placeObject part o) else refuse
  | none => refuse

end Sys2Proof.Machine
end

