-- ==== Sys2Proof/Machine/Scalar.lean ====
section
/-! DEFINITION. Integer instructions (R88–R94). -/

namespace Sys2Proof.Machine

/-- A division (R94): divide by zero traps and leaves g[d] unchanged. -/
def divide (f : Word → Word → Word) (d a b : GReg) (s : State) : Out :=
  if s.me.gr b = 0 then trap causeDivZero 0 s
  else retire (fun c => c.setG d (f (c.gr a) (c.gr b))) s

/-- `add` (R88, R89). -/
def execAdd (d a b : GReg) (s : State) : Out :=
  retire (fun c => c.setG d (c.gr a + c.gr b)) s

/-- `sub` (R88, R89). -/
def execSub (d a b : GReg) (s : State) : Out :=
  retire (fun c => c.setG d (c.gr a - c.gr b)) s

/-- `and` (R89). -/
def execAnd (d a b : GReg) (s : State) : Out :=
  retire (fun c => c.setG d (c.gr a &&& c.gr b)) s

/-- `or` (R89). -/
def execOr (d a b : GReg) (s : State) : Out :=
  retire (fun c => c.setG d (c.gr a ||| c.gr b)) s

/-- `xor` (R89). -/
def execXor (d a b : GReg) (s : State) : Out :=
  retire (fun c => c.setG d (c.gr a ^^^ c.gr b)) s

/-- `shl` (R89). -/
def execShl (d a b : GReg) (s : State) : Out :=
  retire (fun c => c.setG d (c.gr a <<< shcnt (c.gr b))) s

/-- `shr` (R89). -/
def execShr (d a b : GReg) (s : State) : Out :=
  retire (fun c => c.setG d (c.gr a >>> shcnt (c.gr b))) s

/-- `sar` (R89). -/
def execSar (d a b : GReg) (s : State) : Out :=
  retire (fun c => c.setG d ((c.gr a).sshiftRight (shcnt (c.gr b)))) s

/-- `rol` (R89). -/
def execRol (d a b : GReg) (s : State) : Out :=
  retire (fun c => c.setG d (rolW (c.gr a) (shcnt (c.gr b)))) s

/-- `min` (R89). -/
def execMin (d a b : GReg) (s : State) : Out :=
  retire (fun c => c.setG d (minW (c.gr a) (c.gr b))) s

/-- `max` (R89). -/
def execMax (d a b : GReg) (s : State) : Out :=
  retire (fun c => c.setG d (maxW (c.gr a) (c.gr b))) s

/-- `minn` (R89). -/
def execMinn (d a b : GReg) (s : State) : Out :=
  retire (fun c => c.setG d (minnW (c.gr a) (c.gr b))) s

/-- `maxn` (R89). -/
def execMaxn (d a b : GReg) (s : State) : Out :=
  retire (fun c => c.setG d (maxnW (c.gr a) (c.gr b))) s

/-- `clz` (R89). -/
def execClz (d a : GReg) (s : State) : Out :=
  retire (fun c => c.setG d (clzW (c.gr a))) s

/-- `ctz` (R89). -/
def execCtz (d a : GReg) (s : State) : Out :=
  retire (fun c => c.setG d (ctzW (c.gr a))) s

/-- `pop` (R89). -/
def execPop (d a : GReg) (s : State) : Out :=
  retire (fun c => c.setG d (popW (c.gr a))) s

/-- `bfx`, register form (R90). -/
def execBfx (d a b : GReg) (s : State) : Out :=
  retire (fun c => c.setG d (bfxW (c.gr a) (fieldLo (c.gr b)) (fieldW (c.gr b)))) s

/-- `bfi`, register form (R90). -/
def execBfi (d a b : GReg) (s : State) : Out :=
  retire (fun c => c.setG d (bfiW (c.gr d) (c.gr a) (fieldLo (c.gr b)) (fieldW (c.gr b)))) s

/-- `sel` (R89). -/
def execSel (d a b : GReg) (q : Reg8) (s : State) : Out :=
  retire (fun c => c.setG d (if c.pr q then c.gr a else c.gr b)) s

/-- `addi` (R91). -/
def execAddi (d a : GReg) (i : BitVec 18) (s : State) : Out :=
  retire (fun c => c.setG d (c.gr a + sext i)) s

/-- `andi` (R91). -/
def execAndi (d a : GReg) (i : BitVec 16) (s : State) : Out :=
  retire (fun c => c.setG d (c.gr a &&& zext i)) s

/-- `ori` (R91). -/
def execOri (d a : GReg) (i : BitVec 16) (s : State) : Out :=
  retire (fun c => c.setG d (c.gr a ||| zext i)) s

/-- `xori` (R91). -/
def execXori (d a : GReg) (i : BitVec 16) (s : State) : Out :=
  retire (fun c => c.setG d (c.gr a ^^^ zext i)) s

/-- `shli` (R91). -/
def execShli (d a : GReg) (n : BitVec 6) (s : State) : Out :=
  retire (fun c => c.setG d (c.gr a <<< n.toNat)) s

/-- `shri` (R91). -/
def execShri (d a : GReg) (n : BitVec 6) (s : State) : Out :=
  retire (fun c => c.setG d (c.gr a >>> n.toNat)) s

/-- `sari` (R91). -/
def execSari (d a : GReg) (n : BitVec 6) (s : State) : Out :=
  retire (fun c => c.setG d ((c.gr a).sshiftRight n.toNat)) s

/-- `bfx`, immediate form (R90, R91). -/
def execBfxImm (d a : GReg) (l w : BitVec 6) (s : State) : Out :=
  retire (fun c => c.setG d (bfxW (c.gr a) l.toNat (w.toNat + 1))) s

/-- `bfi`, immediate form (R90, R91). -/
def execBfiImm (d a : GReg) (l w : BitVec 6) (s : State) : Out :=
  retire (fun c => c.setG d (bfiW (c.gr d) (c.gr a) l.toNat (w.toNat + 1))) s

/-- `lui` (R92). -/
def execLui (d : GReg) (i : BitVec 22) (s : State) : Out :=
  retire (fun c => c.setG d (sext i <<< 18)) s

/-- `adpc` (R92). -/
def execAdpc (d : GReg) (i : BitVec 22) (s : State) : Out :=
  retire (fun c => c.setG d (c.pc + offWords i)) s

/-- `cmp` (R93). -/
def execCmp (k : Cond) (d : Reg8) (a b : GReg) (s : State) : Out :=
  retire (fun c => c.setP d (condHolds k (c.gr a) (c.gr b))) s

/-- `cmpi` (R93). -/
def execCmpi (k : Cond) (d : Reg8) (a : GReg) (i : BitVec 15) (s : State) : Out :=
  retire (fun c => c.setP d (condHolds k (c.gr a) (sext i))) s

/-- `mul` (R94). -/
def execMul (d a b : GReg) (s : State) : Out :=
  retire (fun c => c.setG d (c.gr a * c.gr b)) s

/-- `mulh` (R94). -/
def execMulh (d a b : GReg) (s : State) : Out :=
  retire (fun c => c.setG d (mulhW (c.gr a) (c.gr b))) s

/-- `mulhn` (R94). -/
def execMulhn (d a b : GReg) (s : State) : Out :=
  retire (fun c => c.setG d (mulhnW (c.gr a) (c.gr b))) s

/-- `div` (R94). -/
def execDiv (d a b : GReg) (s : State) : Out :=
  divide divW d a b s

/-- `divn` (R94). -/
def execDivn (d a b : GReg) (s : State) : Out :=
  divide divnW d a b s

/-- `rem` (R94). -/
def execRem (d a b : GReg) (s : State) : Out :=
  divide remW d a b s

/-- `remn` (R94). -/
def execRemn (d a b : GReg) (s : State) : Out :=
  divide remnW d a b s

end Sys2Proof.Machine
end

