-- ==== Sys2Proof/Machine/Dispatch.lean ====
section
/-! DEFINITION. The meaning of every instruction, event and command: one arm per row of the opcode table. -/

namespace Sys2Proof.Machine

/-- What one instruction, event or command does. -/
def exec (i : Instr) (s : State) : Host.Outcome State Fault Refusal :=
  match i with
  | .add d a b => Sys2Proof.Machine.execAdd d a b s
  | .sub d a b => Sys2Proof.Machine.execSub d a b s
  | .and d a b => Sys2Proof.Machine.execAnd d a b s
  | .or d a b => Sys2Proof.Machine.execOr d a b s
  | .xor d a b => Sys2Proof.Machine.execXor d a b s
  | .shl d a b => Sys2Proof.Machine.execShl d a b s
  | .shr d a b => Sys2Proof.Machine.execShr d a b s
  | .sar d a b => Sys2Proof.Machine.execSar d a b s
  | .rol d a b => Sys2Proof.Machine.execRol d a b s
  | .min d a b => Sys2Proof.Machine.execMin d a b s
  | .max d a b => Sys2Proof.Machine.execMax d a b s
  | .minn d a b => Sys2Proof.Machine.execMinn d a b s
  | .maxn d a b => Sys2Proof.Machine.execMaxn d a b s
  | .clz d a => Sys2Proof.Machine.execClz d a s
  | .ctz d a => Sys2Proof.Machine.execCtz d a s
  | .pop d a => Sys2Proof.Machine.execPop d a s
  | .bfx d a b => Sys2Proof.Machine.execBfx d a b s
  | .bfi d a b => Sys2Proof.Machine.execBfi d a b s
  | .sel d a b c => Sys2Proof.Machine.execSel d a b c s
  | .addi d a im => Sys2Proof.Machine.execAddi d a im s
  | .andi d a im => Sys2Proof.Machine.execAndi d a im s
  | .ori d a im => Sys2Proof.Machine.execOri d a im s
  | .xori d a im => Sys2Proof.Machine.execXori d a im s
  | .shli d a n => Sys2Proof.Machine.execShli d a n s
  | .shri d a n => Sys2Proof.Machine.execShri d a n s
  | .sari d a n => Sys2Proof.Machine.execSari d a n s
  | .bfxImm d a l w => Sys2Proof.Machine.execBfxImm d a l w s
  | .bfiImm d a l w => Sys2Proof.Machine.execBfiImm d a l w s
  | .lui d im => Sys2Proof.Machine.execLui d im s
  | .adpc d im => Sys2Proof.Machine.execAdpc d im s
  | .cmp k d a b => Sys2Proof.Machine.execCmp k d a b s
  | .cmpi k d a im => Sys2Proof.Machine.execCmpi k d a im s
  | .mul d a b => Sys2Proof.Machine.execMul d a b s
  | .mulh d a b => Sys2Proof.Machine.execMulh d a b s
  | .mulhn d a b => Sys2Proof.Machine.execMulhn d a b s
  | .div d a b => Sys2Proof.Machine.execDiv d a b s
  | .divn d a b => Sys2Proof.Machine.execDivn d a b s
  | .rem d a b => Sys2Proof.Machine.execRem d a b s
  | .remn d a b => Sys2Proof.Machine.execRemn d a b s
  | .fadd z r d a b => Sys2Proof.Machine.execFadd z r d a b s
  | .fsub z r d a b => Sys2Proof.Machine.execFsub z r d a b s
  | .fmul z r d a b => Sys2Proof.Machine.execFmul z r d a b s
  | .fma z r d a b c => Sys2Proof.Machine.execFma z r d a b c s
  | .fdiv z r d a b => Sys2Proof.Machine.execFdiv z r d a b s
  | .fsqrt z r d a => Sys2Proof.Machine.execFsqrt z r d a s
  | .fmin z d a b => Sys2Proof.Machine.execFmin z d a b s
  | .fmax z d a b => Sys2Proof.Machine.execFmax z d a b s
  | .fcmp k z d a b => Sys2Proof.Machine.execFcmp k z d a b s
  | .fclass z d a => Sys2Proof.Machine.execFclass z d a s
  | .fcvtD2s r d a => Sys2Proof.Machine.execFcvtD2s r d a s
  | .fcvtS2d d a => Sys2Proof.Machine.execFcvtS2d d a s
  | .fcvtD2i r t d a => Sys2Proof.Machine.execFcvtD2i r t d a s
  | .fcvtS2i r t d a => Sys2Proof.Machine.execFcvtS2i r t d a s
  | .fcvtI2d r t d a => Sys2Proof.Machine.execFcvtI2d r t d a s
  | .fcvtI2s r t d a => Sys2Proof.Machine.execFcvtI2s r t d a s
  | .fmvgf d a => Sys2Proof.Machine.execFmvgf d a s
  | .fmvfg d a => Sys2Proof.Machine.execFmvfg d a s
  | .br p neg o => Sys2Proof.Machine.execBr p neg o s
  | .jmp o => Sys2Proof.Machine.execJmp o s
  | .jal d o => Sys2Proof.Machine.execJal d o s
  | .jr a im => Sys2Proof.Machine.execJr a im s
  | .jalr d a im => Sys2Proof.Machine.execJalr d a im s
  | .rpt len stride fsel cnt => Sys2Proof.Machine.execRpt len stride fsel cnt s
  | .rptReg len stride fsel g => Sys2Proof.Machine.execRptReg len stride fsel g s
  | .ld z sx d a o => Sys2Proof.Machine.execLd z sx d a o s
  | .ldAcq z sx d a o => Sys2Proof.Machine.execLdAcq z sx d a o s
  | .st z d a o => Sys2Proof.Machine.execSt z d a o s
  | .stRel z d a o => Sys2Proof.Machine.execStRel z d a o s
  | .mig a => Sys2Proof.Machine.execMig a s
  | .pf a o => Sys2Proof.Machine.execPf a o s
  | .pfLlc a o => Sys2Proof.Machine.execPfLlc a o s
  | .ldf z sx d a c => Sys2Proof.Machine.execLdf z sx d a c s
  | .ldfIndexed z sx d a b c => Sys2Proof.Machine.execLdfIndexed z sx d a b c s
  | .stf z d a => Sys2Proof.Machine.execStf z d a s
  | .stfIndexed z d a b => Sys2Proof.Machine.execStfIndexed z d a b s
  | .rnw d a => Sys2Proof.Machine.execRnw d a s
  | .life d a => Sys2Proof.Machine.execLife d a s
  | .fdrop a => Sys2Proof.Machine.execFdrop a s
  | .lifeSet a b => Sys2Proof.Machine.execLifeSet a b s
  | .amo op dbl o z d a b => Sys2Proof.Machine.execAmo op dbl o z d a b s
  | .amoSwap dbl o z d a b => Sys2Proof.Machine.execAmoSwap dbl o z d a b s
  | .amoCas dbl o z d a b c => Sys2Proof.Machine.execAmoCas dbl o z d a b c s
  | .resv dbl acq z d a => Sys2Proof.Machine.execResv dbl acq z d a s
  | .rlse dbl rel z d a b => Sys2Proof.Machine.execRlse dbl rel z d a b s
  | .fenceAcq z => Sys2Proof.Machine.execFenceAcq z s
  | .fenceRel z => Sys2Proof.Machine.execFenceRel z s
  | .fenceAr z => Sys2Proof.Machine.execFenceAr z s
  | .cwb a => Sys2Proof.Machine.execCwb a s
  | .cinv a => Sys2Proof.Machine.execCinv a s
  | .iinv z a => Sys2Proof.Machine.execIinv z a s
  | .qwait z t => Sys2Proof.Machine.execQwait z t s
  | .mfree d a => Sys2Proof.Machine.execMfree d a s
  | .sinit k z d a => Sys2Proof.Machine.execSinit k z d a s
  | .sfin d a => Sys2Proof.Machine.execSfin d a s
  | .slock a => Sys2Proof.Machine.execSlock a s
  | .slockCall d a => Sys2Proof.Machine.execSlockCall d a s
  | .sunlk a => Sys2Proof.Machine.execSunlk a s
  | .sarr d a => Sys2Proof.Machine.execSarr d a s
  | .sarrEos d a => Sys2Proof.Machine.execSarrEos d a s
  | .sexp d a => Sys2Proof.Machine.execSexp d a s
  | .swait d a => Sys2Proof.Machine.execSwait d a s
  | .smode d a => Sys2Proof.Machine.execSmode d a s
  | .gmake z d h a => Sys2Proof.Machine.execGmake z d h a s
  | .gjoin d h a => Sys2Proof.Machine.execGjoin d h a s
  | .gleave d h => Sys2Proof.Machine.execGleave d h s
  | .gbar d h => Sys2Proof.Machine.execGbar d h s
  | .gvote v d h a => Sys2Proof.Machine.execGvote v d h a s
  | .gred o t d h a => Sys2Proof.Machine.execGred o t d h a s
  | .gsize d h => Sys2Proof.Machine.execGsize d h s
  | .grank d h => Sys2Proof.Machine.execGrank d h s
  | .gstat d h => Sys2Proof.Machine.execGstat d h s
  | .spawn d a b c => Sys2Proof.Machine.execSpawn d a b c s
  | .reap d c => Sys2Proof.Machine.execReap d c s
  | .kill d a => Sys2Proof.Machine.execKill d a s
  | .cfw d => Sys2Proof.Machine.execCfw d s
  | .yield n => Sys2Proof.Machine.execYield n s
  | .ctxs d a => Sys2Proof.Machine.execCtxs d a s
  | .vadd r d a b m => Sys2Proof.Machine.execVadd r d a b m s
  | .vsub r d a b m => Sys2Proof.Machine.execVsub r d a b m s
  | .vmul r d a b m => Sys2Proof.Machine.execVmul r d a b m s
  | .vfma r d a b c m => Sys2Proof.Machine.execVfma r d a b c m s
  | .vmax d a b m => Sys2Proof.Machine.execVmax d a b m s
  | .vmin d a b m => Sys2Proof.Machine.execVmin d a b m s
  | .vabs d a m => Sys2Proof.Machine.execVabs d a m s
  | .vneg d a m => Sys2Proof.Machine.execVneg d a m s
  | .vand d a b m => Sys2Proof.Machine.execVand d a b m s
  | .vor d a b m => Sys2Proof.Machine.execVor d a b m s
  | .vxor d a b m => Sys2Proof.Machine.execVxor d a b m s
  | .vshl t d a b m => Sys2Proof.Machine.execVshl t d a b m s
  | .vshr t d a b m => Sys2Proof.Machine.execVshr t d a b m s
  | .vaddInt t d a b m => Sys2Proof.Machine.execVaddInt t d a b m s
  | .vsubInt t d a b m => Sys2Proof.Machine.execVsubInt t d a b m s
  | .vcmp k t d a b m => Sys2Proof.Machine.execVcmp k t d a b m s
  | .vsel d a b c m => Sys2Proof.Machine.execVsel d a b c m s
  | .vld d g o m => Sys2Proof.Machine.execVld d g o m s
  | .vst c g o m => Sys2Proof.Machine.execVst c g o m s
  | .vgath d g b m => Sys2Proof.Machine.execVgath d g b m s
  | .vscat c g b m => Sys2Proof.Machine.execVscat c g b m s
  | .vbcast d g m => Sys2Proof.Machine.execVbcast d g m s
  | .vperm d a b g m => Sys2Proof.Machine.execVperm d a b g m s
  | .vcvtF2h r d a b m => Sys2Proof.Machine.execVcvtF2h r d a b m s
  | .vcvtH2fl r d a m => Sys2Proof.Machine.execVcvtH2fl r d a m s
  | .vcvtH2fh r d a m => Sys2Proof.Machine.execVcvtH2fh r d a m s
  | .vcvtF2i r t d a m => Sys2Proof.Machine.execVcvtF2i r t d a m s
  | .vcvtI2f r t d a m => Sys2Proof.Machine.execVcvtI2f r t d a m s
  | .vdec d a n m => Sys2Proof.Machine.execVdec d a n m s
  | .venc d a n m => Sys2Proof.Machine.execVenc d a n m s
  | .vdot d a b c m => Sys2Proof.Machine.execVdot d a b c m s
  | .ldtab a => Sys2Proof.Machine.execLdtab a s
  | .vred o t d a m => Sys2Proof.Machine.execVred o t d a m s
  | .vbfly d a b c m => Sys2Proof.Machine.execVbfly d a b c m s
  | .vtwid d a l m => Sys2Proof.Machine.execVtwid d a l m s
  | .refillComplete core page => Sys2Proof.Machine.execRefillComplete core page s
  | .pageWritebackComplete core page => Sys2Proof.Machine.execPageWritebackComplete core page s
  | .mclr n => Sys2Proof.Machine.execMclr n s
  | .mmaQ8 n a b z => Sys2Proof.Machine.execMmaQ8 n a b z s
  | .mmaH16 n a b => Sys2Proof.Machine.execMmaH16 n a b s
  | .mmrQ8 n a z => Sys2Proof.Machine.execMmrQ8 n a z s
  | .mmrH16 n a => Sys2Proof.Machine.execMmrH16 n a s
  | .mlatch f b => Sys2Proof.Machine.execMlatch f b s
  | .mcv n a b z sh => Sys2Proof.Machine.execMcv n a b z sh s
  | .mshp a sh => Sys2Proof.Machine.execMshp a sh s
  | .mld n a => Sys2Proof.Machine.execMld n a s
  | .mst n a => Sys2Proof.Machine.execMst n a s
  | .tensorOpComplete quad k => Sys2Proof.Machine.execTensorOpComplete quad k s
  | .l1Eviction core line => Sys2Proof.Machine.execL1Eviction core line s
  | .cpy z t c d a n => Sys2Proof.Machine.execCpy z t c d a n s
  | .cpyX z t c d a n => Sys2Proof.Machine.execCpyX z t c d a n s
  | .cpy2 z t c d a n => Sys2Proof.Machine.execCpy2 z t c d a n s
  | .cpy2X z t c d a n => Sys2Proof.Machine.execCpy2X z t c d a n s
  | .cph z t c a n => Sys2Proof.Machine.execCph z t c a n s
  | .cpt z t c d a n => Sys2Proof.Machine.execCpt z t c d a n s
  | .cvbF2q z t c d a n => Sys2Proof.Machine.execCvbF2q z t c d a n s
  | .cvbQ2f z t c d a n => Sys2Proof.Machine.execCvbQ2f z t c d a n s
  | .cvbF2h z t c d a n => Sys2Proof.Machine.execCvbF2h z t c d a n s
  | .cvbH2f z t c d a n => Sys2Proof.Machine.execCvbH2f z t c d a n s
  | .cpst d c => Sys2Proof.Machine.execCpst d c s
  | .cpw c a => Sys2Proof.Machine.execCpw c a s
  | .lnch d a => Sys2Proof.Machine.execLnch d a s
  | .tkadd d a => Sys2Proof.Machine.execTkadd d a s
  | .tkaddAt d a t => Sys2Proof.Machine.execTkaddAt d a t s
  | .tgrun d a => Sys2Proof.Machine.execTgrun d a s
  | .notify a b => Sys2Proof.Machine.execNotify a b s
  | .wwait d a b => Sys2Proof.Machine.execWwait d a b s
  | .wake a => Sys2Proof.Machine.execWake a s
  | .wakeAt d a t => Sys2Proof.Machine.execWakeAt d a t s
  | .coreDoneReport id core => Sys2Proof.Machine.execCoreDoneReport id core s
  | .time d => Sys2Proof.Machine.execTime d s
  | .cyc d => Sys2Proof.Machine.execCyc d s
  | .pwrq d a => Sys2Proof.Machine.execPwrq d a s
  | .pstat d => Sys2Proof.Machine.execPstat d s
  | .lanternPolicyAction quad ceil wd => Sys2Proof.Machine.execLanternPolicyAction quad ceil wd s
  | .capMessage seq watts => Sys2Proof.Machine.execCapMessage seq watts s
  | .nring d a => Sys2Proof.Machine.execNring d a s
  | .npost d a n => Sys2Proof.Machine.execNpost d a n s
  | .ncnt d a => Sys2Proof.Machine.execNcnt d a s
  | .ncw a n => Sys2Proof.Machine.execNcw a n s
  | .workRequestStart die part ep => Sys2Proof.Machine.execWorkRequestStart die part ep s
  | .packetReceive p => Sys2Proof.Machine.execPacketReceive p s
  | .ackReceive a => Sys2Proof.Machine.execAckReceive a s
  | .retransmitTimeout die part ep num => Sys2Proof.Machine.execRetransmitTimeout die part ep num s
  | .neSpawnSend die part ep => Sys2Proof.Machine.execNeSpawnSend die part ep s
  | .neSpawnRetry die part ep => Sys2Proof.Machine.execNeSpawnRetry die part ep s
  | .reduceContribution c => Sys2Proof.Machine.execReduceContribution c s
  | .flitReceive f => Sys2Proof.Machine.execFlitReceive f s
  | .hostBarAccess h => Sys2Proof.Machine.execHostBarAccess h s
  | .notifyPageWrite h => Sys2Proof.Machine.execNotifyPageWrite h s
  | .wakePageWrite h => Sys2Proof.Machine.execWakePageWrite h s
  | .attestationRequest nonce vf => Sys2Proof.Machine.execAttestationRequest nonce vf s
  | .trap n => Sys2Proof.Machine.execTrap n s
  | .brk n => Sys2Proof.Machine.execBrk n s
  | .mfs d r => Sys2Proof.Machine.execMfs d r s
  | .mts r a => Sys2Proof.Machine.execMts r a s
  | .fifoPop d c => Sys2Proof.Machine.execFifoPop d c s
  | .fifoPush c a => Sys2Proof.Machine.execFifoPush c a s
  | .tlbi z a => Sys2Proof.Machine.execTlbi z a s
  | .tlbiAll z => Sys2Proof.Machine.execTlbiAll z s
  | .readRetry line f => Sys2Proof.Machine.execReadRetry line f s
  | .clusterHandover cluster part => Sys2Proof.Machine.execClusterHandover cluster part s
  | .loadObject part o => Sys2Proof.Machine.execLoadObject part o s
  | .runAheadFetch cx n => Sys2Proof.Machine.execRunAheadFetch cx n s
  | .firmwareUpdate lantern version verified => Sys2Proof.Machine.execFirmwareUpdate lantern version verified s
  | .deviceReset im => Sys2Proof.Machine.execDeviceReset im s
  | .cwbAll => Sys2Proof.Machine.execCwbAll s
  | .cinvAll => Sys2Proof.Machine.execCinvAll s
  | .fbar => Sys2Proof.Machine.execFbar s
  | .quit => Sys2Proof.Machine.execQuit s
  | .ldtabQa => Sys2Proof.Machine.execLdtabQa s
  | .ldtabQb => Sys2Proof.Machine.execLdtabQb s
  | .nop => Sys2Proof.Machine.execNop s
  | .eret => Sys2Proof.Machine.execEret s
  | .halt => Sys2Proof.Machine.execHalt s
  | .pdesc => Sys2Proof.Machine.execPdesc s
  | .unpin => Sys2Proof.Machine.execUnpin s
  | .setregMring => Sys2Proof.Machine.execSetregMring s
  | .setregSopol => Sys2Proof.Machine.execSetregSopol s
  | .setregGpol => Sys2Proof.Machine.execSetregGpol s
  | .ptroot => Sys2Proof.Machine.execPtroot s
  | .fqreplay => Sys2Proof.Machine.execFqreplay s
  | .fqdeny => Sys2Proof.Machine.execFqdeny s
  | .tlbshoot => Sys2Proof.Machine.execTlbshoot s
  | .preempt => Sys2Proof.Machine.execPreempt s
  | .restore => Sys2Proof.Machine.execRestore s
  | .term => Sys2Proof.Machine.execTerm s
  | .resume0 => Sys2Proof.Machine.execResume0 s
  | .launch => Sys2Proof.Machine.execLaunch s
  | .tgdrop => Sys2Proof.Machine.execTgdrop s
  | .settres => Sys2Proof.Machine.execSettres s
  | .setdrth => Sys2Proof.Machine.execSetdrth s
  | .recclr => Sys2Proof.Machine.execRecclr s
  | .unassignedCommand => Sys2Proof.Machine.execUnassignedCommand s
  | .reservationGrant => Sys2Proof.Machine.execReservationGrant s
  | .reservationBreak => Sys2Proof.Machine.execReservationBreak s
  | .quietReport => Sys2Proof.Machine.execQuietReport s
  | .delegatedReply => Sys2Proof.Machine.execDelegatedReply s
  | .soPoll => Sys2Proof.Machine.execSoPoll s
  | .soWake => Sys2Proof.Machine.execSoWake s
  | .soWindowBoundary => Sys2Proof.Machine.execSoWindowBoundary s
  | .groupCompletion => Sys2Proof.Machine.execGroupCompletion s
  | .yieldExpiry => Sys2Proof.Machine.execYieldExpiry s
  | .spawnMessage => Sys2Proof.Machine.execSpawnMessage s
  | .spawnAnswer => Sys2Proof.Machine.execSpawnAnswer s
  | .migrationMessage => Sys2Proof.Machine.execMigrationMessage s
  | .migrationAccept => Sys2Proof.Machine.execMigrationAccept s
  | .migrationCommit => Sys2Proof.Machine.execMigrationCommit s
  | .migrationAbort => Sys2Proof.Machine.execMigrationAbort s
  | .contextFreeNotice => Sys2Proof.Machine.execContextFreeNotice s
  | .refusalTimerExpiry => Sys2Proof.Machine.execRefusalTimerExpiry s
  | .vectorSlotEntry => Sys2Proof.Machine.execVectorSlotEntry s
  | .remoteRequest => Sys2Proof.Machine.execRemoteRequest s
  | .remoteReply => Sys2Proof.Machine.execRemoteReply s
  | .tensorOpStart => Sys2Proof.Machine.execTensorOpStart s
  | .tileArrival => Sys2Proof.Machine.execTileArrival s
  | .homeSliceAccess => Sys2Proof.Machine.execHomeSliceAccess s
  | .drain => Sys2Proof.Machine.execDrain s
  | .drainAck => Sys2Proof.Machine.execDrainAck s
  | .sweep => Sys2Proof.Machine.execSweep s
  | .sweepEnd => Sys2Proof.Machine.execSweepEnd s
  | .tileExpiry => Sys2Proof.Machine.execTileExpiry s
  | .engineCommandStart => Sys2Proof.Machine.execEngineCommandStart s
  | .engineCommandComplete => Sys2Proof.Machine.execEngineCommandComplete s
  | .launchSelect => Sys2Proof.Machine.execLaunchSelect s
  | .depRecheck => Sys2Proof.Machine.execDepRecheck s
  | .dispatcherSpawnRetry => Sys2Proof.Machine.execDispatcherSpawnRetry s
  | .teardownNotice => Sys2Proof.Machine.execTeardownNotice s
  | .taskRecord => Sys2Proof.Machine.execTaskRecord s
  | .nodeRun => Sys2Proof.Machine.execNodeRun s
  | .plainNodeComplete => Sys2Proof.Machine.execPlainNodeComplete s
  | .belfryTimer => Sys2Proof.Machine.execBelfryTimer s
  | .opMoveStart => Sys2Proof.Machine.execOpMoveStart s
  | .opMoveEnd => Sys2Proof.Machine.execOpMoveEnd s
  | .droopTrip => Sys2Proof.Machine.execDroopTrip s
  | .droopStretchEnd => Sys2Proof.Machine.execDroopStretchEnd s
  | .droopWithdrawalEnd => Sys2Proof.Machine.execDroopWithdrawalEnd s
  | .currentLimitTrip => Sys2Proof.Machine.execCurrentLimitTrip s
  | .currentLimitRelease => Sys2Proof.Machine.execCurrentLimitRelease s
  | .thermalTrip => Sys2Proof.Machine.execThermalTrip s
  | .thermalTripEnd => Sys2Proof.Machine.execThermalTripEnd s
  | .watchdogExpiry => Sys2Proof.Machine.execWatchdogExpiry s
  | .lanternSignal => Sys2Proof.Machine.execLanternSignal s
  | .leaseExpiry => Sys2Proof.Machine.execLeaseExpiry s
  | .packetSend => Sys2Proof.Machine.execPacketSend s
  | .reduceResult => Sys2Proof.Machine.execReduceResult s
  | .reduceTimeout => Sys2Proof.Machine.execReduceTimeout s
  | .portLinkDown => Sys2Proof.Machine.execPortLinkDown s
  | .portLinkUp => Sys2Proof.Machine.execPortLinkUp s
  | .walkComplete => Sys2Proof.Machine.execWalkComplete s
  | .lanternRestart => Sys2Proof.Machine.execLanternRestart s
  | .clusterTlbHit => Sys2Proof.Machine.execClusterTlbHit s

end Sys2Proof.Machine
end

