-- ==== Sys2Proof/Machine/Issue.lean ====
section
/-! DEFINITION. A core's cycle: which context issues (R57, R60), fetching and decoding its instruction (R28), the
instructions of a repeat frame (R102), pending tokens (R314), and performing a held instruction again (R59, R273). -/

namespace Sys2Proof.Machine

-- Which context issues (R57)

/-- Whether the context at a position of a core can take the cycle `t` at all: it is READY, its position is in place, its
previous instruction is complete, its last issue is 8 or more cycles ago, and its partition is not stopped (R56, R57, R60,
R278). -/
def State.canIssue (s : State) (core t j : Nat) : Bool :=
  let c := s.ctx (core * 16 + j)
  decide (c.state = .ready) && c.wait.isNone && !s.posWithdrawn core j
    && (match c.last with | some l => decide (l + 8 ≤ t) | none => true)
    && (match s.partOf core with | some p => !s.partOut p | none => true)

/-- The distance to a context's next own-position cycle (R57). -/
def homeDist (t j : Nat) : Nat := (j + 16 - t % 16) % 16

/-- The position that issues in a core's cycle (R57): the own position, else the first eligible one after it. A withdrawn
position's cycle is never filled. -/
def State.issueSlot (s : State) (core : Nat) : Option Nat :=
  let t := (s.quad (quadOf core)).cyc
  let p := t % 16
  if s.posWithdrawn core p then none
  else if s.canIssue core t p then some p
  else
    (List.range' 1 15).findSome? fun k =>
      let j := (p + k) % 16
      if s.canIssue core t j && decide (8 ≤ homeDist t j) then some j else none

-- Pending tokens (R314)

/-- The registers that a shape record substitutes (R33). -/
def shapeG (x : Shape) : List GReg :=
  ((List.range 4).filter (fun i => bit x.w3 (8 + i))).map (fun i => BitVec.ofNat 4 (bits x.w3 15 12 + i))

/-- The general registers that an instruction names in its fields, with those that it reads beside them (R59, R314,
R317). -/
def namedG (i : Instr) : List GReg :=
  match i with
  | .add d a b | .sub d a b | .and d a b | .or d a b | .xor d a b | .shl d a b | .shr d a b | .sar d a b | .rol d a b
  | .min d a b | .max d a b | .minn d a b | .maxn d a b | .bfx d a b | .bfi d a b | .sel d a b _
  | .mul d a b | .mulh d a b | .mulhn d a b | .div d a b | .divn d a b | .rem d a b | .remn d a b => [d, a, b]
  | .clz d a | .ctz d a | .pop d a | .addi d a _ | .andi d a _ | .ori d a _ | .xori d a _ | .shli d a _ | .shri d a _
  | .sari d a _ | .bfxImm d a _ _ | .bfiImm d a _ _ | .jalr d a _ => [d, a]
  | .lui d _ | .adpc d _ | .jal d _ => [d]
  | .cmp _ _ a b => [a, b]
  | .cmpi _ _ a _ | .jr a _ => [a]
  | .fclass _ d _ | .fcvtD2i _ _ d _ | .fcvtS2i _ _ d _ | .fmvfg d _ => [d]
  | .fcvtI2d _ _ _ a | .fcvtI2s _ _ _ a | .fmvgf _ a | .rptReg _ _ _ a => [a]
  | .ld _ _ d a _ | .ldAcq _ _ d a _ | .st _ d a _ | .stRel _ d a _ => [d, a]
  | .mig a | .pf a _ | .pfLlc a _ | .fdrop a => [a]
  | .ldf _ _ d a _ | .stf _ d a | .rnw d a | .life d a => [d, a]
  | .ldfIndexed _ _ d a b _ | .stfIndexed _ d a b => [d, a, b]
  | .lifeSet a b => [a, b]
  | .amo _ _ _ _ d a b | .amoSwap _ _ _ d a b => [d, a, b]
  | .amoCas _ _ _ d a b c => [d, a, b, c]
  | .resv _ _ _ d a => [d, a]
  | .rlse _ _ _ _ a b => [a, b]
  | .cwb a | .cinv a | .iinv _ a => [a]
  | .mfree d a => [d, a]
  | .slockCall d a => [d, a, 0, 1, 2, 3]
  | .sarrEos d a => if d.toNat ≤ 14 then [d, a, d + 1] else [d, a]
  | .sinit _ _ d a | .sarr d a | .sexp d a | .swait d a | .smode d a => [d, a]
  | .sfin _ a | .slock a | .sunlk a => [a]
  | .gmake _ _ _ a | .gjoin _ _ a => [a]
  | .gbar d _ | .gsize d _ | .grank d _ | .gstat d _ => [d]
  | .gvote _ d _ a | .gred _ _ d _ a => [d, a]
  | .spawn _ a b c => if c.toNat ≤ 12 then [a, b, c, c + 1, c + 2, c + 3] else [a, b, c]
  | .reap d _ => [d]
  | .kill _ a => [a]
  | .ctxs d a => [d, a]
  | .vld _ g _ _ | .vst _ g _ _ | .vgath _ g _ _ | .vscat _ g _ _ | .vbcast _ g _ | .vperm _ _ _ g _ | .ldtab g => [g]
  | .mmaQ8 _ a b z => [a, b, z]
  | .mcv _ a b z sh => (if z.toNat ≤ 14 then [a, b, z, z + 1] else [a, b, z]) ++ shapeG sh
  | .mmaH16 _ a b => [a, b]
  | .mmrQ8 _ a z => [a, z]
  | .mshp a sh => a :: shapeG sh
  | .mmrH16 _ a | .mlatch _ a | .mld _ a | .mst _ a => [a]
  | .cpy _ t _ d a n | .cvbF2h _ t _ d a n | .cvbH2f _ t _ d a n => [t, d, a, n]
  | .cpyX _ t _ d a n | .cpy2 _ t _ d a n | .cpt _ t _ d a n | .cvbF2q _ t _ d a n | .cvbQ2f _ t _ d a n =>
    if n.toNat ≤ 14 then [t, d, a, n, n + 1] else [t, d, a, n]
  | .cpy2X _ t _ d a n => if n.toNat ≤ 13 then [t, d, a, n, n + 1, n + 2] else [t, d, a, n]
  | .cph _ t _ a n => [t, a, n]
  | .cpst d _ => [d]
  | .cpw _ a => [a]
  | .lnch d a | .tkadd d a | .tgrun d a => [d, a]
  | .tkaddAt d a t | .wakeAt d a t => [d, a, t]
  | .notify a b => [a, b]
  | .wwait d a b => [d, a, b]
  | .wake a => [a]
  | .time d | .cyc d | .pstat d => [d]
  | .pwrq d a => [d, a]
  | .nring d a | .ncnt d a => [d, a]
  | .npost d a n => [d, a, n]
  | .ncw a n => [a, n]
  | .mfs d _ | .fifoPop d _ => [d]
  | .mts _ a | .fifoPush _ a | .tlbi _ a => [a]
  | _ => []

/-- Whether an instruction names a pending register of a context. -/
def Ctx.namesPending (c : Ctx) (i : Instr) : Bool := (namedG i).any (fun r => c.pend.getLsbD r.toNat)

/-- Runs an instruction of the current context, unless it names a pending register: then the context waits with WHY = 6
for the token (R314). It performs the instruction when the token has come: a conversion takes the table that the core has
then (log 14). DESIGN CHOICE: a privileged instruction that names a pending register waits before the test of R28 that may
trap it; R28 and R314 give no order of the two (log 14). -/
def execNamed (i : Instr) (s : State) : Out :=
  if s.me.namesPending i then .next (s.hold s.cur 6 i) else exec i s

-- Fetching and decoding (R28)

/-- What a fetch and its decoding come to: an instruction, a trap, or a translation to wait for. -/
inductive Fetched
  | ok (i : Instr) (s : State)
  | trap (cause : Nat) (val : Word) (s : State)
  | miss (a : Word)

/-- The frame state that an `eret` left is dropped (R285). -/
def Ctx.dropFrameState (c : Ctx) : Ctx :=
  if c.resume then { c with resume := false, stat := setFrameState 0 false 0 c.stat } else c

/-- Decodes a word with its inline words (R28); a word that does not decode is no `rpt` (R285). -/
def decoded (cx : Nat) (w : IWord) (sh : Shape) (s : State) : Fetched :=
  match decodeWord w sh with
  | .ok i => .ok i s
  | .error _ => .trap causeIllegal (zext w) (s.modCtx cx Ctx.dropFrameState)

/-- Fetches and decodes the instruction at a context's program counter; the four inline words are read only where the
word takes them (R28). -/
def State.fetchInstr (s : State) (cx : Nat) : Fetched :=
  let a := (s.ctx cx).pc
  match s.fetchWord cx a with
  | .trap c v => .trap c v s
  | .miss v => .miss v
  | .ok l s1 =>
    let w := l.headD 0
    if inlineWords w then
      match s1.fetchWords cx (a + 4) 4 with
      | .trap c v => .trap c v (s1.modCtx cx Ctx.dropFrameState)
      | .miss v => .miss v
      | .ok l s2 => decoded cx w ⟨l.getD 0 0, l.getD 1 0, l.getD 2 0, l.getD 3 0⟩ s2
    else decoded cx w ⟨0, 0, 0, 0⟩ s1

/-- Whether an instruction is an `rpt`. -/
def isRpt (i : Instr) : Bool :=
  match i with
  | .rpt _ _ _ _ | .rptReg _ _ _ _ => true
  | _ => false

/-- A frame state that no `rpt` resumes is dropped (R285) (log 26). -/
def Ctx.dropResume (i : Instr) (c : Ctx) : Ctx := if isRpt i then c else c.dropFrameState

/-- The body instruction that a frame issues next, with its fields advanced (R102). -/
def Ctx.bodyInstr (c : Ctx) (fr : Frame) : Option Instr :=
  match decodeWord (fr.body.getD (statRIDX c.stat) 0) ⟨0, 0, 0, 0⟩ with
  | .ok i => some (advanceInstr fr.fsel (statTRIP c.stat * fr.stride) i)
  | .error _ => none

/-- One context issues one instruction: the next of its frame, or the one at its program counter (R57, R102). -/
def State.issueFrom (s : State) (cx : Nat) : Out :=
  let t := (s.quad (quadOf (coreOf cx))).cyc
  let s0 : State := { s.modCtx cx (fun c => { c with last := some t }) with cur := cx }
  match (s0.ctx cx).frame with
  | some fr =>
    match (s0.ctx cx).bodyInstr fr with
    | some i => execNamed i s0
    | none => trap causeIllegal (zext (fr.body.getD (statRIDX (s0.ctx cx).stat) 0)) s0
  | none =>
    match s0.fetchInstr cx with
    | .ok i s1 => execNamed i (s1.modCtx cx (Ctx.dropResume i))
    | .trap c v s1 => trap c v s1
    | .miss v => .next (s0.fetchWait cx v)

/-- A core takes its cycle (R57). -/
def State.coreCycle (s : State) (core : Nat) : Out :=
  match s.issueSlot core with
  | some j => s.issueFrom (core * 16 + j)
  | none => .next s

-- Performing a held instruction again

/-- Performs an instruction that was held once more: a vector instruction that accesses memory has entered the unit already,
and takes no slot a second time (R125, R126). -/
def execAgain (i : Instr) (s : State) : Out :=
  match i with
  | .vld _ _ _ _ | .vst _ _ _ _ | .vgath _ _ _ _ | .vscat _ _ _ _ | .ldtab _ => vecEnter i s
  | _ => exec i s

/-- A held context is released; an instruction that is issued again after a pre-emption stays one (R281). -/
def Ctx.goOn (c : Ctx) : Ctx := { c with state := .ready, why := 0, wait := none }

/-- The access that a killed context had outstanding is performed with the registers of its issue, and changes nothing of
what its slot holds now (R69). It waits once more where it must, but not on a fault (R275). -/
def State.ghostGo (s : State) (cx : Nat) (tid : BitVec 32) (g : Ctx) : Out :=
  let s0 : State := { s with ghosts := s.ghosts.filter (fun e => !(e.1 == cx && e.2.tid == tid)), cur := cx }
  match g.wait with
  | some w =>
    match execAgain w.i (s0.setCtx cx g.goOn) with
    | .next t =>
      let h := t.ctx cx
      let t1 := (t.setCtx cx (s.ctx cx)).leaveEntries (Requester.isOf cx tid)
      .next (if h.outstanding then { t1 with ghosts := t1.ghosts ++ [(cx, h)] } else t1)
    | o => o
  | none => .next s0

/-- A context that was held goes on (log 14): it performs its instruction again, or fetches again. -/
def State.retry (s : State) (cx : Nat) (tid : BitVec 32) : Out :=
  match s.ghost? cx tid with
  | some g => s.ghostGo cx tid g
  | none =>
  let c := s.ctx cx
  if c.tid = tid ∧ c.state = .waiting then
    let s0 : State := { s.modCtx cx Ctx.goOn with cur := cx }
    match c.wait with
    | some w => if w.ph ≠ 0 then .next s else if c.why = 6 then execNamed w.i s0 else execAgain w.i s0
    | none => if c.why = 13 ∨ c.why = 17 then .next s0 else .next s
  else .next s

/-- The held instruction named by the message at a position is performed again. -/
def State.retryMsg (s : State) (k : Nat) : Out :=
  match s.msgs[k]? with
  | some (.retry cx tid) => (s.dropMsg k).retry cx tid
  | _ => .next s

end Sys2Proof.Machine
end

