-- ==== Sys2Proof/Machine/Moves.lean ====
section
/-! DEFINITION. What the package can do between two cycles (log 3): the events that are due, the messages that can be
taken, the units that can go on, and the clock (R16, R147, R351, R356, R399). -/

namespace Sys2Proof.Machine

/-- One thing that the package does of its own: an event on what a number selects; a held instruction, an access of the
host, a contribution, a packet or a flit of a result that waits in the messages; or the next die cycle. -/
inductive Move
  | event (i : Instr) (k : Nat)
  | retry (k : Nat)
  | host (k : Nat)
  | contrib (k : Nat)
  | packet (k : Nat)
  | unitWrite (k : Nat)
  | status (k : Nat)
  | ring (k : Nat)
  | resFlit (k : Nat)
  | wake (k : Nat)
  | record (die : Nat)
  | place (launch die : Nat)
  | clock
  deriving DecidableEq, Repr

-- Messages

/-- Whether two messages travel on one channel, so that the earlier one is taken first (log 3): requests of one core to
one home, local ones when they name a common page; writes of one core's engines to one home; accesses of one virtual
function (R380); records of one partition
(R336), those of timers apart (R338); one graph's nodes, ring slots and status updates (log 21); packets of one endpoint (R387). -/
def sameChannel (a b : Msg) : Bool :=
  match a, b with
  | .req x, .req y =>
    coreOf x.cx == coreOf y.cx && decide (x.home = y.home)
      && (!x.isLocal || (pagesOf x.locs).any (fun p => (pagesOf y.locs).contains p))
  | .unitWrite k _ _ x _, .unitWrite j _ _ y _ => k == j && x.any (fun c => y.any (fun d => decide (homeAt c.1 = homeAt d.1)))
  | .host _ x, .host _ y => x.part == y.part
  | .task d p _ _ _ _, .task e q _ _ _ _ => d == e && p == q && timerTask a == timerTask b
  | .node p g _, .node q h _ | .ring p g _ _, .ring q h _ _ | .status _ p g _ _ _, .status _ q h _ _ _ => p == q && g == h
  | .timerWake d _ l _, .timerWake e _ k _ => d == e && l == k
  | .pkt d p e _, .pkt d' p' e' _ => d == d' && p == p' && e == e'
  | _, _ => false

/-- Whether a write of an engine that is under way to its home holds a request (R205, R210, R215); a `rlse`, which gives
the word of such a write free, is not held. -/
def State.unitHolds (s : State) (r : Req) : Bool :=
  match r.i with
  | .rlse _ _ _ _ _ _ => false
  | _ => s.unitWritingAt (coreOf r.cx) [r.home]

/-- Whether a request is held: by what is at the head of a core's remote queue (R150), or by a write of an engine. -/
def State.heldBack (s : State) (r : Req) : Bool :=
  s.unitHolds r ||
    match r.home with
    | .core c => !r.isLocal && s.headBefore c (.req r.cx r.tid)
    | _ => false

/-- Whether a context's held instruction is `time`. -/
def Ctx.heldTime (c : Ctx) : Bool :=
  match c.wait with
  | some w => (match w.i with | .time _ => w.ph == 0 | _ => false)
  | none => false

/-- Whether the context that a held instruction belongs to may go on: once the write-backs that it waits for are
acknowledged (R186, R194), while its partition stops only one that completes first (R278), and a `time` that waited for its
token in a cycle of its core, whose Belfry it reads (R349, R399). -/
def State.mayRetry (s : State) (cx : Nat) (tid : BitVec 32) : Bool :=
  !s.heldForWrites cx tid && !((s.ctx cx).heldTime && !(s.quad (quadOf (coreOf cx))).edge) && ((s.ghost? cx tid).isSome ||
  match s.partOf (coreOf cx) with
  | some p => (match (s.part p).pre with | .no => true | .stopping => (s.ctx cx).finishes | .out | .restoring => false)
  | none => true)

/-- Distinct walks of a die that can be in flight (R17, R273). -/
def walkers : Nat := 256

/-- The walks of a die, by partition and granule, in arrival order (R273). -/
def walkKeys (die : Nat) (l : List Msg) : List (Nat × Nat) :=
  (l.filterMap fun m =>
    match m with
    | .walk _ cx va _ part false =>
      if faultDie (coreOf cx) = die ∧ !inScratch (coreOf cx) (BitVec.ofNat 64 va) then some (part, va / 65536) else none
    | _ => none).eraseDups

/-- Whether a walk has a walker: it is one of the first 256 distinct walks of its die, or joins one of them (R273). -/
def State.hasWalker (s : State) (cx va part : Nat) : Bool :=
  inScratch (coreOf cx) (BitVec.ofNat 64 va)
    || ((walkKeys (faultDie (coreOf cx)) s.msgs).take walkers).contains (part, va / 65536)

/-- Whether a walk can end: one whose fault finds the queue full stays in its walker (R274), and one beyond the walkers
waits (R273). -/
def State.walkMoves (s : State) (who : Requester) (cx va part : Nat) : Bool :=
  let die := faultDie (coreOf cx)
  s.hasWalker cx va part && (!s.walkWaits who || !who.queues ||
    match (s.walkEnd (coreOf cx) part (BitVec.ofNat 64 va) (s.faultId die who).tid).2 with
    | .fault win _ _ pa => s.fqRoom die part va win pa
    | _ => true)

/-- Whether a packet that waits to be placed can go on (R209, R375). -/
def State.packetMoves (s : State) (p : Packet) : Bool :=
  match s.targetEp p with
  | some e => !e.bounds p || e.seen.contains (packetKey p, p.num) || s.rxMoves e.die e.part (s.packetDo e p)
  | none => true

/-- Whether a reduction's result can be taken (R209, R375). -/
def State.resultMoves (s : State) (die part ep idx : Nat) (b : List Byte) : Bool :=
  match s.ep? die part ep with
  | some e =>
    match e.reqs.find? (fun r => decide (r.idx = idx)) with
    | some r => s.rxMoves die part (s.resultDo e r b)
    | none => true
  | none => true

/-- Whether a graph's node is plain and its submission arrives at the dispatcher now (R326, R334). -/
def State.nodeArrives (s : State) (part handle n : Nat) : Option Nat :=
  match s.graph? part handle with
  | some g =>
    match g.nodes[n]? with
    | some x => if x.kind = 0 then (match s.nodeRead g x with | .wait _ => none | _ => some g.die) else none
    | none => none
  | none => none

/-- What an event uses once per cycle of its clock (R399), if it does. -/
def State.usesOf (s : State) (i : Instr) (k : Nat) : Option Used :=
  match i, s.msgs[k]? with
  | .remoteRequest, some (.req r) | .homeSliceAccess, some (.req r) => if r.isLocal then none else some (.home r.home)
  | .spawnMessage, some (.spawn m) => some (.intake m.core)
  | .migrationMessage, some (.mig _ core _ _) => some (.intake core)
  | .dispatcherSpawnRetry, some (.spawnRetry (.disp _ die) _ _) => some (.place die)
  | .launch, _ => some (.home (.disp k))
  | .nodeRun, some (.node part g n) => (s.nodeArrives part g n).map (fun die => .home (.disp die))
  | _, _ => none

/-- Whether a use waits for its quad's next cycle: a core performs and takes requests in the cycles of its own clock
(R399). -/
def State.offEdge (s : State) (u : Used) : Bool :=
  match u with
  | .home (.core k) | .intake k => !(s.quad (quadOf k)).edge
  | _ => false

/-- Whether what an event needs once per cycle has not been used in this cycle (R64, R146, R183, R399). -/
def State.unused (s : State) (i : Instr) (k : Nat) : Bool :=
  match s.usesOf i k with
  | some u => !s.used.contains u && !s.offEdge u
  | none => true

/-- The home at which the write of an engine that is under way is performed (R215). -/
def unitHome (cells : List Host.Cell) : Used := .home (homeAt ((cells.headD (0, 0)).1))

/-- Whether the write of an engine that is under way can be performed (R209, R215, R399). -/
def State.unitMoves (s : State) (cells : List Host.Cell) : Bool :=
  (s.resvOn (cells.map Prod.fst)).isNone && !s.used.contains (unitHome cells) && !s.offEdge (unitHome cells)

/-- What taking a message is, if it can be taken now. What a placement, or a spawn of a network engine, acquires waits while its
partition is swept (R189, R198, R327, R377). -/
def State.msgMove (s : State) (k : Nat) (m : Msg) : Option Move :=
  let on (b : Bool) (i : Instr) : Option Move := if b && s.unused i k then some (.event i k) else none
  match m with
  | .req r =>
    on (s.reqMoves r && !s.heldBack r) (match r.home with | .core _ => .remoteRequest | _ => .homeSliceAccess)
  | .reply _ => on true .remoteReply
  | .retry cx tid => if s.mayRetry cx tid then some (.retry k) else none
  | .spawn x => on (match x.from_ with | .ctx _ _ => true | _ => !(s.part x.part).sweeping) .spawnMessage
  | .answer _ _ _ => on true .spawnAnswer
  | .mig _ _ _ _ => on true .migrationMessage
  | .migAns _ _ _ _ => on true .migrationAccept
  | .migCommit k _ => on (!s.sweepingFor k) .migrationCommit
  | .migAbort _ _ => on true .migrationAbort
  | .notice _ _ _ => on true .contextFreeNotice
  | .drain core g part _ => on ((s.quad (quadOf core)).edge && s.drainMoves core g part) .drain
  | .drainAck _ => on true .drainAck
  | .walk who cx va _ part ctlb =>
    if ctlb then on true .clusterTlbHit else on (s.walkMoves who cx va part) .walkComplete
  | .soWake _ _ _ _ _ _ _ => on true .soWake
  | .delegated _ _ _ _ _ _ _ _ => on true .delegatedReply
  | .group cx tid _ _ _ _ => on (s.resultTakes cx tid) .groupCompletion
  | .task _ part _ _ _ _ => on (!(timerTask m && s.timersWait part)) .taskRecord
  | .unitWrite _ _ _ cells _ => if s.unitMoves cells then some (.unitWrite k) else none
  | .node part g n => on (!s.partOut part && s.nodeMoves part g n) .nodeRun
  | .nodeDone _ _ _ _ _ => on true .plainNodeComplete
  | .status die part g va v sig => if s.statusMoves die part g va v sig then some (.status k) else none
  | .ring part g slot _ => if s.ringMoves part g slot then some (.ring k) else none
  | .timerWake die part l va => if s.wakeMoves die part l va then some (.wake k) else none
  | .spawnRetry (.disp id _) _ due =>
    on (decide (due ≤ s.dieCyc) && s.launches.all (fun l => l.id != id || !s.partOut l.part)) .dispatcherSpawnRetry
  | .spawnRetry (.net die part ep) _ due =>
    if due ≤ s.dieCyc ∧ !s.partOut part then some (.event (.neSpawnRetry die part ep) k) else none
  | .spawnRetry (.ctx _ _) _ _ => none
  | .teardown _ _ _ _ => on true .teardownNotice
  | .pkt _ _ _ _ => on true .packetSend
  | .contrib _ => some (.contrib k)
  | .rxPkt p => if s.packetMoves p then some (.packet k) else none
  | .redRes (die, part, ep, idx) code _ b =>
    if code = 0 ∧ (s.resultFlit die part ep idx b).isSome then some (.resFlit k)
    else on (decide (code ≠ 0) || s.resultMoves die part ep idx b) .reduceResult
  | .host kind h => if !s.hostHeld kind h || s.hostAsks kind h then some (.host k) else none

/-- The messages that can be taken, with those before them. -/
def State.msgMovesFrom (s : State) : (before : List Msg) → (k : Nat) → List Msg → List Move
  | _, _, [] => []
  | before, k, m :: t =>
    let rest := s.msgMovesFrom (before ++ [m]) (k + 1) t
    if before.any (fun x => sameChannel x m) then rest
    else
      match s.msgMove k m with
      | some x => x :: rest
      | none => rest

/-- The messages that can be taken. -/
def State.msgMoves (s : State) : List Move := s.msgMovesFrom [] 0 s.msgs

/-- The write of an engine at the message's position is performed at its home (R215); bytes of an object are not changed
(R222). -/
def State.putUnitWrite (s : State) (k : Nat) : State :=
  match s.msgs[k]? with
  | some (.unitWrite _ _ _ cells _) =>
    ({ s.dropMsg k with used := unitHome cells :: s.used } : State).homeWrite none
      (cells.filter (fun c => (s.obj? (c.1 / 64)).isNone))
  | _ => s

-- Commands of the service cores (R277)

/-- Whether a command that has begun can go on. -/
def State.cmdMoves (s : State) (die : Nat) (r : CmdRec) : Bool :=
  let part := cmdPart r.cmd
  match cmdInstr r.cmd with
  | .unpin =>
    let d := s.page (bits r.cmd.a 20 4) (bits r.cmd.a 3 0)
    if r.stage = 1 then !(d.busy && d.wb) else !d.busy
  | .launch =>
    !s.faulted (.command die r.cmd.tag)
      && s.planMoves (.command die r.cmd.tag) part
        (s.planOne (.command die r.cmd.tag) (dieCore die) part r.cmd.a 128 .engRead)
  | .preempt => if r.stage = 0 then decide ((s.part part).pre ≠ .restoring) else s.preemptMoves part
  | .restore => !s.wakesHeld part
  | .term =>
    if r.stage = 0 then decide ((s.part part).pre ∉ [.stopping, .restoring]) else s.termNew part || !s.termWaits part
  | .settres => decide ((s.die die).cmds.head? = some r)
  | _ => true

/-- The first command of each kind that has begun and waits. -/
def waitingCmds (l : List CmdRec) : List CmdRec :=
  (l.filter (·.status.isNone)).foldl
    (fun acc r => if acc.any (fun x => decide (cmdInstr x.cmd = cmdInstr r.cmd)) then acc else acc ++ [r]) []

/-- The commands of a die that can begin or go on. -/
def State.dieCmds (s : State) (die : Nat) (d : Die) : List Move :=
  let w := waitingCmds d.cmds
  let go := (w.filter (fun r => s.cmdMoves die r && s.unused (cmdInstr r.cmd) die)).map
    (fun r => Move.event (cmdInstr r.cmd) die)
  match d.cmdq with
  | c :: _ =>
    if w.any (fun r => decide (cmdInstr r.cmd = cmdInstr c)) || !s.unused (cmdInstr c) die then go
    else go ++ [.event (cmdInstr c) die]
  | [] => go

/-- The commands that can begin or go on. -/
def State.cmdMovesAll (s : State) : List Move := (s.dies.map (fun e => s.dieCmds e.1 e.2)).flatten

/-- Completion records that can be written (R277): the first command begun on a die, once it has a status. -/
def State.recordMoves (s : State) : List Move :=
  s.dies.filterMap fun e =>
    match e.2.cmds with
    | r :: _ => if r.status.isSome then some (.record e.1) else none
    | [] => none

/-- Writes the completion record of the first command begun on a die (R277): records come in queue order. -/
def State.putRecord (s : State) (die : Nat) : State :=
  match (s.die die).cmds with
  | r :: t =>
    match r.status with
    | some x =>
      ({ s with out := s.out ++ [.record die r.cmd.tag x] } : State).modDie die (fun d => { d with cmds := t })
    | none => s
  | [] => s

-- Contexts and cores

/-- Events of a core's clock that are due for a context (R66, R80): a `yield` ends before the cycle in which its context
is READY. -/
def State.ctxDue (s : State) (cx : Nat) (c : Ctx) : List Move :=
  let now := (s.quad (quadOf (coreOf cx))).cyc
  let timer := match c.timer with | some t => if t ≤ now then [Move.event .refusalTimerExpiry cx] else [] | none => []
  let yield := match c.wait with
    | some w =>
      match w.i with
      | .yield _ => if c.state = .waiting ∧ w.till ≤ now + 1 then [Move.event .yieldExpiry cx] else []
      | _ => []
    | none => []
  timer ++ yield

/-- Whether a context's `qwait` is answered (R214). -/
def State.quietNow (s : State) (cx : Nat) (c : Ctx) : Bool :=
  decide (c.state = .waiting) &&
    match c.wait with
    | some w => (match w.i with | .qwait sc t => s.quiet (coreOf cx) sc t | _ => false)
    | none => false

/-- Whether the vector slot of a core has something due (R125). -/
def State.slotDue (s : State) (core : Nat) (k : Core) : Bool :=
  let now := s.cycOf core
  k.slot.entering.isSome || (match k.slot.holder with | some (_, u) => decide (u ≤ now) | none => false)
    || (List.range 16).any fun j =>
      match (s.ctx (core * 16 + j)).wait with
      | some w => w.ph == 4 && decide (w.till ≤ now)
      | none => false

/-- Marks what an event uses. -/
def State.use (s : State) (i : Instr) (k : Nat) : State :=
  match s.usesOf i k with
  | some u => { s with used := u :: s.used }
  | none => s

/-- Whether something used once per cycle stays used when a die cycle begins: a core's own until its quad begins a cycle
(R399). -/
def staysUsed (began : Nat → Bool) (u : Used) : Bool :=
  match u with
  | .home (.core k) | .intake k | .mask k _ => !began k
  | .freed cx => !began (coreOf cx)
  | _ => false

/-- Pages of a core that are on their way. -/
def pageMoves (core : Nat) (k : Core) : List Move :=
  k.pages.filterMap fun e =>
    if e.2.busy then
      some (if e.2.wb then .event (.pageWritebackComplete core e.1) 0 else .event (.refillComplete core e.1) 0)
    else none

/-- Partitions that hold clusters. -/
def State.partsIn (s : State) : List Nat := (s.clusters.filterMap (fun e => e.2.part)).eraseDups

/-- Bits that are set in a signature. -/
def sigCount (g : Sig) : Nat := (List.range 256).countP (fun i => g.getLsbD i)

/-- Sweeps that begin or end (R189). -/
def State.sweepMoves (s : State) : List Move :=
  s.partsIn.filterMap fun p =>
    if (s.part p).sweeping then (if s.sweepDone p then some (.event .sweepEnd p) else none)
    else if (s.coresOf p).any (fun k => decide (192 ≤ sigCount (s.core k).inh)) then some (.event .sweep p)
    else none

-- Objects and reserved words

/-- Owed wakes whose context, or engine command, polls (R226). -/
def State.pollMoves (s : State) : List Move :=
  (s.objs.map fun e => e.2.owed.filterMap fun w =>
    let cx := w.1.cx
    if engBase ≤ cx then some (Move.event .soPoll cx)
    else if s.waitsAt cx w.1.tid then some (.event .soPoll cx) else none).flatten

/-- Reservations that are broken, and words that pass on. -/
def State.wordBreaks (s : State) : List Move :=
  s.resvq.filterMap fun q => if s.resvOver q then some (.event .reservationBreak q.loc) else none

/-- Whether a request that waits at a word stays behind a write of an engine to its home that no word holds (R210, R215). -/
def State.unitFirst (s : State) (r : Req) : Bool :=
  s.msgs.any fun m =>
    match m with
    | .unitWrite k _ _ cells sc =>
      sameUnit sc k (coreOf r.cx) && cells.any (fun c => decide (homeAt c.1 = r.home)) && (s.resvOn (cells.map Prod.fst)).isNone
    | _ => false

/-- Whether what waits first at a word can be performed: a page on its way is waited for. -/
def State.itemMoves (s : State) (q : ResvQ) : Bool :=
  match q.queue with
  | .req r :: _ =>
    s.reqMoves { r with blocked := false } && !s.unitFirst r && (match s.relDrain r with | some e => !s.drainSent e | none => true)
  | .write _ _ _ :: _ => true
  | [] => false

/-- Words that pass on. -/
def State.wordGrants (s : State) : List Move :=
  s.resvq.filterMap fun q => if q.holder.isNone ∧ s.itemMoves q then some (.event .reservationGrant q.loc) else none

-- Engines, tensor units

/-- Engine commands that start, go on or complete. -/
def State.engMoves (s : State) : List Move :=
  s.cmds.filterMap fun c =>
    match c.st with
    | .done _ _ _ _ _ => if s.sweptNow c.part then none else some (.event .engineCommandComplete c.id)
    | _ => if s.engReady c then some (.event .engineCommandStart c.id) else none

/-- What a quad's tensor unit and ring do. -/
def State.quadMoves (s : State) (q : Nat) (d : Quad) : List Move :=
  (if s.tensorReady q then [Move.event .tensorOpStart q] else [])
    ++ (if d.trun.isSome then [.event (.tensorOpComplete q 0) 0] else [])
    ++ (if d.hand.isSome && d.out.isNone then [.event (.tensorOpComplete q 1) 0] else [])
    ++ (if d.out.isSome && s.latchFree (s.nextQuad q) then [.event .tileArrival q] else [])

/-- Moves between operating points that begin: at once when the target differs and none is in progress (R352). -/
def State.opMoves (s : State) (q : Nat) : List Move :=
  if (s.quad q).move.isNone && decide (s.opTarget q ≠ (s.quad q).op) then [.event .opMoveStart q] else []

-- Launches, timers, the network

/-- What the dispatchers do. -/
def State.launchMovesAll (s : State) : List Move :=
  (s.launches.map fun l =>
    (if s.launchMoves l then [Move.event .depRecheck l.id] else [])
      ++ (l.live.filterMap fun e => if s.reports l e.1 then some (Move.event (.coreDoneReport l.id e.1) 0) else none)).flatten
    ++ (s.launches.map fun l =>
      if s.partOut l.part then []
      else ((l.unsent.map dieOf).eraseDups.filter (fun die => !s.used.contains (.place die))).map (Move.place l.id)).flatten
    ++ (List.range 8).filterMap fun die =>
      if s.placing die < 4 ∧ !(s.selectable die).isEmpty then some (.event .launchSelect die) else none

/-- Timers that are due (R338), those of one tick in the order in which they were set. -/
def State.timersDue (s : State) : List Move :=
  (s.timers.zipIdx).filterMap fun e => if e.1.tick ≤ s.now then some (.event .belfryTimer e.2) else none

/-- What the network engine does with an endpoint. -/
def State.epMoves (s : State) (e : Endpoint) : List Move :=
  (if (s.netWrites e).isSome || s.netStarts e then [Move.event (.workRequestStart e.die e.part e.ep) 0] else [])
    ++ (if s.spawnMoves e && (coreOfPlace s.pkg (zext e.tplace)).isSome then [.event (.neSpawnSend e.die e.part e.ep) 0]
        else [])
    ++ ((e.reqs.map (·.pkts)).flatten.filterMap fun p =>
      if s.rtoDue e.die e.part e.ep p.num then some (.event (.retransmitTimeout e.die e.part e.ep p.num) 0) else none)

/-- Reductions that fail for want of a contribution (R378). -/
def State.redMoves (s : State) : List Move :=
  (s.reds.zipIdx).filterMap fun e => if e.1.late s.now then some (.event .reduceTimeout e.2) else none

-- All of them

/-- Events whose time the manual fixes and has come. -/
def State.musts (s : State) : List Move :=
  (s.ctxs.map (fun e => s.ctxDue e.1 e.2)).flatten
    ++ (s.cores.filterMap fun e => if s.slotDue e.1 e.2 then some (.event .vectorSlotEntry e.1) else none)
    ++ s.recordMoves ++ s.wordBreaks
    ++ (s.tiles.filterMap fun e => if s.tileOver e.1 && !e.2.dead then some (.event .tileExpiry e.1) else none)
    ++ s.timersDue ++ s.redMoves ++ (if s.watchdogDue then [.event .watchdogExpiry 0] else [])
    ++ (s.quads.map (fun e => s.opMoves e.1)).flatten ++ s.opMoves quadCount
    ++ (match s.lease with | some t => if t ≤ s.now then [.event .leaseExpiry 0] else [] | none => [])

/-- What may happen next, at a time that the manual leaves open (log 3, log 5). -/
def State.mays (s : State) : List Move :=
  s.msgMoves ++ s.cmdMovesAll
    ++ (s.ctxs.filterMap fun e => if s.quietNow e.1 e.2 then some (.event .quietReport e.1) else none)
    ++ (s.cores.map (fun e => pageMoves e.1 e.2)).flatten
    ++ s.sweepMoves ++ s.pollMoves ++ s.wordGrants ++ s.engMoves
    ++ (s.quads.map (fun e => s.quadMoves e.1 e.2)).flatten
    ++ s.launchMovesAll ++ (s.eps.map s.epMoves).flatten

-- The clock

/-- The cores of the contexts that are listed, in order. -/
def State.busyCores (s : State) : List Nat := (s.ctxs.map (fun e => coreOf e.1)).eraseDups

/-- A quad passes a die cycle, and keeps whether it begins a cycle with it. -/
def State.passQuad (s : State) (q : Nat) (tick : Bool) : State × Bool :=
  let (s1, new) := s.clockQuad q tick
  (s1.modQuad q (fun d => { d with edge := new }), new)

/-- The listed quads pass a die cycle, in order; those that begin a cycle are collected. -/
def State.clockQuads (s : State) (tick : Bool) : List Nat → State × List Nat
  | [] => (s, [])
  | q :: t =>
    let (s1, new) := s.passQuad q tick
    let (s2, l) := s1.clockQuads tick t
    (s2, if new then q :: l else l)

/-- A die cycle begins (R349, R351, R399): the Belfry counts 5 ticks in 7 of them, quads follow their own clocks, and the
cores of those that begin a cycle take their turns, in ascending order (log 4). -/
def State.nextCycle (s : State) : State :=
  let n := s.dieCyc + 1
  let tick := decide (s.dieCyc * 5 / 7 < n * 5 / 7)
  let s0 : State := { s with dieCyc := n, now := if tick then s.now + 1 else s.now }
  let listed := s.quads.map Prod.fst
  let (s1, new) := s0.clockQuads tick listed
  let (s2, rest) := s1.passQuad quadCount tick
  let began (k : Nat) : Bool := if listed.contains (quadOf k) then new.contains (quadOf k) else rest
  { s2 with turn := s2.busyCores.filter began, used := s2.used.filter (staysUsed began) }

/-- Makes a move. -/
def State.make (s : State) (m : Move) : Out :=
  match m with
  | .event i k => exec i { s.use i k with sel := k }
  | .retry k => s.retryMsg k
  | .host k =>
    match s.msgs[k]? with
    | some (.host kind h) => .next (if s.hostHeld kind h then s.hostAsk kind h else (s.dropMsg k).hostDo kind h)
    | _ => .next s
  | .contrib k =>
    match s.msgs[k]? with
    | some (.contrib c) => exec (.reduceContribution c) (s.dropMsg k)
    | _ => .next s
  | .packet k =>
    match s.msgs[k]? with
    | some (.rxPkt p) => exec (.packetReceive p) (s.dropMsg k)
    | _ => .next s
  | .unitWrite k => .next (s.putUnitWrite k)
  | .status k => .next (s.putStatus k)
  | .ring k => .next (s.admitRing k)
  | .resFlit k =>
    match s.msgs[k]? with
    | some (.redRes (die, part, ep, idx) _ _ b) =>
      (match s.resultFlit die part ep idx b with
      | some f => exec (.flitReceive f) s
      | none => .next s)
    | _ => .next s
  | .wake k => .next (s.putWake k)
  | .record die => .next (s.putRecord die)
  | .place id die => .next (s.placeNext id die)
  | .clock => .next s.objectsEnd.nextCycle

/-- Between two cycles: an event that is due, else what the next pick chooses among what may happen and the next cycle;
without a pick, the first. -/
def State.between (s : State) : Out :=
  match s.musts with
  | m :: _ => s.make m
  | [] =>
    let l := s.mays ++ [.clock]
    ({ s with picks := s.picks.drop 1 } : State).make (l.getD (s.picks.headD 0 % l.length) .clock)

/-- What the outside world does next. -/
def State.takeInput (s : State) (x : Input) : Out :=
  match x with
  | .event i k => exec i { s with sel := k }
  | .command die c => .next (s.modDie die (fun d => { d with cmdq := d.cmdq ++ [c] }))
  | .write loc b =>
    .next (s.homeWrite none ((cellsOfBytes (span loc b.length) b).filter (fun c => !isFleetLoc c.1)))
  | .peer die part idx e => .next { s with peers := tset ((die * 1024 + part) * 1024 + idx) e s.peers }
  | .addr die part a => .next { s with addrs := tset (die * 1024 + part) a s.addrs }
  | .bars part two four => .next { s with bars := tset part (two, four) s.bars }
  | .allot part kind l => .next { s with allots := tset (part * 4 + kind % 4) l s.allots }
  | .drth q v => .next (s.modQuad q (fun d => { d with drth := v &&& 0x1FFFFFF }))
  | .expose => .next s.expose

/-- Commands that a die's command queue holds (15, "Command queue"). -/
def cmdQueueSize : Nat := 256

/-- Whether an input must wait: a command for a queue that is full (log 46). -/
def State.inputWaits (s : State) (x : Input) : Bool :=
  match x with
  | .command die _ => decide (cmdQueueSize ≤ (s.die die).cmdq.length)
  | _ => false

/-- Whether a package whose start has stopped takes an input: a reset, or a read of what the physical function exposes
(R395). -/
def takenStopped (x : Input) : Bool :=
  match x with
  | .event (.deviceReset _) _ | .expose => true
  | _ => false

end Sys2Proof.Machine
end

