-- ==== Sys2Proof/Machine/Step.lean ====
section
/-! DEFINITION. The step, and the state in which the next step fetches and runs a given instruction (log 6). -/

namespace Sys2Proof.Machine

/-- What the package does of its own: the cycle of the next core in turn, else what happens between two cycles. -/
def State.run (s : State) : Out :=
  match s.turn with
  | c :: t => ({ s with turn := t } : State).coreCycle c
  | [] => s.between

/-- One step: what the outside world does, else what the package does of its own. A package whose start has stopped takes
nothing but another reset and reads of its records and error log (R395). -/
def step (s : State) : Host.Outcome State Fault Refusal :=
  match s.inputs with
  | x :: t =>
    if s.stopped && !takenStopped x then .next { s with inputs := t }
    else if s.inputWaits x then s.run
    else ({ s with inputs := t } : State).takeInput x
  | [] => if s.stopped then .fault .startStopped else s.run

/-- The address at which `withFetchWord` lets context 0 of core 0 issue: the first of the global window. -/
def fetchVa : Word := 0x100000000000

/-- The state whose next step fetches and runs the instruction of `nbits` bits `w` (log 6): the outside world and the
cores before core 0 have nothing to do; cluster 0 belongs to partition 0, which is in place; `fetchVa` is translated to
physical address 0, which holds the instruction in a line that is neither cached nor bad; context 0 of core 0 is READY
there, and its own position has come. -/
def State.withFetchWord (s : State) (nbits w : Nat) : State :=
  let v := w % 2 ^ nbits
  let q := s.quad 0
  let cyc := (q.cyc + 15) / 16 * 16
  let c := s.ctx 0
  { s with
    inputs := []
    stopped := false
    turn := [0]
    mem := memWrite s.mem 0 20 v
    clusters := tset 0 { s.cluster 0 with part := some 0 } s.clusters
    parts := if s.partOut 0 then tset 0 { s.part 0 with pre := .no } s.parts else s.parts
    cores := tset 0 { s.core 0 with tlb := { part := 0, lg := 16, vpn := 2 ^ 28, base := 0, w := true, x := true }
                                      :: (s.core 0).tlb } s.cores
    quads := tset 0 { q with cyc := cyc, icache := q.icache.filter (fun e => decide (e.1 ≠ 0)) } s.quads
    flaws := s.flaws.filter (fun e => decide (e.1 ≠ 0))
    retired := s.retired.filter (fun x => decide (x ≠ 0))
    ctxs := tset 0 { c with state := .ready, why := 0, pc := fetchVa, wait := none, frame := none, run := [], pend := 0
                            last := none, resume := false } s.ctxs }

end Sys2Proof.Machine
end

