-- ==== Sys2Proof/Safety.lean ====
section
/-! DEFINITION. The terms that statements use: reading the machine, what a register-only instruction may change, the
results that the manual's tables give (R88–R101), and the invariant of a run. -/

namespace Sys2Proof.Machine

-- Reading the machine

/-- The byte that the storage holds at a location. -/
def State.byteAt (s : State) (a : Nat) : Byte := memGet s.mem a

/-- Every byte of memory reads in `t` as it does in `s`. -/
def sameBytes (s t : State) : Prop := ∀ a, t.byteAt a = s.byteAt a

/-- `t` differs from `s` in the record of one context at most. -/
def onlyContext (s t : State) (cx : Nat) : Prop :=
  t = { s with ctxs := t.ctxs } ∧ ∀ k, k ≠ cx → t.ctx k = s.ctx k

/-- The instruction of `n` bytes of the current context completes with the registers of `c`: the context moves on, is
READY, and no other part of the machine changes. -/
def completes (s t : State) (n : Nat) (c : Ctx) : Prop := onlyContext s t s.cur ∧ t.ctx s.cur = (c.advance n).ready

/-- The current context goes on at `a` with the registers of `c`, READY and outside a frame, and no other part of the
machine changes. -/
def goesTo (s t : State) (a : Word) (c : Ctx) : Prop :=
  onlyContext s t s.cur ∧
    t.ctx s.cur = { c with pc := a, run := [], frame := none, state := .ready, why := 0, wait := none, reissue := false }

/-- ADDR × 4 of `TVEC` or `TEPC` (R269): bits [56:2], the others 0. -/
def addrSpec (x : Word) : Word := BitVec.ofNat 64 (x.toNat % 2 ^ 57 / 4 * 4)

/-- The handler's address is set and the context is not in a handler: a trap is taken (R270), not fatal (R271). -/
def Ctx.catches (c : Ctx) : Prop := addrSpec c.tvec ≠ 0 ∧ c.stat.getLsbD 0 = false

/-- The context after a trap of R270 whose `TEPC` is `at_`, with no delegated section open: the fields of R269 are
written, IH is set, and it goes on at `TVEC`.ADDR × 4. -/
def Ctx.trapped (cause : Nat) (val at_ : Word) (c : Ctx) : Ctx :=
  { c with
    tepc := addrSpec at_, tval := val, tcause := BitVec.ofNat 64 (cause % 256)
    stat := c.stat ||| 1, pc := addrSpec c.tvec, run := [], frame := none, resume := false, reissue := false
    state := .ready, why := 0, wait := none }

/-- The current context owns no lock in OWNER mode, so that a trap needs no owner fallback (R231). -/
def State.noOwned (s : State) : Prop :=
  s.me.deleg = [] ∧ ∀ e ∈ s.objs, ¬(e.2.kind = .lock ∧ e.2.holder = some (s.cur, s.me.tid) ∧ e.2.mode = modeOWNER)

/-- The current instruction traps: the trap of R270 is taken, and nothing else changes. -/
def traps (s t : State) (cause : Nat) (val at_ : Word) : Prop :=
  onlyContext s t s.cur ∧ t.ctx s.cur = s.me.trapped cause val at_

/-- The memory keeps its canonical form (log 1): equal memories are equal data. -/
def State.Inv (s : State) : Prop := Memory.wf s.mem = true

-- Results of the integer instructions (R88–R94)

/-- The field of width `w` at bit 0. -/
def lowMask (w : Nat) : Word := BitVec.ofNat 64 (2 ^ w - 1)

/-- `bfx` of R90. -/
def bfxSpec (a : Word) (lo w : Nat) : Word := BitVec.ofNat 64 (a.toNat / 2 ^ lo % 2 ^ w)

/-- `bfi` of R90: bits that would land at 64 or above are dropped. -/
def bfiSpec (d a : Word) (lo w : Nat) : Word := (d &&& ~~~(lowMask w <<< lo)) ||| ((a &&& lowMask w) <<< lo)

/-- The count of a shift: bits [5:0]. -/
def countOf (b : Word) : Nat := b.toNat % 64

/-- The destination and the new value of an integer instruction (R88–R92, R94), from the context that issues it; none
for another instruction, and for a division by zero. -/
def intSpec (i : Instr) (c : Ctx) : Option (GReg × Word) :=
  let g := c.gr
  match i with
  | .add d a b => some (d, BitVec.ofNat 64 ((g a).toNat + (g b).toNat))
  | .sub d a b => some (d, BitVec.ofInt 64 ((g a).toInt - (g b).toInt))
  | .and d a b => some (d, g a &&& g b)
  | .or d a b => some (d, g a ||| g b)
  | .xor d a b => some (d, g a ^^^ g b)
  | .shl d a b => some (d, BitVec.ofNat 64 ((g a).toNat * 2 ^ countOf (g b)))
  | .shr d a b => some (d, BitVec.ofNat 64 ((g a).toNat / 2 ^ countOf (g b)))
  | .sar d a b => some (d, BitVec.ofInt 64 ((g a).toInt / 2 ^ countOf (g b)))
  | .rol d a b =>
    some (d, BitVec.ofNat 64 ((g a).toNat * 2 ^ countOf (g b)) ||| BitVec.ofNat 64 ((g a).toNat / 2 ^ (64 - countOf (g b))))
  | .min d a b => some (d, if (g a).toInt < (g b).toInt then g a else g b)
  | .max d a b => some (d, if (g a).toInt < (g b).toInt then g b else g a)
  | .minn d a b => some (d, if (g a).toNat < (g b).toNat then g a else g b)
  | .maxn d a b => some (d, if (g a).toNat < (g b).toNat then g b else g a)
  | .clz d a => some (d, BitVec.ofNat 64 ((List.range 64).takeWhile (fun k => !(g a).getLsbD (63 - k))).length)
  | .ctz d a => some (d, BitVec.ofNat 64 ((List.range 64).takeWhile (fun k => !(g a).getLsbD k)).length)
  | .pop d a => some (d, BitVec.ofNat 64 ((List.range 64).countP (fun k => (g a).getLsbD k)))
  | .bfx d a b => some (d, bfxSpec (g a) ((g b).toNat % 64) ((g b).toNat / 64 % 64 + 1))
  | .bfi d a b => some (d, bfiSpec (g d) (g a) ((g b).toNat % 64) ((g b).toNat / 64 % 64 + 1))
  | .sel d a b p => some (d, if c.pr p then g a else g b)
  | .addi d a i => some (d, BitVec.ofInt 64 ((g a).toInt + i.toInt))
  | .andi d a i => some (d, BitVec.ofNat 64 ((g a).toNat &&& i.toNat))
  | .ori d a i => some (d, BitVec.ofNat 64 ((g a).toNat ||| i.toNat))
  | .xori d a i => some (d, BitVec.ofNat 64 ((g a).toNat ^^^ i.toNat))
  | .shli d a n => some (d, BitVec.ofNat 64 ((g a).toNat * 2 ^ n.toNat))
  | .shri d a n => some (d, BitVec.ofNat 64 ((g a).toNat / 2 ^ n.toNat))
  | .sari d a n => some (d, BitVec.ofInt 64 ((g a).toInt / 2 ^ n.toNat))
  | .bfxImm d a l w => some (d, bfxSpec (g a) l.toNat (w.toNat + 1))
  | .bfiImm d a l w => some (d, bfiSpec (g d) (g a) l.toNat (w.toNat + 1))
  | .lui d i => some (d, BitVec.ofInt 64 (i.toInt * 2 ^ 18))
  | .adpc d i => some (d, BitVec.ofInt 64 ((c.pc.toNat : Int) + 4 * i.toInt))
  | .mul d a b => some (d, BitVec.ofNat 64 ((g a).toNat * (g b).toNat))
  | .mulh d a b => some (d, BitVec.ofInt 64 ((g a).toInt * (g b).toInt / 2 ^ 64))
  | .mulhn d a b => some (d, BitVec.ofNat 64 ((g a).toNat * (g b).toNat / 2 ^ 64))
  | .div d a b =>
    if g b = 0 then none
    else if (g a).toInt = -2 ^ 63 ∧ (g b).toInt = -1 then some (d, BitVec.ofInt 64 (-2 ^ 63))
    else some (d, BitVec.ofInt 64 ((g a).toInt.tdiv (g b).toInt))
  | .divn d a b => if g b = 0 then none else some (d, BitVec.ofNat 64 ((g a).toNat / (g b).toNat))
  | .rem d a b =>
    if g b = 0 then none
    else if (g a).toInt = -2 ^ 63 ∧ (g b).toInt = -1 then some (d, 0)
    else some (d, BitVec.ofInt 64 ((g a).toInt.tmod (g b).toInt))
  | .remn d a b => if g b = 0 then none else some (d, BitVec.ofNat 64 ((g a).toNat % (g b).toNat))
  | _ => none

/-- The conditions of R93 on two values. -/
def condSpec (k : Cond) (a b : Word) : Bool :=
  match k with
  | .eq => decide (a.toNat = b.toNat)
  | .ne => decide (a.toNat ≠ b.toNat)
  | .lt => decide (a.toInt < b.toInt)
  | .ltn => decide (a.toNat < b.toNat)
  | .le => decide (a.toInt ≤ b.toInt)
  | .len => decide (a.toNat ≤ b.toNat)

/-- The new registers of a scalar floating-point instruction that writes an f register, a predicate or a general
register (R97–R99), with its flags recorded (R86); none for another instruction. -/
def fpSpec (i : Instr) (c : Ctx) : Option Ctx :=
  let f := c.fr
  let put (d : Reg8) (r : Word × FFlags) : Option Ctx := some ((c.setF d r.1).flags r.2)
  match i with
  | .fadd z r d a b => put d (faddW z r (f a) (f b))
  | .fsub z r d a b => put d (fsubW z r (f a) (f b))
  | .fmul z r d a b => put d (fmulW z r (f a) (f b))
  | .fma z r d a b e => put d (fmaW z r (f a) (f b) (f e))
  | .fdiv z r d a b => put d (fdivW z r (f a) (f b))
  | .fsqrt z r d a => put d (fsqrtW z r (f a))
  | .fmin z d a b => put d (fminMaxW false z (f a) (f b))
  | .fmax z d a b => put d (fminMaxW true z (f a) (f b))
  | .fcmp k z d a b =>
    let r := fcmpV k (fval z (f a)) (fval z (f b))
    some ((c.setP d r.1).flags (FFlags.inv r.2))
  | .fclass z d a => some (c.setG d (fclassW z (f a)))
  | .fcvtD2s r d a => put d (fcvtW .f64 .f32 r (f a))
  | .fcvtS2d d a => put d (fcvtW .f32 .f64 .rne (f a))
  | .fcvtD2i r y d a => some ((c.setG d (fcvtIntW .f64 r y (f a)).1).flags (fcvtIntW .f64 r y (f a)).2)
  | .fcvtS2i r y d a => some ((c.setG d (fcvtIntW .f32 r y (f a)).1).flags (fcvtIntW .f32 r y (f a)).2)
  | .fcvtI2d r y d a => put d (fcvtFromIntW .f64 r y (c.gr a))
  | .fcvtI2s r y d a => put d (fcvtFromIntW .f32 r y (c.gr a))
  | .fmvgf d a => some (c.setF d (c.gr a))
  | .fmvfg d a => some (c.setG d (f a))
  | _ => none

/-- Whether an instruction writes an F32 result into an f register (R85, R97, R99). -/
def f32Dest (i : Instr) : Option Reg8 :=
  match i with
  | .fadd .f32 _ d _ _ | .fsub .f32 _ d _ _ | .fmul .f32 _ d _ _ | .fma .f32 _ d _ _ _ | .fdiv .f32 _ d _ _
  | .fsqrt .f32 _ d _ | .fmin .f32 d _ _ | .fmax .f32 d _ _ | .fcvtD2s _ d _ | .fcvtI2s _ _ d _ => some d
  | _ => none

/-- Whether an instruction writes an F64 result into an f register (R97, R99). -/
def f64Dest (i : Instr) : Option Reg8 :=
  match i with
  | .fadd .f64 _ d _ _ | .fsub .f64 _ d _ _ | .fmul .f64 _ d _ _ | .fma .f64 _ d _ _ _ | .fdiv .f64 _ d _ _
  | .fsqrt .f64 _ d _ | .fmin .f64 d _ _ | .fmax .f64 d _ _ | .fcvtS2d d _ | .fcvtI2d _ _ d _ => some d
  | _ => none

/-- Whether a word of a format is a NaN: all exponent bits set and a fraction that is not 0 (IEEE 754). -/
def nan64 (x : Word) : Prop := x.toNat / 2 ^ 52 % 2 ^ 11 = 2 ^ 11 - 1 ∧ x.toNat % 2 ^ 52 ≠ 0
/-- The same of an F32 value. -/
def nan32 (x : Word) : Prop := x.toNat / 2 ^ 23 % 2 ^ 8 = 2 ^ 8 - 1 ∧ x.toNat % 2 ^ 23 ≠ 0

/-- A finite value of a binary format with `eb` exponent and `mb` fraction bits (R105, IEEE 754-2019), as an integer number
of the format's least positive values; none for an infinity or a NaN. -/
def ieeeUnits (eb mb x : Nat) : Option Int :=
  let m := x % 2 ^ mb
  let e := x / 2 ^ mb % 2 ^ eb
  let v : Int := ((if e = 0 then m else (2 ^ mb + m) * 2 ^ (e - 1) : Nat) : Int)
  if e = 2 ^ eb - 1 then none else some (if x / 2 ^ (eb + mb) % 2 = 1 then -v else v)

/-- The exponent and fraction bits of a precision (R96). -/
def precBits : Prec → Nat × Nat
  | .f64 => (11, 52)
  | .f32 => (8, 23)

/-- The least positive value of a precision is 2 to the minus this. -/
def leastPower : Prec → Nat
  | .f64 => 1074
  | .f32 => 149

/-- The finite value in an f register, in least positive values of its precision (R85, R96). -/
def fpUnits (z : Prec) (x : Word) : Option Int :=
  ieeeUnits (precBits z).1 (precBits z).2 (match z with | .f64 => x.toNat | .f32 => x.toNat % 2 ^ 32)

/-- The integer that a conversion from an integer type reads (R99). -/
def ityInt (y : ITy) (a : Word) : Int :=
  match y with
  | .i32 => (a.setWidth 32).toInt
  | .i64 => a.toInt
  | .w32 => ((a.setWidth 32).toNat : Int)
  | .w64 => (a.toNat : Int)

/-- A scalar instruction on finite operands with an exact dyadic result (R97, R99): its precision, its rounding mode, its
destination, and that exact result as `x` and `k`, in units of 2^-k least positive values of the precision. -/
def fpExact (i : Instr) (c : Ctx) : Option (Prec × RMode × Reg8 × Int × Nat) :=
  let u (z : Prec) (a : Reg8) : Option Int := fpUnits z (c.fr a)
  match i with
  | .fadd z r d a b => (u z a).bind fun x => (u z b).map fun y => (z, r, d, x + y, 0)
  | .fsub z r d a b => (u z a).bind fun x => (u z b).map fun y => (z, r, d, x - y, 0)
  | .fmul z r d a b => (u z a).bind fun x => (u z b).map fun y => (z, r, d, x * y, leastPower z)
  | .fma z r d a b e =>
    (u z a).bind fun x => (u z b).bind fun y => (u z e).map fun w =>
      (z, r, d, x * y + w * 2 ^ leastPower z, leastPower z)
  | .fcvtD2s r d a => (u .f64 a).map fun x => (.f32, r, d, x, leastPower .f64 - leastPower .f32)
  | .fcvtI2d r y d a => some (.f64, r, d, ityInt y (c.gr a) * 2 ^ leastPower .f64, 0)
  | .fcvtI2s r y d a => some (.f32, r, d, ityInt y (c.gr a) * 2 ^ leastPower .f32, 0)
  | _ => none

/-- The finite value `v` is `x` × 2^-k rounded in a mode (R96, IEEE 754-2019), among all the finite values `w` of the
precision; `code` is the register image that holds `v`. -/
def ieeeRounds (z : Prec) (r : RMode) (x : Int) (k : Nat) (code : Word) (v : Int) : Prop :=
  ∀ (c : Nat) (w : Int), ieeeUnits (precBits z).1 (precBits z).2 c = some w →
    match r with
    | .rz => (v * 2 ^ k).natAbs ≤ x.natAbs ∧ 0 ≤ v * x ∧ ((w * 2 ^ k).natAbs ≤ x.natAbs → w.natAbs ≤ v.natAbs)
    | .rd => v * 2 ^ k ≤ x ∧ (w * 2 ^ k ≤ x → w ≤ v)
    | .ru => x ≤ v * 2 ^ k ∧ (x ≤ w * 2 ^ k → v ≤ w)
    | .rne =>
      (v * 2 ^ k - x).natAbs ≤ (w * 2 ^ k - x).natAbs ∧
        ((v * 2 ^ k - x).natAbs = (w * 2 ^ k - x).natAbs → w ≠ v → code.toNat % 2 = 0)
    | .rna =>
      (v * 2 ^ k - x).natAbs ≤ (w * 2 ^ k - x).natAbs ∧
        ((v * 2 ^ k - x).natAbs = (w * 2 ^ k - x).natAbs → w ≠ v → w.natAbs < v.natAbs)

/-- The greatest finite value of a precision, in its least positive values. -/
def fpMax (z : Prec) : Int := (2 ^ ((precBits z).2 + 1) - 1) * 2 ^ (2 ^ (precBits z).1 - 3)

-- Accesses to memory

/-- The `n` bytes from location `a` hold the number `v`, least significant byte first, in `t`; every other byte reads as
in `s` (objects' images included, R222). -/
def storesNum (s t : State) (a n v : Nat) : Prop :=
  ∀ x, t.rdByte x = if a ≤ x ∧ x < a + n then BitVec.ofNat 8 (v / 256 ^ (x - a)) else s.rdByte x

/-- Every byte reads in `t` as in `s`, objects' images included. -/
def sameReads (s t : State) : Prop := ∀ x, t.rdByte x = s.rdByte x

/-- `t` differs from `s` in memory with its free marks, in the page descriptors and L1s of cores, in watches and messages,
and in the record of one context at most. -/
def memoryAndContext (s t : State) (cx : Nat) : Prop :=
  t = { s with
    ctxs := t.ctxs, mem := t.mem, freeMarks := t.freeMarks, cores := t.cores, watches := t.watches, msgs := t.msgs } ∧
  (∀ k, k ≠ cx → t.ctx k = s.ctx k)

/-- The access of `n` bytes at `ea` is aligned and goes to offset `off` of the current context's own scratchpad, on a
valid, resident page (R149); no read error (R396) and no reservation (R209) lies there. -/
def State.ownAt (s : State) (ea : Word) (n : Nat) (k : AccKind) (off : Nat) : Prop :=
  ea.toNat % n = 0 ∧ inFleet ea = false ∧ s.translate s.myCore s.myPart ea k = .ok (.scratch s.myCore off) ∧
    s.pageSt s.myCore (off / 4096) = .ready ∧ s.resvOn (span (scratchLoc s.myCore off) n) = none ∧ s.flaws = [] ∧
    s.retired = [] ∧ s.lost = []

/-- The same for an address that is a sum, which names a window only when it is a 64-bit address (R7, R142). -/
def State.ownAtSum (s : State) (z : Int) (n : Nat) (k : AccKind) (off : Nat) : Prop :=
  0 ≤ z ∧ z < 2 ^ 64 ∧ s.ownAt (BitVec.ofInt 64 z) n k off

/-- The context's acquire finds nothing to drain and no sweep, so that it completes at once (R187, R189); no repeat frame
is open, as none may hold a load (R32). -/
def State.acquiresAtOnce (s : State) : Prop := s.me.recs = [] ∧ s.sweepingFor s.cur = false ∧ s.me.frame = none

/-- The effective address of format M (R25): the base plus the signed offset in units of the access size. -/
def eaSpec (base : Word) (z : Sz) (o : BitVec 14) : Word :=
  BitVec.ofInt 64 (base.toNat + o.toInt * (match z with | .b => 1 | .h => 2 | .w => 4 | .d => 8))

/-- The value of `n` bytes as two's complement (R157). -/
def signedNum (n v : Nat) : Int := if 2 ^ (8 * n - 1) ≤ v then (v : Int) - 2 ^ (8 * n) else v

/-- What a load writes (R157): `v` sign-extended or zero-extended. -/
def loadSpec (n : Nat) (sx : Bool) (v : Nat) : Word := BitVec.ofInt 64 (if sx then signedNum n v else v)

/-- `exec` runs `i`, which sends a request; `ev` performs it at its home; and the reply ends the instruction, in `w`. -/
def roundTrip (ev i : Instr) (s u t w : State) : Prop :=
  exec i s = .next u ∧ exec ev { u with sel := s.msgs.length } = .next t ∧
    exec .remoteReply { t with sel := t.msgs.length - 1 } = .next w

/-- The access of the current context at `ea` goes to offset `off` of die `die`'s fleeting memory (R300), in the part that
exists (R293); no read error and no reservation lies in the way. -/
def State.fleetAt (s : State) (ea : Word) (n : Nat) (k : AccKind) (die off : Nat) : Prop :=
  ea.toNat % n = 0 ∧ inFleet ea = true ∧ s.translate s.myCore s.myPart ea k = .ok (.fleet die off) ∧ die < 8 ∧
    off < 2 ^ 29 ∧ s.resvq = [] ∧ s.flaws = [] ∧ s.retired = [] ∧ s.lost = []

/-- The number of the tile that holds an offset of a die's fleeting memory (R293). -/
def tileNo (die off : Nat) : Nat := die * 131072 + off / 4096

/-- `Expired(T, P)` of R295: dead, of another partition, or past its time; no region is retired here. -/
def expiredSpec (s : State) (tile : Nat) : Prop :=
  (s.tile tile).dead = true ∨ (s.tile tile).tpart ≠ s.myPart ∨ (s.tile tile).birth + 16000 * (s.tile tile).tlife ≤ s.now

/-- The new word of `amo.op` (R243), of `n` bytes. -/
def amoSpec (op : AmoOp) (n old x : Nat) : Nat :=
  match op with
  | .add => (old + x) % 2 ^ (8 * n)
  | .and => old &&& x
  | .or => old ||| x
  | .xor => old ^^^ x
  | .min => if signedNum n old < signedNum n x then old else x
  | .max => if signedNum n old < signedNum n x then x else old
  | .minn => if old < x then old else x
  | .maxn => if old < x then x else old

/-- Bytes of an atomic (R243): `.w` 4, `.d` 8. -/
def atomicBytes (dbl : Bool) : Nat := if dbl then 8 else 4

/-- What an atomic does to a word of value `old` (R243): its new value, if it writes one, whether g[d] takes the old value
sign-extended, its address register and destination, its width, ordering and scope; from the registers of its issue. -/
def atomicSpec (i : Instr) (c : Ctx) (old : Nat) : Option (Option Nat × Bool × GReg × GReg × Bool × Ord4 × Scope) :=
  match i with
  | .amo op dbl o sc d a b =>
    some (some (amoSpec op (atomicBytes dbl) old ((c.gr b).toNat % 2 ^ (8 * atomicBytes dbl))),
      decide (op = .add ∨ op = .min ∨ op = .max) && !dbl, d, a, dbl, o, sc)
  | .amoSwap dbl o sc d a b => some (some ((c.gr b).toNat % 2 ^ (8 * atomicBytes dbl)), false, d, a, dbl, o, sc)
  | .amoCas dbl o sc d a b e =>
    some (if old = (c.gr e).toNat % 2 ^ (8 * atomicBytes dbl) then some ((c.gr b).toNat % 2 ^ (8 * atomicBytes dbl)) else none,
      false, d, a, dbl, o, sc)
  | _ => none

-- Objects, groups and contexts

/-- The line at `a` is aligned and is line `off` of the current context's own scratchpad, on a valid, resident page, and no
reservation lies in it (R236). -/
def State.ownLine (s : State) (a : Word) (off : Nat) : Prop :=
  a.toNat % 64 = 0 ∧ inScratch s.myCore a = true ∧ s.translate s.myCore s.myPart a .store = .ok (.scratch s.myCore off) ∧
    s.pageSt s.myCore (off / 4096) = .ready ∧ s.resvOn (span (scratchLoc s.myCore off) 64) = none

/-- An acquire or release of a signature finds no line in any L1, no write-back at a reserved word and no sweep, and
completes at once (R187, R189, R209); no repeat frame is open, as none may hold the instructions that acquire (R32). -/
def State.syncsAtOnce (s : State) : Prop :=
  (∀ k, (s.core k).l1 = []) ∧ s.resvq = [] ∧ s.sweepingFor s.cur = false ∧ s.me.frame = none

/-- No context of this TID waits at the object: the current context has no ticket, is not being served there, and is owed
no wake (R281). -/
def SObj.unasked (o : SObj) (cx : Nat) (tid : BitVec 32) : Prop :=
  (∀ t ∈ o.tickets, ¬(t.cx = cx ∧ t.tid = tid)) ∧ (∀ t, o.serving = some t → ¬(t.cx = cx ∧ t.tid = tid)) ∧
    ∀ w ∈ o.owed, ¬(w.1.cx = cx ∧ w.1.tid = tid)

/-- No wake and no delegated reply of the object in a line is on its way to the current context (R281). -/
def State.noWake (s : State) (line : Nat) : Prop := ∀ m ∈ s.msgs, wakeOf line s.cur s.me.tid m = none

/-- `n` (`.bar`) or `p` (`.ring`) of `sinit` (R237). -/
def sinitN (k : SoKind) (x : Word) : Nat :=
  match k with
  | .lock => 1
  | .bar => x.toNat % 65536
  | .ring => x.toNat % 32

/-- `exec` runs `i` from `s` to `u`; event `ev1`, on the first message that `i` sent, leads to `t`; and event `ev2`, on the
message that `ev1` sent last, leads to `w`. -/
def chain (i ev1 ev2 : Instr) (s u t w : State) : Prop :=
  exec i s = .next u ∧ exec ev1 { u with sel := s.msgs.length } = .next t ∧
    exec ev2 { t with sel := t.msgs.length - 1 } = .next w

/-- The group that the handle in `h` names, with the current context its only member, none pending, and nothing arrived. -/
def State.aloneIn (s : State) (h : Reg8) (g : Group) : Prop :=
  handleV (s.me.hr h) = true ∧ s.groupOf (s.me.hr h) = some g ∧ g.mems = [Member.make s.cur s.me.tid] ∧ g.pending = [] ∧
    g.kind = none ∧ g.lost = false

-- System registers and the FIFOs

/-- A system register as the current context reads it (R13, R86, R87, R269, R282, R338, R346, R369). -/
def sysSpec (s : State) (r : SysReg) : Word :=
  let c := s.me
  let k := s.myCore
  let p := s.part s.myPart
  match r with
  | .stat => c.stat
  | .rcnt => BitVec.ofNat 64 c.rcnt.toNat
  | .tvec => c.tvec
  | .tepc => c.tepc
  | .tcause => c.tcause
  | .tval => c.tval
  | .phase => if c.tag then 1 else 0
  | .place =>
    BitVec.ofNat 64 (s.pkg * 2 ^ 21 + k / 12800 * 2 ^ 18 + k / 64 % 200 * 2 ^ 10 + k / 4 % 16 * 2 ^ 6 + k % 4 * 2 ^ 4 +
      s.cur % 16)
  | .spen => (s.core k).spen
  | .mring => BitVec.ofNat 64 (s.cluster (k / 64)).mring
  | .sopol => p.sopol
  | .gpol => BitVec.ofNat 64 p.dq
  | .drth => (s.quad (k / 4)).drth
  | .tres => if p.tres then 1 else 0
  | .dispq => s.dispq (k / 12800) s.myPart
  | .tmrfree => BitVec.ofNat 64 (1024 - s.timersSet (k / 12800))
  | .nport => (s.die (k / 12800)).nport

/-- The reserved fields of a register of the context that `mts` writes, and the context after writing `v` (R86, R87, R269,
R283); none for a register that is not the context's own or has no writable field. -/
def mtsSpec (r : SysReg) (v : Word) (c : Ctx) : Option (Word × Ctx) :=
  match r with
  | .stat =>
    some (0x0000000003FF06FE, { c with stat := (c.stat &&& 0x0000000003FF06FF) ||| (v &&& 0xFFFFFFFFFC00F900) })
  | .rcnt => some (0xFFFFFFFF00000000, { c with rcnt := BitVec.ofNat 32 v.toNat })
  | .tvec => some (0xFE00000000000003, { c with tvec := v })
  | .tepc => some (0xFE00000000000003, { c with tepc := v })
  | .tcause => some (0xFFFFFFFFFFFCFE00, { c with tcause := v })
  | .tval => some (0, { c with tval := v })
  | .phase => some (0xFFFFFFFFFFFFFFFE, { c with tag := v.getLsbD 0 })
  | _ => none

-- The vector unit

/-- Bits of an element of an integer vector type (R128). -/
def vtyW : VTy → Nat
  | .i8 | .w8 => 8
  | .i16 | .w16 | .h16 => 16
  | .i32 | .w32 | .f32 => 32

/-- Whether an integer vector type is signed (R128). -/
def vtyS : VTy → Bool
  | .i8 | .i16 | .i32 => true
  | _ => false

/-- Element `e` of width `w` of a lane (R123). -/
def elemN (w : Nat) (x : IWord) (e : Nat) : Nat := x.toNat / 2 ^ (w * e) % 2 ^ w

/-- The lane `x` holds in each of its elements of width `w` what `f` gives from those of `a` and `b` (R130). -/
def elemwise (w : Nat) (f : Nat → Nat → Int) (a b x : IWord) : Prop :=
  ∀ e, e < 32 / w → (elemN w x e : Int) = f (elemN w a e) (elemN w b e) % 2 ^ w

/-- An F32 code is NaN. -/
def nanLane (x : IWord) : Bool := decide (x.toNat / 2 ^ 23 % 2 ^ 8 = 2 ^ 8 - 1 ∧ x.toNat % 2 ^ 23 ≠ 0)

/-- What a register-only vector instruction with a vector destination writes (R129–R131, R133–R136, R141), from the table
and the context of its issue: the destination, the lanes that it writes, and what is true of a written lane. -/
def vlaneSpec (q8 : Q8Tab) (i : Instr) (c : Ctx) : Option (Reg8 × (Nat → Bool) × (Nat → IWord → Prop)) :=
  let v (r : Reg8) (l : Nat) : IWord := lane (c.vr r) l
  let act (m : Reg4) (l : Nat) : Bool := (c.mr m).getLsbD l
  let sx (t : VTy) (x : Nat) : Int := if vtyS t then signedNum (vtyW t / 8) x else x
  match i with
  | .vadd r d a b m => some (d, act m, fun l x => x = f32Add r (v a l) (v b l))
  | .vsub r d a b m => some (d, act m, fun l x => x = f32Sub r (v a l) (v b l))
  | .vmul r d a b m => some (d, act m, fun l x => x = f32Mul r (v a l) (v b l))
  | .vfma r d a b e m => some (d, act m, fun l x => x = f32Fma r (v a l) (v b l) (v e l))
  | .vmax d a b m => some (d, act m, fun l x => x = minMaxF32 true (v a l) (v b l))
  | .vmin d a b m => some (d, act m, fun l x => x = minMaxF32 false (v a l) (v b l))
  | .vabs d a m => some (d, act m, fun l x => x = if nanLane (v a l) then 0x7FC00000 else v a l &&& 0x7FFFFFFF)
  | .vneg d a m => some (d, act m, fun l x => x = if nanLane (v a l) then 0x7FC00000 else v a l ^^^ 0x80000000)
  | .vand d a b m => some (d, act m, fun l x => x = v a l &&& v b l)
  | .vor d a b m => some (d, act m, fun l x => x = v a l ||| v b l)
  | .vxor d a b m => some (d, act m, fun l x => x = v a l ^^^ v b l)
  | .vshl t d a b m =>
    some (d, act m, fun l x => elemwise (vtyW t) (fun y z => y * 2 ^ (z % vtyW t)) (v a l) (v b l) x)
  | .vshr t d a b m =>
    some (d, act m, fun l x => elemwise (vtyW t) (fun y z => sx t y / 2 ^ (z % vtyW t)) (v a l) (v b l) x)
  | .vaddInt t d a b m => some (d, act m, fun l x => elemwise (vtyW t) (fun y z => y + z) (v a l) (v b l) x)
  | .vsubInt t d a b m => some (d, act m, fun l x => elemwise (vtyW t) (fun y z => y - z) (v a l) (v b l) x)
  | .vsel d a b q m => some (d, act m, fun l x => x = if act q l then v a l else v b l)
  | .vbcast d g m => some (d, act m, fun _ x => x.toNat = (c.gr g).toNat % 2 ^ 32)
  | .vperm d a b _ m => some (d, act m, fun l x => x = v a ((v b l).toNat % 32))
  | .vcvtF2h r d a b m =>
    let h (e : Nat) : Nat := (round (fmtH16 c.fx) r (f32v (if e < 32 then v a e else v b (e - 32)))).1
    some (d, act m, fun l x => x = BitVec.ofNat 32 (h (2 * l) + h (2 * l + 1) * 65536))
  | .vcvtH2fl r d a m => some (d, act m, fun l x => x = h16ToF32 c.fx r (elem 16 (c.vr a) l).toNat)
  | .vcvtH2fh r d a m => some (d, act m, fun l x => x = h16ToF32 c.fx r (elem 16 (c.vr a) (32 + l)).toNat)
  | .vcvtF2i r t d a m => some (d, act m, fun l x => x = f32ToInt r t (v a l))
  | .vcvtI2f r t d a m =>
    some (d, act m, fun l x => x = roundF32 r (ofIntVal (if vtyS t then (v a l).toInt else (v a l).toNat)))
  | .vdec d a n m =>
    some (d, act m, fun l x => x = roundF32 .rne (q8Dec q8 (elem 8 (c.vr a) (32 * n.toNat + l)).toNat))
  | .vdot d a b e m =>
    let sc := (c.fr e).toNat
    let s (j : Nat) : Val := exactSum ((List.range 32).map fun k =>
      prod (q8Dec q8 (elem 8 (c.vr a) (32 * j + k)).toNat) (q8Dec q8 (elem 8 (c.vr b) (32 * j + k)).toNat))
    some (d, fun l => act m l && decide (l < 4), fun j x =>
      x = accumulate (v d j) (scaleVal (s j) (sc / 2 ^ (8 * j) % 256) (sc / 2 ^ (32 + 8 * j) % 256)))
  | .vtwid d a n m =>
    let w (l : Nat) : IWord × IWord := twiddle ((v a (l / 2 * 2)).toNat % 2 ^ n.toNat * (2 ^ 20 / 2 ^ n.toNat))
    some (d, act m, fun l x => x = if l % 2 = 0 then (w l).1 else (w l).2)
  | _ => none

/-- The vector instructions (R128–R141). -/
def vecInstr : Instr → Bool
  | .vadd _ _ _ _ _ | .vsub _ _ _ _ _ | .vmul _ _ _ _ _ | .vfma _ _ _ _ _ _ | .vmax _ _ _ _ | .vmin _ _ _ _
  | .vabs _ _ _ | .vneg _ _ _ | .vand _ _ _ _ | .vor _ _ _ _ | .vxor _ _ _ _ | .vshl _ _ _ _ _ | .vshr _ _ _ _ _
  | .vaddInt _ _ _ _ _ | .vsubInt _ _ _ _ _ | .vcmp _ _ _ _ _ _ | .vsel _ _ _ _ _ | .vld _ _ _ _ | .vst _ _ _ _
  | .vgath _ _ _ _ | .vscat _ _ _ _ | .vbcast _ _ _ | .vperm _ _ _ _ _ | .vcvtF2h _ _ _ _ _ | .vcvtH2fl _ _ _ _
  | .vcvtH2fh _ _ _ _ | .vcvtF2i _ _ _ _ _ | .vcvtI2f _ _ _ _ _ | .vdec _ _ _ _ | .venc _ _ _ _ | .vdot _ _ _ _ _
  | .ldtab _ | .ldtabQa | .ldtabQb | .vred _ _ _ _ _ | .vbfly _ _ _ _ _ | .vtwid _ _ _ _ => true
  | _ => false

/-- The vector slot of the current core is free for an instruction that issues now (R125): no context waits for it, and
what holds it enters in this cycle. -/
def State.unitFree (s : State) : Prop :=
  (s.core s.myCore).slot.waiting = [] ∧ ∀ h, (s.core s.myCore).slot.holder = some h → h.2 ≤ s.cycOf s.myCore

/-- Nothing holds the vector slot of the current core, enters it or waits for it. -/
def State.unitEmpty (s : State) : Prop :=
  let v := (s.core s.myCore).slot
  v.holder = none ∧ v.entering = none ∧ v.waiting = []

/-- Between `s` and `t` the current context takes the vector slot, to enter in the core's next own cycle (R125); nothing
but the slot and the context changes. What held the slot has its entry still to come in this cycle. Until three cycles after
the entry the slot keeps the registers that the context had, which a kill gives back to it (R127). -/
def takesSlot (s t : State) : Prop :=
  t = { s with ctxs := t.ctxs, cores := t.cores } ∧ (∀ k, k ≠ s.cur → t.ctx k = s.ctx k) ∧
    ∃ u, s.cycOf s.myCore < u ∧ u ≤ s.cycOf s.myCore + 4 ∧ u % 4 = s.myCore % 4 ∧
      ∀ k, t.core k =
        if k = s.myCore then
          { s.core k with
              slot := { holder := some (s.cur, u), waiting := []
                        entering := match (s.core k).slot.holder with
                          | some (x, _) => some x
                          | none => (s.core k).slot.entering
                        undo := { cx := s.cur, till := u + 3, f := s.me.f, v := s.me.v, m := s.me.m } ::
                          (s.core k).slot.undo.filter (fun e => decide (s.cycOf k ≤ e.till)) } }
        else s.core k

/-- The mask and the lane addresses of a vector memory instruction (R132, R133): sums that never overflow (R7). -/
def vaddrSpec (i : Instr) (c : Ctx) : Option (Reg4 × (Nat → Int)) :=
  match i with
  | .vld _ g o m | .vst _ g o m => some (m, fun l => (c.gr g).toNat + o.toInt * 128 + 4 * l)
  | .vgath _ g b m | .vscat _ g b m => some (m, fun l => (c.gr g).toNat + (lane (c.vr b) l).toNat)
  | _ => none

/-- `exec` runs the vector instruction `i` from `s` to `u`, and the slot entry of its core, at cycle `n`, leads to `w`
(R125). -/
def vecRun (i : Instr) (s : State) (n : Nat) (u w : State) : Prop :=
  exec i s = .next u ∧
    exec .vectorSlotEntry
      { u.modQuad (quadOf s.myCore) (fun q => { q with cyc := n }) with sel := s.myCore } = .next w

/-- The current context is READY, the vector slot is empty, no instruction of the core is still to be completed by the
unit, and cycle `n` is past the next entry cycle (R125). -/
def State.vecReady (s : State) (n : Nat) : Prop :=
  s.unitEmpty ∧ s.me.state = .ready ∧ s.cycOf s.myCore + 4 ≤ n ∧
    ∀ j, j < 16 → ∀ w, (s.ctx (s.myCore * 16 + j)).wait = some w → w.ph ≠ 4

-- The tensor unit

/-- The current context's quad. -/
def State.myQuad (s : State) : Nat := quadOf s.myCore

/-- `exec` runs the tensor instruction `i` from `s` to `u`; its operation starts, which leads to `v`, and completes, which
leads to `w` (R163). -/
def tensorRuns (i : Instr) (s u v w : State) : Prop :=
  exec i s = .next u ∧ exec .tensorOpStart { u with sel := s.myQuad } = .next v ∧
    exec (.tensorOpComplete s.myQuad 0) v = .next w

/-- No access waits at the head of the current core's remote queue, and no write of its engines is on its way: an access
of one of its units to its own scratchpad waits for neither (R150, R205). -/
def State.noneBefore (s : State) : Prop :=
  (∀ who, s.headBefore s.myCore who = false) ∧ ∀ l, s.unitWriting s.myCore l = false

/-- The tensor unit of the current context's quad is idle with an empty queue and no tile on its way, the context waits on
no fault, and nothing stands before its accesses. -/
def State.tensorIdle (s : State) : Prop :=
  (s.quad s.myQuad).tq = [] ∧ (s.quad s.myQuad).trun = none ∧ (s.quad s.myQuad).fwd = none ∧
    (s.quad s.myQuad).hand = none ∧ s.faulted (.tensor s.cur s.me.tid) = false ∧ s.noneBefore ∧ s.flaws = [] ∧
    s.retired = [] ∧ s.lost = []

/-- A Q8 code of an image (R160), decoded with the issuing core's table (R114). -/
def State.q8At (s : State) (loc e : Nat) : Val := q8Dec (s.core s.myCore).q8 (s.rdByte (loc + e)).toNat

/-- An H16 element of an image (R160), read under the context's FX (R107). -/
def State.h16At (s : State) (loc e : Nat) : Val :=
  unpack (fmtH16 s.me.fx) ((s.rdByte (loc + 2 * e)).toNat + (s.rdByte (loc + 2 * e + 1)).toNat * 256)

/-- An output of R120: the old element plus the scaled exact sum of the products of the terms in `ts`. -/
def mmaSpec (old : IWord) (ts : List (Val × Val)) (sa sb : Nat) : IWord :=
  accumulate old (scaleVal (exactSum (ts.map (fun p => prod p.1 p.2))) sa sb)

/-- Accumulator `n` of the current context's core. -/
def State.accAt (s : State) (n : Reg4) (i j : Nat) : IWord := accElem (s.core s.myCore).acc[n.toNat] i j

/-- OH or OW of R168 along one axis: input extent, padding before and after, dilation, filter extent, stride. -/
def extentSpec (n p q d f st : Nat) : Nat := if n + p + q < d * (f - 1) + 1 then 0 else (n + p + q - d * (f - 1) - 1) / st + 1

/-- OH of R168. -/
def ohSpec (x : Geo) : Nat := if x.h = 0 ∨ x.w = 0 then 0 else extentSpec x.h x.pt x.pb x.dh x.fh x.sh
/-- OW of R168. -/
def owSpec (x : Geo) : Nat := if x.h = 0 ∨ x.w = 0 then 0 else extentSpec x.w x.pl x.pr x.dw x.fw x.sw

/-- A zero extent of R168, which traps. -/
def Geo.zeroExtent (x : Geo) : Prop := x.fh = 0 ∨ x.fw = 0 ∨ x.sh = 0 ∨ x.sw = 0 ∨ x.dh = 0 ∨ x.dw = 0

/-- The address of element A[i][t] of R169 in an input at `base`, for position `p0` and step `k`; none for a padded one. -/
def convAddr (x : Geo) (base : Word) (p0 k i t : Nat) : Option Int :=
  let kc := (x.c + 31) / 32
  let iy : Int := ((p0 + i) / owSpec x * x.sh : Nat) - (x.pt : Int) + (k / kc / x.fw * x.dh : Nat)
  let ix : Int := ((p0 + i) % owSpec x * x.sw : Nat) - (x.pl : Int) + (k / kc % x.fw * x.dw : Nat)
  if iy < 0 ∨ x.h ≤ iy ∨ ix < 0 ∨ x.w ≤ ix then none
  else some (base.toNat + (iy * x.w + ix) * x.c + (32 * (k % kc) + t : Nat))

-- The engines

/-- The token, channel, engine (true for the convert engine), n field and its limit of the commands of R317. -/
def engForm (i : Instr) : Option (GReg × Reg8 × Bool × GReg × Nat) :=
  match i with
  | .cpy _ t c _ _ n | .cph _ t c _ n => some (t, c, false, n, 15)
  | .cpyX _ t c _ _ n | .cpy2 _ t c _ _ n | .cpt _ t c _ _ n => some (t, c, false, n, 14)
  | .cpy2X _ t c _ _ n => some (t, c, false, n, 13)
  | .cvbF2q _ t c _ _ n | .cvbQ2f _ t c _ _ n => some (t, c, true, n, 14)
  | .cvbF2h _ t c _ _ n | .cvbH2f _ t c _ _ n => some (t, c, true, n, 15)
  | _ => none

-- Launches, task graphs and wake words

/-- No reservation, read error or retired unit stands anywhere, and the current context's core holds no line (R184, R209,
R396). -/
def State.clear (s : State) : Prop := s.resvq = [] ∧ s.flaws = [] ∧ s.retired = [] ∧ s.lost = [] ∧ (s.core s.myCore).l1 = []

/-- The launches of a partition that a die holds or has queued (R326). -/
def State.heldOrQueued (s : State) (die part : Nat) : Nat :=
  (s.launches.filter (fun l => l.die == die && l.part == part && (decide (l.st = .held) || decide (l.st = .queued)))).length

-- The network

/-- The counter that `ncnt` and `ncw` name (R385): SC or RC of an endpoint, if it exists. -/
def State.counterOf (s : State) (x : Nat) : Option Nat :=
  (s.ep? (dieOf s.myCore) s.myPart (x / 2)).map (fun e => if x % 2 = 1 then e.rc else e.sc)

/-- The completion of request `idx` of endpoint `e` goes to dwords 3 and 4 of its ring slot, at the global location `a`; no
line stands in an L1, and no reservation or retired unit is in the way (R374, R375). -/
def State.slotAt (s : State) (e : Endpoint) (idx a : Nat) : Prop :=
  s.planOne (e.who idx) (dieCore e.die) e.part (e.ring + BitVec.ofNat 64 (64 * (idx % 2 ^ e.rlog)) + 24) 16 .engWrite = .ok (span a 16) ∧
    a % 64 = 24 ∧ a < 2 ^ 42 ∧ s.obj? (a / 64) = none ∧ (∀ k, (s.core k).l1 = []) ∧ s.retired = [] ∧ s.lost = [] ∧ s.flaws = [] ∧
    s.resvq = []

/-- The one outstanding request `idx` of endpoint `e` has completed in `t`: dword 3 at
`a` holds CODE and RTX and dword 4 the mask, SC has passed it, and ERRS counts a failure (R374, R375, R385, R388). -/
def requestEnds (t : State) (e : Endpoint) (idx a code rtx mask : Nat) : Prop :=
  t.rd (span a 8) = code + min rtx 65535 * 2 ^ 16 ∧ t.rd (span (a + 8) 8) = mask % 2 ^ 64 ∧
    ∃ e1, t.ep? e.die e.part e.ep = some e1 ∧ e1.reqs = [] ∧ e1.sc = (idx + 1) % 2 ^ 32 ∧
      e1.scErr = (if code = 0 then e.scErr else e.scErr + 1)

/-- `e` has one outstanding request, `r`, which SC reaches next. -/
def Endpoint.onlyReq (e : Endpoint) (r : NReq) : Prop :=
  e.reqs = [r] ∧ r.code = none ∧ e.sc = r.idx

/-- The range of `n` bytes from `off` in the receive buffer of `e` lies on one page that can be written, at the global
location `pa`; no line stands in an L1 and no reservation is in the way (R375). -/
def State.bufferAt (s : State) (e : Endpoint) (off n pa : Nat) : Prop :=
  let va := e.buf + BitVec.ofNat 64 off
  0 < n ∧ va.toNat % 4096 + n ≤ 4096 ∧ s.rxPiece e.die e.part va n = some (span pa n) ∧ pa + n ≤ 2 ^ 42 ∧
    (∀ k, (s.core k).l1 = []) ∧ s.resvq = []

/-- In `t` the bytes `b` stand from the global location `pa`; every other byte is as in `s`. -/
def placedAt (s t : State) (pa : Nat) (b : List Byte) : Prop :=
  ∀ x, t.byteAt x = if pa ≤ x ∧ x < pa + b.length then b.getD (x - pa) 0 else s.byteAt x

-- Wakes

/-- No L1 holds a line, no write-back waits at a reserved word, and no sweep holds up the acquires of a context (R187, R189,
R209). -/
def State.wakesAtOnce (s : State) (cx : Nat) : Prop :=
  (∀ k, (s.core k).l1 = []) ∧ s.resvq = [] ∧ s.sweepingFor cx = false

/-- A context waits on the instruction `i` for an answer under its TID (R59). -/
def State.awaits (s : State) (cx : Nat) (i : Instr) : Prop :=
  (s.ctx cx).state = .waiting ∧ ∃ w, (s.ctx cx).wait = some w ∧ w.i = i ∧ w.ph = 1

/-- The same, for an answer of the object at a line, which the wait names by its location. -/
def State.awaitsAt (s : State) (cx : Nat) (i : Instr) (line : Nat) : Prop :=
  (s.ctx cx).state = .waiting ∧ ∃ w, (s.ctx cx).wait = some w ∧ w.i = i ∧ w.ph = 1 ∧ w.val.toNat / 64 = line

end Sys2Proof.Machine
end

