-- ==== Sys2Proof/Certificates/Slice0/Obligations.lean ====
section
/-! DEFINITION. The statements for the provers, each one a `Prop` named for what it states. -/

open Sys2Proof Sys2Proof.Machine

-- Encoding

/-- Words written out from the spec's encodings decode to the instructions that they stand for: R89 `sel`, R93 `cmp` and
`cmpi`, R92 `lui`, R91 `addi`, R100 `jr`, R102 `rpt`, R282 `trap`, `mfs`, `mts` and `tlbi`. -/
def Obligations.DecodeWords : Prop :=
  decodeTableWord 32 0x0448D012 = some (.sel 1 2 3 4) ∧ decodeTableWord 32 0x1C48C002 = some (.cmp .lt 1 2 3) ∧
  decodeTableWord 32 0x20958064 = some (.cmpi .ltn 2 5 100) ∧ decodeTableWord 32 0x14C0048D = some (.lui 3 0x48D) ∧
  decodeTableWord 32 0x08CC5678 = some (.addi 3 3 0x5678) ∧ decodeTableWord 32 0x383C0000 = some (.jr 15 0) ∧
  decodeTableWord 32 0x3C470064 = some (.rpt 2 1 6 100) ∧ decodeTableWord 32 0x8C001005 = some (.trap 5) ∧
  decodeTableWord 32 0x8CC04000 = some (.mfs 3 .stat) ∧ decodeTableWord 32 0x8C145002 = some (.mts .tvec 5) ∧
  decodeTableWord 32 0x8C186600 = some (.tlbi .clus 6) ∧ decodeTableWord 32 0x8C245020 = some (.fifoPush 0 9)

/-- For every well-formed instruction of the opcode table that has an encoding, with every operand at every value the
encoding admits, the decoder reads back exactly it from its bytes, and leaves the bytes that follow. -/
def Obligations.DecodeEncode : Prop :=
  ∀ (i : Instr) (b rest : List Byte), i.wf = true → encodeBytes i = some b → decode (b ++ rest) = .ok (i, rest)

/-- The decoder answers well-formed instructions only: reserved operand values are refused (R29, R33). R29, first row: a
word with major 0x00 or 0x24 to 0x3F is no instruction, whatever its other bits. -/
def Obligations.DecodedIsWellFormed : Prop :=
  (∀ (b rest : List Byte) (i : Instr), decode b = .ok (i, rest) → i.wf = true) ∧
  (∀ (w : IWord) (sh : Shape) (i : Instr), (majorOf w = 0 ∨ 0x24 ≤ (majorOf w).toNat) → decodeWord w sh ≠ .ok i)

-- The step

/-- A step runs the decoded instruction: when the core in turn has a context to issue (R57), which is in no frame and
whose words at the program counter, as its instruction path reads them, decode to `i` and to nothing more, and `i` names
no pending register (R314), the step is `exec` of `i`. What the step adds: the turn passes, the context's issue cycle is
noted, the fetch may fill the instruction cache, and a frame state that `i` does not resume is dropped (R285; log 26).
-/
def Obligations.StepRunsDecoded : Prop :=
  ∀ (s s1 : State) (core j n : Nat) (t : List Nat) (ws : List IWord) (i : Instr),
    let s0 : State :=
      { ({ s with turn := t } : State).modCtx (core * 16 + j) (fun c => { c with last := some (s.quad (quadOf core)).cyc })
          with cur := core * 16 + j }
    s.inputs = [] → s.stopped = false → s.turn = core :: t → j < 16 →
    ({ s with turn := t } : State).issueSlot core = some j → (s.ctx (core * 16 + j)).frame = none →
    s0.fetchWords (core * 16 + j) (s.ctx (core * 16 + j)).pc n = .ok ws s1 →
    decode (ws.flatMap wordBytes) = .ok (i, []) →
    ((s1.modCtx (core * 16 + j) (Ctx.dropResume i)).me).namesPending i = false →
    step s = exec i (s1.modCtx (core * 16 + j) (Ctx.dropResume i))

/-- The instruction path reads memory (R28, R195): a word whose address is translated by the core's TLB with X = 1, in a
line that the quad's instruction cache does not hold, is the four bytes at that address, least significant first. -/
def Obligations.FetchReadsMemory : Prop :=
  ∀ (s : State) (cx : Nat) (a : Word) (e : TlbEnt),
    window (coreOf cx) a = .global → (s.ctx cx).run = [] → a.toNat % 4 = 0 → e.base % 4 = 0 → 2 ≤ e.lg →
    tlbFind ((s.partOf (coreOf cx)).getD 0) a (s.core (coreOf cx)).tlb = some e → e.x = true →
    s.flaws = [] → s.retired = [] → s.lost = [] →
    (s.quad (quadOf (coreOf cx))).icache.find? (fun x => x.1 == (e.base + a.toNat % 2 ^ e.lg) / 64) = none →
    ∃ t, s.fetchWord cx a =
      .ok [leWord (s.byteAt (e.base + a.toNat % 2 ^ e.lg)) (s.byteAt (e.base + a.toNat % 2 ^ e.lg + 1))
        (s.byteAt (e.base + a.toNat % 2 ^ e.lg + 2)) (s.byteAt (e.base + a.toNat % 2 ^ e.lg + 3))] t ∧ sameBytes s t

/-- A step ends in a next state, but for a package whose start has stopped (R395) with no input left: that is its one
fault, and it refuses nothing. -/
def Obligations.StepOutcomes : Prop :=
  ∀ s : State, if s.stopped = true ∧ s.inputs = [] then step s = .fault .startStopped else ∃ t, step s = .next t

/-- Which context issues (R57): the position that takes a core's cycle can issue, and is the cycle's own position or one
whose own next position is 8 or more cycles away; the own position takes the cycle whenever it can; else the first
position after it, from the eighth on, that can issue takes the cycle, and no position takes it only where none of these
can; a withdrawn position's cycle is never filled (R60). -/
def Obligations.IssueSlotRule : Prop :=
  ∀ (s : State) (core : Nat),
    (∀ j, s.issueSlot core = some j →
      s.canIssue core (s.quad (quadOf core)).cyc j = true ∧ s.posWithdrawn core ((s.quad (quadOf core)).cyc % 16) = false ∧
        (j = (s.quad (quadOf core)).cyc % 16 ∨ 8 ≤ homeDist (s.quad (quadOf core)).cyc j)) ∧
    (s.posWithdrawn core ((s.quad (quadOf core)).cyc % 16) = false →
      s.canIssue core (s.quad (quadOf core)).cyc ((s.quad (quadOf core)).cyc % 16) = true →
      s.issueSlot core = some ((s.quad (quadOf core)).cyc % 16)) ∧
    (s.posWithdrawn core ((s.quad (quadOf core)).cyc % 16) = false →
      s.canIssue core (s.quad (quadOf core)).cyc ((s.quad (quadOf core)).cyc % 16) = false →
      (∀ k, 8 ≤ k → k < 16 →
        s.canIssue core (s.quad (quadOf core)).cyc (((s.quad (quadOf core)).cyc % 16 + k) % 16) = true →
        (∀ m, 8 ≤ m → m < k →
          s.canIssue core (s.quad (quadOf core)).cyc (((s.quad (quadOf core)).cyc % 16 + m) % 16) = false) →
        s.issueSlot core = some (((s.quad (quadOf core)).cyc % 16 + k) % 16)) ∧
      ((∀ k, 8 ≤ k → k < 16 →
        s.canIssue core (s.quad (quadOf core)).cyc (((s.quad (quadOf core)).cyc % 16 + k) % 16) = false) →
        s.issueSlot core = none)) ∧
    (s.posWithdrawn core ((s.quad (quadOf core)).cyc % 16) = true → s.issueSlot core = none)

/-- Moving on (R21, R84, R102): outside a frame the program counter advances by the instruction's length, modulo 2^57;
in a frame of `len` + 1 body words and count `n`, after index `i` of trip `k` comes index `i` + 1, after the last index
the next trip, and after the last trip RFA, TRIP and RIDX are 0 and the program counter is A + 4 × (len + 2). R102: an
`rpt` whose body words are fetched and may all stand in a body opens a frame on them, with the count of its form, trip 0
and index 0; a count of 0 writes `RCNT` and goes on after the body. R102, R103: an `rpt` that an `eret` entered with RFA
set resumes its frame: the count comes from `RCNT`, the trip and the index from `STAT`, an index beyond the body carries
into the trip, and a trip at or above the count ends the frame at once. -/
def Obligations.RepeatFrames : Prop :=
  (∀ (c : Ctx) (n : Nat),
     (c.frame = none → (c.advance n).pc.toNat = (c.pc.toNat + n) % 2 ^ 57 ∧ (c.advance n).stat = c.stat) ∧
     ∀ fr : Frame, c.frame = some fr → fr.len < 16 → statRIDX c.stat ≤ fr.len → statTRIP c.stat < c.rcnt.toNat →
       (statRIDX c.stat < fr.len →
         (c.advance n).frame = some fr ∧ (c.advance n).pc = c.pc ∧ statRIDX (c.advance n).stat = statRIDX c.stat + 1 ∧
           statTRIP (c.advance n).stat = statTRIP c.stat ∧ statRFA (c.advance n).stat = true) ∧
       (statRIDX c.stat = fr.len → statTRIP c.stat + 1 < c.rcnt.toNat →
         (c.advance n).frame = some fr ∧ (c.advance n).pc = c.pc ∧ statRIDX (c.advance n).stat = 0 ∧
           statTRIP (c.advance n).stat = statTRIP c.stat + 1 ∧ statRFA (c.advance n).stat = true) ∧
       (statRIDX c.stat = fr.len → statTRIP c.stat + 1 = c.rcnt.toNat →
         (c.advance n).frame = none ∧ (c.advance n).pc.toNat = (fr.addr.toNat + 4 * (fr.len + 2)) % 2 ^ 57 ∧
           statRIDX (c.advance n).stat = 0 ∧ statTRIP (c.advance n).stat = 0 ∧ statRFA (c.advance n).stat = false)) ∧
  (∀ (s s1 : State) (len : BitVec 4) (stride fsel : BitVec 3) (cnt : BitVec 15) (g : GReg) (body : List IWord),
     s.fetchWords s.cur (s.me.pc + 4) (len.toNat + 1) = .ok body s1 → badBodyWord body = none → s.me.resume = false →
     ∀ x ∈ [(Instr.rpt len stride fsel cnt, BitVec.ofNat 32 cnt.toNat),
         (Instr.rptReg len stride fsel g, BitVec.ofNat 32 ((s.me.gr g).toNat))],
       ∃ t, exec x.1 s = .next t ∧ onlyContext s1 t s.cur ∧ t.me.rcnt = x.2 ∧ statTRIP t.me.stat = 0 ∧
         statRIDX t.me.stat = 0 ∧ t.me.state = .ready ∧ t.me.g = s1.me.g ∧
         (x.2 ≠ 0 → t.me.frame = some ⟨s.me.pc, len.toNat, stride.toNat, fsel, body⟩ ∧ statRFA t.me.stat = true ∧
           t.me.pc = s1.me.pc) ∧
         (x.2 = 0 → t.me.frame = none ∧ statRFA t.me.stat = false ∧
           t.me.pc.toNat = (s.me.pc.toNat + 4 * (len.toNat + 2)) % 2 ^ 57)) ∧
  (∀ (s s1 : State) (len : BitVec 4) (stride fsel : BitVec 3) (cnt : BitVec 15) (g : GReg) (body : List IWord),
     let k := if len.toNat < statRIDX s.me.stat then statTRIP s.me.stat + 1 else statTRIP s.me.stat
     let i := if len.toNat < statRIDX s.me.stat then 0 else statRIDX s.me.stat
     s.fetchWords s.cur (s.me.pc + 4) (len.toNat + 1) = .ok body s1 → badBodyWord body = none → s.me.resume = true →
     statRFA s.me.stat = true →
     ∀ x ∈ [Instr.rpt len stride fsel cnt, .rptReg len stride fsel g],
       ∃ t, exec x s = .next t ∧ onlyContext s1 t s.cur ∧ t.me.rcnt = s.me.rcnt ∧ t.me.state = .ready ∧
         t.me.resume = false ∧ t.me.g = s1.me.g ∧
         (k < s.me.rcnt.toNat → t.me.frame = some ⟨s.me.pc, len.toNat, stride.toNat, fsel, body⟩ ∧
           statRFA t.me.stat = true ∧ statTRIP t.me.stat = k ∧ statRIDX t.me.stat = i ∧ t.me.pc = s1.me.pc) ∧
         (s.me.rcnt.toNat ≤ k → t.me.frame = none ∧ statRFA t.me.stat = false ∧ statTRIP t.me.stat = 0 ∧
           statRIDX t.me.stat = 0 ∧ t.me.pc.toNat = (s.me.pc.toNat + 4 * (len.toNat + 2)) % 2 ^ 57))

-- Reset

/-- The registers at device reset (R84, R392): every context's, for every number; context 0 of each core waits for
RESUME0 and every other context is FREE. -/
def Obligations.ResetRegisters : Prop :=
  ∀ (cx : Nat) (r : GReg) (f v : Reg8) (m : Reg4),
    let c := State.reset.ctx cx
    c.gr r = 0 ∧ c.fr f = 0 ∧ c.pr f = decide (f = 0) ∧ c.hr f = 0 ∧ c.vr v = 0 ∧
      c.mr m = (if m = 0 then 0xFFFFFFFF else 0) ∧ c.pc = 0 ∧ c.stat = 0 ∧ c.rcnt = 0 ∧
      (State.reset.core (coreOf cx)).acc[m.toNat] = 0 ∧ (State.reset.core (coreOf cx)).fifo[m.toNat] = [] ∧
      (State.reset.core (coreOf cx)).q8 = q8aImage ∧ (State.reset.core (coreOf cx)).spen = 0xFFFE ∧
      (if ctxNo cx = 0 then c.state = .waiting ∧ c.why = 14 else c.state = .free)

/-- The memory of the machine after reset is in its canonical form. -/
def Obligations.InvAtReset : Prop :=
  State.reset.Inv

/-- Every step keeps the memory in its canonical form, from every state that has it: addresses rise strictly and no
entry holds what an unlisted address reads as, so that equal memories are equal data. -/
def Obligations.StepKeepsInv : Prop :=
  ∀ s t : State, s.Inv → step s = .next t → t.Inv

-- Traps

/-- R270 for a context that owns no lock in OWNER mode and catches traps: `TEPC`, `TVAL` and `TCAUSE` are written, IH is
set, the program counter is `TVEC`.ADDR × 4, and every other register, every byte of memory and every other part of the
machine is unchanged. R271: a trap with `TVEC`.ADDR = 0 or IH = 1 is fatal. Its cause, `TVAL` and TID are in the die's
error log. Context 0 keeps its registers and becomes WAITING with WHY = 14; a context 1–15 leaves its slot: it is FREE
or in EXIT. -/
def Obligations.TrapEntry : Prop :=
  (∀ (s : State) (cause : Nat) (val at_ : Word), s.noOwned → s.me.catches → cause < 256 →
     traps s (s.takeTrap s.cur cause val at_) cause val at_) ∧
  (∀ (s : State) (cause : Nat) (val at_ : Word), s.noOwned → ¬ s.me.catches →
     let t := s.takeTrap s.cur cause val at_
     (ctxNo s.cur = 0 → t.me = { s.me with state := .waiting, why := 14, wait := none }) ∧
       (ctxNo s.cur ≠ 0 → t.me.state = .free ∨ t.me.state = .exit) ∧
       ∃ e ∈ (t.die (dieOf s.myCore)).elog, e.kind = 3 ∧ e.addr = at_.toNat ∧
         e.info = cause + val.toNat % 2 ^ 32 * 2 ^ 32 ∧ e.tid = s.me.tid ∧ e.tval = val)

/-- R284: `trap n` and `brk n` take the trap of R270 with cause 9 or 10 and `TVAL` := n; `TEPC` records the address plus
4 for `trap` and the address itself for `brk`. -/
def Obligations.TrapAndBrk : Prop :=
  ∀ (s : State) (n : BitVec 12),
    exec (.trap n) s = .next (s.takeTrap s.cur 9 (BitVec.ofNat 64 n.toNat) (s.me.pc + 4)) ∧
      exec (.brk n) s = .next (s.takeTrap s.cur 10 (BitVec.ofNat 64 n.toNat) s.me.pc) ∧
      (s.noOwned → s.me.catches →
        (∃ t, exec (.trap n) s = .next t ∧ traps s t 9 (BitVec.ofNat 64 n.toNat) (s.me.pc + 4)) ∧
          ∃ t, exec (.brk n) s = .next t ∧ traps s t 10 (BitVec.ofNat 64 n.toNat) s.me.pc)

/-- R285: `eret` in a handler clears IH and goes on at `TEPC`.ADDR × 4, with nothing else changed (the context's wait
and run-ahead words apart; an interrupted frame is marked for resumption); outside a handler it takes a protection trap,
whose `TVAL` the spec does not state: it is 0 here (the model's choice, log 76). -/
def Obligations.EretReturns : Prop :=
  ∀ s : State,
    (statIH s.me.stat = true → ∃ t, exec .eret s = .next t ∧ onlyContext s t s.cur ∧
      t.me = { s.me with
        stat := s.me.stat &&& ~~~1, pc := addrSpec s.me.tepc, run := [], resume := statRFA s.me.stat, state := .ready,
        why := 0, wait := none, reissue := false }) ∧
    (statIH s.me.stat = false → exec .eret s = .next (s.takeTrap s.cur 5 0 s.me.pc))

/-- R287: `nop` changes nothing except the program counter. `halt` makes context 0 WAITING with WHY = 14: it does not
issue in any cycle, and RESUME0 of its partition makes it READY at the address that the command gives. From any other
context `halt` takes a protection trap (R28). -/
def Obligations.NopAndHalt : Prop :=
  ∀ s : State,
    (∃ t, exec .nop s = .next t ∧ completes s t 4 s.me) ∧
    (ctxNo s.cur = 0 → ∃ t, exec .halt s = .next t ∧ onlyContext s t s.cur ∧
      t.me = { s.me with state := .waiting, why := 14, wait := none, reissue := false } ∧
      (∀ cyc, t.canIssue s.myCore cyc 0 = false) ∧
      ∀ (die : Nat) (c : Cmd) (q : List Cmd), (s.die die).cmdq = c :: q → (s.die die).cmds = [] → c.d0.toNat < 2 ^ 18 →
        c.d0.toNat % 256 = 0xB → c.a.toNat = s.myCore → s.myCore < 2 ^ 17 → c.b.toNat < 2 ^ 57 → c.b.toNat % 4 = 0 →
        s.partOf s.myCore = some (c.d0.toNat / 256) → (s.part (c.d0.toNat / 256)).pre = .no →
        ∃ u, exec .resume0 { t with sel := die } = .next u ∧ (u.ctx s.cur).state = .ready ∧ (u.ctx s.cur).pc = c.b) ∧
    (ctxNo s.cur ≠ 0 → exec .halt s = .next (s.takeTrap s.cur 5 0 s.me.pc))

/-- R74: `reap`, `kill` and `mts SPEN` from a context 1–15, and `quit` and `mig` from context 0, take a protection trap;
so do `halt` (R287) and `tlbi` (R286) from a context 1–15. -/
def Obligations.PrivilegedTraps : Prop :=
  ∀ (s : State) (d a : GReg) (p : Reg8) (sc : Scope),
    (ctxNo s.cur ≠ 0 →
      ∀ i ∈ [Instr.reap d p, .kill p a, .mts .spen a, .halt, .tlbi sc a, .tlbiAll sc],
        exec i s = .next (s.takeTrap s.cur 5 0 s.me.pc)) ∧
    (ctxNo s.cur = 0 → ∀ i ∈ [Instr.quit, .mig a], exec i s = .next (s.takeTrap s.cur 5 0 s.me.pc))

-- Scalar arithmetic

/-- The integer instructions (R88–R92, R94) write the destination that the tables give with the value of the tables,
move on, and change nothing else: every other register, the flags, memory and every other context. R94: a division or
remainder by zero takes the divide-by-zero trap (cause 2) and leaves g[d] unchanged. The comparisons of R93 write the
predicate of their condition, on a register or on the sign-extended immediate, and change nothing else; a write of `p0`
is discarded (R85). -/
def Obligations.IntegerResults : Prop :=
  (∀ (i : Instr) (s : State) (d : GReg) (v : Word), intSpec i s.me = some (d, v) →
     ∃ t, exec i s = .next t ∧ completes s t 4 (s.me.setG d v)) ∧
  (∀ (s : State) (d a b : GReg), s.me.gr b = 0 →
     ∀ i ∈ [Instr.div d a b, .divn d a b, .rem d a b, .remn d a b],
       exec i s = .next (s.takeTrap s.cur 2 0 s.me.pc) ∧
         (s.noOwned → s.me.catches → ∃ t, exec i s = .next t ∧ traps s t 2 0 s.me.pc ∧ t.me.gr d = s.me.gr d)) ∧
  (∀ (s : State) (k : Cond) (d : Reg8) (a b : GReg) (im : BitVec 15),
     (∃ t, exec (.cmp k d a b) s = .next t ∧ completes s t 4 (s.me.setP d (condSpec k (s.me.gr a) (s.me.gr b)))) ∧
       ∃ t, exec (.cmpi k d a im) s = .next t ∧
         completes s t 4 (s.me.setP d (condSpec k (s.me.gr a) (BitVec.ofInt 64 im.toInt))))

/-- The scalar floating-point instructions (R97–R99) write their destination and record their flags in `STAT` (R86),
never trap, move on, and change nothing else. -/
def Obligations.FpResults : Prop :=
  ∀ (i : Instr) (s : State) (c : Ctx), fpSpec i s.me = some c → ∃ t, exec i s = .next t ∧ completes s t 4 c

/-- R85: an F32 result writes bits [63:32] of its f register as zero. R96: every NaN result is the canonical quiet NaN
of its format. R96, R97, R99: a sum, difference, product, fused product and sum, narrowing or conversion from an
integer, on finite operands, whose exact result lies within the finite range of the format, is the finite value that the
mode names of all values of the format (toward zero, down, up, or nearest with a tie to the even code or away from
zero), and NX is set exactly where it is not the exact result (R86). -/
def Obligations.FpEncodings : Prop :=
  (∀ (i : Instr) (d : Reg8) (s t : State), f32Dest i = some d → exec i s = .next t → (t.me.fr d).toNat < 2 ^ 32) ∧
  (∀ (i : Instr) (d : Reg8) (s t : State), exec i s = .next t →
     (f64Dest i = some d → nan64 (t.me.fr d) → t.me.fr d = 0x7FF8000000000000) ∧
       (f32Dest i = some d → nan32 (t.me.fr d) → t.me.fr d = 0x7FC00000)) ∧
  (∀ (i : Instr) (s t : State) (z : Prec) (r : RMode) (d : Reg8) (x : Int) (k : Nat),
     fpExact i s.me = some (z, r, d, x, k) → x.natAbs ≤ (fpMax z * 2 ^ k).natAbs → exec i s = .next t →
     ∃ v, fpUnits z (t.me.fr d) = some v ∧ ieeeRounds z r x k (t.me.fr d) v ∧
       t.me.stat.getLsbD 11 = (s.me.stat.getLsbD 11 || decide (v * 2 ^ k ≠ x)))

/-- R85: `p0` reads as true and `m0` as all ones, a write to either is discarded, and any other predicate, mask,
general, f, handle or vector register reads what was last written to it. -/
def Obligations.RegisterFile : Prop :=
  ∀ (c : Ctx) (p q : Reg8) (m n : Reg4) (r u : GReg) (b : Bool) (x : IWord) (v : Word) (y : VWord),
    c.pr 0 = true ∧ c.mr 0 = 0xFFFFFFFF ∧ c.setP 0 b = c ∧ c.setM 0 x = c ∧
      (c.setP p b).pr q = (if q = 0 then true else if q = p then b else c.pr q) ∧
      (c.setM m x).mr n = (if n = 0 then 0xFFFFFFFF else if n = m then x else c.mr n) ∧
      (c.setG r v).gr u = (if u = r then v else c.gr u) ∧ (c.setF p v).fr q = (if q = p then v else c.fr q) ∧
      (c.setH p x).hr q = (if q = p then x else c.hr q) ∧ (c.setV p y).vr q = (if q = p then y else c.vr q)

-- Control

/-- Control transfers (R26, R100, R101) whose target is aligned and below 2^57: the program counter is the target, `jal`
and `jalr` link, `jalr` reads its source before it links, and nothing else changes; a branch that is not taken moves on.
R101: a misaligned target of `jr` or `jalr` takes a misalignment trap, and any target with a bit of [63:57] set a
translation fault on the transfer itself, with `TVAL` the whole target. -/
def Obligations.Transfers : Prop :=
  (∀ (s : State) (p : Reg8) (neg : Bool) (o : BitVec 22) (d a : GReg) (n : BitVec 18),
     let t1 := BitVec.ofInt 64 (s.me.pc.toNat + 4 * o.toInt)
     let t2 := BitVec.ofInt 64 ((s.me.gr a).toInt + 4 * n.toInt)
     (s.me.pr p = neg → ∃ t, exec (.br p neg o) s = .next t ∧ completes s t 4 s.me) ∧
     (t1.toNat < 2 ^ 57 →
       (s.me.pr p = !neg → ∃ t, exec (.br p neg o) s = .next t ∧ goesTo s t t1 s.me) ∧
         (∃ t, exec (.jmp o) s = .next t ∧ goesTo s t t1 s.me) ∧
         ∃ t, exec (.jal d o) s = .next t ∧ goesTo s t t1 (s.me.setG d (s.me.pc + 4))) ∧
     (t2.toNat < 2 ^ 57 → t2.toNat % 4 = 0 →
       (∃ t, exec (.jr a n) s = .next t ∧ goesTo s t t2 s.me) ∧
         ∃ t, exec (.jalr d a n) s = .next t ∧ goesTo s t t2 (s.me.setG d (s.me.pc + 4)))) ∧
  (∀ (s : State) (p : Reg8) (neg : Bool) (o : BitVec 22) (d a : GReg) (n : BitVec 18),
     let t1 := BitVec.ofInt 64 (s.me.pc.toNat + 4 * o.toInt)
     let t2 := BitVec.ofInt 64 ((s.me.gr a).toInt + 4 * n.toInt)
     (2 ^ 57 ≤ t1.toNat →
       (s.me.pr p = !neg → exec (.br p neg o) s = .next (s.takeTrap s.cur 4 t1 s.me.pc)) ∧
         exec (.jmp o) s = .next (s.takeTrap s.cur 4 t1 s.me.pc) ∧
         exec (.jal d o) s = .next (s.takeTrap s.cur 4 t1 s.me.pc)) ∧
     (t2.toNat % 4 ≠ 0 →
       exec (.jr a n) s = .next (s.takeTrap s.cur 3 t2 s.me.pc) ∧
         exec (.jalr d a n) s = .next (s.takeTrap s.cur 3 t2 s.me.pc)) ∧
     (t2.toNat % 4 = 0 → 2 ^ 57 ≤ t2.toNat →
       exec (.jr a n) s = .next (s.takeTrap s.cur 4 t2 s.me.pc) ∧
         exec (.jalr d a n) s = .next (s.takeTrap s.cur 4 t2 s.me.pc)))

-- Loads and stores

/-- R157, the checks: a misaligned load, store or atomic takes trap 3; an aligned one in the fleeting window takes trap
5; else one whose address lies in no window, in a hole or in a scratchpad of another partition takes the trap of its
translation. -/
def Obligations.AccessChecks : Prop :=
  ∀ (s : State) (z : Sz) (sx dbl acq : Bool) (d a b e : GReg) (p : Reg8) (o : BitVec 14) (op : AmoOp) (od : Ord4) (sc : Scope),
    ∀ x ∈ [(Instr.ld z sx d a o, eaSpec (s.me.gr a) z o, szBytes z, AccKind.load),
        (.ldAcq z sx d a o, eaSpec (s.me.gr a) z o, szBytes z, .load), (.st z d a o, eaSpec (s.me.gr a) z o, szBytes z, .store),
        (.stRel z d a o, eaSpec (s.me.gr a) z o, szBytes z, .store), (.amo op dbl od sc d a b, s.me.gr a, atomicBytes dbl, .store),
        (.amoSwap dbl od sc d a b, s.me.gr a, atomicBytes dbl, .store),
        (.amoCas dbl od sc d a b e, s.me.gr a, atomicBytes dbl, .store), (.resv dbl acq sc d a, s.me.gr a, atomicBytes dbl, .store),
        (.rlse dbl acq sc p a b, s.me.gr a, atomicBytes dbl, .store)],
      (x.2.1.toNat % x.2.2.1 ≠ 0 → exec x.1 s = .next (s.takeTrap s.cur 3 x.2.1 s.me.pc)) ∧
        (x.2.1.toNat % x.2.2.1 = 0 → inFleet x.2.1 = true → exec x.1 s = .next (s.takeTrap s.cur 5 x.2.1 s.me.pc)) ∧
        ∀ c, x.2.1.toNat % x.2.2.1 = 0 → inFleet x.2.1 = false →
          s.translate s.myCore s.myPart x.2.1 x.2.2.2 = .trap c → exec x.1 s = .next (s.takeTrap s.cur c x.2.1 s.me.pc)

/-- A load from the context's own scratchpad (R157): g[d] is the extended number at the address, the context moves on,
and nothing else changes; `ld.acq`, whose line holds no object (R222), does the same when its acquire has nothing to
wait for. A store to the context's own scratchpad, in a line that holds no object (R157, R222): the bytes at the address
become the low bytes of g[d], every other byte of memory reads as before, the context moves on with no register changed,
and no other context changes; `st.rel` does the same. -/
def Obligations.OwnLoadsAndStores : Prop :=
  (∀ (s : State) (z : Sz) (sx : Bool) (d a : GReg) (o : BitVec 14) (off : Nat),
     s.ownAt (eaSpec (s.me.gr a) z o) (szBytes z) .load off →
     let v := loadSpec (szBytes z) sx (s.rd (span (scratchLoc s.myCore off) (szBytes z)))
     (∃ t, exec (.ld z sx d a o) s = .next t ∧ completes s t 4 (s.me.setG d v)) ∧
       (s.acquiresAtOnce → s.obj? (scratchLoc s.myCore off / 64) = none →
         ∃ t, exec (.ldAcq z sx d a o) s = .next t ∧ completes s t 4 (s.me.setG d v))) ∧
  (∀ (s : State) (z : Sz) (d a : GReg) (o : BitVec 14) (off : Nat),
     s.ownAt (eaSpec (s.me.gr a) z o) (szBytes z) .store off → s.obj? (scratchLoc s.myCore off / 64) = none →
     ∀ i ∈ [Instr.st z d a o, .stRel z d a o],
       ∃ t, exec i s = .next t ∧ memoryAndContext s t s.cur ∧ t.me = (s.me.advance 4).ready ∧
         storesNum s t (scratchLoc s.myCore off) (szBytes z) (s.me.gr d).toNat)

/-- A load or store of global memory whose line the core's L1 holds (R184): a load returns the line's bytes, a store
writes them there and marks them dirty, and memory at the home is unchanged; nothing is sent. A load or store of global
memory that misses the L1 (R146, R184): its request goes to the home slice, which brings the line into the L1 and
performs the access there; the reply ends the instruction. -/
def Obligations.GlobalLoadsAndStores : Prop :=
  (∀ (s : State) (z : Sz) (sx : Bool) (d a : GReg) (o : BitVec 14) (pa : Nat) (e : L1Line),
     let ea := eaSpec (s.me.gr a) z o
     ea.toNat % szBytes z = 0 → inFleet ea = false → s.l1? s.myCore (pa / 64) = some e → pa % 64 + szBytes z ≤ 64 →
     (s.translate s.myCore s.myPart ea .load = .ok (.global pa) →
       ∃ t, exec (.ld z sx d a o) s = .next t ∧ sameBytes s t ∧ t.msgs = s.msgs ∧ t.me.pc = (s.me.advance 4).pc ∧
         t.me.g = (s.me.setG d (loadSpec (szBytes z) sx (e.data.toNat / 2 ^ (8 * (pa % 64)) % 2 ^ (8 * szBytes z)))).g) ∧
     (s.translate s.myCore s.myPart ea .store = .ok (.global pa) → s.me.relp = none →
       ∃ t, exec (.st z d a o) s = .next t ∧ sameBytes s t ∧ t.msgs = s.msgs ∧ t.me = (s.me.advance 4).ready ∧
         ∃ e1, t.l1? s.myCore (pa / 64) = some e1 ∧ ∀ k, k < 64 →
           (elem 8 e1.data k, e1.dirty.getLsbD k) =
             if pa % 64 ≤ k ∧ k < pa % 64 + szBytes z then (BitVec.ofNat 8 ((s.me.gr d).toNat / 256 ^ (k - pa % 64)), true)
             else (elem 8 e.data k, e.dirty.getLsbD k))) ∧
  (∀ (s : State) (z : Sz) (sx : Bool) (d a : GReg) (o : BitVec 14) (pa : Nat),
     let ea := eaSpec (s.me.gr a) z o
     ea.toNat % szBytes z = 0 → inFleet ea = false → s.l1? s.myCore (pa / 64) = none → pa % 64 + szBytes z ≤ 64 →
     pa < 2 ^ 41 → s.resvq = [] → s.flaws = [] → s.retired = [] → s.lost = [] →
     (s.translate s.myCore s.myPart ea .load = .ok (.global pa) →
       ∃ u t w, roundTrip .homeSliceAccess (.ld z sx d a o) s u t w ∧ w.me.pc = (s.me.advance 4).pc ∧
         w.me.state = .ready ∧ (w.l1? s.myCore (pa / 64)).isSome = true ∧
         w.me.gr d = loadSpec (szBytes z) sx (memRead t.mem pa (szBytes z))) ∧
     (s.translate s.myCore s.myPart ea .store = .ok (.global pa) → s.me.relp = none →
       ∃ u t w, roundTrip .homeSliceAccess (.st z d a o) s u t w ∧ w.me.pc = (s.me.advance 4).pc ∧
         w.me.state = .ready ∧ w.me.g = s.me.g ∧ ∃ e, w.l1? s.myCore (pa / 64) = some e ∧ ∀ k, k < 64 →
           (elem 8 e.data k, e.dirty.getLsbD k) =
             if pa % 64 ≤ k ∧ k < pa % 64 + szBytes z then (BitVec.ofNat 8 ((s.me.gr d).toNat / 256 ^ (k - pa % 64)), true)
             else (t.byteAt (pa / 64 * 64 + k), false)))

/-- R158: `pf` and `pf.llc` move on, trap nowhere and change no register, whatever their address. `pf.llc`, and `pf` on
a scratchpad, change no byte that a home reads. On a valid page of a scratchpad with RES = 0 and BUSY = 0 both start its
refill. -/
def Obligations.Prefetches : Prop :=
  ∀ (s : State) (a : GReg) (o : BitVec 14), s.resvq = [] →
    ∀ i ∈ [Instr.pf a o, .pfLlc a o],
      ∃ t, exec i s = .next t ∧ t.me = (s.me.advance 4).ready ∧ (∀ k, k ≠ s.cur → t.ctx k = s.ctx k) ∧
        (i = .pfLlc a o → sameReads s t) ∧ t.tiles = s.tiles ∧
        ∀ core off, s.translate s.myCore s.myPart (BitVec.ofInt 64 ((s.me.gr a).toNat + o.toInt * 64)) .load =
            .ok (.scratch core off) →
          sameReads s t ∧ ((s.page core (off / 4096)).v = true → (s.page core (off / 4096)).res = false →
            (s.page core (off / 4096)).busy = false → (t.page core (off / 4096)).busy = true)

-- Fleeting memory

/-- R301 `ldf`: the home answers 0 with the predicate true for an expired tile, else the bytes with the predicate false;
the reply writes g[d] extended and p[c], and memory is unchanged. R301 `stf`: the home writes the bytes of g[d]; an
expired tile is born first, so that its other bytes read 0 and its record holds the tick and the region's life; a live
tile keeps its other bytes and its BIRTH. -/
def Obligations.FleetingLoadsAndStores : Prop :=
  (∀ (s : State) (z : Sz) (sx : Bool) (d a b : GReg) (c : Reg8) (die off : Nat),
     ∀ x ∈ [(Instr.ldf z sx d a c, s.me.gr a), (.ldfIndexed z sx d a b c, s.me.gr a + s.me.gr b)],
       s.fleetAt x.2 (szBytes z) .load die off →
       ∃ u t w, roundTrip .homeSliceAccess x.1 s u t w ∧ sameBytes s w ∧
         (expiredSpec s (tileNo die off) → w.me = (((s.me.setG d 0).setP c true).advance 4).ready) ∧
         (¬ expiredSpec s (tileNo die off) →
           w.me = (((s.me.setG d (loadSpec (szBytes z) sx (s.rd (span (fleetLoc die off) (szBytes z))))).setP c false).advance
             4).ready)) ∧
  (∀ (s : State) (z : Sz) (d a b : GReg) (die off : Nat),
     ∀ x ∈ [(Instr.stf z d a, s.me.gr a), (.stfIndexed z d a b, s.me.gr a + s.me.gr b)],
       s.fleetAt x.2 (szBytes z) .store die off →
       ∃ u t w, roundTrip .homeSliceAccess x.1 s u t w ∧ w.me = (s.me.advance 4).ready ∧
         (∀ y, w.byteAt y =
           if fleetLoc die off ≤ y ∧ y < fleetLoc die off + szBytes z then
             BitVec.ofNat 8 ((s.me.gr d).toNat / 256 ^ (y - fleetLoc die off))
           else if y / 4096 = fleetLoc die off / 4096 ∧ s.expired (tileNo die off) s.myPart = true then 0 else s.byteAt y) ∧
         (expiredSpec s (tileNo die off) → w.tile (tileNo die off) =
           { birth := s.now, tpart := s.myPart, dead := false
             tlife := if (s.region (tileNo die off)).part = some s.myPart then (s.region (tileNo die off)).life else 256 }) ∧
         (¬ expiredSpec s (tileNo die off) → w.tile (tileNo die off) = s.tile (tileNo die off)))

/-- R302: `rnw` bears an expired tile and gives 0, and renews a live one and gives 1; `life` gives 0 or the ticks left,
in whole microseconds where the partition's resolution is 1 µs; `fdrop` sets DEAD. R303: `life.set` sends the new life
to the 16 homes of its region, each of which writes LIFE and PART into its copy of the record; an acknowledgement counts
down, and the sixteenth ends the instruction. A life of 0 or above 256 is illegal. -/
def Obligations.FleetingTiles : Prop :=
  (∀ (s : State) (d a : GReg) (die off : Nat),
     let T := tileNo die off
     let lf := if (s.region T).part = some s.myPart then (s.region T).life else 256
     (s.fleetAt (s.me.gr a) 1 .store die off →
       (∃ u t w, roundTrip .homeSliceAccess (.rnw d a) s u t w ∧
         w.tile T = { birth := s.now, tlife := lf, tpart := s.myPart, dead := false } ∧
         (expiredSpec s T → w.me = ((s.me.setG d 0).advance 4).ready) ∧
         (¬ expiredSpec s T → sameBytes s w ∧ w.me = ((s.me.setG d 1).advance 4).ready)) ∧
       ∃ u t w, roundTrip .homeSliceAccess (.fdrop a) s u t w ∧ w.me = (s.me.advance 4).ready ∧
         w.tile T = { s.tile T with dead := true }) ∧
     (s.fleetAt (s.me.gr a) 1 .load die off →
       ∃ u t w, roundTrip .homeSliceAccess (.life d a) s u t w ∧ sameBytes s w ∧
         (expiredSpec s T → w.me = ((s.me.setG d 0).advance 4).ready) ∧
         (¬ expiredSpec s T →
           let r := (s.tile T).birth + 16000 * (s.tile T).tlife - s.now
           w.me = ((s.me.setG d (BitVec.ofNat 64 (if (s.part s.myPart).tres then 1000 * (r / 1000) else r))).advance 4).ready))) ∧
  (∀ (s : State) (a b : GReg) (die off : Nat), s.fleetAt (s.me.gr a) 1 .store die off →
     (1 ≤ (s.me.gr b).toNat → (s.me.gr b).toNat ≤ 256 →
       ∃ u, exec (.lifeSet a b) s = .next u ∧ u.msgs.length = s.msgs.length + 16 ∧
         (∃ w, u.me.wait = some w ∧ w.acks = 16 ∧ w.i = .lifeSet a b) ∧
         ∀ k, k < 16 → ∃ t, exec .homeSliceAccess { u with sel := s.msgs.length + k } = .next t ∧
           t.region (tileNo die (off / 65536 * 65536) + k) = { life := (s.me.gr b).toNat, part := some s.myPart }) ∧
     (((s.me.gr b).toNat < 1 ∨ 256 < (s.me.gr b).toNat) →
       ∃ v, exec (.lifeSet a b) s = .next (s.takeTrap s.cur 1 v s.me.pc)) ∧
     ∀ (r : Reply) (w : Wait), s.msgs[s.sel]? = some (.reply r) → r.cx = s.cur → r.tid = s.me.tid → s.me.state = .waiting →
       s.me.wait = some w → w.i = .lifeSet a b → w.ph = 1 →
       ∃ t, exec .remoteReply s = .next t ∧
         (w.acks ≤ 1 → t.me = (s.me.advance 4).ready) ∧ (1 < w.acks → t.me = { s.me with wait := some { w with acks := w.acks - 1 } }))

-- Atomics

/-- R243 on the context's own scratchpad, in a line without an object, by a context without a reservation: the word
takes the operation's new value or, for a failed `cas`, none is written; g[d] takes the old value extended; every other
byte reads as before. A release finds no dirty line and no write-back on its way (R185), and an acquire nothing to wait
for. -/
def Obligations.OwnAtomics : Prop :=
  ∀ (i : Instr) (s : State) (off : Nat) (new : Option Nat) (sx dbl : Bool) (d a : GReg) (o : Ord4) (sc : Scope),
    let n := atomicBytes dbl
    let old := s.rd (span (scratchLoc s.myCore off) n)
    atomicSpec i s.me old = some (new, sx, d, a, dbl, o, sc) → s.ownAt (s.me.gr a) n .store off →
    s.obj? (scratchLoc s.myCore off / 64) = none → s.me.resv = none → (s.core s.myCore).l1 = [] →
    s.queuedCells s.myCore = [] → s.acquiresAtOnce →
    ∃ t, exec i s = .next t ∧ memoryAndContext s t s.cur ∧ t.me = ((s.me.setG d (loadSpec n sx old)).advance 4).ready ∧
      (∀ v, new = some v → storesNum s t (scratchLoc s.myCore off) n v) ∧ (new = none → sameReads s t)

/-- R244: `resv` takes the word for its context and writes its value to g[d], zero-extended; `rlse` at that address and
size writes the word, ends the reservation and sets p[d]; a `rlse` that names another address or size, or whose
reservation has been broken, writes p[d] false and no memory. A `resv` by a context that holds a reservation takes a
protection trap; one whose reservation has been broken takes the word. -/
def Obligations.Reservations : Prop :=
  ∀ (s : State) (dbl b1 : Bool) (sc : Scope) (d a b : GReg) (p : Reg8) (off : Nat),
    let n := atomicBytes dbl
    let loc := scratchLoc s.myCore off
    let holds : Prop := ∃ q ∈ s.resvq, ∃ locs tick, q.holder = some (s.cur, s.me.tid, locs, tick)
    (s.core s.myCore).l1 = [] → s.queuedCells s.myCore = [] → s.acquiresAtOnce → s.obj? (loc / 64) = none →
    (s.ownAt (s.me.gr a) n .store off → (s.me.resv = none ∨ ¬ holds) →
      ∃ t, exec (.resv dbl b1 sc d a) s = .next t ∧ sameReads s t ∧
        t.me = (({ s.me.setG d (BitVec.ofNat 64 (s.rd (span loc n))) with resv := some (loc, n) } : Ctx).advance 4).ready ∧
        t.resvq = s.resvq ++ [{ loc := loc, holder := some (s.cur, s.me.tid, span loc n, s.now), queue := [] }]) ∧
    ((s.me.gr a).toNat % n = 0 → inFleet (s.me.gr a) = false →
      s.translate s.myCore s.myPart (s.me.gr a) .store = .ok (.scratch s.myCore off) →
      (s.me.resv.isSome = true → holds → s.pageSt s.myCore (off / 4096) = .ready →
        exec (.resv dbl b1 sc d a) s = .next (s.takeTrap s.cur 5 (s.me.gr a) s.me.pc)) ∧
      (s.me.resv ≠ some (loc, n) →
        ∃ t, exec (.rlse dbl b1 sc p a b) s = .next t ∧ completes s t 4 (s.me.setP p false)) ∧
      (s.me.resv = some (loc, n) → s.pageSt s.myCore (off / 4096) = .ready → s.retired = [] → s.lost = [] →
        (∀ q tick, { loc := loc, holder := some (s.cur, s.me.tid, span loc n, tick), queue := q } ∈ s.resvq →
          ∃ t, exec (.rlse dbl b1 sc p a b) s = .next t ∧
            t.me = (({ s.me.setP p true with resv := none } : Ctx).advance 4).ready ∧
            storesNum s t loc n ((s.me.gr b).toNat % 2 ^ (8 * n)) ∧
            ∀ x ∈ t.resvq, x.holder ≠ some (s.cur, s.me.tid, span loc n, tick)) ∧
        (s.resvq = [] →
          ∃ t, exec (.rlse dbl b1 sc p a b) s = .next t ∧ sameReads s t ∧
            t.me = (({ s.me.setP p false with resv := none } : Ctx).advance 4).ready)))

-- Fences and caches

/-- R193: a fence at `.core` only moves on. At `.quad` and above `fence.acq` completes at once when nothing was returned
to the context since its last acquire and no sweep runs; `fence.rel` leaves pending the release of the core's signature
at its scope, below `.pkg` with no memory written, and at `.pkg` and above with no line and no write-back in the way;
`fence.ar` does both. R196: `qwait` completes when nothing of the partition with the tag, sent within the scope, is
outstanding and every other core has had its turn in this cycle (R220; log 37); else the context waits, and the report
of the networks ends its wait once that is so. -/
def Obligations.FencesAndQuiet : Prop :=
  (∀ (s : State) (sc : Scope),
     (sc = .core → ∀ i ∈ [Instr.fenceAcq sc, .fenceRel sc, .fenceAr sc], ∃ t, exec i s = .next t ∧ completes s t 4 s.me) ∧
     (2 ≤ scopeNum sc → s.acquiresAtOnce →
       (∃ t, exec (.fenceAcq sc) s = .next t ∧ completes s t 4 s.me) ∧
         (scopeNum sc < 5 → ∀ i ∈ [Instr.fenceRel sc, .fenceAr sc], ∃ t, exec i s = .next t ∧
           completes s t 4 { s.me with relp := some (s.relSig s.myCore, sc) }) ∧
         (5 ≤ scopeNum sc → (s.core s.myCore).l1 = [] → s.queuedCells s.myCore = [] →
             ∀ i ∈ [Instr.fenceRel sc, .fenceAr sc], ∃ t, exec i s = .next t ∧
           completes s t 4 { s.me with relp := some (s.relSig s.myCore, sc) }))) ∧
  (∀ (s : State) (sc : Scope) (tag : Bool),
     (s.turn = [] → s.quiet s.myCore sc tag = true → ∃ t, exec (.qwait sc tag) s = .next t ∧ completes s t 4 s.me) ∧
     ((s.turn ≠ [] ∨ s.quiet s.myCore sc tag = false) → ∃ t, exec (.qwait sc tag) s = .next t ∧ t.me.state = .waiting ∧
       ∀ u, u.me = t.me → u.sel = u.cur → u.quiet u.myCore sc tag = true →
         ∃ w, exec .quietReport u = .next w ∧ w.me = (u.me.advance 4).ready))

/-- R194: `cwb` writes the dirty bytes of its line to memory and leaves the line clean; `cinv` also removes it; a line
that is not present is no effect; `cwb.all` and `cinv.all` do it for every line. No reservation and no retired unit lies
in the way. R195: `iinv` leaves no copy of its line in the instruction cache of any quad of the partition within its
scope, and `fbar` discards the context's run-ahead words; both change nothing else of the context. -/
def Obligations.CacheMaintenance : Prop :=
  (∀ (s : State) (a : GReg) (pa : Nat) (e : L1Line),
     s.resvq = [] → s.retired = [] → s.lost = [] → pa < 2 ^ 41 →
     (window s.myCore (s.me.gr a) = .global → s.translate s.myCore s.myPart (s.me.gr a) .load = .ok (.global pa) →
       (s.l1? s.myCore (pa / 64) = none →
         ∀ i ∈ [Instr.cwb a, .cinv a], ∃ t, exec i s = .next t ∧ t.mem = s.mem ∧ t.me = (s.me.advance 4).ready) ∧
       (s.l1? s.myCore (pa / 64) = some e →
         ∀ i ∈ [Instr.cwb a, .cinv a], ∃ t, exec i s = .next t ∧ t.me = (s.me.advance 4).ready ∧
           (∀ x, t.byteAt x = if x / 64 = pa / 64 ∧ e.dirty.getLsbD (x % 64) = true then elem 8 e.data (x % 64) else s.byteAt x) ∧
           (i = .cwb a → ∃ e1, t.l1? s.myCore (pa / 64) = some e1 ∧ e1.data = e.data ∧ e1.dirty = 0) ∧
           (i = .cinv a → t.l1? s.myCore (pa / 64) = none))) ∧
     ((∀ x ∈ (s.core s.myCore).l1, x.line < 2 ^ 35) →
       ∀ i ∈ [Instr.cwbAll, .cinvAll], ∃ t, exec i s = .next t ∧ t.me = (s.me.advance 4).ready ∧
         (∀ x, t.byteAt x =
           match s.l1? s.myCore (x / 64) with
           | some e => if e.dirty.getLsbD (x % 64) = true then elem 8 e.data (x % 64) else s.byteAt x
           | none => s.byteAt x) ∧
         (i = .cwbAll → ∀ line x, t.l1? s.myCore line = some x → x.dirty = 0) ∧
         (i = .cinvAll → (t.core s.myCore).l1 = []))) ∧
  (∀ (s : State) (sc : Scope) (a : GReg) (pa q : Nat),
     (window s.myCore (s.me.gr a) = .global → s.translate s.myCore s.myPart (s.me.gr a) .load = .ok (.global pa) →
       ∃ t, exec (.iinv sc a) s = .next t ∧ t.me = (s.me.advance 4).ready ∧ sameBytes s t ∧
         (q < 25600 → q ∈ s.quads.map Prod.fst → sameUnit sc (q * 4) s.myCore = true → s.partOf (q * 4) = s.partOf s.myCore →
           ∀ x ∈ (t.quad q).icache, x.1 ≠ pa / 64)) ∧
     ∃ t, exec .fbar s = .next t ∧ completes s t 4 { s.me with run := [] })

/-- R197: `mfree` marks its blocks free: every byte of them reads 0, every other byte of memory is unchanged, and no L1
of the partition holds a line of them. A misaligned range and a count of 0 or above 4,096 trap. -/
def Obligations.FreeMarks : Prop :=
  ∀ (s : State) (d a : GReg),
    ((s.me.gr a).toNat % 65536 ≠ 0 → exec (.mfree d a) s = .next (s.takeTrap s.cur 3 (s.me.gr a) s.me.pc)) ∧
    ((s.me.gr a).toNat % 65536 = 0 → ((s.me.gr d).toNat = 0 ∨ 4096 < (s.me.gr d).toNat) →
      ∃ v, exec (.mfree d a) s = .next (s.takeTrap s.cur 1 v s.me.pc)) ∧
    ∀ blocks, (s.me.gr a).toNat % 65536 = 0 → 1 ≤ (s.me.gr d).toNat → (s.me.gr d).toNat ≤ 4096 →
      s.freePages (s.me.gr a) (s.me.gr d).toNat = .ok blocks →
      ∃ t, exec (.mfree d a) s = .next t ∧ t.me = (s.me.advance 4).ready ∧
        (∀ x, t.byteAt x = if x / 65536 ∈ blocks then 0 else s.byteAt x) ∧ (∀ b ∈ blocks, b ∈ t.freeMarks) ∧
        ∀ e ∈ t.cores, s.partOf e.1 = s.partOf s.myCore → ∀ x ∈ e.2.l1, x.line / 1024 ∉ blocks

-- Synchronisation objects

/-- R237, R238, R241 on a line of the context's own scratchpad: `sinit` gives 2 for a line that is an object, else 3 for
a bad count, else makes the object in FLAG mode with phase 0 and no ticket and gives 0 or 1; `smode` gives the
descriptor, or 0; `sfin` removes an idle object with the predicate true, leaves another with it false, and traps on no
object. That `smode` leaves the object, its mode and its switch counter as they are, also where WAIT is at or above QHI
in FLAG mode, is the model's choice (log 72). -/
def Obligations.ObjectsMade : Prop :=
  ∀ (s : State) (k : SoKind) (sc : Scope) (d a : GReg) (p : Reg8) (off : Nat), s.ownLine (s.me.gr a) off →
    let line := scratchLoc s.myCore off / 64
    let n := sinitN k (s.me.gr d)
    (∀ o, s.obj? line = some o →
      (∃ t, exec (.sinit k sc d a) s = .next t ∧ completes s t 4 (s.me.setG d 2)) ∧
        (∃ t, exec (.smode d a) s = .next t ∧ completes s t 4 (s.me.setG d o.descriptor)) ∧
        (o.idle = true → ∃ t, exec (.sfin p a) s = .next t ∧ t.me = ((s.me.setP p true).advance 4).ready ∧
          t.obj? line = none) ∧
        (o.idle = false → ∃ t, exec (.sfin p a) s = .next t ∧ completes s t 4 (s.me.setP p false))) ∧
    (s.obj? line = none →
      (∃ t, exec (.smode d a) s = .next t ∧ completes s t 4 (s.me.setG d 0)) ∧
        exec (.sfin p a) s = .next (s.takeTrap s.cur 5 (s.me.gr a) s.me.pc) ∧
        ((n = 0 ∨ k = .ring ∧ 16 < n) → ∃ t, exec (.sinit k sc d a) s = .next t ∧ completes s t 4 (s.me.setG d 3)) ∧
        (¬(n = 0 ∨ k = .ring ∧ 16 < n) → ∃ t o, exec (.sinit k sc d a) s = .next t ∧ t.obj? line = some o ∧ o.kind = k ∧
          o.scope = sc ∧ o.mode = 0 ∧ o.phase = 0 ∧ o.tickets = [] ∧ o.n = n ∧
          t.me = ((s.me.setG d (if o.tab then 0 else 1)).advance 4).ready))

/-- R239 on a lock of the context's own scratchpad: a free lock is granted at once to `slock`, and to `slock.call`,
which goes on at its routine with `SRET` holding its return and the lock, or, where the routine's address has any of
bits [63:57] set, takes the translation fault that R101 gives a jump, with `TVAL` the whole address (stated for a lock
in FLAG mode); a held one gives `slock` a ticket and the context waits. `sunlk` by the holder passes the lock to the
oldest ticket, or frees it, and leaves through `SRET` when that names the lock; by any other context it takes a
protection trap. -/
def Obligations.Locks : Prop :=
  ∀ (s : State) (d a : GReg) (off : Nat) (o : SObj),
    let line := scratchLoc s.myCore off / 64
    s.ownLine (s.me.gr a) off → s.obj? line = some o → o.kind = .lock → o.unasked s.cur s.me.tid → s.noWake line →
    s.syncsAtOnce →
    (o.holder = none → o.tickets = [] →
      (∃ t o1, exec (.slock a) s = .next t ∧ t.me = (s.me.advance 4).ready ∧ t.obj? line = some o1 ∧
        o1.holder = some (s.cur, s.me.tid)) ∧
      (s.me.sret = none → (s.me.gr d).toNat % 4 = 0 → (s.me.gr d).toNat < 2 ^ 57 →
        ∃ t o1, exec (.slockCall d a) s = .next t ∧ t.me.pc = s.me.gr d ∧ t.me.state = .ready ∧
          t.me.sret = some (wrapPc (s.me.pc + 4), s.me.gr a) ∧ t.me.g = s.me.g ∧ t.obj? line = some o1 ∧
          o1.holder = some (s.cur, s.me.tid)) ∧
      (s.me.sret = none → (s.me.gr d).toNat % 4 = 0 → 2 ^ 57 ≤ (s.me.gr d).toNat → o.mode = 0 → s.noOwned →
        s.me.catches → ∃ t, exec (.slockCall d a) s = .next t ∧ t.me.state = .ready ∧ t.me.pc = addrSpec s.me.tvec ∧
          t.me.tcause = 4 ∧ t.me.tval = s.me.gr d ∧ t.me.tepc = addrSpec s.me.pc ∧ t.me.g = s.me.g)) ∧
    (∀ hd, o.holder = some hd →
      (∃ t o1, exec (.slock a) s = .next t ∧ t.me.state = .waiting ∧ t.me.why = 5 ∧ t.obj? line = some o1 ∧
        o1.holder = o.holder ∧
        o1.tickets.map (fun x => (x.cx, x.tid)) = o.tickets.map (fun x => (x.cx, x.tid)) ++ [(s.cur, s.me.tid)]) ∧
      (hd.2 ≠ s.me.tid → exec (.sunlk a) s = .next (s.takeTrap s.cur 5 (s.me.gr a) s.me.pc)) ∧
      (hd.2 = s.me.tid → s.me.deleg = [] → o.mode ≠ 3 →
        ∃ t o1, exec (.sunlk a) s = .next t ∧ t.obj? line = some o1 ∧ o1.holder = o.tickets.head?.map (fun x => (x.cx, x.tid)) ∧
          o1.tickets.length = o.tickets.length - 1 ∧ t.me.state = .ready ∧ t.me.g = s.me.g ∧
          (s.me.sret = none → t.me = (s.me.advance 4).ready) ∧
          ∀ ret, s.me.sret = some (ret, s.me.gr a) → t.me.sret = none ∧ t.me.pc.toNat = ret.toNat % 2 ^ 57))

/-- R232, R240 on a barrier of the context's own scratchpad: `sarr` arrives and gives the phase that it counts for, and
the last arrival opens the next phase; `sexp` adds to the open phase's balance; `swait` for a completed phase gives its
status, and for another makes the context wait. -/
def Obligations.Barriers : Prop :=
  ∀ (s : State) (d a : GReg) (off : Nat) (o : SObj),
    let line := scratchLoc s.myCore off / 64
    let back := (o.phase + 2 ^ 32 - (s.me.gr d).toNat % 2 ^ 32) % 2 ^ 32
    s.ownLine (s.me.gr a) off → s.obj? line = some o → o.kind = .bar → o.unasked s.cur s.me.tid → s.noWake line →
    s.syncsAtOnce →
    (∃ t o1, exec (.sarr d a) s = .next t ∧ t.obj? line = some o1 ∧
      t.me = ((s.me.setG d (BitVec.ofNat 64 (if o.arr < o.n then o.phase else (o.phase + 1) % 2 ^ 32))).advance 4).ready ∧
      (o.arr + 1 < o.n → o1.phase = o.phase ∧ o1.arr = o.arr + 1) ∧
      (o.arr + 1 = o.n → o.xb = false → o.bal = 0 → o.nextArr < o.n →
        o1.phase = (o.phase + 1) % 2 ^ 32 ∧ o1.arr = o.nextArr)) ∧
    ((s.me.gr d).toNat < 2 ^ 31 → o.xb = true → o.arr < o.n →
      ∃ t o1, exec (.sexp d a) s = .next t ∧ t.me = (s.me.advance 4).ready ∧ t.obj? line = some o1 ∧ o1.phase = o.phase ∧
        o1.posted = true ∧ (o.bal + (s.me.gr d).toNat ≤ 2 ^ 31 - 1 → 0 ≤ o.bal → o1.bal = o.bal + (s.me.gr d).toNat)) ∧
    (1 ≤ back ∧ back ≤ 2 ^ 31 →
      ∃ t, exec (.swait d a) s = .next t ∧
        t.me = ((s.me.setG d (match o.hist[back - 1]? with | some v => if v then 1 else 0 | none => 2)).advance 4).ready) ∧
    (¬(1 ≤ back ∧ back ≤ 2 ^ 31) → ∃ t, exec (.swait d a) s = .next t ∧ t.me.state = .waiting ∧ t.me.why = 5)

/-- R233, R240 on a ring of the context's own scratchpad: `sarr` and `sarr.eos` push an item or the end-of-stream token
of producer Bits(g[d + 1], 3, 0) when the ring has room; `swait` pops the oldest item into g[d] with its status in g[d +
1], or makes the context wait on an empty ring that has not ended. D above 14 is illegal. -/
def Obligations.Rings : Prop :=
  ∀ (s : State) (d a : GReg) (off : Nat) (o : SObj),
    let line := scratchLoc s.myCore off / 64
    let prod := (s.me.gr (d + 1)).toNat % 16
    s.ownLine (s.me.gr a) off → s.obj? line = some o → o.kind = .ring → s.syncsAtOnce → o.tickets = [] → o.owed = [] →
    o.serving = none → s.noWake line → s.me.pend.getLsbD (d.toNat + 1) = false →
    (14 < d.toNat → ∀ i ∈ [Instr.sarr d a, .sarrEos d a, .swait d a], ∃ v, exec i s = .next (s.takeTrap s.cur 1 v s.me.pc)) ∧
    (d.toNat ≤ 14 → prod < o.prods → o.eosPushed.getLsbD prod = false → o.items.length < 8 →
      ∀ i ∈ [Instr.sarr d a, .sarrEos d a], ∃ t o1 x, exec i s = .next t ∧ t.me = (s.me.advance 4).ready ∧
        t.obj? line = some o1 ∧ o1.items = o.items ++ [x] ∧ x.prod = prod ∧
        (i = .sarr d a → x.val = s.me.gr d ∧ x.eos = false ∧ o1.eosPushed = o.eosPushed) ∧
        (i = .sarrEos d a → x.val = 0 ∧ x.eos = true ∧ o1.eosPushed.getLsbD prod = true)) ∧
    (d.toNat ≤ 14 → ∀ x r, o.items = x :: r → x.prod < 16 →
      ∃ t o1, exec (.swait d a) s = .next t ∧ t.obj? line = some o1 ∧ o1.items = r ∧
        t.me = (((s.me.setG d x.val).setG (d + 1) (BitVec.ofNat 64 (x.prod + if x.eos then 256 else 0))).advance 4).ready) ∧
    (d.toNat ≤ 14 → o.items = [] → o.ended = false →
      ∃ t, exec (.swait d a) s = .next t ∧ t.me.state = .waiting ∧ t.me.why = 5)

-- Groups

/-- R261, R262 and R264 at the group unit: `gmake` of a new name makes a group of which the context is the member of
rank 0 and gives its handle; `gjoin` makes the context a pending member; `gleave` empties the handle; `gsize` and
`grank` read the open phase; `gstat` reads the handle and the last reason and waits for nothing. -/
def Obligations.GroupMembership : Prop :=
  ∀ (s : State) (sc : Scope) (d h : Reg8) (r a : GReg) (g : Group),
    let die := s.nameDie s.myPart s.myCore (s.me.gr a)
    let here := s.groups.filter (fun x => x.die == die)
    (handleV (s.me.hr h) = false → s.me.gr a ≠ 0 → s.groupNamed s.myPart (s.me.gr a) = none →
      (here.filter (fun x => x.part == s.myPart)).length < (s.part s.myPart).quota → here.length < 8192 → s.groups.length < 65536 →
      ∃ u t w m, roundTrip .homeSliceAccess (.gmake sc d h a) s u t w ∧ w.groups = s.groups ++ [m] ∧
        m.name = s.me.gr a ∧ m.part = s.myPart ∧ m.die = die ∧ m.scope = sc ∧ m.phase = 0 ∧
        m.mems = [Member.make s.cur s.me.tid] ∧ w.me.pr d = true ∧ w.me.hr h = handleWord die m.idx m.gen ∧ w.me.lgr = 0 ∧
        w.me.state = .ready ∧ w.me.pc = (s.me.advance 4).pc) ∧
    (handleV (s.me.hr h) = false → s.me.gr a ≠ 0 → s.groupNamed s.myPart (s.me.gr a) = some g →
      g.mems ≠ [] → g.member s.cur s.me.tid = false → g.isPending s.cur s.me.tid = false →
      sameUnit g.scope s.myCore g.base = true →
      ∃ u t w, roundTrip .homeSliceAccess (.gjoin d h a) s u t w ∧ w.me.pr d = true ∧
        w.me.hr h = handleWord g.die g.idx g.gen ∧ w.me.state = .ready ∧
        { g with pending := g.pending ++ [Member.make s.cur s.me.tid] } ∈ w.groups) ∧
    (handleV (s.me.hr h) = true → s.groupOf (s.me.hr h) = some g →
      (g.member s.cur s.me.tid = true ∨ g.isPending s.cur s.me.tid = true) →
      (∃ u t w, roundTrip .homeSliceAccess (.gsize r h) s u t w ∧
        w.me = ((s.me.setG r (BitVec.ofNat 64 (g.mems.length + g.pending.length * 2 ^ 32))).advance 4).ready) ∧
      (∃ u t w, roundTrip .homeSliceAccess (.grank r h) s u t w ∧
        w.me = ((s.me.setG r (match g.rank? s.cur s.me.tid with | some k => BitVec.ofNat 64 k | none => -1)).advance 4).ready)) ∧
    (s.aloneIn h g → (s.core s.myCore).l1 = [] → s.queuedCells s.myCore = [] →
      ∃ u t w, roundTrip .homeSliceAccess (.gleave d h) s u t w ∧ w.me.pr d = true ∧ w.me.hr h = 0 ∧ w.me.lgr = 0 ∧
        w.me.state = .ready ∧ ∀ x ∈ w.groups, ¬(x.die = g.die ∧ x.idx = g.idx)) ∧
    ∃ t, exec (.gstat r h) s = .next t ∧
      completes s t 4 (s.me.setG r (BitVec.ofNat 64 (s.me.lgr.toNat + (s.me.hr h).toNat * 2 ^ 32)))

/-- R256, R257 and R263 for a group of one: an arrival completes the phase at its home, and the result, with the status
word in which PHASE is the completed phase and VOTE the vote, ends the instruction. -/
def Obligations.GroupArrivals : Prop :=
  ∀ (s : State) (v : Vote) (o : RedOp) (y : GTy) (d a : GReg) (h : Reg8) (g : Group),
    s.aloneIn h g → s.syncsAtOnce → g.phase < 2 ^ 32 → s.asking s.cur s.me.tid = false →
        (∀ m ∈ s.msgs, ∀ t q sc r st, m ≠ .group s.cur t q sc r st) →
    (∃ u t w, chain (.gbar d h) .homeSliceAccess .groupCompletion s u t w ∧
      w.me = ((s.me.setG d (BitVec.ofNat 64 g.phase)).advance 4).ready) ∧
    (∃ u t w, chain (.gvote v d h a) .homeSliceAccess .groupCompletion s u t w ∧
      w.me = ((s.me.setG d (BitVec.ofNat 64 (g.phase + (s.me.gr a).toNat % 2 * 2 ^ 34))).advance 4).ready) ∧
    (d.toNat ≤ 14 →
      ∃ u t w, chain (.gred o y d h a) .homeSliceAccess .groupCompletion s u t w ∧
        w.me = (((s.me.setG d (if y = .f32 then BitVec.ofNat 64 ((s.me.gr a).toNat % 2 ^ 32) else s.me.gr a)).setG (d + 1)
          (BitVec.ofNat 64 g.phase)).advance 4).ready)

-- Contexts

/-- R64, R65, R75: a `spawn` to a core of the partition that has a free, enabled context starts it there, READY at the
entry address with the four arguments in `g0`–`g3` and every other general register 0, and sets p[d]; its message has
been taken (`spawnMessage`) and its answer has arrived (`spawnAnswer`). A place that is no core of the partition is
refused at once with reason 3. The model's choices in it: the entry address is taken modulo 2^57 (log 31), and of a
place number, bits [31:29] that are not 0 are refused with reason 3 and bits above 31 are ignored (log 60). -/
def Obligations.Spawns : Prop :=
  ∀ (s : State) (d : Reg8) (a b c : GReg), c.toNat ≤ 12 → (s.me.gr b).toNat % 4 = 0 →
    (∀ k, coreOfPlace s.pkg (s.me.gr a) = some k → s.partOf k = s.partOf s.myCore →
      ∀ j, s.allocSlot k = some j → k * 16 + j ≠ s.cur →
      ∃ u t w, chain (.spawn d a b c) .spawnMessage .spawnAnswer s u t w ∧ w.me.pr d = true ∧ w.me.state = .ready ∧
        w.me.lrr = 0 ∧ w.me.fnp = false ∧ w.me.timer = none ∧ w.me.pc = (s.me.advance 4).pc ∧
        let x := w.ctx (k * 16 + j)
        x.state = .ready ∧ x.pc.toNat = (s.me.gr b).toNat % 2 ^ 57 ∧ x.gr 0 = s.me.gr c ∧ x.gr 1 = s.me.gr (c + 1) ∧
          x.gr 2 = s.me.gr (c + 2) ∧ x.gr 3 = s.me.gr (c + 3) ∧ (∀ r : GReg, 4 ≤ r.toNat → x.gr r = 0) ∧
          x.fx = s.me.fx ∧ x.tag = s.me.tag ∧ x.tvec = (s.ctx (k * 16)).tvec) ∧
    ((coreOfPlace s.pkg (s.me.gr a) = none ∨
        ∃ k, coreOfPlace s.pkg (s.me.gr a) = some k ∧ s.partOf k ≠ s.partOf s.myCore) →
      ∃ t, exec (.spawn d a b c) s = .next t ∧ completes s t 4 ({ s.me with fnp := false, lrr := 3, timer := none }.setP d false))

/-- R68, R76: `quit` by a context 1–15 with room in the reap queue queues its record, reason 0 with its status word, and
its slot is FREE; with 8 records there it is in EXIT. R77, R78 from context 0: `reap` gives the oldest record with the
predicate true, or the predicate false; `kill` ends a READY, WAITING or PARKED context with the predicate true, leaves
any other with it false, and traps on context 0, with `TVAL` 0 (the model's choice, log 59). -/
def Obligations.ContextsEnd : Prop :=
  (∀ s : State, ctxNo s.cur ≠ 0 → s.groups = [] →
     ∃ t, exec .quit s = .next t ∧
       ((s.core s.myCore).reap.length < 8 → t.me.state = .free ∧ (t.core s.myCore).reap = (s.core s.myCore).reap ++
         [(BitVec.ofNat 64 (s.me.tid.toNat + ctxNo s.cur * 2 ^ 32), s.me.stat)]) ∧
       (8 ≤ (s.core s.myCore).reap.length → t.me.state = .exit ∧ (t.core s.myCore).reap = (s.core s.myCore).reap)) ∧
  (∀ (s : State) (d a : GReg) (p : Reg8), ctxNo s.cur = 0 →
     (14 < d.toNat → ∃ v, exec (.reap d p) s = .next (s.takeTrap s.cur 1 v s.me.pc)) ∧
     (d.toNat ≤ 14 → (s.core s.myCore).reap = [] → ∃ t, exec (.reap d p) s = .next t ∧ completes s t 4 (s.me.setP p false)) ∧
     (d.toNat ≤ 14 → ∀ r0 r1 l, (s.core s.myCore).reap = (r0, r1) :: l → (s.core s.myCore).exits = [] →
       ∃ t, exec (.reap d p) s = .next t ∧ t.me = ((((s.me.setG d r0).setG (d + 1) r1).setP p true).advance 4).ready ∧
         (t.core s.myCore).reap = l) ∧
     ((s.me.gr a).toNat % 16 = 0 → exec (.kill p a) s = .next (s.takeTrap s.cur 5 0 s.me.pc)) ∧
     ((s.me.gr a).toNat % 16 ≠ 0 →
       let x := s.myCore * 16 + (s.me.gr a).toNat % 16
       ((s.ctx x).state = .ready ∨ (s.ctx x).state = .waiting ∨ (s.ctx x).state = .parked →
         ∃ t, exec (.kill p a) s = .next t ∧ t.me = ((s.me.setP p true).advance 4).ready ∧
           ((t.ctx x).state = .free ∨ (t.ctx x).state = .exit)) ∧
       ((s.ctx x).state = .free ∨ (s.ctx x).state = .exit ∨ (s.ctx x).state = .arriving →
         ∃ t, exec (.kill p a) s = .next t ∧ completes s t 4 (s.me.setP p false))))

/-- R79 to R81: `cfw` with FNP set, or with no timer running, returns at once with FNP in the predicate, else waits
until a notice or the timer's end; `yield` waits until its count of own-position cycles is over; `ctxs` writes the state
word of context Bits(g[a], 3, 0) of the core: for counts and codes within their fields, TID, LISTN, REAPN, LRR, FNP, WD,
EN, WHY and STATE stand at bits [63:32], [24:20], [19:16], [13:11], 10, 9, 8, [7:3] and [2:0], and the other bits are 0.
-/
def Obligations.ContextWaits : Prop :=
  ∀ (s : State) (d a : GReg) (p : Reg8) (n : BitVec 4),
    let cyc := (s.quad (quadOf s.myCore)).cyc
    (s.me.fnp = true → ∃ t, exec (.cfw p) s = .next t ∧ completes s t 4 ({ s.me with fnp := false }.setP p true)) ∧
    (s.me.fnp = false → s.me.timer = none → ∃ t, exec (.cfw p) s = .next t ∧ completes s t 4 (s.me.setP p false)) ∧
    (∀ x, s.me.fnp = false → s.me.timer = some x → cyc < x →
      ∃ t, exec (.cfw p) s = .next t ∧ t.me.state = .waiting ∧ t.me.why = 9 ∧
        ∃ w, exec .refusalTimerExpiry { t with sel := s.cur } = .next w ∧
          w.me = (({ s.me with timer := none }.setP p false).advance 4).ready) ∧
    (∃ t w, exec (.yield n) s = .next t ∧ t.me.state = .waiting ∧ t.me.why = 10 ∧ t.me.wait = some w ∧
      cyc < w.till - 16 * n.toNat ∧ w.till - 16 * n.toNat ≤ cyc + 16 ∧ (w.till % 16 = ctxNo s.cur) ∧
      ∃ u, exec .yieldExpiry { t with sel := s.cur } = .next u ∧ u.me = (s.me.advance 4).ready) ∧
    let x := s.myCore * 16 + (s.me.gr a).toNat % 16
    let c := s.ctx x
    let k := s.core s.myCore
    let wd := s.posWithdrawn s.myCore ((s.me.gr a).toNat % 16)
    ∃ (v : Word) (t : State), exec (.ctxs d a) s = .next t ∧ completes s t 4 (s.me.setG d v) ∧
      (c.lrr < 8 → c.why < 32 → k.reap.length < 16 → k.refused.length < 32 →
        v.toNat / 2 ^ 32 = (if c.state = .free then 0 else c.tid.toNat) ∧ v.toNat / 2 ^ 25 % 2 ^ 7 = 0 ∧
        v.toNat / 2 ^ 20 % 2 ^ 5 = k.refused.length ∧ v.toNat / 2 ^ 16 % 2 ^ 4 = k.reap.length ∧
        v.toNat / 2 ^ 14 % 2 ^ 2 = 0 ∧ v.toNat / 2 ^ 11 % 2 ^ 3 = c.lrr ∧ v.getLsbD 10 = c.fnp ∧ v.getLsbD 9 = wd ∧
        v.getLsbD 8 = k.spen.getLsbD ((s.me.gr a).toNat % 16) ∧
        v.toNat / 2 ^ 3 % 2 ^ 5 = (if c.state = .waiting then c.why else 0) ∧
        v.toNat % 2 ^ 3 = (match c.state with
          | .free => 0
          | .ready => if wd then 3 else 1
          | .waiting => 2
          | .parked => 3
          | .exit => 4
          | .arriving => 5))

/-- R71, R82: a `mig` to a core with a free, enabled context moves there: the arriving context is READY after the `mig`
with the general registers, handles, predicates, status and TID carried and `p7` true, and its old slot is FREE. In a
handler it is refused at once with reason 4 and `p7` false. -/
def Obligations.Migrates : Prop :=
  ∀ (s : State) (a : GReg) (core off j : Nat), ctxNo s.cur ≠ 0 →
    (statIH s.me.stat = true → ∃ t, exec (.mig a) s = .next t ∧
      completes s t 4 ({ s.me with fnp := false, lrr := 4, timer := none }.setP 7 false)) ∧
    (statIH s.me.stat = false → s.me.sret = none → s.me.resv = none → s.me.pend = 0 → s.me.hunit = [] →
      s.translate s.myCore s.myPart (s.me.gr a) .load = .ok (.scratch core off) → s.allocSlot core = some j →
      core * 16 + j ≠ s.cur → (s.core s.myCore).l1 = [] → s.queuedCells s.myCore = [] → (s.core core).l1 = [] →
      (s.core s.myCore).refused = [] →
      ∃ u t w x, chain (.mig a) .migrationMessage .migrationAccept s u t w ∧ (w.ctx s.cur).state = .free ∧
        exec .migrationCommit { w with sel := w.msgs.length - 1 } = .next x ∧
        let c := x.ctx (core * 16 + j)
        c.state = .ready ∧ c.g = s.me.g ∧ c.h = s.me.h ∧ c.stat = s.me.stat ∧ c.tid = s.me.tid ∧
          c.pc.toNat = (s.me.pc.toNat + 4) % 2 ^ 57 ∧ c.pr 7 = true ∧ (∀ q : Reg8, q ≠ 7 → c.pr q = s.me.pr q) ∧
          (∀ r : Reg8, c.fr r = 0 ∧ c.vr r = 0) ∧ c.tvec = (s.ctx (core * 16)).tvec)

-- System registers

/-- R283 for every system register but the FIFOs: `mfs` writes g[d] with the register; `mts` writes the writable fields
of a register of the context, and a value that sets a reserved field takes an illegal-instruction trap; a register with
no writable field takes a protection trap. `SPEN` is written by context 0. R359: `time`, `cyc` and `pstat` write g[d]
with the tick, the cycle and the power word, and `pwrq` sets the core's request, at most 7, and gives the quad's
ceiling. R72, R283 on the FIFOs: `mfs` pops the oldest entry into g[d], and the context that has waited longest to push
pushes; `mts` pushes g[a] at the tail, or gives it to the context that has waited longest to pop; a pop of an empty
FIFO, a push to one of 8 entries, and one behind another context that waits make the context wait (WHY 4). A pop or push
whose context has been killed meanwhile still takes its place, and changes no context (R69). R286: `tlbi` by context 0
drops the translations of its partition that cover the address, and `tlbi.all` all of them, from the first-level TLB of
every core in the unit of the scope and, at `.clus` and above, from the TLBs of its clusters; every other translation
stays, and no byte of memory changes. The context waits (WHY 1) until the acknowledgement arrives, and goes on then with
no register changed. That the translations are gone from every buffer of the scope at once, before the acknowledgement,
is the model's choice (log 13). -/
def Obligations.SystemAccesses : Prop :=
  (∀ (s : State) (d a : GReg) (r : SysReg),
     let q := s.quad (quadOf s.myCore)
     let drp := q.resp && !q.respNew || decide (0 < q.wdLeft)
     (∃ t, exec (.mfs d r) s = .next t ∧ completes s t 4 (s.me.setG d (sysSpec s r))) ∧
     (∀ rsv c, mtsSpec r (s.me.gr a) s.me = some (rsv, c) →
       (s.me.gr a &&& rsv = 0 → ∃ t, exec (.mts r a) s = .next t ∧ completes s t 4 c) ∧
         (s.me.gr a &&& rsv ≠ 0 → ∃ v, exec (.mts r a) s = .next (s.takeTrap s.cur 1 v s.me.pc))) ∧
     (ctxNo s.cur = 0 →
       (s.me.gr a &&& 0xFFFFFFFFFFFF0001 = 0 →
         ∃ t, exec (.mts .spen a) s = .next t ∧ t.me = (s.me.advance 4).ready ∧ (t.core s.myCore).spen = s.me.gr a ∧
           sameBytes s t ∧ (∀ k, k ≠ s.myCore → t.core k = s.core k) ∧ ∀ k, k ≠ s.cur → t.ctx k = s.ctx k) ∧
         (s.me.gr a &&& 0xFFFFFFFFFFFF0001 ≠ 0 → ∃ v, exec (.mts .spen a) s = .next (s.takeTrap s.cur 1 v s.me.pc))) ∧
     (r ∈ [SysReg.place, .mring, .sopol, .gpol, .drth, .tres, .dispq, .tmrfree, .nport] →
       exec (.mts r a) s = .next (s.takeTrap s.cur 5 0 s.me.pc)) ∧
     (∃ t, exec (.time d) s = .next t ∧
       completes s t 4 (s.me.setG d (BitVec.ofNat 64 (if (s.part s.myPart).tres then s.now / 1000 * 1000 else s.now)))) ∧
     (∃ t, exec (.cyc d) s = .next t ∧ completes s t 4 (s.me.setG d (BitVec.ofNat 64 q.cyc))) ∧
     (∃ t, exec (.pstat d) s = .next t ∧
       completes s t 4 (s.me.setG d (BitVec.ofNat 64
         (q.op + (s.core s.myCore).req * 2 ^ 4 + s.ceiling (quadOf s.myCore) * 2 ^ 8 + q.wd * 2 ^ 12 +
           (if drp then 2 ^ 16 else 0) + (if s.watchdog then 2 ^ 17 else 0) +
           (if s.thermalOn (quadOf s.myCore) then 2 ^ 18 else 0) + (if s.limiter then 2 ^ 19 else 0) + s.cap * 2 ^ 32)))) ∧
     ∃ t, exec (.pwrq d a) s = .next t ∧
       t.me = ((s.me.setG d (BitVec.ofNat 64 (s.ceiling (quadOf s.myCore)))).advance 4).ready ∧
       (t.core s.myCore).req = min (s.me.gr a).toNat 7 ∧ sameBytes s t ∧ ∀ k, k ≠ s.cur → t.ctx k = s.ctx k) ∧
  (∀ (s : State) (d a : GReg) (c : Reg4),
     let k := s.core s.myCore
     (∀ v l, k.fifo[c.toNat] = v :: l → k.popW[c.toNat] = [] →
       (k.pushW[c.toNat] = [] → ∃ t, exec (.fifoPop d c) s = .next t ∧ t.me = ((s.me.setG d v).advance 4).ready ∧
         (t.core s.myCore).fifo[c.toNat] = l ∧ sameBytes s t ∧ ∀ x, x ≠ s.cur → t.ctx x = s.ctx x) ∧
       (∀ x q, k.pushW[c.toNat] = x :: q → x.cx ≠ s.cur → l.length < 8 →
         ∃ t, exec (.fifoPop d c) s = .next t ∧ t.me = ((s.me.setG d v).advance 4).ready ∧
           (∀ c2 a2, s.awaits x.cx (.fifoPush c2 a2) → (s.ctx x.cx).tid = x.tid →
             t.ctx x.cx = ((s.ctx x.cx).advance 4).ready) ∧
           ((s.ctx x.cx).tid ≠ x.tid → t.ctx x.cx = s.ctx x.cx) ∧
           (t.core s.myCore).fifo[c.toNat] = l ++ [x.val] ∧ (t.core s.myCore).pushW[c.toNat] = q)) ∧
     ((k.fifo[c.toNat] = [] ∨ k.popW[c.toNat] ≠ []) → ∃ t, exec (.fifoPop d c) s = .next t ∧ t.me.state = .waiting ∧
       t.me.why = 4 ∧ t.me.g = s.me.g ∧
       (t.core s.myCore).popW[c.toNat] = k.popW[c.toNat] ++ [{ cx := s.cur, tid := s.me.tid, val := 0 }] ∧
       (t.core s.myCore).fifo = k.fifo) ∧
     (k.fifo[c.toNat].length < 8 → k.pushW[c.toNat] = [] →
       (k.popW[c.toNat] = [] → ∃ t, exec (.fifoPush c a) s = .next t ∧ t.me = (s.me.advance 4).ready ∧
         (t.core s.myCore).fifo[c.toNat] = k.fifo[c.toNat] ++ [s.me.gr a] ∧ sameBytes s t ∧
         ∀ x, x ≠ s.cur → t.ctx x = s.ctx x) ∧
       (∀ x q, k.fifo[c.toNat] = [] → k.popW[c.toNat] = x :: q → x.cx ≠ s.cur →
         ∃ t, exec (.fifoPush c a) s = .next t ∧ t.me = (s.me.advance 4).ready ∧
           (∀ d2 c2, s.awaits x.cx (.fifoPop d2 c2) → (s.ctx x.cx).tid = x.tid →
             t.ctx x.cx = (((s.ctx x.cx).setG d2 (s.me.gr a)).advance 4).ready) ∧
           ((s.ctx x.cx).tid ≠ x.tid → t.ctx x.cx = s.ctx x.cx) ∧
           (t.core s.myCore).fifo[c.toNat] = [] ∧ (t.core s.myCore).popW[c.toNat] = q)) ∧
     ((8 ≤ k.fifo[c.toNat].length ∨ k.pushW[c.toNat] ≠ []) → ∃ t, exec (.fifoPush c a) s = .next t ∧
       t.me.state = .waiting ∧ t.me.why = 4 ∧
       (t.core s.myCore).pushW[c.toNat] = k.pushW[c.toNat] ++ [{ cx := s.cur, tid := s.me.tid, val := s.me.gr a }] ∧
       (t.core s.myCore).fifo = k.fifo)) ∧
  (∀ (s : State) (sc : Scope) (a : GReg), ctxNo s.cur = 0 →
     ∀ x ∈ [(Instr.tlbi sc a, true), (.tlbiAll sc, false)],
       let drops (e : TlbEnt) : Prop := e.part = s.myPart ∧ (x.2 = true → e.vpn = (s.me.gr a).toNat / 2 ^ e.lg)
       ∃ t u, exec x.1 s = .next t ∧ t.me.state = .waiting ∧ t.me.why = 1 ∧ t.me.g = s.me.g ∧ sameBytes s t ∧
         (∀ k, k ≠ s.cur → t.ctx k = s.ctx k) ∧ t.msgs.length = s.msgs.length + 1 ∧
         exec .remoteReply { t with sel := s.msgs.length } = .next u ∧ u.me = (s.me.advance 4).ready ∧
         (∀ k e, e ∈ (t.core k).tlb ↔ e ∈ (s.core k).tlb ∧ ¬(sameUnit sc k s.myCore = true ∧ drops e)) ∧
         ∀ k e, e ∈ (t.cluster k).tlb ↔
           e ∈ (s.cluster k).tlb ∧ ¬(3 ≤ scopeNum sc ∧ sameUnit sc (k * 64) s.myCore = true ∧ drops e))

-- The vector unit

/-- R129–R131, R133–R136 and R139–R141 with the vector slot free (R125): a register-only vector instruction writes its
active lanes with the tables' values, `vcmp` its mask, `vred` its f register, `venc` its codes and `vbfly` its two
registers; the context moves on, takes the slot, and nothing else changes. With the slot taken, every vector instruction
makes its context wait for it (WHY 12). -/
def Obligations.VectorResults : Prop :=
  ∀ (s : State) (i : Instr), vecInstr i = true →
    (¬ s.unitFree → ∃ t, exec i s = .next t ∧ t.me.state = .waiting ∧ t.me.why = 12 ∧ t.me.v = s.me.v ∧
      (t.core s.myCore).slot.waiting = (s.core s.myCore).slot.waiting ++ [s.cur]) ∧
    (s.unitFree →
      (∀ d act f, vlaneSpec (s.core s.myCore).q8 i s.me = some (d, act, f) →
        ∃ t, exec i s = .next t ∧ takesSlot s t ∧ t.me = ({ s.me with v := t.me.v }.advance 4).ready ∧
          (∀ r : Reg8, r ≠ d → t.me.vr r = s.me.vr r) ∧
          ∀ l, l < 32 → (act l = true → f l (lane (t.me.vr d) l)) ∧
            (act l = false → lane (t.me.vr d) l = lane (s.me.vr d) l)) ∧
      (∀ k ty d a b m, i = .vcmp k ty d a b m →
        ∃ t x, exec i s = .next t ∧ takesSlot s t ∧ t.me = ((s.me.setM d x).advance 4).ready ∧
          ∀ l, l < 32 → x.getLsbD l =
            ((s.me.mr m).getLsbD l && vcondHolds k ty (lane (s.me.vr a) l) (lane (s.me.vr b) l))) ∧
      (∀ o ty d a m, i = .vred o ty d a m → ty = .i32 ∨ ty = .w32 ∨ ty = .f32 →
        let y (l : Nat) : IWord := if (s.me.mr m).getLsbD l then lane (s.me.vr a) l else vredIdentity o ty
        let n (z : IWord) : Int := if ty = .i32 then z.toInt else z.toNat
        ∃ t x, exec i s = .next t ∧ takesSlot s t ∧ t.me = ((s.me.setF d (BitVec.ofInt 64 (n x))).advance 4).ready ∧
          (ty = .f32 → x = treeReduce (vredCombine o ty) (vredIdentity o ty) ((List.range 32).map y)) ∧
          (ty ≠ .f32 → o = .add → x = BitVec.ofNat 32 ((List.range 32).map (fun l => (y l).toNat)).sum) ∧
          (ty ≠ .f32 → o = .min → (∃ l, l < 32 ∧ x = y l) ∧ ∀ l, l < 32 → n x ≤ n (y l)) ∧
          (ty ≠ .f32 → o = .max → (∃ l, l < 32 ∧ x = y l) ∧ ∀ l, l < 32 → n (y l) ≤ n x)) ∧
      (∀ d a n m, i = .venc d a n m →
        ∃ t x, exec i s = .next t ∧ takesSlot s t ∧ t.me = ((s.me.setV d x).advance 4).ready ∧
          ∀ k, k < 128 → elem 8 x k =
            if k / 32 = n.toNat ∧ (s.me.mr m).getLsbD (k % 32) = true then
              BitVec.ofNat 8 (q8Enc (s.core s.myCore).q8 (f32v (lane (s.me.vr a) (k % 32))))
            else elem 8 (s.me.vr d) k) ∧
      (∀ d a b w m, i = .vbfly d a b w m →
        let z (r : Reg8) (l : Nat) : IWord := lane (s.me.vr r) l
        let out (sub : Bool) (l : Nat) : IWord :=
          let k := l / 2 * 2
          let o := butterfly sub (z a k) (z a (k + 1)) (z b k) (z b (k + 1)) (z w k) (z w (k + 1))
          if l % 2 = 0 then o.1 else o.2
        ∃ t x y, exec i s = .next t ∧ takesSlot s t ∧ t.me = (((s.me.setV d x).setV (d + 1) y).advance 4).ready ∧
          ∀ l, l < 32 →
            lane x l = (if (s.me.mr m).getLsbD l then out false l else z d l) ∧
              lane y l = if (s.me.mr m).getLsbD l then out true l else z (d + 1) l))

/-- R126, R132, R133 and R138 on the context's own scratchpad, the vector slot free: in its entry cycle a load writes
its active lanes with the words at their addresses, a store writes memory in lane order, so that the highest lane of a
word remains, and changes no other byte; `ldtab` takes a valid image of 512 bytes as the core's table and traps (cause
6) on another, and the preset forms bring Q8-A and Q8-B. A lane address is an exact sum (R7): when that of the lowest
active lane is no 64-bit address it lies in no window (R142), and the context takes the translation trap, with its low
64 bits in TVAL (log 64). -/
def Obligations.VectorMemory : Prop :=
  ∀ (s : State) (n : Nat), s.vecReady n →
    (∀ (i : Instr) (m : Reg4) (ad : Nat → Int) (off : Nat → Nat), vaddrSpec i s.me = some (m, ad) →
      let act (l : Nat) : Prop := l < 32 ∧ (s.me.mr m).getLsbD l = true
      let loc (l : Nat) : Nat := scratchLoc s.myCore (off l)
      (∀ d g o b, i = .vld d g o m ∨ i = .vgath d g b m → (∀ l, act l → s.ownAtSum (ad l) 4 .load (off l)) →
        ∃ u w, vecRun i s n u w ∧ sameBytes s w ∧ w.me = ({ s.me with v := w.me.v }.advance 4).ready ∧
          (∀ r : Reg8, r ≠ d → w.me.vr r = s.me.vr r) ∧
          ∀ l, l < 32 → (act l → lane (w.me.vr d) l = BitVec.ofNat 32 (s.rd (span (loc l) 4))) ∧
            (¬ act l → lane (w.me.vr d) l = lane (s.me.vr d) l)) ∧
      (∀ x g o b, i = .vst x g o m ∨ i = .vscat x g b m → (∀ l, act l → s.ownAtSum (ad l) 4 .store (off l)) →
        (∀ l, act l → s.obj? (loc l / 64) = none) →
        ∃ u w, vecRun i s n u w ∧ w.me = (s.me.advance 4).ready ∧
          (∀ y, (∀ l, act l → ¬(loc l ≤ y ∧ y < loc l + 4)) → w.rdByte y = s.rdByte y) ∧
          ∀ l k, act l → k < 4 → (∀ j, act j → loc j = loc l → j ≤ l) →
            w.rdByte (loc l + k) = elem 8 (lane (s.me.vr x) l) k) ∧
      ∀ l, act l → (∀ j, act j → l ≤ j) → ad l % 4 = 0 → ¬(0 ≤ ad l ∧ ad l < 2 ^ 64) → s.noOwned → s.me.catches →
        ∃ u w, vecRun i s n u w ∧ sameBytes s w ∧ w.me = s.me.trapped 4 (BitVec.ofInt 64 (ad l)) s.me.pc) ∧
    (∀ (a : GReg) (off : Nat → Nat) (img : Q8Tab),
      (∀ j : Nat, j < 8 → s.ownAtSum ((s.me.gr a).toNat + 64 * j) 64 .load (off j)) →
      (∀ k, k < 512 → elem 8 img k = s.rdByte (scratchLoc s.myCore (off (k / 64)) + k % 64)) →
      ∃ u w, vecRun (.ldtab a) s n u w ∧ sameBytes s w ∧
        (q8Valid img = true → (w.core s.myCore).q8 = img ∧ w.me = (s.me.advance 4).ready) ∧
        (q8Valid img = false → s.noOwned → s.me.catches →
          (w.core s.myCore).q8 = (s.core s.myCore).q8 ∧ w.me = s.me.trapped 6 (s.me.gr a) s.me.pc)) ∧
    ∀ x ∈ [(Instr.ldtabQa, q8aImage), (.ldtabQb, q8bImage)],
      ∃ u w, vecRun x.1 s n u w ∧ sameBytes s w ∧ (w.core s.myCore).q8 = x.2 ∧ w.me = (s.me.advance 4).ready

-- The tensor unit

/-- R120, R171–R174 and R177 on images in the context's own scratchpad, the unit idle: the operation starts and
completes, and the context moves on. `mclr` clears the accumulator; `mma` and `mmr` add the product of the A tile and
the B tile, from memory or the latch, with the scale bytes for Q8; `mlatch` fills the quad's latch with the tile and its
use count; `mld` and `mst` move the image. An `mmr` whose tile is still to be used completes when the tile has reached
the next quad; one of another type or FX than the latch's takes the format trap (cause 7). R168, R169, R175 and R176:
`mshp` writes g[a] with the output extents, steps and column blocks of its shape, each saturated; `mcv` on an input, a B
tile and a scale record in the context's own scratchpad adds into each output in range the sum of R120 over the terms
present, a padded one being the pad code, and leaves the others; with no output or step it has no effect. A zero extent,
and an operand register above 14, are illegal. The address of an input byte of `mcv` is an exact sum (R7). -/
def Obligations.TensorOperations : Prop :=
  (∀ (s : State) (n : Reg4) (a b z : GReg) (oa ob oz : Nat), s.tensorIdle →
     let q := s.myQuad
     let la := scratchLoc s.myCore oa
     let lb := scratchLoc s.myCore ob
     let lz := scratchLoc s.myCore oz
     let sc (k : Nat) : Nat := (s.rdByte (lz + k)).toNat
     let done (w : State) : Prop := w.me = (s.me.advance 4).ready ∧ (w.quad q).tq = [] ∧ (w.quad q).trun = none
     let kept (w : State) : Prop := sameBytes s w ∧ ∀ m : Reg4, m ≠ n → (w.core s.myCore).acc[m.toNat] = (s.core s.myCore).acc[m.toNat]
     let q8s (i j : Nat) : List (Val × Val) := (List.range 32).map fun t => (s.q8At la (32 * i + t), s.q8At lb (32 * j + t))
     let h16s (i j : Nat) : List (Val × Val) := (List.range 16).map fun t => (s.h16At la (16 * i + t), s.h16At lb (16 * j + t))
     (∃ u v w, tensorRuns (.mclr n) s u v w ∧ done w ∧ kept w ∧ ∀ i j, i < 16 → j < 16 → w.accAt n i j = 0) ∧
     (s.ownAt (s.me.gr a) 512 .load oa → s.ownAt (s.me.gr b) 512 .load ob → s.ownAt (s.me.gr z) 32 .load oz →
       (∃ u v w, tensorRuns (.mmaQ8 n a b z) s u v w ∧ done w ∧ kept w ∧ ∀ i j, i < 16 → j < 16 →
         w.accAt n i j = mmaSpec (s.accAt n i j) (q8s i j) (sc i) (sc (16 + j))) ∧
       ∃ u v w, tensorRuns (.mmaH16 n a b) s u v w ∧ done w ∧ kept w ∧ ∀ i j, i < 16 → j < 16 →
         w.accAt n i j = mmaSpec (s.accAt n i j) (h16s i j) 127 127) ∧
     (∀ f, s.ownAt (s.me.gr b) 512 .load ob → (s.quad q).latch = none → (s.quad (s.prevQuad q)).out = none →
       ∃ u v w t, tensorRuns (.mlatch f b) s u v w ∧ done w ∧ kept w ∧ (w.quad q).latch = some t ∧ t.h16 = decide (f = .h16) ∧
         t.fx = (decide (f = .h16) && s.me.fx) ∧ t.count = 2 ^ ((s.cluster (clusterOf s.myCore)).mring % 4 + 1) ∧
         ∀ k, k < 512 → elem 8 t.data k = s.rdByte (lb + k)) ∧
     (s.ownAt (s.me.gr a) 1024 .load oa →
       ∃ u v w, tensorRuns (.mld n a) s u v w ∧ done w ∧ kept w ∧
         ∀ k, k < 1024 → elem 8 (w.core s.myCore).acc[n.toNat] k = s.rdByte (la + k)) ∧
     (s.ownAt (s.me.gr a) 1024 .store oa → (∀ k, k < 16 → s.obj? (la / 64 + k) = none) →
       ∃ u v w, tensorRuns (.mst n a) s u v w ∧ done w ∧ (w.core s.myCore).acc = (s.core s.myCore).acc ∧
         storesNum s w la 1024 (s.core s.myCore).acc[n.toNat].toNat) ∧
     ∀ t : Tile, (s.quad q).latch = some t → (s.quad q).out = none → q < 25600 → s.ownAt (s.me.gr a) 512 .load oa →
       s.ownAt (s.me.gr z) 32 .load oz →
       let new (h16 : Bool) (i j : Nat) : IWord :=
         if h16 then mmaSpec (s.accAt n i j) ((List.range 16).map fun k =>
           (s.h16At la (16 * i + k), unpack (fmtH16 s.me.fx) (elem 16 t.data (16 * j + k)).toNat)) 127 127
         else mmaSpec (s.accAt n i j) ((List.range 32).map fun k =>
           (s.q8At la (32 * i + k), q8Dec (s.core s.myCore).q8 (elem 8 t.data (32 * j + k)).toNat)) (sc i) (sc (16 + j))
       ∀ x ∈ [(Instr.mmrQ8 n a z, false), (.mmrH16 n a, true)],
         (t.h16 = x.2 → (x.2 = true → t.fx = s.me.fx) →
           ∃ u v w, tensorRuns x.1 s u v w ∧ kept w ∧ (w.quad q).latch = none ∧
             (∀ i j, i < 16 → j < 16 → w.accAt n i j = new x.2 i j) ∧
             (t.count ≤ 1 → done w ∧ (w.quad q).out = none) ∧
             (1 < t.count → (w.quad (s.nextQuad q)).latch = none → w.me.state = .waiting ∧
               ∃ y r, exec .tileArrival { w with sel := q } = .next y ∧
                 (y.quad (s.nextQuad q)).latch = some { t with count := t.count - 1 } ∧
                 exec (.tensorOpComplete q 1) y = .next r ∧ done r)) ∧
         ((t.h16 ≠ x.2 ∨ x.2 = true ∧ t.fx ≠ s.me.fx) → s.noOwned → s.me.catches →
           ∃ u v, exec x.1 s = .next u ∧ exec .tensorOpStart { u with sel := q } = .next v ∧
             v.me = { s.me.trapped 7 0 s.me.pc with
               tcause := BitVec.ofNat 64 (7 + (if t.h16 then 2 ^ 16 else 0) + (if t.h16 && t.fx then 2 ^ 17 else 0)) } ∧
             (v.quad q).latch = some t ∧ (v.quad q).tq = [] ∧ (v.core s.myCore).acc = (s.core s.myCore).acc)) ∧
  (∀ (s : State) (n : Reg4) (a b z : GReg) (sh : Shape) (ob oz : Nat) (off : Int → Nat),
     let x := geoOf sh s.me
     let ns := x.fh * x.fw * ((x.c + 31) / 32)
     let ctl := (s.me.gr (z + 1)).toNat
     let p0 := ctl % 2 ^ 32
     let k := ctl / 2 ^ 32 % 2 ^ 16
     let lb := scratchLoc s.myCore ob
     let sc (i : Nat) : Nat := (s.rdByte (scratchLoc s.myCore oz + i)).toNat
     let present (i t : Nat) : Prop := p0 + i < ohSpec x * owSpec x ∧ 32 * (k % ((x.c + 31) / 32)) + t < x.c
     (x.zeroExtent → ∀ i ∈ [Instr.mshp a sh, .mcv n a b z sh], ∃ v, exec i s = .next (s.takeTrap s.cur 1 v s.me.pc)) ∧
     (14 < z.toNat → ∃ v, exec (.mcv n a b z sh) s = .next (s.takeTrap s.cur 1 v s.me.pc)) ∧
     (¬ x.zeroExtent → ∃ t, exec (.mshp a sh) s = .next t ∧ completes s t 20 (s.me.setG a (BitVec.ofNat 64
       (min (ohSpec x) 65535 + min (owSpec x) 65535 * 2 ^ 16 + min ns 65535 * 2 ^ 32 +
         min ((x.k + 15) / 16) 65535 * 2 ^ 48)))) ∧
     (¬ x.zeroExtent → z.toNat ≤ 14 → s.tensorIdle → s.ownAt (s.me.gr b) 512 .load ob →
       s.ownAt (s.me.gr z) 32 .load oz →
       (∀ i t ad, i < 16 → t < 32 → present i t → convAddr x (s.me.gr a) p0 k i t = some ad → s.ownAtSum ad 1 .load (off ad)) →
       ∃ u v w, tensorRuns (.mcv n a b z sh) s u v w ∧ sameBytes s w ∧ w.me = (s.me.advance 20).ready ∧
         (w.quad s.myQuad).tq = [] ∧ (w.quad s.myQuad).trun = none ∧
         ∀ i j, i < 16 → j < 16 →
           ((x.h = 0 ∨ x.w = 0 ∨ x.c = 0 ∨ x.k = 0 ∨ ns ≤ k ∨ ohSpec x * owSpec x ≤ p0 + i ∨ x.k ≤ j) →
             w.accAt n i j = s.accAt n i j) ∧
           (¬(x.h = 0 ∨ x.w = 0 ∨ x.c = 0 ∨ x.k = 0 ∨ ns ≤ k ∨ ohSpec x * owSpec x ≤ p0 + i ∨ x.k ≤ j) →
             w.accAt n i j = mmaSpec (s.accAt n i j)
               (((List.range 32).filter (fun t => decide (32 * (k % ((x.c + 31) / 32)) + t < x.c))).map fun t =>
                 (match convAddr x (s.me.gr a) p0 k i t with
                   | some ad => s.q8At (scratchLoc s.myCore (off ad)) 0
                   | none => q8Dec (s.core s.myCore).q8 x.pad,
                 s.q8At lb (32 * j + t)))
               (sc i) (sc (16 + j)))))

-- The engines

/-- R313, R314, R317 and R322: a command whose n field keeps its limit enters its engine's queue with its channel's next
number, its token pending, and the context moves on; with the queue full, or another context waiting for it, the command
has its number and token too and waits outside with its context (WHY 15); a broken limit is illegal. `cpst` gives DONE
and ISS; `cpw` moves on once DONE has reached its value. R313–R316, R318 and R321 for a command that stands first, with
no line or write-back in the way: when its accesses can be performed, none of them in fleeting memory, none on a byte
twice, and none still under way at its completion scope (R215), its destination takes the converted source bytes, no
other byte changes, and it is done with CODE 0 and BYTES; a check that fails ends it with its CODE and nothing written.
Its completion, outside a sweep, removes it, raises DONE, and writes the token word into its register, which is no
longer pending. That a command is performed as a whole at its start, so that a check that fails leaves nothing written,
is the model's choice (log 13; R314 and R323 let writes already performed stand). -/
def Obligations.EngineCommands : Prop :=
  (∀ (s : State) (i : Instr) (t n d a : GReg) (ch : Reg8) (cv : Bool) (lim : Nat),
     let k := s.core s.myCore
     let dn := tget 0 ch.toNat k.done
     (engForm i = some (t, ch, cv, n, lim) →
       (lim < n.toNat → ∃ v, exec i s = .next (s.takeTrap s.cur 1 v s.me.pc)) ∧
       (n.toNat ≤ lim → (s.engQueued cv s.myCore).length < (if cv then 16 else 32) → s.engOutside cv s.myCore = [] →
         ∃ u c, exec i s = .next u ∧ u.me = ({ s.me with pend := s.me.pend ||| (1 <<< t.toNat) }.advance 4).ready ∧
           u.cmds = s.cmds ++ [c] ∧ c.i = i ∧ c.core = s.myCore ∧ c.cx = s.cur ∧ c.tid = s.me.tid ∧ c.ch = ch.toNat ∧
           c.seq = tget 0 ch.toNat k.iss ∧ c.tok = t.toNat ∧ c.conv = cv ∧ c.st = .queued ∧ c.fx = s.me.fx ∧ c.tbl = k.q8 ∧
           tget 0 ch.toNat (u.core s.myCore).iss = (tget 0 ch.toNat k.iss + 1) % 2 ^ 32 ∧ sameBytes s u ∧
           ∀ x, x ≠ s.cur → u.ctx x = s.ctx x) ∧
       (n.toNat ≤ lim → (¬ (s.engQueued cv s.myCore).length < (if cv then 16 else 32) ∨ s.engOutside cv s.myCore ≠ []) →
         ∃ u c, exec i s = .next u ∧ u.me.state = .waiting ∧ u.me.why = 15 ∧ u.me.pend = s.me.pend ||| (1 <<< t.toNat) ∧
           u.cmds = s.cmds ++ [c] ∧ c.i = i ∧ c.seq = tget 0 ch.toNat k.iss ∧ c.st = .outside ∧ c.tbl = k.q8 ∧
           tget 0 ch.toNat (u.core s.myCore).iss = (tget 0 ch.toNat k.iss + 1) % 2 ^ 32 ∧ sameBytes s u)) ∧
     (∃ u, exec (.cpst d ch) s = .next u ∧
       completes s u 4 (s.me.setG d (BitVec.ofNat 64 (dn + tget 0 ch.toNat k.iss * 2 ^ 32)))) ∧
     ((dn + 2 ^ 32 - (s.me.gr a).toNat % 2 ^ 32) % 2 ^ 32 < 2 ^ 31 →
       ∃ u, exec (.cpw ch a) s = .next u ∧ completes s u 4 s.me) ∧
     (¬ (dn + 2 ^ 32 - (s.me.gr a).toNat % 2 ^ 32) % 2 ^ 32 < 2 ^ 31 →
       ∃ u, exec (.cpw ch a) s = .next u ∧ u.me.state = .waiting ∧ u.me.why = 6)) ∧
  (∀ (s : State) (c : EngCmd), s.cmds.find? (fun x => x.id == s.sel) = some c → (∀ x ∈ s.cmds, x.id = c.id → x = c) →
     (s.engReady c = true → (∀ k, (s.core k).l1 = []) → s.queuedCells c.core = [] → s.flaws = [] → s.retired = [] → s.lost = [] →
       s.engOutside c.conv c.core = [] →
       (∀ r w, s.engDo c = .copy r w none → w.Nodup → (∀ l ∈ r ++ w, isFleetLoc l = false) →
         (5 ≤ scopeNum c.scope ∨ ∀ l ∈ w, locDie l = dieOf c.core) →
         ∃ t c1, exec .engineCommandStart s = .next t ∧ c1 ∈ t.cmds ∧
           (∀ y, y ∉ w → t.rdByte y = s.rdByte y) ∧
           (∀ k l : Nat, w[k]? = some l → (c.convert (s.rdBytes r))[k]? = some (t.rdByte l)) ∧
           ∃ g, c1 = { c with st := .done 0 (min w.length 0xFFFFFFFF) false false g }) ∧
       (∀ code, s.engDo c = .end_ code → ∃ t, exec .engineCommandStart s = .next t ∧ sameReads s t ∧
         { c with st := .done code 0 false false 0 } ∈ t.cmds)) ∧
     ∀ code bytes ex bo g, c.st = .done code bytes ex bo g → (s.part c.part).sweeping = false →
       ∃ t, exec .engineCommandComplete s = .next t ∧ t.cmds = s.cmds.filter (fun x => decide (x.id ≠ c.id)) ∧
         tget 0 c.ch (t.core c.core).done = (tget 0 c.ch (s.core c.core).done + 1) % 2 ^ 32 ∧
         ((s.ctx c.cx).tid = c.tid → c.tok < 16 → (s.ctx c.cx).pend.getLsbD c.tok = true →
           (t.ctx c.cx).pend.getLsbD c.tok = false ∧
             (t.ctx c.cx).gr (BitVec.ofNat 4 c.tok) = BitVec.ofNat 64 (code + (if ex then 2 ^ 8 else 0) +
               (if bo then 2 ^ 9 else 0) + c.seq % 65536 * 2 ^ 16 + bytes * 2 ^ 32)))

-- Launches, task graphs and wake words

/-- R324, R326, R339 and R340 `lnch` of a record in global memory: the dispatcher answers 4 for a record that is not
valid in the partition, 3 when 64 launches are held or queued there, and 0 when it accepts it, queued without and held
with dependences. R334, R342 `tgrun`: the first free handle names the resident graph; no free handle and a bad header
give reasons 1 and 2 with bit 63, reason 1 where both hold (the model's choice, log 79). R335, R336, R341 and R343.
`tkadd` sends a task record to the graph that bits [15:12] name: it gives 1 without a graph, 2 beyond its nodes, with
OVF set, and 0 when the node is made ready: it starts, or, while it runs, one more run is kept. `notify` on a graph sets
the notify register and leaves the ring's records up to it to be read in slot order, each of which is then admitted as a
task record in one event: the node that it names starts, as for `tkadd`; a step beyond the ring sets OVF; without a
graph nothing happens. R337, R338, R341, R344 and R345. `wake` on a word of the context's own scratchpad adds 1 to it,
modulo 2^64, and changes no other byte; `wwait` on one that differs from g[b] gives its value at once, and on one that
does not makes the context wait (WHY 11), watched. `tkadd.at` and `wake.at` set a timer of the die and give 0, or 1 when
all 1,024 are set. -/
def Obligations.LaunchInstructions : Prop :=
  (∀ (s : State) (d a : GReg) (pa : Nat), s.clear →
     s.translate s.myCore s.myPart (s.me.gr a) .load = .ok (.global pa) → inGlobal (s.me.gr a) = true →
     let die := dieOf s.myCore
     let gives (w : State) (v : Nat) : Prop := w.me = ((s.me.setG d (BitVec.ofNat 64 v)).advance 4).ready
     ((s.me.gr a).toNat % 128 = 0 →
       let b := s.rdBytes (span pa 128)
       let mine : Bool := decide (dwordAt b 0 % 1024 = s.myPart)
       ((s.recordOk b && mine) = false →
         ∃ u t w, roundTrip .homeSliceAccess (.lnch d a) s u t w ∧ gives w 4 ∧ w.launches = s.launches) ∧
       (s.recordOk b = true → mine = true → 64 ≤ s.heldOrQueued die s.myPart →
         ∃ u t w, roundTrip .homeSliceAccess (.lnch d a) s u t w ∧ gives w 3 ∧ w.launches = s.launches) ∧
       (s.recordOk b = true → mine = true → s.heldOrQueued die s.myPart < 64 →
         ∃ u t w l, roundTrip .homeSliceAccess (.lnch d a) s u t w ∧ gives w 0 ∧ w.launches = s.launches ++ [l] ∧
           l.part = s.myPart ∧ l.die = die ∧ l.entry = BitVec.ofNat 64 (dwordAt b 1) ∧
           l.args = [4, 5, 6, 7].map (fun i => BitVec.ofNat 64 (dwordAt b i)) ∧ l.doneW = BitVec.ofNat 64 (dwordAt b 8) ∧
           l.prio = dwordAt b 0 / 2 ^ 16 % 8 ∧ l.st = (if dwordAt b 0 / 2 ^ 20 % 8 = 0 then .queued else .held))) ∧
     ((s.me.gr a).toNat % 64 = 0 →
       let b := s.rdBytes (span pa 64)
       ((∀ h, h < 16 → (s.graph? s.myPart h).isSome = true) →
         ∃ u t w, roundTrip .homeSliceAccess (.tgrun d a) s u t w ∧ gives w (2 ^ 63 + 1) ∧ w.graphs = s.graphs) ∧
       ∀ h, h < 16 → s.graph? s.myPart h = none → (∀ j, j < h → (s.graph? s.myPart j).isSome = true) →
         (headerOk b = false →
           ∃ u t w, roundTrip .homeSliceAccess (.tgrun d a) s u t w ∧ gives w (2 ^ 63 + 2) ∧ w.graphs = s.graphs) ∧
         ∀ s2 nodes, s.readGraph (.req s.cur s.me.tid) die s.myPart b = .ok s2 nodes →
           ((s.graphs.filter (fun g => g.die == die)).map (fun g => g.nodes.length)).sum + nodes.length ≤ 65536 →
           ∃ u t w g, roundTrip .homeSliceAccess (.tgrun d a) s u t w ∧ gives w h ∧ w.graphs = s.graphs ++ [g] ∧
             g.part = s.myPart ∧ g.handle = h ∧ g.die = die ∧ g.addr = s.me.gr a ∧ g.nodes = nodes ∧ g.notify = 0 ∧
             g.compl = 0 ∧ g.fail = false ∧ g.ovf = false ∧ g.ring = BitVec.ofNat 64 (dwordAt b 2) ∧ g.rlog = dwordAt b 3)) ∧
  (∀ (s : State) (d a b : GReg), s.clear →
     let h := (s.me.gr a).toNat / 4096 % 16
     let n := (s.me.gr a).toNat % 4096
     let gives (w : State) (v : Nat) : Prop := w.me = ((s.me.setG d (BitVec.ofNat 64 v)).advance 4).ready
     let adds (w : State) : Prop := ∃ u, exec (.tkadd d a) s = .next u ∧ exec .taskRecord { u with sel := s.msgs.length } = .next w
     (s.graph? s.myPart h = none → ∃ w, adds w ∧ gives w 1 ∧ w.graphs = s.graphs) ∧
     (∀ g, s.graph? s.myPart h = some g →
       (g.nodes.length ≤ n → ∃ w, adds w ∧ gives w 2 ∧ w.graph? s.myPart h = some { g with ovf := true }) ∧
       ∀ x, g.nodes[n]? = some x →
         (x.running = false → ∃ w, adds w ∧ gives w 0 ∧ .node s.myPart h n ∈ w.msgs ∧
           w.graph? s.myPart h = some { g with nodes := g.nodes.set n { x with running := true } }) ∧
         (x.running = true → x.pend < 255 → ∃ w, adds w ∧ gives w 0 ∧
           w.graph? s.myPart h = some { g with nodes := g.nodes.set n { x with pend := x.pend + 1 } })) ∧
     let r := (s.me.gr a).toNat % 16
     let v := (s.me.gr b).toNat % 2 ^ 32
     let told (w : State) : Prop := ∃ u t, roundTrip .homeSliceAccess (.notify a b) s u t w ∧ w.me = (s.me.advance 4).ready
     (s.graph? s.myPart r = none → ∃ w, told w ∧ w.graphs = s.graphs ∧ sameBytes s w) ∧
     ∀ g, s.graph? s.myPart r = some g → g.notify < 2 ^ 32 →
       let k := (v + 2 ^ 32 - g.notify) % 2 ^ 32
       (2 ^ g.rlog < k → ∃ w, told w ∧ w.graph? s.myPart r = some { g with ovf := true }) ∧
       (k ≤ 2 ^ g.rlog →
         ∃ w, told w ∧ w.graph? s.myPart r = some { g with notify := v } ∧ (0 < k → .ring s.myPart r g.notify k ∈ w.msgs))) ∧
  (∀ (s s1 : State) (k part h slot n : Nat) (g : Graph) (b : List Byte),
     s.msgs[k]? = some (.ring part h slot n) → s.graph? part h = some g →
     s.devRead (.graph g.part g.handle 2) g.die g.part (g.ring + BitVec.ofNat 64 (16 * (slot % 2 ^ g.rlog))) 16 = .got s1 b →
     let t := s.admitRing k
     let h1 := dwordAt b 0 / 4096 % 16
     let n1 := dwordAt b 0 % 4096
     (1 < n → .ring part h ((slot + 1) % 2 ^ 32) (n - 1) ∈ t.msgs) ∧
       (s.graph? part h1 = none → t.graphs = s.graphs) ∧
       ∀ g1, s.graph? part h1 = some g1 →
         (g1.nodes.length ≤ n1 → t.graph? part h1 = some { g1 with ovf := true }) ∧
         ∀ x, g1.nodes[n1]? = some x →
           (x.running = false → .node part h1 n1 ∈ t.msgs ∧
             t.graph? part h1 = some { g1 with nodes := g1.nodes.set n1 { x with running := true } }) ∧
           (x.running = true → x.pend < 255 →
             t.graph? part h1 = some { g1 with nodes := g1.nodes.set n1 { x with pend := x.pend + 1 } })) ∧
  (∀ (s : State) (d a b : GReg) (off : Nat), s.clear →
     let loc := scratchLoc s.myCore off
     let v := s.rd (span loc 8)
     let die := dieOf s.myCore
     let gives (w : State) (v : Nat) : Prop := w.me = ((s.me.setG d (BitVec.ofNat 64 v)).advance 4).ready
     (s.ownAt (s.me.gr a) 8 .store off → inScratch s.myCore (s.me.gr a) = true → s.obj? (loc / 64) = none →
       ∃ t, exec (.wake a) s = .next t ∧ t.me = (s.me.advance 4).ready ∧ storesNum s t loc 8 ((v + 1) % 2 ^ 64)) ∧
     (s.ownAt (s.me.gr a) 8 .load off → inScratch s.myCore (s.me.gr a) = true →
       (v ≠ (s.me.gr b).toNat → ∃ t, exec (.wwait d a b) s = .next t ∧ gives t v ∧ sameBytes s t) ∧
       (v = (s.me.gr b).toNat → ∃ t, exec (.wwait d a b) s = .next t ∧ t.me.state = .waiting ∧ t.me.why = 11 ∧
         sameBytes s t ∧ t.watches = s.watches ++ [⟨s.cur, s.me.tid, loc, s.me.gr b⟩])) ∧
     ((1024 ≤ (s.timers.filter (fun t => t.die == die)).length →
         ∃ u t w, roundTrip .homeSliceAccess (.tkaddAt d a b) s u t w ∧ gives w 1 ∧ w.timers = s.timers) ∧
       ((s.timers.filter (fun t => t.die == die)).length < 1024 →
         ∃ u t w, roundTrip .homeSliceAccess (.tkaddAt d a b) s u t w ∧ gives w 0 ∧
           w.timers = s.timers ++ [⟨die, s.myPart, (s.me.gr b).toNat, none, s.me.gr a, s.me.tid⟩])) ∧
     (s.ownAt (s.me.gr a) 8 .store off → inScratch s.myCore (s.me.gr a) = true →
       (1024 ≤ (s.timers.filter (fun t => t.die == die)).length →
         ∃ u t w, roundTrip .homeSliceAccess (.wakeAt d a b) s u t w ∧ gives w 1 ∧ w.timers = s.timers) ∧
       ((s.timers.filter (fun t => t.die == die)).length < 1024 →
         ∃ u t w x, roundTrip .homeSliceAccess (.wakeAt d a b) s u t w ∧ gives w 0 ∧ w.timers = s.timers ++ [x] ∧
           x.die = die ∧ x.part = s.myPart ∧ x.tick = (s.me.gr b).toNat ∧ x.wake = some loc)))

/-- R325 to R329, the dispatcher's events. It takes for placing the queued launch whose partition's turn comes first
and, in it, one of the greatest priority; each die's dispatcher then sends the spawn messages for its cores, one at a
time. A held launch is queued when every dependence is done, reads them again 65,536 ticks later when one is not, and
places nothing when one failed and its record says so. A refused placement is sent again. One to a core that its
partition no longer holds counts as refused, 4,096 die cycles before the next try, and nothing is sent (R14, R64). A
core reports once everything placed on it has ended; the last report writes the done word and the launch leaves. A
tear-down marks the `lnch` of its context that is on its way. -/
def Obligations.LaunchEvents : Prop :=
  ∀ (s : State) (l : Launch), (∀ k, (s.core k).l1 = []) → s.resvq = [] → s.flaws = [] → s.retired = [] → s.lost = [] →
    let die := s.sel
    let queued (x : Launch) : Prop := x ∈ s.launches ∧ x.die = die ∧ x.st = .queued ∧ s.partOut x.part = false
    let turn (x : Launch) : Nat := (x.part + 1023 - (s.die die).lastPart) % 1024
    let found : Prop := s.launches.find? (fun x => x.id == l.id) = some l
    (s.placing die < 4 → s.nextLaunchOf die = some l → queued l ∧
      (∀ x, queued x → turn l ≤ turn x ∧ (x.part = l.part → x.prio ≤ l.prio)) ∧
      (l.scr = [] → ∃ t, exec .launchSelect s = .next t ∧
        { l with st := .placing, flight := l.todo.length, scr := [], unsent := l.todo } ∈ t.launches ∧
        (t.die die).lastPart = l.part ∧ t.msgs = s.msgs)) ∧
    (∀ d k, found → l.unsent.find? (fun k => k / 12800 == d) = some k →
      (s.partOf k = some l.part → (s.placeNext l.id d).msgs = s.msgs ++ [.spawn (l.spawnMsg k)]) ∧
        (s.partOf k ≠ some l.part →
          (s.placeNext l.id d).msgs = s.msgs ++ [.spawnRetry (.disp l.id d) k (s.dieCyc + 4096)]) ∧
        { l with unsent := l.unsent.erase k } ∈ (s.placeNext l.id d).launches ∧ (l.spawnMsg k).core = k) ∧
    (s.nextLaunchOf die = none → ∀ x, ¬ queued x) ∧
    (∀ v : Word → Nat, found → s.sel = l.id → l.st = .held → s.faulted (.launch l.id) = false →
      s.partOut l.part = false → l.check ≤ s.now →
      (∀ a ∈ l.deps, ∃ locs, s.planOne (.launch l.id) (dieCore l.die) l.part a 8 .engRead = .ok locs ∧ v a = s.rd locs) →
      ((∀ a ∈ l.deps, (v a).testBit 8 = true ∧ (l.dfail = true → v a % 256 = 0)) →
        ∃ t, exec .depRecheck s = .next t ∧ { l with st := .queued } ∈ t.launches) ∧
      ((∃ a ∈ l.deps, (v a).testBit 8 = true ∧ v a % 256 ≠ 0 ∧ l.dfail = true) →
        ∃ t, exec .depRecheck s = .next t ∧ ∀ x ∈ t.launches, x.id = l.id → 4 ≤ x.code ∧ x.todo = []) ∧
      ((∃ a ∈ l.deps, (v a).testBit 8 = false) →
        (∀ a ∈ l.deps, (v a).testBit 8 = true → l.dfail = true → v a % 256 = 0) →
        ∃ t, exec .depRecheck s = .next t ∧ { l with check := s.now + 65536 } ∈ t.launches)) ∧
    (∀ d k due, s.msgs[s.sel]? = some (.spawnRetry (.disp l.id d) k due) → found → l.todo.contains k = true →
      ∃ t, exec .dispatcherSpawnRetry s = .next t ∧ t.launches = s.launches ∧ t.msgs = dropAt s.sel s.msgs ++
        [if s.partOf k = some l.part then .spawn (l.spawnMsg k) else .spawnRetry (.disp l.id (k / 12800)) k (s.dieCyc + 4096)]) ∧
    (∀ d part tid term, s.msgs[s.sel]? = some (.teardown d part tid term) →
      ∃ t, exec .teardownNotice s = .next t ∧ t.msgs.length + 1 = s.msgs.length ∧
        ∀ r g a, .req r ∈ dropAt s.sel s.msgs → r.i = .lnch g a → r.part = part → r.tid = tid → r.vals = [] →
          .req { r with vals := [if term then 2 else 3, 0] } ∈ t.msgs) ∧
    ∀ k, found → l.todo.contains k = false → l.rep.contains k = false → (∃ e ∈ l.live, e.1 = k) → tget 0 k l.live = 0 →
      (l.todo = [] → l.flight = 0 → (∀ e ∈ l.live, e.1 = k ∨ e.1 ∈ l.rep) → l.st = .running →
        ∀ a, s.planOne (.launch l.id) (dieCore l.die) l.part l.doneW 8 .engWrite = .ok (span a 8) → a % 8 = 0 →
          a < 2 ^ 42 →
          s.obj? (a / 64) = none →
          ∃ t, exec (.coreDoneReport l.id k) s = .next t ∧ (∀ x ∈ t.launches, x.id ≠ l.id) ∧
            t.rd (span a 8) = (l.code + 2 ^ 8 + l.tstat % 16 * 2 ^ 12 + min l.faults 65535 * 2 ^ 16 +
              l.ctxsN % 2 ^ 32 * 2 ^ 32) % 2 ^ 64) ∧
      ((∃ e ∈ l.live, e.1 ≠ k ∧ e.1 ∉ l.rep) →
        ∃ t, exec (.coreDoneReport l.id k) s = .next t ∧
          { l with rep := k :: l.rep, sig := l.sig ||| s.relSig k } ∈ t.launches)

/-- R332 to R336 and R338, the graph unit's events. A ready plain node enters its launch record, with the launch bound
to the node; one whose record cannot stand there fails, which records FAIL and the first FNODE. A control node reads its
condition and decrements the successor that it chooses. The end of a plain node's launch counts in COMPL; a good one
decrements the successors, a bad one fails the node. A due timer adds 1 to its wake word or applies its task record; its
action waits behind an earlier one that does, and while its partition is out. -/
def Obligations.GraphEvents : Prop :=
  ∀ (s : State) (part h n : Nat) (g : Graph) (x : Node), s.graph? part h = some g → g.nodes[n]? = some x →
    let idle (y : Node) : Node := if 0 < y.pend then { y with pend := y.pend - 1 } else { y with running := false }
    let failed (t : State) : Prop := ∃ g1, t.graph? part h = some g1 ∧ g1.fail = true ∧
      g1.fnode = (if g.fail then g.fnode else n) ∧ g1.nodes = g.nodes.set n (idle x)
    -- node `k` is decremented, and node `n` has ended its run
    let passed (t : State) (k : Nat) : Prop := ∀ y, g.nodes[k]? = some y → k ≠ n → y.running = false →
      (1 < y.count → ∃ g1, t.graph? part h = some g1 ∧
        g1.nodes = (g.nodes.set k { y with count := y.count - 1 }).set n (idle x)) ∧
      (y.count ≤ 1 → .node part h k ∈ t.msgs ∧ ∃ g1, t.graph? part h = some g1 ∧
        g1.nodes = (g.nodes.set k { y with count := y.npred, running := true }).set n (idle x))
    (s.msgs[s.sel]? = some (.node part h n) →
      (x.kind = 0 → recordAddr x.addr = true → ∀ s1 b, s.devRead (.graph part h 1) g.die part x.addr 128 = .got s1 b →
        (s.recordOk b = true → dwordAt b 0 % 1024 = part → s.heldOrQueued g.die part < 64 →
          ∃ t l, exec .nodeRun s = .next t ∧ t.launches = s.launches ++ [l] ∧ l.node = some (h, n) ∧ l.part = part ∧
            l.die = g.die ∧ l.entry = BitVec.ofNat 64 (dwordAt b 1) ∧ t.graphs = s.graphs) ∧
        (s.recordOk b = false → ∃ t, exec .nodeRun s = .next t ∧ failed t ∧ t.launches = s.launches)) ∧
      (x.kind = 0 → recordAddr x.addr = false → ∃ t, exec .nodeRun s = .next t ∧ failed t) ∧
      (x.kind ≠ 0 → inFleet x.addr = true → ∃ t, exec .nodeRun s = .next t ∧ failed t) ∧
      (x.kind ≠ 0 → inFleet x.addr = false → ∀ s1 b, s.devRead (.graph part h 3) g.die part x.addr 8 = .got s1 b →
        let c := ofBytes b
        let k := if x.kind = 3 then x.table.getD (min c (x.table.length - 1)) 0xFFFF else if c = 0 then x.s1 else x.s0
        k ≠ 0xFFFF → ∃ t, exec .nodeRun s = .next t ∧ passed t k)) ∧
    (∀ ok sig, s.msgs[s.sel]? = some (.nodeDone part h n ok sig) →
      ∃ t g1, exec .plainNodeComplete s = .next t ∧ t.graph? part h = some g1 ∧ g1.compl = (g.compl + 1) % 2 ^ 32 ∧
        (ok = false → failed t) ∧
        (ok = true → g1.fail = g.fail ∧ g1.fnode = g.fnode) ∧
        (ok = true → x.s1 = 0xFFFF → x.s0 ≠ 0xFFFF → passed t x.s0) ∧
        (ok = true → x.s0 = 0xFFFF → x.s1 ≠ 0xFFFF → passed t x.s1)) ∧
    ∀ y, s.timers[s.sel]? = some y →
      (s.now < y.tick → exec .belfryTimer s = .next s) ∧
      (y.tick ≤ s.now → y.wake = none →
        let earlier : Prop := ∃ w tid, .task y.die y.part w tid none none ∈ s.msgs
        ∃ t, exec .belfryTimer s = .next t ∧ t.timers = dropAt s.sel s.timers ∧
          ((earlier ∨ s.partOut y.part = true) →
            t.msgs = s.msgs ++ [.task y.die y.part y.trec y.tid none none] ∧ sameBytes s t) ∧
          (¬ earlier → s.partOut y.part = false → y.part = part → y.trec.toNat / 4096 % 16 = h → y.trec.toNat % 4096 = n →
            x.running = false → .node part h n ∈ t.msgs ∧ ∃ g1, t.graph? part h = some g1 ∧
              g1.nodes = g.nodes.set n { x with running := true })) ∧
      (∀ l, y.tick ≤ s.now → y.wake = some l → l % 8 = 0 → s.wakePlan y.die l y.trec = .ok (span l 8) →
        let earlier : Prop := ∃ p v, .timerWake y.die p l v ∈ s.msgs
        ∃ t, exec .belfryTimer s = .next t ∧ t.timers = dropAt s.sel s.timers ∧
          ((earlier ∨ s.wakeOut y.part l = true) →
            t.msgs = s.msgs ++ [.timerWake y.die y.part l y.trec] ∧ sameBytes s t) ∧
          (¬ earlier → s.wakeOut y.part l = false → s.obj? (l / 64) = none → s.flaws = [] → s.retired = [] → s.lost = [] →
            storesNum s t l 8 ((s.rd (span l 8) + 1) % 2 ^ 64)))

-- The network

/-- R373, R376 and R382 to R385. `nring` of a descriptor in global memory makes the endpoint of the lowest free number
and gives it, or reason 1 with 256 in use, whatever the descriptor (deduced, log 44), or 2 for an invalid descriptor,
with bit 63. `npost` gives 1 for no endpoint, 2 when the ring has no room, and 0 when it moves the producer index and
tags the requests. `ncnt` reads a counter with its errors; `ncw` moves on when the count is reached, and otherwise waits
(WHY 16). -/
def Obligations.NetworkInstructions : Prop :=
  ∀ (s : State) (d a n : GReg) (pa : Nat), s.clear →
    let die := dieOf s.myCore
    let gives (w : State) (v : Nat) : Prop := w.me = ((s.me.setG d (BitVec.ofNat 64 v)).advance 4).ready
    let x := (s.me.gr a).toNat % 512
    let v := (s.me.gr n).toNat % 2 ^ 32
    ((s.me.gr a).toNat % 64 = 0 → inGlobal (s.me.gr a) = true →
      s.translate s.myCore s.myPart (s.me.gr a) .load = .ok (.global pa) →
      let b := s.rdBytes (span pa 64)
      ((∀ k, k < 256 → (s.ep? die s.myPart k).isSome = true) →
        ∃ u t w, roundTrip .homeSliceAccess (.nring d a) s u t w ∧ gives w (2 ^ 63 + 1) ∧ w.eps = s.eps) ∧
      ∀ k, k < 256 → s.ep? die s.myPart k = none → (∀ j, j < k → (s.ep? die s.myPart j).isSome = true) →
        (s.descOk die s.myPart b = false →
          ∃ u t w, roundTrip .homeSliceAccess (.nring d a) s u t w ∧ gives w (2 ^ 63 + 2) ∧ w.eps = s.eps) ∧
        (s.descOk die s.myPart b = true →
          ∃ u t w e, roundTrip .homeSliceAccess (.nring d a) s u t w ∧ gives w k ∧ w.eps = s.eps ++ [e] ∧ e.die = die ∧
            e.part = s.myPart ∧ e.ep = k ∧ e.rlog = dwordAt b 0 ∧ e.ring = BitVec.ofNat 64 (dwordAt b 1) ∧
            e.buf = BitVec.ofNat 64 (dwordAt b 2) ∧ e.blen = dwordAt b 3 ∧ e.peer = dwordAt b 4 ∧
            e.entry = BitVec.ofNat 64 (dwordAt b 5) ∧ e.prod = 0 ∧ e.next = 0 ∧ e.sc = 0 ∧ e.rc = 0)) ∧
    (s.ep? die s.myPart (x % 256) = none →
      ∃ u t w, roundTrip .homeSliceAccess (.npost d a n) s u t w ∧ gives w 1 ∧ w.eps = s.eps) ∧
    (∀ e, s.ep? die s.myPart (x % 256) = some e →
      let new := (v + 2 ^ 32 - e.prod) % 2 ^ 32
      let held := (e.prod + 2 ^ 32 - e.sc) % 2 ^ 32
      (2 ^ e.rlog < new + held →
        ∃ u t w, roundTrip .homeSliceAccess (.npost d a n) s u t w ∧ gives w 2 ∧ w.eps = s.eps) ∧
      (new + held ≤ 2 ^ e.rlog →
        ∃ u t w, roundTrip .homeSliceAccess (.npost d a n) s u t w ∧ gives w 0 ∧ w.ep? die s.myPart (x % 256) =
          some { e with prod := v, tags := e.tags ++ List.replicate new (s.me.tag, s.me.fx) })) ∧
    (s.counterOf x = none → ∃ t, exec (.ncnt d a) s = .next t ∧ completes s t 4 (s.me.setG d 0)) ∧
    (∀ e, s.ep? die s.myPart (x / 2) = some e → ∃ t, exec (.ncnt d a) s = .next t ∧
      completes s t 4 (s.me.setG d (BitVec.ofNat 64 (if x % 2 = 1 then e.rc % 2 ^ 32 + min e.rcErr 65535 * 2 ^ 32
        else e.sc % 2 ^ 32 + min e.scErr 65535 * 2 ^ 32)))) ∧
    (∀ c, s.counterOf x = some c → (c + 2 ^ 32 - v) % 2 ^ 32 < 2 ^ 31 → s.syncsAtOnce →
      ∃ t, exec (.ncw a n) s = .next t ∧ t.me = (s.me.advance 4).ready ∧ sameBytes s t) ∧
    ((∀ c, s.counterOf x = some c → ¬ (c + 2 ^ 32 - v) % 2 ^ 32 < 2 ^ 31) →
      ∃ t, exec (.ncw a n) s = .next t ∧ t.me.state = .waiting ∧ t.me.why = 16)

/-- R370, R372, R374, R375, R378, R386, R387 and R388, the sending side. Once the slot of the next request is read, a
`WRITE` starts with its packets of 4,096 bytes, the last one shorter; a `REDUCE` sends its contribution when a scale-up
port is up, in flits with the reduction identity and the rank, and else ends with CODE 3; a request that fails its
checks completes with its CODE. A packet leaves on a port of its path that is up: whole on Ethernet, for the IPv6
address of the peer, and as flits on the scale-up path, each with its partition, phase tag and FX; without such a port
its request has CODE 3. An acknowledgement settles the packets that it covers, and the last one completes the request
with CODE 0. A packet whose time has passed is sent again at once and counts in RTX, up to 17 times, and then its
request has CODE 3. The model's choices: dword 2 of a peer entry is the high half of the IPv6 address, flits hold 224
bytes, and an acknowledgement of another registration of the endpoint is ignored (log 41); what is sent again, and when
(log 42). -/
def Obligations.NetworkSending : Prop :=
  ∀ (s : State) (e : Endpoint), s.ep? e.die e.part e.ep = some e →
    let peer := s.peer e.die e.part e.peer
    let upOn (scale : Bool) (k : Nat) : Prop := k < 3 ∧ (s.die e.die).up.getLsbD k = true ∧
      (s.die e.die).mode.getLsbD k ≠ scale
    let path (r : NReq) : Bool := (r.peer.headD 0).getLsbD 1
    -- the packet `p` of `r` has left on port `k`
    let left (t : State) (r : NReq) (p : NPkt) (k : Nat) : Prop := ∃ q : Packet,
      q.srcPkg = s.pkg ∧ q.srcDie = e.die ∧ q.srcPart = e.part ∧ q.srcEp = e.ep ∧ q.inc = e.inc ∧ q.num = p.num ∧
      q.req = r.idx ∧ q.off = p.off ∧ q.roff = r.roff ∧ q.len = r.len ∧ q.cnt = r.cnt ∧
      q.bytes = (r.bytes.drop p.off).take p.len ∧ q.dstEp = (r.peer.headD 0).toNat / 2 ^ 16 % 2 ^ 16 ∧
      (path r = false → q.dst = .ether ((r.peer.getD 2 0) ++ (r.peer.getD 1 0)) ∧
        t.out = s.out ++ [.packet q r.peer (3 * e.die + k)]) ∧
      (path r = true → q.dst = .scale ((r.peer.headD 0).toNat / 2 ^ 32 % 2 ^ 8) ((r.peer.headD 0).toNat / 2 ^ 40 % 2 ^ 3) ∧
        ∃ fs : List Flit, t.out = s.out ++ fs.map (fun f => .flit f r.peer (3 * e.die + k)) ∧
          fs.length = (q.bytes.length + 223) / 224 ∧ ∀ i f, fs[i]? = some f → f.pkt = q ∧ f.part = e.part ∧
            f.phase = r.tag ∧ f.fx = r.fx ∧ f.red = none ∧ f.at_ = 224 * i ∧ f.len = min 224 (q.bytes.length - 224 * i))
    (s.netWrites e = none → e.next ≠ e.prod → s.faulted (e.who e.next) = false → s.flaws = [] → s.retired = [] → s.lost = [] →
      ∀ l, s.slotPlan e = .ok l →
      let b := s.rdBytes l
      let len := dwordAt b 0 / 2 ^ 32 % 2 ^ 32
      (∀ src, s.netDo e b = .go src →
        (dwordAt b 0 % 16 = 0 →
          ∃ t r, exec (.workRequestStart e.die e.part e.ep) s = .next t ∧
            t.ep? e.die e.part e.ep = some { e with
              next := (e.next + 1) % 2 ^ 32, tags := e.tags.drop 1, reqs := e.reqs ++ [r], nextPkt := e.nextPkt + (len + 4095) / 4096 } ∧
            r.idx = e.next ∧ r.len = len ∧ r.roff = dwordAt b 2 ∧ r.bytes = s.rdBytes src ∧ r.code = none ∧
            (r.tag, r.fx) = e.tags.headD (false, false) ∧
            r.pkts.map (fun p => (p.num, p.off, p.len, p.sends, p.acked)) = (List.range ((len + 4095) / 4096)).map (fun k =>
              (e.nextPkt + k, 4096 * k, min 4096 (len - 4096 * k), 0, false)) ∧
            t.msgs = s.msgs ++ (List.range ((len + 4095) / 4096)).map (fun k => .pkt e.die e.part e.ep (e.nextPkt + k))) ∧
        (dwordAt b 0 % 16 = 1 → (peer.getD 3 0).toNat / 2 ^ 22 % 2 ^ 7 ≠ 0 →
          ((∃ k, upOn true k) →
            ∃ t c, exec (.workRequestStart e.die e.part e.ep) s = .next t ∧ t.msgs = s.msgs ++ [.contrib c] ∧
              c.part = e.part ∧ (c.phase, c.fx) = e.tags.headD (false, false) ∧
              c.rid = (peer.getD 3 0).toNat % 2 ^ 16 ∧ c.rank = (peer.getD 3 0).toNat / 2 ^ 16 % 2 ^ 6 ∧
              c.nr = (peer.getD 3 0).toNat / 2 ^ 22 % 2 ^ 7 ∧ c.len = len ∧ c.roff = dwordAt b 2 ∧ c.bytes = s.rdBytes src ∧
              c.mine = some (e.die, e.part, e.ep, e.next) ∧
              ∃ k, upOn true k ∧ ∃ fs : List Flit, t.out = s.out ++ fs.map (fun f => .flit f peer (3 * e.die + k)) ∧
                fs.length = (c.bytes.length + 223) / 224 ∧ ∀ i f, fs[i]? = some f → f.part = e.part ∧
                  (f.phase, f.fx) = (c.phase, c.fx) ∧ f.red = some (c.rid, c.rank) ∧ f.at_ = 224 * i ∧
                  f.len = min 224 (c.bytes.length - 224 * i) ∧ f.pkt.bytes = c.bytes) ∧
          (∀ a, (¬ ∃ k, upOn true k) → e.reqs = [] → e.sc = e.next → s.slotAt e e.next a →
            ∃ t, exec (.workRequestStart e.die e.part e.ep) s = .next t ∧ requestEnds t e e.next a 3 0 0))) ∧
      (∀ code a, s.netDo e b = .end_ code → code < 256 → e.reqs = [] → e.sc = e.next → s.slotAt e e.next a →
        ∃ t, exec (.workRequestStart e.die e.part e.ep) s = .next t ∧ requestEnds t e e.next a code 0 0)) ∧
    (∀ num r p, s.msgs[s.sel]? = some (.pkt e.die e.part e.ep num) → e.holding num = some (r, p) →
      ((∃ k, upOn (path r) k) → ∃ t k, exec .packetSend s = .next t ∧ upOn (path r) k ∧ left t r p k) ∧
      (∀ a, (¬ ∃ k, upOn (path r) k) → e.onlyReq r → s.slotAt e r.idx a →
        ∃ t, exec .packetSend s = .next t ∧ t.out = s.out ∧ requestEnds t e r.idx a 3 r.rtx 0)) ∧
    (∀ r covers, e.reqs = [r] → r.code = none → r.reduce = false →
      let a : Ack := { die := e.die, part := e.part, ep := e.ep, inc := e.inc, covers := covers, codes := [] }
      let got (p : NPkt) : NPkt := if p.num ∈ covers then { p with acked := true } else p
      (e.missing covers = [] → (∃ p ∈ r.pkts, p.acked = false ∧ p.num ∉ covers) →
        ∃ t, exec (.ackReceive a) s = .next t ∧
          t.ep? e.die e.part e.ep = some { e with reqs := [{ r with pkts := r.pkts.map got }] }) ∧
      (∀ b, r.pkts ≠ [] → (∀ p ∈ r.pkts, p.acked = true ∨ p.num ∈ covers) → r.six = false → e.onlyReq r →
        s.slotAt e r.idx b →
        ∃ t, exec (.ackReceive a) s = .next t ∧ requestEnds t e r.idx b 0 r.rtx 0) ∧
      ∀ inc, inc ≠ e.inc → exec (.ackReceive { a with inc := inc }) s = .next s) ∧
    (∀ num r p, e.holding num = some (r, p) → p.sends ≠ 0 →
      (p.sends < 17 → (∃ k, upOn (path r) k) →
        ∃ t k, exec (.retransmitTimeout e.die e.part e.ep num) s = .next t ∧ upOn (path r) k ∧ left t r p k ∧
          (e.onlyReq r → ∃ e1 r1, t.ep? e.die e.part e.ep = some e1 ∧ e1.reqs = [r1] ∧ r1.rtx = r.rtx + 1)) ∧
      (∀ a, (17 ≤ p.sends ∨ ¬ ∃ k, upOn (path r) k) → e.onlyReq r → s.slotAt e r.idx a →
        ∃ t, exec (.retransmitTimeout e.die e.part e.ep num) s = .next t ∧ requestEnds t e r.idx a 3 r.rtx 0)) ∧
    ∀ x ∈ [(Instr.portLinkDown, false), (.portLinkUp, true)],
      ∃ t, exec x.1 s = .next t ∧ ∀ k, k < 3 → (t.die (s.sel / 3)).up.getLsbD k =
        if k = s.sel % 3 then x.2 else (s.die (s.sel / 3)).up.getLsbD k

/-- R370, R372, R374, R375, R377, R378 and R387, the receiving side. A packet is for the endpoint that its destination
names: by the IPv6 address of a die and partition, or on the scale-up path by the die, in the sender's partition. A
packet for no endpoint, or beyond its receive buffer or its own message (log 41), is answered with CODE 4 and places
nothing; a good one is placed and acknowledged, and the last of a message with CNT makes RC rise; a duplicate is
acknowledged only (log 41). A flit of a partition that has the endpoint is collected, and its packet is received once
all of its bytes are there; one of a reduction's result is held until the result is written. Any other is discarded,
logged with KIND 6 and answered with CODE 4 (log 41). Each rise of RC sends a thread, unless its core has left the
partition (R14, R64): then it is tried again. The switch adds contributions when the last one arrives; on a mismatch or
after 10 ms it tells every contributor CODE 5 with the mask of those that came before, the later ones as they come (log
43). A result is written into the receive buffer and its request completes with its CODE and mask. -/
def Obligations.NetworkReceiving : Prop :=
  ∀ (s : State) (p : Packet) (e : Endpoint),
    let acks (t : State) (covers : List Nat) (codes : List (Nat × Nat)) : Prop := t.out = s.out ++
      [.ack p.srcPkg { die := p.srcDie, part := p.srcPart, ep := p.srcEp, inc := p.inc, covers := covers, codes := codes }]
    let key := (((p.inc * 256 + p.srcPkg % 256) * 8 + p.srcDie) * 1024 + p.srcPart) * 65536 + p.srcEp
    let at_ (t : State) : Option Endpoint := t.targetEp p
    (∀ a, p.dst = .ether a →
      ((∀ x ∈ s.addrs, x.2 ≠ a) → at_ s = none) ∧
        ∀ die part, part < 1024 → s.addrs.find? (fun x => x.2 == a) = some (die * 1024 + part, a) →
          at_ s = s.ep? die part p.dstEp) ∧
    (∀ pkg die, p.dst = .scale pkg die → at_ s = if pkg = s.pkg then s.ep? die p.srcPart p.dstEp else none) ∧
    (at_ s = none → ∃ t, exec (.packetReceive p) s = .next t ∧ acks t [] [(p.num, 4)] ∧ sameBytes s t ∧ t.eps = s.eps) ∧
    (at_ s = some e → (e.blen < p.roff + p.len ∨ p.len < p.off + p.bytes.length) →
      ∃ t, exec (.packetReceive p) s = .next t ∧ acks t [] [(p.num, 4)] ∧ sameBytes s t ∧
        at_ t = some { e with rcErr := e.rcErr + 1 }) ∧
    (at_ s = some e → p.roff + p.len ≤ e.blen → p.off + p.bytes.length ≤ p.len →
      (e.seen.contains (key, p.num) = true →
        ∃ t l c, exec (.packetReceive p) s = .next t ∧ acks t l c ∧ p.num ∈ l ∧ sameBytes s t ∧ t.eps = s.eps) ∧
      (∀ pa, e.seen.contains (key, p.num) = false → s.bufferAt e (p.roff + p.off) p.bytes.length pa → p.off = 0 →
        p.bytes.length = p.len → (∀ m ∈ e.rx, ¬(m.key = key ∧ m.req = p.req)) →
        ∃ t e1 l c, exec (.packetReceive p) s = .next t ∧ placedAt s t pa p.bytes ∧ acks t l c ∧ p.num ∈ l ∧
          at_ t = some e1 ∧ e1.rc = (if p.cnt then (e.rc + 1) % 2 ^ 32 else e.rc) ∧ e1.rcErr = e.rcErr ∧
          e1.spawns = (if p.cnt ∧ e.entry ≠ 0 then e.spawns ++ [((e.rc + 1) % 2 ^ 32, p.roff, p.len)] else e.spawns))) ∧
    (∀ f : Flit, f.pkt = p →
      (at_ s = some e → e.part = f.part →
        (∀ fs : List Flit, e.flits = fs → (fs = [] ∨ ∃ g, fs = [g] ∧ g.pkt = p ∧ g.red = f.red ∧ g.at_ ≠ f.at_) →
          (f.red = none → p.bytes.length ≤ f.len + (fs.map (·.len)).sum →
            exec (.flitReceive f) s = exec (.packetReceive p) (s.putEp { e with flits := [] })) ∧
          ((f.red ≠ none ∨ f.len + (fs.map (·.len)).sum < p.bytes.length) →
            ∃ t, exec (.flitReceive f) s = .next t ∧ at_ t = some { e with flits := f :: fs } ∧ t.out = s.out ∧
              sameBytes s t))) ∧
      ((at_ s = none ∨ at_ s = some e ∧ e.part ≠ f.part) →
        ∃ t, exec (.flitReceive f) s = .next t ∧ sameBytes s t ∧ t.eps = s.eps ∧
          (if f.red = none then acks t [] [(p.num, 4)] else t.out = s.out) ∧
          ∀ pkg die, p.dst = .scale pkg die → ∃ x ∈ (t.die die).elog, x.kind = 6 ∧ x.part = f.part)) ∧
    (∀ rc roff len l core, s.ep? e.die e.part e.ep = some e → e.spawns = (rc, roff, len) :: l →
      coreOfPlace s.pkg (BitVec.ofNat 64 e.tplace.toNat) = some core →
      let m : SpawnMsg :=
        { core := core, from_ := .net e.die e.part e.ep, entry := e.entry, a0 := BitVec.ofNat 64 e.ep, a1 := BitVec.ofNat 64 rc
          a2 := BitVec.ofNat 64 roff, a3 := BitVec.ofNat 64 len, fx := false, tag := false, part := e.part }
      let later : Msg := .spawnRetry (.net e.die e.part e.ep) core (s.dieCyc + 4096)
      (e.spawnOut = false → s.partOut e.part = false →
        ∃ t, exec (.neSpawnSend e.die e.part e.ep) s = .next t ∧
          t.msgs = s.msgs ++ [if s.partOf core = some e.part then .spawn m else later] ∧
          t.ep? e.die e.part e.ep = some { e with spawnOut := true }) ∧
      (∀ k due, .spawnRetry (.net e.die e.part e.ep) k due ∈ s.msgs →
        ∃ t, exec (.neSpawnRetry e.die e.part e.ep) s = .next t ∧
          (s.partOf core = some e.part → .spawn m ∈ t.msgs ∧ ∀ k due, .spawnRetry (.net e.die e.part e.ep) k due ∉ t.msgs) ∧
          (s.partOf core ≠ some e.part → later ∈ t.msgs ∧
            ∀ k due, .spawnRetry (.net e.die e.part e.ep) k due ∈ t.msgs → k = core ∧ due = s.dieCyc + 4096))) ∧
    (∀ c : Contrib,
      let told (l : List Contrib) (mask : Nat) : List Msg := l.filterMap (fun x => x.mine.map (fun dest => .redRes dest 5 mask []))
      -- the reduction `r` when `c` has come to it and it has failed
      let failing (r : Reduction) (mask : Nat) : List Reduction :=
        if r.nr ≤ r.got.length + 1 then [] else [{ r with got := r.got ++ [c], failed := some mask }]
      let mine (r : Reduction) : Prop := r.part = c.part ∧ r.rid = c.rid ∧ ∀ x ∈ r.got, x.rank ≠ c.rank
      (∀ r, s.reds = [r] → r.failed = none → r.first + 10000000 < s.now →
        (mine r → ∃ t, exec (.reduceContribution c) s = .next t ∧ t.msgs = s.msgs ++ told r.got r.mask ++ told [c] r.mask ∧
          t.reds = failing r r.mask) ∧
        (¬ mine r → 1 < c.nr → ∃ t x, exec (.reduceContribution c) s = .next t ∧ t.msgs = s.msgs ++ told r.got r.mask ∧
          t.reds = [{ r with failed := some r.mask }, x] ∧ x.got = [c] ∧ x.first = s.now)) ∧
      (∀ r mask, s.reds = [r] → r.failed = some mask → mine r →
        ∃ t, exec (.reduceContribution c) s = .next t ∧ t.msgs = s.msgs ++ told [c] mask ∧ t.reds = failing r mask) ∧
      ((∀ r ∈ s.reds, r.failed.isSome = true ∨ s.now ≤ r.first + 10000000) →
      (1 < c.nr → (∀ r ∈ s.reds, ¬ mine r) →
        ∃ t r, exec (.reduceContribution c) s = .next t ∧ t.msgs = s.msgs ∧ t.reds = s.reds ++ [r] ∧ r.got = [c] ∧
          r.nr = c.nr ∧ r.len = c.len ∧ r.roff = c.roff ∧ r.first = s.now ∧ r.failed = none) ∧
      ∀ r, s.reds = [r] → r.failed = none → mine r →
        (r.len = c.len → r.roff = c.roff → r.nr ≤ r.got.length + 1 →
          ∃ t mask b, exec (.reduceContribution c) s = .next t ∧ t.reds = [] ∧
            t.msgs = s.msgs ++ (r.got ++ [c]).filterMap (fun x => x.mine.map (fun dest => .redRes dest 0 mask b)) ∧
            (∀ x ∈ r.got ++ [c], mask.testBit x.rank = true) ∧
            ∀ i, i < r.len / 4 → BitVec.ofNat 32 (ofBytes ((b.drop (4 * i)).take 4)) =
              treeReduce addF32 0x80000000 ((List.range r.nr).map fun k =>
                match (r.got ++ [c]).find? (fun x => x.rank == k) with
                | some x => contribElem x i
                | none => 0x80000000)) ∧
        ((r.len ≠ c.len ∨ r.roff ≠ c.roff) →
          ∃ t, exec (.reduceContribution c) s = .next t ∧ t.reds = failing r r.mask ∧
            t.msgs = s.msgs ++ told (r.got ++ [c]) r.mask))) ∧
    (∀ r, s.reds[s.sel]? = some r → r.failed = none → ∃ t, exec .reduceTimeout s = .next t ∧
      t.reds = s.reds.set s.sel { r with failed := some r.mask } ∧
      t.msgs = s.msgs ++ r.got.filterMap (fun x => x.mine.map (fun dest => .redRes dest 5 r.mask []))) ∧
    ∀ r code mask a b, s.ep? e.die e.part e.ep = some e → e.onlyReq r → s.slotAt e r.idx a → code < 256 →
      s.msgs[s.sel]? = some (.redRes (e.die, e.part, e.ep, r.idx) code mask b) →
      (code ≠ 0 → ∃ t, exec .reduceResult s = .next t ∧ requestEnds t e r.idx a code r.rtx mask) ∧
      (∀ pa, code = 0 → r.roff + r.len ≤ e.blen → s.bufferAt e r.roff b.length pa → pa + b.length ≤ a ∨ a + 16 ≤ pa →
        ∃ t, exec .reduceResult s = .next t ∧ requestEnds t e r.idx a 0 r.rtx mask ∧
          (∀ x, pa ≤ x → x < pa + b.length → t.byteAt x = b.getD (x - pa) 0) ∧
          ∃ e1, t.ep? e.die e.part e.ep = some e1 ∧ e1.rc = (if r.cnt then (e.rc + 1) % 2 ^ 32 else e.rc))

-- The host, the service core, power and events

/-- R379 to R381, the host link. With no earlier access of its function under way, an access of 4 or 8 aligned bytes
through the 256 MiB of BAR 2 or the 1 MiB of the wake page stores at, or reads from, the location that the walkers of
die 0 give the address behind the aperture, once its walk has ended; one of another size, beyond its aperture or its
window, or without a location is discarded, with all ones for a read and KIND 7 in the log of die 0. The notify page
holds the notify registers. A report holds, signed, the nonce, the serial number, PKG, two digests and what R381 says of
a partition. R392 to R395, R396, the start. When every step's last run was good by its normal method, every step
succeeds and every port trains, the machine has the reset columns with what the steps have set, exactly the arrays that
the full test names are retired (the model's reading, log 49), and each record counts the start; the values that the
spec gives no reset for are the model's (logs 1, 4, 9, 50). A first step that fails stops the start, and its third
failure in a row is reported (log 28); a cut in the middle of the first step leaves its record with RES = 0. An update
writes the image that is not in use. A read error is found by the next read at its line: a transient one is logged, a
lasting one retires the 64 KiB unit of a location outside the scratchpads, a clean line of the LLC is fetched again and
a dirty one lost (the model's reading of R396, log 16). R331, R54, R55 and R276. A cluster handed over has contexts as
after a reset and scratchpads that read 0, and no reply or spawn message for them is left; other contexts and bytes
stand, and its ring setting and slots' generation counts (log 27). The loader refuses an object that R54 does not allow,
whose pages it cannot map, or whose places collide (log 53), and places one whose one section goes to the Cupola of the
partition's one die. Run-ahead fetches up to eight words in sequence and changes nothing else of the context. -/
def Obligations.DeviceEvents : Prop :=
  (∀ (s : State) (h : HostAcc), (∀ m ∈ s.msgs, ∀ k x, m = .host k x → x.part ≠ h.part) →
     let aligned := (h.size = 4 ∨ h.size = 8) ∧ h.addr.toNat % h.size = 0
     let answers (t : State) (v : Nat) : Prop :=
       t.out = if h.write then s.out else s.out ++ [.hostRead h (BitVec.ofNat 64 v)]
     let opened (i : Instr) (k : Nat) (va : Word) (inside : Prop) : Prop :=
       (aligned → inside →
         (∀ a, s.hostLoc h va = some (span a h.size) → a < 2 ^ 43 → a % h.size = 0 → s.resvq = [] → s.flaws = [] →
           ∃ t, exec i s = .next t ∧ t.ctxs = s.ctxs ∧
             (if h.write then storesNum s t a h.size h.val.toNat ∧ t.out = s.out
              else sameReads s t ∧ t.out = s.out ++ [.hostRead h (BitVec.ofNat 64 (s.rd (span a h.size)))])) ∧
         (s.hostFound h va = .miss → ∃ t, exec i s = .next t ∧ sameBytes s t ∧ t.out = s.out ∧ .host k h ∈ t.msgs) ∧
         (s.hostLoc h va = none → s.hostFound h va ≠ .miss → ∃ t, exec i s = .next t ∧ sameBytes s t ∧
           answers t (2 ^ 64 - 1) ∧
           (t.die 0).elog ≠ [] ∧ ∀ e, (t.die 0).elog.getLast? = some e → e.kind = 7 ∧ e.part = h.part)) ∧
       (¬(aligned ∧ inside) → s.resvq = [] → ∃ t, exec i s = .next t ∧ sameBytes s t ∧ answers t (2 ^ 64 - 1) ∧
         (t.die 0).elog ≠ [] ∧ ∀ e, (t.die 0).elog.getLast? = some e → e.kind = 7 ∧ e.part = h.part)
     let va0 := (s.bases h.part).1 + h.addr
     let va2 := (s.bases h.part).2 + h.addr
     opened (.hostBarAccess h) 0 va0 (h.addr.toNat < 2 ^ 28 ∧ inGlobal va0 = true) ∧
     opened (.wakePageWrite h) 2 va2 (h.addr.toNat < 2 ^ 20 ∧ inCupola va2 = true) ∧
     (∀ n g, n < 16 → h.size = 4 → h.addr.toNat % 4096 = 4 * n → s.graph? h.part n = some g →
       ∃ t, exec (.notifyPageWrite h) s = .next t ∧
         (h.write = false → t = { s with out := s.out ++ [.hostRead h (BitVec.ofNat 64 g.notify)] }) ∧
         (h.write = true → t = s.notifyWrite h.part n (h.val.toNat % 2 ^ 32))) ∧
     (∀ nonce vf, ∃ t sig d0 d1, exec (.attestationRequest nonce vf) s = .next t ∧
       t = { s with
         fresh := s.fresh + 1
         out := s.out ++ [.report nonce Config.serial s.pkg [d0, d1] (vf.map fun p =>
           (p, (List.range 1600).filter (fun k => (s.cluster k).part == some p), BitVec.ofNat 64 (s.part p).tres.toNat,
             (s.part p).sopol, (s.part p).dq)) sig] })) ∧
  (∀ s : State,
     (∀ i : StartInput,
       ((∀ k : Fin 7, s.steps[k].toNat % 16 = 1) → (∀ n, n < 7 → i.good.getD n false = true) → i.cut = none →
         (∀ k, k < 24 → i.trained.getD k false = true) →
         imageRuns s.service false = true → imageRuns s.lantern false = true →
         ∃ t, exec (.deviceReset i) s = .next t ∧ t.stopped = false ∧ (∀ a, t.byteAt a = 0) ∧ t.retired = i.full ∧
           (∀ cx, t.ctx cx = ctxDefault cx) ∧ (∀ k, t.core k = Core.reset) ∧ (∀ q, t.quad q = Quad.reset) ∧
           t.now = i.belfry ∧ t.pkg = i.pkg % 256 ∧ t.cap = 2160 ∧ t.inputs = s.inputs ∧ t.out = s.out ∧
           (∀ d, d < 8 → t.die d = { Die.reset with mode := portBits i.modes d, up := portBits i.trained d }) ∧
           (∀ k : Fin 7, t.steps[k] = recWord s.startNumber 0 (k.val + 1) 0 1) ∧
           ∀ k : Fin 7, recStart s.steps[k] < s.startNumber) ∧
       (i.cut = some 1 → s.steps[(0 : Fin 7)].toNat % 16 = 1 →
         ∃ t, exec (.deviceReset i) s = .next t ∧ t.stopped = true ∧ t.out = s.out ∧
           t.steps = s.steps.set 0 (recWord s.startNumber 0 1 0 0)) ∧
       (i.good.getD 0 false = false → i.cut = none →
         (s.steps[(0 : Fin 7)].toNat % 16 = 1 →
           ∃ t, exec (.deviceReset i) s = .next t ∧ t.stopped = true ∧ t.out = s.out ∧
             t.steps = s.steps.set 0 (recWord s.startNumber 0 1 0 2)) ∧
         (recRes s.steps[(0 : Fin 7)] = 2 → 1 ≤ recFails s.steps[(0 : Fin 7)] →
           ∃ t, exec (.deviceReset i) s = .next t ∧ t.stopped = true ∧ t.out = s.out ++ [.startStopped t.steps.toList]))) ∧
     (∀ lantern ver ok, ∃ t, exec (.firmwareUpdate lantern ver ok) s = .next t ∧
       let f := if lantern then s.lantern else s.service
       let g := if lantern then t.lantern else t.service
       g.first = { ver := ver, good := ok } ∧ g.second = (if f.onSecond then f.second else f.first) ∧ g.min = f.min ∧
         (if lantern then t.service = s.service else t.lantern = s.lantern) ∧
         t = { s with service := t.service, lantern := t.lantern }) ∧
     (∀ line f a tid part, s.flaws = [] → s.retired = [] → s.lost = [] → a / 64 = line → a < 2 ^ 44 →
       ∃ t, exec (.readRetry line f) s = .next t ∧ sameBytes s t ∧ t.ctxs = s.ctxs ∧
         let g := if f = .transient ∨ isGlobalLoc (line * 64) = true then f else .lasting
         let u := (t.readCheck [a] tid part).1
         (t.readCheck [a] tid part).2 = decide (g = .lasting ∨ g = .llcDirty) ∧ u.flaws = [] ∧
           u.retired = (if g = .lasting then [line * 64 / 65536] else []) ∧
           u.lost = (if g = .llcDirty then [line] else []) ∧
           ∃ e, (u.die (locDie (line * 64))).elog.getLast? = some e ∧ e.kind = (if g = .transient then 1 else 2) ∧
             e.part = part)) ∧
  (∀ s : State,
     (∀ k part, k < 1600 → (s.cluster k).part ≠ part → part.getD 0 < 1024 → (∀ c, (s.core c).l1 = []) →
       ∃ t, exec (.clusterHandover k part) s = .next t ∧ (t.cluster k).part = part ∧
         (∀ r, .reply r ∈ t.msgs → r.cx / 1024 ≠ k) ∧ (∀ m, .spawn m ∈ t.msgs → m.core / 64 ≠ k) ∧
         (t.cluster k).mring = (s.cluster k).mring ∧ (t.cluster k).tlb = [] ∧
         (∀ cx, t.ctx cx = if cx / 1024 = k then ctxDefault cx else s.ctx cx) ∧
         (∀ c, c / 64 = k → t.core c = { Core.reset with gens := (s.core c).gens }) ∧
         ∀ a, t.byteAt a =
           if 2 ^ 44 + k * 2 ^ 22 ≤ a ∧ a < 2 ^ 44 + (k + 1) * 2 ^ 22 then 0 else s.byteAt a) ∧
     (∀ part o,
       (objectOk o = false ∨ s.mapAll part (s.loadRanges part o) = none ∨
         ∃ s1, s.mapAll part (s.loadRanges part o) = some s1 ∧ s1.placesOk part o = false) →
       exec (.loadObject part o) s = .next { s with out := s.out ++ [.refusedLoad part] }) ∧
     (∀ part o x die e, objectOk o = true → o.secs = [x] → x.kind = .cupola → o.addrs = [] → s.diesOf part = [die] →
       let va : Word := BitVec.ofNat 64 (0x20000000000 + die * 2 ^ 26 + x.va.toNat % 2 ^ 26)
       let pa := locKey (tlbLoc va e)
       0 < x.size → va.toNat % 4096 + x.size ≤ 4096 →
       ((∀ f, s.walk part va ≠ .leaf f) → (∀ p ∈ s.allotted part 1, allotServes va p = false) →
         exec (.loadObject part o) s = .next { s with out := s.out ++ [.refusedLoad part] }) ∧
       (s.walk part va = .leaf e → pa + x.size ≤ 2 ^ 44 →
       ∃ t, exec (.loadObject part o) s = .next t ∧ placedAt s t pa x.bytes ∧
         t.out = s.out ++ [.loaded part (s.entryAddrs part o)])) ∧
     ∀ cx n e, (s.ctx cx).state = .ready → (s.ctx cx).run = [] → s.flaws = [] → s.retired = [] → s.lost = [] →
       (s.quad (quadOf (coreOf cx))).icache = [] → n ≤ 8 → e.base % 4 = 0 → 2 ≤ e.lg → (s.ctx cx).pc.toNat % 4 = 0 →
       e.x = true →
       let at_ (k : Nat) : Word := (s.ctx cx).pc + BitVec.ofNat 64 (4 * k)
       (∀ k, k < n → inGlobal (at_ k) = true ∧
         tlbFind ((s.partOf (coreOf cx)).getD 0) (at_ k) (s.core (coreOf cx)).tlb = some e) →
       ∃ t, exec (.runAheadFetch cx n) s = .next t ∧
         t.ctx cx = { s.ctx cx with
           run := (List.range n).map (fun k =>
             (at_ k, BitVec.ofNat 32 (memRead s.mem (e.base + (at_ k).toNat % 2 ^ e.lg) 4))) } ∧
         (∀ j, j ≠ cx → t.ctx j = s.ctx j) ∧ sameBytes s t)

/-- R277 with R148, R151, R166, R227, R248, R272, R273, R275, R326, R342, R350, R354 and R395: the command at the head
of the queue of die `State.sel`, with no earlier one begun, leaves the queue, has its effect and is done with status 0;
operands out of form give status 1 and operands outside PART status 2, with nothing else changed. The model's choices in
it: dword 0 with reserved bits set, and an index without an entry, give status 1 (log 24), as does LAUNCH of a record
that is not 128-byte aligned (log 77); RESUME0 keeps RFA, TRIP and RIDX (log 58). -/
def Obligations.ServiceCommands : Prop :=
  ∀ (s : State) (c : Cmd) (q : List Cmd), (s.die s.sel).cmdq = c :: q → (s.die s.sel).cmds = [] →
    let ends (t : State) (st : Nat) : Prop :=
      (t.die s.sel).cmdq = q ∧ (t.die s.sel).cmds = [{ cmd := c, stage := 0, status := some st }]
    let refuses (i : Instr) (st : Nat) : Prop := ∃ t, exec i s = .next t ∧ ends t st ∧ t = { s with dies := t.dies }
    let a := c.a.toNat
    let b := c.b.toNat
    let op := c.d0.toNat % 256
    let part := c.d0.toNat / 256
    (2 ^ 18 ≤ c.d0.toNat → refuses (cmdInstr c) 1) ∧
    (c.d0.toNat < 2 ^ 18 →
      -- pages
      (let core := a / 16
       let page := a % 16
       let d := s.page core page
       (op = 1 ∨ op = 2 ∧ b = 0 →
         let i := if op = 1 then Instr.pdesc else .unpin
         (2 ^ 21 ≤ a ∨ 11 < page → refuses i 1) ∧ (a < 2 ^ 21 → page ≤ 11 → s.partOf core ≠ some part → refuses i 2)) ∧
       (a < 2 ^ 21 → page ≤ 11 → s.partOf core = some part →
         (op = 1 → b < 2 ^ 41 → b / 256 % 16 = 0 →
           let d1 : PageDesc := { d with frame := b / 4096 * 4096, lay := b / 16 % 16, v := decide (b % 2 = 1) }
           (d.res = false ∧ d.busy = false ∨ d1 = d ∧ d.v = true →
             ∃ t, exec .pdesc s = .next t ∧ ends t 0 ∧ t.page core page = d1) ∧
           (d.res = true ∨ d.busy = true → d1.frame ≠ d.frame ∨ d1.lay ≠ d.lay ∨ d1.v = false → refuses .pdesc 1)) ∧
         (op = 2 → b = 0 → d.busy = false →
           (d.dirty = false → ∃ t, exec .unpin s = .next t ∧ ends t 0 ∧ t.page core page = { d with res := false }) ∧
           (d.res = true → d.dirty = true → ∃ t u w, exec .unpin s = .next t ∧ (t.die s.sel).cmdq = q ∧
             t.page core page = { d with busy := true, wb := true } ∧
             exec (.pageWritebackComplete core page) t = .next u ∧ exec .unpin u = .next w ∧
             (w.die s.sel).cmds = [{ cmd := c, stage := 1, status := some 0 }] ∧ (w.page core page).res = false)))) ∧
      -- registers and tables
      (op = 3 →
        (a % 2 ^ 16 = 0x012 → a < 2 ^ 32 → b < 4 → (s.cluster (a / 2 ^ 16)).part = some part →
          ((∀ x, x / 16 = a / 2 ^ 16 → (s.quad x).latch = none ∧ (s.quad x).out = none) →
            ∃ t, exec .setregMring s = .next t ∧ ends t 0 ∧ (t.cluster (a / 2 ^ 16)).mring = b) ∧
          (∀ x, x / 16 = a / 2 ^ 16 → (s.quad x).latch.isSome = true ∨ (s.quad x).out.isSome = true →
            refuses .setregMring 1)) ∧
        (a % 2 ^ 16 = 0x012 → a < 2 ^ 32 → b < 4 → (s.cluster (a / 2 ^ 16)).part ≠ some part → refuses .setregMring 2) ∧
        (a = 0x013 → ∃ t, exec .setregSopol s = .next t ∧ ends t 0 ∧ t.part part = { s.part part with sopol := c.b }) ∧
        (a = 0x014 → b < 2 ^ 14 →
          ∃ t, exec .setregGpol s = .next t ∧ ends t 0 ∧ t.part part = { s.part part with dq := b }) ∧
        (a % 2 ^ 16 ∉ [0x012, 0x013, 0x014] → refuses .unassignedCommand 1)) ∧
      (op = 4 → b = 0 → a % 4096 = 0 → a < 2 ^ 41 →
        ∃ t, exec .ptroot s = .next t ∧ ends t 0 ∧ t.part part = { s.part part with root := some a }) ∧
      (op = 7 → b = 0 → ∃ t, exec .tlbshoot s = .next t ∧ ends t 0 ∧
        let goes (e : TlbEnt) : Prop := e.part = part ∧ (a = 0 ∨ e.vpn = a / 2 ^ e.lg)
        (∀ k e, e ∈ (t.core k).tlb ↔ e ∈ (s.core k).tlb ∧ ¬ goes e) ∧
        ∀ k e, e ∈ (t.cluster k).tlb ↔ e ∈ (s.cluster k).tlb ∧ ¬ goes e) ∧
      -- the fault queue
      (op = 5 ∨ op = 6 → b = 0 → a < 512 →
        let i := if op = 5 then Instr.fqreplay else .fqdeny
        ((∀ e ∈ (s.die s.sel).fq, e.1 ≠ a) → refuses i 1) ∧
        ∀ e, (s.die s.sel).fq.find? (fun x => x.1 == a) = some (a, e) →
          (e.part ≠ part → refuses i 2) ∧
          ∀ cx tid w, e.part = part → e.who = [.ctx cx tid] → (s.ctx cx).tid = tid → (s.ctx cx).state = .waiting →
            (s.ctx cx).wait = some w →
            (op = 5 → ∃ t, exec .fqreplay s = .next t ∧ ends t 0 ∧ (∀ x ∈ (t.die s.sel).fq, x.1 ≠ a) ∧
              t.msgs = s.msgs ++ [.retry cx tid]) ∧
            (op = 6 → (s.ctx cx).catches → (s.ctx cx).deleg = [] → s.objs = [] →
              ∃ t, exec .fqdeny s = .next t ∧ ends t 0 ∧ (∀ x ∈ (t.die s.sel).fq, x.1 ≠ a) ∧
                t.ctx cx = (s.ctx cx).trapped 4 w.val (s.ctx cx).pc)) ∧
      -- context 0, launches and graphs
      (op = 0xB → a < 2 ^ 17 → b < 2 ^ 57 → b % 4 = 0 → s.partOf a = some part → (s.part part).pre = .no →
        ((s.ctx (a * 16)).state = .waiting → (s.ctx (a * 16)).why = 14 →
          ∃ t, exec .resume0 s = .next t ∧ ends t 0 ∧ t.ctx (a * 16) = { s.ctx (a * 16) with
            pc := c.b, stat := (s.ctx (a * 16)).stat &&& ~~~1#64, run := [], frame := none, resume := false
            state := .ready, why := 0, wait := none, reissue := false }) ∧
        ((s.ctx (a * 16)).state ≠ .waiting ∨ (s.ctx (a * 16)).why ≠ 14 → refuses .resume0 1)) ∧
      (op = 0x10 → b = 0 →
        (a % 128 ≠ 0 → refuses .launch 1) ∧
        (a % 128 = 0 → inGlobal c.a = false → refuses .launch 5) ∧
       let who : Requester := .command s.sel c.tag
       let fails (st : Nat) : Prop := ∃ t, exec .launch s = .next t ∧ ends t st ∧ t = { s.unitDone who with dies := t.dies }
       ∀ pa, a % 128 = 0 → s.planOne who (dieCore s.sel) part c.a 128 .engRead = .ok (span pa 128) →
          inGlobal c.a = true → s.flaws = [] → s.retired = [] → s.lost = [] →
          let r := s.rdBytes (span pa 128)
          let good : Prop := s.recordOk r = true ∧ dwordAt r 0 % 1024 = part
          (¬ good → fails 4) ∧ (good → 64 ≤ s.heldOrQueued s.sel part → fails 3) ∧
          (good → s.heldOrQueued s.sel part < 64 →
            ∃ t l, exec .launch s = .next t ∧ ends t 0 ∧ t.launches = s.launches ++ [l] ∧ l.part = part ∧ l.die = s.sel ∧
              l.entry = BitVec.ofNat 64 (dwordAt r 1) ∧ l.doneW = BitVec.ofNat 64 (dwordAt r 8))) ∧
      (op = 0x11 → a < 16 → b = 0 →
        (s.graph? part a = none → refuses .tgdrop 1) ∧
        ((s.graph? part a).isSome = true → ∃ t, exec .tgdrop s = .next t ∧ ends t 0 ∧ t.graph? part a = none ∧
          t.launches.length = s.launches.length)) ∧
      -- time, power and step records
      (op = 0x20 → a < 2 → b = 0 →
        ∃ t, exec .settres s = .next t ∧ ends t 0 ∧ t.part part = { s.part part with tres := decide (a = 1) }) ∧
      (op = 0x21 → a < 1600 → b < 2 ^ 25 →
        ((s.cluster a).part = some part → ∃ t, exec .setdrth s = .next t ∧ ends t 0 ∧
          ∀ x, t.quad x = if x / 16 = a then { s.quad x with drth := c.b } else s.quad x) ∧
        ((s.cluster a).part ≠ some part → refuses .setdrth 2)) ∧
      (op = 0x30 → b = 0 →
        (a = 0 ∨ 7 < a → refuses .recclr 1) ∧
        (1 ≤ a → a ≤ 7 → ∃ t, exec .recclr s = .next t ∧ ends t 0 ∧ ∀ k : Fin 7,
          t.steps[k] = if k.val + 1 = a then
            recWord (recStart s.steps[k]) 0 (s.steps[k].toNat / 16 % 16) 0 1 else s.steps[k])) ∧
      (op ∉ [1, 2, 3, 4, 5, 6, 7, 8, 9, 0xA, 0xB, 0x10, 0x11, 0x20, 0x21, 0x30] → refuses .unassignedCommand 1))

/-- R277 to R281, pre-emption. PREEMPT stops issue. Once everything of R278 is complete, it leaves no context, page or
reservation of the partition behind, and its group members suspended. RESTORE on the clusters that the partition held
reads every context from the save area and lets issue resume, after the timers' writes to its scratchpads and the
timers' records for its graphs that were held meanwhile. A context's frame holds what is read back, reserved fields as
0. The model's choices in it: a PREEMPT of a partition that is being restored waits (log 46), and the save area lies in
physical memory in the layout and order of log 25. R275, R277, R296, R330 and R331, TERM. It ends every context of the
partition with reason 3, drops its graphs, timers, endpoints, groups and engine commands and ends its launches with CODE
2 and TSTAT: a done word is written at once where nothing stands before the write, and else TERM waits for it (the
model's choice, log 48). Once no access is on its way, its fleeting tiles are dead, its regions unset, its objects gone,
and its contexts and scratchpads as after a reset. -/
def Obligations.PreemptAndTerm : Prop :=
  (∀ (s : State) (c : Cmd) (q : List Cmd),
     let part := c.d0.toNat / 256
     let done (t : State) (stage st : Nat) : Prop := (t.die s.sel).cmds = [{ cmd := c, stage := stage, status := some st }]
     let area := c.a.toNat
     c.d0.toNat < 2 ^ 18 → c.b = 0 → area < 2 ^ 41 →
     (c.d0.toNat % 256 = 8 →
       ((s.die s.sel).cmdq = c :: q → (s.die s.sel).cmds = [] →
         ((s.part part).pre = .no → ∃ t, exec .preempt s = .next t ∧ (t.part part).pre = .stopping ∧ t.ctxs = s.ctxs ∧
           (t.die s.sel).cmdq = q ∧ (t.die s.sel).cmds = [{ cmd := c, stage := 1, status := none }]) ∧
         ((s.part part).pre = .stopping ∨ (s.part part).pre = .out →
           ∃ t, exec .preempt s = .next t ∧ done t 0 1 ∧ t = { s with dies := t.dies }) ∧
         ((s.part part).pre = .restoring → ∃ t, exec .preempt s = .next t ∧ (t.die s.sel).cmdq = q ∧
           (t.die s.sel).cmds = [{ cmd := c, stage := 0, status := none }] ∧ t = { s with dies := t.dies })) ∧
       ((s.die s.sel).cmds = [{ cmd := c, stage := 1, status := none }] → (∀ m ∈ s.msgs, blockedReq part m = false) →
         s.settled part = true →
         ∃ t, exec .preempt s = .next t ∧ done t 1 0 ∧ (t.part part).pre = .out ∧
           (∀ cx, s.partOfCtx cx = some part → t.ctx cx = ctxDefault cx) ∧
           (∀ g ∈ t.groups, g.part = part → ∀ m ∈ g.mems, m.susp = true) ∧
           (∀ k p, s.partOf k = some part → p < 12 → (t.page k p).res = false ∧ (t.page k p).busy = false) ∧
           ∃ k, t.kept.find? (fun e => e.1 == part) = some (part, k) ∧ k.clusters = s.clustersOf part)) ∧
     (c.d0.toNat % 256 = 9 → (s.die s.sel).cmdq = c :: q → (s.die s.sel).cmds = [] →
       (s.kept = [] → ∃ t, exec .restore s = .next t ∧ done t 0 1 ∧ t = { s with dies := t.dies }) ∧
       ∀ k x, s.kept = [(part, k)] → (s.part part).pre = .out → k.clusters = [x] →
         ((s.cluster x).part ≠ some part → ∃ t, exec .restore s = .next t ∧ done t 0 2 ∧ t = { s with dies := t.dies }) ∧
         ((s.cluster x).part = some part →
           let held : Prop :=
             (∃ d l v, .timerWake d part l v ∈ s.msgs ∧ 2 ^ 44 ≤ l ∧ s.faulted (.timer d l) = false) ∨
               ∃ d v tid, .task d part v tid none none ∈ s.msgs
           ∃ t, exec .restore s = .next t ∧ t.kept = [] ∧
             (¬ held → done t 0 0 ∧ (t.part part).pre = .no ∧
               ∀ g ∈ t.groups, g.part = part → ∀ m ∈ g.mems, m.susp = false) ∧
             (held → (t.part part).pre = .restoring ∧
               (t.die s.sel).cmds = [{ cmd := c, stage := 1, status := none }]) ∧
             ∀ n i, n < 64 → i < 16 →
               let base := area + n * coreAreaSize
               let cx := (x * 64 + n) * 16 + i
               t.ctx cx = s.loadCtx k cx (base + coreFrameSize + 256 * i) (base + 0x2000 + 0x440 * i))) ∧
     (c.d0.toNat % 256 = 9 → (s.die s.sel).cmds = [{ cmd := c, stage := 1, status := none }] →
       (∀ d l v, .timerWake d part l v ∉ s.msgs) → (∀ d v tid, .task d part v tid none none ∉ s.msgs) →
       ∃ t, exec .restore s = .next t ∧ done t 1 0 ∧ (t.part part).pre = .no ∧ t.ctxs = s.ctxs ∧
         ∀ g ∈ t.groups, g.part = part → ∀ m ∈ g.mems, m.susp = false) ∧
     ∀ k cx fv, s.objs = [] → area + 256 ≤ 2 ^ 41 → (s.ctx cx).state = .ready →
       let d := s.ctx cx
       let e := (s.putFields area (s.ctxFields cx)).loadCtx k cx area fv
       e.state = .ready ∧ e.g = d.g ∧ e.h = d.h ∧ e.p = d.p ||| 1 ∧ e.pc = addrSpec d.pc ∧
         e.stat = d.stat &&& ~~~0x3FF06FE#64 ∧ e.tvec = addrSpec d.tvec ∧ e.tepc = addrSpec d.tepc ∧
         e.tcause = d.tcause &&& 0x301FF#64 ∧ e.tval = d.tval ∧ e.rcnt = d.rcnt ∧ e.tid = d.tid ∧
         e.tag = d.tag ∧ e.fnp = d.fnp ∧ e.lgr = d.lgr ∧ e.reissue = d.reissue ∧
         ∀ n : Fin 3, e.m[n.val + 1] = d.m[n.val + 1]) ∧
  (∀ (s : State) (c : Cmd) (q : List Cmd),
     let part := c.d0.toNat / 256
     let tstat := c.a.toNat
     c.d0.toNat < 2 ^ 18 → c.d0.toNat % 256 = 0xA → c.b = 0 → tstat < 256 → s.walked = [] → s.lost = [] →
     ((s.die s.sel).cmdq = c :: q → (s.die s.sel).cmds = [] → (s.part part).pre ≠ .stopping →
       (s.part part).pre ≠ .restoring →
       (∃ t, exec .term s = .next t ∧ (t.die s.sel).cmdq = q ∧
         (t.die s.sel).cmds = [{ cmd := c, stage := 1, status := none }] ∧
         (∀ cx ∈ s.ctxsOf part, (t.ctx cx).state = .free ∨ (t.ctx cx).state = .exit) ∧
         (∀ g ∈ t.graphs, g.part ≠ part) ∧ (∀ g ∈ t.timers, g.part ≠ part) ∧ (∀ g ∈ t.eps, g.part ≠ part) ∧
         (∀ g ∈ t.groups, g.part ≠ part) ∧ (∀ g ∈ t.cmds, g.part ≠ part) ∧
         ∀ g ∈ t.launches, g.part = part → g.st = .ending ∧ g.code = 2 ∧ g.tstat = tstat) ∧
       ∀ l a, s.launches = [l] → l.part = part → s.ctxsOf part = [] → (∀ k, (s.core k).l1 = []) →
         s.resvq = [] → s.retired = [] → s.lost = [] → s.objs = [] →
         s.planOne (.launch l.id) (dieCore l.die) part l.doneW 8 .engWrite = .ok (span a 8) → a % 8 = 0 → a < 2 ^ 42 →
         ∃ t, exec .term s = .next t ∧ t.launches = [] ∧ t.rd (span a 8) = (2 + 2 ^ 8 + tstat % 16 * 2 ^ 12 +
           min l.faults 65535 * 2 ^ 16 + l.ctxsN % 2 ^ 32 * 2 ^ 32) % 2 ^ 64) ∧
     ((s.die s.sel).cmds = [{ cmd := c, stage := 1, status := none }] → s.termNew part = false →
       s.termWaits part = false →
       ∃ t, exec .term s = .next t ∧ (t.die s.sel).cmds = [{ cmd := c, stage := 1, status := some 0 }] ∧
         (t.part part).pre = .no ∧ (∀ cx, s.partOfCtx cx = some part → t.ctx cx = ctxDefault cx) ∧
         (∀ k off, s.partOf k = some part → off < 2 ^ 16 → t.byteAt (scratchLoc k off) = 0) ∧
         (∀ x, (s.tile x).tpart = part → (t.tile x).dead = true) ∧ (∀ x, (t.region x).part ≠ some part) ∧
         (∀ e ∈ t.objs, e.2.part ≠ part) ∧ ∀ l ∈ t.launches, l.part ≠ part))

/-- R352 and R355, a quad's operating point and droop response. A move begins toward the least of the greatest request
and the ceiling, and its end puts the quad there; a move to OP4 starts a cycle. A trip of a quad with EN set makes its
next STR cycles stretched ones, after which positions 8 to 15 are withdrawn for the WDC cycles of this response and then
no more; a cycle begins with each period of the quad's clock, but not with the second period of a stretched cycle. R356
to R358, Lantern and the limits: the limiter withdraws positions 8 to 15 everywhere; thermal trip puts a die's quads at
OP0 with 15 positions withdrawn and logs KIND 4, and its end lets go of the positions, while the ceilings stay at OP0
until Lantern's next signal restores them (the model's choice, log 67); the watchdog, 2,000,000 ticks after Lantern's
last signal, sets every ceiling to OP0 and logs KIND 5, at die 0 (the model's choice, log 36); the first signal after a
restart sets every ceiling to OP7 and withdraws nothing; Lantern's action sets one quad; a newer cap message sets the
cap within 1,000 to 3,600 W and a lease of 500,000,000 ticks; the lease's end and a restart go back to 2,160 W. -/
def Obligations.PowerEvents : Prop :=
  ∀ s : State, s.sel < 25600 →
    let q := s.quad s.sel
    let onlyQuad (t : State) (d : Quad) : Prop :=
      t = { s with quads := t.quads } ∧ ∀ x, t.quad x = if x = s.sel then d else s.quad x
    let onlyPower (t : State) : Prop := t = { s with
      quads := t.quads, quadD := t.quadD, dies := t.dies, limiter := t.limiter, watchdog := t.watchdog
      signal := t.signal, lanternUp := t.lanternUp, cap := t.cap, capSeq := t.capSeq, lease := t.lease }
    let at0 (x : Nat) : Bool := s.watchdog || (s.die (x / 3200)).hot
    let req (x : Nat) : Nat := max (max (s.core (4 * x)).req (s.core (4 * x + 1)).req)
      (max (s.core (4 * x + 2)).req (s.core (4 * x + 3)).req)
    -- moves
    (let goal := min (req s.sel) (if at0 s.sel then 0 else q.ceil)
     q.move = none → goal ≠ q.op →
      ∃ t e, exec .opMoveStart s = .next t ∧ onlyQuad t { q with move := some (goal, e) }) ∧
    (∀ op e, q.move = some (op, e) → ∃ t, exec .opMoveEnd s = .next t ∧
      onlyQuad t { q with op := op, move := none, acc := if op = 4 then 0 else q.acc }) ∧
    -- droop
    (let d := q.drth.toNat
     d.testBit 24 = true → ∃ t, exec .droopTrip s = .next t ∧
      onlyQuad t { q with
        stretch := d / 2 ^ 8 % 16, wdNext := d / 2 ^ 12 % 4096, resp := true, respNew := !q.resp || q.respNew }) ∧
    (q.drth.toNat.testBit 24 = false → ∃ t, exec .droopTrip s = .next t ∧ onlyQuad t q) ∧
    ((s.period s.sel).2 = !q.half ∧ onlyQuad (s.period s.sel).1 (if q.half then { q with half := false } else
      let d : Quad := { q with cyc := q.cyc + 1, respNew := false }
      if 0 < q.stretch then { d with stretch := q.stretch - 1, half := true }
      else if q.resp then { d with wdLeft := q.wdNext, wdNext := 0, resp := false }
      else { d with wdLeft := q.wdLeft - 1 })) ∧
    (∃ t, exec .droopStretchEnd s = .next t ∧
      onlyQuad t { q with stretch := 0, wdLeft := q.wdNext, wdNext := 0, resp := false } ∧
      (0 < q.wdNext → ∀ k i, k / 4 = s.sel → 8 ≤ i → t.posWithdrawn k i = true)) ∧
    (∃ t, exec .droopWithdrawalEnd s = .next t ∧ onlyQuad t { q with wdLeft := 0 } ∧
      (q.wd = 0 → s.limiter = false → (s.die (s.sel / 3200)).thermal = false →
        ∀ k i, k / 4 = s.sel → i < 16 → t.posWithdrawn k i = false)) ∧
    -- limits
    (∃ t, exec .currentLimitTrip s = .next t ∧ onlyPower t ∧ t.limiter = true ∧
      ∀ k i, 8 ≤ i → t.posWithdrawn k i = true) ∧
    (∃ t, exec .currentLimitRelease s = .next t ∧ t = { s with limiter := false }) ∧
    (s.sel < 8 →
      (∃ t, exec .thermalTrip s = .next t ∧ onlyPower t ∧ (t.die s.sel).thermal = true ∧
        (∀ x, x / 3200 = s.sel → t.quad x = { s.quad x with op := 0, move := none } ∧ t.ceiling x = 0) ∧
        (∀ x, x / 3200 ≠ s.sel → x < 25600 → t.quad x = s.quad x) ∧
        (∀ k i, k / 12800 = s.sel → 1 ≤ i → t.posWithdrawn k i = true) ∧
        (t.die s.sel).elog ≠ [] ∧ ∀ e, (t.die s.sel).elog.getLast? = some e → e.kind = 4) ∧
      ∃ t, exec .thermalTripEnd s = .next t ∧ onlyPower t ∧ (t.die s.sel).thermal = false ∧
        (∀ x, t.quad x = s.quad x ∧ t.ceiling x = s.ceiling x) ∧
        (s.limiter = false → ∀ k i, k / 12800 = s.sel → i < 16 → (s.quad (k / 4)).wd = 0 → (s.quad (k / 4)).wdLeft = 0 →
          t.posWithdrawn k i = false) ∧
        (s.lanternUp = true → ∃ u, exec .lanternSignal t = .next u ∧
          ∀ x, x / 3200 = s.sel → u.ceiling x = (s.quad x).ceil)) ∧
    (s.watchdog = false → s.signal + 2000000 ≤ s.now →
      ∃ t, exec .watchdogExpiry s = .next t ∧ onlyPower t ∧ (∀ x, t.ceiling x = 0) ∧ (t.die 0).elog ≠ [] ∧
        ∀ e, (t.die 0).elog.getLast? = some e → e.kind = 5) ∧
    (s.watchdog = true ∨ s.now < s.signal + 2000000 → exec .watchdogExpiry s = .next s) ∧
    -- Lantern
    (s.lanternUp = true → ∃ t, exec .lanternSignal s = .next t ∧
      t = { s with watchdog := false, signal := s.now, dies := t.dies } ∧
      ∀ x, t.die x = { s.die x with hot := (s.die x).hot && (s.die x).thermal }) ∧
    (s.lanternUp = false → ∃ t, exec .lanternSignal s = .next t ∧ onlyPower t ∧ t.watchdog = false ∧
      t.signal = s.now ∧ t.lanternUp = true ∧ ∀ x, t.quad x = { s.quad x with ceil := 7, wd := 0 }) ∧
    (∀ ceil wd, ceil < 8 → wd < 16 → ∃ t, exec (.lanternPolicyAction s.sel ceil wd) s = .next t ∧
      onlyQuad t { q with ceil := ceil, wd := wd }) ∧
    (∀ (seq : BitVec 32) watts, let d := (seq.toNat + 2 ^ 32 - s.capSeq.toNat) % 2 ^ 32
      (1 ≤ d ∧ d < 2 ^ 31 → exec (.capMessage seq watts) s = .next { s with
        cap := if watts < 1000 then 1000 else if 3600 < watts then 3600 else watts
        capSeq := seq, lease := some (s.now + 500000000) }) ∧
      (d = 0 ∨ 2 ^ 31 ≤ d → exec (.capMessage seq watts) s = .next s)) ∧
    exec .leaseExpiry s = .next { s with cap := 2160, lease := none } ∧
    exec .lanternRestart s = .next { s with cap := 2160, lease := none, lanternUp := false }

/-- R149, R151, R184, R187 to R189 and R146, events of pages and L1s: a refill copies the frame into the page and a
write-back the page into its frame, byte by byte, unless the frame's 64 KiB unit is retired (R396, R398; that a
write-back clears DIRTY is the model's choice, log 74); an eviction and a drain write a line's dirty bytes back; the
last acknowledgement of an acquire's drains lets its context go on; a sweep empties the L1s of a partition, after which
its cores' releases name no line that is written back (the model's choice, log 17), and its end clears what they
inherited; a load from another core's scratchpad is performed there. R273, R274, the ends of a walk: it fills the TLBs
of the core and its cluster, and the context performs its access again or the engine command goes on with what was
found; or it queues a fault, which takes the lowest free index (the model's choice, log 75), and the context waits for
the service core; a walk that meets a retired unit gives a read error (R396); a hit in the cluster's TLB fills the
core's. R304: a tile whose time is over reads 0 at its home and is dead. R209, R244, reserved words: what waits first is
performed when the word is free; a reservation held for 16,384 ticks is broken, and an earlier one stands. -/
def Obligations.MemoryEvents : Prop :=
  ((∀ (s : State) (core page : Nat), s.Inv →
     let d := s.page core page
     let at_ := scratchLoc core (page * 4096)
     d.busy = true → d.frame + 4096 ≤ 2 ^ 41 → s.flaws = [] → s.lost = [] →
     (d.wb = false → d.frame / 65536 ∈ s.retired →
       ∃ t, exec (.refillComplete core page) s = .next t ∧ t.page core page = { d with busy := false } ∧ sameBytes s t) ∧
     (d.wb = true → s.retired = [d.frame / 65536] → ∃ t, exec (.pageWritebackComplete core page) s = .next t ∧
       t.page core page = { d with res := false, dirty := false, busy := false, wb := false } ∧ sameBytes s t) ∧
     (s.retired = [] →
     (d.wb = false → ∃ t, exec (.refillComplete core page) s = .next t ∧
       t.page core page = { d with res := true, dirty := false, busy := false } ∧
       ∀ x, t.byteAt x = if at_ ≤ x ∧ x < at_ + 4096 then s.byteAt (d.frame + (x - at_)) else s.byteAt x) ∧
     (d.wb = true → ∃ t, exec (.pageWritebackComplete core page) s = .next t ∧
       t.page core page = { d with res := false, dirty := false, busy := false, wb := false } ∧
       ∀ x, t.byteAt x = if d.frame ≤ x ∧ x < d.frame + 4096 then s.byteAt (at_ + (x - d.frame)) else s.byteAt x))) ∧
   (∀ (s : State) (core : Nat) (e : L1Line), s.resvq = [] → s.retired = [] → s.lost = [] → e.line * 64 + 64 ≤ 2 ^ 42 →
     let written (t : State) : Prop := ∀ x, t.byteAt x =
       if x / 64 = e.line ∧ e.dirty.getLsbD (x % 64) = true then elem 8 e.data (x % 64) else s.byteAt x
     (s.l1? core e.line = some e → ∃ t, exec (.l1Eviction core e.line) s = .next t ∧ written t ∧ t.l1? core e.line = none) ∧
     (∀ g part dest, s.msgs[s.sel]? = some (.drain core g part dest) → (s.core core).l1 = [e] →
       ∃ t, exec .drain s = .next t ∧ t.msgs.getLast? = some (.drainAck dest) ∧
         (s.partOf core = some part → inSig g e.line = true → written t) ∧
         (inSig g e.line = false → sameBytes s t))) ∧
   (∀ (s : State) (r : Req), s.msgs[s.sel]? = some (.drainAck (.req r)) →
     ∃ t, exec .drainAck s = .next t ∧ t = { s with msgs := dropAt s.sel s.msgs ++ [.req r] }) ∧
   (∀ (s : State) (cx : Nat) (w : Wait), (s.ctx cx).state = .waiting → (s.ctx cx).wait = some w → w.ph = 2 →
     (s.core (coreOf cx)).l1 = [] → (∀ sc, w.i ≠ .fenceAr sc) →
     let on : Ctx := ({ s.ctx cx with pc := w.next } : Ctx).ready
     (∀ tag, s.msgs[s.sel]? = some (.drainAck (.ctx cx (s.ctx cx).tid tag)) → s.sweepingFor cx = false →
       w.next.toNat < 2 ^ 57 →
       ∃ t, exec .drainAck s = .next t ∧
         t.ctx cx = if w.acks ≤ 1 then on else { s.ctx cx with wait := some { w with acks := w.acks - 1 } }) ∧
     (w.acks = 0 → w.next.toNat < 2 ^ 57 → s.partOf (coreOf cx) = some s.sel → s.ctxs.map Prod.fst = [cx] →
       ∃ t, exec .sweepEnd s = .next t ∧ t.ctx cx = on)) ∧
   (∀ s : State,
     (∃ t, exec .sweep s = .next t ∧ (t.part s.sel).sweeping = true ∧
       ∀ k, s.partOf k = some s.sel → (t.core k).l1 = [] ∧ (s.resvq = [] → (t.core k).wsig = 0)) ∧
     ((∀ e ∈ s.ctxs, ∀ w, e.2.wait = some w → w.ph ≠ 2) →
       ∃ t, exec .sweepEnd s = .next t ∧ (t.part s.sel).sweeping = false ∧ sameBytes s t ∧
         ∀ k, s.partOf k = some s.sel → (t.core k).inh = 0)) ∧
   ∀ (s : State) (z : Sz) (sx : Bool) (d a : GReg) (o : BitVec 14) (core off : Nat),
     let ea := eaSpec (s.me.gr a) z o
     let loc := scratchLoc core off
     ea.toNat % szBytes z = 0 → inFleet ea = false → core ≠ s.myCore → off % szBytes z = 0 → off < 49152 →
     s.translate s.myCore s.myPart ea .load = .ok (.scratch core off) → s.pageSt core (off / 4096) = .ready →
     s.resvq = [] → s.flaws = [] → s.retired = [] → s.lost = [] →
     ∃ u t w, roundTrip .remoteRequest (.ld z sx d a o) s u t w ∧ sameReads s w ∧
       w.me = ((s.me.setG d (loadSpec (szBytes z) sx (s.rd (span loc (szBytes z))))).advance 4).ready) ∧
  (∀ s : State,
     (∀ cx va kind part b, let tid := (s.ctx cx).tid
       s.msgs[s.sel]? = some (.walk (.ctx cx tid) cx va kind part b) → (s.ctx cx).state = .waiting →
       let a : Word := BitVec.ofNat 64 va
       let die := dieOf (coreOf cx)
       inGlobal a = true →
       (s.flaws = [] → s.ghosts = [] → (∀ m ∈ dropAt s.sel s.msgs, joinsWalk cx va part m = false) →
         (s.retired = [] → s.lost = [] →
           (∀ e, s.walk part a = .leaf e → ∃ t, exec .walkComplete s = .next t ∧ e ∈ (t.core (coreOf cx)).tlb ∧
             e ∈ (t.cluster (clusterOf (coreOf cx))).tlb ∧ t.ctxs = s.ctxs ∧
             t.msgs = dropAt s.sel s.msgs ++ [.retry cx tid]) ∧
           (∀ level cause pa, s.walk part a = .stop level cause pa → (s.die die).fq = [] →
             ∃ t, exec .walkComplete s = .next t ∧ t.msgs = dropAt s.sel s.msgs ∧
               t.ctx cx = { s.ctx cx with why := 13 } ∧
               (t.die die).fq = [(0, { va := va % 2 ^ 57, tid := tid, core := coreOf cx, cx := ctxNo cx, kind := kind
                                       level := level, cause := cause, win := 3, part := part, count := 1, pa := pa
                                       who := [.ctx cx tid] })])) ∧
         (∀ w, (s.ctx cx).wait = some w → (∃ x ∈ s.walkReads part a, x / 65536 ∈ s.retired) → (s.ctx cx).catches →
           (s.ctx cx).deleg = [] → s.objs = [] →
           ∃ t, exec .walkComplete s = .next t ∧ t.msgs = dropAt s.sel s.msgs ∧
             t.ctx cx = (s.ctx cx).trapped 8 w.val (s.ctx cx).pc)) ∧
       (∀ e, tlbFind part a (s.cluster (clusterOf (coreOf cx))).tlb = some e →
         ∃ t, exec .clusterTlbHit s = .next t ∧ e ∈ (t.core (coreOf cx)).tlb ∧ t.ctxs = s.ctxs ∧
           t.msgs = dropAt s.sel s.msgs ++ [.retry cx tid])) ∧
     (∀ id cx va kind part b e, s.msgs[s.sel]? = some (.walk (.cmd id) cx va kind part b) → s.lives (.cmd id) = true →
       inGlobal (BitVec.ofNat 64 va) = true → s.flaws = [] → s.retired = [] → s.lost = [] →
       (∀ m ∈ dropAt s.sel s.msgs, joinsWalk cx va part m = false) → s.walk part (BitVec.ofNat 64 va) = .leaf e →
       ∃ t, exec .walkComplete s = .next t ∧ t.msgs = dropAt s.sel s.msgs ∧ t.ctxs = s.ctxs ∧
         e ∈ (t.core (coreOf cx)).tlb ∧ t.walked = s.walked ++ [(.cmd id, part, va, some e)]) ∧
     (expiredSpec s s.sel → (s.tile s.sel).tpart = s.myPart → (s.tile s.sel).dead = false →
       ∃ t, exec .tileExpiry s = .next t ∧ t.tile s.sel = { s.tile s.sel with dead := true } ∧ t.ctxs = s.ctxs ∧
         ∀ x, t.byteAt x = if 2 ^ 43 + s.sel * 4096 ≤ x ∧ x < 2 ^ 43 + (s.sel + 1) * 4096 then 0 else s.byteAt x) ∧
     (∀ k c n a b, s.resvq = [{ loc := s.sel, holder := none, queue := [.write k c n] }] → c = [(a, b)] → a < 2 ^ 42 →
       ∃ t, exec .reservationGrant s = .next t ∧ t.resvq = [] ∧ t.ctxs = s.ctxs ∧
         ∀ x, t.byteAt x = if x = a then b else s.byteAt x) ∧
     (∀ r dbl acq sc d a pa, s.resvq = [{ loc := s.sel, holder := none, queue := [.req r] }] → r.i = .resv dbl acq sc d a →
       r.lanes = [] → r.home = .cupola (pa / 2 ^ 26) (pa / 4096 % 16) → r.locs = span (2 ^ 42 + pa) (atomicBytes dbl) → pa < 2 ^ 29 →
       s.objs = [] → s.flaws = [] → s.retired = [] → s.lost = [] → (s.core (coreOf r.cx)).l1 = [] →
       (s.ctx r.cx).tid = r.tid → (s.ctx r.cx).state = .waiting →
       ∃ t rep, exec .reservationGrant s = .next t ∧ sameReads s t ∧ t.msgs = s.msgs ++ [.reply rep] ∧ rep.cx = r.cx ∧
         rep.tid = r.tid ∧ rep.trap = none ∧ rep.vals = [s.rd r.locs, 2 ^ 42 + pa] ∧
         t.resvq = [{ loc := 2 ^ 42 + pa, holder := some (r.cx, r.tid, r.locs, s.now), queue := [] }]) ∧
     ∀ q cx tid locs tick, s.resvq = [q] → q.loc = s.sel → q.holder = some (cx, tid, locs, tick) →
       (tick + 16384 ≤ s.now → ∃ t, exec .reservationBreak s = .next t ∧
         t = { s with resvq := if q.queue = [] then [] else [{ q with holder := none }] }) ∧
       (s.now < tick + 16384 → exec .reservationBreak s = .next s))

/-- R226 to R230, wakes of objects, with no line in an L1 and no sweep: a wake ends a waiting `slock`, `slock.call`,
`swait` or push, and so does the poll of a polling ticket. A `slock.call` goes on at its routine, or takes the
translation fault that R101 gives a jump when the routine's address has any of bits [63:57] set. A wake for a context
that does not wait is kept at an object of a pre-empted partition, or for a context that is to issue its instruction
again (R281), and is else dropped (the model's reading, log 32). The reply to a delegated request gives g0 and returns
from its section. R227, R228: the end of a window takes over `SOPOL`, starts the count of calls again and makes the
switches of R228. R66, R71 and R79: a context-free notice sets FNP of the context that it names under its TID, which
ends a `cfw` with p[d] true; one under another TID is discarded. An abort frees the arriving context, and the core's
refused senders get their notices. -/
def Obligations.ObjectEvents : Prop :=
  (∀ (s : State) (cx : Nat),
     let c := s.ctx cx
     let on (x : Word) (d : Ctx) : Ctx := ({ d with pc := x } : Ctx).ready
     let next := wrapPc (c.pc + 4)
     (∀ line g ring v st, s.msgs[s.sel]? = some (.soWake cx c.tid line g ring v st) → cx < 102400 * 16 →
       s.asking cx c.tid = false →
       (s.wakesAtOnce cx →
         (∀ a, s.awaitsAt cx (.slock a) line → ∃ t, exec .soWake s = .next t ∧ t.ctx cx = on next c) ∧
         (∀ d a, s.awaitsAt cx (.slockCall d a) line →
           ((c.gr d).toNat < 2 ^ 57 → ∃ t, exec .soWake s = .next t ∧ t.ctx cx = on (c.gr d) { c with run := [] }) ∧
           (2 ^ 57 ≤ (c.gr d).toNat → c.catches → c.deleg = [] →
             (∀ e ∈ s.objs, ¬ (e.2.kind = .lock ∧ e.2.holder = some (cx, c.tid) ∧ e.2.mode = modeOWNER)) →
             ∃ t, exec .soWake s = .next t ∧ t.ctx cx = c.trapped 4 (c.gr d) c.pc)) ∧
         (∀ d a, s.awaitsAt cx (.swait d a) line → ∃ t, exec .soWake s = .next t ∧
           t.ctx cx = on next (if ring = true then (c.setG d v).setG (d + 1) st else c.setG d v))) ∧
       (∀ d a, s.awaitsAt cx (.sarr d a) line ∨ s.awaitsAt cx (.sarrEos d a) line →
         ∃ t, exec .soWake s = .next t ∧ t.ctx cx = (c.advance 4).ready) ∧
       (∀ o, c.state ≠ .waiting → s.obj? line = some o → ∃ t, exec .soWake s = .next t ∧ t.ctxs = s.ctxs ∧
         ((s.part o.part).pre = .no → c.reissue = false → t.objs = s.objs) ∧
         ((s.part o.part).pre ≠ .no ∨ c.reissue = true → ∃ tk, t.obj? line = some { o with owed := o.owed ++ [(tk, g, v, st)] } ∧
           tk.cx = cx ∧ tk.tid = c.tid))) ∧
     (∀ line o tk g v st a, s.sel = cx → cx < 102400 * 16 → s.wakesAtOnce cx → s.awaitsAt cx (.slock a) line →
       s.asking cx c.tid = false →
       s.objs = [(line, o)] → o.owed = [(tk, g, v, st)] → tk.cx = cx → tk.tid = c.tid →
       ∃ t, exec .soPoll s = .next t ∧ t.ctx cx = on next c ∧ t.obj? line = some { o with owed := [] }) ∧
     (∀ line g sc v k tag d a ret lk, s.msgs[s.sel]? = some (.delegated cx c.tid line g sc v k tag) → s.wakesAtOnce cx →
       s.awaits cx (.slockCall d a) → s.asking cx c.tid = false → c.sret = some (ret, lk) → ret.toNat < 2 ^ 57 →
       ∃ t, exec .delegatedReply s = .next t ∧ t.ctx cx = on ret { c.setG 0 v with sret := none, run := [] }) ∧
     ∀ o, s.obj? s.sel = some o →
       (s.now < o.wnext → exec .soWindowBoundary s = .next s) ∧
       (o.wnext ≤ s.now → ∃ t o1, exec .soWindowBoundary s = .next t ∧ t.obj? s.sel = some o1 ∧
         o1.pol = (s.part o.part).sopol ∧ o1.calls = 0 ∧ s.now < o1.wnext ∧ o1.wnext % polWindow o1.pol = 0 ∧
         let quiet := o.pol.toNat / 2 ^ 24 % 256
         let ohi := o.pol.toNat / 2 ^ 8 % 256
         let owner : Prop := o.kind = .lock ∧ ohi ≠ 0 ∧ ohi ≤ o.calls ∧ ∀ n, o.sinceFb = some n → quiet ≤ n + 1
         (o.tab = false ∨ o.kind = .bar ∨ o.mode = modeFLAG → o1.mode = o.mode ∧ o1.swc = o.swc) ∧
         (o.tab = true → o.kind ≠ .bar → o.mode = modeQUEUE →
           (owner → o1.mode = modeOWNER ∧ o1.swc = (o.swc + 1) % 2 ^ 32) ∧
           (¬ owner → o.tickets.length ≤ 1 → quiet ≠ 0 → quiet ≤ o.quiet + 1 →
             o1.mode = modeFLAG ∧ o1.swc = (o.swc + 1) % 2 ^ 32) ∧
           (¬ owner → 1 < o.tickets.length → o1.mode = modeQUEUE ∧ o1.quiet = 0)) ∧
         (o.tab = true → o.kind = .lock → o.mode = modeOWNER →
           (o.calls < ohi / 2 → quiet ≠ 0 → quiet ≤ o.quiet + 1 → o1.mode = modeQUEUE ∧ o1.swc = (o.swc + 1) % 2 ^ 32) ∧
           (ohi / 2 ≤ o.calls → o1.mode = modeOWNER ∧ o1.quiet = 0)))) ∧
  (∀ (s : State) (cx : Nat),
     let c := s.ctx cx
     (∀ core place tid, s.msgs[s.sel]? = some (.notice core place tid) → ctxOfPlace place = cx → tid.toNat < 0xFFFFFFFE →
       (tid = c.tid → c.state = .ready → c.wait = none →
         ∃ t, exec .contextFreeNotice s = .next t ∧ t.ctx cx = { c with fnp := true } ∧ t.msgs = dropAt s.sel s.msgs) ∧
       (∀ d w, tid = c.tid → c.state = .waiting → c.wait = some w → w.i = .cfw d →
         ∃ t, exec .contextFreeNotice s = .next t ∧
           t.ctx cx = ((({ c with fnp := false, timer := none } : Ctx).setP d true).advance 4).ready) ∧
       (tid ≠ c.tid → ∃ t, exec .contextFreeNotice s = .next t ∧ t = { s with msgs := dropAt s.sel s.msgs })) ∧
     ∀ tid, s.msgs[s.sel]? = some (.migAbort cx tid) →
       let core := s.core (coreOf cx)
       (c.state = .arriving → c.tid = tid →
         ∃ t, exec .migrationAbort s = .next t ∧ t.ctx cx = { Ctx.reset with f := c.f, v := c.v } ∧
           (t.core (coreOf cx)).refused = [] ∧
           t.msgs = dropAt s.sel s.msgs ++ core.refused.map (fun e => .notice (coreOf cx) e.1 e.2)) ∧
       (c.state ≠ .arriving ∨ c.tid ≠ tid →
         ∃ t, exec .migrationAbort s = .next t ∧ t = { s with msgs := dropAt s.sel s.msgs }))

/-- R194 and R195 with no write waiting at a reserved word: `cwb` and `cinv` of a line, `cwb.all`, `cinv.all`, `iinv`
and `fbar` complete with no register of the context changed but its pc. `cwb` leaves its line in the L1, clean, and
`cinv` takes it out; every other line of the L1 stays as it was, and so does every other context. `iinv` takes its line
out of the listed quads' instruction caches within its scope and changes no other. R244 on a word of Cupola: `resv`
completes through its home with the word in g[d], and the `rlse` of the context's reservation with p[d] true and the
word written. R352 and R355 to R358: each power event completes and changes only the power state of the package and its
error logs. -/
def Obligations.MaintenanceAndPowerComplete : Prop :=
  (∀ (s : State) (a : GReg) (sc : Scope) (pa : Nat), s.resvq = [] →
     let l1 (t : State) (line : Nat) : Option L1Line := t.l1? s.myCore line
     let global : Prop := window s.myCore (s.me.gr a) = .global ∧
       s.translate s.myCore s.myPart (s.me.gr a) .load = .ok (.global pa)
     let clean (t : State) (line : Nat) : Prop := l1 t line = (l1 s line).map (fun e => { e with dirty := 0 })
     let done (i : Instr) (p : State → Prop) : Prop :=
       ∃ t, exec i s = .next t ∧ memoryAndContext s t s.cur ∧ t.me = (s.me.advance 4).ready ∧ p t
     (global → done (.cwb a) (fun t => ∀ line, if line = pa / 64 then clean t line else l1 t line = l1 s line)) ∧
     (global → done (.cinv a) (fun t => ∀ line, l1 t line = if line = pa / 64 then none else l1 s line)) ∧
     done .cwbAll (fun t => ∀ line, clean t line) ∧ done .cinvAll (fun t => ∀ line, l1 t line = none) ∧
     (global → ∃ t, exec (.iinv sc a) s = .next t ∧ t = { s with ctxs := t.ctxs, quads := t.quads } ∧
       (∀ k, k ≠ s.cur → t.ctx k = s.ctx k) ∧ t.me = (s.me.advance 4).ready ∧
       ∀ q, q < 25600 → q ∈ s.quads.map Prod.fst → t.quad q =
         if sameUnit sc (q * 4) s.myCore = true ∧ s.partOf (q * 4) = s.partOf s.myCore then
           { s.quad q with icache := (s.quad q).icache.filter (fun x => decide (x.1 ≠ pa / 64)) }
         else s.quad q) ∧
     ∃ t, exec .fbar s = .next t ∧ completes s t 4 { s.me with run := [] }) ∧
  (∀ (s : State) (dbl b1 : Bool) (sc : Scope) (d a b : GReg) (p : Reg8) (die off : Nat),
     let n := atomicBytes dbl
     let loc := 2 ^ 42 + die * 2 ^ 26 + off
     (s.me.gr a).toNat % n = 0 → off % n = 0 → off < 2 ^ 26 → die < 8 → inFleet (s.me.gr a) = false →
     s.translate s.myCore s.myPart (s.me.gr a) .store = .ok (.cupola die off) → s.obj? (loc / 64) = none →
     (s.core s.myCore).l1 = [] → s.acquiresAtOnce → s.flaws = [] → s.retired = [] → s.lost = [] →
     (s.resvq = [] → s.me.resv = none → ∃ u t w, roundTrip .homeSliceAccess (.resv dbl b1 sc d a) s u t w ∧
       sameReads s w ∧ w.resvq = [{ loc := loc, holder := some (s.cur, s.me.tid, span loc n, s.now), queue := [] }] ∧
       w.me = (({ s.me.setG d (BitVec.ofNat 64 (s.rd (span loc n))) with resv := some (loc, n) } : Ctx).advance 4).ready) ∧
     (∀ tick, s.resvq = [{ loc := loc, holder := some (s.cur, s.me.tid, span loc n, tick), queue := [] }] →
       s.me.resv = some (loc, n) →
       ∃ u t w, roundTrip .homeSliceAccess (.rlse dbl b1 sc p a b) s u t w ∧
       storesNum s w loc n ((s.me.gr b).toNat % 2 ^ (8 * n)) ∧ w.resvq = [] ∧
       w.me = (({ s.me.setP p true with resv := none } : Ctx).advance 4).ready)) ∧
  ∀ (s : State) (k ceil wd watts : Nat) (seq : BitVec 32), s.sel < 25600 → k < 25600 →
    let power (i : Instr) (p : State → Prop) : Prop := ∃ t, exec i s = .next t ∧ p t ∧ t = { s with
      quads := t.quads, quadD := t.quadD, dies := t.dies, limiter := t.limiter, watchdog := t.watchdog
      signal := t.signal, lanternUp := t.lanternUp, cap := t.cap, capSeq := t.capSeq, lease := t.lease }
    let q := s.quad s.sel
    power (.lanternPolicyAction k ceil wd) (fun t => (t.quad k).ceil = min ceil 7 ∧ (t.quad k).wd = min wd 15) ∧
    (seq = s.capSeq + 1 → power (.capMessage seq watts) (fun t => t.capSeq = seq ∧ t.cap = max 1000 (min watts 3600) ∧
      t.lease = some (s.now + 500000000))) ∧
    (q.move = none → q.op ≠ s.opTarget s.sel →
      power .opMoveStart (fun t => ∃ e, (t.quad s.sel).move = some (s.opTarget s.sel, e))) ∧
    (∀ op e, q.move = some (op, e) → power .opMoveEnd (fun t => (t.quad s.sel).op = op ∧ (t.quad s.sel).move = none)) ∧
    (q.drth.getLsbD 24 = true → power .droopTrip (fun t => (t.quad s.sel).stretch = q.drth.toNat / 2 ^ 8 % 2 ^ 4 ∧
      (t.quad s.sel).wdNext = q.drth.toNat / 2 ^ 12 % 2 ^ 12)) ∧
    power .droopStretchEnd (fun t => (t.quad s.sel).stretch = 0 ∧ (t.quad s.sel).wdLeft = q.wdNext ∧
      (t.quad s.sel).resp = false) ∧
    power .droopWithdrawalEnd (fun t => (t.quad s.sel).wdLeft = 0) ∧
    power .currentLimitTrip (fun t => t.limiter = true) ∧ power .currentLimitRelease (fun t => t.limiter = false) ∧
    (s.sel < 8 → power .thermalTrip (fun t => (t.die s.sel).thermal = true) ∧
      power .thermalTripEnd (fun t => (t.die s.sel).thermal = false)) ∧
    (s.watchdog = false → s.signal + 2000000 ≤ s.now → power .watchdogExpiry (fun t => t.watchdog = true)) ∧
    power .lanternSignal (fun t => t.watchdog = false ∧ t.signal = s.now ∧ t.lanternUp = true) ∧
    power .leaseExpiry (fun t => t.cap = 2160 ∧ t.lease = none) ∧
    power .lanternRestart (fun t => t.cap = 2160 ∧ t.lease = none ∧ t.lanternUp = false)
end

