-- ==== Sys2Proof/Laws/Encoding.lean ====
section
/-! SUPPORT. The formats of R22: the fields of a word that was packed from fields are those fields, and its major opcode is
the one it was packed with. -/

namespace Sys2Proof

/-- Unpacking a packed word of format A. -/
@[simp] theorem FA.of_word (op : BitVec 6) (x : FA) : FA.of (FA.word op x) = x := by
  cases x
  simp only [FA.of, FA.word, FA.mk.injEq]
  refine ⟨?_, ?_, ?_, ?_, ?_⟩ <;>
  · ext i hi
    simp only [BitVec.getElem_extractLsb', BitVec.getLsbD_append]
    interval_cases i <;> simp

/-- The major opcode of a packed word of format A. -/
@[simp] theorem FA.major (op : BitVec 6) (x : FA) : majorOf (FA.word op x) = op := by
  cases x
  ext i hi
  simp only [majorOf, FA.word, BitVec.getElem_extractLsb', BitVec.getLsbD_append]
  interval_cases i <;> simp

/-- Unpacking a packed word of format I. -/
@[simp] theorem FI.of_word (op : BitVec 6) (x : FI) : FI.of (FI.word op x) = x := by
  cases x
  simp only [FI.of, FI.word, FI.mk.injEq]
  refine ⟨?_, ?_, ?_⟩ <;>
  · ext i hi
    simp only [BitVec.getElem_extractLsb', BitVec.getLsbD_append]
    interval_cases i <;> simp

/-- The major opcode of a packed word of format I. -/
@[simp] theorem FI.major (op : BitVec 6) (x : FI) : majorOf (FI.word op x) = op := by
  cases x
  ext i hi
  simp only [majorOf, FI.word, BitVec.getElem_extractLsb', BitVec.getLsbD_append]
  interval_cases i <;> simp

/-- Unpacking a packed word of format U. -/
@[simp] theorem FU.of_word (op : BitVec 6) (x : FU) : FU.of (FU.word op x) = x := by
  cases x
  simp only [FU.of, FU.word, FU.mk.injEq]
  refine ⟨?_, ?_⟩ <;>
  · ext i hi
    simp only [BitVec.getElem_extractLsb', BitVec.getLsbD_append]
    interval_cases i <;> simp

/-- The major opcode of a packed word of format U. -/
@[simp] theorem FU.major (op : BitVec 6) (x : FU) : majorOf (FU.word op x) = op := by
  cases x
  ext i hi
  simp only [majorOf, FU.word, BitVec.getElem_extractLsb', BitVec.getLsbD_append]
  interval_cases i <;> simp

/-- Unpacking a packed word of format B. -/
@[simp] theorem FB.of_word (op : BitVec 6) (x : FB) : FB.of (FB.word op x) = x := by
  cases x
  simp only [FB.of, FB.word, FB.mk.injEq]
  refine ⟨?_, ?_, ?_⟩ <;>
  · ext i hi
    simp only [BitVec.getElem_extractLsb', BitVec.getLsbD_append]
    interval_cases i <;> simp

/-- The major opcode of a packed word of format B. -/
@[simp] theorem FB.major (op : BitVec 6) (x : FB) : majorOf (FB.word op x) = op := by
  cases x
  ext i hi
  simp only [majorOf, FB.word, BitVec.getElem_extractLsb', BitVec.getLsbD_append]
  interval_cases i <;> simp

/-- Unpacking a packed word of format J. -/
@[simp] theorem FJ.of_word (op : BitVec 6) (x : FJ) : FJ.of (FJ.word op x) = x := by
  cases x
  simp only [FJ.of, FJ.word, FJ.mk.injEq]
  refine ⟨?_, ?_⟩ <;>
  · ext i hi
    simp only [BitVec.getElem_extractLsb', BitVec.getLsbD_append]
    interval_cases i <;> simp

/-- The major opcode of a packed word of format J. -/
@[simp] theorem FJ.major (op : BitVec 6) (x : FJ) : majorOf (FJ.word op x) = op := by
  cases x
  ext i hi
  simp only [majorOf, FJ.word, BitVec.getElem_extractLsb', BitVec.getLsbD_append]
  interval_cases i <;> simp

/-- Unpacking a packed word of format M. -/
@[simp] theorem FM.of_word (op : BitVec 6) (x : FM) : FM.of (FM.word op x) = x := by
  cases x
  simp only [FM.of, FM.word, FM.mk.injEq]
  refine ⟨?_, ?_, ?_, ?_, ?_⟩ <;>
  · ext i hi
    simp only [BitVec.getElem_extractLsb', BitVec.getLsbD_append]
    interval_cases i <;> simp

/-- The major opcode of a packed word of format M. -/
@[simp] theorem FM.major (op : BitVec 6) (x : FM) : majorOf (FM.word op x) = op := by
  cases x
  ext i hi
  simp only [majorOf, FM.word, BitVec.getElem_extractLsb', BitVec.getLsbD_append]
  interval_cases i <;> simp

/-- Unpacking a packed word of format P. -/
@[simp] theorem FP.of_word (op : BitVec 6) (x : FP) : FP.of (FP.word op x) = x := by
  cases x
  simp only [FP.of, FP.word, FP.mk.injEq]
  refine ⟨?_, ?_, ?_, ?_, ?_⟩ <;>
  · ext i hi
    simp only [BitVec.getElem_extractLsb', BitVec.getLsbD_append]
    interval_cases i <;> simp

/-- The major opcode of a packed word of format P. -/
@[simp] theorem FP.major (op : BitVec 6) (x : FP) : majorOf (FP.word op x) = op := by
  cases x
  ext i hi
  simp only [majorOf, FP.word, BitVec.getElem_extractLsb', BitVec.getLsbD_append]
  interval_cases i <;> simp

/-- Unpacking a packed word of format V. -/
@[simp] theorem FV.of_word (op : BitVec 6) (x : FV) : FV.of (FV.word op x) = x := by
  cases x
  simp only [FV.of, FV.word, FV.mk.injEq]
  refine ⟨?_, ?_, ?_, ?_, ?_, ?_, ?_⟩ <;>
  · ext i hi
    simp only [BitVec.getElem_extractLsb', BitVec.getLsbD_append]
    interval_cases i <;> simp

/-- The major opcode of a packed word of format V. -/
@[simp] theorem FV.major (op : BitVec 6) (x : FV) : majorOf (FV.word op x) = op := by
  cases x
  ext i hi
  simp only [majorOf, FV.word, BitVec.getElem_extractLsb', BitVec.getLsbD_append]
  interval_cases i <;> simp

/-- Unpacking a packed word of format S. -/
@[simp] theorem FS.of_word (op : BitVec 6) (x : FS) : FS.of (FS.word op x) = x := by
  cases x
  simp only [FS.of, FS.word, FS.mk.injEq]
  refine ⟨?_, ?_, ?_, ?_, ?_⟩ <;>
  · ext i hi
    simp only [BitVec.getElem_extractLsb', BitVec.getLsbD_append]
    interval_cases i <;> simp

/-- The major opcode of a packed word of format S. -/
@[simp] theorem FS.major (op : BitVec 6) (x : FS) : majorOf (FS.word op x) = op := by
  cases x
  ext i hi
  simp only [majorOf, FS.word, BitVec.getElem_extractLsb', BitVec.getLsbD_append]
  interval_cases i <;> simp

/-- Unpacking a packed word of format X. -/
@[simp] theorem FX.of_word (op : BitVec 6) (x : FX) : FX.of (FX.word op x) = x := by
  cases x
  simp only [FX.of, FX.word, FX.mk.injEq]
  refine ⟨?_, ?_, ?_, ?_, ?_, ?_⟩ <;>
  · ext i hi
    simp only [BitVec.getElem_extractLsb', BitVec.getLsbD_append]
    interval_cases i <;> simp

/-- The major opcode of a packed word of format X. -/
@[simp] theorem FX.major (op : BitVec 6) (x : FX) : majorOf (FX.word op x) = op := by
  cases x
  ext i hi
  simp only [majorOf, FX.word, BitVec.getElem_extractLsb', BitVec.getLsbD_append]
  interval_cases i <;> simp

/-- Unpacking a packed word of format E. -/
@[simp] theorem FE.of_word (op : BitVec 6) (x : FE) : FE.of (FE.word op x) = x := by
  cases x
  simp only [FE.of, FE.word, FE.mk.injEq]
  refine ⟨?_, ?_, ?_, ?_, ?_, ?_⟩ <;>
  · ext i hi
    simp only [BitVec.getElem_extractLsb', BitVec.getLsbD_append]
    interval_cases i <;> simp

/-- The major opcode of a packed word of format E. -/
@[simp] theorem FE.major (op : BitVec 6) (x : FE) : majorOf (FE.word op x) = op := by
  cases x
  ext i hi
  simp only [majorOf, FE.word, BitVec.getElem_extractLsb', BitVec.getLsbD_append]
  interval_cases i <;> simp

/-- Unpacking a packed word of format Y. -/
@[simp] theorem FY.of_word (op : BitVec 6) (x : FY) : FY.of (FY.word op x) = x := by
  cases x
  simp only [FY.of, FY.word, FY.mk.injEq]
  refine ⟨?_, ?_, ?_⟩ <;>
  · ext i hi
    simp only [BitVec.getElem_extractLsb', BitVec.getLsbD_append]
    interval_cases i <;> simp

/-- The major opcode of a packed word of format Y. -/
@[simp] theorem FY.major (op : BitVec 6) (x : FY) : majorOf (FY.word op x) = op := by
  cases x
  ext i hi
  simp only [majorOf, FY.word, BitVec.getElem_extractLsb', BitVec.getLsbD_append]
  interval_cases i <;> simp

/-- The bytes of a word make up the word. -/
@[simp] theorem leWord_bytes (w : IWord) :
    leWord (w.extractLsb' 0 8) (w.extractLsb' 8 8) (w.extractLsb' 16 8) (w.extractLsb' 24 8) = w := by
  apply BitVec.eq_of_getLsbD_eq
  intro i hi
  simp only [leWord, BitVec.getLsbD_append, BitVec.getLsbD_extractLsb']
  interval_cases i <;> simp

/-- The low part of a concatenation. -/
@[simp] theorem lowPart {v w : Nat} (a : BitVec v) (b : BitVec w) : (a ++ b).extractLsb' 0 w = b := by
  ext i hi
  simp [BitVec.getLsbD_append, hi]

/-- The high part of a concatenation. -/
@[simp] theorem highPart {v w : Nat} (a : BitVec v) (b : BitVec w) : (a ++ b).extractLsb' w v = a := by
  ext i hi
  simp [BitVec.getLsbD_append, hi]

/-- An instruction of one word is decoded from its four bytes, and the bytes after it are left. -/
theorem decode_one (w : IWord) (i : Instr) (rest : List Byte) (hw : inlineWords w = false)
    (h : decodeWord w ⟨0, 0, 0, 0⟩ = .ok i) : decode (wordBytes w ++ rest) = .ok (i, rest) := by
  simp only [decode, wordBytes, List.cons_append, List.nil_append, leWord_bytes, hw, h]; rfl

@[simp] theorem is8_f8 (x : Reg8) : is8 (f8 x) = true := by revert x; decide
@[simp] theorem r8_f8 (x : Reg8) : r8 (f8 x) = x := by revert x; decide
@[simp] theorem isM_fM (x : Reg4) : isM (fM x) = true := by revert x; decide
@[simp] theorem rM_fM (x : Reg4) : rM (fM x) = x := by revert x; decide

end Sys2Proof
end

