-- ==== Sys2Proof/Laws/Table.lean ====
section
/-! SUPPORT. Sparse tables: reading after a write, and the canonical form that a put keeps. -/

namespace Sys2Proof.Machine

theorem tget_tdel_ne {α : Type} (d : α) (k j : Nat) (t : Tbl α) (h : j ≠ k) : tget d j (tdel k t) = tget d j t := by
  induction t with
  | nil => rfl
  | cons e t ih =>
    obtain ⟨a, v⟩ := e
    by_cases ha : a = k
    · have : a ≠ j := fun e => h (e.symm.trans ha)
      simp [tdel, tget, ha, ih, Ne.symm h]
    · simp [tdel, tget, ha, ih]

theorem tget_tins {α : Type} (d : α) (k : Nat) (v : α) (t : Tbl α) (h : ∀ e ∈ t, e.1 ≠ k) :
    tget d k (tins k v t) = v := by
  induction t with
  | nil => simp [tins, tget]
  | cons e t ih =>
    obtain ⟨a, w⟩ := e
    have ha : a ≠ k := h (a, w) (by simp)
    have ht : ∀ e ∈ t, e.1 ≠ k := fun e he => h e (by simp [he])
    simp only [tins]
    split
    · simp [tget]
    · simp [tget, ha, ih ht]

theorem tget_tins_ne {α : Type} (d : α) (k j : Nat) (v : α) (t : Tbl α) (h : j ≠ k) :
    tget d j (tins k v t) = tget d j t := by
  induction t with
  | nil => simp [tins, tget, Ne.symm h]
  | cons e t ih =>
    obtain ⟨a, w⟩ := e
    simp only [tins]
    split
    · simp [tget, Ne.symm h]
    · simp [tget, ih]

theorem tdel_ne {α : Type} (k : Nat) (t : Tbl α) : ∀ e ∈ tdel k t, e.1 ≠ k := by
  induction t with
  | nil => simp [tdel]
  | cons e t ih =>
    obtain ⟨a, w⟩ := e
    by_cases ha : a = k
    · simpa [tdel, ha] using ih
    · intro e he
      simp only [tdel, ha, if_false, List.mem_cons] at he
      rcases he with rfl | he
      · exact ha
      · exact ih e he

@[simp] theorem tget_tset {α : Type} (d : α) (k : Nat) (v : α) (t : Tbl α) : tget d k (tset k v t) = v :=
  tget_tins d k v _ (tdel_ne k t)

theorem tget_tset_ne {α : Type} (d : α) (k j : Nat) (v : α) (t : Tbl α) (h : j ≠ k) :
    tget d j (tset k v t) = tget d j t := by
  rw [tset, tget_tins_ne d k j v _ h, tget_tdel_ne d k j t h]

/-- A property of the default and of every listed value holds of every value read. -/
theorem tget_all {α : Type} (d : α) (P : α → Prop) (hd : P d) (k : Nat) (t : Tbl α) (h : ∀ e ∈ t, P e.2) : P (tget d k t) := by
  induction t with
  | nil => exact hd
  | cons e t ih =>
    obtain ⟨j, v⟩ := e
    simp only [tget]
    split
    · exact h _ (List.mem_cons_self ..)
    · exact ih fun e he => h e (List.mem_cons_of_mem _ he)

end Sys2Proof.Machine
end

