-- ==== Sys2Proof/Laws/Memory.lean ====
section
/-! SUPPORT. Memory: a read after a write, and the canonical form (log 1), which every operation keeps. -/

namespace Sys2Proof.Machine

-- The canonical form

theorem tcanon_iff {α : Type} [DecidableEq α] (d : α) (t : Tbl α) :
    tcanon d t = true ↔ t.Pairwise (fun a b => a.1 < b.1) ∧ ∀ e ∈ t, e.2 ≠ d := by
  induction t with
  | nil => simp [tcanon]
  | cons e t ih =>
    obtain ⟨a, v⟩ := e
    cases t with
    | nil => simp [tcanon]
    | cons e2 t =>
      obtain ⟨b, w⟩ := e2
      simp only [tcanon, Bool.and_eq_true, decide_eq_true_eq, ih]
      constructor
      · rintro ⟨⟨hv, hab⟩, hp, hd⟩
        refine ⟨List.pairwise_cons.2 ⟨?_, hp⟩, ?_⟩
        · intro e he
          rcases List.mem_cons.1 he with rfl | he
          · exact hab
          · exact Nat.lt_trans hab ((List.pairwise_cons.1 hp).1 e he)
        · intro e he
          rcases List.mem_cons.1 he with rfl | he
          · exact hv
          · exact hd e he
      · rintro ⟨hp, hd⟩
        have h1 := List.pairwise_cons.1 hp
        exact ⟨⟨hd (a, v) (by simp), h1.1 (b, w) (by simp)⟩, h1.2, fun e he => hd e (by simp [he])⟩

theorem tdel_eq_filter {α : Type} (k : Nat) (t : Tbl α) : tdel k t = t.filter (fun e => decide (e.1 ≠ k)) := by
  induction t with
  | nil => rfl
  | cons e t ih =>
    obtain ⟨a, v⟩ := e
    by_cases h : a = k <;> simp [tdel, h, ih]

theorem mem_tins {α : Type} (k : Nat) (v : α) (t : Tbl α) (e : Nat × α) : e ∈ tins k v t ↔ e = (k, v) ∨ e ∈ t := by
  induction t with
  | nil => simp [tins]
  | cons x t ih =>
    obtain ⟨a, w⟩ := x
    simp only [tins]
    split
    · simp
    · simp only [List.mem_cons, ih]
      constructor <;> (intro h; rcases h with h | h | h <;> simp [h])

theorem tins_pairwise {α : Type} (k : Nat) (v : α) (t : Tbl α) (hk : ∀ e ∈ t, e.1 ≠ k)
    (h : t.Pairwise (fun a b => a.1 < b.1)) : (tins k v t).Pairwise (fun a b => a.1 < b.1) := by
  induction t with
  | nil => simp [tins]
  | cons x t ih =>
    obtain ⟨a, w⟩ := x
    have h1 := List.pairwise_cons.1 h
    simp only [tins]
    split
    · next hlt =>
      refine List.pairwise_cons.2 ⟨fun e he => ?_, h⟩
      rcases List.mem_cons.1 he with rfl | he
      · exact hlt
      · exact Nat.lt_trans hlt (h1.1 e he)
    · next hge =>
      have ha : a ≠ k := hk (a, w) (by simp)
      refine List.pairwise_cons.2 ⟨fun e he => ?_, ih (fun e he => hk e (by simp [he])) h1.2⟩
      rcases (mem_tins k v t e).1 he with rfl | he
      · show a < k
        omega
      · exact h1.1 e he

theorem tdel_canon {α : Type} [DecidableEq α] (d : α) (k : Nat) (t : Tbl α) (h : tcanon d t = true) :
    tcanon d (tdel k t) = true := by
  rw [tcanon_iff] at *
  rw [tdel_eq_filter]
  exact ⟨h.1.filter _, fun e he => h.2 e ((List.mem_filter.1 he).1)⟩

theorem tput_canon {α : Type} [DecidableEq α] (d : α) (k : Nat) (v : α) (t : Tbl α) (h : tcanon d t = true) :
    tcanon d (tput d k v t) = true := by
  unfold tput
  split
  · exact tdel_canon d k t h
  · next hv =>
    have h1 := tdel_canon d k t h
    rw [tcanon_iff] at *
    refine ⟨tins_pairwise k v _ (tdel_ne k t) h1.1, fun e he => ?_⟩
    rcases (mem_tins k v _ e).1 he with rfl | he
    · exact hv
    · exact h1.2 e he

theorem tget_tdel {α : Type} (d : α) (k : Nat) (t : Tbl α) : tget d k (tdel k t) = d := by
  have key : ∀ l : Tbl α, (∀ e ∈ l, e.1 ≠ k) → tget d k l = d := by
    intro l
    induction l with
    | nil => intro _; rfl
    | cons x l ih =>
      obtain ⟨a, w⟩ := x
      intro h
      have ha : a ≠ k := h (a, w) (by simp)
      simp [tget, ha, ih (fun e he => h e (by simp [he]))]
  exact key _ (tdel_ne k t)

-- One byte

@[simp] theorem memGet_memSet (m : Memory) (a : Nat) (b : Byte) : memGet (memSet m a b) a = b := by
  unfold memGet memSet tput
  split
  · next h => rw [tget_tdel, h]
  · simp

theorem memGet_memSet_ne (m : Memory) (a x : Nat) (b : Byte) (h : x ≠ a) : memGet (memSet m a b) x = memGet m x := by
  unfold memGet memSet tput
  split
  · exact tget_tdel_ne _ _ _ _ h
  · exact tget_tset_ne _ _ _ _ _ h

-- Every operation keeps the canonical form

theorem memSet_wf (m : Memory) (a : Nat) (b : Byte) (h : m.wf = true) : (memSet m a b).wf = true :=
  tput_canon memDefault a b m h

theorem memWriteAt_wf (v : Nat) (l : List Nat) (m : Memory) (h : m.wf = true) : (memWriteAt m v l).wf = true := by
  induction l generalizing v m with
  | nil => exact h
  | cons a t ih => exact ih _ _ (memSet_wf m a _ h)

theorem memWrite_wf (m : Memory) (a n v : Nat) (h : m.wf = true) : (memWrite m a n v).wf = true :=
  memWriteAt_wf v _ m h

theorem memFilter_wf (m : Memory) (p : Host.Cell → Bool) (h : m.wf = true) : Memory.wf (m.filter p) = true := by
  unfold Memory.wf at *
  rw [tcanon_iff] at *
  exact ⟨h.1.filter _, fun e he => h.2 e ((List.mem_filter.1 he).1)⟩

theorem memClear_wf (m : Memory) (a n : Nat) (h : m.wf = true) : (memClear m a n).wf = true := memFilter_wf m _ h

theorem memFold_wf {β : Type} (f : β → Nat) (g : β → Byte) (l : List β) (m : Memory) (h : m.wf = true) :
    Memory.wf (l.foldl (fun m c => memSet m (f c) (g c)) m) = true := by
  induction l generalizing m with
  | nil => exact h
  | cons c t ih => exact ih _ (memSet_wf m _ _ h)

theorem memCopy_wf (m : Memory) (src dst n : Nat) (h : m.wf = true) : (memCopy m src dst n).wf = true :=
  memFold_wf _ _ _ _ (memClear_wf m dst n h)

-- Ranges

theorem memGet_memWriteAt (v : Nat) (l : List Nat) (m : Memory) (x : Nat) (h : x ∉ l) :
    memGet (memWriteAt m v l) x = memGet m x := by
  induction l generalizing v m with
  | nil => rfl
  | cons a t ih =>
    simp only [List.mem_cons, not_or] at h
    rw [memWriteAt, ih _ _ h.2, memGet_memSet_ne _ _ _ _ h.1]

theorem memReadAt_congr (m m' : Memory) (l : List Nat) (h : ∀ x ∈ l, memGet m' x = memGet m x) :
    memReadAt m' l = memReadAt m l := by
  induction l with
  | nil => rfl
  | cons a t ih => simp [memReadAt, h a (by simp), ih (fun x hx => h x (by simp [hx]))]

/-- What a range holds after it was written: the number's low bytes. -/
theorem memReadAt_memWriteAt (v : Nat) (l : List Nat) (m : Memory) (h : l.Nodup) :
    memReadAt (memWriteAt m v l) l = v % 2 ^ (8 * l.length) := by
  induction l generalizing v m with
  | nil => simp [memReadAt, Nat.mod_one]
  | cons a t ih =>
    have h1 := List.nodup_cons.1 h
    rw [memWriteAt, memReadAt, ih _ _ h1.2, memGet_memWriteAt _ _ _ _ h1.1, memGet_memSet]
    simp only [List.length_cons, BitVec.toNat_ofNat, Nat.shiftLeft_eq, Nat.shiftRight_eq_div_pow]
    have e : 2 ^ (8 * (t.length + 1)) = 2 ^ 8 * 2 ^ (8 * t.length) := by rw [← Nat.pow_add]; congr 1; omega
    rw [e, Nat.mod_mul, Nat.mul_comm (2 ^ 8)]

theorem span_nodup (a n : Nat) : (span a n).Nodup := List.nodup_range'

theorem memRead_memWrite (m : Memory) (a n v : Nat) : memRead (memWrite m a n v) a n = v % 2 ^ (8 * n) := by
  have := memReadAt_memWriteAt v (span a n) m (span_nodup a n)
  simpa [memRead, memWrite, span] using this

/-- A cleared range reads 0, and the bytes outside it are as before. -/
theorem memGet_memClear (m : Memory) (a n x : Nat) :
    memGet (memClear m a n) x = if a ≤ x ∧ x < a + n then memDefault else memGet m x := by
  induction m with
  | nil => simp [memClear, memGet, tget]
  | cons e t ih =>
    obtain ⟨k, b⟩ := e
    unfold memClear memGet at *
    by_cases hk : k < a ∨ a + n ≤ k
    · have : (decide (k < a) || decide (a + n ≤ k)) = true := by simpa using hk
      simp only [List.filter_cons, this, if_true, tget]
      by_cases hx : k = x
      · subst hx
        have : ¬ (a ≤ k ∧ k < a + n) := by omega
        simp [this]
      · simp [hx, ih]
    · have : (decide (k < a) || decide (a + n ≤ k)) = false := by simpa using hk
      simp only [List.filter_cons, this, tget]
      by_cases hx : k = x
      · subst hx
        have h2 : a ≤ k ∧ k < a + n := by omega
        simp only [h2, if_true] at ih ⊢
        simpa using ih
      · simp [hx, ih]

end Sys2Proof.Machine
end

