-- ==== Sys2Proof/Laws/State.lean ====
section
/-! SUPPORT. Field by field, what the updates of a context and of the state leave as it was: one lemma each, so that no
proof unfolds a record update; and reading a unit after a unit of its kind was changed. -/

namespace Sys2Proof.Machine

-- Ctx.setG

@[simp] theorem Ctx.setG_state (c : Ctx) (r : GReg) (v : Word) : (c.setG r v).state = c.state := rfl
@[simp] theorem Ctx.setG_why (c : Ctx) (r : GReg) (v : Word) : (c.setG r v).why = c.why := rfl
@[simp] theorem Ctx.setG_f (c : Ctx) (r : GReg) (v : Word) : (c.setG r v).f = c.f := rfl
@[simp] theorem Ctx.setG_p (c : Ctx) (r : GReg) (v : Word) : (c.setG r v).p = c.p := rfl
@[simp] theorem Ctx.setG_h (c : Ctx) (r : GReg) (v : Word) : (c.setG r v).h = c.h := rfl
@[simp] theorem Ctx.setG_v (c : Ctx) (r : GReg) (v : Word) : (c.setG r v).v = c.v := rfl
@[simp] theorem Ctx.setG_m (c : Ctx) (r : GReg) (v : Word) : (c.setG r v).m = c.m := rfl
@[simp] theorem Ctx.setG_pc (c : Ctx) (r : GReg) (v : Word) : (c.setG r v).pc = c.pc := rfl
@[simp] theorem Ctx.setG_stat (c : Ctx) (r : GReg) (v : Word) : (c.setG r v).stat = c.stat := rfl
@[simp] theorem Ctx.setG_rcnt (c : Ctx) (r : GReg) (v : Word) : (c.setG r v).rcnt = c.rcnt := rfl
@[simp] theorem Ctx.setG_tag (c : Ctx) (r : GReg) (v : Word) : (c.setG r v).tag = c.tag := rfl
@[simp] theorem Ctx.setG_tvec (c : Ctx) (r : GReg) (v : Word) : (c.setG r v).tvec = c.tvec := rfl
@[simp] theorem Ctx.setG_tepc (c : Ctx) (r : GReg) (v : Word) : (c.setG r v).tepc = c.tepc := rfl
@[simp] theorem Ctx.setG_tcause (c : Ctx) (r : GReg) (v : Word) : (c.setG r v).tcause = c.tcause := rfl
@[simp] theorem Ctx.setG_tval (c : Ctx) (r : GReg) (v : Word) : (c.setG r v).tval = c.tval := rfl
@[simp] theorem Ctx.setG_sret (c : Ctx) (r : GReg) (v : Word) : (c.setG r v).sret = c.sret := rfl
@[simp] theorem Ctx.setG_deleg (c : Ctx) (r : GReg) (v : Word) : (c.setG r v).deleg = c.deleg := rfl
@[simp] theorem Ctx.setG_tid (c : Ctx) (r : GReg) (v : Word) : (c.setG r v).tid = c.tid := rfl
@[simp] theorem Ctx.setG_fnp (c : Ctx) (r : GReg) (v : Word) : (c.setG r v).fnp = c.fnp := rfl
@[simp] theorem Ctx.setG_timer (c : Ctx) (r : GReg) (v : Word) : (c.setG r v).timer = c.timer := rfl
@[simp] theorem Ctx.setG_lrr (c : Ctx) (r : GReg) (v : Word) : (c.setG r v).lrr = c.lrr := rfl
@[simp] theorem Ctx.setG_lgr (c : Ctx) (r : GReg) (v : Word) : (c.setG r v).lgr = c.lgr := rfl
@[simp] theorem Ctx.setG_pend (c : Ctx) (r : GReg) (v : Word) : (c.setG r v).pend = c.pend := rfl
@[simp] theorem Ctx.setG_resv (c : Ctx) (r : GReg) (v : Word) : (c.setG r v).resv = c.resv := rfl
@[simp] theorem Ctx.setG_relp (c : Ctx) (r : GReg) (v : Word) : (c.setG r v).relp = c.relp := rfl
@[simp] theorem Ctx.setG_recs (c : Ctx) (r : GReg) (v : Word) : (c.setG r v).recs = c.recs := rfl
@[simp] theorem Ctx.setG_hunit (c : Ctx) (r : GReg) (v : Word) : (c.setG r v).hunit = c.hunit := rfl
@[simp] theorem Ctx.setG_frame (c : Ctx) (r : GReg) (v : Word) : (c.setG r v).frame = c.frame := rfl
@[simp] theorem Ctx.setG_resume (c : Ctx) (r : GReg) (v : Word) : (c.setG r v).resume = c.resume := rfl
@[simp] theorem Ctx.setG_run (c : Ctx) (r : GReg) (v : Word) : (c.setG r v).run = c.run := rfl
@[simp] theorem Ctx.setG_last (c : Ctx) (r : GReg) (v : Word) : (c.setG r v).last = c.last := rfl
@[simp] theorem Ctx.setG_wait (c : Ctx) (r : GReg) (v : Word) : (c.setG r v).wait = c.wait := rfl
@[simp] theorem Ctx.setG_reissue (c : Ctx) (r : GReg) (v : Word) : (c.setG r v).reissue = c.reissue := rfl
@[simp] theorem Ctx.setG_launch (c : Ctx) (r : GReg) (v : Word) : (c.setG r v).launch = c.launch := rfl

-- Ctx.setF

@[simp] theorem Ctx.setF_state (c : Ctx) (r : Reg8) (v : Word) : (c.setF r v).state = c.state := rfl
@[simp] theorem Ctx.setF_why (c : Ctx) (r : Reg8) (v : Word) : (c.setF r v).why = c.why := rfl
@[simp] theorem Ctx.setF_g (c : Ctx) (r : Reg8) (v : Word) : (c.setF r v).g = c.g := rfl
@[simp] theorem Ctx.setF_p (c : Ctx) (r : Reg8) (v : Word) : (c.setF r v).p = c.p := rfl
@[simp] theorem Ctx.setF_h (c : Ctx) (r : Reg8) (v : Word) : (c.setF r v).h = c.h := rfl
@[simp] theorem Ctx.setF_v (c : Ctx) (r : Reg8) (v : Word) : (c.setF r v).v = c.v := rfl
@[simp] theorem Ctx.setF_m (c : Ctx) (r : Reg8) (v : Word) : (c.setF r v).m = c.m := rfl
@[simp] theorem Ctx.setF_pc (c : Ctx) (r : Reg8) (v : Word) : (c.setF r v).pc = c.pc := rfl
@[simp] theorem Ctx.setF_stat (c : Ctx) (r : Reg8) (v : Word) : (c.setF r v).stat = c.stat := rfl
@[simp] theorem Ctx.setF_rcnt (c : Ctx) (r : Reg8) (v : Word) : (c.setF r v).rcnt = c.rcnt := rfl
@[simp] theorem Ctx.setF_tag (c : Ctx) (r : Reg8) (v : Word) : (c.setF r v).tag = c.tag := rfl
@[simp] theorem Ctx.setF_tvec (c : Ctx) (r : Reg8) (v : Word) : (c.setF r v).tvec = c.tvec := rfl
@[simp] theorem Ctx.setF_tepc (c : Ctx) (r : Reg8) (v : Word) : (c.setF r v).tepc = c.tepc := rfl
@[simp] theorem Ctx.setF_tcause (c : Ctx) (r : Reg8) (v : Word) : (c.setF r v).tcause = c.tcause := rfl
@[simp] theorem Ctx.setF_tval (c : Ctx) (r : Reg8) (v : Word) : (c.setF r v).tval = c.tval := rfl
@[simp] theorem Ctx.setF_sret (c : Ctx) (r : Reg8) (v : Word) : (c.setF r v).sret = c.sret := rfl
@[simp] theorem Ctx.setF_deleg (c : Ctx) (r : Reg8) (v : Word) : (c.setF r v).deleg = c.deleg := rfl
@[simp] theorem Ctx.setF_tid (c : Ctx) (r : Reg8) (v : Word) : (c.setF r v).tid = c.tid := rfl
@[simp] theorem Ctx.setF_fnp (c : Ctx) (r : Reg8) (v : Word) : (c.setF r v).fnp = c.fnp := rfl
@[simp] theorem Ctx.setF_timer (c : Ctx) (r : Reg8) (v : Word) : (c.setF r v).timer = c.timer := rfl
@[simp] theorem Ctx.setF_lrr (c : Ctx) (r : Reg8) (v : Word) : (c.setF r v).lrr = c.lrr := rfl
@[simp] theorem Ctx.setF_lgr (c : Ctx) (r : Reg8) (v : Word) : (c.setF r v).lgr = c.lgr := rfl
@[simp] theorem Ctx.setF_pend (c : Ctx) (r : Reg8) (v : Word) : (c.setF r v).pend = c.pend := rfl
@[simp] theorem Ctx.setF_resv (c : Ctx) (r : Reg8) (v : Word) : (c.setF r v).resv = c.resv := rfl
@[simp] theorem Ctx.setF_relp (c : Ctx) (r : Reg8) (v : Word) : (c.setF r v).relp = c.relp := rfl
@[simp] theorem Ctx.setF_recs (c : Ctx) (r : Reg8) (v : Word) : (c.setF r v).recs = c.recs := rfl
@[simp] theorem Ctx.setF_hunit (c : Ctx) (r : Reg8) (v : Word) : (c.setF r v).hunit = c.hunit := rfl
@[simp] theorem Ctx.setF_frame (c : Ctx) (r : Reg8) (v : Word) : (c.setF r v).frame = c.frame := rfl
@[simp] theorem Ctx.setF_resume (c : Ctx) (r : Reg8) (v : Word) : (c.setF r v).resume = c.resume := rfl
@[simp] theorem Ctx.setF_run (c : Ctx) (r : Reg8) (v : Word) : (c.setF r v).run = c.run := rfl
@[simp] theorem Ctx.setF_last (c : Ctx) (r : Reg8) (v : Word) : (c.setF r v).last = c.last := rfl
@[simp] theorem Ctx.setF_wait (c : Ctx) (r : Reg8) (v : Word) : (c.setF r v).wait = c.wait := rfl
@[simp] theorem Ctx.setF_reissue (c : Ctx) (r : Reg8) (v : Word) : (c.setF r v).reissue = c.reissue := rfl
@[simp] theorem Ctx.setF_launch (c : Ctx) (r : Reg8) (v : Word) : (c.setF r v).launch = c.launch := rfl

-- Ctx.setH

@[simp] theorem Ctx.setH_state (c : Ctx) (r : Reg8) (v : IWord) : (c.setH r v).state = c.state := rfl
@[simp] theorem Ctx.setH_why (c : Ctx) (r : Reg8) (v : IWord) : (c.setH r v).why = c.why := rfl
@[simp] theorem Ctx.setH_g (c : Ctx) (r : Reg8) (v : IWord) : (c.setH r v).g = c.g := rfl
@[simp] theorem Ctx.setH_f (c : Ctx) (r : Reg8) (v : IWord) : (c.setH r v).f = c.f := rfl
@[simp] theorem Ctx.setH_p (c : Ctx) (r : Reg8) (v : IWord) : (c.setH r v).p = c.p := rfl
@[simp] theorem Ctx.setH_v (c : Ctx) (r : Reg8) (v : IWord) : (c.setH r v).v = c.v := rfl
@[simp] theorem Ctx.setH_m (c : Ctx) (r : Reg8) (v : IWord) : (c.setH r v).m = c.m := rfl
@[simp] theorem Ctx.setH_pc (c : Ctx) (r : Reg8) (v : IWord) : (c.setH r v).pc = c.pc := rfl
@[simp] theorem Ctx.setH_stat (c : Ctx) (r : Reg8) (v : IWord) : (c.setH r v).stat = c.stat := rfl
@[simp] theorem Ctx.setH_rcnt (c : Ctx) (r : Reg8) (v : IWord) : (c.setH r v).rcnt = c.rcnt := rfl
@[simp] theorem Ctx.setH_tag (c : Ctx) (r : Reg8) (v : IWord) : (c.setH r v).tag = c.tag := rfl
@[simp] theorem Ctx.setH_tvec (c : Ctx) (r : Reg8) (v : IWord) : (c.setH r v).tvec = c.tvec := rfl
@[simp] theorem Ctx.setH_tepc (c : Ctx) (r : Reg8) (v : IWord) : (c.setH r v).tepc = c.tepc := rfl
@[simp] theorem Ctx.setH_tcause (c : Ctx) (r : Reg8) (v : IWord) : (c.setH r v).tcause = c.tcause := rfl
@[simp] theorem Ctx.setH_tval (c : Ctx) (r : Reg8) (v : IWord) : (c.setH r v).tval = c.tval := rfl
@[simp] theorem Ctx.setH_sret (c : Ctx) (r : Reg8) (v : IWord) : (c.setH r v).sret = c.sret := rfl
@[simp] theorem Ctx.setH_deleg (c : Ctx) (r : Reg8) (v : IWord) : (c.setH r v).deleg = c.deleg := rfl
@[simp] theorem Ctx.setH_tid (c : Ctx) (r : Reg8) (v : IWord) : (c.setH r v).tid = c.tid := rfl
@[simp] theorem Ctx.setH_fnp (c : Ctx) (r : Reg8) (v : IWord) : (c.setH r v).fnp = c.fnp := rfl
@[simp] theorem Ctx.setH_timer (c : Ctx) (r : Reg8) (v : IWord) : (c.setH r v).timer = c.timer := rfl
@[simp] theorem Ctx.setH_lrr (c : Ctx) (r : Reg8) (v : IWord) : (c.setH r v).lrr = c.lrr := rfl
@[simp] theorem Ctx.setH_lgr (c : Ctx) (r : Reg8) (v : IWord) : (c.setH r v).lgr = c.lgr := rfl
@[simp] theorem Ctx.setH_pend (c : Ctx) (r : Reg8) (v : IWord) : (c.setH r v).pend = c.pend := rfl
@[simp] theorem Ctx.setH_resv (c : Ctx) (r : Reg8) (v : IWord) : (c.setH r v).resv = c.resv := rfl
@[simp] theorem Ctx.setH_relp (c : Ctx) (r : Reg8) (v : IWord) : (c.setH r v).relp = c.relp := rfl
@[simp] theorem Ctx.setH_recs (c : Ctx) (r : Reg8) (v : IWord) : (c.setH r v).recs = c.recs := rfl
@[simp] theorem Ctx.setH_hunit (c : Ctx) (r : Reg8) (v : IWord) : (c.setH r v).hunit = c.hunit := rfl
@[simp] theorem Ctx.setH_frame (c : Ctx) (r : Reg8) (v : IWord) : (c.setH r v).frame = c.frame := rfl
@[simp] theorem Ctx.setH_resume (c : Ctx) (r : Reg8) (v : IWord) : (c.setH r v).resume = c.resume := rfl
@[simp] theorem Ctx.setH_run (c : Ctx) (r : Reg8) (v : IWord) : (c.setH r v).run = c.run := rfl
@[simp] theorem Ctx.setH_last (c : Ctx) (r : Reg8) (v : IWord) : (c.setH r v).last = c.last := rfl
@[simp] theorem Ctx.setH_wait (c : Ctx) (r : Reg8) (v : IWord) : (c.setH r v).wait = c.wait := rfl
@[simp] theorem Ctx.setH_reissue (c : Ctx) (r : Reg8) (v : IWord) : (c.setH r v).reissue = c.reissue := rfl
@[simp] theorem Ctx.setH_launch (c : Ctx) (r : Reg8) (v : IWord) : (c.setH r v).launch = c.launch := rfl

-- Ctx.setV

@[simp] theorem Ctx.setV_state (c : Ctx) (r : Reg8) (v : VWord) : (c.setV r v).state = c.state := rfl
@[simp] theorem Ctx.setV_why (c : Ctx) (r : Reg8) (v : VWord) : (c.setV r v).why = c.why := rfl
@[simp] theorem Ctx.setV_g (c : Ctx) (r : Reg8) (v : VWord) : (c.setV r v).g = c.g := rfl
@[simp] theorem Ctx.setV_f (c : Ctx) (r : Reg8) (v : VWord) : (c.setV r v).f = c.f := rfl
@[simp] theorem Ctx.setV_p (c : Ctx) (r : Reg8) (v : VWord) : (c.setV r v).p = c.p := rfl
@[simp] theorem Ctx.setV_h (c : Ctx) (r : Reg8) (v : VWord) : (c.setV r v).h = c.h := rfl
@[simp] theorem Ctx.setV_m (c : Ctx) (r : Reg8) (v : VWord) : (c.setV r v).m = c.m := rfl
@[simp] theorem Ctx.setV_pc (c : Ctx) (r : Reg8) (v : VWord) : (c.setV r v).pc = c.pc := rfl
@[simp] theorem Ctx.setV_stat (c : Ctx) (r : Reg8) (v : VWord) : (c.setV r v).stat = c.stat := rfl
@[simp] theorem Ctx.setV_rcnt (c : Ctx) (r : Reg8) (v : VWord) : (c.setV r v).rcnt = c.rcnt := rfl
@[simp] theorem Ctx.setV_tag (c : Ctx) (r : Reg8) (v : VWord) : (c.setV r v).tag = c.tag := rfl
@[simp] theorem Ctx.setV_tvec (c : Ctx) (r : Reg8) (v : VWord) : (c.setV r v).tvec = c.tvec := rfl
@[simp] theorem Ctx.setV_tepc (c : Ctx) (r : Reg8) (v : VWord) : (c.setV r v).tepc = c.tepc := rfl
@[simp] theorem Ctx.setV_tcause (c : Ctx) (r : Reg8) (v : VWord) : (c.setV r v).tcause = c.tcause := rfl
@[simp] theorem Ctx.setV_tval (c : Ctx) (r : Reg8) (v : VWord) : (c.setV r v).tval = c.tval := rfl
@[simp] theorem Ctx.setV_sret (c : Ctx) (r : Reg8) (v : VWord) : (c.setV r v).sret = c.sret := rfl
@[simp] theorem Ctx.setV_deleg (c : Ctx) (r : Reg8) (v : VWord) : (c.setV r v).deleg = c.deleg := rfl
@[simp] theorem Ctx.setV_tid (c : Ctx) (r : Reg8) (v : VWord) : (c.setV r v).tid = c.tid := rfl
@[simp] theorem Ctx.setV_fnp (c : Ctx) (r : Reg8) (v : VWord) : (c.setV r v).fnp = c.fnp := rfl
@[simp] theorem Ctx.setV_timer (c : Ctx) (r : Reg8) (v : VWord) : (c.setV r v).timer = c.timer := rfl
@[simp] theorem Ctx.setV_lrr (c : Ctx) (r : Reg8) (v : VWord) : (c.setV r v).lrr = c.lrr := rfl
@[simp] theorem Ctx.setV_lgr (c : Ctx) (r : Reg8) (v : VWord) : (c.setV r v).lgr = c.lgr := rfl
@[simp] theorem Ctx.setV_pend (c : Ctx) (r : Reg8) (v : VWord) : (c.setV r v).pend = c.pend := rfl
@[simp] theorem Ctx.setV_resv (c : Ctx) (r : Reg8) (v : VWord) : (c.setV r v).resv = c.resv := rfl
@[simp] theorem Ctx.setV_relp (c : Ctx) (r : Reg8) (v : VWord) : (c.setV r v).relp = c.relp := rfl
@[simp] theorem Ctx.setV_recs (c : Ctx) (r : Reg8) (v : VWord) : (c.setV r v).recs = c.recs := rfl
@[simp] theorem Ctx.setV_hunit (c : Ctx) (r : Reg8) (v : VWord) : (c.setV r v).hunit = c.hunit := rfl
@[simp] theorem Ctx.setV_frame (c : Ctx) (r : Reg8) (v : VWord) : (c.setV r v).frame = c.frame := rfl
@[simp] theorem Ctx.setV_resume (c : Ctx) (r : Reg8) (v : VWord) : (c.setV r v).resume = c.resume := rfl
@[simp] theorem Ctx.setV_run (c : Ctx) (r : Reg8) (v : VWord) : (c.setV r v).run = c.run := rfl
@[simp] theorem Ctx.setV_last (c : Ctx) (r : Reg8) (v : VWord) : (c.setV r v).last = c.last := rfl
@[simp] theorem Ctx.setV_wait (c : Ctx) (r : Reg8) (v : VWord) : (c.setV r v).wait = c.wait := rfl
@[simp] theorem Ctx.setV_reissue (c : Ctx) (r : Reg8) (v : VWord) : (c.setV r v).reissue = c.reissue := rfl
@[simp] theorem Ctx.setV_launch (c : Ctx) (r : Reg8) (v : VWord) : (c.setV r v).launch = c.launch := rfl

-- Ctx.setP

@[simp] theorem Ctx.setP_state (c : Ctx) (r : Reg8) (b : Bool) : (c.setP r b).state = c.state := by unfold Ctx.setP; split <;> rfl
@[simp] theorem Ctx.setP_why (c : Ctx) (r : Reg8) (b : Bool) : (c.setP r b).why = c.why := by unfold Ctx.setP; split <;> rfl
@[simp] theorem Ctx.setP_g (c : Ctx) (r : Reg8) (b : Bool) : (c.setP r b).g = c.g := by unfold Ctx.setP; split <;> rfl
@[simp] theorem Ctx.setP_f (c : Ctx) (r : Reg8) (b : Bool) : (c.setP r b).f = c.f := by unfold Ctx.setP; split <;> rfl
@[simp] theorem Ctx.setP_h (c : Ctx) (r : Reg8) (b : Bool) : (c.setP r b).h = c.h := by unfold Ctx.setP; split <;> rfl
@[simp] theorem Ctx.setP_v (c : Ctx) (r : Reg8) (b : Bool) : (c.setP r b).v = c.v := by unfold Ctx.setP; split <;> rfl
@[simp] theorem Ctx.setP_m (c : Ctx) (r : Reg8) (b : Bool) : (c.setP r b).m = c.m := by unfold Ctx.setP; split <;> rfl
@[simp] theorem Ctx.setP_pc (c : Ctx) (r : Reg8) (b : Bool) : (c.setP r b).pc = c.pc := by unfold Ctx.setP; split <;> rfl
@[simp] theorem Ctx.setP_stat (c : Ctx) (r : Reg8) (b : Bool) : (c.setP r b).stat = c.stat := by unfold Ctx.setP; split <;> rfl
@[simp] theorem Ctx.setP_rcnt (c : Ctx) (r : Reg8) (b : Bool) : (c.setP r b).rcnt = c.rcnt := by unfold Ctx.setP; split <;> rfl
@[simp] theorem Ctx.setP_tag (c : Ctx) (r : Reg8) (b : Bool) : (c.setP r b).tag = c.tag := by unfold Ctx.setP; split <;> rfl
@[simp] theorem Ctx.setP_tvec (c : Ctx) (r : Reg8) (b : Bool) : (c.setP r b).tvec = c.tvec := by unfold Ctx.setP; split <;> rfl
@[simp] theorem Ctx.setP_tepc (c : Ctx) (r : Reg8) (b : Bool) : (c.setP r b).tepc = c.tepc := by unfold Ctx.setP; split <;> rfl
@[simp] theorem Ctx.setP_tcause (c : Ctx) (r : Reg8) (b : Bool) : (c.setP r b).tcause = c.tcause := by unfold Ctx.setP; split <;> rfl
@[simp] theorem Ctx.setP_tval (c : Ctx) (r : Reg8) (b : Bool) : (c.setP r b).tval = c.tval := by unfold Ctx.setP; split <;> rfl
@[simp] theorem Ctx.setP_sret (c : Ctx) (r : Reg8) (b : Bool) : (c.setP r b).sret = c.sret := by unfold Ctx.setP; split <;> rfl
@[simp] theorem Ctx.setP_deleg (c : Ctx) (r : Reg8) (b : Bool) : (c.setP r b).deleg = c.deleg := by unfold Ctx.setP; split <;> rfl
@[simp] theorem Ctx.setP_tid (c : Ctx) (r : Reg8) (b : Bool) : (c.setP r b).tid = c.tid := by unfold Ctx.setP; split <;> rfl
@[simp] theorem Ctx.setP_fnp (c : Ctx) (r : Reg8) (b : Bool) : (c.setP r b).fnp = c.fnp := by unfold Ctx.setP; split <;> rfl
@[simp] theorem Ctx.setP_timer (c : Ctx) (r : Reg8) (b : Bool) : (c.setP r b).timer = c.timer := by unfold Ctx.setP; split <;> rfl
@[simp] theorem Ctx.setP_lrr (c : Ctx) (r : Reg8) (b : Bool) : (c.setP r b).lrr = c.lrr := by unfold Ctx.setP; split <;> rfl
@[simp] theorem Ctx.setP_lgr (c : Ctx) (r : Reg8) (b : Bool) : (c.setP r b).lgr = c.lgr := by unfold Ctx.setP; split <;> rfl
@[simp] theorem Ctx.setP_pend (c : Ctx) (r : Reg8) (b : Bool) : (c.setP r b).pend = c.pend := by unfold Ctx.setP; split <;> rfl
@[simp] theorem Ctx.setP_resv (c : Ctx) (r : Reg8) (b : Bool) : (c.setP r b).resv = c.resv := by unfold Ctx.setP; split <;> rfl
@[simp] theorem Ctx.setP_relp (c : Ctx) (r : Reg8) (b : Bool) : (c.setP r b).relp = c.relp := by unfold Ctx.setP; split <;> rfl
@[simp] theorem Ctx.setP_recs (c : Ctx) (r : Reg8) (b : Bool) : (c.setP r b).recs = c.recs := by unfold Ctx.setP; split <;> rfl
@[simp] theorem Ctx.setP_hunit (c : Ctx) (r : Reg8) (b : Bool) : (c.setP r b).hunit = c.hunit := by unfold Ctx.setP; split <;> rfl
@[simp] theorem Ctx.setP_frame (c : Ctx) (r : Reg8) (b : Bool) : (c.setP r b).frame = c.frame := by unfold Ctx.setP; split <;> rfl
@[simp] theorem Ctx.setP_resume (c : Ctx) (r : Reg8) (b : Bool) : (c.setP r b).resume = c.resume := by unfold Ctx.setP; split <;> rfl
@[simp] theorem Ctx.setP_run (c : Ctx) (r : Reg8) (b : Bool) : (c.setP r b).run = c.run := by unfold Ctx.setP; split <;> rfl
@[simp] theorem Ctx.setP_last (c : Ctx) (r : Reg8) (b : Bool) : (c.setP r b).last = c.last := by unfold Ctx.setP; split <;> rfl
@[simp] theorem Ctx.setP_wait (c : Ctx) (r : Reg8) (b : Bool) : (c.setP r b).wait = c.wait := by unfold Ctx.setP; split <;> rfl
@[simp] theorem Ctx.setP_reissue (c : Ctx) (r : Reg8) (b : Bool) : (c.setP r b).reissue = c.reissue := by unfold Ctx.setP; split <;> rfl
@[simp] theorem Ctx.setP_launch (c : Ctx) (r : Reg8) (b : Bool) : (c.setP r b).launch = c.launch := by unfold Ctx.setP; split <;> rfl

-- Ctx.setM

@[simp] theorem Ctx.setM_state (c : Ctx) (r : Reg4) (v : IWord) : (c.setM r v).state = c.state := by unfold Ctx.setM; split <;> rfl
@[simp] theorem Ctx.setM_why (c : Ctx) (r : Reg4) (v : IWord) : (c.setM r v).why = c.why := by unfold Ctx.setM; split <;> rfl
@[simp] theorem Ctx.setM_g (c : Ctx) (r : Reg4) (v : IWord) : (c.setM r v).g = c.g := by unfold Ctx.setM; split <;> rfl
@[simp] theorem Ctx.setM_f (c : Ctx) (r : Reg4) (v : IWord) : (c.setM r v).f = c.f := by unfold Ctx.setM; split <;> rfl
@[simp] theorem Ctx.setM_p (c : Ctx) (r : Reg4) (v : IWord) : (c.setM r v).p = c.p := by unfold Ctx.setM; split <;> rfl
@[simp] theorem Ctx.setM_h (c : Ctx) (r : Reg4) (v : IWord) : (c.setM r v).h = c.h := by unfold Ctx.setM; split <;> rfl
@[simp] theorem Ctx.setM_v (c : Ctx) (r : Reg4) (v : IWord) : (c.setM r v).v = c.v := by unfold Ctx.setM; split <;> rfl
@[simp] theorem Ctx.setM_pc (c : Ctx) (r : Reg4) (v : IWord) : (c.setM r v).pc = c.pc := by unfold Ctx.setM; split <;> rfl
@[simp] theorem Ctx.setM_stat (c : Ctx) (r : Reg4) (v : IWord) : (c.setM r v).stat = c.stat := by unfold Ctx.setM; split <;> rfl
@[simp] theorem Ctx.setM_rcnt (c : Ctx) (r : Reg4) (v : IWord) : (c.setM r v).rcnt = c.rcnt := by unfold Ctx.setM; split <;> rfl
@[simp] theorem Ctx.setM_tag (c : Ctx) (r : Reg4) (v : IWord) : (c.setM r v).tag = c.tag := by unfold Ctx.setM; split <;> rfl
@[simp] theorem Ctx.setM_tvec (c : Ctx) (r : Reg4) (v : IWord) : (c.setM r v).tvec = c.tvec := by unfold Ctx.setM; split <;> rfl
@[simp] theorem Ctx.setM_tepc (c : Ctx) (r : Reg4) (v : IWord) : (c.setM r v).tepc = c.tepc := by unfold Ctx.setM; split <;> rfl
@[simp] theorem Ctx.setM_tcause (c : Ctx) (r : Reg4) (v : IWord) : (c.setM r v).tcause = c.tcause := by unfold Ctx.setM; split <;> rfl
@[simp] theorem Ctx.setM_tval (c : Ctx) (r : Reg4) (v : IWord) : (c.setM r v).tval = c.tval := by unfold Ctx.setM; split <;> rfl
@[simp] theorem Ctx.setM_sret (c : Ctx) (r : Reg4) (v : IWord) : (c.setM r v).sret = c.sret := by unfold Ctx.setM; split <;> rfl
@[simp] theorem Ctx.setM_deleg (c : Ctx) (r : Reg4) (v : IWord) : (c.setM r v).deleg = c.deleg := by unfold Ctx.setM; split <;> rfl
@[simp] theorem Ctx.setM_tid (c : Ctx) (r : Reg4) (v : IWord) : (c.setM r v).tid = c.tid := by unfold Ctx.setM; split <;> rfl
@[simp] theorem Ctx.setM_fnp (c : Ctx) (r : Reg4) (v : IWord) : (c.setM r v).fnp = c.fnp := by unfold Ctx.setM; split <;> rfl
@[simp] theorem Ctx.setM_timer (c : Ctx) (r : Reg4) (v : IWord) : (c.setM r v).timer = c.timer := by unfold Ctx.setM; split <;> rfl
@[simp] theorem Ctx.setM_lrr (c : Ctx) (r : Reg4) (v : IWord) : (c.setM r v).lrr = c.lrr := by unfold Ctx.setM; split <;> rfl
@[simp] theorem Ctx.setM_lgr (c : Ctx) (r : Reg4) (v : IWord) : (c.setM r v).lgr = c.lgr := by unfold Ctx.setM; split <;> rfl
@[simp] theorem Ctx.setM_pend (c : Ctx) (r : Reg4) (v : IWord) : (c.setM r v).pend = c.pend := by unfold Ctx.setM; split <;> rfl
@[simp] theorem Ctx.setM_resv (c : Ctx) (r : Reg4) (v : IWord) : (c.setM r v).resv = c.resv := by unfold Ctx.setM; split <;> rfl
@[simp] theorem Ctx.setM_relp (c : Ctx) (r : Reg4) (v : IWord) : (c.setM r v).relp = c.relp := by unfold Ctx.setM; split <;> rfl
@[simp] theorem Ctx.setM_recs (c : Ctx) (r : Reg4) (v : IWord) : (c.setM r v).recs = c.recs := by unfold Ctx.setM; split <;> rfl
@[simp] theorem Ctx.setM_hunit (c : Ctx) (r : Reg4) (v : IWord) : (c.setM r v).hunit = c.hunit := by unfold Ctx.setM; split <;> rfl
@[simp] theorem Ctx.setM_frame (c : Ctx) (r : Reg4) (v : IWord) : (c.setM r v).frame = c.frame := by unfold Ctx.setM; split <;> rfl
@[simp] theorem Ctx.setM_resume (c : Ctx) (r : Reg4) (v : IWord) : (c.setM r v).resume = c.resume := by unfold Ctx.setM; split <;> rfl
@[simp] theorem Ctx.setM_run (c : Ctx) (r : Reg4) (v : IWord) : (c.setM r v).run = c.run := by unfold Ctx.setM; split <;> rfl
@[simp] theorem Ctx.setM_last (c : Ctx) (r : Reg4) (v : IWord) : (c.setM r v).last = c.last := by unfold Ctx.setM; split <;> rfl
@[simp] theorem Ctx.setM_wait (c : Ctx) (r : Reg4) (v : IWord) : (c.setM r v).wait = c.wait := by unfold Ctx.setM; split <;> rfl
@[simp] theorem Ctx.setM_reissue (c : Ctx) (r : Reg4) (v : IWord) : (c.setM r v).reissue = c.reissue := by unfold Ctx.setM; split <;> rfl
@[simp] theorem Ctx.setM_launch (c : Ctx) (r : Reg4) (v : IWord) : (c.setM r v).launch = c.launch := by unfold Ctx.setM; split <;> rfl

-- Ctx.flags

@[simp] theorem Ctx.flags_state (c : Ctx) (g : FFlags) : (c.flags g).state = c.state := rfl
@[simp] theorem Ctx.flags_why (c : Ctx) (g : FFlags) : (c.flags g).why = c.why := rfl
@[simp] theorem Ctx.flags_g (c : Ctx) (g : FFlags) : (c.flags g).g = c.g := rfl
@[simp] theorem Ctx.flags_f (c : Ctx) (g : FFlags) : (c.flags g).f = c.f := rfl
@[simp] theorem Ctx.flags_p (c : Ctx) (g : FFlags) : (c.flags g).p = c.p := rfl
@[simp] theorem Ctx.flags_h (c : Ctx) (g : FFlags) : (c.flags g).h = c.h := rfl
@[simp] theorem Ctx.flags_v (c : Ctx) (g : FFlags) : (c.flags g).v = c.v := rfl
@[simp] theorem Ctx.flags_m (c : Ctx) (g : FFlags) : (c.flags g).m = c.m := rfl
@[simp] theorem Ctx.flags_pc (c : Ctx) (g : FFlags) : (c.flags g).pc = c.pc := rfl
@[simp] theorem Ctx.flags_rcnt (c : Ctx) (g : FFlags) : (c.flags g).rcnt = c.rcnt := rfl
@[simp] theorem Ctx.flags_tag (c : Ctx) (g : FFlags) : (c.flags g).tag = c.tag := rfl
@[simp] theorem Ctx.flags_tvec (c : Ctx) (g : FFlags) : (c.flags g).tvec = c.tvec := rfl
@[simp] theorem Ctx.flags_tepc (c : Ctx) (g : FFlags) : (c.flags g).tepc = c.tepc := rfl
@[simp] theorem Ctx.flags_tcause (c : Ctx) (g : FFlags) : (c.flags g).tcause = c.tcause := rfl
@[simp] theorem Ctx.flags_tval (c : Ctx) (g : FFlags) : (c.flags g).tval = c.tval := rfl
@[simp] theorem Ctx.flags_sret (c : Ctx) (g : FFlags) : (c.flags g).sret = c.sret := rfl
@[simp] theorem Ctx.flags_deleg (c : Ctx) (g : FFlags) : (c.flags g).deleg = c.deleg := rfl
@[simp] theorem Ctx.flags_tid (c : Ctx) (g : FFlags) : (c.flags g).tid = c.tid := rfl
@[simp] theorem Ctx.flags_fnp (c : Ctx) (g : FFlags) : (c.flags g).fnp = c.fnp := rfl
@[simp] theorem Ctx.flags_timer (c : Ctx) (g : FFlags) : (c.flags g).timer = c.timer := rfl
@[simp] theorem Ctx.flags_lrr (c : Ctx) (g : FFlags) : (c.flags g).lrr = c.lrr := rfl
@[simp] theorem Ctx.flags_lgr (c : Ctx) (g : FFlags) : (c.flags g).lgr = c.lgr := rfl
@[simp] theorem Ctx.flags_pend (c : Ctx) (g : FFlags) : (c.flags g).pend = c.pend := rfl
@[simp] theorem Ctx.flags_resv (c : Ctx) (g : FFlags) : (c.flags g).resv = c.resv := rfl
@[simp] theorem Ctx.flags_relp (c : Ctx) (g : FFlags) : (c.flags g).relp = c.relp := rfl
@[simp] theorem Ctx.flags_recs (c : Ctx) (g : FFlags) : (c.flags g).recs = c.recs := rfl
@[simp] theorem Ctx.flags_hunit (c : Ctx) (g : FFlags) : (c.flags g).hunit = c.hunit := rfl
@[simp] theorem Ctx.flags_frame (c : Ctx) (g : FFlags) : (c.flags g).frame = c.frame := rfl
@[simp] theorem Ctx.flags_resume (c : Ctx) (g : FFlags) : (c.flags g).resume = c.resume := rfl
@[simp] theorem Ctx.flags_run (c : Ctx) (g : FFlags) : (c.flags g).run = c.run := rfl
@[simp] theorem Ctx.flags_last (c : Ctx) (g : FFlags) : (c.flags g).last = c.last := rfl
@[simp] theorem Ctx.flags_wait (c : Ctx) (g : FFlags) : (c.flags g).wait = c.wait := rfl
@[simp] theorem Ctx.flags_reissue (c : Ctx) (g : FFlags) : (c.flags g).reissue = c.reissue := rfl
@[simp] theorem Ctx.flags_launch (c : Ctx) (g : FFlags) : (c.flags g).launch = c.launch := rfl

-- Ctx.goto

@[simp] theorem Ctx.goto_state (c : Ctx) (a : Word) : (c.goto a).state = c.state := rfl
@[simp] theorem Ctx.goto_why (c : Ctx) (a : Word) : (c.goto a).why = c.why := rfl
@[simp] theorem Ctx.goto_g (c : Ctx) (a : Word) : (c.goto a).g = c.g := rfl
@[simp] theorem Ctx.goto_f (c : Ctx) (a : Word) : (c.goto a).f = c.f := rfl
@[simp] theorem Ctx.goto_p (c : Ctx) (a : Word) : (c.goto a).p = c.p := rfl
@[simp] theorem Ctx.goto_h (c : Ctx) (a : Word) : (c.goto a).h = c.h := rfl
@[simp] theorem Ctx.goto_v (c : Ctx) (a : Word) : (c.goto a).v = c.v := rfl
@[simp] theorem Ctx.goto_m (c : Ctx) (a : Word) : (c.goto a).m = c.m := rfl
@[simp] theorem Ctx.goto_stat (c : Ctx) (a : Word) : (c.goto a).stat = c.stat := rfl
@[simp] theorem Ctx.goto_rcnt (c : Ctx) (a : Word) : (c.goto a).rcnt = c.rcnt := rfl
@[simp] theorem Ctx.goto_tag (c : Ctx) (a : Word) : (c.goto a).tag = c.tag := rfl
@[simp] theorem Ctx.goto_tvec (c : Ctx) (a : Word) : (c.goto a).tvec = c.tvec := rfl
@[simp] theorem Ctx.goto_tepc (c : Ctx) (a : Word) : (c.goto a).tepc = c.tepc := rfl
@[simp] theorem Ctx.goto_tcause (c : Ctx) (a : Word) : (c.goto a).tcause = c.tcause := rfl
@[simp] theorem Ctx.goto_tval (c : Ctx) (a : Word) : (c.goto a).tval = c.tval := rfl
@[simp] theorem Ctx.goto_sret (c : Ctx) (a : Word) : (c.goto a).sret = c.sret := rfl
@[simp] theorem Ctx.goto_deleg (c : Ctx) (a : Word) : (c.goto a).deleg = c.deleg := rfl
@[simp] theorem Ctx.goto_tid (c : Ctx) (a : Word) : (c.goto a).tid = c.tid := rfl
@[simp] theorem Ctx.goto_fnp (c : Ctx) (a : Word) : (c.goto a).fnp = c.fnp := rfl
@[simp] theorem Ctx.goto_timer (c : Ctx) (a : Word) : (c.goto a).timer = c.timer := rfl
@[simp] theorem Ctx.goto_lrr (c : Ctx) (a : Word) : (c.goto a).lrr = c.lrr := rfl
@[simp] theorem Ctx.goto_lgr (c : Ctx) (a : Word) : (c.goto a).lgr = c.lgr := rfl
@[simp] theorem Ctx.goto_pend (c : Ctx) (a : Word) : (c.goto a).pend = c.pend := rfl
@[simp] theorem Ctx.goto_resv (c : Ctx) (a : Word) : (c.goto a).resv = c.resv := rfl
@[simp] theorem Ctx.goto_relp (c : Ctx) (a : Word) : (c.goto a).relp = c.relp := rfl
@[simp] theorem Ctx.goto_recs (c : Ctx) (a : Word) : (c.goto a).recs = c.recs := rfl
@[simp] theorem Ctx.goto_hunit (c : Ctx) (a : Word) : (c.goto a).hunit = c.hunit := rfl
@[simp] theorem Ctx.goto_resume (c : Ctx) (a : Word) : (c.goto a).resume = c.resume := rfl
@[simp] theorem Ctx.goto_last (c : Ctx) (a : Word) : (c.goto a).last = c.last := rfl
@[simp] theorem Ctx.goto_wait (c : Ctx) (a : Word) : (c.goto a).wait = c.wait := rfl
@[simp] theorem Ctx.goto_reissue (c : Ctx) (a : Word) : (c.goto a).reissue = c.reissue := rfl
@[simp] theorem Ctx.goto_launch (c : Ctx) (a : Word) : (c.goto a).launch = c.launch := rfl

-- Ctx.ready

@[simp] theorem Ctx.ready_g (c : Ctx) : (c.ready).g = c.g := rfl
@[simp] theorem Ctx.ready_f (c : Ctx) : (c.ready).f = c.f := rfl
@[simp] theorem Ctx.ready_p (c : Ctx) : (c.ready).p = c.p := rfl
@[simp] theorem Ctx.ready_h (c : Ctx) : (c.ready).h = c.h := rfl
@[simp] theorem Ctx.ready_v (c : Ctx) : (c.ready).v = c.v := rfl
@[simp] theorem Ctx.ready_m (c : Ctx) : (c.ready).m = c.m := rfl
@[simp] theorem Ctx.ready_pc (c : Ctx) : (c.ready).pc = c.pc := rfl
@[simp] theorem Ctx.ready_stat (c : Ctx) : (c.ready).stat = c.stat := rfl
@[simp] theorem Ctx.ready_rcnt (c : Ctx) : (c.ready).rcnt = c.rcnt := rfl
@[simp] theorem Ctx.ready_tag (c : Ctx) : (c.ready).tag = c.tag := rfl
@[simp] theorem Ctx.ready_tvec (c : Ctx) : (c.ready).tvec = c.tvec := rfl
@[simp] theorem Ctx.ready_tepc (c : Ctx) : (c.ready).tepc = c.tepc := rfl
@[simp] theorem Ctx.ready_tcause (c : Ctx) : (c.ready).tcause = c.tcause := rfl
@[simp] theorem Ctx.ready_tval (c : Ctx) : (c.ready).tval = c.tval := rfl
@[simp] theorem Ctx.ready_sret (c : Ctx) : (c.ready).sret = c.sret := rfl
@[simp] theorem Ctx.ready_deleg (c : Ctx) : (c.ready).deleg = c.deleg := rfl
@[simp] theorem Ctx.ready_tid (c : Ctx) : (c.ready).tid = c.tid := rfl
@[simp] theorem Ctx.ready_fnp (c : Ctx) : (c.ready).fnp = c.fnp := rfl
@[simp] theorem Ctx.ready_timer (c : Ctx) : (c.ready).timer = c.timer := rfl
@[simp] theorem Ctx.ready_lrr (c : Ctx) : (c.ready).lrr = c.lrr := rfl
@[simp] theorem Ctx.ready_lgr (c : Ctx) : (c.ready).lgr = c.lgr := rfl
@[simp] theorem Ctx.ready_pend (c : Ctx) : (c.ready).pend = c.pend := rfl
@[simp] theorem Ctx.ready_resv (c : Ctx) : (c.ready).resv = c.resv := rfl
@[simp] theorem Ctx.ready_relp (c : Ctx) : (c.ready).relp = c.relp := rfl
@[simp] theorem Ctx.ready_recs (c : Ctx) : (c.ready).recs = c.recs := rfl
@[simp] theorem Ctx.ready_hunit (c : Ctx) : (c.ready).hunit = c.hunit := rfl
@[simp] theorem Ctx.ready_frame (c : Ctx) : (c.ready).frame = c.frame := rfl
@[simp] theorem Ctx.ready_resume (c : Ctx) : (c.ready).resume = c.resume := rfl
@[simp] theorem Ctx.ready_run (c : Ctx) : (c.ready).run = c.run := rfl
@[simp] theorem Ctx.ready_last (c : Ctx) : (c.ready).last = c.last := rfl
@[simp] theorem Ctx.ready_launch (c : Ctx) : (c.ready).launch = c.launch := rfl

-- Ctx.advance

theorem Ctx.frameNext_eq (fr : Frame) (c : Ctx) :
    c.frameNext fr = { c with pc := (c.frameNext fr).pc, stat := (c.frameNext fr).stat, frame := (c.frameNext fr).frame } := by
  simp only [Ctx.frameNext]
  split
  · split <;> rfl
  · split <;> rfl

theorem Ctx.advance_eq (n : Nat) (c : Ctx) :
    c.advance n = { c with pc := (c.advance n).pc, stat := (c.advance n).stat, frame := (c.advance n).frame } := by
  simp only [Ctx.advance]
  split
  · exact Ctx.frameNext_eq _ c
  · rfl

@[simp] theorem Ctx.advance_state (c : Ctx) (n : Nat) : (c.advance n).state = c.state :=
  (congrArg Ctx.state (Ctx.advance_eq n c)).trans rfl
@[simp] theorem Ctx.advance_why (c : Ctx) (n : Nat) : (c.advance n).why = c.why :=
  (congrArg Ctx.why (Ctx.advance_eq n c)).trans rfl
@[simp] theorem Ctx.advance_g (c : Ctx) (n : Nat) : (c.advance n).g = c.g :=
  (congrArg Ctx.g (Ctx.advance_eq n c)).trans rfl
@[simp] theorem Ctx.advance_f (c : Ctx) (n : Nat) : (c.advance n).f = c.f :=
  (congrArg Ctx.f (Ctx.advance_eq n c)).trans rfl
@[simp] theorem Ctx.advance_p (c : Ctx) (n : Nat) : (c.advance n).p = c.p :=
  (congrArg Ctx.p (Ctx.advance_eq n c)).trans rfl
@[simp] theorem Ctx.advance_h (c : Ctx) (n : Nat) : (c.advance n).h = c.h :=
  (congrArg Ctx.h (Ctx.advance_eq n c)).trans rfl
@[simp] theorem Ctx.advance_v (c : Ctx) (n : Nat) : (c.advance n).v = c.v :=
  (congrArg Ctx.v (Ctx.advance_eq n c)).trans rfl
@[simp] theorem Ctx.advance_m (c : Ctx) (n : Nat) : (c.advance n).m = c.m :=
  (congrArg Ctx.m (Ctx.advance_eq n c)).trans rfl
@[simp] theorem Ctx.advance_rcnt (c : Ctx) (n : Nat) : (c.advance n).rcnt = c.rcnt :=
  (congrArg Ctx.rcnt (Ctx.advance_eq n c)).trans rfl
@[simp] theorem Ctx.advance_tag (c : Ctx) (n : Nat) : (c.advance n).tag = c.tag :=
  (congrArg Ctx.tag (Ctx.advance_eq n c)).trans rfl
@[simp] theorem Ctx.advance_tvec (c : Ctx) (n : Nat) : (c.advance n).tvec = c.tvec :=
  (congrArg Ctx.tvec (Ctx.advance_eq n c)).trans rfl
@[simp] theorem Ctx.advance_tepc (c : Ctx) (n : Nat) : (c.advance n).tepc = c.tepc :=
  (congrArg Ctx.tepc (Ctx.advance_eq n c)).trans rfl
@[simp] theorem Ctx.advance_tcause (c : Ctx) (n : Nat) : (c.advance n).tcause = c.tcause :=
  (congrArg Ctx.tcause (Ctx.advance_eq n c)).trans rfl
@[simp] theorem Ctx.advance_tval (c : Ctx) (n : Nat) : (c.advance n).tval = c.tval :=
  (congrArg Ctx.tval (Ctx.advance_eq n c)).trans rfl
@[simp] theorem Ctx.advance_sret (c : Ctx) (n : Nat) : (c.advance n).sret = c.sret :=
  (congrArg Ctx.sret (Ctx.advance_eq n c)).trans rfl
@[simp] theorem Ctx.advance_deleg (c : Ctx) (n : Nat) : (c.advance n).deleg = c.deleg :=
  (congrArg Ctx.deleg (Ctx.advance_eq n c)).trans rfl
@[simp] theorem Ctx.advance_tid (c : Ctx) (n : Nat) : (c.advance n).tid = c.tid :=
  (congrArg Ctx.tid (Ctx.advance_eq n c)).trans rfl
@[simp] theorem Ctx.advance_fnp (c : Ctx) (n : Nat) : (c.advance n).fnp = c.fnp :=
  (congrArg Ctx.fnp (Ctx.advance_eq n c)).trans rfl
@[simp] theorem Ctx.advance_timer (c : Ctx) (n : Nat) : (c.advance n).timer = c.timer :=
  (congrArg Ctx.timer (Ctx.advance_eq n c)).trans rfl
@[simp] theorem Ctx.advance_lrr (c : Ctx) (n : Nat) : (c.advance n).lrr = c.lrr :=
  (congrArg Ctx.lrr (Ctx.advance_eq n c)).trans rfl
@[simp] theorem Ctx.advance_lgr (c : Ctx) (n : Nat) : (c.advance n).lgr = c.lgr :=
  (congrArg Ctx.lgr (Ctx.advance_eq n c)).trans rfl
@[simp] theorem Ctx.advance_pend (c : Ctx) (n : Nat) : (c.advance n).pend = c.pend :=
  (congrArg Ctx.pend (Ctx.advance_eq n c)).trans rfl
@[simp] theorem Ctx.advance_resv (c : Ctx) (n : Nat) : (c.advance n).resv = c.resv :=
  (congrArg Ctx.resv (Ctx.advance_eq n c)).trans rfl
@[simp] theorem Ctx.advance_relp (c : Ctx) (n : Nat) : (c.advance n).relp = c.relp :=
  (congrArg Ctx.relp (Ctx.advance_eq n c)).trans rfl
@[simp] theorem Ctx.advance_recs (c : Ctx) (n : Nat) : (c.advance n).recs = c.recs :=
  (congrArg Ctx.recs (Ctx.advance_eq n c)).trans rfl
@[simp] theorem Ctx.advance_hunit (c : Ctx) (n : Nat) : (c.advance n).hunit = c.hunit :=
  (congrArg Ctx.hunit (Ctx.advance_eq n c)).trans rfl
@[simp] theorem Ctx.advance_resume (c : Ctx) (n : Nat) : (c.advance n).resume = c.resume :=
  (congrArg Ctx.resume (Ctx.advance_eq n c)).trans rfl
@[simp] theorem Ctx.advance_run (c : Ctx) (n : Nat) : (c.advance n).run = c.run :=
  (congrArg Ctx.run (Ctx.advance_eq n c)).trans rfl
@[simp] theorem Ctx.advance_last (c : Ctx) (n : Nat) : (c.advance n).last = c.last :=
  (congrArg Ctx.last (Ctx.advance_eq n c)).trans rfl
@[simp] theorem Ctx.advance_wait (c : Ctx) (n : Nat) : (c.advance n).wait = c.wait :=
  (congrArg Ctx.wait (Ctx.advance_eq n c)).trans rfl
@[simp] theorem Ctx.advance_reissue (c : Ctx) (n : Nat) : (c.advance n).reissue = c.reissue :=
  (congrArg Ctx.reissue (Ctx.advance_eq n c)).trans rfl
@[simp] theorem Ctx.advance_launch (c : Ctx) (n : Nat) : (c.advance n).launch = c.launch :=
  (congrArg Ctx.launch (Ctx.advance_eq n c)).trans rfl

@[simp] theorem Ctx.setG_fx (c : Ctx) (r : GReg) (v : Word) : (c.setG r v).fx = c.fx := rfl
@[simp] theorem Ctx.setF_fx (c : Ctx) (r : Reg8) (v : Word) : (c.setF r v).fx = c.fx := rfl
@[simp] theorem Ctx.goto_pc (c : Ctx) (a : Word) : (c.goto a).pc = wrapPc a := rfl
@[simp] theorem Ctx.goto_run (c : Ctx) (a : Word) : (c.goto a).run = [] := rfl
@[simp] theorem Ctx.goto_frame (c : Ctx) (a : Word) : (c.goto a).frame = none := rfl
@[simp] theorem Ctx.ready_state (c : Ctx) : c.ready.state = .ready := rfl
@[simp] theorem Ctx.ready_why (c : Ctx) : c.ready.why = 0 := rfl
@[simp] theorem Ctx.ready_wait (c : Ctx) : c.ready.wait = none := rfl
@[simp] theorem Ctx.ready_reissue (c : Ctx) : c.ready.reissue = false := rfl

-- Reading a register after one was written

@[simp] theorem Ctx.gr_setG (c : Ctx) (r : GReg) (v : Word) : (c.setG r v).gr r = v := by
  simp [Ctx.gr, Ctx.setG]

theorem Ctx.gr_setG_ne (c : Ctx) (r q : GReg) (v : Word) (h : q ≠ r) : (c.setG r v).gr q = c.gr q := by
  have : r.toNat ≠ q.toNat := fun e => h (BitVec.eq_of_toNat_eq e.symm)
  simp [Ctx.gr, Ctx.setG, this]

@[simp] theorem Ctx.fr_setF (c : Ctx) (r : Reg8) (v : Word) : (c.setF r v).fr r = v := by
  simp [Ctx.fr, Ctx.setF]

theorem Ctx.fr_setF_ne (c : Ctx) (r q : Reg8) (v : Word) (h : q ≠ r) : (c.setF r v).fr q = c.fr q := by
  have : r.toNat ≠ q.toNat := fun e => h (BitVec.eq_of_toNat_eq e.symm)
  simp [Ctx.fr, Ctx.setF, this]

@[simp] theorem Ctx.vr_setV (c : Ctx) (r : Reg8) (v : VWord) : (c.setV r v).vr r = v := by
  simp [Ctx.vr, Ctx.setV]

theorem Ctx.vr_setV_ne (c : Ctx) (r q : Reg8) (v : VWord) (h : q ≠ r) : (c.setV r v).vr q = c.vr q := by
  have : r.toNat ≠ q.toNat := fun e => h (BitVec.eq_of_toNat_eq e.symm)
  simp [Ctx.vr, Ctx.setV, this]

@[simp] theorem Ctx.hr_setH (c : Ctx) (r : Reg8) (v : IWord) : (c.setH r v).hr r = v := by
  simp [Ctx.hr, Ctx.setH]

theorem Ctx.hr_setH_ne (c : Ctx) (r q : Reg8) (v : IWord) (h : q ≠ r) : (c.setH r v).hr q = c.hr q := by
  have : r.toNat ≠ q.toNat := fun e => h (BitVec.eq_of_toNat_eq e.symm)
  simp [Ctx.hr, Ctx.setH, this]

-- State.setCtx

@[simp] theorem State.setCtx_mem (s : State) (cx : Nat) (c : Ctx) : (s.setCtx cx c).mem = s.mem := rfl
@[simp] theorem State.setCtx_cores (s : State) (cx : Nat) (c : Ctx) : (s.setCtx cx c).cores = s.cores := rfl
@[simp] theorem State.setCtx_quads (s : State) (cx : Nat) (c : Ctx) : (s.setCtx cx c).quads = s.quads := rfl
@[simp] theorem State.setCtx_quadD (s : State) (cx : Nat) (c : Ctx) : (s.setCtx cx c).quadD = s.quadD := rfl
@[simp] theorem State.setCtx_clusters (s : State) (cx : Nat) (c : Ctx) : (s.setCtx cx c).clusters = s.clusters := rfl
@[simp] theorem State.setCtx_dies (s : State) (cx : Nat) (c : Ctx) : (s.setCtx cx c).dies = s.dies := rfl
@[simp] theorem State.setCtx_parts (s : State) (cx : Nat) (c : Ctx) : (s.setCtx cx c).parts = s.parts := rfl
@[simp] theorem State.setCtx_freeMarks (s : State) (cx : Nat) (c : Ctx) : (s.setCtx cx c).freeMarks = s.freeMarks := rfl
@[simp] theorem State.setCtx_tiles (s : State) (cx : Nat) (c : Ctx) : (s.setCtx cx c).tiles = s.tiles := rfl
@[simp] theorem State.setCtx_regions (s : State) (cx : Nat) (c : Ctx) : (s.setCtx cx c).regions = s.regions := rfl
@[simp] theorem State.setCtx_objs (s : State) (cx : Nat) (c : Ctx) : (s.setCtx cx c).objs = s.objs := rfl
@[simp] theorem State.setCtx_groups (s : State) (cx : Nat) (c : Ctx) : (s.setCtx cx c).groups = s.groups := rfl
@[simp] theorem State.setCtx_resvq (s : State) (cx : Nat) (c : Ctx) : (s.setCtx cx c).resvq = s.resvq := rfl
@[simp] theorem State.setCtx_watches (s : State) (cx : Nat) (c : Ctx) : (s.setCtx cx c).watches = s.watches := rfl
@[simp] theorem State.setCtx_cmds (s : State) (cx : Nat) (c : Ctx) : (s.setCtx cx c).cmds = s.cmds := rfl
@[simp] theorem State.setCtx_nextCmd (s : State) (cx : Nat) (c : Ctx) : (s.setCtx cx c).nextCmd = s.nextCmd := rfl
@[simp] theorem State.setCtx_launches (s : State) (cx : Nat) (c : Ctx) : (s.setCtx cx c).launches = s.launches := rfl
@[simp] theorem State.setCtx_nextLaunch (s : State) (cx : Nat) (c : Ctx) : (s.setCtx cx c).nextLaunch = s.nextLaunch := rfl
@[simp] theorem State.setCtx_graphs (s : State) (cx : Nat) (c : Ctx) : (s.setCtx cx c).graphs = s.graphs := rfl
@[simp] theorem State.setCtx_timers (s : State) (cx : Nat) (c : Ctx) : (s.setCtx cx c).timers = s.timers := rfl
@[simp] theorem State.setCtx_eps (s : State) (cx : Nat) (c : Ctx) : (s.setCtx cx c).eps = s.eps := rfl
@[simp] theorem State.setCtx_peers (s : State) (cx : Nat) (c : Ctx) : (s.setCtx cx c).peers = s.peers := rfl
@[simp] theorem State.setCtx_reds (s : State) (cx : Nat) (c : Ctx) : (s.setCtx cx c).reds = s.reds := rfl
@[simp] theorem State.setCtx_steps (s : State) (cx : Nat) (c : Ctx) : (s.setCtx cx c).steps = s.steps := rfl
@[simp] theorem State.setCtx_pkg (s : State) (cx : Nat) (c : Ctx) : (s.setCtx cx c).pkg = s.pkg := rfl
@[simp] theorem State.setCtx_now (s : State) (cx : Nat) (c : Ctx) : (s.setCtx cx c).now = s.now := rfl
@[simp] theorem State.setCtx_dieCyc (s : State) (cx : Nat) (c : Ctx) : (s.setCtx cx c).dieCyc = s.dieCyc := rfl
@[simp] theorem State.setCtx_cap (s : State) (cx : Nat) (c : Ctx) : (s.setCtx cx c).cap = s.cap := rfl
@[simp] theorem State.setCtx_capSeq (s : State) (cx : Nat) (c : Ctx) : (s.setCtx cx c).capSeq = s.capSeq := rfl
@[simp] theorem State.setCtx_lease (s : State) (cx : Nat) (c : Ctx) : (s.setCtx cx c).lease = s.lease := rfl
@[simp] theorem State.setCtx_lanternUp (s : State) (cx : Nat) (c : Ctx) : (s.setCtx cx c).lanternUp = s.lanternUp := rfl
@[simp] theorem State.setCtx_watchdog (s : State) (cx : Nat) (c : Ctx) : (s.setCtx cx c).watchdog = s.watchdog := rfl
@[simp] theorem State.setCtx_signal (s : State) (cx : Nat) (c : Ctx) : (s.setCtx cx c).signal = s.signal := rfl
@[simp] theorem State.setCtx_limiter (s : State) (cx : Nat) (c : Ctx) : (s.setCtx cx c).limiter = s.limiter := rfl
@[simp] theorem State.setCtx_service (s : State) (cx : Nat) (c : Ctx) : (s.setCtx cx c).service = s.service := rfl
@[simp] theorem State.setCtx_lantern (s : State) (cx : Nat) (c : Ctx) : (s.setCtx cx c).lantern = s.lantern := rfl
@[simp] theorem State.setCtx_kept (s : State) (cx : Nat) (c : Ctx) : (s.setCtx cx c).kept = s.kept := rfl
@[simp] theorem State.setCtx_stopped (s : State) (cx : Nat) (c : Ctx) : (s.setCtx cx c).stopped = s.stopped := rfl
@[simp] theorem State.setCtx_flaws (s : State) (cx : Nat) (c : Ctx) : (s.setCtx cx c).flaws = s.flaws := rfl
@[simp] theorem State.setCtx_retired (s : State) (cx : Nat) (c : Ctx) : (s.setCtx cx c).retired = s.retired := rfl
@[simp] theorem State.setCtx_shapes (s : State) (cx : Nat) (c : Ctx) : (s.setCtx cx c).shapes = s.shapes := rfl
@[simp] theorem State.setCtx_globals (s : State) (cx : Nat) (c : Ctx) : (s.setCtx cx c).globals = s.globals := rfl
@[simp] theorem State.setCtx_msgs (s : State) (cx : Nat) (c : Ctx) : (s.setCtx cx c).msgs = s.msgs := rfl
@[simp] theorem State.setCtx_inputs (s : State) (cx : Nat) (c : Ctx) : (s.setCtx cx c).inputs = s.inputs := rfl
@[simp] theorem State.setCtx_picks (s : State) (cx : Nat) (c : Ctx) : (s.setCtx cx c).picks = s.picks := rfl
@[simp] theorem State.setCtx_used (s : State) (cx : Nat) (c : Ctx) : (s.setCtx cx c).used = s.used := rfl
@[simp] theorem State.setCtx_turn (s : State) (cx : Nat) (c : Ctx) : (s.setCtx cx c).turn = s.turn := rfl
@[simp] theorem State.setCtx_cur (s : State) (cx : Nat) (c : Ctx) : (s.setCtx cx c).cur = s.cur := rfl
@[simp] theorem State.setCtx_sel (s : State) (cx : Nat) (c : Ctx) : (s.setCtx cx c).sel = s.sel := rfl
@[simp] theorem State.setCtx_fresh (s : State) (cx : Nat) (c : Ctx) : (s.setCtx cx c).fresh = s.fresh := rfl
@[simp] theorem State.setCtx_out (s : State) (cx : Nat) (c : Ctx) : (s.setCtx cx c).out = s.out := rfl
@[simp] theorem State.setCtx_walked (s : State) (cx : Nat) (c : Ctx) : (s.setCtx cx c).walked = s.walked := rfl
@[simp] theorem State.setCtx_nextEp (s : State) (cx : Nat) (c : Ctx) : (s.setCtx cx c).nextEp = s.nextEp := rfl
@[simp] theorem State.setCtx_addrs (s : State) (cx : Nat) (c : Ctx) : (s.setCtx cx c).addrs = s.addrs := rfl
@[simp] theorem State.setCtx_bars (s : State) (cx : Nat) (c : Ctx) : (s.setCtx cx c).bars = s.bars := rfl
@[simp] theorem State.setCtx_lost (s : State) (cx : Nat) (c : Ctx) : (s.setCtx cx c).lost = s.lost := rfl
@[simp] theorem State.setCtx_allots (s : State) (cx : Nat) (c : Ctx) : (s.setCtx cx c).allots = s.allots := rfl
@[simp] theorem State.setCtx_ghosts (s : State) (cx : Nat) (c : Ctx) : (s.setCtx cx c).ghosts = s.ghosts := rfl

-- State.modCtx

@[simp] theorem State.modCtx_mem (s : State) (cx : Nat) (f : Ctx → Ctx) : (s.modCtx cx f).mem = s.mem := rfl
@[simp] theorem State.modCtx_cores (s : State) (cx : Nat) (f : Ctx → Ctx) : (s.modCtx cx f).cores = s.cores := rfl
@[simp] theorem State.modCtx_quads (s : State) (cx : Nat) (f : Ctx → Ctx) : (s.modCtx cx f).quads = s.quads := rfl
@[simp] theorem State.modCtx_quadD (s : State) (cx : Nat) (f : Ctx → Ctx) : (s.modCtx cx f).quadD = s.quadD := rfl
@[simp] theorem State.modCtx_clusters (s : State) (cx : Nat) (f : Ctx → Ctx) : (s.modCtx cx f).clusters = s.clusters := rfl
@[simp] theorem State.modCtx_dies (s : State) (cx : Nat) (f : Ctx → Ctx) : (s.modCtx cx f).dies = s.dies := rfl
@[simp] theorem State.modCtx_parts (s : State) (cx : Nat) (f : Ctx → Ctx) : (s.modCtx cx f).parts = s.parts := rfl
@[simp] theorem State.modCtx_freeMarks (s : State) (cx : Nat) (f : Ctx → Ctx) : (s.modCtx cx f).freeMarks = s.freeMarks := rfl
@[simp] theorem State.modCtx_tiles (s : State) (cx : Nat) (f : Ctx → Ctx) : (s.modCtx cx f).tiles = s.tiles := rfl
@[simp] theorem State.modCtx_regions (s : State) (cx : Nat) (f : Ctx → Ctx) : (s.modCtx cx f).regions = s.regions := rfl
@[simp] theorem State.modCtx_objs (s : State) (cx : Nat) (f : Ctx → Ctx) : (s.modCtx cx f).objs = s.objs := rfl
@[simp] theorem State.modCtx_groups (s : State) (cx : Nat) (f : Ctx → Ctx) : (s.modCtx cx f).groups = s.groups := rfl
@[simp] theorem State.modCtx_resvq (s : State) (cx : Nat) (f : Ctx → Ctx) : (s.modCtx cx f).resvq = s.resvq := rfl
@[simp] theorem State.modCtx_watches (s : State) (cx : Nat) (f : Ctx → Ctx) : (s.modCtx cx f).watches = s.watches := rfl
@[simp] theorem State.modCtx_cmds (s : State) (cx : Nat) (f : Ctx → Ctx) : (s.modCtx cx f).cmds = s.cmds := rfl
@[simp] theorem State.modCtx_nextCmd (s : State) (cx : Nat) (f : Ctx → Ctx) : (s.modCtx cx f).nextCmd = s.nextCmd := rfl
@[simp] theorem State.modCtx_launches (s : State) (cx : Nat) (f : Ctx → Ctx) : (s.modCtx cx f).launches = s.launches := rfl
@[simp] theorem State.modCtx_nextLaunch (s : State) (cx : Nat) (f : Ctx → Ctx) : (s.modCtx cx f).nextLaunch = s.nextLaunch := rfl
@[simp] theorem State.modCtx_graphs (s : State) (cx : Nat) (f : Ctx → Ctx) : (s.modCtx cx f).graphs = s.graphs := rfl
@[simp] theorem State.modCtx_timers (s : State) (cx : Nat) (f : Ctx → Ctx) : (s.modCtx cx f).timers = s.timers := rfl
@[simp] theorem State.modCtx_eps (s : State) (cx : Nat) (f : Ctx → Ctx) : (s.modCtx cx f).eps = s.eps := rfl
@[simp] theorem State.modCtx_peers (s : State) (cx : Nat) (f : Ctx → Ctx) : (s.modCtx cx f).peers = s.peers := rfl
@[simp] theorem State.modCtx_reds (s : State) (cx : Nat) (f : Ctx → Ctx) : (s.modCtx cx f).reds = s.reds := rfl
@[simp] theorem State.modCtx_steps (s : State) (cx : Nat) (f : Ctx → Ctx) : (s.modCtx cx f).steps = s.steps := rfl
@[simp] theorem State.modCtx_pkg (s : State) (cx : Nat) (f : Ctx → Ctx) : (s.modCtx cx f).pkg = s.pkg := rfl
@[simp] theorem State.modCtx_now (s : State) (cx : Nat) (f : Ctx → Ctx) : (s.modCtx cx f).now = s.now := rfl
@[simp] theorem State.modCtx_dieCyc (s : State) (cx : Nat) (f : Ctx → Ctx) : (s.modCtx cx f).dieCyc = s.dieCyc := rfl
@[simp] theorem State.modCtx_cap (s : State) (cx : Nat) (f : Ctx → Ctx) : (s.modCtx cx f).cap = s.cap := rfl
@[simp] theorem State.modCtx_capSeq (s : State) (cx : Nat) (f : Ctx → Ctx) : (s.modCtx cx f).capSeq = s.capSeq := rfl
@[simp] theorem State.modCtx_lease (s : State) (cx : Nat) (f : Ctx → Ctx) : (s.modCtx cx f).lease = s.lease := rfl
@[simp] theorem State.modCtx_lanternUp (s : State) (cx : Nat) (f : Ctx → Ctx) : (s.modCtx cx f).lanternUp = s.lanternUp := rfl
@[simp] theorem State.modCtx_watchdog (s : State) (cx : Nat) (f : Ctx → Ctx) : (s.modCtx cx f).watchdog = s.watchdog := rfl
@[simp] theorem State.modCtx_signal (s : State) (cx : Nat) (f : Ctx → Ctx) : (s.modCtx cx f).signal = s.signal := rfl
@[simp] theorem State.modCtx_limiter (s : State) (cx : Nat) (f : Ctx → Ctx) : (s.modCtx cx f).limiter = s.limiter := rfl
@[simp] theorem State.modCtx_service (s : State) (cx : Nat) (f : Ctx → Ctx) : (s.modCtx cx f).service = s.service := rfl
@[simp] theorem State.modCtx_lantern (s : State) (cx : Nat) (f : Ctx → Ctx) : (s.modCtx cx f).lantern = s.lantern := rfl
@[simp] theorem State.modCtx_kept (s : State) (cx : Nat) (f : Ctx → Ctx) : (s.modCtx cx f).kept = s.kept := rfl
@[simp] theorem State.modCtx_stopped (s : State) (cx : Nat) (f : Ctx → Ctx) : (s.modCtx cx f).stopped = s.stopped := rfl
@[simp] theorem State.modCtx_flaws (s : State) (cx : Nat) (f : Ctx → Ctx) : (s.modCtx cx f).flaws = s.flaws := rfl
@[simp] theorem State.modCtx_retired (s : State) (cx : Nat) (f : Ctx → Ctx) : (s.modCtx cx f).retired = s.retired := rfl
@[simp] theorem State.modCtx_shapes (s : State) (cx : Nat) (f : Ctx → Ctx) : (s.modCtx cx f).shapes = s.shapes := rfl
@[simp] theorem State.modCtx_globals (s : State) (cx : Nat) (f : Ctx → Ctx) : (s.modCtx cx f).globals = s.globals := rfl
@[simp] theorem State.modCtx_msgs (s : State) (cx : Nat) (f : Ctx → Ctx) : (s.modCtx cx f).msgs = s.msgs := rfl
@[simp] theorem State.modCtx_inputs (s : State) (cx : Nat) (f : Ctx → Ctx) : (s.modCtx cx f).inputs = s.inputs := rfl
@[simp] theorem State.modCtx_picks (s : State) (cx : Nat) (f : Ctx → Ctx) : (s.modCtx cx f).picks = s.picks := rfl
@[simp] theorem State.modCtx_used (s : State) (cx : Nat) (f : Ctx → Ctx) : (s.modCtx cx f).used = s.used := rfl
@[simp] theorem State.modCtx_turn (s : State) (cx : Nat) (f : Ctx → Ctx) : (s.modCtx cx f).turn = s.turn := rfl
@[simp] theorem State.modCtx_cur (s : State) (cx : Nat) (f : Ctx → Ctx) : (s.modCtx cx f).cur = s.cur := rfl
@[simp] theorem State.modCtx_sel (s : State) (cx : Nat) (f : Ctx → Ctx) : (s.modCtx cx f).sel = s.sel := rfl
@[simp] theorem State.modCtx_fresh (s : State) (cx : Nat) (f : Ctx → Ctx) : (s.modCtx cx f).fresh = s.fresh := rfl
@[simp] theorem State.modCtx_out (s : State) (cx : Nat) (f : Ctx → Ctx) : (s.modCtx cx f).out = s.out := rfl
@[simp] theorem State.modCtx_walked (s : State) (cx : Nat) (f : Ctx → Ctx) : (s.modCtx cx f).walked = s.walked := rfl
@[simp] theorem State.modCtx_nextEp (s : State) (cx : Nat) (f : Ctx → Ctx) : (s.modCtx cx f).nextEp = s.nextEp := rfl
@[simp] theorem State.modCtx_addrs (s : State) (cx : Nat) (f : Ctx → Ctx) : (s.modCtx cx f).addrs = s.addrs := rfl
@[simp] theorem State.modCtx_bars (s : State) (cx : Nat) (f : Ctx → Ctx) : (s.modCtx cx f).bars = s.bars := rfl
@[simp] theorem State.modCtx_lost (s : State) (cx : Nat) (f : Ctx → Ctx) : (s.modCtx cx f).lost = s.lost := rfl
@[simp] theorem State.modCtx_allots (s : State) (cx : Nat) (f : Ctx → Ctx) : (s.modCtx cx f).allots = s.allots := rfl
@[simp] theorem State.modCtx_ghosts (s : State) (cx : Nat) (f : Ctx → Ctx) : (s.modCtx cx f).ghosts = s.ghosts := rfl

-- State.setCore

@[simp] theorem State.setCore_mem (s : State) (k : Nat) (c : Core) : (s.setCore k c).mem = s.mem := rfl
@[simp] theorem State.setCore_ctxs (s : State) (k : Nat) (c : Core) : (s.setCore k c).ctxs = s.ctxs := rfl
@[simp] theorem State.setCore_quads (s : State) (k : Nat) (c : Core) : (s.setCore k c).quads = s.quads := rfl
@[simp] theorem State.setCore_quadD (s : State) (k : Nat) (c : Core) : (s.setCore k c).quadD = s.quadD := rfl
@[simp] theorem State.setCore_clusters (s : State) (k : Nat) (c : Core) : (s.setCore k c).clusters = s.clusters := rfl
@[simp] theorem State.setCore_dies (s : State) (k : Nat) (c : Core) : (s.setCore k c).dies = s.dies := rfl
@[simp] theorem State.setCore_parts (s : State) (k : Nat) (c : Core) : (s.setCore k c).parts = s.parts := rfl
@[simp] theorem State.setCore_freeMarks (s : State) (k : Nat) (c : Core) : (s.setCore k c).freeMarks = s.freeMarks := rfl
@[simp] theorem State.setCore_tiles (s : State) (k : Nat) (c : Core) : (s.setCore k c).tiles = s.tiles := rfl
@[simp] theorem State.setCore_regions (s : State) (k : Nat) (c : Core) : (s.setCore k c).regions = s.regions := rfl
@[simp] theorem State.setCore_objs (s : State) (k : Nat) (c : Core) : (s.setCore k c).objs = s.objs := rfl
@[simp] theorem State.setCore_groups (s : State) (k : Nat) (c : Core) : (s.setCore k c).groups = s.groups := rfl
@[simp] theorem State.setCore_resvq (s : State) (k : Nat) (c : Core) : (s.setCore k c).resvq = s.resvq := rfl
@[simp] theorem State.setCore_watches (s : State) (k : Nat) (c : Core) : (s.setCore k c).watches = s.watches := rfl
@[simp] theorem State.setCore_cmds (s : State) (k : Nat) (c : Core) : (s.setCore k c).cmds = s.cmds := rfl
@[simp] theorem State.setCore_nextCmd (s : State) (k : Nat) (c : Core) : (s.setCore k c).nextCmd = s.nextCmd := rfl
@[simp] theorem State.setCore_launches (s : State) (k : Nat) (c : Core) : (s.setCore k c).launches = s.launches := rfl
@[simp] theorem State.setCore_nextLaunch (s : State) (k : Nat) (c : Core) : (s.setCore k c).nextLaunch = s.nextLaunch := rfl
@[simp] theorem State.setCore_graphs (s : State) (k : Nat) (c : Core) : (s.setCore k c).graphs = s.graphs := rfl
@[simp] theorem State.setCore_timers (s : State) (k : Nat) (c : Core) : (s.setCore k c).timers = s.timers := rfl
@[simp] theorem State.setCore_eps (s : State) (k : Nat) (c : Core) : (s.setCore k c).eps = s.eps := rfl
@[simp] theorem State.setCore_peers (s : State) (k : Nat) (c : Core) : (s.setCore k c).peers = s.peers := rfl
@[simp] theorem State.setCore_reds (s : State) (k : Nat) (c : Core) : (s.setCore k c).reds = s.reds := rfl
@[simp] theorem State.setCore_steps (s : State) (k : Nat) (c : Core) : (s.setCore k c).steps = s.steps := rfl
@[simp] theorem State.setCore_pkg (s : State) (k : Nat) (c : Core) : (s.setCore k c).pkg = s.pkg := rfl
@[simp] theorem State.setCore_now (s : State) (k : Nat) (c : Core) : (s.setCore k c).now = s.now := rfl
@[simp] theorem State.setCore_dieCyc (s : State) (k : Nat) (c : Core) : (s.setCore k c).dieCyc = s.dieCyc := rfl
@[simp] theorem State.setCore_cap (s : State) (k : Nat) (c : Core) : (s.setCore k c).cap = s.cap := rfl
@[simp] theorem State.setCore_capSeq (s : State) (k : Nat) (c : Core) : (s.setCore k c).capSeq = s.capSeq := rfl
@[simp] theorem State.setCore_lease (s : State) (k : Nat) (c : Core) : (s.setCore k c).lease = s.lease := rfl
@[simp] theorem State.setCore_lanternUp (s : State) (k : Nat) (c : Core) : (s.setCore k c).lanternUp = s.lanternUp := rfl
@[simp] theorem State.setCore_watchdog (s : State) (k : Nat) (c : Core) : (s.setCore k c).watchdog = s.watchdog := rfl
@[simp] theorem State.setCore_signal (s : State) (k : Nat) (c : Core) : (s.setCore k c).signal = s.signal := rfl
@[simp] theorem State.setCore_limiter (s : State) (k : Nat) (c : Core) : (s.setCore k c).limiter = s.limiter := rfl
@[simp] theorem State.setCore_service (s : State) (k : Nat) (c : Core) : (s.setCore k c).service = s.service := rfl
@[simp] theorem State.setCore_lantern (s : State) (k : Nat) (c : Core) : (s.setCore k c).lantern = s.lantern := rfl
@[simp] theorem State.setCore_kept (s : State) (k : Nat) (c : Core) : (s.setCore k c).kept = s.kept := rfl
@[simp] theorem State.setCore_stopped (s : State) (k : Nat) (c : Core) : (s.setCore k c).stopped = s.stopped := rfl
@[simp] theorem State.setCore_flaws (s : State) (k : Nat) (c : Core) : (s.setCore k c).flaws = s.flaws := rfl
@[simp] theorem State.setCore_retired (s : State) (k : Nat) (c : Core) : (s.setCore k c).retired = s.retired := rfl
@[simp] theorem State.setCore_shapes (s : State) (k : Nat) (c : Core) : (s.setCore k c).shapes = s.shapes := rfl
@[simp] theorem State.setCore_globals (s : State) (k : Nat) (c : Core) : (s.setCore k c).globals = s.globals := rfl
@[simp] theorem State.setCore_msgs (s : State) (k : Nat) (c : Core) : (s.setCore k c).msgs = s.msgs := rfl
@[simp] theorem State.setCore_inputs (s : State) (k : Nat) (c : Core) : (s.setCore k c).inputs = s.inputs := rfl
@[simp] theorem State.setCore_picks (s : State) (k : Nat) (c : Core) : (s.setCore k c).picks = s.picks := rfl
@[simp] theorem State.setCore_used (s : State) (k : Nat) (c : Core) : (s.setCore k c).used = s.used := rfl
@[simp] theorem State.setCore_turn (s : State) (k : Nat) (c : Core) : (s.setCore k c).turn = s.turn := rfl
@[simp] theorem State.setCore_cur (s : State) (k : Nat) (c : Core) : (s.setCore k c).cur = s.cur := rfl
@[simp] theorem State.setCore_sel (s : State) (k : Nat) (c : Core) : (s.setCore k c).sel = s.sel := rfl
@[simp] theorem State.setCore_fresh (s : State) (k : Nat) (c : Core) : (s.setCore k c).fresh = s.fresh := rfl
@[simp] theorem State.setCore_out (s : State) (k : Nat) (c : Core) : (s.setCore k c).out = s.out := rfl
@[simp] theorem State.setCore_walked (s : State) (k : Nat) (c : Core) : (s.setCore k c).walked = s.walked := rfl
@[simp] theorem State.setCore_nextEp (s : State) (k : Nat) (c : Core) : (s.setCore k c).nextEp = s.nextEp := rfl
@[simp] theorem State.setCore_addrs (s : State) (k : Nat) (c : Core) : (s.setCore k c).addrs = s.addrs := rfl
@[simp] theorem State.setCore_bars (s : State) (k : Nat) (c : Core) : (s.setCore k c).bars = s.bars := rfl
@[simp] theorem State.setCore_lost (s : State) (k : Nat) (c : Core) : (s.setCore k c).lost = s.lost := rfl
@[simp] theorem State.setCore_allots (s : State) (k : Nat) (c : Core) : (s.setCore k c).allots = s.allots := rfl
@[simp] theorem State.setCore_ghosts (s : State) (k : Nat) (c : Core) : (s.setCore k c).ghosts = s.ghosts := rfl

-- State.modCore

@[simp] theorem State.modCore_mem (s : State) (k : Nat) (f : Core → Core) : (s.modCore k f).mem = s.mem := rfl
@[simp] theorem State.modCore_ctxs (s : State) (k : Nat) (f : Core → Core) : (s.modCore k f).ctxs = s.ctxs := rfl
@[simp] theorem State.modCore_quads (s : State) (k : Nat) (f : Core → Core) : (s.modCore k f).quads = s.quads := rfl
@[simp] theorem State.modCore_quadD (s : State) (k : Nat) (f : Core → Core) : (s.modCore k f).quadD = s.quadD := rfl
@[simp] theorem State.modCore_clusters (s : State) (k : Nat) (f : Core → Core) : (s.modCore k f).clusters = s.clusters := rfl
@[simp] theorem State.modCore_dies (s : State) (k : Nat) (f : Core → Core) : (s.modCore k f).dies = s.dies := rfl
@[simp] theorem State.modCore_parts (s : State) (k : Nat) (f : Core → Core) : (s.modCore k f).parts = s.parts := rfl
@[simp] theorem State.modCore_freeMarks (s : State) (k : Nat) (f : Core → Core) : (s.modCore k f).freeMarks = s.freeMarks := rfl
@[simp] theorem State.modCore_tiles (s : State) (k : Nat) (f : Core → Core) : (s.modCore k f).tiles = s.tiles := rfl
@[simp] theorem State.modCore_regions (s : State) (k : Nat) (f : Core → Core) : (s.modCore k f).regions = s.regions := rfl
@[simp] theorem State.modCore_objs (s : State) (k : Nat) (f : Core → Core) : (s.modCore k f).objs = s.objs := rfl
@[simp] theorem State.modCore_groups (s : State) (k : Nat) (f : Core → Core) : (s.modCore k f).groups = s.groups := rfl
@[simp] theorem State.modCore_resvq (s : State) (k : Nat) (f : Core → Core) : (s.modCore k f).resvq = s.resvq := rfl
@[simp] theorem State.modCore_watches (s : State) (k : Nat) (f : Core → Core) : (s.modCore k f).watches = s.watches := rfl
@[simp] theorem State.modCore_cmds (s : State) (k : Nat) (f : Core → Core) : (s.modCore k f).cmds = s.cmds := rfl
@[simp] theorem State.modCore_nextCmd (s : State) (k : Nat) (f : Core → Core) : (s.modCore k f).nextCmd = s.nextCmd := rfl
@[simp] theorem State.modCore_launches (s : State) (k : Nat) (f : Core → Core) : (s.modCore k f).launches = s.launches := rfl
@[simp] theorem State.modCore_nextLaunch (s : State) (k : Nat) (f : Core → Core) : (s.modCore k f).nextLaunch = s.nextLaunch := rfl
@[simp] theorem State.modCore_graphs (s : State) (k : Nat) (f : Core → Core) : (s.modCore k f).graphs = s.graphs := rfl
@[simp] theorem State.modCore_timers (s : State) (k : Nat) (f : Core → Core) : (s.modCore k f).timers = s.timers := rfl
@[simp] theorem State.modCore_eps (s : State) (k : Nat) (f : Core → Core) : (s.modCore k f).eps = s.eps := rfl
@[simp] theorem State.modCore_peers (s : State) (k : Nat) (f : Core → Core) : (s.modCore k f).peers = s.peers := rfl
@[simp] theorem State.modCore_reds (s : State) (k : Nat) (f : Core → Core) : (s.modCore k f).reds = s.reds := rfl
@[simp] theorem State.modCore_steps (s : State) (k : Nat) (f : Core → Core) : (s.modCore k f).steps = s.steps := rfl
@[simp] theorem State.modCore_pkg (s : State) (k : Nat) (f : Core → Core) : (s.modCore k f).pkg = s.pkg := rfl
@[simp] theorem State.modCore_now (s : State) (k : Nat) (f : Core → Core) : (s.modCore k f).now = s.now := rfl
@[simp] theorem State.modCore_dieCyc (s : State) (k : Nat) (f : Core → Core) : (s.modCore k f).dieCyc = s.dieCyc := rfl
@[simp] theorem State.modCore_cap (s : State) (k : Nat) (f : Core → Core) : (s.modCore k f).cap = s.cap := rfl
@[simp] theorem State.modCore_capSeq (s : State) (k : Nat) (f : Core → Core) : (s.modCore k f).capSeq = s.capSeq := rfl
@[simp] theorem State.modCore_lease (s : State) (k : Nat) (f : Core → Core) : (s.modCore k f).lease = s.lease := rfl
@[simp] theorem State.modCore_lanternUp (s : State) (k : Nat) (f : Core → Core) : (s.modCore k f).lanternUp = s.lanternUp := rfl
@[simp] theorem State.modCore_watchdog (s : State) (k : Nat) (f : Core → Core) : (s.modCore k f).watchdog = s.watchdog := rfl
@[simp] theorem State.modCore_signal (s : State) (k : Nat) (f : Core → Core) : (s.modCore k f).signal = s.signal := rfl
@[simp] theorem State.modCore_limiter (s : State) (k : Nat) (f : Core → Core) : (s.modCore k f).limiter = s.limiter := rfl
@[simp] theorem State.modCore_service (s : State) (k : Nat) (f : Core → Core) : (s.modCore k f).service = s.service := rfl
@[simp] theorem State.modCore_lantern (s : State) (k : Nat) (f : Core → Core) : (s.modCore k f).lantern = s.lantern := rfl
@[simp] theorem State.modCore_kept (s : State) (k : Nat) (f : Core → Core) : (s.modCore k f).kept = s.kept := rfl
@[simp] theorem State.modCore_stopped (s : State) (k : Nat) (f : Core → Core) : (s.modCore k f).stopped = s.stopped := rfl
@[simp] theorem State.modCore_flaws (s : State) (k : Nat) (f : Core → Core) : (s.modCore k f).flaws = s.flaws := rfl
@[simp] theorem State.modCore_retired (s : State) (k : Nat) (f : Core → Core) : (s.modCore k f).retired = s.retired := rfl
@[simp] theorem State.modCore_shapes (s : State) (k : Nat) (f : Core → Core) : (s.modCore k f).shapes = s.shapes := rfl
@[simp] theorem State.modCore_globals (s : State) (k : Nat) (f : Core → Core) : (s.modCore k f).globals = s.globals := rfl
@[simp] theorem State.modCore_msgs (s : State) (k : Nat) (f : Core → Core) : (s.modCore k f).msgs = s.msgs := rfl
@[simp] theorem State.modCore_inputs (s : State) (k : Nat) (f : Core → Core) : (s.modCore k f).inputs = s.inputs := rfl
@[simp] theorem State.modCore_picks (s : State) (k : Nat) (f : Core → Core) : (s.modCore k f).picks = s.picks := rfl
@[simp] theorem State.modCore_used (s : State) (k : Nat) (f : Core → Core) : (s.modCore k f).used = s.used := rfl
@[simp] theorem State.modCore_turn (s : State) (k : Nat) (f : Core → Core) : (s.modCore k f).turn = s.turn := rfl
@[simp] theorem State.modCore_cur (s : State) (k : Nat) (f : Core → Core) : (s.modCore k f).cur = s.cur := rfl
@[simp] theorem State.modCore_sel (s : State) (k : Nat) (f : Core → Core) : (s.modCore k f).sel = s.sel := rfl
@[simp] theorem State.modCore_fresh (s : State) (k : Nat) (f : Core → Core) : (s.modCore k f).fresh = s.fresh := rfl
@[simp] theorem State.modCore_out (s : State) (k : Nat) (f : Core → Core) : (s.modCore k f).out = s.out := rfl
@[simp] theorem State.modCore_walked (s : State) (k : Nat) (f : Core → Core) : (s.modCore k f).walked = s.walked := rfl
@[simp] theorem State.modCore_nextEp (s : State) (k : Nat) (f : Core → Core) : (s.modCore k f).nextEp = s.nextEp := rfl
@[simp] theorem State.modCore_addrs (s : State) (k : Nat) (f : Core → Core) : (s.modCore k f).addrs = s.addrs := rfl
@[simp] theorem State.modCore_bars (s : State) (k : Nat) (f : Core → Core) : (s.modCore k f).bars = s.bars := rfl
@[simp] theorem State.modCore_lost (s : State) (k : Nat) (f : Core → Core) : (s.modCore k f).lost = s.lost := rfl
@[simp] theorem State.modCore_allots (s : State) (k : Nat) (f : Core → Core) : (s.modCore k f).allots = s.allots := rfl
@[simp] theorem State.modCore_ghosts (s : State) (k : Nat) (f : Core → Core) : (s.modCore k f).ghosts = s.ghosts := rfl

-- State.modCluster

@[simp] theorem State.modCluster_mem (s : State) (k : Nat) (f : Cluster → Cluster) : (s.modCluster k f).mem = s.mem := rfl
@[simp] theorem State.modCluster_ctxs (s : State) (k : Nat) (f : Cluster → Cluster) : (s.modCluster k f).ctxs = s.ctxs := rfl
@[simp] theorem State.modCluster_cores (s : State) (k : Nat) (f : Cluster → Cluster) : (s.modCluster k f).cores = s.cores := rfl
@[simp] theorem State.modCluster_quads (s : State) (k : Nat) (f : Cluster → Cluster) : (s.modCluster k f).quads = s.quads := rfl
@[simp] theorem State.modCluster_quadD (s : State) (k : Nat) (f : Cluster → Cluster) : (s.modCluster k f).quadD = s.quadD := rfl
@[simp] theorem State.modCluster_dies (s : State) (k : Nat) (f : Cluster → Cluster) : (s.modCluster k f).dies = s.dies := rfl
@[simp] theorem State.modCluster_parts (s : State) (k : Nat) (f : Cluster → Cluster) : (s.modCluster k f).parts = s.parts := rfl
@[simp] theorem State.modCluster_freeMarks (s : State) (k : Nat) (f : Cluster → Cluster) : (s.modCluster k f).freeMarks = s.freeMarks := rfl
@[simp] theorem State.modCluster_tiles (s : State) (k : Nat) (f : Cluster → Cluster) : (s.modCluster k f).tiles = s.tiles := rfl
@[simp] theorem State.modCluster_regions (s : State) (k : Nat) (f : Cluster → Cluster) : (s.modCluster k f).regions = s.regions := rfl
@[simp] theorem State.modCluster_objs (s : State) (k : Nat) (f : Cluster → Cluster) : (s.modCluster k f).objs = s.objs := rfl
@[simp] theorem State.modCluster_groups (s : State) (k : Nat) (f : Cluster → Cluster) : (s.modCluster k f).groups = s.groups := rfl
@[simp] theorem State.modCluster_resvq (s : State) (k : Nat) (f : Cluster → Cluster) : (s.modCluster k f).resvq = s.resvq := rfl
@[simp] theorem State.modCluster_watches (s : State) (k : Nat) (f : Cluster → Cluster) : (s.modCluster k f).watches = s.watches := rfl
@[simp] theorem State.modCluster_cmds (s : State) (k : Nat) (f : Cluster → Cluster) : (s.modCluster k f).cmds = s.cmds := rfl
@[simp] theorem State.modCluster_nextCmd (s : State) (k : Nat) (f : Cluster → Cluster) : (s.modCluster k f).nextCmd = s.nextCmd := rfl
@[simp] theorem State.modCluster_launches (s : State) (k : Nat) (f : Cluster → Cluster) : (s.modCluster k f).launches = s.launches := rfl
@[simp] theorem State.modCluster_nextLaunch (s : State) (k : Nat) (f : Cluster → Cluster) : (s.modCluster k f).nextLaunch = s.nextLaunch := rfl
@[simp] theorem State.modCluster_graphs (s : State) (k : Nat) (f : Cluster → Cluster) : (s.modCluster k f).graphs = s.graphs := rfl
@[simp] theorem State.modCluster_timers (s : State) (k : Nat) (f : Cluster → Cluster) : (s.modCluster k f).timers = s.timers := rfl
@[simp] theorem State.modCluster_eps (s : State) (k : Nat) (f : Cluster → Cluster) : (s.modCluster k f).eps = s.eps := rfl
@[simp] theorem State.modCluster_peers (s : State) (k : Nat) (f : Cluster → Cluster) : (s.modCluster k f).peers = s.peers := rfl
@[simp] theorem State.modCluster_reds (s : State) (k : Nat) (f : Cluster → Cluster) : (s.modCluster k f).reds = s.reds := rfl
@[simp] theorem State.modCluster_steps (s : State) (k : Nat) (f : Cluster → Cluster) : (s.modCluster k f).steps = s.steps := rfl
@[simp] theorem State.modCluster_pkg (s : State) (k : Nat) (f : Cluster → Cluster) : (s.modCluster k f).pkg = s.pkg := rfl
@[simp] theorem State.modCluster_now (s : State) (k : Nat) (f : Cluster → Cluster) : (s.modCluster k f).now = s.now := rfl
@[simp] theorem State.modCluster_dieCyc (s : State) (k : Nat) (f : Cluster → Cluster) : (s.modCluster k f).dieCyc = s.dieCyc := rfl
@[simp] theorem State.modCluster_cap (s : State) (k : Nat) (f : Cluster → Cluster) : (s.modCluster k f).cap = s.cap := rfl
@[simp] theorem State.modCluster_capSeq (s : State) (k : Nat) (f : Cluster → Cluster) : (s.modCluster k f).capSeq = s.capSeq := rfl
@[simp] theorem State.modCluster_lease (s : State) (k : Nat) (f : Cluster → Cluster) : (s.modCluster k f).lease = s.lease := rfl
@[simp] theorem State.modCluster_lanternUp (s : State) (k : Nat) (f : Cluster → Cluster) : (s.modCluster k f).lanternUp = s.lanternUp := rfl
@[simp] theorem State.modCluster_watchdog (s : State) (k : Nat) (f : Cluster → Cluster) : (s.modCluster k f).watchdog = s.watchdog := rfl
@[simp] theorem State.modCluster_signal (s : State) (k : Nat) (f : Cluster → Cluster) : (s.modCluster k f).signal = s.signal := rfl
@[simp] theorem State.modCluster_limiter (s : State) (k : Nat) (f : Cluster → Cluster) : (s.modCluster k f).limiter = s.limiter := rfl
@[simp] theorem State.modCluster_service (s : State) (k : Nat) (f : Cluster → Cluster) : (s.modCluster k f).service = s.service := rfl
@[simp] theorem State.modCluster_lantern (s : State) (k : Nat) (f : Cluster → Cluster) : (s.modCluster k f).lantern = s.lantern := rfl
@[simp] theorem State.modCluster_kept (s : State) (k : Nat) (f : Cluster → Cluster) : (s.modCluster k f).kept = s.kept := rfl
@[simp] theorem State.modCluster_stopped (s : State) (k : Nat) (f : Cluster → Cluster) : (s.modCluster k f).stopped = s.stopped := rfl
@[simp] theorem State.modCluster_flaws (s : State) (k : Nat) (f : Cluster → Cluster) : (s.modCluster k f).flaws = s.flaws := rfl
@[simp] theorem State.modCluster_retired (s : State) (k : Nat) (f : Cluster → Cluster) : (s.modCluster k f).retired = s.retired := rfl
@[simp] theorem State.modCluster_shapes (s : State) (k : Nat) (f : Cluster → Cluster) : (s.modCluster k f).shapes = s.shapes := rfl
@[simp] theorem State.modCluster_globals (s : State) (k : Nat) (f : Cluster → Cluster) : (s.modCluster k f).globals = s.globals := rfl
@[simp] theorem State.modCluster_msgs (s : State) (k : Nat) (f : Cluster → Cluster) : (s.modCluster k f).msgs = s.msgs := rfl
@[simp] theorem State.modCluster_inputs (s : State) (k : Nat) (f : Cluster → Cluster) : (s.modCluster k f).inputs = s.inputs := rfl
@[simp] theorem State.modCluster_picks (s : State) (k : Nat) (f : Cluster → Cluster) : (s.modCluster k f).picks = s.picks := rfl
@[simp] theorem State.modCluster_used (s : State) (k : Nat) (f : Cluster → Cluster) : (s.modCluster k f).used = s.used := rfl
@[simp] theorem State.modCluster_turn (s : State) (k : Nat) (f : Cluster → Cluster) : (s.modCluster k f).turn = s.turn := rfl
@[simp] theorem State.modCluster_cur (s : State) (k : Nat) (f : Cluster → Cluster) : (s.modCluster k f).cur = s.cur := rfl
@[simp] theorem State.modCluster_sel (s : State) (k : Nat) (f : Cluster → Cluster) : (s.modCluster k f).sel = s.sel := rfl
@[simp] theorem State.modCluster_fresh (s : State) (k : Nat) (f : Cluster → Cluster) : (s.modCluster k f).fresh = s.fresh := rfl
@[simp] theorem State.modCluster_out (s : State) (k : Nat) (f : Cluster → Cluster) : (s.modCluster k f).out = s.out := rfl
@[simp] theorem State.modCluster_walked (s : State) (k : Nat) (f : Cluster → Cluster) : (s.modCluster k f).walked = s.walked := rfl
@[simp] theorem State.modCluster_nextEp (s : State) (k : Nat) (f : Cluster → Cluster) : (s.modCluster k f).nextEp = s.nextEp := rfl
@[simp] theorem State.modCluster_addrs (s : State) (k : Nat) (f : Cluster → Cluster) : (s.modCluster k f).addrs = s.addrs := rfl
@[simp] theorem State.modCluster_bars (s : State) (k : Nat) (f : Cluster → Cluster) : (s.modCluster k f).bars = s.bars := rfl
@[simp] theorem State.modCluster_lost (s : State) (k : Nat) (f : Cluster → Cluster) : (s.modCluster k f).lost = s.lost := rfl
@[simp] theorem State.modCluster_allots (s : State) (k : Nat) (f : Cluster → Cluster) : (s.modCluster k f).allots = s.allots := rfl
@[simp] theorem State.modCluster_ghosts (s : State) (k : Nat) (f : Cluster → Cluster) : (s.modCluster k f).ghosts = s.ghosts := rfl

-- State.modDie

@[simp] theorem State.modDie_mem (s : State) (d : Nat) (f : Die → Die) : (s.modDie d f).mem = s.mem := rfl
@[simp] theorem State.modDie_ctxs (s : State) (d : Nat) (f : Die → Die) : (s.modDie d f).ctxs = s.ctxs := rfl
@[simp] theorem State.modDie_cores (s : State) (d : Nat) (f : Die → Die) : (s.modDie d f).cores = s.cores := rfl
@[simp] theorem State.modDie_quads (s : State) (d : Nat) (f : Die → Die) : (s.modDie d f).quads = s.quads := rfl
@[simp] theorem State.modDie_quadD (s : State) (d : Nat) (f : Die → Die) : (s.modDie d f).quadD = s.quadD := rfl
@[simp] theorem State.modDie_clusters (s : State) (d : Nat) (f : Die → Die) : (s.modDie d f).clusters = s.clusters := rfl
@[simp] theorem State.modDie_parts (s : State) (d : Nat) (f : Die → Die) : (s.modDie d f).parts = s.parts := rfl
@[simp] theorem State.modDie_freeMarks (s : State) (d : Nat) (f : Die → Die) : (s.modDie d f).freeMarks = s.freeMarks := rfl
@[simp] theorem State.modDie_tiles (s : State) (d : Nat) (f : Die → Die) : (s.modDie d f).tiles = s.tiles := rfl
@[simp] theorem State.modDie_regions (s : State) (d : Nat) (f : Die → Die) : (s.modDie d f).regions = s.regions := rfl
@[simp] theorem State.modDie_objs (s : State) (d : Nat) (f : Die → Die) : (s.modDie d f).objs = s.objs := rfl
@[simp] theorem State.modDie_groups (s : State) (d : Nat) (f : Die → Die) : (s.modDie d f).groups = s.groups := rfl
@[simp] theorem State.modDie_resvq (s : State) (d : Nat) (f : Die → Die) : (s.modDie d f).resvq = s.resvq := rfl
@[simp] theorem State.modDie_watches (s : State) (d : Nat) (f : Die → Die) : (s.modDie d f).watches = s.watches := rfl
@[simp] theorem State.modDie_cmds (s : State) (d : Nat) (f : Die → Die) : (s.modDie d f).cmds = s.cmds := rfl
@[simp] theorem State.modDie_nextCmd (s : State) (d : Nat) (f : Die → Die) : (s.modDie d f).nextCmd = s.nextCmd := rfl
@[simp] theorem State.modDie_launches (s : State) (d : Nat) (f : Die → Die) : (s.modDie d f).launches = s.launches := rfl
@[simp] theorem State.modDie_nextLaunch (s : State) (d : Nat) (f : Die → Die) : (s.modDie d f).nextLaunch = s.nextLaunch := rfl
@[simp] theorem State.modDie_graphs (s : State) (d : Nat) (f : Die → Die) : (s.modDie d f).graphs = s.graphs := rfl
@[simp] theorem State.modDie_timers (s : State) (d : Nat) (f : Die → Die) : (s.modDie d f).timers = s.timers := rfl
@[simp] theorem State.modDie_eps (s : State) (d : Nat) (f : Die → Die) : (s.modDie d f).eps = s.eps := rfl
@[simp] theorem State.modDie_peers (s : State) (d : Nat) (f : Die → Die) : (s.modDie d f).peers = s.peers := rfl
@[simp] theorem State.modDie_reds (s : State) (d : Nat) (f : Die → Die) : (s.modDie d f).reds = s.reds := rfl
@[simp] theorem State.modDie_steps (s : State) (d : Nat) (f : Die → Die) : (s.modDie d f).steps = s.steps := rfl
@[simp] theorem State.modDie_pkg (s : State) (d : Nat) (f : Die → Die) : (s.modDie d f).pkg = s.pkg := rfl
@[simp] theorem State.modDie_now (s : State) (d : Nat) (f : Die → Die) : (s.modDie d f).now = s.now := rfl
@[simp] theorem State.modDie_dieCyc (s : State) (d : Nat) (f : Die → Die) : (s.modDie d f).dieCyc = s.dieCyc := rfl
@[simp] theorem State.modDie_cap (s : State) (d : Nat) (f : Die → Die) : (s.modDie d f).cap = s.cap := rfl
@[simp] theorem State.modDie_capSeq (s : State) (d : Nat) (f : Die → Die) : (s.modDie d f).capSeq = s.capSeq := rfl
@[simp] theorem State.modDie_lease (s : State) (d : Nat) (f : Die → Die) : (s.modDie d f).lease = s.lease := rfl
@[simp] theorem State.modDie_lanternUp (s : State) (d : Nat) (f : Die → Die) : (s.modDie d f).lanternUp = s.lanternUp := rfl
@[simp] theorem State.modDie_watchdog (s : State) (d : Nat) (f : Die → Die) : (s.modDie d f).watchdog = s.watchdog := rfl
@[simp] theorem State.modDie_signal (s : State) (d : Nat) (f : Die → Die) : (s.modDie d f).signal = s.signal := rfl
@[simp] theorem State.modDie_limiter (s : State) (d : Nat) (f : Die → Die) : (s.modDie d f).limiter = s.limiter := rfl
@[simp] theorem State.modDie_service (s : State) (d : Nat) (f : Die → Die) : (s.modDie d f).service = s.service := rfl
@[simp] theorem State.modDie_lantern (s : State) (d : Nat) (f : Die → Die) : (s.modDie d f).lantern = s.lantern := rfl
@[simp] theorem State.modDie_kept (s : State) (d : Nat) (f : Die → Die) : (s.modDie d f).kept = s.kept := rfl
@[simp] theorem State.modDie_stopped (s : State) (d : Nat) (f : Die → Die) : (s.modDie d f).stopped = s.stopped := rfl
@[simp] theorem State.modDie_flaws (s : State) (d : Nat) (f : Die → Die) : (s.modDie d f).flaws = s.flaws := rfl
@[simp] theorem State.modDie_retired (s : State) (d : Nat) (f : Die → Die) : (s.modDie d f).retired = s.retired := rfl
@[simp] theorem State.modDie_shapes (s : State) (d : Nat) (f : Die → Die) : (s.modDie d f).shapes = s.shapes := rfl
@[simp] theorem State.modDie_globals (s : State) (d : Nat) (f : Die → Die) : (s.modDie d f).globals = s.globals := rfl
@[simp] theorem State.modDie_msgs (s : State) (d : Nat) (f : Die → Die) : (s.modDie d f).msgs = s.msgs := rfl
@[simp] theorem State.modDie_inputs (s : State) (d : Nat) (f : Die → Die) : (s.modDie d f).inputs = s.inputs := rfl
@[simp] theorem State.modDie_picks (s : State) (d : Nat) (f : Die → Die) : (s.modDie d f).picks = s.picks := rfl
@[simp] theorem State.modDie_used (s : State) (d : Nat) (f : Die → Die) : (s.modDie d f).used = s.used := rfl
@[simp] theorem State.modDie_turn (s : State) (d : Nat) (f : Die → Die) : (s.modDie d f).turn = s.turn := rfl
@[simp] theorem State.modDie_cur (s : State) (d : Nat) (f : Die → Die) : (s.modDie d f).cur = s.cur := rfl
@[simp] theorem State.modDie_sel (s : State) (d : Nat) (f : Die → Die) : (s.modDie d f).sel = s.sel := rfl
@[simp] theorem State.modDie_fresh (s : State) (d : Nat) (f : Die → Die) : (s.modDie d f).fresh = s.fresh := rfl
@[simp] theorem State.modDie_out (s : State) (d : Nat) (f : Die → Die) : (s.modDie d f).out = s.out := rfl
@[simp] theorem State.modDie_walked (s : State) (d : Nat) (f : Die → Die) : (s.modDie d f).walked = s.walked := rfl
@[simp] theorem State.modDie_nextEp (s : State) (d : Nat) (f : Die → Die) : (s.modDie d f).nextEp = s.nextEp := rfl
@[simp] theorem State.modDie_addrs (s : State) (d : Nat) (f : Die → Die) : (s.modDie d f).addrs = s.addrs := rfl
@[simp] theorem State.modDie_bars (s : State) (d : Nat) (f : Die → Die) : (s.modDie d f).bars = s.bars := rfl
@[simp] theorem State.modDie_lost (s : State) (d : Nat) (f : Die → Die) : (s.modDie d f).lost = s.lost := rfl
@[simp] theorem State.modDie_allots (s : State) (d : Nat) (f : Die → Die) : (s.modDie d f).allots = s.allots := rfl
@[simp] theorem State.modDie_ghosts (s : State) (d : Nat) (f : Die → Die) : (s.modDie d f).ghosts = s.ghosts := rfl

-- State.modPart

@[simp] theorem State.modPart_mem (s : State) (p : Nat) (f : Part → Part) : (s.modPart p f).mem = s.mem := rfl
@[simp] theorem State.modPart_ctxs (s : State) (p : Nat) (f : Part → Part) : (s.modPart p f).ctxs = s.ctxs := rfl
@[simp] theorem State.modPart_cores (s : State) (p : Nat) (f : Part → Part) : (s.modPart p f).cores = s.cores := rfl
@[simp] theorem State.modPart_quads (s : State) (p : Nat) (f : Part → Part) : (s.modPart p f).quads = s.quads := rfl
@[simp] theorem State.modPart_quadD (s : State) (p : Nat) (f : Part → Part) : (s.modPart p f).quadD = s.quadD := rfl
@[simp] theorem State.modPart_clusters (s : State) (p : Nat) (f : Part → Part) : (s.modPart p f).clusters = s.clusters := rfl
@[simp] theorem State.modPart_dies (s : State) (p : Nat) (f : Part → Part) : (s.modPart p f).dies = s.dies := rfl
@[simp] theorem State.modPart_freeMarks (s : State) (p : Nat) (f : Part → Part) : (s.modPart p f).freeMarks = s.freeMarks := rfl
@[simp] theorem State.modPart_tiles (s : State) (p : Nat) (f : Part → Part) : (s.modPart p f).tiles = s.tiles := rfl
@[simp] theorem State.modPart_regions (s : State) (p : Nat) (f : Part → Part) : (s.modPart p f).regions = s.regions := rfl
@[simp] theorem State.modPart_objs (s : State) (p : Nat) (f : Part → Part) : (s.modPart p f).objs = s.objs := rfl
@[simp] theorem State.modPart_groups (s : State) (p : Nat) (f : Part → Part) : (s.modPart p f).groups = s.groups := rfl
@[simp] theorem State.modPart_resvq (s : State) (p : Nat) (f : Part → Part) : (s.modPart p f).resvq = s.resvq := rfl
@[simp] theorem State.modPart_watches (s : State) (p : Nat) (f : Part → Part) : (s.modPart p f).watches = s.watches := rfl
@[simp] theorem State.modPart_cmds (s : State) (p : Nat) (f : Part → Part) : (s.modPart p f).cmds = s.cmds := rfl
@[simp] theorem State.modPart_nextCmd (s : State) (p : Nat) (f : Part → Part) : (s.modPart p f).nextCmd = s.nextCmd := rfl
@[simp] theorem State.modPart_launches (s : State) (p : Nat) (f : Part → Part) : (s.modPart p f).launches = s.launches := rfl
@[simp] theorem State.modPart_nextLaunch (s : State) (p : Nat) (f : Part → Part) : (s.modPart p f).nextLaunch = s.nextLaunch := rfl
@[simp] theorem State.modPart_graphs (s : State) (p : Nat) (f : Part → Part) : (s.modPart p f).graphs = s.graphs := rfl
@[simp] theorem State.modPart_timers (s : State) (p : Nat) (f : Part → Part) : (s.modPart p f).timers = s.timers := rfl
@[simp] theorem State.modPart_eps (s : State) (p : Nat) (f : Part → Part) : (s.modPart p f).eps = s.eps := rfl
@[simp] theorem State.modPart_peers (s : State) (p : Nat) (f : Part → Part) : (s.modPart p f).peers = s.peers := rfl
@[simp] theorem State.modPart_reds (s : State) (p : Nat) (f : Part → Part) : (s.modPart p f).reds = s.reds := rfl
@[simp] theorem State.modPart_steps (s : State) (p : Nat) (f : Part → Part) : (s.modPart p f).steps = s.steps := rfl
@[simp] theorem State.modPart_pkg (s : State) (p : Nat) (f : Part → Part) : (s.modPart p f).pkg = s.pkg := rfl
@[simp] theorem State.modPart_now (s : State) (p : Nat) (f : Part → Part) : (s.modPart p f).now = s.now := rfl
@[simp] theorem State.modPart_dieCyc (s : State) (p : Nat) (f : Part → Part) : (s.modPart p f).dieCyc = s.dieCyc := rfl
@[simp] theorem State.modPart_cap (s : State) (p : Nat) (f : Part → Part) : (s.modPart p f).cap = s.cap := rfl
@[simp] theorem State.modPart_capSeq (s : State) (p : Nat) (f : Part → Part) : (s.modPart p f).capSeq = s.capSeq := rfl
@[simp] theorem State.modPart_lease (s : State) (p : Nat) (f : Part → Part) : (s.modPart p f).lease = s.lease := rfl
@[simp] theorem State.modPart_lanternUp (s : State) (p : Nat) (f : Part → Part) : (s.modPart p f).lanternUp = s.lanternUp := rfl
@[simp] theorem State.modPart_watchdog (s : State) (p : Nat) (f : Part → Part) : (s.modPart p f).watchdog = s.watchdog := rfl
@[simp] theorem State.modPart_signal (s : State) (p : Nat) (f : Part → Part) : (s.modPart p f).signal = s.signal := rfl
@[simp] theorem State.modPart_limiter (s : State) (p : Nat) (f : Part → Part) : (s.modPart p f).limiter = s.limiter := rfl
@[simp] theorem State.modPart_service (s : State) (p : Nat) (f : Part → Part) : (s.modPart p f).service = s.service := rfl
@[simp] theorem State.modPart_lantern (s : State) (p : Nat) (f : Part → Part) : (s.modPart p f).lantern = s.lantern := rfl
@[simp] theorem State.modPart_kept (s : State) (p : Nat) (f : Part → Part) : (s.modPart p f).kept = s.kept := rfl
@[simp] theorem State.modPart_stopped (s : State) (p : Nat) (f : Part → Part) : (s.modPart p f).stopped = s.stopped := rfl
@[simp] theorem State.modPart_flaws (s : State) (p : Nat) (f : Part → Part) : (s.modPart p f).flaws = s.flaws := rfl
@[simp] theorem State.modPart_retired (s : State) (p : Nat) (f : Part → Part) : (s.modPart p f).retired = s.retired := rfl
@[simp] theorem State.modPart_shapes (s : State) (p : Nat) (f : Part → Part) : (s.modPart p f).shapes = s.shapes := rfl
@[simp] theorem State.modPart_globals (s : State) (p : Nat) (f : Part → Part) : (s.modPart p f).globals = s.globals := rfl
@[simp] theorem State.modPart_msgs (s : State) (p : Nat) (f : Part → Part) : (s.modPart p f).msgs = s.msgs := rfl
@[simp] theorem State.modPart_inputs (s : State) (p : Nat) (f : Part → Part) : (s.modPart p f).inputs = s.inputs := rfl
@[simp] theorem State.modPart_picks (s : State) (p : Nat) (f : Part → Part) : (s.modPart p f).picks = s.picks := rfl
@[simp] theorem State.modPart_used (s : State) (p : Nat) (f : Part → Part) : (s.modPart p f).used = s.used := rfl
@[simp] theorem State.modPart_turn (s : State) (p : Nat) (f : Part → Part) : (s.modPart p f).turn = s.turn := rfl
@[simp] theorem State.modPart_cur (s : State) (p : Nat) (f : Part → Part) : (s.modPart p f).cur = s.cur := rfl
@[simp] theorem State.modPart_sel (s : State) (p : Nat) (f : Part → Part) : (s.modPart p f).sel = s.sel := rfl
@[simp] theorem State.modPart_fresh (s : State) (p : Nat) (f : Part → Part) : (s.modPart p f).fresh = s.fresh := rfl
@[simp] theorem State.modPart_out (s : State) (p : Nat) (f : Part → Part) : (s.modPart p f).out = s.out := rfl
@[simp] theorem State.modPart_walked (s : State) (p : Nat) (f : Part → Part) : (s.modPart p f).walked = s.walked := rfl
@[simp] theorem State.modPart_nextEp (s : State) (p : Nat) (f : Part → Part) : (s.modPart p f).nextEp = s.nextEp := rfl
@[simp] theorem State.modPart_addrs (s : State) (p : Nat) (f : Part → Part) : (s.modPart p f).addrs = s.addrs := rfl
@[simp] theorem State.modPart_bars (s : State) (p : Nat) (f : Part → Part) : (s.modPart p f).bars = s.bars := rfl
@[simp] theorem State.modPart_lost (s : State) (p : Nat) (f : Part → Part) : (s.modPart p f).lost = s.lost := rfl
@[simp] theorem State.modPart_allots (s : State) (p : Nat) (f : Part → Part) : (s.modPart p f).allots = s.allots := rfl
@[simp] theorem State.modPart_ghosts (s : State) (p : Nat) (f : Part → Part) : (s.modPart p f).ghosts = s.ghosts := rfl

-- State.send

@[simp] theorem State.send_mem (s : State) (m : Msg) : (s.send m).mem = s.mem := rfl
@[simp] theorem State.send_ctxs (s : State) (m : Msg) : (s.send m).ctxs = s.ctxs := rfl
@[simp] theorem State.send_cores (s : State) (m : Msg) : (s.send m).cores = s.cores := rfl
@[simp] theorem State.send_quads (s : State) (m : Msg) : (s.send m).quads = s.quads := rfl
@[simp] theorem State.send_quadD (s : State) (m : Msg) : (s.send m).quadD = s.quadD := rfl
@[simp] theorem State.send_clusters (s : State) (m : Msg) : (s.send m).clusters = s.clusters := rfl
@[simp] theorem State.send_dies (s : State) (m : Msg) : (s.send m).dies = s.dies := rfl
@[simp] theorem State.send_parts (s : State) (m : Msg) : (s.send m).parts = s.parts := rfl
@[simp] theorem State.send_freeMarks (s : State) (m : Msg) : (s.send m).freeMarks = s.freeMarks := rfl
@[simp] theorem State.send_tiles (s : State) (m : Msg) : (s.send m).tiles = s.tiles := rfl
@[simp] theorem State.send_regions (s : State) (m : Msg) : (s.send m).regions = s.regions := rfl
@[simp] theorem State.send_objs (s : State) (m : Msg) : (s.send m).objs = s.objs := rfl
@[simp] theorem State.send_groups (s : State) (m : Msg) : (s.send m).groups = s.groups := rfl
@[simp] theorem State.send_resvq (s : State) (m : Msg) : (s.send m).resvq = s.resvq := rfl
@[simp] theorem State.send_watches (s : State) (m : Msg) : (s.send m).watches = s.watches := rfl
@[simp] theorem State.send_cmds (s : State) (m : Msg) : (s.send m).cmds = s.cmds := rfl
@[simp] theorem State.send_nextCmd (s : State) (m : Msg) : (s.send m).nextCmd = s.nextCmd := rfl
@[simp] theorem State.send_launches (s : State) (m : Msg) : (s.send m).launches = s.launches := rfl
@[simp] theorem State.send_nextLaunch (s : State) (m : Msg) : (s.send m).nextLaunch = s.nextLaunch := rfl
@[simp] theorem State.send_graphs (s : State) (m : Msg) : (s.send m).graphs = s.graphs := rfl
@[simp] theorem State.send_timers (s : State) (m : Msg) : (s.send m).timers = s.timers := rfl
@[simp] theorem State.send_eps (s : State) (m : Msg) : (s.send m).eps = s.eps := rfl
@[simp] theorem State.send_peers (s : State) (m : Msg) : (s.send m).peers = s.peers := rfl
@[simp] theorem State.send_reds (s : State) (m : Msg) : (s.send m).reds = s.reds := rfl
@[simp] theorem State.send_steps (s : State) (m : Msg) : (s.send m).steps = s.steps := rfl
@[simp] theorem State.send_pkg (s : State) (m : Msg) : (s.send m).pkg = s.pkg := rfl
@[simp] theorem State.send_now (s : State) (m : Msg) : (s.send m).now = s.now := rfl
@[simp] theorem State.send_dieCyc (s : State) (m : Msg) : (s.send m).dieCyc = s.dieCyc := rfl
@[simp] theorem State.send_cap (s : State) (m : Msg) : (s.send m).cap = s.cap := rfl
@[simp] theorem State.send_capSeq (s : State) (m : Msg) : (s.send m).capSeq = s.capSeq := rfl
@[simp] theorem State.send_lease (s : State) (m : Msg) : (s.send m).lease = s.lease := rfl
@[simp] theorem State.send_lanternUp (s : State) (m : Msg) : (s.send m).lanternUp = s.lanternUp := rfl
@[simp] theorem State.send_watchdog (s : State) (m : Msg) : (s.send m).watchdog = s.watchdog := rfl
@[simp] theorem State.send_signal (s : State) (m : Msg) : (s.send m).signal = s.signal := rfl
@[simp] theorem State.send_limiter (s : State) (m : Msg) : (s.send m).limiter = s.limiter := rfl
@[simp] theorem State.send_service (s : State) (m : Msg) : (s.send m).service = s.service := rfl
@[simp] theorem State.send_lantern (s : State) (m : Msg) : (s.send m).lantern = s.lantern := rfl
@[simp] theorem State.send_kept (s : State) (m : Msg) : (s.send m).kept = s.kept := rfl
@[simp] theorem State.send_stopped (s : State) (m : Msg) : (s.send m).stopped = s.stopped := rfl
@[simp] theorem State.send_flaws (s : State) (m : Msg) : (s.send m).flaws = s.flaws := rfl
@[simp] theorem State.send_retired (s : State) (m : Msg) : (s.send m).retired = s.retired := rfl
@[simp] theorem State.send_shapes (s : State) (m : Msg) : (s.send m).shapes = s.shapes := rfl
@[simp] theorem State.send_globals (s : State) (m : Msg) : (s.send m).globals = s.globals := rfl
@[simp] theorem State.send_inputs (s : State) (m : Msg) : (s.send m).inputs = s.inputs := rfl
@[simp] theorem State.send_picks (s : State) (m : Msg) : (s.send m).picks = s.picks := rfl
@[simp] theorem State.send_used (s : State) (m : Msg) : (s.send m).used = s.used := rfl
@[simp] theorem State.send_turn (s : State) (m : Msg) : (s.send m).turn = s.turn := rfl
@[simp] theorem State.send_cur (s : State) (m : Msg) : (s.send m).cur = s.cur := rfl
@[simp] theorem State.send_sel (s : State) (m : Msg) : (s.send m).sel = s.sel := rfl
@[simp] theorem State.send_fresh (s : State) (m : Msg) : (s.send m).fresh = s.fresh := rfl
@[simp] theorem State.send_out (s : State) (m : Msg) : (s.send m).out = s.out := rfl
@[simp] theorem State.send_walked (s : State) (m : Msg) : (s.send m).walked = s.walked := rfl
@[simp] theorem State.send_nextEp (s : State) (m : Msg) : (s.send m).nextEp = s.nextEp := rfl
@[simp] theorem State.send_addrs (s : State) (m : Msg) : (s.send m).addrs = s.addrs := rfl
@[simp] theorem State.send_bars (s : State) (m : Msg) : (s.send m).bars = s.bars := rfl
@[simp] theorem State.send_lost (s : State) (m : Msg) : (s.send m).lost = s.lost := rfl
@[simp] theorem State.send_allots (s : State) (m : Msg) : (s.send m).allots = s.allots := rfl
@[simp] theorem State.send_ghosts (s : State) (m : Msg) : (s.send m).ghosts = s.ghosts := rfl

-- State.sendAll

@[simp] theorem State.sendAll_mem (s : State) (l : List Msg) : (s.sendAll l).mem = s.mem := rfl
@[simp] theorem State.sendAll_ctxs (s : State) (l : List Msg) : (s.sendAll l).ctxs = s.ctxs := rfl
@[simp] theorem State.sendAll_cores (s : State) (l : List Msg) : (s.sendAll l).cores = s.cores := rfl
@[simp] theorem State.sendAll_quads (s : State) (l : List Msg) : (s.sendAll l).quads = s.quads := rfl
@[simp] theorem State.sendAll_quadD (s : State) (l : List Msg) : (s.sendAll l).quadD = s.quadD := rfl
@[simp] theorem State.sendAll_clusters (s : State) (l : List Msg) : (s.sendAll l).clusters = s.clusters := rfl
@[simp] theorem State.sendAll_dies (s : State) (l : List Msg) : (s.sendAll l).dies = s.dies := rfl
@[simp] theorem State.sendAll_parts (s : State) (l : List Msg) : (s.sendAll l).parts = s.parts := rfl
@[simp] theorem State.sendAll_freeMarks (s : State) (l : List Msg) : (s.sendAll l).freeMarks = s.freeMarks := rfl
@[simp] theorem State.sendAll_tiles (s : State) (l : List Msg) : (s.sendAll l).tiles = s.tiles := rfl
@[simp] theorem State.sendAll_regions (s : State) (l : List Msg) : (s.sendAll l).regions = s.regions := rfl
@[simp] theorem State.sendAll_objs (s : State) (l : List Msg) : (s.sendAll l).objs = s.objs := rfl
@[simp] theorem State.sendAll_groups (s : State) (l : List Msg) : (s.sendAll l).groups = s.groups := rfl
@[simp] theorem State.sendAll_resvq (s : State) (l : List Msg) : (s.sendAll l).resvq = s.resvq := rfl
@[simp] theorem State.sendAll_watches (s : State) (l : List Msg) : (s.sendAll l).watches = s.watches := rfl
@[simp] theorem State.sendAll_cmds (s : State) (l : List Msg) : (s.sendAll l).cmds = s.cmds := rfl
@[simp] theorem State.sendAll_nextCmd (s : State) (l : List Msg) : (s.sendAll l).nextCmd = s.nextCmd := rfl
@[simp] theorem State.sendAll_launches (s : State) (l : List Msg) : (s.sendAll l).launches = s.launches := rfl
@[simp] theorem State.sendAll_nextLaunch (s : State) (l : List Msg) : (s.sendAll l).nextLaunch = s.nextLaunch := rfl
@[simp] theorem State.sendAll_graphs (s : State) (l : List Msg) : (s.sendAll l).graphs = s.graphs := rfl
@[simp] theorem State.sendAll_timers (s : State) (l : List Msg) : (s.sendAll l).timers = s.timers := rfl
@[simp] theorem State.sendAll_eps (s : State) (l : List Msg) : (s.sendAll l).eps = s.eps := rfl
@[simp] theorem State.sendAll_peers (s : State) (l : List Msg) : (s.sendAll l).peers = s.peers := rfl
@[simp] theorem State.sendAll_reds (s : State) (l : List Msg) : (s.sendAll l).reds = s.reds := rfl
@[simp] theorem State.sendAll_steps (s : State) (l : List Msg) : (s.sendAll l).steps = s.steps := rfl
@[simp] theorem State.sendAll_pkg (s : State) (l : List Msg) : (s.sendAll l).pkg = s.pkg := rfl
@[simp] theorem State.sendAll_now (s : State) (l : List Msg) : (s.sendAll l).now = s.now := rfl
@[simp] theorem State.sendAll_dieCyc (s : State) (l : List Msg) : (s.sendAll l).dieCyc = s.dieCyc := rfl
@[simp] theorem State.sendAll_cap (s : State) (l : List Msg) : (s.sendAll l).cap = s.cap := rfl
@[simp] theorem State.sendAll_capSeq (s : State) (l : List Msg) : (s.sendAll l).capSeq = s.capSeq := rfl
@[simp] theorem State.sendAll_lease (s : State) (l : List Msg) : (s.sendAll l).lease = s.lease := rfl
@[simp] theorem State.sendAll_lanternUp (s : State) (l : List Msg) : (s.sendAll l).lanternUp = s.lanternUp := rfl
@[simp] theorem State.sendAll_watchdog (s : State) (l : List Msg) : (s.sendAll l).watchdog = s.watchdog := rfl
@[simp] theorem State.sendAll_signal (s : State) (l : List Msg) : (s.sendAll l).signal = s.signal := rfl
@[simp] theorem State.sendAll_limiter (s : State) (l : List Msg) : (s.sendAll l).limiter = s.limiter := rfl
@[simp] theorem State.sendAll_service (s : State) (l : List Msg) : (s.sendAll l).service = s.service := rfl
@[simp] theorem State.sendAll_lantern (s : State) (l : List Msg) : (s.sendAll l).lantern = s.lantern := rfl
@[simp] theorem State.sendAll_kept (s : State) (l : List Msg) : (s.sendAll l).kept = s.kept := rfl
@[simp] theorem State.sendAll_stopped (s : State) (l : List Msg) : (s.sendAll l).stopped = s.stopped := rfl
@[simp] theorem State.sendAll_flaws (s : State) (l : List Msg) : (s.sendAll l).flaws = s.flaws := rfl
@[simp] theorem State.sendAll_retired (s : State) (l : List Msg) : (s.sendAll l).retired = s.retired := rfl
@[simp] theorem State.sendAll_shapes (s : State) (l : List Msg) : (s.sendAll l).shapes = s.shapes := rfl
@[simp] theorem State.sendAll_globals (s : State) (l : List Msg) : (s.sendAll l).globals = s.globals := rfl
@[simp] theorem State.sendAll_inputs (s : State) (l : List Msg) : (s.sendAll l).inputs = s.inputs := rfl
@[simp] theorem State.sendAll_picks (s : State) (l : List Msg) : (s.sendAll l).picks = s.picks := rfl
@[simp] theorem State.sendAll_used (s : State) (l : List Msg) : (s.sendAll l).used = s.used := rfl
@[simp] theorem State.sendAll_turn (s : State) (l : List Msg) : (s.sendAll l).turn = s.turn := rfl
@[simp] theorem State.sendAll_cur (s : State) (l : List Msg) : (s.sendAll l).cur = s.cur := rfl
@[simp] theorem State.sendAll_sel (s : State) (l : List Msg) : (s.sendAll l).sel = s.sel := rfl
@[simp] theorem State.sendAll_fresh (s : State) (l : List Msg) : (s.sendAll l).fresh = s.fresh := rfl
@[simp] theorem State.sendAll_out (s : State) (l : List Msg) : (s.sendAll l).out = s.out := rfl
@[simp] theorem State.sendAll_walked (s : State) (l : List Msg) : (s.sendAll l).walked = s.walked := rfl
@[simp] theorem State.sendAll_nextEp (s : State) (l : List Msg) : (s.sendAll l).nextEp = s.nextEp := rfl
@[simp] theorem State.sendAll_addrs (s : State) (l : List Msg) : (s.sendAll l).addrs = s.addrs := rfl
@[simp] theorem State.sendAll_bars (s : State) (l : List Msg) : (s.sendAll l).bars = s.bars := rfl
@[simp] theorem State.sendAll_lost (s : State) (l : List Msg) : (s.sendAll l).lost = s.lost := rfl
@[simp] theorem State.sendAll_allots (s : State) (l : List Msg) : (s.sendAll l).allots = s.allots := rfl
@[simp] theorem State.sendAll_ghosts (s : State) (l : List Msg) : (s.sendAll l).ghosts = s.ghosts := rfl

-- State.dropMsg

@[simp] theorem State.dropMsg_mem (s : State) (k : Nat) : (s.dropMsg k).mem = s.mem := rfl
@[simp] theorem State.dropMsg_ctxs (s : State) (k : Nat) : (s.dropMsg k).ctxs = s.ctxs := rfl
@[simp] theorem State.dropMsg_cores (s : State) (k : Nat) : (s.dropMsg k).cores = s.cores := rfl
@[simp] theorem State.dropMsg_quads (s : State) (k : Nat) : (s.dropMsg k).quads = s.quads := rfl
@[simp] theorem State.dropMsg_quadD (s : State) (k : Nat) : (s.dropMsg k).quadD = s.quadD := rfl
@[simp] theorem State.dropMsg_clusters (s : State) (k : Nat) : (s.dropMsg k).clusters = s.clusters := rfl
@[simp] theorem State.dropMsg_dies (s : State) (k : Nat) : (s.dropMsg k).dies = s.dies := rfl
@[simp] theorem State.dropMsg_parts (s : State) (k : Nat) : (s.dropMsg k).parts = s.parts := rfl
@[simp] theorem State.dropMsg_freeMarks (s : State) (k : Nat) : (s.dropMsg k).freeMarks = s.freeMarks := rfl
@[simp] theorem State.dropMsg_tiles (s : State) (k : Nat) : (s.dropMsg k).tiles = s.tiles := rfl
@[simp] theorem State.dropMsg_regions (s : State) (k : Nat) : (s.dropMsg k).regions = s.regions := rfl
@[simp] theorem State.dropMsg_objs (s : State) (k : Nat) : (s.dropMsg k).objs = s.objs := rfl
@[simp] theorem State.dropMsg_groups (s : State) (k : Nat) : (s.dropMsg k).groups = s.groups := rfl
@[simp] theorem State.dropMsg_resvq (s : State) (k : Nat) : (s.dropMsg k).resvq = s.resvq := rfl
@[simp] theorem State.dropMsg_watches (s : State) (k : Nat) : (s.dropMsg k).watches = s.watches := rfl
@[simp] theorem State.dropMsg_cmds (s : State) (k : Nat) : (s.dropMsg k).cmds = s.cmds := rfl
@[simp] theorem State.dropMsg_nextCmd (s : State) (k : Nat) : (s.dropMsg k).nextCmd = s.nextCmd := rfl
@[simp] theorem State.dropMsg_launches (s : State) (k : Nat) : (s.dropMsg k).launches = s.launches := rfl
@[simp] theorem State.dropMsg_nextLaunch (s : State) (k : Nat) : (s.dropMsg k).nextLaunch = s.nextLaunch := rfl
@[simp] theorem State.dropMsg_graphs (s : State) (k : Nat) : (s.dropMsg k).graphs = s.graphs := rfl
@[simp] theorem State.dropMsg_timers (s : State) (k : Nat) : (s.dropMsg k).timers = s.timers := rfl
@[simp] theorem State.dropMsg_eps (s : State) (k : Nat) : (s.dropMsg k).eps = s.eps := rfl
@[simp] theorem State.dropMsg_peers (s : State) (k : Nat) : (s.dropMsg k).peers = s.peers := rfl
@[simp] theorem State.dropMsg_reds (s : State) (k : Nat) : (s.dropMsg k).reds = s.reds := rfl
@[simp] theorem State.dropMsg_steps (s : State) (k : Nat) : (s.dropMsg k).steps = s.steps := rfl
@[simp] theorem State.dropMsg_pkg (s : State) (k : Nat) : (s.dropMsg k).pkg = s.pkg := rfl
@[simp] theorem State.dropMsg_now (s : State) (k : Nat) : (s.dropMsg k).now = s.now := rfl
@[simp] theorem State.dropMsg_dieCyc (s : State) (k : Nat) : (s.dropMsg k).dieCyc = s.dieCyc := rfl
@[simp] theorem State.dropMsg_cap (s : State) (k : Nat) : (s.dropMsg k).cap = s.cap := rfl
@[simp] theorem State.dropMsg_capSeq (s : State) (k : Nat) : (s.dropMsg k).capSeq = s.capSeq := rfl
@[simp] theorem State.dropMsg_lease (s : State) (k : Nat) : (s.dropMsg k).lease = s.lease := rfl
@[simp] theorem State.dropMsg_lanternUp (s : State) (k : Nat) : (s.dropMsg k).lanternUp = s.lanternUp := rfl
@[simp] theorem State.dropMsg_watchdog (s : State) (k : Nat) : (s.dropMsg k).watchdog = s.watchdog := rfl
@[simp] theorem State.dropMsg_signal (s : State) (k : Nat) : (s.dropMsg k).signal = s.signal := rfl
@[simp] theorem State.dropMsg_limiter (s : State) (k : Nat) : (s.dropMsg k).limiter = s.limiter := rfl
@[simp] theorem State.dropMsg_service (s : State) (k : Nat) : (s.dropMsg k).service = s.service := rfl
@[simp] theorem State.dropMsg_lantern (s : State) (k : Nat) : (s.dropMsg k).lantern = s.lantern := rfl
@[simp] theorem State.dropMsg_kept (s : State) (k : Nat) : (s.dropMsg k).kept = s.kept := rfl
@[simp] theorem State.dropMsg_stopped (s : State) (k : Nat) : (s.dropMsg k).stopped = s.stopped := rfl
@[simp] theorem State.dropMsg_flaws (s : State) (k : Nat) : (s.dropMsg k).flaws = s.flaws := rfl
@[simp] theorem State.dropMsg_retired (s : State) (k : Nat) : (s.dropMsg k).retired = s.retired := rfl
@[simp] theorem State.dropMsg_shapes (s : State) (k : Nat) : (s.dropMsg k).shapes = s.shapes := rfl
@[simp] theorem State.dropMsg_globals (s : State) (k : Nat) : (s.dropMsg k).globals = s.globals := rfl
@[simp] theorem State.dropMsg_inputs (s : State) (k : Nat) : (s.dropMsg k).inputs = s.inputs := rfl
@[simp] theorem State.dropMsg_picks (s : State) (k : Nat) : (s.dropMsg k).picks = s.picks := rfl
@[simp] theorem State.dropMsg_used (s : State) (k : Nat) : (s.dropMsg k).used = s.used := rfl
@[simp] theorem State.dropMsg_turn (s : State) (k : Nat) : (s.dropMsg k).turn = s.turn := rfl
@[simp] theorem State.dropMsg_cur (s : State) (k : Nat) : (s.dropMsg k).cur = s.cur := rfl
@[simp] theorem State.dropMsg_sel (s : State) (k : Nat) : (s.dropMsg k).sel = s.sel := rfl
@[simp] theorem State.dropMsg_fresh (s : State) (k : Nat) : (s.dropMsg k).fresh = s.fresh := rfl
@[simp] theorem State.dropMsg_out (s : State) (k : Nat) : (s.dropMsg k).out = s.out := rfl
@[simp] theorem State.dropMsg_walked (s : State) (k : Nat) : (s.dropMsg k).walked = s.walked := rfl
@[simp] theorem State.dropMsg_nextEp (s : State) (k : Nat) : (s.dropMsg k).nextEp = s.nextEp := rfl
@[simp] theorem State.dropMsg_addrs (s : State) (k : Nat) : (s.dropMsg k).addrs = s.addrs := rfl
@[simp] theorem State.dropMsg_bars (s : State) (k : Nat) : (s.dropMsg k).bars = s.bars := rfl
@[simp] theorem State.dropMsg_lost (s : State) (k : Nat) : (s.dropMsg k).lost = s.lost := rfl
@[simp] theorem State.dropMsg_allots (s : State) (k : Nat) : (s.dropMsg k).allots = s.allots := rfl
@[simp] theorem State.dropMsg_ghosts (s : State) (k : Nat) : (s.dropMsg k).ghosts = s.ghosts := rfl

-- State.finish

@[simp] theorem State.finish_mem (s : State) (cx n : Nat) (f : Ctx → Ctx) : (s.finish cx n f).mem = s.mem := rfl
@[simp] theorem State.finish_cores (s : State) (cx n : Nat) (f : Ctx → Ctx) : (s.finish cx n f).cores = s.cores := rfl
@[simp] theorem State.finish_quads (s : State) (cx n : Nat) (f : Ctx → Ctx) : (s.finish cx n f).quads = s.quads := rfl
@[simp] theorem State.finish_quadD (s : State) (cx n : Nat) (f : Ctx → Ctx) : (s.finish cx n f).quadD = s.quadD := rfl
@[simp] theorem State.finish_clusters (s : State) (cx n : Nat) (f : Ctx → Ctx) : (s.finish cx n f).clusters = s.clusters := rfl
@[simp] theorem State.finish_dies (s : State) (cx n : Nat) (f : Ctx → Ctx) : (s.finish cx n f).dies = s.dies := rfl
@[simp] theorem State.finish_parts (s : State) (cx n : Nat) (f : Ctx → Ctx) : (s.finish cx n f).parts = s.parts := rfl
@[simp] theorem State.finish_freeMarks (s : State) (cx n : Nat) (f : Ctx → Ctx) : (s.finish cx n f).freeMarks = s.freeMarks := rfl
@[simp] theorem State.finish_tiles (s : State) (cx n : Nat) (f : Ctx → Ctx) : (s.finish cx n f).tiles = s.tiles := rfl
@[simp] theorem State.finish_regions (s : State) (cx n : Nat) (f : Ctx → Ctx) : (s.finish cx n f).regions = s.regions := rfl
@[simp] theorem State.finish_objs (s : State) (cx n : Nat) (f : Ctx → Ctx) : (s.finish cx n f).objs = s.objs := rfl
@[simp] theorem State.finish_groups (s : State) (cx n : Nat) (f : Ctx → Ctx) : (s.finish cx n f).groups = s.groups := rfl
@[simp] theorem State.finish_resvq (s : State) (cx n : Nat) (f : Ctx → Ctx) : (s.finish cx n f).resvq = s.resvq := rfl
@[simp] theorem State.finish_watches (s : State) (cx n : Nat) (f : Ctx → Ctx) : (s.finish cx n f).watches = s.watches := rfl
@[simp] theorem State.finish_cmds (s : State) (cx n : Nat) (f : Ctx → Ctx) : (s.finish cx n f).cmds = s.cmds := rfl
@[simp] theorem State.finish_nextCmd (s : State) (cx n : Nat) (f : Ctx → Ctx) : (s.finish cx n f).nextCmd = s.nextCmd := rfl
@[simp] theorem State.finish_launches (s : State) (cx n : Nat) (f : Ctx → Ctx) : (s.finish cx n f).launches = s.launches := rfl
@[simp] theorem State.finish_nextLaunch (s : State) (cx n : Nat) (f : Ctx → Ctx) : (s.finish cx n f).nextLaunch = s.nextLaunch := rfl
@[simp] theorem State.finish_graphs (s : State) (cx n : Nat) (f : Ctx → Ctx) : (s.finish cx n f).graphs = s.graphs := rfl
@[simp] theorem State.finish_timers (s : State) (cx n : Nat) (f : Ctx → Ctx) : (s.finish cx n f).timers = s.timers := rfl
@[simp] theorem State.finish_eps (s : State) (cx n : Nat) (f : Ctx → Ctx) : (s.finish cx n f).eps = s.eps := rfl
@[simp] theorem State.finish_peers (s : State) (cx n : Nat) (f : Ctx → Ctx) : (s.finish cx n f).peers = s.peers := rfl
@[simp] theorem State.finish_reds (s : State) (cx n : Nat) (f : Ctx → Ctx) : (s.finish cx n f).reds = s.reds := rfl
@[simp] theorem State.finish_steps (s : State) (cx n : Nat) (f : Ctx → Ctx) : (s.finish cx n f).steps = s.steps := rfl
@[simp] theorem State.finish_pkg (s : State) (cx n : Nat) (f : Ctx → Ctx) : (s.finish cx n f).pkg = s.pkg := rfl
@[simp] theorem State.finish_now (s : State) (cx n : Nat) (f : Ctx → Ctx) : (s.finish cx n f).now = s.now := rfl
@[simp] theorem State.finish_dieCyc (s : State) (cx n : Nat) (f : Ctx → Ctx) : (s.finish cx n f).dieCyc = s.dieCyc := rfl
@[simp] theorem State.finish_cap (s : State) (cx n : Nat) (f : Ctx → Ctx) : (s.finish cx n f).cap = s.cap := rfl
@[simp] theorem State.finish_capSeq (s : State) (cx n : Nat) (f : Ctx → Ctx) : (s.finish cx n f).capSeq = s.capSeq := rfl
@[simp] theorem State.finish_lease (s : State) (cx n : Nat) (f : Ctx → Ctx) : (s.finish cx n f).lease = s.lease := rfl
@[simp] theorem State.finish_lanternUp (s : State) (cx n : Nat) (f : Ctx → Ctx) : (s.finish cx n f).lanternUp = s.lanternUp := rfl
@[simp] theorem State.finish_watchdog (s : State) (cx n : Nat) (f : Ctx → Ctx) : (s.finish cx n f).watchdog = s.watchdog := rfl
@[simp] theorem State.finish_signal (s : State) (cx n : Nat) (f : Ctx → Ctx) : (s.finish cx n f).signal = s.signal := rfl
@[simp] theorem State.finish_limiter (s : State) (cx n : Nat) (f : Ctx → Ctx) : (s.finish cx n f).limiter = s.limiter := rfl
@[simp] theorem State.finish_service (s : State) (cx n : Nat) (f : Ctx → Ctx) : (s.finish cx n f).service = s.service := rfl
@[simp] theorem State.finish_lantern (s : State) (cx n : Nat) (f : Ctx → Ctx) : (s.finish cx n f).lantern = s.lantern := rfl
@[simp] theorem State.finish_kept (s : State) (cx n : Nat) (f : Ctx → Ctx) : (s.finish cx n f).kept = s.kept := rfl
@[simp] theorem State.finish_stopped (s : State) (cx n : Nat) (f : Ctx → Ctx) : (s.finish cx n f).stopped = s.stopped := rfl
@[simp] theorem State.finish_flaws (s : State) (cx n : Nat) (f : Ctx → Ctx) : (s.finish cx n f).flaws = s.flaws := rfl
@[simp] theorem State.finish_retired (s : State) (cx n : Nat) (f : Ctx → Ctx) : (s.finish cx n f).retired = s.retired := rfl
@[simp] theorem State.finish_shapes (s : State) (cx n : Nat) (f : Ctx → Ctx) : (s.finish cx n f).shapes = s.shapes := rfl
@[simp] theorem State.finish_globals (s : State) (cx n : Nat) (f : Ctx → Ctx) : (s.finish cx n f).globals = s.globals := rfl
@[simp] theorem State.finish_msgs (s : State) (cx n : Nat) (f : Ctx → Ctx) : (s.finish cx n f).msgs = s.msgs := rfl
@[simp] theorem State.finish_inputs (s : State) (cx n : Nat) (f : Ctx → Ctx) : (s.finish cx n f).inputs = s.inputs := rfl
@[simp] theorem State.finish_picks (s : State) (cx n : Nat) (f : Ctx → Ctx) : (s.finish cx n f).picks = s.picks := rfl
@[simp] theorem State.finish_used (s : State) (cx n : Nat) (f : Ctx → Ctx) : (s.finish cx n f).used = s.used := rfl
@[simp] theorem State.finish_turn (s : State) (cx n : Nat) (f : Ctx → Ctx) : (s.finish cx n f).turn = s.turn := rfl
@[simp] theorem State.finish_cur (s : State) (cx n : Nat) (f : Ctx → Ctx) : (s.finish cx n f).cur = s.cur := rfl
@[simp] theorem State.finish_sel (s : State) (cx n : Nat) (f : Ctx → Ctx) : (s.finish cx n f).sel = s.sel := rfl
@[simp] theorem State.finish_fresh (s : State) (cx n : Nat) (f : Ctx → Ctx) : (s.finish cx n f).fresh = s.fresh := rfl
@[simp] theorem State.finish_out (s : State) (cx n : Nat) (f : Ctx → Ctx) : (s.finish cx n f).out = s.out := rfl
@[simp] theorem State.finish_walked (s : State) (cx n : Nat) (f : Ctx → Ctx) : (s.finish cx n f).walked = s.walked := rfl
@[simp] theorem State.finish_nextEp (s : State) (cx n : Nat) (f : Ctx → Ctx) : (s.finish cx n f).nextEp = s.nextEp := rfl
@[simp] theorem State.finish_addrs (s : State) (cx n : Nat) (f : Ctx → Ctx) : (s.finish cx n f).addrs = s.addrs := rfl
@[simp] theorem State.finish_bars (s : State) (cx n : Nat) (f : Ctx → Ctx) : (s.finish cx n f).bars = s.bars := rfl
@[simp] theorem State.finish_lost (s : State) (cx n : Nat) (f : Ctx → Ctx) : (s.finish cx n f).lost = s.lost := rfl
@[simp] theorem State.finish_allots (s : State) (cx n : Nat) (f : Ctx → Ctx) : (s.finish cx n f).allots = s.allots := rfl
@[simp] theorem State.finish_ghosts (s : State) (cx n : Nat) (f : Ctx → Ctx) : (s.finish cx n f).ghosts = s.ghosts := rfl

-- State.block

@[simp] theorem State.block_mem (s : State) (cx why : Nat) (w : Wait) : (s.block cx why w).mem = s.mem := rfl
@[simp] theorem State.block_cores (s : State) (cx why : Nat) (w : Wait) : (s.block cx why w).cores = s.cores := rfl
@[simp] theorem State.block_quads (s : State) (cx why : Nat) (w : Wait) : (s.block cx why w).quads = s.quads := rfl
@[simp] theorem State.block_quadD (s : State) (cx why : Nat) (w : Wait) : (s.block cx why w).quadD = s.quadD := rfl
@[simp] theorem State.block_clusters (s : State) (cx why : Nat) (w : Wait) : (s.block cx why w).clusters = s.clusters := rfl
@[simp] theorem State.block_dies (s : State) (cx why : Nat) (w : Wait) : (s.block cx why w).dies = s.dies := rfl
@[simp] theorem State.block_parts (s : State) (cx why : Nat) (w : Wait) : (s.block cx why w).parts = s.parts := rfl
@[simp] theorem State.block_freeMarks (s : State) (cx why : Nat) (w : Wait) : (s.block cx why w).freeMarks = s.freeMarks := rfl
@[simp] theorem State.block_tiles (s : State) (cx why : Nat) (w : Wait) : (s.block cx why w).tiles = s.tiles := rfl
@[simp] theorem State.block_regions (s : State) (cx why : Nat) (w : Wait) : (s.block cx why w).regions = s.regions := rfl
@[simp] theorem State.block_objs (s : State) (cx why : Nat) (w : Wait) : (s.block cx why w).objs = s.objs := rfl
@[simp] theorem State.block_groups (s : State) (cx why : Nat) (w : Wait) : (s.block cx why w).groups = s.groups := rfl
@[simp] theorem State.block_resvq (s : State) (cx why : Nat) (w : Wait) : (s.block cx why w).resvq = s.resvq := rfl
@[simp] theorem State.block_watches (s : State) (cx why : Nat) (w : Wait) : (s.block cx why w).watches = s.watches := rfl
@[simp] theorem State.block_cmds (s : State) (cx why : Nat) (w : Wait) : (s.block cx why w).cmds = s.cmds := rfl
@[simp] theorem State.block_nextCmd (s : State) (cx why : Nat) (w : Wait) : (s.block cx why w).nextCmd = s.nextCmd := rfl
@[simp] theorem State.block_launches (s : State) (cx why : Nat) (w : Wait) : (s.block cx why w).launches = s.launches := rfl
@[simp] theorem State.block_nextLaunch (s : State) (cx why : Nat) (w : Wait) : (s.block cx why w).nextLaunch = s.nextLaunch := rfl
@[simp] theorem State.block_graphs (s : State) (cx why : Nat) (w : Wait) : (s.block cx why w).graphs = s.graphs := rfl
@[simp] theorem State.block_timers (s : State) (cx why : Nat) (w : Wait) : (s.block cx why w).timers = s.timers := rfl
@[simp] theorem State.block_eps (s : State) (cx why : Nat) (w : Wait) : (s.block cx why w).eps = s.eps := rfl
@[simp] theorem State.block_peers (s : State) (cx why : Nat) (w : Wait) : (s.block cx why w).peers = s.peers := rfl
@[simp] theorem State.block_reds (s : State) (cx why : Nat) (w : Wait) : (s.block cx why w).reds = s.reds := rfl
@[simp] theorem State.block_steps (s : State) (cx why : Nat) (w : Wait) : (s.block cx why w).steps = s.steps := rfl
@[simp] theorem State.block_pkg (s : State) (cx why : Nat) (w : Wait) : (s.block cx why w).pkg = s.pkg := rfl
@[simp] theorem State.block_now (s : State) (cx why : Nat) (w : Wait) : (s.block cx why w).now = s.now := rfl
@[simp] theorem State.block_dieCyc (s : State) (cx why : Nat) (w : Wait) : (s.block cx why w).dieCyc = s.dieCyc := rfl
@[simp] theorem State.block_cap (s : State) (cx why : Nat) (w : Wait) : (s.block cx why w).cap = s.cap := rfl
@[simp] theorem State.block_capSeq (s : State) (cx why : Nat) (w : Wait) : (s.block cx why w).capSeq = s.capSeq := rfl
@[simp] theorem State.block_lease (s : State) (cx why : Nat) (w : Wait) : (s.block cx why w).lease = s.lease := rfl
@[simp] theorem State.block_lanternUp (s : State) (cx why : Nat) (w : Wait) : (s.block cx why w).lanternUp = s.lanternUp := rfl
@[simp] theorem State.block_watchdog (s : State) (cx why : Nat) (w : Wait) : (s.block cx why w).watchdog = s.watchdog := rfl
@[simp] theorem State.block_signal (s : State) (cx why : Nat) (w : Wait) : (s.block cx why w).signal = s.signal := rfl
@[simp] theorem State.block_limiter (s : State) (cx why : Nat) (w : Wait) : (s.block cx why w).limiter = s.limiter := rfl
@[simp] theorem State.block_service (s : State) (cx why : Nat) (w : Wait) : (s.block cx why w).service = s.service := rfl
@[simp] theorem State.block_lantern (s : State) (cx why : Nat) (w : Wait) : (s.block cx why w).lantern = s.lantern := rfl
@[simp] theorem State.block_kept (s : State) (cx why : Nat) (w : Wait) : (s.block cx why w).kept = s.kept := rfl
@[simp] theorem State.block_stopped (s : State) (cx why : Nat) (w : Wait) : (s.block cx why w).stopped = s.stopped := rfl
@[simp] theorem State.block_flaws (s : State) (cx why : Nat) (w : Wait) : (s.block cx why w).flaws = s.flaws := rfl
@[simp] theorem State.block_retired (s : State) (cx why : Nat) (w : Wait) : (s.block cx why w).retired = s.retired := rfl
@[simp] theorem State.block_shapes (s : State) (cx why : Nat) (w : Wait) : (s.block cx why w).shapes = s.shapes := rfl
@[simp] theorem State.block_globals (s : State) (cx why : Nat) (w : Wait) : (s.block cx why w).globals = s.globals := rfl
@[simp] theorem State.block_msgs (s : State) (cx why : Nat) (w : Wait) : (s.block cx why w).msgs = s.msgs := rfl
@[simp] theorem State.block_inputs (s : State) (cx why : Nat) (w : Wait) : (s.block cx why w).inputs = s.inputs := rfl
@[simp] theorem State.block_picks (s : State) (cx why : Nat) (w : Wait) : (s.block cx why w).picks = s.picks := rfl
@[simp] theorem State.block_used (s : State) (cx why : Nat) (w : Wait) : (s.block cx why w).used = s.used := rfl
@[simp] theorem State.block_turn (s : State) (cx why : Nat) (w : Wait) : (s.block cx why w).turn = s.turn := rfl
@[simp] theorem State.block_cur (s : State) (cx why : Nat) (w : Wait) : (s.block cx why w).cur = s.cur := rfl
@[simp] theorem State.block_sel (s : State) (cx why : Nat) (w : Wait) : (s.block cx why w).sel = s.sel := rfl
@[simp] theorem State.block_fresh (s : State) (cx why : Nat) (w : Wait) : (s.block cx why w).fresh = s.fresh := rfl
@[simp] theorem State.block_out (s : State) (cx why : Nat) (w : Wait) : (s.block cx why w).out = s.out := rfl
@[simp] theorem State.block_walked (s : State) (cx why : Nat) (w : Wait) : (s.block cx why w).walked = s.walked := rfl
@[simp] theorem State.block_nextEp (s : State) (cx why : Nat) (w : Wait) : (s.block cx why w).nextEp = s.nextEp := rfl
@[simp] theorem State.block_addrs (s : State) (cx why : Nat) (w : Wait) : (s.block cx why w).addrs = s.addrs := rfl
@[simp] theorem State.block_bars (s : State) (cx why : Nat) (w : Wait) : (s.block cx why w).bars = s.bars := rfl
@[simp] theorem State.block_lost (s : State) (cx why : Nat) (w : Wait) : (s.block cx why w).lost = s.lost := rfl
@[simp] theorem State.block_allots (s : State) (cx why : Nat) (w : Wait) : (s.block cx why w).allots = s.allots := rfl
@[simp] theorem State.block_ghosts (s : State) (cx why : Nat) (w : Wait) : (s.block cx why w).ghosts = s.ghosts := rfl

-- State.hold

@[simp] theorem State.hold_mem (s : State) (cx why : Nat) (i : Instr) : (s.hold cx why i).mem = s.mem := rfl
@[simp] theorem State.hold_cores (s : State) (cx why : Nat) (i : Instr) : (s.hold cx why i).cores = s.cores := rfl
@[simp] theorem State.hold_quads (s : State) (cx why : Nat) (i : Instr) : (s.hold cx why i).quads = s.quads := rfl
@[simp] theorem State.hold_quadD (s : State) (cx why : Nat) (i : Instr) : (s.hold cx why i).quadD = s.quadD := rfl
@[simp] theorem State.hold_clusters (s : State) (cx why : Nat) (i : Instr) : (s.hold cx why i).clusters = s.clusters := rfl
@[simp] theorem State.hold_dies (s : State) (cx why : Nat) (i : Instr) : (s.hold cx why i).dies = s.dies := rfl
@[simp] theorem State.hold_parts (s : State) (cx why : Nat) (i : Instr) : (s.hold cx why i).parts = s.parts := rfl
@[simp] theorem State.hold_freeMarks (s : State) (cx why : Nat) (i : Instr) : (s.hold cx why i).freeMarks = s.freeMarks := rfl
@[simp] theorem State.hold_tiles (s : State) (cx why : Nat) (i : Instr) : (s.hold cx why i).tiles = s.tiles := rfl
@[simp] theorem State.hold_regions (s : State) (cx why : Nat) (i : Instr) : (s.hold cx why i).regions = s.regions := rfl
@[simp] theorem State.hold_objs (s : State) (cx why : Nat) (i : Instr) : (s.hold cx why i).objs = s.objs := rfl
@[simp] theorem State.hold_groups (s : State) (cx why : Nat) (i : Instr) : (s.hold cx why i).groups = s.groups := rfl
@[simp] theorem State.hold_resvq (s : State) (cx why : Nat) (i : Instr) : (s.hold cx why i).resvq = s.resvq := rfl
@[simp] theorem State.hold_watches (s : State) (cx why : Nat) (i : Instr) : (s.hold cx why i).watches = s.watches := rfl
@[simp] theorem State.hold_cmds (s : State) (cx why : Nat) (i : Instr) : (s.hold cx why i).cmds = s.cmds := rfl
@[simp] theorem State.hold_nextCmd (s : State) (cx why : Nat) (i : Instr) : (s.hold cx why i).nextCmd = s.nextCmd := rfl
@[simp] theorem State.hold_launches (s : State) (cx why : Nat) (i : Instr) : (s.hold cx why i).launches = s.launches := rfl
@[simp] theorem State.hold_nextLaunch (s : State) (cx why : Nat) (i : Instr) : (s.hold cx why i).nextLaunch = s.nextLaunch := rfl
@[simp] theorem State.hold_graphs (s : State) (cx why : Nat) (i : Instr) : (s.hold cx why i).graphs = s.graphs := rfl
@[simp] theorem State.hold_timers (s : State) (cx why : Nat) (i : Instr) : (s.hold cx why i).timers = s.timers := rfl
@[simp] theorem State.hold_eps (s : State) (cx why : Nat) (i : Instr) : (s.hold cx why i).eps = s.eps := rfl
@[simp] theorem State.hold_peers (s : State) (cx why : Nat) (i : Instr) : (s.hold cx why i).peers = s.peers := rfl
@[simp] theorem State.hold_reds (s : State) (cx why : Nat) (i : Instr) : (s.hold cx why i).reds = s.reds := rfl
@[simp] theorem State.hold_steps (s : State) (cx why : Nat) (i : Instr) : (s.hold cx why i).steps = s.steps := rfl
@[simp] theorem State.hold_pkg (s : State) (cx why : Nat) (i : Instr) : (s.hold cx why i).pkg = s.pkg := rfl
@[simp] theorem State.hold_now (s : State) (cx why : Nat) (i : Instr) : (s.hold cx why i).now = s.now := rfl
@[simp] theorem State.hold_dieCyc (s : State) (cx why : Nat) (i : Instr) : (s.hold cx why i).dieCyc = s.dieCyc := rfl
@[simp] theorem State.hold_cap (s : State) (cx why : Nat) (i : Instr) : (s.hold cx why i).cap = s.cap := rfl
@[simp] theorem State.hold_capSeq (s : State) (cx why : Nat) (i : Instr) : (s.hold cx why i).capSeq = s.capSeq := rfl
@[simp] theorem State.hold_lease (s : State) (cx why : Nat) (i : Instr) : (s.hold cx why i).lease = s.lease := rfl
@[simp] theorem State.hold_lanternUp (s : State) (cx why : Nat) (i : Instr) : (s.hold cx why i).lanternUp = s.lanternUp := rfl
@[simp] theorem State.hold_watchdog (s : State) (cx why : Nat) (i : Instr) : (s.hold cx why i).watchdog = s.watchdog := rfl
@[simp] theorem State.hold_signal (s : State) (cx why : Nat) (i : Instr) : (s.hold cx why i).signal = s.signal := rfl
@[simp] theorem State.hold_limiter (s : State) (cx why : Nat) (i : Instr) : (s.hold cx why i).limiter = s.limiter := rfl
@[simp] theorem State.hold_service (s : State) (cx why : Nat) (i : Instr) : (s.hold cx why i).service = s.service := rfl
@[simp] theorem State.hold_lantern (s : State) (cx why : Nat) (i : Instr) : (s.hold cx why i).lantern = s.lantern := rfl
@[simp] theorem State.hold_kept (s : State) (cx why : Nat) (i : Instr) : (s.hold cx why i).kept = s.kept := rfl
@[simp] theorem State.hold_stopped (s : State) (cx why : Nat) (i : Instr) : (s.hold cx why i).stopped = s.stopped := rfl
@[simp] theorem State.hold_flaws (s : State) (cx why : Nat) (i : Instr) : (s.hold cx why i).flaws = s.flaws := rfl
@[simp] theorem State.hold_retired (s : State) (cx why : Nat) (i : Instr) : (s.hold cx why i).retired = s.retired := rfl
@[simp] theorem State.hold_shapes (s : State) (cx why : Nat) (i : Instr) : (s.hold cx why i).shapes = s.shapes := rfl
@[simp] theorem State.hold_globals (s : State) (cx why : Nat) (i : Instr) : (s.hold cx why i).globals = s.globals := rfl
@[simp] theorem State.hold_msgs (s : State) (cx why : Nat) (i : Instr) : (s.hold cx why i).msgs = s.msgs := rfl
@[simp] theorem State.hold_inputs (s : State) (cx why : Nat) (i : Instr) : (s.hold cx why i).inputs = s.inputs := rfl
@[simp] theorem State.hold_picks (s : State) (cx why : Nat) (i : Instr) : (s.hold cx why i).picks = s.picks := rfl
@[simp] theorem State.hold_used (s : State) (cx why : Nat) (i : Instr) : (s.hold cx why i).used = s.used := rfl
@[simp] theorem State.hold_turn (s : State) (cx why : Nat) (i : Instr) : (s.hold cx why i).turn = s.turn := rfl
@[simp] theorem State.hold_cur (s : State) (cx why : Nat) (i : Instr) : (s.hold cx why i).cur = s.cur := rfl
@[simp] theorem State.hold_sel (s : State) (cx why : Nat) (i : Instr) : (s.hold cx why i).sel = s.sel := rfl
@[simp] theorem State.hold_fresh (s : State) (cx why : Nat) (i : Instr) : (s.hold cx why i).fresh = s.fresh := rfl
@[simp] theorem State.hold_out (s : State) (cx why : Nat) (i : Instr) : (s.hold cx why i).out = s.out := rfl
@[simp] theorem State.hold_walked (s : State) (cx why : Nat) (i : Instr) : (s.hold cx why i).walked = s.walked := rfl
@[simp] theorem State.hold_nextEp (s : State) (cx why : Nat) (i : Instr) : (s.hold cx why i).nextEp = s.nextEp := rfl
@[simp] theorem State.hold_addrs (s : State) (cx why : Nat) (i : Instr) : (s.hold cx why i).addrs = s.addrs := rfl
@[simp] theorem State.hold_bars (s : State) (cx why : Nat) (i : Instr) : (s.hold cx why i).bars = s.bars := rfl
@[simp] theorem State.hold_lost (s : State) (cx why : Nat) (i : Instr) : (s.hold cx why i).lost = s.lost := rfl
@[simp] theorem State.hold_allots (s : State) (cx why : Nat) (i : Instr) : (s.hold cx why i).allots = s.allots := rfl
@[simp] theorem State.hold_ghosts (s : State) (cx why : Nat) (i : Instr) : (s.hold cx why i).ghosts = s.ghosts := rfl

-- Reading a unit after a unit of its kind was changed

@[simp] theorem State.ctx_setCtx (s : State) (cx : Nat) (c : Ctx) : (s.setCtx cx c).ctx cx = c := by
  simp [State.ctx, State.setCtx]

theorem State.ctx_setCtx_ne (s : State) (cx k : Nat) (c : Ctx) (h : k ≠ cx) : (s.setCtx cx c).ctx k = s.ctx k := by
  simp [State.ctx, State.setCtx, tget_tset_ne _ _ _ _ _ h]

@[simp] theorem State.ctx_modCtx (s : State) (cx : Nat) (f : Ctx → Ctx) : (s.modCtx cx f).ctx cx = f (s.ctx cx) := by
  simp [State.modCtx]

theorem State.ctx_modCtx_ne (s : State) (cx k : Nat) (f : Ctx → Ctx) (h : k ≠ cx) : (s.modCtx cx f).ctx k = s.ctx k := by
  simp [State.modCtx, State.ctx_setCtx_ne _ _ _ _ h]

@[simp] theorem State.ctx_finish (s : State) (cx n : Nat) (f : Ctx → Ctx) :
    (s.finish cx n f).ctx cx = ((f (s.ctx cx)).advance n).ready := by
  simp [State.finish]

theorem State.ctx_finish_ne (s : State) (cx k n : Nat) (f : Ctx → Ctx) (h : k ≠ cx) :
    (s.finish cx n f).ctx k = s.ctx k := by
  simp [State.finish, State.ctx_modCtx_ne _ _ _ _ h]

@[simp] theorem State.core_setCore (s : State) (k : Nat) (c : Core) : (s.setCore k c).core k = c := by
  simp [State.core, State.setCore]

theorem State.core_setCore_ne (s : State) (k j : Nat) (c : Core) (h : j ≠ k) : (s.setCore k c).core j = s.core j := by
  simp [State.core, State.setCore, tget_tset_ne _ _ _ _ _ h]

@[simp] theorem State.core_modCore (s : State) (k : Nat) (f : Core → Core) : (s.modCore k f).core k = f (s.core k) := by
  simp [State.modCore]

theorem State.core_modCore_ne (s : State) (k j : Nat) (f : Core → Core) (h : j ≠ k) :
    (s.modCore k f).core j = s.core j := by
  simp [State.modCore, State.core_setCore_ne _ _ _ _ h]

@[simp] theorem State.die_modDie (s : State) (d : Nat) (f : Die → Die) : (s.modDie d f).die d = f (s.die d) := by
  simp [State.die, State.modDie]

@[simp] theorem State.part_modPart (s : State) (p : Nat) (f : Part → Part) : (s.modPart p f).part p = f (s.part p) := by
  simp [State.part, State.modPart]

@[simp] theorem State.cluster_modCluster (s : State) (k : Nat) (f : Cluster → Cluster) :
    (s.modCluster k f).cluster k = f (s.cluster k) := by
  simp [State.cluster, State.modCluster]

@[simp] theorem State.me_modMe (s : State) (f : Ctx → Ctx) : (s.modMe f).me = f s.me := by
  simp [State.modMe, State.me]

-- A context outside a frame moves past its instruction

theorem Ctx.advance_plain (c : Ctx) (n : Nat) (h : c.frame = none) :
    c.advance n = { c with pc := wrapPc (c.pc + BitVec.ofNat 64 n) } := by
  simp [Ctx.advance, h]

-- State.modQuad

@[simp] theorem State.modQuad_mem (s : State) (q : Nat) (g : Quad → Quad) : (s.modQuad q g).mem = s.mem := by
  unfold State.modQuad; split <;> rfl
@[simp] theorem State.modQuad_ctxs (s : State) (q : Nat) (g : Quad → Quad) : (s.modQuad q g).ctxs = s.ctxs := by
  unfold State.modQuad; split <;> rfl
@[simp] theorem State.modQuad_cores (s : State) (q : Nat) (g : Quad → Quad) : (s.modQuad q g).cores = s.cores := by
  unfold State.modQuad; split <;> rfl
@[simp] theorem State.modQuad_walked (s : State) (q : Nat) (g : Quad → Quad) : (s.modQuad q g).walked = s.walked := by
  unfold State.modQuad; split <;> rfl
@[simp] theorem State.modQuad_clusters (s : State) (q : Nat) (g : Quad → Quad) : (s.modQuad q g).clusters = s.clusters := by
  unfold State.modQuad; split <;> rfl
@[simp] theorem State.modQuad_dies (s : State) (q : Nat) (g : Quad → Quad) : (s.modQuad q g).dies = s.dies := by
  unfold State.modQuad; split <;> rfl
@[simp] theorem State.modQuad_parts (s : State) (q : Nat) (g : Quad → Quad) : (s.modQuad q g).parts = s.parts := by
  unfold State.modQuad; split <;> rfl
@[simp] theorem State.modQuad_freeMarks (s : State) (q : Nat) (g : Quad → Quad) : (s.modQuad q g).freeMarks = s.freeMarks := by
  unfold State.modQuad; split <;> rfl
@[simp] theorem State.modQuad_tiles (s : State) (q : Nat) (g : Quad → Quad) : (s.modQuad q g).tiles = s.tiles := by
  unfold State.modQuad; split <;> rfl
@[simp] theorem State.modQuad_regions (s : State) (q : Nat) (g : Quad → Quad) : (s.modQuad q g).regions = s.regions := by
  unfold State.modQuad; split <;> rfl
@[simp] theorem State.modQuad_objs (s : State) (q : Nat) (g : Quad → Quad) : (s.modQuad q g).objs = s.objs := by
  unfold State.modQuad; split <;> rfl
@[simp] theorem State.modQuad_groups (s : State) (q : Nat) (g : Quad → Quad) : (s.modQuad q g).groups = s.groups := by
  unfold State.modQuad; split <;> rfl
@[simp] theorem State.modQuad_resvq (s : State) (q : Nat) (g : Quad → Quad) : (s.modQuad q g).resvq = s.resvq := by
  unfold State.modQuad; split <;> rfl
@[simp] theorem State.modQuad_watches (s : State) (q : Nat) (g : Quad → Quad) : (s.modQuad q g).watches = s.watches := by
  unfold State.modQuad; split <;> rfl
@[simp] theorem State.modQuad_cmds (s : State) (q : Nat) (g : Quad → Quad) : (s.modQuad q g).cmds = s.cmds := by
  unfold State.modQuad; split <;> rfl
@[simp] theorem State.modQuad_nextCmd (s : State) (q : Nat) (g : Quad → Quad) : (s.modQuad q g).nextCmd = s.nextCmd := by
  unfold State.modQuad; split <;> rfl
@[simp] theorem State.modQuad_launches (s : State) (q : Nat) (g : Quad → Quad) : (s.modQuad q g).launches = s.launches := by
  unfold State.modQuad; split <;> rfl
@[simp] theorem State.modQuad_nextLaunch (s : State) (q : Nat) (g : Quad → Quad) : (s.modQuad q g).nextLaunch = s.nextLaunch := by
  unfold State.modQuad; split <;> rfl
@[simp] theorem State.modQuad_graphs (s : State) (q : Nat) (g : Quad → Quad) : (s.modQuad q g).graphs = s.graphs := by
  unfold State.modQuad; split <;> rfl
@[simp] theorem State.modQuad_timers (s : State) (q : Nat) (g : Quad → Quad) : (s.modQuad q g).timers = s.timers := by
  unfold State.modQuad; split <;> rfl
@[simp] theorem State.modQuad_eps (s : State) (q : Nat) (g : Quad → Quad) : (s.modQuad q g).eps = s.eps := by
  unfold State.modQuad; split <;> rfl
@[simp] theorem State.modQuad_nextEp (s : State) (q : Nat) (g : Quad → Quad) : (s.modQuad q g).nextEp = s.nextEp := by
  unfold State.modQuad; split <;> rfl
@[simp] theorem State.modQuad_peers (s : State) (q : Nat) (g : Quad → Quad) : (s.modQuad q g).peers = s.peers := by
  unfold State.modQuad; split <;> rfl
@[simp] theorem State.modQuad_addrs (s : State) (q : Nat) (g : Quad → Quad) : (s.modQuad q g).addrs = s.addrs := by
  unfold State.modQuad; split <;> rfl
@[simp] theorem State.modQuad_bars (s : State) (q : Nat) (g : Quad → Quad) : (s.modQuad q g).bars = s.bars := by
  unfold State.modQuad; split <;> rfl
@[simp] theorem State.modQuad_reds (s : State) (q : Nat) (g : Quad → Quad) : (s.modQuad q g).reds = s.reds := by
  unfold State.modQuad; split <;> rfl
@[simp] theorem State.modQuad_steps (s : State) (q : Nat) (g : Quad → Quad) : (s.modQuad q g).steps = s.steps := by
  unfold State.modQuad; split <;> rfl
@[simp] theorem State.modQuad_pkg (s : State) (q : Nat) (g : Quad → Quad) : (s.modQuad q g).pkg = s.pkg := by
  unfold State.modQuad; split <;> rfl
@[simp] theorem State.modQuad_now (s : State) (q : Nat) (g : Quad → Quad) : (s.modQuad q g).now = s.now := by
  unfold State.modQuad; split <;> rfl
@[simp] theorem State.modQuad_dieCyc (s : State) (q : Nat) (g : Quad → Quad) : (s.modQuad q g).dieCyc = s.dieCyc := by
  unfold State.modQuad; split <;> rfl
@[simp] theorem State.modQuad_cap (s : State) (q : Nat) (g : Quad → Quad) : (s.modQuad q g).cap = s.cap := by
  unfold State.modQuad; split <;> rfl
@[simp] theorem State.modQuad_capSeq (s : State) (q : Nat) (g : Quad → Quad) : (s.modQuad q g).capSeq = s.capSeq := by
  unfold State.modQuad; split <;> rfl
@[simp] theorem State.modQuad_lease (s : State) (q : Nat) (g : Quad → Quad) : (s.modQuad q g).lease = s.lease := by
  unfold State.modQuad; split <;> rfl
@[simp] theorem State.modQuad_lanternUp (s : State) (q : Nat) (g : Quad → Quad) : (s.modQuad q g).lanternUp = s.lanternUp := by
  unfold State.modQuad; split <;> rfl
@[simp] theorem State.modQuad_watchdog (s : State) (q : Nat) (g : Quad → Quad) : (s.modQuad q g).watchdog = s.watchdog := by
  unfold State.modQuad; split <;> rfl
@[simp] theorem State.modQuad_signal (s : State) (q : Nat) (g : Quad → Quad) : (s.modQuad q g).signal = s.signal := by
  unfold State.modQuad; split <;> rfl
@[simp] theorem State.modQuad_limiter (s : State) (q : Nat) (g : Quad → Quad) : (s.modQuad q g).limiter = s.limiter := by
  unfold State.modQuad; split <;> rfl
@[simp] theorem State.modQuad_service (s : State) (q : Nat) (g : Quad → Quad) : (s.modQuad q g).service = s.service := by
  unfold State.modQuad; split <;> rfl
@[simp] theorem State.modQuad_lantern (s : State) (q : Nat) (g : Quad → Quad) : (s.modQuad q g).lantern = s.lantern := by
  unfold State.modQuad; split <;> rfl
@[simp] theorem State.modQuad_kept (s : State) (q : Nat) (g : Quad → Quad) : (s.modQuad q g).kept = s.kept := by
  unfold State.modQuad; split <;> rfl
@[simp] theorem State.modQuad_stopped (s : State) (q : Nat) (g : Quad → Quad) : (s.modQuad q g).stopped = s.stopped := by
  unfold State.modQuad; split <;> rfl
@[simp] theorem State.modQuad_flaws (s : State) (q : Nat) (g : Quad → Quad) : (s.modQuad q g).flaws = s.flaws := by
  unfold State.modQuad; split <;> rfl
@[simp] theorem State.modQuad_retired (s : State) (q : Nat) (g : Quad → Quad) : (s.modQuad q g).retired = s.retired := by
  unfold State.modQuad; split <;> rfl
@[simp] theorem State.modQuad_lost (s : State) (q : Nat) (g : Quad → Quad) : (s.modQuad q g).lost = s.lost := by
  unfold State.modQuad; split <;> rfl
@[simp] theorem State.modQuad_allots (s : State) (q : Nat) (g : Quad → Quad) : (s.modQuad q g).allots = s.allots := by
  unfold State.modQuad; split <;> rfl
@[simp] theorem State.modQuad_shapes (s : State) (q : Nat) (g : Quad → Quad) : (s.modQuad q g).shapes = s.shapes := by
  unfold State.modQuad; split <;> rfl
@[simp] theorem State.modQuad_globals (s : State) (q : Nat) (g : Quad → Quad) : (s.modQuad q g).globals = s.globals := by
  unfold State.modQuad; split <;> rfl
@[simp] theorem State.modQuad_msgs (s : State) (q : Nat) (g : Quad → Quad) : (s.modQuad q g).msgs = s.msgs := by
  unfold State.modQuad; split <;> rfl
@[simp] theorem State.modQuad_ghosts (s : State) (q : Nat) (g : Quad → Quad) : (s.modQuad q g).ghosts = s.ghosts := by
  unfold State.modQuad; split <;> rfl
@[simp] theorem State.modQuad_inputs (s : State) (q : Nat) (g : Quad → Quad) : (s.modQuad q g).inputs = s.inputs := by
  unfold State.modQuad; split <;> rfl
@[simp] theorem State.modQuad_picks (s : State) (q : Nat) (g : Quad → Quad) : (s.modQuad q g).picks = s.picks := by
  unfold State.modQuad; split <;> rfl
@[simp] theorem State.modQuad_used (s : State) (q : Nat) (g : Quad → Quad) : (s.modQuad q g).used = s.used := by
  unfold State.modQuad; split <;> rfl
@[simp] theorem State.modQuad_turn (s : State) (q : Nat) (g : Quad → Quad) : (s.modQuad q g).turn = s.turn := by
  unfold State.modQuad; split <;> rfl
@[simp] theorem State.modQuad_cur (s : State) (q : Nat) (g : Quad → Quad) : (s.modQuad q g).cur = s.cur := by
  unfold State.modQuad; split <;> rfl
@[simp] theorem State.modQuad_sel (s : State) (q : Nat) (g : Quad → Quad) : (s.modQuad q g).sel = s.sel := by
  unfold State.modQuad; split <;> rfl
@[simp] theorem State.modQuad_fresh (s : State) (q : Nat) (g : Quad → Quad) : (s.modQuad q g).fresh = s.fresh := by
  unfold State.modQuad; split <;> rfl
@[simp] theorem State.modQuad_out (s : State) (q : Nat) (g : Quad → Quad) : (s.modQuad q g).out = s.out := by
  unfold State.modQuad; split <;> rfl

end Sys2Proof.Machine
end

