-- ==== Sys2Proof/Laws/Ops.lean ====
section
/-! SUPPORT. What the shared operations do, once each: the units that an operation writes, the memory that it leaves or
changes, and the completion of an instruction on its context's registers. -/

namespace Sys2Proof.Machine

-- Contexts

/-- Reading a context after one was written. -/
theorem ctx_setCtx (s : State) (k j : Nat) (c : Ctx) : (s.setCtx k c).ctx j = if j = k then c else s.ctx j := by
  by_cases h : j = k
  · subst h; simp [State.ctx, State.setCtx]
  · simp [State.ctx, State.setCtx, h, tget_tset_ne]

/-- Writing a context changes nothing but that context. -/
theorem onlyContext_setCtx (s : State) (k : Nat) (c : Ctx) : onlyContext s (s.setCtx k c) k :=
  ⟨rfl, fun j hj => by simp [ctx_setCtx, hj]⟩

/-- An instruction that only changes registers of its context completes with them. -/
theorem retire_completes (f : Ctx → Ctx) (s : State) : ∃ t, retire f s = .next t ∧ completes s t 4 (f s.me) :=
  ⟨_, rfl, onlyContext_setCtx _ _ _, by simp [State.finish, State.modCtx, State.me]⟩

/-- A trap of the current context goes on in a next state. -/
theorem trap_next (cause : Nat) (val : Word) (s : State) : trap cause val s = .next (s.takeTrap s.cur cause val s.me.pc) := rfl

/-- A privileged instruction runs where it is permitted, and takes a protection trap elsewhere (R28, R74). -/
theorem privileged_eq (ok : Bool) (s : State) (k : State → Out) :
    privileged ok s k = if ok then k s else .next (s.takeTrap s.cur 5 0 s.me.pc) := rfl

-- Memory that an operation leaves as it was

@[simp] theorem modMe_mem (s : State) (f : Ctx → Ctx) : (s.modMe f).mem = s.mem := rfl
@[simp] theorem modPage_mem (s : State) (k p : Nat) (f : PageDesc → PageDesc) : (s.modPage k p f).mem = s.mem := rfl
@[simp] theorem holdAt_mem (s : State) (cx why : Nat) (i : Instr) (va : Word) : (s.holdAt cx why i va).mem = s.mem := rfl
@[simp] theorem release_mem (s : State) (cx : Nat) : (s.release cx).mem = s.mem := rfl
@[simp] theorem logErr_mem (s : State) (die kind part addr info : Nat) : (s.logErr die kind part addr info).mem = s.mem := rfl
@[simp] theorem logFatal_mem (s : State) (die part cause : Nat) (val : Word) (at_ : Word) (tid : BitVec 32) :
    (s.logFatal die part cause val at_ tid).mem = s.mem := rfl
@[simp] theorem putObj_mem (s : State) (line : Nat) (r : ObjStep) : (s.putObj line r).mem = s.mem := rfl
@[simp] theorem putGroup_mem (s : State) (g : Group) (w : List GWake) : (s.putGroup g w).mem = s.mem := by
  unfold State.putGroup; simp only [State.sendAll_mem]; split <;> rfl
@[simp] theorem freeNotices_mem (s : State) (k : Nat) : (s.freeNotices k).mem = s.mem := rfl
@[simp] theorem freeSlot_mem (s : State) (cx : Nat) : (s.freeSlot cx).mem = s.mem := rfl
@[simp] theorem queueExit_mem (s : State) (cx : Nat) (a b : Word) : (s.queueExit cx a b).mem = s.mem := by
  unfold State.queueExit; dsimp only; split <;> rfl
@[simp] theorem fallbackLocks_mem (s : State) (cx : Nat) (tid : BitVec 32) (o : List Nat) :
    (s.fallbackLocks cx tid o).mem = s.mem := rfl
@[simp] theorem withdraw_mem (s : State) (cx : Nat) (tid : BitVec 32) : (s.withdraw cx tid).mem = s.mem := rfl
@[simp] theorem loseGroups_mem (s : State) (cx : Nat) (tid : BitVec 32) : (s.loseGroups cx tid).mem = s.mem := by
  unfold State.loseGroups
  generalize s.groups = l
  induction l generalizing s with
  | nil => rfl
  | cons g l ih => rw [List.foldl_cons, ih]; split <;> simp
@[simp] theorem breakResv_mem (s : State) (cx : Nat) (tid : BitVec 32) : (s.breakResv cx tid).mem = s.mem := rfl
@[simp] theorem countEnd_mem (s : State) (l : Option Nat) (k : Nat) (b : Bool) : (s.countEnd l k b).mem = s.mem := by
  cases l <;> rfl
@[simp] theorem leaveGhost_mem (s : State) (cx : Nat) : (s.leaveGhost cx).mem = s.mem := by
  unfold State.leaveGhost; split <;> rfl
@[simp] theorem dropResults_mem (s : State) (cx : Nat) : (s.dropResults cx).mem = s.mem := by
  unfold State.dropResults; dsimp only; split <;> rfl
@[simp] theorem endCtx_mem (s : State) (cx reason : Nat) : (s.endCtx cx reason).mem = s.mem := by
  unfold State.endCtx; dsimp only; rw [queueExit_mem, countEnd_mem]; repeat' (split <;> simp)
@[simp] theorem fatal_mem (s : State) (cx cause : Nat) (val at_ : Word) : (s.fatal cx cause val at_).mem = s.mem := by
  unfold State.fatal; dsimp only; split <;> simp
@[simp] theorem ownerFallback_mem (s : State) (cx : Nat) (at_ : Word) : (s.ownerFallback cx at_).1.mem = s.mem := by
  unfold State.ownerFallback; dsimp only; split <;> simp
/-- Taking a trap leaves memory as it was, whether it is caught or fatal (R270, R271). -/
@[simp] theorem takeTrapAs_mem (s : State) (cx cause : Nat) (val at_ : Word) (a b : Bool) :
    (s.takeTrapAs cx cause val at_ a b).mem = s.mem := by
  unfold State.takeTrapAs; dsimp only; split <;> simp
@[simp] theorem takeTrap_mem (s : State) (cx cause : Nat) (val at_ : Word) : (s.takeTrap cx cause val at_).mem = s.mem := by
  simp [State.takeTrap]

-- Writing memory

@[simp] theorem dirtyPages_mem (s : State) (l : List Host.Cell) : (s.dirtyPages l).mem = s.mem := by
  induction l with
  | nil => rfl
  | cons c l ih => unfold State.dirtyPages; dsimp only; split <;> (try split) <;> simp [ih]
@[simp] theorem wakeWatches_mem (s : State) (l : List Host.Cell) : (s.wakeWatches l).mem = s.mem := rfl

/-- What a store does with memory: each cell at its place, in order. -/
theorem store_mem (s : State) (l : List Host.Cell) :
    (s.store l).mem = l.foldl (fun m c => memSet m (s.phys c.1) c.2) s.mem := by
  unfold State.store; simp

/-- A byte that no cell of a store lies at is as before. -/
theorem store_other (s : State) (l : List Host.Cell) (x : Nat) (h : ∀ c ∈ l, x ≠ s.phys c.1) :
    (s.store l).byteAt x = s.byteAt x := by
  unfold State.byteAt; rw [store_mem]
  generalize s.mem = m
  induction l generalizing m with
  | nil => rfl
  | cons c l ih =>
    rw [List.foldl_cons, ih (fun d hd => h d (List.mem_cons_of_mem _ hd)), memGet_memSet_ne _ _ _ _ (h c (List.mem_cons_self ..))]

/-- A store keeps the canonical form. -/
theorem store_inv (s : State) (l : List Host.Cell) (h : s.Inv) : (s.store l).Inv := by
  unfold State.Inv; rw [store_mem]; exact memFold_wf _ _ l s.mem h

/-- Storing a number keeps the canonical form. -/
theorem storeAt_inv (s : State) (l : List Nat) (v : Nat) (h : s.Inv) : (s.storeAt l v).Inv := store_inv s _ h

/-- An operation that leaves memory as it was keeps the canonical form. -/
theorem inv_of_mem (s t : State) (h : t.mem = s.mem) (hs : s.Inv) : t.Inv := by unfold State.Inv; rw [h]; exact hs

/-- A write at its home, queued or performed, keeps the canonical form. -/
theorem homeWrite_inv (s : State) (k : Option Nat) (l : List Host.Cell) (h : s.Inv) : (s.homeWrite k l).Inv := by
  unfold State.homeWrite; dsimp only
  split
  · exact h
  · split
    · exact h
    · exact store_inv s _ h

/-- The clearing of a tile at its birth keeps the canonical form. -/
theorem birth_inv (s : State) (t part : Nat) (h : s.Inv) : (s.birth t part).Inv := memClear_wf _ _ _ h
/-- Marking a block free keeps the canonical form. -/
theorem markFree_inv (s : State) (part : Option Nat) (b : Nat) (h : s.Inv) : (s.markFree part b).Inv := memClear_wf _ _ _ h
/-- The clearing of a cluster's scratchpads keeps the canonical form. -/
theorem clearScratch_inv (s : State) (k : Nat) (h : s.Inv) : (s.clearScratch k).Inv := memClear_wf _ _ _ h
/-- Bringing a page in keeps the canonical form. -/
theorem copyIn_inv (s : State) (k p : Nat) (h : s.Inv) : (s.copyIn k p).Inv := memCopy_wf _ _ _ _ h
/-- Writing a page back keeps the canonical form. -/
theorem copyOut_inv (s : State) (k p : Nat) (h : s.Inv) : (s.copyOut k p).Inv := memCopy_wf _ _ _ _ h
/-- Placing an instruction for the next step keeps the canonical form. -/
theorem withFetchWord_inv (s : State) (n w : Nat) (h : s.Inv) : (s.withFetchWord n w).Inv := memWrite_wf _ _ _ _ h

end Sys2Proof.Machine
end

