-- ==== Sys2Proof/Tests/Slice0.lean ====
section
/-! SUPPORT. The model's own tests: instruction words written out from the manual's encoding tables (R21 to R33), ill-formed
terms that the checks refuse, words that decoding refuses, and, for every statement with hypotheses, a state that meets
those of its clauses at the ends of their ranges, with what a single step does there. The expected values are worked out
from the manual's rules. -/

open Sys2Proof Sys2Proof.Machine
set_option Elab.async false
namespace Sys2Proof.Tests

/-- Translations of partition 0: the global window from physical address 0, the Cupola and the fleeting memory of die 0. -/
def tlbs : List TlbEnt :=
  [⟨0, 16, 2 ^ 28, 0, true, true⟩, ⟨0, 21, 2 ^ 20, 0, true, false⟩, ⟨0, 21, 3 * 2 ^ 19, 0, true, false⟩]

/-- A resident page. -/
def resident : PageDesc := { PageDesc.reset with v := true, res := true }

/-- Core 0 with its translations and a resident page 0. -/
def core0 : Core := { Core.reset with tlb := tlbs, pages := [(0, resident)] }

/-- A READY context that catches traps; g1 holds the first address of its scratchpad, g2 of the global window, g3 of the
Cupola and g4 of fleeting memory, g5 is 5. -/
def user : Ctx :=
  { Ctx.reset with
    state := .ready, tid := 33, pc := 0x100000000100, tvec := 0x100000000200
    g := #v[0, 0x1000000, 0x100000000000, 0x20000000000, 0x30000000000, 5, 0, 0, 0, 0, 0, 0, 0, 0, 0, 0] }

/-- Cluster 0 belongs to partition 0; context `cx` of core 0 is `c`, and acts. -/
def machine (cx : Nat) (c : Ctx) : State :=
  { State.reset with
    cur := cx, ctxs := [(cx, c)], cores := [(0, core0)], clusters := [(0, { Cluster.reset with part := some 0 })] }

/-- Context 1 of core 0 acts. -/
def m1 : State := machine 1 user
/-- Context 0 of core 0 acts. -/
def m0 : State := machine 0 user

/-- `exec` answers a next state with a property. -/
def runs (i : Instr) (s : State) (p : State → Bool) : Bool :=
  match exec i s with
  | .next t => p t
  | _ => false

/-- `exec` runs an instruction, its request is performed at its home by `ev`, and the reply ends it. -/
def trips (ev i : Instr) (s : State) (p : State → Bool) : Bool :=
  runs i s fun u => runs ev { u with sel := s.msgs.length } fun t => runs .remoteReply { t with sel := t.msgs.length - 1 } p

/-- An instruction, the event on its first message, and the event on the message sent last. -/
def chains (i ev1 ev2 : Instr) (s : State) (p : State → Bool) : Bool :=
  runs i s fun u => runs ev1 { u with sel := s.msgs.length } fun t => runs ev2 { t with sel := t.msgs.length - 1 } p


/-- No core holds a line when no listed core does. -/
theorem l1_nil (s : State) (h : ∀ e ∈ s.cores, e.2.l1 = []) (k : Nat) : (s.core k).l1 = [] :=
  tget_all Core.reset (fun c => c.l1 = []) rfl k s.cores h

-- Decoding: at least one word of each family (R21 to R33)

theorem test_decode_add : decodeTableWord 32 0b000001_00010010001100000000000000 = some (.add 1 2 3) := by decide
theorem test_decode_sub : decodeTableWord 32 0b000001_11111110110100000000000001 = some (.sub 15 14 13) := by decide
theorem test_decode_sel : decodeTableWord 32 0b000001_01000101011001110000010010 = some (.sel 4 5 6 7) := by decide
theorem test_decode_bfi : decodeTableWord 32 0b000001_00010010001100000000010001 = some (.bfi 1 2 3) := by decide
theorem test_decode_addi : decodeTableWord 32 0b000010_00010010111111111111111111 = some (.addi 1 2 0x3FFFF) := by decide
theorem test_decode_ori : decodeTableWord 32 0b000011_00010010011010101111001101 = some (.ori 1 2 0xABCD) := by decide
theorem test_decode_sari : decodeTableWord 32 0b000100_00110100010000000000111111 = some (.sari 3 4 63) := by decide
theorem test_decode_bfx_imm : decodeTableWord 32 0b000100_00110100011000001000001111 = some (.bfxImm 3 4 8 15) := by decide
theorem test_decode_lui : decodeTableWord 32 0b000101_10011000000000000000000001 = some (.lui 9 0x200001) := by decide
theorem test_decode_adpc : decodeTableWord 32 0b000110_10010000000000000000000011 = some (.adpc 9 3) := by decide
theorem test_decode_cmp : decodeTableWord 32 0b000111_01010110011100000000000011 = some (.cmp .ltn 5 6 7) := by decide
theorem test_decode_cmpi : decodeTableWord 32 0b001000_01010110100111111111111111 = some (.cmpi .le 5 6 0x7FFF) := by decide
theorem test_decode_mulhn : decodeTableWord 32 0b001001_00010010001100000000000010 = some (.mulhn 1 2 3) := by decide
theorem test_decode_rem : decodeTableWord 32 0b001001_00010010001100000000000101 = some (.rem 1 2 3) := by decide
theorem test_decode_fma : decodeTableWord 32 0b001010_00010010001101000101000011 = some (.fma .f32 .rd 1 2 3 4) := by decide
theorem test_decode_fcmp : decodeTableWord 32 0b001010_00010010001100110000001000 = some (.fcmp .un .f64 1 2 3) := by decide
theorem test_decode_fcvt_d2i : decodeTableWord 32 0b001011_10100011000000000010101000 = some (.fcvtD2i .rz .w32 10 3) := by decide
theorem test_decode_fcvt_i2s : decodeTableWord 32 0b001011_00111010000000001001010100 = some (.fcvtI2s .rna .i64 3 10) := by decide
theorem test_decode_br : decodeTableWord 32 0b001100_01011111111111111111111111 = some (.br 2 true 0x3FFFFF) := by decide
theorem test_decode_jal : decodeTableWord 32 0b001101_11100000000000000000000101 = some (.jal 14 5) := by decide
theorem test_decode_jalr : decodeTableWord 32 0b001110_11100011000000000000000010 = some (.jalr 14 3 2) := by decide
theorem test_decode_rpt : decodeTableWord 32 0b001111_00010001101000000001100100 = some (.rpt 2 1 5 100) := by decide
theorem test_decode_rpt_reg : decodeTableWord 32 0b001111_10010001101000000000001001 = some (.rptReg 2 1 5 9) := by decide
theorem test_decode_ld : decodeTableWord 32 0b010000_00010010011011111111111111 = some (.ld .h true 1 2 0x3FFF) := by decide
theorem test_decode_st_rel : decodeTableWord 32 0b010001_00010010111000000000000001 = some (.stRel .d 1 2 1) := by decide
theorem test_decode_pf_llc : decodeTableWord 32 0b010010_00010010010000000000000001 = some (.pfLlc 2 1) := by decide
theorem test_decode_ldf_indexed : decodeTableWord 32 0b010011_00010010001101000000101100 = some (.ldfIndexed .w true 1 2 3 4) := by decide
theorem test_decode_life_set : decodeTableWord 32 0b010011_00000010001100000101000000 = some (.lifeSet 2 3) := by decide
theorem test_decode_amo : decodeTableWord 32 0b010100_00010010001100000100101111 = some (.amo .min true .ar .pkg 1 2 3) := by decide
theorem test_decode_amo_cas : decodeTableWord 32 0b010100_00010010001101001001011010 = some (.amoCas false .acq .clus 1 2 3 4) := by decide
theorem test_decode_resv : decodeTableWord 32 0b010100_00010010000000001010100011 = some (.resv true true .die 1 2) := by decide
theorem test_decode_rlse : decodeTableWord 32 0b010100_00010010001100001011100100 = some (.rlse false true .die 1 2 3) := by decide
theorem test_decode_fence_ar : decodeTableWord 32 0b010101_00000000000011101000000000 = some (.fenceAr .pkg) := by decide
theorem test_decode_iinv : decodeTableWord 32 0b010101_00000011001000010000000000 = some (.iinv .quad 3) := by decide
theorem test_decode_qwait : decodeTableWord 32 0b010101_00000000001010100000000001 = some (.qwait .die true) := by decide
theorem test_decode_cwb_all : decodeTableWord 32 0b010101_00000000000101000000000000 = some (.cwbAll) := by decide
theorem test_decode_mfree : decodeTableWord 32 0b010101_01000101001011000000000000 = some (.mfree 4 5) := by decide
theorem test_decode_sinit : decodeTableWord 32 0b010110_00001000101100000001000010 = some (.sinit .ring .die 4 5) := by decide
theorem test_decode_sarr_eos : decodeTableWord 32 0b010110_00001000101000000101000001 = some (.sarrEos 4 5) := by decide
theorem test_decode_slock_call : decodeTableWord 32 0b010110_00001000101000000011000001 = some (.slockCall 4 5) := by decide
theorem test_decode_gmake : decodeTableWord 32 0b010111_00100100011011000001000000 = some (.gmake .clus 2 1 3) := by decide
theorem test_decode_gvote : decodeTableWord 32 0b010111_00100100011000000101000001 = some (.gvote .all 2 1 3) := by decide
theorem test_decode_gred : decodeTableWord 32 0b010111_00100100011000000110100001 = some (.gred .max .w64 2 1 3) := by decide
theorem test_decode_spawn : decodeTableWord 32 0b011000_00010010001101000000000001 = some (.spawn 1 2 3 4) := by decide
theorem test_decode_yield : decodeTableWord 32 0b011000_00000000011100000000000110 = some (.yield 7) := by decide
theorem test_decode_kill : decodeTableWord 32 0b011000_00010010000000000000000100 = some (.kill 1 2) := by decide
theorem test_decode_vfma : decodeTableWord 32 0b011001_00101001110000010011000011 = some (.vfma .ru 1 2 3 4 2) := by decide
theorem test_decode_vcmp : decodeTableWord 32 0b011010_00101001101011111000000111 = some (.vcmp .lt .f32 1 2 3 3) := by decide
theorem test_decode_vshr : decodeTableWord 32 0b011010_00101001100001001000000100 = some (.vshr .i16 1 2 3 1) := by decide
theorem test_decode_vsel : decodeTableWord 32 0b011010_00101001100100010000001000 = some (.vsel 1 2 3 1 2) := by decide
theorem test_decode_vld : decodeTableWord 32 0b011011_00111111100000010000100100 = some (.vld 1 9 63 2) := by decide
theorem test_decode_vscat : decodeTableWord 32 0b011011_00000000101000011011100100 = some (.vscat 2 9 1 3) := by decide
theorem test_decode_vperm : decodeTableWord 32 0b011011_00101001100000001101100000 = some (.vperm 1 2 3 8 1) := by decide
theorem test_decode_vcvt_f2i : decodeTableWord 32 0b011100_00101000000000111001000011 = some (.vcvtF2i .rz .w32 1 2 3) := by decide
theorem test_decode_venc : decodeTableWord 32 0b011100_00101000000000011000001110 = some (.venc 1 2 2 3) := by decide
theorem test_decode_vred : decodeTableWord 32 0b011101_00101000000000011000000001 = some (.vred .min .i32 1 2 3) := by decide
theorem test_decode_vtwid : decodeTableWord 32 0b011101_00101000000000011000110100 = some (.vtwid 1 2 20 3) := by decide
theorem test_decode_mma_q8 : decodeTableWord 32 0b011110_11010001010110000000000010 = some (.mmaQ8 3 4 5 6) := by decide
theorem test_decode_mlatch : decodeTableWord 32 0b011110_00000001010000000100000100 = some (.mlatch .h16 5) := by decide
theorem test_decode_cpy2_x : decodeTableWord 32 0b011111_00110100100010101100011101 = some (.cpy2X .pkg 3 2 4 5 6) := by decide
theorem test_decode_cpt : decodeTableWord 32 0b011111_00110100100010101100101110 = some (.cpt .pod 3 2 4 5 6) := by decide
theorem test_decode_cpw : decodeTableWord 32 0b011111_00000100000010100001011000 = some (.cpw 2 5) := by decide
theorem test_decode_wake_at : decodeTableWord 32 0b100000_00010010001000001100000000 = some (.wakeAt 1 2 3) := by decide
theorem test_decode_notify : decodeTableWord 32 0b100000_00000010000101001100000000 = some (.notify 2 3) := by decide
theorem test_decode_pwrq : decodeTableWord 32 0b100001_00010010000011000000000000 = some (.pwrq 1 2) := by decide
theorem test_decode_npost : decodeTableWord 32 0b100010_00000000001001000110001000 = some (.npost 1 2 3) := by decide
theorem test_decode_trap : decodeTableWord 32 0b100011_00000000000001101010111100 = some (.trap 0xABC) := by decide
theorem test_decode_fifo_push : decodeTableWord 32 0b100011_00000010000101000000100011 = some (.fifoPush 3 2) := by decide
theorem test_decode_tlbi : decodeTableWord 32 0b100011_00000011000110100000000000 = some (.tlbi .die 3) := by decide
theorem test_decode_halt : decodeTableWord 32 0b100011_00000000000111000000000000 = some (.halt) := by decide

-- Ill-formed terms: one for each check of `Instr.wf`

theorem test_ill_formed_links : ([Instr.jal 0 5, .jalr 0 1 1].all fun i => !i.wf) = true := by decide
theorem test_ill_formed_loads : ([Instr.ld .d true 1 2 0, .ldAcq .d true 1 2 0, .ldf .d true 1 2 0, .ldfIndexed .d true 1 2 3 4].all
    fun i => !i.wf) = true := by decide
theorem test_ill_formed_atomics : ([Instr.amo .add true .acq .lane 1 2 3, .amo .add true .none .quad 1 2 3, .amoSwap true .rel .lane 1 2 3,
    .amoCas true .none .pod 1 2 3 4, .resv true true .lane 1 2, .rlse true false .quad 1 2 3].all fun i => !i.wf) = true := by decide
theorem test_ill_formed_scopes : ([Instr.fenceAcq .lane, .fenceRel .lane, .fenceAr .lane, .iinv .lane 1, .iinv .core 1, .iinv .pod 1,
    .qwait .lane true, .qwait .core true, .sinit .lock .lane 1 2, .gmake .lane 1 1 2, .gmake .core 1 1 2, .gmake .pod 1 1 2, .tlbi .lane 1,
    .tlbi .quad 1, .tlbiAll .pod].all fun i => !i.wf) = true := by decide
theorem test_ill_formed_vectors : ([Instr.vshl .f32 1 2 3 0, .vshr .h16 1 2 3 0, .vaddInt .f32 1 2 3 0, .vsubInt .h16 1 2 3 0,
    .vcmp .eq .i16 1 2 3 0, .vcmp .un .i32 1 2 3 0, .vcvtF2i .rne .w16 1 2 0, .vcvtI2f .rne .f32 1 2 0, .vred .add .h16 1 2 0,
    .vtwid 1 2 21 0].all fun i => !i.wf) = true := by decide
theorem test_ill_formed_shapes : ([Instr.mshp 1 ⟨0, 0, 0, 0x10000⟩, .mcv 0 1 2 3 ⟨0, 0, 0, 0xD800⟩].all fun i => !i.wf) = true := by decide
theorem test_well_formed_shape : (Instr.mshp 1 ⟨0, 0, 0, 0xD400⟩).wf = true := by decide
theorem test_ill_formed_commands : ([Instr.cpy .lane 1 2 3 4 5, .cpyX .lane 1 2 3 4 5, .cpy2 .lane 1 2 3 4 5, .cpy2X .lane 1 2 3 4 5,
    .cph .lane 1 2 3 4, .cvbF2q .lane 1 2 3 4 5, .cvbQ2f .lane 1 2 3 4 5, .cvbF2h .lane 1 2 3 4 5, .cvbH2f .lane 1 2 3 4 5,
    .cpt .die 1 2 3 4 5].all fun i => !i.wf) = true := by decide
theorem test_ill_formed_events : ([Instr.runAheadFetch 1638400 1, .refillComplete 102400 0, .l1Eviction 102400 0, .coreDoneReport 0 102400,
    .tensorOpComplete 25600 0, .lanternPolicyAction 25600 0 0, .clusterHandover 1600 none].all fun i => !i.wf) = true := by decide

-- Words that decoding refuses, by name (R21, R23, R24, R27, R29, R33)

/-- How decoding refuses the bytes of a word. -/
def refused (w : Nat) : Option DecodeError := match decode (natBytes 4 w) with | .ok _ => none | .error e => some e

theorem test_refuses_majors : [0, 0b100100 * 2 ^ 26, 0b111111 * 2 ^ 26].map refused = List.replicate 3 (some .major) := by decide
theorem test_refuses_selectors : refused 0b000001_00010010001100000000011111 = some .selector := by decide
theorem test_refuses_reserved : refused 0b100011_00000000000111000000000001 = some .reserved := by decide
theorem test_refuses_shape : (match decode (natBytes 20 (0x78100006 + 0x10000 * 2 ^ 128)) with
    | .ok _ => none | .error e => some e) = some DecodeError.shape := by decide
theorem test_refuses_short : (match decode [0, 0, 0] with | .ok _ => none | .error e => some e) = some DecodeError.truncated := by decide

-- Words that the manual writes out

theorem test_word_tlbi_all_pkg : decodeTableWord 32 0x8C006B00 = some (.tlbiAll .pkg) := by decide
theorem test_word_mfs : decodeTableWord 32 0x8C804020 = some (.fifoPop 2 0) := by decide
theorem test_word_spawn : decodeTableWord 32 0x60516001 = some (.spawn 1 4 5 8) := by decide
theorem test_word_ld_b : decodeTableWord 32 0x40480005 = some (.ld .b false 1 2 5) := by decide
theorem test_word_st_d_rel : decodeTableWord 32 0x44C78000 = some (.stRel .d 3 1 0) := by decide
theorem test_word_pf : decodeTableWord 32 0x48110002 = some (.pf 4 2) := by decide

-- Encoding and the step

theorem wit_decode_encode : (Instr.add 15 15 15).wf = true ∧ encodeBytes (.add 15 15 15) = some [0, 0xC0, 0xFF, 0x07] ∧
    (decode [0, 0xC0, 0xFF, 0x07, 9]).toOption = some (.add 15 15 15, [9]) := by decide +kernel
theorem wit_decoded_well_formed : (decode [0, 0, 0, 0x8C]).toOption = some (.nop, []) ∧ majorOf (0x03FFFFFF : IWord) = 0 ∧
    0x24 ≤ (majorOf (0x90000000 : IWord)).toNat := by decide +kernel

/-- A `nop` where the next step fetches. -/
def atNop : State := State.reset.withFetchWord 32 0x8C000000

theorem wit_step_runs_decoded : atNop.inputs = [] ∧ atNop.stopped = false ∧ atNop.turn = [0] ∧
    ({ atNop with turn := [] } : State).issueSlot 0 = some 0 ∧ (atNop.ctx 0).frame = none ∧
    (match ({ atNop with turn := [], cur := 0 } : State).fetchWords 0 (atNop.ctx 0).pc 1 with
      | .ok ws s1 => decide ((decode (ws.flatMap wordBytes)).toOption = some (.nop, [])) && !s1.me.namesPending .nop
      | _ => false) = true := by decide +kernel
theorem wit_fetch_reads_memory : window 0 (0x10000000FFFC : Word) = .global ∧ (m1.ctx 1).run = [] ∧
    tlbFind ((m1.partOf 0).getD 0) 0x10000000FFFC (m1.core 0).tlb = some ⟨0, 16, 2 ^ 28, 0, true, true⟩ ∧
    (m1.quad 0).icache = [] ∧ m1.flaws = [] ∧ m1.retired = [] := by decide +kernel
theorem wit_issue_slot : atNop.issueSlot 0 = some 0 ∧ atNop.canIssue 0 (atNop.quad 0).cyc 0 = true ∧
    atNop.posWithdrawn 0 0 = false ∧ m1.issueSlot 0 = none ∧
    ({ m1 with quads := [(0, { Quad.reset with cyc := 9 })] } : State).issueSlot 0 = some 1 := by decide +kernel

/-- A frame of 16 words at its last index, with `n` trips. -/
def framed (n : Nat) : Ctx :=
  { user with
    frame := some ⟨0x100000000000, 15, 0, 0, List.replicate 16 0x8C000000⟩, rcnt := BitVec.ofNat 32 n
    stat := setFrameState 0 true 15 0 }

theorem wit_repeat_frames : statRIDX (framed 2).stat = 15 ∧ statTRIP (framed 2).stat = 0 ∧
    statRIDX ((framed 2).advance 4).stat = 0 ∧ statTRIP ((framed 2).advance 4).stat = 1 ∧
    ((framed 1).advance 4).frame = none ∧ ((framed 1).advance 4).pc = 0x100000000044 := by decide +kernel
theorem wit_repeat_starts :
    (match m0.fetchWords 0 (m0.me.pc + 4) 16 with
      | .ok body _ => decide (body.length = 16) | _ => false) = true ∧
    (let s := { m0 with mem := (List.range 16).map (fun k => (0x104 + 4 * k + 3, 0x04)) }
     (match s.fetchWords 0 (s.me.pc + 4) 16 with
      | .ok body _ => decide (badBodyWord body = none) | _ => false) = true ∧ s.me.resume = false ∧
     runs (.rpt 15 0 0 2) s (fun t => statRFA t.me.stat && t.me.frame.isSome) = true ∧
     runs (.rpt 15 0 0 0) s (fun t => decide (t.me.pc = 0x100000000144)) = true) := by decide +kernel

-- Reset and traps

theorem wit_step_keeps_inv : State.reset.Inv ∧ atNop.Inv ∧ (match step atNop with | .next t => Memory.wf t.mem | _ => false) = true := by
  unfold State.Inv; decide +kernel
theorem wit_trap_entry : m1.me.deleg = [] ∧ m1.objs = [] ∧
    (((machine 1 { user with stat := 1 }).takeTrap 1 3 7 8).die 0).elog.map (fun e => (e.kind, e.addr, e.tid, e.tval)) =
      [(3, 8, 33, 7)] ∧ m1.me.tvec.toNat / 4 ≠ 0 ∧ m1.me.stat.getLsbD 0 = false ∧
    (m1.takeTrap 1 10 0xFFF 0x100000000100).me = m1.me.trapped 10 0xFFF 0x100000000100 ∧
    ({ m0.me with tvec := 0 } : Ctx).tvec.toNat / 4 = 0 ∧ (machine 0 { user with tvec := 0 }).noOwned ∧
    ((machine 0 { user with tvec := 0 }).takeTrap 0 3 7 8).me.why = 14 ∧
    ((machine 1 { user with stat := 1 }).takeTrap 1 3 7 8).me.state = .free := by
  unfold State.noOwned; decide +kernel
theorem wit_trap_and_brk : runs (.trap 0xFFF) m1 (fun t => decide (t.me = m1.me.trapped 9 0xFFF 0x100000000104)) = true ∧
    runs (.brk 0) m1 (fun t => decide (t.me = m1.me.trapped 10 0 0x100000000100)) = true := by decide +kernel
theorem wit_eret : statIH (machine 1 { user with stat := 1, tepc := 0x40 }).me.stat = true ∧
    runs .eret (machine 1 { user with stat := 1, tepc := 0x40 }) (fun t => decide (t.me.pc = 0x40 ∧ t.me.stat = 0)) = true ∧
    runs .eret m1 (fun t => decide (t.me.tcause = 5)) = true := by decide +kernel
theorem wit_nop_and_halt : ctxNo m0.cur = 0 ∧ ctxNo m1.cur ≠ 0 ∧ runs .nop m1 (fun t => decide (t.me = (m1.me.advance 4).ready)) = true ∧
    runs .halt m0 (fun t => decide (t.me.why = 14)) = true ∧ runs .halt m1 (fun t => decide (t.me.tcause = 5)) = true := by
  decide +kernel
theorem wit_privileged : ([Instr.reap 1 1, .kill 1 5, .mts .spen 1, .halt, .tlbi .core 1, .tlbiAll .pkg].all fun i =>
      runs i m1 (fun t => decide (t.me.tcause = 5))) = true ∧
    ([Instr.quit, .mig 1].all fun i => runs i m0 (fun t => decide (t.me.tcause = 5))) = true := by decide +kernel

-- Scalar arithmetic and control

theorem wit_integer_results : intSpec (.bfi 5 1 5) m1.me = some (5, 5) ∧ m1.me.gr 6 = 0 ∧
    runs (.rem 5 1 6) m1 (fun t => decide (t.me = m1.me.trapped 2 0 m1.me.pc)) = true ∧
    intSpec (.sar 5 1 5) m1.me = some (5, 0x80000) ∧
    runs (.cmpi .lt 1 6 0x7FFF) m1 (fun t => t.me.pr 1 == false) = true := by decide +kernel
theorem wit_fp_results : (fpSpec (.fadd .f32 .rne 1 2 3) m1.me).isSome = true ∧ f32Dest (.fdiv .f32 .rz 7 1 2) = some 7 ∧
    f64Dest (.fcvtS2d 3 4) = some 3 ∧
    runs (.fdiv .f64 .rne 3 1 2) m1 (fun t => decide (t.me.fr 3 = 0x7FF8000000000000)) = true ∧
    runs (.fdiv .f32 .rne 3 1 2) m1 (fun t => decide (t.me.fr 3 = 0x7FC00000)) = true := by decide +kernel
theorem wit_transfers : m1.me.pr 0 = true ∧ m1.me.pr 1 = false ∧
    runs (.br 0 false 0x200000) m1 (fun t => decide (t.me.pc = 0x0FFFFF800100)) = true ∧
    runs (.br 1 false 1) m1 (fun t => decide (t.me.pc = 0x100000000104)) = true ∧
    runs (.jalr 1 1 1) m1 (fun t => decide (t.me.pc = 0x1000004 ∧ t.me.gr 1 = 0x100000000104)) = true ∧
    runs (.jr 5 0) m1 (fun t => decide (t.me.tcause = 3 ∧ t.me.tval = 5)) = true ∧
    runs (.jmp 0x3FFFFF) (machine 1 { user with pc := 0 }) (fun t => decide (t.me.tcause = 4 ∧ t.me.tval = 0xFFFFFFFFFFFFFFFC)) = true ∧
    runs (.jr 0 0x3FFFF) m1 (fun t => decide (t.me.tcause = 4)) = true := by decide +kernel
theorem wit_resume : ctxNo m0.cur = 0 ∧ m0.partOf m0.myCore = some 0 ∧ (m0.part 0).pre = .no ∧
    runs .halt { m0 with dies := [(0, { Die.reset with cmdq := [{ d0 := 0xB, a := 0, b := 0x104, tag := 9 }] })] } (fun t =>
      !t.canIssue 0 16 0 && runs .resume0 { t with sel := 0 } (fun u => decide ((u.ctx 0).state = .ready ∧ (u.ctx 0).pc = 0x104))) =
        true := by decide +kernel

-- Loads and stores

/-- An L1 line of global memory with its bytes 0 to 7 dirty. -/
def line0 : L1Line := { line := 0, data := 0x1122334455667788, dirty := 0xFF, rrec := none }
/-- Context 1 with a line of global memory in its L1. -/
def m1l : State := { m1 with cores := [(0, { core0 with l1 := [line0] })] }

theorem wit_access_checks : runs (.ld .d false 6 5 0) m1 (fun t => decide (t.me.tcause = 3 ∧ t.me.tval = 5)) = true ∧
    runs (.st .d 6 4 0) m1 (fun t => decide (t.me.tcause = 5)) = true ∧
    m1.translate 0 0 (0x200C000 : Word) .load = .trap 5 ∧ m1.translate 0 0 (8 : Word) .load = .trap 4 ∧
    runs (.ld .b true 6 0 1) m1 (fun t => decide (t.me.tcause = 4 ∧ t.me.tval = 1)) = true := by decide +kernel
theorem wit_own_load : m1.ownAt (eaSpec (m1.me.gr 1) .d 0x1FF) 8 .load 0xFF8 ∧
    ({ m1 with mem := [(scratchLoc 0 0xFFF, 0x80)] } : State).acquiresAtOnce ∧
    runs (.ld .d false 6 1 0x1FF) { m1 with mem := [(scratchLoc 0 0xFFF, 0x80)] } (fun t =>
      decide (t.me.gr 6 = 0x8000000000000000)) = true ∧
    runs (.ldAcq .b true 6 1 0xFFF) { m1 with mem := [(scratchLoc 0 0xFFF, 0x80)] } (fun t =>
      decide (t.me = ((m1.me.setG 6 0xFFFFFFFFFFFFFF80).advance 4).ready)) = true := by
  unfold State.ownAt State.acquiresAtOnce; decide +kernel
theorem wit_own_store : m1.ownAt (eaSpec (m1.me.gr 1) .h 0x7FF) 2 .store 0xFFE ∧ m1.obj? (scratchLoc 0 0xFFE / 64) = none ∧
    runs (.st .h 1 1 0x7FF) m1 (fun t => decide (t.rdByte (scratchLoc 0 0xFFF) = 0 ∧ t.me = (m1.me.advance 4).ready)) = true ∧
    runs (.stRel .h 5 1 0x7FF) m1 (fun t => decide (t.rd (span (scratchLoc 0 0xFFE) 2) = 5)) = true := by
  unfold State.ownAt; decide +kernel
theorem wit_l1_hit : m1l.l1? 0 0 = some line0 ∧ m1l.translate 0 0 (m1l.me.gr 2) .load = .ok (.global 0) ∧
    m1l.translate 0 0 (m1l.me.gr 2) .store = .ok (.global 0) ∧ m1l.me.relp = none ∧
    runs (.ld .h true 6 2 0x3FFF) m1l (fun t => decide (t.me.tcause = 4)) = true ∧
    runs (.ld .h true 6 2 0) m1l (fun t => decide (t.me.gr 6 = 0x7788)) = true ∧
    runs (.st .d 5 2 7) m1l (fun t => decide ((t.l1? 0 0).map (fun e => e.dirty) = some 0xFF000000000000FF)) = true := by
  decide +kernel
theorem wit_l1_miss : m1.l1? 0 0 = none ∧ m1.resvq = [] ∧ m1.flaws = [] ∧ m1.retired = [] ∧
    trips .homeSliceAccess (.ld .w false 6 2 15) m1 (fun t => decide ((t.l1? 0 0).isSome ∧ t.me.gr 6 = 0)) = true ∧
    trips .homeSliceAccess (.st .w 5 2 15) m1 (fun t => decide ((t.l1? 0 0).map (fun e => e.dirty) = some 0xF000000000000000)) =
      true := by decide +kernel
theorem wit_prefetch : m1.translate 0 0 (0x1001000 : Word) .load = .ok (.scratch 0 0x1000) ∧
    (let s := { m1 with cores := [(0, { core0 with pages := [(1, { PageDesc.reset with v := true })] })] }
     (s.page 0 1).v = true ∧ (s.page 0 1).res = false ∧ (s.page 0 1).busy = false ∧
     runs (.pf 1 64) s (fun t => (t.page 0 1).busy) = true ∧ runs (.pfLlc 1 64) s (fun t => (t.page 0 1).busy) = true) ∧
    runs (.pf 0 0) m1 (fun t => decide (t.me = (m1.me.advance 4).ready)) = true := by decide +kernel

-- Fleeting memory

/-- A live tile 0 of partition 0, born at tick 0, at the last tick of its life of 256 µs × 16. -/
def m1f : State := { m1 with tiles := [(0, { TileRec.reset with dead := false })], now := 16000 * 256 - 1, mem := [(2 ^ 43, 9)] }

theorem wit_fleet_load : m1f.fleetAt (m1f.me.gr 4) 8 .load 0 0 ∧ ¬ expiredSpec m1f 0 ∧ expiredSpec m1 0 ∧
    expiredSpec { m1f with now := 16000 * 256 } 0 ∧ m1f.fleetAt (m1f.me.gr 4 + m1f.me.gr 0) 8 .load 0 0 ∧
    trips .homeSliceAccess (.ldf .d false 6 4 1) m1f (fun t => decide (t.me.gr 6 = 9 ∧ t.me.pr 1 = false)) = true ∧
    trips .homeSliceAccess (.ldfIndexed .d false 6 4 0 1) m1 (fun t => decide (t.me.gr 6 = 0 ∧ t.me.pr 1 = true)) = true := by
  unfold State.fleetAt expiredSpec; decide +kernel
theorem wit_fleet_store : m1f.fleetAt (m1f.me.gr 4) 8 .store 0 0 ∧
    trips .homeSliceAccess (.stf .b 5 4) m1f (fun t => decide (t.rd (span (2 ^ 43) 8) = 5 ∧ (t.tile 0).birth = 0)) = true ∧
    trips .homeSliceAccess (.stfIndexed .b 5 4 5) { m1f with now := 16000 * 256 } (fun t =>
      decide (t.rd (span (2 ^ 43) 8) = 5 * 2 ^ 40 ∧ (t.tile 0).birth = 16000 * 256)) = true := by
  unfold State.fleetAt; decide +kernel
theorem wit_fleet_tiles : m1f.fleetAt (m1f.me.gr 4) 1 .store 0 0 ∧ m1f.fleetAt (m1f.me.gr 4) 1 .load 0 0 ∧
    trips .homeSliceAccess (.rnw 6 4) m1f (fun t => decide (t.me.gr 6 = 1 ∧ (t.tile 0).birth = 16000 * 256 - 1)) = true ∧
    trips .homeSliceAccess (.rnw 6 4) m1 (fun t => decide (t.me.gr 6 = 0 ∧ (t.tile 0).dead = false)) = true ∧
    trips .homeSliceAccess (.fdrop 4) m1f (fun t => (t.tile 0).dead) = true ∧
    trips .homeSliceAccess (.life 6 4) m1f (fun t => decide (t.me.gr 6 = 1)) = true ∧
    1 ≤ (m1.me.gr 5).toNat ∧ (m1.me.gr 5).toNat ≤ 256 ∧
    runs (.lifeSet 4 5) m1 (fun u => decide (u.msgs.length = 16) && runs .homeSliceAccess { u with sel := 15 } fun t =>
      decide (t.region 15 = { life := 5, part := some 0 })) = true ∧
    runs (.lifeSet 4 0) m1 (fun t => decide (t.me.tcause = 1)) = true ∧
    runs (.lifeSet 4 1) m1 (fun t => decide (t.me.tcause = 1)) = true := by
  unfold State.fleetAt; decide +kernel
theorem wit_life_set_reply :
    let w : Wait := { mkWait (.lifeSet 4 5) 1 16 0x100000000104 with val := 0 }
    let s := { machine 1 { user with state := .waiting, wait := some w } with
      msgs := [.reply { cx := 1, tid := 33, tag := false, part := 0, vals := [], lanes := [], recs := [], trap := none
                        made := true }] }
    s.me.wait = some w ∧ w.ph = 1 ∧ runs .remoteReply s (fun t => decide (t.me.wait.map (fun x => x.acks) = some 15)) = true ∧
    runs .remoteReply { s with ctxs := [(1, { user with state := .waiting, wait := some { w with acks := 1 } })] } (fun t =>
      decide (t.me = (user.advance 4).ready)) = true := by decide +kernel

-- Atomics and reservations

theorem wit_own_atomics : m1.queuedCells 0 = [] ∧ (atomicSpec (.amo .add true .none .lane 6 1 5) m1.me 0).map Prod.fst = some (some 5) ∧
    m1.ownAt (m1.me.gr 1) 8 .store 0 ∧ m1.obj? (scratchLoc 0 0 / 64) = none ∧ m1.me.resv = none ∧ (m1.core 0).l1 = [] ∧
    m1.acquiresAtOnce ∧ (atomicSpec (.amoCas false .ar .pod 6 1 5 5) m1.me 0).map Prod.fst = some none ∧
    runs (.amo .minn false .acq .quad 6 1 5) { m1 with mem := [(2 ^ 44 + 3, 0xFF)] } (fun t =>
      decide (t.rd (span (2 ^ 44) 4) = 5 ∧ t.me.gr 6 = 0xFF000000)) = true ∧
    runs (.amo .min false .acq .quad 6 1 5) { m1 with mem := [(2 ^ 44 + 3, 0xFF)] } (fun t =>
      decide (t.rd (span (2 ^ 44) 4) = 0xFF000000 ∧ t.me.gr 6 = 0xFFFFFFFFFF000000)) = true := by
  unfold State.ownAt State.acquiresAtOnce; decide +kernel

/-- Context 1 holds a reservation of the dword at offset 0. -/
def m1r : State :=
  { machine 1 { user with resv := some (2 ^ 44, 8) } with
    resvq := [{ loc := 2 ^ 44, holder := some (1, 33, span (2 ^ 44) 8, 0), queue := [] }] }

theorem wit_reservations : m1.ownAt (m1.me.gr 1) 8 .store 0 ∧ m1.acquiresAtOnce ∧ (m1.core 0).l1 = [] ∧
    m1.queuedCells 0 = [] ∧ m1r.queuedCells 0 = [] ∧ m1r.acquiresAtOnce ∧ m1r.pageSt 0 0 = .ready ∧ m1r.retired = [] ∧
    runs (.resv true true .clus 6 1) m1 (fun t => decide (t.resvq = m1r.resvq ∧ t.me.resv = some (2 ^ 44, 8))) = true ∧
    ({ m1r with resvq := [] } : State).ownAt (m1r.me.gr 1) 8 .store 0 ∧
    runs (.resv true false .lane 6 1) m1r (fun t => decide (t.me.tcause = 5)) = true ∧
    runs (.resv true false .lane 6 1) { m1r with resvq := [] } (fun t => decide (t.resvq = m1r.resvq)) = true ∧
    runs (.rlse true false .lane 1 1 5) m1r (fun t => decide (t.rd (span (2 ^ 44) 8) = 5 ∧ t.resvq = [] ∧ t.me.pr 1 = true)) =
      true ∧
    runs (.rlse true false .lane 1 1 5) { m1r with resvq := [] } (fun t =>
      decide (t.rd (span (2 ^ 44) 8) = 0 ∧ t.me.pr 1 = false ∧ t.me.resv = none)) = true ∧
    runs (.rlse false true .pkg 1 1 5) m1r (fun t => decide (t.me.pr 1 = false ∧ t.me.resv = m1r.me.resv)) = true := by
  unfold State.ownAt State.acquiresAtOnce; decide +kernel

-- Fences, caches and free marks

theorem wit_fences : m1.acquiresAtOnce ∧ m1.turn = [] ∧ m1.queuedCells 0 = [] ∧
    runs (.qwait .quad false) m1 (fun t => decide (t.me = (m1.me.advance 4).ready)) = true ∧
    runs (.qwait .quad false) { m1 with turn := [1] } (fun t => decide (t.me.state = .waiting)) = true ∧
      runs (.fenceAr .core) m1 (fun t => decide (t.me = (m1.me.advance 4).ready)) = true ∧
    runs (.fenceAcq .pod) m1 (fun t => decide (t.me = (m1.me.advance 4).ready)) = true ∧
    runs (.fenceRel .quad) m1l (fun t => decide (t.me.relp = some (m1l.relSig 0, .quad))) = true ∧
    runs (.fenceAr .pod) m1 (fun t => decide (t.me.relp = some (m1.relSig 0, .pod))) = true ∧
    m1.quiet 0 .pkg true = true ∧
    (let s := { m1 with msgs := [.req (m1.mkReq (.ld .d false 6 2 0) 0 (.global 0) 8 [] none)] }
     s.quiet 0 .quad false = false ∧ runs (.qwait .quad false) s (fun t => decide (t.me.state = .waiting) &&
       runs .quietReport { t with msgs := [], sel := 1 } fun w => decide (w.me = (m1.me.advance 4).ready)) = true) := by
  unfold State.acquiresAtOnce; decide +kernel
theorem wit_caches : window 0 (m1l.me.gr 2) = .global ∧ m1l.translate 0 0 (m1l.me.gr 2) .load = .ok (.global 0) ∧
    m1l.l1? 0 0 = some line0 ∧ m1.l1? 0 0 = none ∧
    runs (.cwb 2) m1l (fun t => decide (t.rd (span 0 8) = 0x1122334455667788 ∧ (t.l1? 0 0).map (fun e => e.dirty) = some 0)) = true ∧
    runs (.cinv 2) m1l (fun t => decide (t.rd (span 0 8) = 0x1122334455667788 ∧ t.l1? 0 0 = none)) = true ∧
    m1l.resvq = [] ∧ m1l.retired = [] ∧ (∀ x ∈ (m1l.core 0).l1, x.line < 2 ^ 35) ∧
    runs .cwbAll m1l (fun t => decide (t.byteAt 7 = 0x11 ∧ (t.l1? 0 0).map (fun e => e.dirty) = some 0)) = true ∧
    runs .fbar (machine 1 { user with run := [(4, 5)] }) (fun t => decide (t.me = (m1.me.advance 4).ready)) = true ∧
    runs .cinvAll m1l (fun t => decide (t.rd (span 0 8) = 0x1122334455667788 ∧ (t.core 0).l1 = [])) = true ∧
    (let s := { m1 with quads := [(15, { Quad.reset with icache := [(0, 7), (1, 8)] })] }
     15 ∈ s.quads.map Prod.fst ∧ sameUnit .clus (15 * 4) 0 = true ∧ s.partOf 60 = s.partOf 0 ∧
     runs (.iinv .clus 2) s (fun t => decide ((t.quad 15).icache = [(1, 8)])) = true) := by decide +kernel
theorem wit_free_marks : (m1.me.gr 2).toNat % 65536 = 0 ∧
    (let s := { machine 1 { user with g := user.g.set 6 1 } with mem := [(0xFFFF, 1), (0x10000, 2)] }
     (match s.freePages (s.me.gr 2) 1 with | .ok l => decide (l = [0]) | _ => false) = true ∧
     runs (.mfree 6 2) s (fun t => decide (t.mem = [(0x10000, 2)] ∧ t.freeMarks = [0])) = true) ∧
    runs (.mfree 5 5) m1 (fun t => decide (t.me.tcause = 3)) = true ∧
    runs (.mfree 0 2) m1 (fun t => decide (t.me.tcause = 1)) = true ∧
    4096 < (m1.me.gr 1).toNat ∧ runs (.mfree 1 2) m1 (fun t => decide (t.me.tcause = 1)) = true := by decide +kernel

-- Synchronisation objects

/-- The object `o` at offset 0 of the scratchpad. -/
def withObject (s : State) (o : SObj) : State := { s with objs := [(2 ^ 44 / 64, o)] }
/-- A new object. -/
def newObject (k : SoKind) (n : Nat) : SObj := SObj.make 0 k true .quad n (decide (k = .bar)) Part.reset.sopol 0

theorem wit_objects_made : m1.ownLine (m1.me.gr 1) 0 ∧ m1.obj? (2 ^ 44 / 64) = none ∧
    (withObject m1 (newObject .lock 1)).obj? (2 ^ 44 / 64) = some (newObject .lock 1) ∧ (newObject .lock 1).idle = true ∧
    ({ newObject .lock 1 with holder := some (9, 9) } : SObj).idle = false ∧
    sinitN .ring (16 : Word) = 16 ∧ sinitN .bar (0x10000 : Word) = 0 ∧
    runs (.sinit .ring .die 5 1) m1 (fun t => decide (t.me.gr 5 = 0 ∧ (t.obj? (2 ^ 44 / 64)).map (fun o => o.n) = some 5)) = true ∧
    runs (.sinit .bar .die 0 1) m1 (fun t => decide (t.me.gr 0 = 3)) = true ∧
    runs (.sinit .lock .die 6 1) (withObject m1 (newObject .lock 1)) (fun t => decide (t.me.gr 6 = 2)) = true ∧
    runs (.smode 6 1) (withObject m1 (newObject .lock 1)) (fun t => decide (t.me.gr 6 = 1 + 32 + 2 * 64)) = true ∧
    runs (.sfin 1 1) (withObject m1 (newObject .lock 1)) (fun t => decide (t.me.pr 1 = true ∧ t.objs = [])) = true ∧
    runs (.sfin 1 1) m1 (fun t => decide (t.me.tcause = 5)) = true := by
  unfold State.ownLine; decide +kernel

/-- A lock held by context 1 with one ticket, and one held by another context. -/
def held (cx : Nat) (tid : BitVec 32) : SObj :=
  { newObject .lock 1 with holder := some (cx, tid), tickets := [{ num := 0, cx := 7, tid := 70, kind := .lock, polling := false }] }

theorem wit_locks : (∀ k, (m1.core k).l1 = []) ∧ m1.sweepingFor m1.cur = false ∧ m1.me.frame = none ∧ m1.me.deleg = [] ∧
    m1.me.sret = none ∧ (held 1 33).holder = some (1, 33) ∧ (newObject .lock 1).holder = none ∧
    (newObject .lock 1).unasked 1 33 ∧ (held 1 33).unasked 1 33 ∧ (held 7 70).mode ≠ 3 ∧
    runs (.slock 1) (withObject m1 (newObject .lock 1)) (fun t =>
      decide ((t.obj? (2 ^ 44 / 64)).map (fun o => o.holder) = some (some (1, 33)) ∧ t.me = (m1.me.advance 4).ready)) = true ∧
    runs (.slockCall 1 1) (withObject m1 (newObject .lock 1)) (fun t =>
      decide (t.me.pc = 0x1000000 ∧ t.me.sret = some (0x100000000104, 0x1000000))) = true ∧
    runs (.slock 1) (withObject m1 (held 9 90)) (fun t => decide (t.me.why = 5)) = true ∧
    runs (.sunlk 1) (withObject m1 (held 9 90)) (fun t => decide (t.me.tcause = 5)) = true ∧
    runs (.sunlk 1) (withObject m1 (held 1 33)) (fun t =>
      decide ((t.obj? (2 ^ 44 / 64)).map (fun o => o.holder) = some (some (7, 70)) ∧ t.me = (m1.me.advance 4).ready)) = true ∧
    runs (.sunlk 1) (withObject (machine 1 { user with sret := some (0x40, 0x1000000) }) (held 1 33)) (fun t =>
      decide (t.me.pc = 0x40 ∧ t.me.sret = none)) = true := by
  refine ⟨l1_nil _ (by decide +kernel), ?_⟩
  unfold SObj.unasked; decide +kernel
theorem wit_barriers : (newObject .bar 2).kind = .bar ∧ (newObject .bar 2).unasked 1 33 ∧
    runs (.sarr 6 1) (withObject m1 (newObject .bar 2)) (fun t => decide ((t.obj? (2 ^ 44 / 64)).map (fun o => o.arr) = some 1)) = true ∧
    runs (.sarr 6 1) (withObject m1 { newObject .bar 1 with xb := false, phase := 2 ^ 32 - 1 }) (fun t =>
      decide (t.me.gr 6 = 0xFFFFFFFF ∧ (t.obj? (2 ^ 44 / 64)).map (fun o => o.phase) = some 0)) = true ∧
    runs (.sexp 5 1) (withObject m1 (newObject .bar 2)) (fun t => decide ((t.obj? (2 ^ 44 / 64)).map (fun o => o.bal) = some 5)) = true ∧
    runs (.swait 6 1) (withObject m1 { newObject .bar 2 with phase := 1, hist := [false] }) (fun t => decide (t.me.gr 6 = 0)) = true ∧
    runs (.swait 6 1) (withObject m1 { newObject .bar 2 with phase := 2 ^ 31 }) (fun t => decide (t.me.gr 6 = 2)) = true ∧
    runs (.swait 6 1) (withObject m1 (newObject .bar 2)) (fun t => decide (t.me.why = 5)) = true ∧
    runs (.swait 6 1) (withObject m1 { newObject .bar 2 with phase := 2 ^ 31 + 1 }) (fun t => decide (t.me.why = 5)) = true := by
  unfold SObj.unasked; decide +kernel

/-- A ring with one item. -/
def ring1 : SObj := { newObject .ring 16 with items := [{ val := 7, prod := 15, eos := true, sig := 0 }] }

theorem wit_rings : ring1.kind = .ring ∧ ring1.serving = none ∧ m1.me.pend.getLsbD 5 = false ∧ ring1.tickets = [] ∧
    ring1.owed = [] ∧ (5 : Nat) < ring1.prods ∧
    ring1.eosPushed.getLsbD 5 = false ∧ ring1.items.length < 8 ∧ (newObject .ring 16).ended = false ∧
    runs (.sarr 15 1) (withObject m1 ring1) (fun t => decide (t.me.tcause = 1)) = true ∧
    runs (.sarr 4 1) (withObject m1 ring1) (fun t => decide ((t.obj? (2 ^ 44 / 64)).map (fun o => o.items.map (fun x => (x.val, x.prod))) =
      some [(7, 15), (0x30000000000, 5)])) = true ∧
    runs (.sarrEos 4 1) (withObject m1 ring1) (fun t => decide ((t.obj? (2 ^ 44 / 64)).map (fun o => o.eosPushed) = some 0x20)) = true ∧
    runs (.swait 14 1) (withObject m1 ring1) (fun t => decide (t.me.gr 14 = 7 ∧ t.me.gr 15 = 15 + 256)) = true ∧
    runs (.swait 6 1) (withObject m1 (newObject .ring 16)) (fun t => decide (t.me.why = 5)) = true := by decide +kernel

-- Groups

/-- A group of which context 1 is the only member, named by handle h1. -/
def group1 : Group :=
  { name := 5, part := 0, die := 0, idx := 0, gen := 0, scope := .die, base := 0, phase := 2 ^ 32 - 1, mems := [Member.make 1 33]
    pending := [], kind := none, lost := false, sig := 0, early := [] }
/-- Context 1 alone in the group. -/
def m1g : State := { machine 1 ((user.setH 1 (handleWord 0 0 0))) with groups := [group1] }

theorem wit_group_membership : m1g.queuedCells 0 = [] ∧ handleV (m1.me.hr 1) = false ∧ m1.me.gr 5 ≠ 0 ∧
    m1.groupNamed 0 (m1.me.gr 5) = none ∧
    handleV (m1g.me.hr 1) = true ∧ m1g.groupOf (m1g.me.hr 1) = some group1 ∧ m1g.aloneIn 1 group1 ∧
    trips .homeSliceAccess (.gmake .die 2 1 5) m1 (fun t => decide (t.groups.length = 1 ∧ t.me.pr 2 = true ∧
      handleV (t.me.hr 1) = true)) = true ∧
    (let g : Group := { group1 with mems := [Member.make 9 90] }
     let s := { m1 with groups := [g] }
     s.groupNamed 0 (s.me.gr 5) = some g ∧ g.mems ≠ [] ∧ g.member 1 33 = false ∧ g.isPending 1 33 = false ∧
       sameUnit g.scope 0 g.base = true ∧
     trips .homeSliceAccess (.gjoin 2 1 5) s (fun t => decide (t.me.pr 2 = true ∧
       t.groups.map (fun g => g.pending) = [[Member.make 1 33]])) =
       true) ∧
    trips .homeSliceAccess (.gsize 6 1) m1g (fun t => decide (t.me.gr 6 = 1)) = true ∧
    trips .homeSliceAccess (.grank 6 1) m1g (fun t => decide (t.me.gr 6 = 0)) = true ∧
    trips .homeSliceAccess (.gleave 2 1) m1g (fun t => decide (t.me.hr 1 = 0 ∧ t.groups = [])) = true ∧
    runs (.gstat 6 1) m1g (fun t => decide (t.me = ((m1g.me.setG 6 (BitVec.ofNat 64 ((m1g.me.hr 1).toNat * 2 ^ 32))).advance 4).ready)) =
      true := by
  unfold State.aloneIn; decide +kernel
theorem wit_group_arrivals : m1g.aloneIn 1 group1 ∧ m1g.asking 1 33 = false ∧ group1.phase < 2 ^ 32 ∧ m1g.msgs = [] ∧
    chains (.gbar 6 1) .homeSliceAccess .groupCompletion m1g (fun t => decide (t.me = ((m1g.me.setG 6 0xFFFFFFFF).advance 4).ready)) = true ∧
    chains (.gvote .all 6 1 5) .homeSliceAccess .groupCompletion m1g (fun t => decide (t.me.gr 6 = 0x4FFFFFFFF)) = true ∧
    chains (.gred .add .f32 14 1 1) .homeSliceAccess .groupCompletion m1g (fun t =>
      decide (t.me.gr 14 = 0x1000000 ∧ t.me.gr 15 = 0xFFFFFFFF)) = true ∧
    chains (.gred .max .i64 14 1 2) .homeSliceAccess .groupCompletion m1g (fun t => decide (t.me.gr 14 = 0x100000000000)) = true := by
  unfold State.aloneIn; decide +kernel

-- Contexts and system registers

theorem wit_spawns : coreOfPlace m1.pkg (m1.me.gr 0) = some 0 ∧ m1.allocSlot 0 = some 2 ∧ (12 : GReg).toNat ≤ 12 ∧
    (m1.me.gr 1).toNat % 4 = 0 ∧ coreOfPlace m1.pkg (m1.me.gr 1) = none ∧
    m1.partOf 12799 ≠ m1.partOf m1.myCore ∧
    chains (.spawn 1 0 1 2) .spawnMessage .spawnAnswer m1 (fun t => decide (t.me.pr 1 = true ∧ t.me.state = .ready ∧
      (t.ctx 2).state = .ready ∧ (t.ctx 2).pc = 0x1000000 ∧ (t.ctx 2).gr 0 = 0x100000000000 ∧ (t.ctx 2).gr 3 = 5)) = true ∧
    runs (.spawn 1 1 1 12) m1 (fun t => decide (t.me.lrr = 3 ∧ t.me.pr 1 = false)) = true := by decide +kernel

/-- Core 0's reap queue holds `n` records. -/
def reaping (cx n : Nat) : State :=
  { machine cx user with cores := [(0, { core0 with reap := List.replicate n (0x100000021, 7) })] }

theorem wit_contexts_end : m1.groups = [] ∧ ((reaping 1 7).core 0).reap.length < 8 ∧ 8 ≤ ((reaping 1 8).core 0).reap.length ∧
    runs .quit (reaping 1 7) (fun t => decide (t.me.state = .free ∧ (t.core 0).reap.length = 8)) = true ∧
    runs .quit (reaping 1 8) (fun t => decide (t.me.state = .exit)) = true ∧
    runs (.reap 14 1) (reaping 0 1) (fun t => decide (t.me.gr 14 = 0x100000021 ∧ t.me.gr 15 = 7 ∧ t.me.pr 1 = true)) = true ∧
    runs (.reap 14 1) m0 (fun t => decide (t.me.pr 1 = false)) = true ∧
    runs (.reap 15 1) m0 (fun t => decide (t.me.tcause = 1)) = true ∧
    runs (.kill 1 0) m0 (fun t => decide (t.me.tcause = 5)) = true ∧
    (m0.ctx 5).state = .free ∧ runs (.kill 1 5) m0 (fun t => decide (t.me.pr 1 = false)) = true ∧
    (let s := { m0 with ctxs := [(0, user), (5, { user with tid := 55 })] }
     (s.ctx 5).state = .ready ∧ runs (.kill 1 5) s (fun t => decide (t.me.pr 1 = true ∧ (t.ctx 5).state = .free)) = true) := by
  decide +kernel
theorem wit_context_waits : (machine 1 { user with fnp := true }).me.fnp = true ∧ m1.me.fnp = false ∧ m1.me.timer = none ∧
    runs (.cfw 1) (machine 1 { user with fnp := true }) (fun t => t.me.pr 1 && !t.me.fnp) = true ∧
    runs (.cfw 1) m1 (fun t => !t.me.pr 1) = true ∧
    runs (.cfw 1) (machine 1 { user with timer := some 1 }) (fun t => decide (t.me.why = 9) &&
      runs .refusalTimerExpiry { t with sel := 1 } (fun w => decide (w.me.state = .ready ∧ w.me.timer = none))) = true ∧
    runs (.yield 15) m1 (fun t => decide (t.me.why = 10) &&
      runs .yieldExpiry { t with sel := 1 } (fun w => decide (w.me = (m1.me.advance 4).ready))) = true ∧
    runs (.ctxs 6 1) m1 (fun t => decide (t.me = ((m1.me.setG 6 (m1.ctxsWord 0)).advance 4).ready)) = true := by decide +kernel

/-- Context 1 names with g2 the scratchpad of core 1, of its own partition. -/
def beside : State :=
  { machine 1 { user with g := user.g.set 2 0x2010000 } with cores := [(0, core0), (1, core0)] }

theorem wit_migrates : ctxNo beside.cur ≠ 0 ∧ statIH beside.me.stat = false ∧ beside.me.sret = none ∧ beside.me.resv = none ∧
    beside.me.pend = 0 ∧ beside.me.hunit = [] ∧
    beside.translate beside.myCore beside.myPart (beside.me.gr 2) .load = .ok (.scratch 1 0) ∧
    beside.allocSlot 1 = some 1 ∧ beside.queuedCells 0 = [] ∧ (beside.core 0).l1 = [] ∧ (beside.core 1).l1 = [] ∧
      (beside.core 0).refused = [] ∧
    chains (.mig 2) .migrationMessage .migrationAccept beside (fun w => decide ((w.ctx 1).state = .free) &&
      runs .migrationCommit { w with sel := w.msgs.length - 1 } (fun x => decide ((x.ctx 17).state = .ready ∧
        (x.ctx 17).g = beside.me.g ∧ (x.ctx 17).pc = 0x100000000104 ∧ (x.ctx 17).pr 7 = true))) = true ∧
    runs (.mig 2) (machine 1 { user with stat := 1 }) (fun t => decide (t.me.lrr = 4 ∧ t.me.pr 7 = false)) = true := by
  decide +kernel

/-- Core 0's FIFO 3 holds `n` entries. -/
def fifo3 (n : Nat) : State :=
  { machine 1 user with cores := [(0, { core0 with fifo := core0.fifo.set 3 (List.replicate n 7) })] }
/-- Context 2 waits on FIFO 3 with `i`. -/
def beside3 (n : Nat) (i : Instr) (push : Bool) : State :=
  { fifo3 n with
    ctxs := [(1, user), (2, { user with
      state := .waiting, why := 4
      wait := some { i := i, ph := 1, acks := 0, next := 0, got := [], recs := [], tbl := none, till := 0, val := 9 } })]
    cores := [(0, { core0 with
      fifo := core0.fifo.set 3 (List.replicate n 7)
      pushW := core0.pushW.set 3 (if push then [⟨2, 33, 9⟩] else [])
      popW := core0.popW.set 3 (if push then [] else [⟨2, 33, 9⟩]) })] }

theorem wit_system_registers : (mtsSpec .stat (m1.me.gr 5) m1.me).isSome = true ∧ (m1.me.gr 6 &&& 0xFFFFFFFFFFFF0001) = 0 ∧
    ((5 : Word) &&& 0xFFFFFFFFFFFF0001) ≠ 0 ∧
    runs (.mts .tval 5) m1 (fun t => decide (t.me.tval = 5)) = true ∧
    runs (.mts .rcnt 2) m1 (fun t => decide (t.me.tcause = 1)) = true ∧
    runs (.mts .spen 6) m0 (fun t => decide ((t.core 0).spen = 0)) = true ∧
    runs (.mts .place 5) m1 (fun t => decide (t.me.tcause = 5)) = true ∧
    runs (.mfs 6 .place) m1 (fun t => decide (t.me.gr 6 = 1)) = true ∧
    runs (.pwrq 6 2) m1 (fun t => decide ((t.core 0).req = 7)) = true := by decide +kernel
theorem wit_fifos : ((fifo3 1).core 0).fifo[3] = [7] ∧ ((fifo3 1).core 0).popW[3] = [] ∧ ((fifo3 1).core 0).pushW[3] = [] ∧
    runs (.fifoPop 6 3) (fifo3 1) (fun t => decide (t.me.gr 6 = 7 ∧ (t.core 0).fifo[3] = [])) = true ∧
    runs (.fifoPop 6 3) (fifo3 0) (fun t => decide (t.me.why = 4 ∧ (t.core 0).popW[3] = [⟨1, 33, 0⟩])) = true ∧
    runs (.fifoPush 3 5) (fifo3 7) (fun t => decide ((t.core 0).fifo[3] = List.replicate 7 7 ++ [5])) = true ∧
    runs (.fifoPush 3 5) (fifo3 8) (fun t => decide (t.me.why = 4 ∧ (t.core 0).pushW[3] = [⟨1, 33, 5⟩])) = true ∧
    runs (.fifoPop 6 3) (beside3 8 (.fifoPush 3 5) true) (fun t => decide (t.me.gr 6 = 7 ∧ (t.ctx 2).state = .ready ∧
      (t.core 0).fifo[3] = List.replicate 7 7 ++ [9] ∧ (t.core 0).pushW[3] = [])) = true ∧
    runs (.fifoPush 3 5) (beside3 0 (.fifoPop 6 3) false) (fun t => decide ((t.ctx 2).state = .ready ∧ (t.ctx 2).gr 6 = 5 ∧
      (t.core 0).fifo[3] = [] ∧ (t.core 0).popW[3] = [])) = true := by decide +kernel
theorem wit_fifo_of_a_killed_context : (let s := beside3 8 (.fifoPush 3 5) true
    runs (.fifoPop 6 3) (s.setCtx 2 { s.ctx 2 with tid := 34 }) (fun t => decide (t.ctx 2 = { s.ctx 2 with tid := 34 } ∧
      (t.core 0).fifo[3] = List.replicate 7 7 ++ [9])) = true) := by decide +kernel
theorem wit_tlb_invalidation : ctxNo m0.cur = 0 ∧
    runs (.tlbi .core 2) m0 (fun t => decide ((t.core 0).tlb.length = 2 ∧ t.me.why = 1)) = true ∧
    runs (.tlbiAll .clus) m0 (fun t => decide ((t.core 0).tlb = [] ∧ t.me.why = 1 ∧ t.msgs.length = 1) &&
      runs .remoteReply { t with sel := 0 } (fun u => decide (u.me = (m0.me.advance 4).ready))) = true := by decide +kernel

-- The vector and tensor units

/-- The vector slot entry of core 0, at cycle 9, after an instruction. -/
def vecTrips (i : Instr) (s : State) (p : State → Bool) : Bool :=
  runs i s fun u => runs .vectorSlotEntry { u.modQuad 0 (fun q => { q with cyc := 9 }) with sel := 0 } p

theorem wit_vector_results : m1.unitFree ∧ vecInstr (.vbfly 7 0 7 6 3) = true ∧
    (vlaneSpec (m1.core 0).q8 (.vbcast 3 5 0) m1.me).isSome = true ∧
    runs (.vbcast 3 5 0) m1 (fun t => decide (lane (t.me.vr 3) 31 = 5)) = true ∧
    runs (.vcmp .le .i32 1 0 0 0) m1 (fun t => decide (t.me.mr 1 = 0xFFFFFFFF)) = true ∧
    runs (.vred .min .w32 2 0 0) m1 (fun t => decide (t.me.fr 2 = 0)) = true ∧
    runs (.vbfly 7 0 7 6 0) m1 (fun t => decide (t.me.vr 0 = 0)) = true ∧
    runs (.venc 1 0 3 0) m1 (fun t => decide (t.me.vr 1 = 0)) = true ∧
    (let s := { m1 with cores := [(0, { core0 with slot := { holder := some (2, 8), entering := none, waiting := [], undo := [] } })] }
     ¬ s.unitFree ∧ runs (.vadd .rne 1 2 3 0) s (fun t => decide (t.me.why = 12)) = true) := by
  unfold State.unitFree; decide +kernel
theorem wit_vector_memory : m1.vecReady 9 ∧ (vaddrSpec (.vst 2 1 511 0) m1.me).isSome = true ∧
    m1.ownAtSum (0x1000000 + 65408 % 4096) 4 .load (65408 % 4096) ∧ m1.ownAtSum 0x100007C 4 .store 124 ∧
    m1.obj? (scratchLoc 0 124 / 64) = none ∧ m1.ownAtSum ((m1.me.gr 1).toNat + 64 * 7) 64 .load 448 ∧ m1.noOwned ∧
    m1.me.catches ∧
    vecTrips (.vld 2 0 1023 0) m1 (fun w => decide (w.me.tcause = 4 ∧ w.me.tval = 0xFFFFFFFFFFFFFF80)) = true ∧
    vecTrips (.vst 2 1 1 0) (machine 1 (user.setG 1 0xFFFFFFFFFFFFFF80)) (fun w =>
      decide (w.me.tcause = 4 ∧ w.me.tval = 0 ∧ w.mem = [])) = true ∧
    vecTrips (.vst 2 1 0 0) (machine 1 { user with v := user.v.set 2 5 }) (fun w => decide (w.rdByte (2 ^ 44) = 5 ∧
      w.me.pc = 0x100000000104)) = true ∧
    vecTrips (.vld 2 1 0 0) { m1 with mem := [(2 ^ 44 + 127, 7)] } (fun w => decide (lane (w.me.vr 2) 31 = 0x7000000)) = true ∧
    vecTrips .ldtabQb m1 (fun w => decide ((w.core 0).q8 = q8bImage)) = true ∧
    vecTrips (.ldtab 1) m1 (fun w => decide (w.me.tcause = 6)) = true := by
  unfold State.vecReady State.unitEmpty State.ownAtSum State.ownAt State.noOwned Ctx.catches; decide +kernel

/-- A tensor operation on quad 0 that starts and completes. -/
def tensorTrips (i : Instr) (s : State) (p : State → Bool) : Bool :=
  runs i s fun u => runs .tensorOpStart { u with sel := 0 } fun v => runs (.tensorOpComplete 0 0) v p
/-- A tile of Q8 for `n` more uses. -/
def tile (h16 : Bool) (n : Nat) : Tile := { h16 := h16, fx := false, count := n, data := 0 }
/-- A context whose g14 names its scratchpad. -/
def scaled (s : State) : State := s.setCtx 1 ((s.ctx 1).setG 14 0x1000000)
/-- Input 2 by 2 by 1, filter, strides and dilations 1, output channels 1. -/
def shape1 : Shape := ⟨0x00020002, 0x00010001, 0x00024911, 0⟩
/-- Quad 0 with a latched tile. -/
def latched (h16 : Bool) (n : Nat) : State := { m1 with quads := [(0, { Quad.reset with latch := some (tile h16 n) })] }

/-- The tensor unit is idle in a package with no message on its way. -/
theorem tensor_idle (s : State) (hm : s.msgs = [])
    (h : (s.quad s.myQuad).tq = [] ∧ (s.quad s.myQuad).trun = none ∧ (s.quad s.myQuad).fwd = none ∧
      (s.quad s.myQuad).hand = none ∧ s.faulted (.tensor s.cur s.me.tid) = false ∧ (s.core s.myCore).head = none ∧
      s.flaws = [] ∧ s.retired = [] ∧ s.lost = []) : s.tensorIdle := by
  refine ⟨h.1, h.2.1, h.2.2.1, h.2.2.2.1, h.2.2.2.2.1, ⟨fun w => ?_, fun l => ?_⟩, h.2.2.2.2.2.2⟩
  · simp [State.headBefore, h.2.2.2.2.2.1]
  · simp [State.unitWriting, State.unitWritingAt, hm]

theorem wit_tensor_operations : m1.tensorIdle ∧ (latched false 16).tensorIdle ∧ m1.ownAt (m1.me.gr 1) 512 .load 0 ∧
    m1.ownAt (m1.me.gr 1) 32 .load 0 ∧
    m1.ownAt (m1.me.gr 1) 1024 .store 0 ∧ (∀ k, k < 16 → m1.obj? (scratchLoc 0 0 / 64 + k) = none) ∧
    (m1.quad 0).latch = none ∧ (m1.quad (m1.prevQuad 0)).out = none ∧
    ((latched false 16).quad 0).latch = some (tile false 16) ∧ ((latched false 2).quad ((latched false 2).nextQuad 0)).latch = none ∧
    m1.noOwned ∧ m1.me.catches ∧
    tensorTrips (.mmrQ8 0 1 1) (latched false 2) (fun w => decide (w.me.state = .waiting) &&
      runs .tileArrival { w with sel := 0 } (fun y => decide ((y.quad (w.nextQuad 0)).latch = some (tile false 1)) &&
        runs (.tensorOpComplete 0 1) y (fun r => decide (r.me = (m1.me.advance 4).ready)))) = true ∧
    tensorTrips (.mmrQ8 0 1 1) (latched false 1) (fun w => decide (w.me = (m1.me.advance 4).ready ∧ (w.quad 0).out = none)) = true ∧
    runs (.mmrQ8 0 1 1) (latched true 16) (fun u => runs .tensorOpStart { u with sel := 0 } (fun v =>
      decide (v.me.tcause = 0x10007))) = true := by
  refine ⟨tensor_idle _ rfl (by decide +kernel), tensor_idle _ rfl (by decide +kernel), ?_⟩
  unfold State.ownAt State.noOwned Ctx.catches; decide +kernel
theorem test_mld : tensorTrips (.mld 15 1) { m1 with mem := [(2 ^ 44 + 1023, 7)] } (fun w => decide (w.accAt 15 15 15 = 0x7000000 ∧
      w.me = (m1.me.advance 4).ready)) = true := by decide +kernel
theorem test_mclr : tensorTrips (.mclr 0) m1 (fun w => decide (w.me = (m1.me.advance 4).ready)) = true := by decide +kernel
set_option maxRecDepth 20000 in
theorem test_mst : tensorTrips (.mst 0 1) m1 (fun w => decide (w.me.pc = 0x100000000104)) = true := by
  decide +kernel
theorem test_mlatch : tensorTrips (.mlatch .q8 1) m1 (fun w => decide ((w.quad 0).latch = some (tile false 16))) = true := by
  decide +kernel
theorem wit_convolutions : (scaled m1).tensorIdle ∧ ¬ (geoOf shape1 m1.me).zeroExtent ∧ (geoOf ⟨0, 0, 0, 0⟩ m1.me).zeroExtent ∧
    (scaled m1).ownAt ((scaled m1).me.gr 14) 32 .load 0 ∧
    convAddr (geoOf shape1 m1.me) 0x1000000 0 0 3 0 = some 0x1000003 ∧ (scaled m1).ownAtSum 0x1000003 1 .load 3 ∧
    runs (.mshp 6 shape1) m1 (fun t => decide (t.me.gr 6 = 0x0001000100020002 ∧ t.me.pc = 0x100000000114)) = true ∧
    runs (.mshp 6 ⟨0, 0, 0, 0⟩) m1 (fun t => decide (t.me.tcause = 1)) = true ∧
    runs (.mcv 1 1 1 15 shape1) m1 (fun t => decide (t.me.tcause = 1)) = true ∧
    tensorTrips (.mcv 1 1 1 14 shape1) (scaled m1) (fun w => decide (w.me = ((scaled m1).me.advance 20).ready)) = true := by
  refine ⟨tensor_idle _ rfl (by decide +kernel), ?_⟩
  unfold Geo.zeroExtent State.ownAtSum State.ownAt; decide +kernel

-- Engines

theorem wit_engine_commands : engForm (.cvbF2q .clus 2 7 1 1 14) = some (2, 7, true, 14, 14) ∧ m1.cmds = [] ∧
    (m1.engQueued true m1.myCore).length < 16 ∧ m1.engOutside true m1.myCore = [] ∧
    (tget 0 7 (m1.core 0).done + 2 ^ 32 - (m1.me.gr 6).toNat % 2 ^ 32) % 2 ^ 32 < 2 ^ 31 ∧
    ¬ (tget 0 7 (m1.core 0).done + 2 ^ 32 - (m1.me.gr 5).toNat % 2 ^ 32) % 2 ^ 32 < 2 ^ 31 ∧
    runs (.cvbF2q .clus 2 7 1 1 15) m1 (fun t => decide (t.me.tcause = 1)) = true ∧
    runs (.cpw 7 6) m1 (fun t => decide (t.me.state = .ready)) = true ∧
    runs (.cpw 7 5) m1 (fun t => decide (t.me.why = 6)) = true ∧
    runs (.cpst 6 7) m1 (fun t => decide (t.me.gr 6 = 0)) = true := by decide +kernel

/-- A copy of 5 bytes from the scratchpad to the global window, queued. -/
def copying : State :=
  match exec (.cpy .core 2 7 2 1 5) { m1 with mem := [(2 ^ 44 + 4, 7)] } with
  | .next u => u
  | _ => m1

theorem wit_engine_transfers : copying.cmds.map (fun c => c.id) = [copying.sel] ∧ copying.cmds.all copying.engReady = true ∧
    copying.engOutside false 0 = [] ∧ copying.me.pend = 4 ∧
    runs .engineCommandStart copying (fun t => decide (t.rdByte 4 = 7 ∧ t.rdByte 5 = 0) &&
      runs .engineCommandComplete t (fun w => decide (w.cmds = [] ∧ w.me.pend = 0 ∧ w.me.gr 2 = 0x500000000 ∧
        tget 0 7 (w.core 0).done = 1))) = true := by decide +kernel
theorem wit_engine_start : (∀ k, (copying.core k).l1 = []) ∧ copying.queuedCells 0 = [] ∧ copying.flaws = [] ∧
    copying.retired = [] ∧ (copying.part 0).sweeping = false ∧
    copying.cmds.all (fun c => match copying.engDo c with
      | .copy r w none => decide (w.Nodup ∧ (∀ l ∈ r ++ w, isFleetLoc l = false) ∧ ∀ l ∈ w, locDie l = dieOf c.core)
      | _ => false) = true := by
  refine ⟨l1_nil _ (by decide +kernel), ?_⟩
  decide +kernel

/-- Core 0's copy queue holds 32 commands. -/
def fullQueue : State :=
  { m1 with cmds := copying.cmds.flatMap fun c => (List.range 32).map fun k => { c with id := k, cx := 2, tid := 44 } }

theorem wit_engine_outside : ¬ (fullQueue.engQueued false 0).length < 32 ∧
    runs (.cpy .core 2 7 2 1 5) fullQueue (fun t => decide (t.me.why = 15 ∧ t.me.pend = 4 ∧
      t.cmds.getLast?.map (fun c => (c.seq, decide (c.st = .outside))) = some (0, true) ∧ tget 0 7 (t.core 0).iss = 1)) = true := by
  decide +kernel
theorem wit_engine_fails : (match exec (.cpy .core 2 7 6 1 5) m1 with
    | .next u => runs .engineCommandStart u (fun t => decide (t.cmds.map (fun c => decide (c.st = .done 2 0 false false 0)) = [true]))
    | _ => false) = true := by decide +kernel

-- Launches and task graphs

/-- Memory that holds dwords at rising addresses. -/
def dwords (l : List (Nat × Nat)) : Memory :=
  (l.map fun x => ((List.range 8).map fun k => (x.1 + k, BitVec.ofNat 8 (x.2 / 256 ^ k))).filter (fun c => decide (c.2 ≠ 0))).flatten

/-- A launch record at the first global address: one context on core 0, its done word at 0x800. -/
def record0 : List (Nat × Nat) :=
  [(0, 0x1000000), (8, 0x100000000100), (16, 0x10000), (24, 1), (64, 0x100000000800)]
/-- A graph header at the first global address: one node at 0x100, a ring of 16 records at 0x200. -/
def header0 : List (Nat × Nat) :=
  [(0, 1), (8, 0x100000000100), (16, 0x100000000200), (24, 4), (0x108, 0x100000000300), (0x110, 0xFFFFFFFF)]
/-- Its node, resident. -/
def node0 : Node :=
  { kind := 0, npred := 0, addr := 0x100000000300, s0 := 0xFFFF, s1 := 0xFFFF, table := [], count := 0, running := false, pend := 0 }
/-- A resident graph with handle 0. -/
def graph0 (l : List Node) : Graph :=
  { part := 0, handle := 0, die := 0, addr := 0x100000000000, nodes := l, ring := 0x100000000200, rlog := 4, notify := 0
    compl := 0, fail := false, ovf := false, fnode := 0 }
/-- Context 1 beside the graph. -/
def withGraph (l : List Node) : State := { m1 with graphs := [graph0 l] }
/-- Context 1 with dwords in global memory. -/
def holding (l : List (Nat × Nat)) : State := { m1 with mem := dwords l }

theorem wit_lnch : (holding record0).clear ∧
    m1.translate m1.myCore m1.myPart (m1.me.gr 2) .load = .ok (.global 0) ∧ inGlobal (m1.me.gr 2) = true ∧
    (holding record0).recordOk ((holding record0).rdBytes (span 0 128)) = true ∧
    dwordAt ((holding record0).rdBytes (span 0 128)) 0 % 1024 = m1.myPart ∧ m1.heldOrQueued 0 0 < 64 ∧
    m1.recordOk (m1.rdBytes (span 0 128)) = false ∧
    trips .homeSliceAccess (.lnch 6 2) (holding record0) (fun t => decide (t.me.gr 6 = 0 ∧
      t.launches.map (fun l => (l.doneW, l.todo)) = [(0x100000000800, [0])])) = true ∧
    trips .homeSliceAccess (.lnch 6 2) m1 (fun t => decide (t.me.gr 6 = 4 ∧ t.launches = [])) = true := by
  unfold State.clear; decide +kernel
theorem wit_tgrun : (holding header0).clear ∧ (holding header0).graph? 0 0 = none ∧
    headerOk ((holding header0).rdBytes (span 0 64)) = true ∧ headerOk (m1.rdBytes (span 0 64)) = false ∧
    (match (holding header0).readGraph (.req 1 33) 0 0 ((holding header0).rdBytes (span 0 64)) with
      | .ok _ l => decide (l = [node0]) | _ => false) = true ∧
    trips .homeSliceAccess (.tgrun 6 2) (holding header0) (fun t => decide (t.me.gr 6 = 0 ∧ t.graphs = [graph0 [node0]])) = true ∧
    trips .homeSliceAccess (.tgrun 6 2) m1 (fun t => decide (t.me.gr 6 = 0x8000000000000002 ∧ t.graphs = [])) = true := by
  unfold State.clear; decide +kernel

/-- A task record, sent and taken. -/
def adds (s : State) (p : State → Bool) : Bool :=
  runs (.tkadd 6 6) s fun u => runs .taskRecord { u with sel := s.msgs.length } p

theorem wit_task_records : (withGraph [node0]).clear ∧ (withGraph [node0]).graph? 0 0 = some (graph0 [node0]) ∧ m1.graph? 0 0 = none ∧
    adds m1 (fun t => decide (t.me.gr 6 = 1)) = true ∧
    adds (withGraph []) (fun t => decide (t.me.gr 6 = 2 ∧ t.graphs = [{ graph0 [] with ovf := true }])) = true ∧
    adds (withGraph [node0]) (fun t => decide (t.me.gr 6 = 0 ∧ t.graphs = [graph0 [{ node0 with running := true }]] ∧
      Msg.node 0 0 0 ∈ t.msgs)) = true ∧
    adds (withGraph [{ node0 with running := true, pend := 254 }]) (fun t => decide (t.me.gr 6 = 0 ∧
      t.graphs = [graph0 [{ node0 with running := true, pend := 255 }]])) = true ∧
    trips .homeSliceAccess (.notify 6 5) m1 (fun t => decide (t.me = (m1.me.advance 4).ready)) = true ∧
    trips .homeSliceAccess (.notify 6 5) (withGraph [node0]) (fun t => decide (t.graphs = [{ graph0 [node0] with notify := 5 }] ∧
      Msg.ring 0 0 0 5 ∈ t.msgs)) = true ∧
    trips .homeSliceAccess (.notify 6 2) (withGraph [node0]) (fun t => decide (t.graphs = [graph0 [node0]])) = true ∧
    (let s : State := { withGraph [node0] with mem := dwords [(0x2F0, 0x7)], msgs := [.ring 0 0 (2 ^ 32 - 1) 2] }
     (match s.devRead (.graph 0 0 2) 0 0 (0x100000000200 + BitVec.ofNat 64 (16 * ((2 ^ 32 - 1) % 2 ^ 4))) 16 with
       | .got _ b => decide (dwordAt b 0 = 7) | _ => false) = true ∧
     (s.admitRing 0).graphs.map (fun g => g.ovf) = [true] ∧ Msg.ring 0 0 0 1 ∈ (s.admitRing 0).msgs) ∧
    Msg.node 0 0 0 ∈ (({ withGraph [node0] with msgs := [.ring 0 0 (2 ^ 32 - 1) 2] } : State).admitRing 0).msgs := by
  unfold State.clear; decide +kernel
theorem wit_wakes_and_timers : m1.clear ∧ m1.ownAt (m1.me.gr 1) 8 .store 0 ∧ m1.ownAt (m1.me.gr 1) 8 .load 0 ∧
    inScratch m1.myCore (m1.me.gr 1) = true ∧ m1.obj? (scratchLoc 0 0 / 64) = none ∧ m1.timers.length < 1024 ∧
    runs (.wake 1) m1 (fun t => decide (t.rdByte (2 ^ 44) = 1 ∧ t.me = (m1.me.advance 4).ready)) = true ∧
    runs (.wwait 6 1 5) m1 (fun t => decide (t.me.gr 6 = 0 ∧ t.me.state = .ready)) = true ∧
    runs (.wwait 6 1 0) m1 (fun t => decide (t.me.why = 11 ∧ t.watches = [⟨1, 33, 2 ^ 44, 0⟩])) = true ∧
    trips .homeSliceAccess (.tkaddAt 6 0 5) m1 (fun t => decide (t.me.gr 6 = 0 ∧ t.timers = [⟨0, 0, 5, none, 0, 33⟩])) = true ∧
    trips .homeSliceAccess (.wakeAt 6 1 5) m1 (fun t => decide (t.me.gr 6 = 0 ∧ t.timers.map (fun x => x.wake) = [some (2 ^ 44)])) =
      true := by unfold State.clear State.ownAt; decide +kernel

/-- A queued launch on core 0 with its done word at 0x800. -/
def launch0 : Launch :=
  { id := 0, part := 0, die := 0, prio := 0, dfail := false, entry := 0x100000000100, args := [0, 0, 0, 0], doneW := 0x100000000800
    deps := [], todo := [0], unsent := [], scr := [], simg := 0, slen := 0, st := .queued, check := 0, flight := 0, live := [], rep := []
    ctxsN := 0, faults := 0, code := 0, tstat := 0, sig := 0, node := none }
/-- Core 0 with the launch `l`. -/
def launching (l : Launch) : State := { m1 with launches := [l] }

theorem wit_launch_select : (launching launch0).placing 0 < 4 ∧ (launching launch0).nextLaunchOf 0 = some launch0 ∧
    m1.nextLaunchOf 0 = none ∧ m1.resvq = [] ∧ m1.retired = [] ∧
    runs .launchSelect (launching launch0) (fun t => decide (t.msgs = [] ∧
      t.launches = [{ launch0 with st := .placing, flight := 1, unsent := [0] }])) = true ∧
    (let s := launching { launch0 with unsent := [0] }
     ([0] : List Nat).find? (fun k => k / 12800 == 0) = some 0 ∧ (s.placeNext 0 0).msgs = [.spawn (launch0.spawnMsg 0)] ∧
       (s.placeNext 0 0).launches = [launch0] ∧
       (({ s with clusters := [] } : State).placeNext 0 0).msgs = [.spawnRetry (.disp 0 0) 0 4096]) := by decide +kernel
theorem wit_dep_recheck :
    let l : Launch := { launch0 with st := .held, deps := [0x100000000000], dfail := true }
    (launching l).partOut 0 = false ∧ (launching l).planOne (.launch 0) (dieCore 0) 0 0x100000000000 8 .engRead = .ok (span 0 8) ∧
    runs .depRecheck (launching l) (fun t => decide (t.launches = [{ l with check := 65536 }])) = true ∧
    runs .depRecheck { launching l with mem := [(1, 1)] } (fun t => decide (t.launches = [{ l with st := .queued }])) = true ∧
    runs .depRecheck { launching l with mem := [(0, 1), (1, 1)] } (fun t => decide (t.launches.all (fun x => x.code == 4))) = true := by
  decide +kernel
theorem wit_launch_done :
    let l : Launch := { launch0 with st := .running, todo := [], live := [(0, 0)], ctxsN := 1 }
    (launching l).planOne (.launch 0) (dieCore 0) 0 l.doneW 8 .engWrite = .ok (span 0x800 8) ∧
    runs (.coreDoneReport 0 0) (launching l) (fun t => decide (t.launches = [] ∧ t.rd (span 0x800 8) = 0x100000100)) = true ∧
    runs (.coreDoneReport 0 0) (launching { l with live := [(0, 0), (1, 1)] }) (fun t =>
      decide (t.launches.map (fun x => x.rep) = [[0]])) = true ∧
    runs .dispatcherSpawnRetry { launching launch0 with msgs := [.spawnRetry (.disp 0 0) 0 9] } (fun t =>
      decide (t.msgs = [.spawn (launch0.spawnMsg 0)])) = true ∧
    runs .dispatcherSpawnRetry { launching launch0 with msgs := [.spawnRetry (.disp 0 0) 0 9], clusters := [] } (fun t =>
      decide (t.msgs = [.spawnRetry (.disp 0 0) 0 4096])) = true := by decide +kernel
theorem wit_teardown_notice : runs (.lnch 6 2) m1 (fun u => runs .teardownNotice { u with msgs := .teardown 0 0 33 true :: u.msgs } (fun t =>
      t.msgs.all (fun x => match x with | .req r => r.vals == [2, 0] | _ => false))) = true := by decide +kernel

/-- A graph with the plain node `x` and a second one. -/
def graphing (x : Node) (msg : Msg) : State := { withGraph [x, { node0 with npred := 2, count := 2 }] with msgs := [msg] }

theorem wit_plain_nodes : recordAddr node0.addr = true ∧ recordAddr 0x100000000308 = false ∧
    (match (graphing node0 (.node 0 0 0)).devRead (.graph 0 0 1) 0 0 node0.addr 128 with | .got _ _ => true | _ => false) = true ∧
    runs .nodeRun { graphing { node0 with addr := 0x100000000000 } (.node 0 0 0) with mem := dwords record0 } (fun t =>
      decide (t.launches.map (fun l => l.node) = [some (0, 0)])) = true ∧
    runs .nodeRun (graphing node0 (.node 0 0 0)) (fun t => decide (t.launches = [] ∧ t.graphs.map (fun g => (g.fail, g.fnode)) =
      [(true, 0)])) = true ∧
    runs .plainNodeComplete (graphing { node0 with s0 := 1, running := true } (.nodeDone 0 0 0 true 0)) (fun t =>
      decide (t.graphs = [{ graph0 [{ node0 with s0 := 1 }, { node0 with npred := 2, count := 1 }] with compl := 1 }])) = true ∧
    runs .plainNodeComplete (graphing { node0 with running := true } (.nodeDone 0 0 0 false 0)) (fun t =>
      decide (t.graphs.map (fun g => (g.fail, g.compl)) = [(true, 1)])) = true := by decide +kernel
theorem wit_control_nodes : let x : Node := { node0 with kind := 3, addr := 0x100000000000, table := [0, 1], running := true }
    (match (graphing x (.node 0 0 0)).devRead (.graph 0 0 1) 0 0 x.addr 8 with | .got _ _ => true | _ => false) = true ∧
      inFleet x.addr = false ∧
    runs .nodeRun { graphing x (.node 0 0 0) with mem := [(0, 9)] } (fun t => decide (t.graphs.map (fun g => g.nodes.map (fun y => y.count)) =
      [[0, 1]])) = true := by decide +kernel
theorem wit_timers : let y : Timer := ⟨0, 0, 5, some (2 ^ 44), 0, 33⟩
    ({ m1 with timers := [y], now := 5 } : State).wakePlan 0 (2 ^ 44) 0 = .ok (span (2 ^ 44) 8) ∧
    runs .belfryTimer { m1 with timers := [y], now := 4 } (fun t => decide (t.timers = [y])) = true ∧
    runs .belfryTimer { m1 with timers := [y], now := 5, mem := [(2 ^ 44, 255)] } (fun t => decide (t.timers = [] ∧
      t.rd (span (2 ^ 44) 8) = 256)) = true ∧
    runs .belfryTimer { m1 with timers := [{ y with wake := none }], now := 5 } (fun t => decide (t.timers = [] ∧ t.msgs = [])) = true ∧
    runs .belfryTimer { withGraph [node0] with timers := [{ y with wake := none }], now := 5 } (fun t =>
      decide (Msg.node 0 0 0 ∈ t.msgs)) = true ∧
    runs .belfryTimer { m1 with timers := [{ y with wake := none }], now := 5, msgs := [.task 0 0 7 33 none none] } (fun t =>
      decide (t.msgs = [.task 0 0 7 33 none none, .task 0 0 0 33 none none])) = true ∧
    runs .belfryTimer { m1 with timers := [y], now := 5, msgs := [.timerWake 0 0 (2 ^ 44) 1] } (fun t =>
      decide (t.msgs = [.timerWake 0 0 (2 ^ 44) 1, .timerWake 0 0 (2 ^ 44) 0])) = true := by decide +kernel

-- The network

/-- A network descriptor at the first global address: a ring of 16 slots there, a buffer of 4,096 bytes. -/
def desc0 : List (Nat × Nat) := [(0, 4), (8, 0x100000000000), (16, 0x100000001000), (24, 4096)]
/-- Its endpoint. -/
def ep0 : Endpoint := endpointOf 0 0 0 0 ((List.range 8).flatMap fun k =>
  (List.range 8).map fun j => BitVec.ofNat 8 ([4, 0x100000000000, 0x100000001000, 4096, 0, 0, 0, 0].getD k 0 / 256 ^ j))
/-- Context 1 with an endpoint, a valid peer entry, rank 1 of two in reduction 7, and of die 0 port 1, an Ethernet port, and
port 2, a scale-up port, up. Partition 0 has the address 0x10 there. -/
def networked (e : Endpoint) (l : List (Nat × Nat)) : State :=
  { m1 with
    mem := dwords l, eps := [e], peers := [(0, [1, 0x10, 0, 7 + 2 ^ 16 + 2 * 2 ^ 22])], addrs := [(0, 0x10)]
    dies := [(0, { Die.reset with up := 6, mode := 3 })] }
/-- The same with the path of the peer on the scale-up link, to die 0 of package 0. -/
def scaleUp (e : Endpoint) : State := { networked e [] with peers := [(0, [3, 0x10, 0, 0])] }

theorem wit_nring : (networked ep0 desc0).clear ∧ ({ networked ep0 desc0 with eps := [] } : State).ep? 0 0 0 = none ∧
    ({ networked ep0 desc0 with eps := [] } : State).descOk 0 0 ((networked ep0 desc0).rdBytes (span 0 64)) = true ∧
    trips .homeSliceAccess (.nring 6 2) { networked ep0 desc0 with eps := [] } (fun t => decide (t.me.gr 6 = 0 ∧ t.eps = [ep0])) = true ∧
    trips .homeSliceAccess (.nring 6 2) (networked ep0 desc0) (fun t => decide (t.me.gr 6 = 1 ∧ t.eps.length = 2)) = true ∧
    trips .homeSliceAccess (.nring 6 2) m1 (fun t => decide (t.me.gr 6 = 0x8000000000000002)) = true := by
  unfold State.clear; decide +kernel
theorem wit_npost : (networked ep0 []).ep? 0 0 0 = some ep0 ∧ m1.ep? 0 0 0 = none ∧
    trips .homeSliceAccess (.npost 6 6 5) m1 (fun t => decide (t.me.gr 6 = 1)) = true ∧
    trips .homeSliceAccess (.npost 6 6 5) (networked ep0 []) (fun t => decide (t.me.gr 6 = 0 ∧
      t.eps = [{ ep0 with prod := 5, tags := List.replicate 5 (false, false) }])) = true ∧
    trips .homeSliceAccess (.npost 6 6 5) (networked { ep0 with sc := 2 ^ 32 - 12 } []) (fun t => decide (t.me.gr 6 = 2)) = true ∧
    trips .homeSliceAccess (.npost 6 6 5) (networked { ep0 with sc := 2 ^ 32 - 11 } []) (fun t => decide (t.me.gr 6 = 0)) = true := by
  decide +kernel
theorem wit_counters : (networked ep0 []).counterOf 0 = some 0 ∧ m1.counterOf 0 = none ∧ m1.syncsAtOnce ∧
    runs (.ncnt 6 5) m1 (fun t => decide (t.me.gr 6 = 0)) = true ∧
    runs (.ncnt 5 6) (networked { ep0 with sc := 2 ^ 32 - 1, scErr := 70000 } []) (fun t => decide (t.me.gr 5 = 0xFFFFFFFFFFFF)) = true ∧
    runs (.ncw 6 6) (networked ep0 []) (fun t => decide (t.me = (m1.me.advance 4).ready)) = true ∧
    runs (.ncw 6 5) (networked ep0 []) (fun t => decide (t.me.why = 16)) = true ∧
    runs (.ncw 6 5) m1 (fun t => decide (t.me.why = 16)) = true := by
  refine ⟨by decide +kernel, by decide +kernel, ⟨l1_nil _ (by decide +kernel), by decide +kernel⟩, ?_⟩
  decide +kernel

/-- A `WRITE` of 5 bytes with CNT in slot 0, and a `REDUCE` of one element. -/
def write0 : List (Nat × Nat) := [(0, 5 * 2 ^ 32 + 16), (8, 0x100000002000), (0x2000, 0x0504030201)]
/-- See `write0`. -/
def reduce0 : List (Nat × Nat) := [(0, 4 * 2 ^ 32 + 1), (8, 0x100000002000), (0x2000, 0x3F800000)]
/-- What `netDo` decides, as data. -/
def decided (d : NetDo) : Option (List Nat) × Option Nat :=
  match d with
  | .end_ c => (none, some c)
  | .wait _ => (none, none)
  | .go r => (some r, none)
/-- A request in flight with one packet that has been sent `n` times. -/
def req0 (n : Nat) : NReq :=
  { idx := 0, reduce := false, cnt := true, len := 5, roff := 0, bytes := [1, 2, 3, 4, 5], peer := [1, 0x10, 0, 0]
    pkts := [{ num := 0, off := 0, len := 5, port := 1, sends := n, seq := 0, sent := 0, acked := false }], six := false, code := none
    rtx := 0, mask := 0, written := false, werr := false, tag := false, fx := true }
/-- The endpoint with that request. -/
def sending (n : Nat) : Endpoint := { ep0 with prod := 1, next := 1, reqs := [req0 n], nextPkt := 1 }

/-- A scale-up request of 300 bytes, in flight as `req0`. -/
def long0 : NReq :=
  { req0 1 with
    bytes := List.replicate 300 1, len := 300, peer := [3, 0x10, 0, 0]
    pkts := [{ num := 0, off := 0, len := 300, port := 1, sends := 1, seq := 0, sent := 0, acked := false }] }

theorem wit_request_starts : m1.netWrites { ep0 with prod := 1 } = none ∧
    (match (networked ep0 write0).slotPlan ep0 with | .ok l => decide (l = span 0 64) | _ => false) = true ∧
    decided ((networked ep0 write0).netDo ep0 ((networked ep0 write0).rdBytes (span 0 64))) = (some (span 0x2000 5), none) ∧
    decided ((networked ep0 []).netDo ep0 ((networked ep0 []).rdBytes (span 0 64))) = (none, some 1) ∧
    decided (({ networked ep0 write0 with peers := [] } : State).netDo ep0 ((networked ep0 write0).rdBytes (span 0 64))) =
      (none, some 3) ∧
    runs (.workRequestStart 0 0 0) (networked { ep0 with prod := 1 } write0) (fun t => decide (t.msgs = [.pkt 0 0 0 0] ∧
      t.eps.map (fun e => (e.next, e.reqs.map (fun r => (r.bytes, r.cnt)))) = [(1, [([1, 2, 3, 4, 5], true)])])) = true ∧
    runs (.workRequestStart 0 0 0) (networked { ep0 with prod := 1 } reduce0) (fun t => decide (t.msgs = [.contrib
      { part := 0, phase := false, fx := false, place := 0, rid := 7, rank := 1, nr := 2, len := 4, roff := 0
        bytes := [0, 0, 0x80, 0x3F], mine := some (0, 0, 0, 0) }] ∧
      t.out.map (fun o => match o with | .flit f _ _ => (f.red, f.at_, f.len) | _ => (none, 9, 9)) = [(some (7, 1), 0, 4)])) = true ∧
    runs (.workRequestStart 0 0 0) { networked { ep0 with prod := 1 } reduce0 with dies := [(0, { Die.reset with up := 2, mode := 3 })] }
      (fun t => decide (t.msgs = [] ∧ t.rd (span 24 8) = 3 ∧ t.eps.map (fun e => e.sc) = [1])) = true ∧
    runs (.workRequestStart 0 0 0) (networked { ep0 with prod := 1 } []) (fun t => decide (t.rd (span 24 8) = 1 ∧
      t.eps.map (fun e => (e.sc, e.scErr, e.reqs)) = [(1, 1, [])])) = true := by decide +kernel
theorem wit_slot_at : (networked (sending 1) []).slotAt (sending 1) 0 24 := by
  exact ⟨by decide +kernel, by decide +kernel, by decide +kernel, by decide +kernel, l1_nil _ (by decide +kernel), by decide +kernel⟩
theorem wit_packets :
    (sending 1).holding 0 = some (req0 1, (req0 1).pkts.headD { num := 0, off := 0, len := 0, port := 0, sends := 0, seq := 0, sent := 0, acked := true }) ∧
    (sending 1).onlyReq (req0 1) ∧ (sending 1).missing [0] = [] ∧
    runs .packetSend { networked (sending 0) [] with msgs := [.pkt 0 0 0 0] } (fun t => decide (t.out.map (fun o =>
      match o with | .packet q _ k => (q.bytes, k) | _ => ([], 9)) = [([1, 2, 3, 4, 5], 1)])) = true ∧
    runs .packetSend { networked (sending 0) [] with msgs := [.pkt 0 0 0 0], dies := [] } (fun t => decide (t.out = [] ∧
      t.rd (span 24 8) = 3)) = true ∧
    runs (.ackReceive { die := 0, part := 0, ep := 0, inc := 0, covers := [0], codes := [] }) (networked (sending 1) []) (fun t =>
      decide (t.rd (span 24 8) = 0 ∧ t.eps.map (fun e => (e.sc, e.scErr)) = [(1, 0)])) = true ∧
    runs (.ackReceive { die := 0, part := 0, ep := 0, inc := 1, covers := [0], codes := [] }) (networked (sending 1) []) (fun t =>
      decide (t.eps = [sending 1])) = true ∧
    runs (.retransmitTimeout 0 0 0 0) (networked (sending 16) []) (fun t => decide (t.out.length = 1 ∧
      t.eps.map (fun e => e.reqs.map (fun r => r.rtx)) = [[1]])) = true ∧
    runs (.retransmitTimeout 0 0 0 0) (networked (sending 17) []) (fun t => decide (t.out = [] ∧ t.rd (span 24 8) = 3)) = true ∧
    (let e : Endpoint := { sending 1 with reqs := [long0] }
     runs .packetSend { scaleUp e with msgs := [.pkt 0 0 0 0] } (fun t => decide (t.out.map (fun o =>
       match o with | .flit f _ k => (f.at_, f.len, f.part, f.fx, k) | _ => (9, 9, 9, false, 9)) =
         [(0, 224, 0, true, 2), (224, 76, 0, true, 2)])) = true) ∧
    runs .portLinkDown { networked ep0 [] with sel := 1 } (fun t => decide ((t.die 0).up = 4)) = true ∧
    runs .portLinkUp { networked ep0 [] with sel := 0 } (fun t => decide ((t.die 0).up = 7)) = true := by
  unfold Endpoint.onlyReq; decide +kernel

/-- A packet of 5 bytes, whole, for the end of the buffer. -/
def pkt0 (roff : Nat) : Packet :=
  { srcPkg := 1, srcDie := 0, srcPart := 0, srcEp := 0, inc := 0, dst := .ether 0x10, dstEp := 0, num := 9, req := 3, off := 0, roff := roff
    len := 5, cnt := true, bytes := [1, 2, 3, 4, 5] }
/-- A flit of `n` bytes from `k` of the packet. -/
def flit0 (part k n roff : Nat) : Flit := { part := part, phase := false, fx := false, place := 0, red := none, at_ := k, len := n, pkt := pkt0 roff }
/-- What `acks` of the statement says. -/
def answered (t : State) (covers : List Nat) (codes : List (Nat × Nat)) : Bool :=
  decide (t.out = [.ack 1 { die := 0, part := 0, ep := 0, inc := 0, covers := covers, codes := codes }])

theorem wit_buffer_at : (networked ep0 []).bufferAt ep0 4091 5 0x1FFB :=
  ⟨by decide, by decide, by decide +kernel, by decide, l1_nil _ (by decide +kernel), by decide⟩
theorem wit_receiving : ep0.seen.contains (0, 0) = false ∧ ep0.rx = [] ∧ (networked ep0 []).targetEp (pkt0 0) = some ep0 ∧
    (networked ep0 []).targetEp { pkt0 0 with dst := .ether 0x11 } = none ∧
    (networked ep0 []).targetEp { pkt0 0 with dst := .scale 0 0 } = some ep0 ∧
    (networked ep0 []).targetEp { pkt0 0 with dst := .scale 1 0 } = none ∧
    runs (.packetReceive (pkt0 4091)) (networked ep0 []) (fun t => decide (t.rdByte 0x1FFF = 5 ∧ t.eps.map (fun e => e.rc) = [1]) &&
      answered t [9] []) = true ∧
    runs (.packetReceive (pkt0 4092)) (networked ep0 []) (fun t => decide (t.mem = [] ∧ t.eps.map (fun e => e.rcErr) = [1]) &&
      answered t [] [(9, 4)]) = true ∧
    runs (.packetReceive (pkt0 0)) m1 (fun t => decide (t.mem = []) && answered t [] [(9, 4)]) = true ∧
    runs (.packetReceive (pkt0 0)) (networked { ep0 with seen := [(2 ^ 29, 9)] } []) (fun t => decide (t.mem = []) && answered t [9] []) =
      true ∧
    runs (.packetReceive { pkt0 0 with off := 1 }) (networked ep0 []) (fun t => decide (t.mem = []) && answered t [] [(9, 4)]) = true ∧
    runs (.flitReceive (flit0 0 0 5 4091)) (networked ep0 []) (fun t => decide (t.rdByte 0x1FFF = 5)) = true ∧
    runs (.flitReceive (flit0 0 4 1 4091)) (networked ep0 []) (fun t => decide (t.mem = [] ∧ t.out = []) &&
      runs (.flitReceive (flit0 0 0 4 4091)) t fun u => decide (u.rdByte 0x1FFF = 5)) = true ∧
    runs (.flitReceive { flit0 0 0 5 4091 with red := some (7, 1) }) (networked ep0 []) (fun t => decide (t.mem = [] ∧ t.out = [] ∧
      t.eps.map (fun e => e.flits.length) = [1])) = true ∧
    runs (.flitReceive { flit0 1 0 5 0 with pkt := { pkt0 0 with dst := .scale 0 0 } }) (networked ep0 []) (fun t =>
      decide (t.mem = [] ∧ (t.die 0).elog.map (fun x => (x.kind, x.part)) = [(6, 1)]) && answered t [] [(9, 4)]) = true := by
  decide +kernel
theorem wit_endpoint_threads : let e : Endpoint := { ep0 with entry := 0x100000000100, spawns := [(1, 0, 5)] }
    runs (.neSpawnSend 0 0 0) (networked e []) (fun t => decide (t.eps = [{ e with spawnOut := true }] ∧ t.msgs.length = 1)) = true ∧
    runs (.neSpawnRetry 0 0 0) { networked { e with spawnOut := true } [] with msgs := [.spawnRetry (.net 0 0 0) 0 9] } (fun t =>
      t.msgs.all (fun m => match m with | .spawn x => decide (x.core = 0 ∧ x.a3 = 5) | _ => false)) = true ∧
    (let s : State := { networked e [] with clusters := [] }
     runs (.neSpawnSend 0 0 0) s (fun t => decide (t.msgs = [.spawnRetry (.net 0 0 0) 0 4096])) = true ∧
     runs (.neSpawnRetry 0 0 0) { s with msgs := [.spawnRetry (.net 0 0 0) 0 9] } (fun t =>
       decide (t.msgs = [.spawnRetry (.net 0 0 0) 0 4096])) = true) := by decide +kernel

/-- A contribution of 1.0 of a rank. -/
def contrib (rank : Nat) (mine : Option (Nat × Nat × Nat × Nat)) : Contrib :=
  { part := 0, phase := false, fx := false, place := 0, rid := 7, rank := rank, nr := 2, len := 4, roff := 0
    bytes := [0, 0, 0x80, 0x3F], mine := mine }
/-- The reduction that it opens. -/
def red0 : Reduction := { part := 0, rid := 7, nr := 2, len := 4, roff := 0, first := 0, failed := none, got := [contrib 0 (some (0, 0, 0, 0))] }

theorem wit_reductions : ((contrib 0 none).nr > 1 ∧ m1.reds = []) ∧
    runs (.reduceContribution (contrib 0 (some (0, 0, 0, 0)))) m1 (fun t => decide (t.reds = [red0])) = true ∧
    runs (.reduceContribution (contrib 1 none)) { m1 with reds := [red0] } (fun t => decide (t.reds = [] ∧
      t.msgs = [.redRes (0, 0, 0, 0) 0 3 [0, 0, 0, 0x40]])) = true ∧
    runs (.reduceContribution { contrib 1 none with roff := 4 }) { m1 with reds := [red0] } (fun t => decide (t.reds = [] ∧
      t.msgs = [.redRes (0, 0, 0, 0) 5 1 []])) = true ∧
    runs .reduceTimeout { m1 with reds := [red0] } (fun t =>
      decide (t.reds = [{ red0 with failed := some 1 }] ∧ t.msgs = [.redRes (0, 0, 0, 0) 5 1 []])) = true ∧
    runs (.reduceContribution (contrib 1 (some (0, 0, 1, 0)))) { m1 with reds := [{ red0 with failed := some 1 }] } (fun t =>
      decide (t.reds = [] ∧ t.msgs = [.redRes (0, 0, 1, 0) 5 1 []])) = true ∧
    runs (.reduceContribution (contrib 1 (some (0, 0, 1, 0)))) { m1 with reds := [{ red0 with nr := 3 }], now := 10000001 } (fun t =>
      decide (t.msgs = [.redRes (0, 0, 0, 0) 5 1 [], .redRes (0, 0, 1, 0) 5 1 []] ∧
        t.reds.map (fun r => (r.failed, r.got.length)) = [(some 1, 2)])) = true ∧
    runs (.reduceContribution (contrib 0 none)) { m1 with reds := [red0], now := 10000001 } (fun t =>
      decide (t.msgs = [.redRes (0, 0, 0, 0) 5 1 []] ∧
        t.reds.map (fun r => (r.failed, r.first, r.got.length)) = [(some 1, 0, 1), (none, 10000001, 1)])) = true ∧
    (let e : Endpoint := { sending 1 with reqs := [{ req0 1 with reduce := true, pkts := [], len := 4, roff := 4092 }] }
     runs .reduceResult { networked e [] with msgs := [.redRes (0, 0, 0, 0) 0 3 [0, 0, 0, 0x40]] } (fun t =>
       decide (t.rdByte 0x1FFF = 0x40 ∧ t.rd (span 24 8) = 0 ∧ t.rd (span 32 8) = 3 ∧ t.eps.map (fun e => (e.sc, e.rc)) = [(1, 1)])) =
         true ∧
     runs .reduceResult { networked e [] with msgs := [.redRes (0, 0, 0, 0) 5 1 []] } (fun t =>
       decide (t.rd (span 24 8) = 5 ∧ t.rd (span 32 8) = 1)) = true) := by decide +kernel

-- The host, the service core, power and events

/-- A host access of 8 bytes at the start of an aperture. -/
def host0 (write : Bool) : HostAcc := { part := 0, addr := 0, size := 8, write := write, val := 0x1122334455667788 }
/-- The apertures of partition 0 begin at the first global and Cupola addresses. -/
def hosted (l : List Host.Cell) : State := { m1 with bars := [(0, (0x100000000000, 0x20000000000))], mem := l }

theorem wit_host : (hosted []).hostLoc (host0 true) 0x100000000000 = some (span 0 8) ∧ m1.msgs = [] ∧
    (hosted []).bases 0 = (0x100000000000, 0x20000000000) ∧
    (hosted []).hostFound { host0 false with addr := 0x10000 } 0x100000010000 = .miss ∧
    (let s : State := { hosted [] with walked := [(.host 0, 0, 0x100000010000, none)] }
     s.hostFound { host0 false with addr := 0x10000 } 0x100000010000 = .absent ∧
     s.hostLoc { host0 false with addr := 0x10000 } 0x100000010000 = none ∧
     runs (.hostBarAccess { host0 false with addr := 0x10000 }) s (fun t => decide (t.out.length = 1)) = true) ∧
    runs (.hostBarAccess { host0 false with addr := 0x10000 }) (hosted []) (fun t => decide (t.out = [] ∧
      Msg.host 0 { host0 false with addr := 0x10000 } ∈ t.msgs)) = true ∧
    runs (.hostBarAccess (host0 true)) (hosted []) (fun t => decide (t.rd (span 0 8) = 0x1122334455667788 ∧ t.out = [])) = true ∧
    runs (.hostBarAccess (host0 false)) (hosted [(7, 1)]) (fun t => decide (t.out = [.hostRead (host0 false) (2 ^ 56)])) = true ∧
    runs (.hostBarAccess { host0 false with size := 2 }) (hosted []) (fun t => decide (t.out.length = 1 ∧
      (t.die 0).elog.map (fun e => e.kind) = [7])) = true ∧
    runs (.hostBarAccess { host0 false with addr := 2 ^ 28 }) (hosted []) (fun t => decide (t.out.length = 1)) = true ∧
    runs (.wakePageWrite (host0 false)) (hosted [(2 ^ 42, 3)]) (fun t => decide (t.out = [.hostRead (host0 false) 3])) = true ∧
    runs (.wakePageWrite { host0 false with addr := 2 ^ 20 }) (hosted []) (fun t =>
      decide (t.out = [.hostRead { host0 false with addr := 2 ^ 20 } (-1)])) = true ∧
    runs (.notifyPageWrite { host0 false with size := 4 }) (withGraph [node0]) (fun t =>
      decide (t.out = [.hostRead { host0 false with size := 4 } 0])) = true ∧
    runs (.attestationRequest 5 (some 0)) m1 (fun t => decide (t.fresh = 1 ∧ t.out.length = 1)) = true := by decide +kernel

/-- A start in which everything succeeds. -/
def start0 : StartInput :=
  { good := List.replicate 7 true, cut := none, full := [9], short := [], pkg := 5, modes := [true]
    trained := List.replicate 24 true, belfry := 9 }

theorem wit_start : (∀ k : Fin 7, m1.steps[k].toNat % 16 = 1) ∧ (∀ n, n < 7 → start0.good.getD n false = true) ∧
    imageRuns m1.service false = true ∧ imageRuns m1.lantern false = true ∧
    (∀ n, n < 24 → start0.trained.getD n false = true) ∧ start0.cut = none ∧ recRes m1.steps[(0 : Fin 7)] = 1 ∧
    runs (.deviceReset start0) m1 (fun t => decide (t.pkg = 5 ∧ t.now = 9 ∧ t.ctx 1 = ctxDefault 1 ∧ (t.die 7).up = 7 ∧
      (t.die 0).mode = 1 ∧ t.stopped = false ∧ t.retired = [9])) = true ∧
    runs (.deviceReset { start0 with cut := some 1 }) m1 (fun t => t.stopped && decide (recRes t.steps[(0 : Fin 7)] = 0)) = true ∧
    runs (.deviceReset { start0 with good := [] }) m1 (fun t => t.stopped && runs (.deviceReset { start0 with good := [] }) t (fun u =>
      runs (.deviceReset { start0 with good := [] }) u (fun w => decide (w.out.length = 1)))) = true ∧
    runs (.firmwareUpdate true 7 false) m1 (fun t => decide (t.lantern.first = { ver := 7, good := false })) = true := by decide +kernel
theorem wit_read_errors : m1.flaws = [] ∧ m1.retired = [] ∧ m1.lost = [] ∧
    runs (.readRetry 1 .transient) m1 (fun t => decide ((t.readCheck [64] 33 0).2 = false ∧ (t.readCheck [64] 33 0).1.retired = [])) =
      true ∧
    runs (.readRetry 1023 .lasting) m1 (fun t =>
      decide ((t.readCheck [65535] 33 0).2 = true ∧ (t.readCheck [65535] 33 0).1.retired = [0])) = true ∧
    runs (.readRetry 1 .llcClean) m1 (fun t => decide ((t.readCheck [64] 33 0).2 = false ∧ (t.readCheck [64] 33 0).1.lost = [])) = true ∧
    runs (.readRetry 1 .llcDirty) m1 (fun t => decide ((t.readCheck [64] 33 0).2 = true ∧ (t.readCheck [64] 33 0).1.lost = [1])) = true ∧
    runs (.readRetry (2 ^ 38) .llcDirty) m1 (fun t => decide ((t.readCheck [2 ^ 44] 33 0).2 = true)) = true := by decide +kernel

/-- Page tables that map the first 2 MiB of the Cupola and global windows, from the root 0x10000. -/
def tables : List (Nat × Nat) := [(0x10000, 0x11001), (0x11020, 0x12001), (0x11100, 0x12001), (0x12000, 0x13001), (0x13000, 7)]
/-- The package with these tables for partition 0, and no translation cached. -/
def mapped : State :=
  { m1 with mem := dwords tables, parts := [(0, { Part.reset with root := some 0x10000 })], cores := [(0, { core0 with tlb := [] })] }
/-- An object with 5 bytes in the Cupola. -/
def image0 : ObjImage :=
  { header := [0x4E, 0x4C, 0x4F, 1, 1, 0, 1, 0, 0, 0, 0, 0, 0, 0, 0, 0] ++ (List.replicate 4 [48, 0, 0, 0, 0, 0, 0, 0]).flatten
    tablesOk := true
    secs := [{ name := [], kind := .cupola, align := 8, size := 5, bytes := [1, 2, 3, 4, 5], va := 0x20000000008 }]
    syms := [], addrs := [], lays := [], textWritable := false }
/-- The same for another architecture level. -/
def image2 : ObjImage := { image0 with header := image0.header.set 4 2 }

theorem wit_loader : objectOk image0 = true ∧ objectOk image2 = false ∧ mapped.diesOf 0 = [0] ∧
    mapped.placesOk 0 image0 = true ∧ mapped.placesOk 0 { image0 with secs := image0.secs ++ image0.secs } = false ∧
    mapped.walk 0 0x20000000008 = .leaf ⟨0, 21, 2 ^ 20, 0, true, false⟩ ∧
    runs (.loadObject 0 image0) mapped (fun t => decide (t.rdByte (2 ^ 42 + 12) = 5 ∧ t.out = [.loaded 0 []])) = true ∧
    runs (.loadObject 0 image2) mapped (fun t => decide (t.out = [.refusedLoad 0])) = true := by decide +kernel
theorem wit_handover : (m1.cluster 0).part ≠ some 5 ∧
    runs (.clusterHandover 0 (some 5)) { m1 with mem := [(2 ^ 44, 7), (2 ^ 44 + 2 ^ 22, 7)] } (fun t =>
      decide ((t.cluster 0).part = some 5 ∧ t.ctx 1 = ctxDefault 1 ∧ t.mem = [(2 ^ 44 + 2 ^ 22, 7)])) = true := by decide +kernel
theorem wit_run_ahead : (m1.ctx 1).state = .ready ∧ (m1.ctx 1).run = [] ∧ (m1.quad 0).icache = [] ∧
    tlbFind 0 0x10000000011C (m1.core 0).tlb = some ⟨0, 16, 2 ^ 28, 0, true, true⟩ ∧
    runs (.runAheadFetch 1 8) { m1 with mem := [(0x11C, 5)] } (fun t => decide (t.me.run.getLast? = some (0x10000000011C, 5) ∧
      t.me.run.length = 8)) = true := by decide +kernel

/-- The command `op` of partition 0 stands at the head of the queue of die 0. -/
def ordered (op : Nat) (a b : Word) (s : State) : State :=
  { s with sel := 0, dies := [(0, { Die.reset with cmdq := [{ d0 := BitVec.ofNat 64 op, a := a, b := b, tag := 9 }] })] }
/-- Runs it, and reads its status. -/
def orders (i : Instr) (op : Nat) (a b : Word) (s : State) (st : Nat) (p : State → Bool) : Bool :=
  runs i (ordered op a b s) fun t => decide ((t.die 0).cmdq = [] ∧ (t.die 0).cmds.map (fun c => c.status) = [some st]) && p t

theorem wit_page_commands : m1.partOf 0 = some 0 ∧ m1.page 0 0 = resident ∧ (m1.page 0 11).res = false ∧
    orders .pdesc 1 11 0x3001 m1 0 (fun t => decide ((t.page 0 11).frame = 0x3000 ∧ (t.page 0 11).v)) = true ∧
    orders .pdesc 1 12 0x3001 m1 1 (fun _ => true) = true ∧ orders .pdesc 1 (16 * 64) 0x3001 m1 2 (fun _ => true) = true ∧
    orders .pdesc 1 0 0x3001 m1 1 (fun _ => true) = true ∧
    orders .unpin 2 0 0 m1 0 (fun t => decide ((t.page 0 0).res = false)) = true ∧
    runs .unpin (ordered 2 0 0 { m1 with cores := [(0, { core0 with pages := [(0, { resident with dirty := true, frame := 0x3000 })] })] })
      (fun t => decide ((t.page 0 0).busy)) = true ∧
    orders .unassignedCommand 0x31 0 0 m1 1 (fun _ => true) = true ∧ orders .pdesc (2 ^ 18 + 1) 0 0 m1 1 (fun _ => true) = true := by
  decide +kernel
theorem wit_register_commands : (∀ x ∈ List.range 16, (m1.quad x).latch = none ∧ (m1.quad x).out = none) ∧ (m1.cluster 1).part ≠ some 0 ∧
    orders .setregMring 3 0x12 2 m1 0 (fun t => decide ((t.cluster 0).mring = 2)) = true ∧
    orders .setregMring 3 0x12 2 (latched false 1) 1 (fun _ => true) = true ∧ orders .setregMring 3 0x10012 2 m1 2 (fun _ => true) = true ∧
    orders .setregSopol 3 0x13 7 m1 0 (fun t => decide ((t.part 0).sopol = 7)) = true ∧
    orders .setregGpol 3 0x14 0x3FFF m1 0 (fun t => decide ((t.part 0).dq = 0x3FFF)) = true ∧
    orders .unassignedCommand 3 0x15 0 m1 1 (fun _ => true) = true ∧
    orders .ptroot 4 0x10000 0 m1 0 (fun t => decide ((t.part 0).root = some 0x10000)) = true ∧
    orders .tlbshoot 7 0x20000000000 0 m1 0 (fun t => decide ((t.core 0).tlb.length = 2)) = true ∧
    orders .settres 0x20 1 0 m1 0 (fun t => (t.part 0).tres) = true ∧
    orders .setdrth 0x21 0 5 m1 0 (fun t => decide ((t.quad 15).drth = 5 ∧ (t.quad 16).drth ≠ 5)) = true ∧
    orders .setdrth 0x21 1 5 m1 2 (fun _ => true) = true ∧
    orders .recclr 0x30 7 0 m1 0 (fun t => decide (t.steps[6].toNat % 256 = 0x71)) = true ∧
    orders .recclr 0x30 8 0 m1 1 (fun _ => true) = true := by decide +kernel
theorem wit_launch_commands : orders .launch 0x10 0x100000000000 0 (holding record0) 0 (fun t => decide (t.launches.length = 1)) = true ∧
    orders .launch 0x10 0x100000000000 0 m1 4 (fun _ => true) = true ∧ orders .launch 0x10 0x100000000008 0 m1 1 (fun _ => true) = true ∧
    orders .tgdrop 0x11 0 0 (withGraph [node0]) 0 (fun t => decide (t.graphs = [])) = true ∧
    orders .tgdrop 0x11 15 0 m1 1 (fun _ => true) = true ∧
    (let s := { m0 with ctxs := [(0, { user with state := .waiting, why := 14, stat := 1 })] }
     (s.part 0).pre = .no ∧ orders .resume0 0xB 0 0x104 s 0 (fun t => decide ((t.ctx 0).pc = 0x104 ∧ (t.ctx 0).state = .ready ∧
       (t.ctx 0).stat = 0)) = true) ∧
    orders .resume0 0xB 0 0x104 m0 1 (fun _ => true) = true := by decide +kernel

/-- Context 1 waits for a page that a walk did not find; its fault is entry 0 of die 0. -/
def faulted (op : Nat) (a : Word) : State :=
  let w : Wait := { i := .nop, ph := 0, acks := 0, next := 0, got := [], recs := [], tbl := none, till := 0, val := 0x100000010000 }
  let e : FaultEnt :=
    { va := 0x100000010000, tid := 33, core := 0, cx := 1, kind := 0, level := 0, cause := 0, win := 3, part := 0, count := 1, pa := 0
      who := [.ctx 1 33] }
  { m1 with
    sel := 0, ctxs := [(1, { user with state := .waiting, why := 13, wait := some w })]
    dies := [(0, { Die.reset with fq := [(0, e)], cmdq := [{ d0 := BitVec.ofNat 64 op, a := a, b := 0, tag := 9 }] })] }

theorem wit_fault_commands : ((faulted 5 0).ctx 1).catches ∧ (faulted 5 0).objs = [] ∧
    runs .fqreplay (faulted 5 0) (fun t => decide ((t.die 0).fq = [] ∧ t.msgs = [.retry 1 33])) = true ∧
    runs .fqreplay (faulted 5 511) (fun t => decide ((t.die 0).cmds.map (fun c => c.status) = [some 1])) = true ∧
    runs .fqdeny (faulted 6 0) (fun t => decide ((t.die 0).fq = [] ∧ (t.ctx 1).tcause = 4 ∧ (t.ctx 1).tval = 0x100000010000)) = true := by
  unfold Ctx.catches; decide +kernel

/-- A command that has been begun and is not done. -/
def begun (op : Nat) (a : Word) (s : State) : State :=
  { s with sel := 0, dies := [(0, { Die.reset with cmds := [{ cmd := { d0 := BitVec.ofNat 64 op, a := a, b := 0, tag := 9 }, stage := 1, status := none }] })] }
/-- Context 1 stopped after PREEMPT began. -/
def stopping : State := begun 8 0x100000 { m1 with parts := [(0, { Part.reset with pre := .stopping })] }

/-- Partition 0 is being restored; a timer's write to its scratchpad is held. -/
def restoring (msgs : List Msg) : State :=
  begun 9 0x100000 { m1 with parts := [(0, { Part.reset with pre := .restoring })], msgs := msgs }
/-- The package with partition 0 saved in memory that holds zeros, on cluster 0. -/
def saved (msgs : List Msg) : State :=
  ordered 9 0x100000 0
    { m1 with
      parts := [(0, { Part.reset with pre := .out })], msgs := msgs
      kept := [(0, { clusters := [0], ctxs := [], exits := [], objs := [] })] }

theorem wit_preempt : (m1.part 0).pre = .no ∧ stopping.settled 0 = true ∧ stopping.msgs = [] ∧
    runs .preempt (ordered 8 0x100000 0 (restoring [])) (fun t => decide ((t.die 0).cmds.map (fun c => c.status) = [none] ∧
      (t.part 0).pre = .restoring)) = true ∧
    runs .preempt (ordered 8 0x100000 0 m1) (fun t => decide ((t.part 0).pre = .stopping ∧ t.ctxs = m1.ctxs)) = true ∧
    runs .preempt (ordered 8 0x100000 0 stopping) (fun t => decide ((t.die 0).cmds.map (fun c => c.status) = [some 1])) = true := by decide +kernel
theorem wit_restore :
    runs .restore (ordered 9 0x100000 0 m1) (fun w => decide ((w.die 0).cmds.map (fun c => c.status) = [some 1])) = true := by
  decide +kernel
theorem wit_restored : (saved []).kept.length = 1 ∧ ((saved []).cluster 0).part = some 0 ∧
    (saved []).faulted (.timer 0 (2 ^ 44)) = false ∧
    runs .restore (saved []) (fun t => decide ((t.part 0).pre = .no)) = true ∧
    runs .restore (saved [.timerWake 0 0 (2 ^ 44) 0]) (fun t => decide ((t.part 0).pre = .restoring)) = true ∧
    runs .restore (saved [.task 0 0 5 33 none none]) (fun t => decide ((t.part 0).pre = .restoring)) = true ∧
    runs .restore (restoring []) (fun t => decide ((t.part 0).pre = .no ∧ (t.die 0).cmds.map (fun c => c.status) = [some 0])) = true ∧
    runs .restore (restoring [.timerWake 0 0 (2 ^ 44) 0]) (fun t => decide ((t.part 0).pre = .restoring)) = true := by
  decide +kernel
theorem wit_term : (m1.part 0).pre ≠ .stopping ∧ (m1.part 0).pre ≠ .restoring ∧ (begun 0xA 0xFF m1).termWaits 0 = false ∧
    runs .term (ordered 0xA 0xFF 0 (withGraph [node0])) (fun t => decide ((t.ctx 1).state = .free ∧ t.graphs = [] ∧
      (t.die 0).cmds.map (fun c => c.status) = [none])) = true ∧
    (let l : Launch := { launch0 with st := .running, todo := [], live := [(0, 1)], ctxsN := 1 }
     let s := ordered 0xA 0xFF 0 { launching l with ctxs := [] }
     s.ctxsOf 0 = [] ∧ runs .term s (fun t => decide (t.rd (span 0x800 8) = 0x10000F102 ∧ t.launches = [])) = true) ∧
    runs .term (begun 0xA 0xFF { m1 with mem := [(2 ^ 44 + 65535, 7)] }) (fun t => decide (t.mem = [] ∧ t.ctx 1 = ctxDefault 1 ∧
      (t.part 0).pre = .no)) = true := by decide +kernel

theorem wit_power : m1.sel < 25600 ∧ m1.quads = [] ∧ m1.sel < 8 ∧
    runs .opMoveStart { m1 with
      cores := [(3, { Core.reset with req := 7 })], quads := [(0, { Quad.reset with ceil := 7 })], watchdog := false } (fun t => decide ((t.quad 0).move.map (fun e => e.1) =
      some 7)) = true ∧
    runs .opMoveEnd { m1 with quads := [(0, { Quad.reset with move := some (7, 5) })] } (fun t => decide ((t.quad 0).op = 7 ∧
      (t.quad 0).move = none)) = true ∧
    (let s := { m1 with quads := [(0, { Quad.reset with drth := 0x10F1F05 })] }
     (0x10F1F05 : Nat).testBit 24 = true ∧ runs .droopTrip s (fun t => decide ((t.quad 0).stretch = 15 ∧ (t.quad 0).wdNext = 0xF1) &&
       runs .droopStretchEnd t (fun u => decide ((u.quad 0).wdLeft = 0xF1) && u.posWithdrawn 3 8 && !u.posWithdrawn 4 8 &&
         runs .droopWithdrawalEnd u (fun w => !w.posWithdrawn 3 8))) = true) ∧
    runs .currentLimitTrip m1 (fun t => t.posWithdrawn 102399 8 && !t.posWithdrawn 0 7) = true ∧
    runs .currentLimitRelease { m1 with limiter := true } (fun t => !t.limiter) = true ∧
    runs .thermalTrip { m1 with sel := 7, watchdog := false, quadD := { Quad.reset with ceil := 7 } } (fun t =>
      decide (t.ceiling 25599 = 0 ∧ t.ceiling 0 = 7) && t.posWithdrawn 102399 1 &&
      decide ((t.die 7).elog.map (fun e => e.kind) = [4]) &&
      runs .thermalTripEnd { t with lanternUp := true } (fun u => decide (u.ceiling 25599 = 0) && !u.posWithdrawn 102399 1 &&
        runs .lanternSignal u (fun w => decide (w.ceiling 25599 = 7)))) = true ∧
    runs .thermalTrip { m1 with sel := 0, quads := [(3199, { Quad.reset with op := 7 }), (3200, { Quad.reset with op := 5 })] } (fun t =>
      decide ((t.quad 3199).op = 0 ∧ (t.quad 3200).op = 5)) = true ∧
    runs .watchdogExpiry { m1 with watchdog := false, signal := 5, now := 2000005 } (fun t =>
      decide (t.ceiling 25599 = 0 ∧ (t.die 0).elog.map (fun e => e.kind) = [5])) = true ∧
    runs .watchdogExpiry { m1 with watchdog := false, signal := 5, now := 2000004 } (fun t => !t.watchdog) = true ∧
    runs .lanternSignal { m1 with lanternUp := false, watchdog := true, now := 7 } (fun t =>
      decide (t.ceiling 25599 = 7 ∧ t.signal = 7)) = true ∧
    (let s := { m1 with quads := [(0, { Quad.reset with stretch := 1, wdNext := 9, resp := true })], sel := 0 }
     (s.period 0).2 = true ∧ (((s.period 0).1.period 0).1.quad 0).cyc = 1 ∧ ((s.period 0).1.period 0).2 = false ∧
       ((((s.period 0).1.period 0).1.period 0).1.quad 0).wdLeft = 9) ∧
    runs (.lanternPolicyAction 0 3 15) m1 (fun t => decide ((t.quad 0).ceil = 3 ∧ (t.quad 0).wd = 15)) = true ∧
    runs (.capMessage 0x7FFFFFFF 3601) m1 (fun t => decide (t.cap = 3600 ∧ t.lease = some 500000000)) = true ∧
    runs (.capMessage 0x80000000 3600) m1 (fun t => decide (t.lease = none)) = true ∧
    runs .leaseExpiry { m1 with cap := 1000, lease := some 0 } (fun t => decide (t.cap = 2160 ∧ t.lease = none)) = true ∧
    runs .lanternRestart m1 (fun t => !t.lanternUp) = true := by decide +kernel

/-- A page of core 0 at frame 0x3000 whose copy is under way. -/
def moving (wb : Bool) (m : Memory) : State :=
  { m1 with
    mem := m
    cores := [(0, { core0 with pages := [(0, { resident with frame := 0x3000, busy := true, wb := wb, dirty := wb, res := wb })] })] }

theorem wit_inv : (moving true [(2 ^ 44 + 4095, 7)]).Inv ∧ (moving false [(0x3FFF, 7)]).Inv := by unfold State.Inv; decide +kernel
set_option maxRecDepth 20000 in
theorem test_refill : runs (.refillComplete 0 0) (moving false [(0x3FFF, 7)]) (fun t => decide ((t.page 0 0).res ∧
    t.rdByte (2 ^ 44 + 4095) = 7)) = true := by decide +kernel
theorem wit_retired_frame :
    runs (.refillComplete 0 0) { moving false [(0x3FFF, 7)] with retired := [0] } (fun t => decide (t.mem = [(0x3FFF, 7)] ∧
      t.page 0 0 = { (moving false []).page 0 0 with busy := false })) = true ∧
    runs (.pageWritebackComplete 0 0) { moving true [(2 ^ 44, 7)] with retired := [0] } (fun t => decide (t.mem = [(2 ^ 44, 7)] ∧
      (t.page 0 0).res = false)) = true := by decide +kernel
set_option maxRecDepth 20000 in
theorem test_write_back : runs (.pageWritebackComplete 0 0) (moving true [(2 ^ 44 + 4095, 7)]) (fun t => decide (t.rdByte 0x3FFF = 7 ∧
    (t.page 0 0).res = false)) = true := by decide +kernel

/-- Core 0 holds line 2 with its last byte dirty. -/
def lined : State :=
  { m1 with cores := [(0, { core0 with l1 := [{ line := 2, data := BitVec.ofNat 512 (7 * 2 ^ 504), dirty := 1 <<< 63, rrec := none }] })] }
/-- A context that waits for `n` drains of an acquire. -/
def draining (n : Nat) : Ctx :=
  { user with
    state := .waiting, why := 8
    wait := some { i := .nop, ph := 2, acks := n, next := 0x100000000104, got := [], recs := [], tbl := none, till := 0, val := 0 } }

theorem wit_l1 : (lined.core 0).l1 = (lined.l1? 0 2).toList ∧ inSig (sigAdd 0 2) 2 = true ∧ inSig 0 2 = false ∧
    runs (.l1Eviction 0 2) lined (fun t => decide (t.byteAt 191 = 7 ∧ t.byteAt 190 = 0 ∧ (t.core 0).l1 = [])) = true ∧
    runs .drain { lined with sel := 0, msgs := [.drain 0 (sigAdd 0 2) 0 (.ctx 1 33 false)] } (fun t => decide (t.byteAt 191 = 7 ∧
      t.msgs = [.drainAck (.ctx 1 33 false)])) = true ∧
    runs .drain { lined with sel := 0, msgs := [.drain 0 0 0 (.ctx 1 33 false)] } (fun t => decide (t.byteAt 191 = 0)) = true ∧
    runs .drainAck { machine 1 (draining 1) with sel := 0, msgs := [.drainAck (.ctx 1 33 false)] } (fun t => decide (t.me.state = .ready ∧
      t.me.pc = 0x100000000104)) = true ∧
    runs .drainAck { machine 1 (draining 2) with sel := 0, msgs := [.drainAck (.ctx 1 33 false)] } (fun t =>
      decide (t.me.wait.map (fun w => w.acks) = some 1)) = true ∧
    runs .sweep { lined with sel := 0 } (fun t => decide ((t.core 0).l1 = []) && (t.part 0).sweeping) = true ∧
    runs .sweepEnd { machine 1 (draining 0) with sel := 0, parts := [(0, { Part.reset with sweeping := true })] } (fun t =>
      decide (t.me.state = .ready) && !(t.part 0).sweeping) = true := by decide +kernel
theorem wit_remote_load :
    let s : State := { machine 1 user with
      cores := [(0, core0), (1, core0)], ctxs := [(1, { user with g := user.g.set 2 0x2010008 })], mem := [(2 ^ 44 + 65536 + 8, 128)] }
    s.translate 0 0 0x2010008 .load = .ok (.scratch 1 8) ∧ s.pageSt 1 0 = .ready ∧ s.partOf 1 = some 0 ∧
    trips .remoteRequest (.ld .b true 6 2 0) s (fun t => decide (t.me.gr 6 = 0xFFFFFFFFFFFFFF80)) = true := by decide +kernel

/-- Context 1 waits for the walk of an address. -/
def walking (va : Nat) (c : List TlbEnt) : State :=
  { mapped with
    ctxs := [(1, { user with state := .waiting, why := 17 })], clusters := [(0, { Cluster.reset with part := some 0, tlb := c })], sel := 0
    msgs := [.walk (.ctx 1 33) 1 va 0 0 (!c.isEmpty)] }

theorem wit_walks : (dropAt 0 (walking 0x100000000000 []).msgs).all (fun m => !joinsWalk 1 0x100000000000 0 m) = true ∧
    inGlobal 0x100000000000 = true ∧ mapped.walk 0 0x100000000000 = .leaf ⟨0, 21, 2 ^ 23, 0, true, false⟩ ∧
    mapped.walk 0 0x100000200000 = .stop 1 0 0x13008 ∧
    runs .walkComplete (walking 0x100000000000 []) (fun t => decide ((t.core 0).tlb = [⟨0, 21, 2 ^ 23, 0, true, false⟩] ∧
      t.msgs = [.retry 1 33])) = true ∧
    runs .walkComplete (walking 0x100000200000 []) (fun t => decide (t.me.why = 13 ∧
      (t.die 0).fq.map (fun e => (e.1, e.2.level, e.2.pa)) = [(0, 1, 0x13008)])) = true ∧
    runs .clusterTlbHit (walking 0x100000000000 [⟨0, 16, 2 ^ 28, 0, true, true⟩]) (fun t =>
      decide ((t.core 0).tlb = [⟨0, 16, 2 ^ 28, 0, true, true⟩] ∧ t.msgs = [.retry 1 33])) = true := by decide +kernel
theorem wit_expiry :
    let s : State := { m1 with tiles := [(0, { birth := 0, tlife := 1, tpart := 0, dead := false })], now := 16000, sel := 0 }
    expiredSpec s 0 ∧ runs .tileExpiry { s with mem := [(2 ^ 43 + 4095, 7), (2 ^ 43 + 4096, 7)] } (fun t =>
      decide (t.mem = [(2 ^ 43 + 4096, 7)] ∧ (t.tile 0).dead = true)) = true := by
  unfold expiredSpec; decide +kernel
theorem wit_reserved_words : let q : ResvQ := { loc := 2 ^ 42, holder := some (1, 33, span (2 ^ 42) 8, 0), queue := [] }
    runs .reservationBreak { m1 with resvq := [q], sel := 2 ^ 42, now := 16384 } (fun t => decide (t.resvq = [])) = true ∧
    runs .reservationBreak { m1 with resvq := [q], sel := 2 ^ 42, now := 16383 } (fun t => decide (t.resvq = [q])) = true ∧
    runs .reservationGrant { m1 with resvq := [{ q with holder := none, queue := [.write none [(5, 7)] 0] }], sel := 2 ^ 42 } (fun t =>
      decide (t.mem = [(5, 7)] ∧ t.resvq = [])) = true := by decide +kernel

/-- Context 1 waits on an instruction for an answer. -/
def asking (i : Instr) : State :=
  machine 1 { user with
    state := .waiting, why := 5
    wait := some { i := i, ph := 1, acks := 0, next := 0, got := [], recs := [], tbl := none, till := 0, val := 0x100000000000 } }
/-- A wake of context 1 from the object at line 2^38 with value 7 and status 9. -/
def woken (i : Instr) (o : SObj) : State :=
  { withObject (asking i) o with sel := 0, msgs := [.soWake 1 33 (2 ^ 44 / 64) 0 (decide (o.kind = .ring)) 7 9] }

theorem wit_wakes_at_once : (asking (.slock 1)).wakesAtOnce 1 ∧ (asking (.slock 1)).awaitsAt 1 (.slock 1) (2 ^ 44 / 64) ∧
    (asking (.slockCall 1 1)).awaits 1 (.slockCall 1 1) :=
  ⟨⟨l1_nil _ (by decide +kernel), by decide +kernel⟩, ⟨by decide +kernel, _, rfl, rfl, rfl, by decide +kernel⟩,
    by decide +kernel, _, rfl, rfl, rfl⟩
/-- Context 1 waits in a `slock.call` of a routine at 2^57. -/
def farCall : State :=
  { woken (.slockCall 5 1) (newObject .lock 1) with ctxs := [(1, (asking (.slockCall 5 1)).me.setG 5 (2 ^ 57))] }
theorem wit_far_call : (2 ^ 57 : Nat) ≤ (farCall.me.gr 5).toNat ∧ farCall.me.catches ∧ farCall.me.deleg = [] ∧
    (∀ e ∈ farCall.objs, ¬ (e.2.kind = .lock ∧ e.2.holder = some (1, farCall.me.tid) ∧ e.2.mode = modeOWNER)) ∧
    runs .soWake farCall (fun t => decide (t.me = farCall.me.trapped 4 (2 ^ 57) farCall.me.pc)) = true := by
  unfold Ctx.catches; decide +kernel
theorem wit_object_wakes : (1 : Nat) < 102400 * 16 ∧ (woken (.slock 1) (newObject .lock 1)).asking 1 33 = false ∧
    (let c : Ctx := { user with reissue := true }
     let s := { withObject (machine 1 c) (newObject .lock 1) with sel := 0, msgs := [.soWake 1 33 (2 ^ 44 / 64) 0 false 7 9] }
     runs .soWake s (fun t => decide (t.ctxs = s.ctxs ∧ t.objs.map (fun e => e.2.owed.map (fun x => (x.1.cx, x.1.tid, x.2))) =
       [[(1, 33, 0, 7, 9)]])) = true) ∧
    runs .soWake (woken (.slock 1) (newObject .lock 1)) (fun t => decide (t.me.state = .ready ∧ t.me.pc = 0x100000000104)) = true ∧
    runs .soWake (woken (.slockCall 1 1) (newObject .lock 1)) (fun t => decide (t.me.pc = 0x1000000)) = true ∧
    runs .soWake (woken (.swait 14 1) (newObject .ring 16)) (fun t => decide (t.me.gr 14 = 7 ∧ t.me.gr 15 = 9)) = true ∧
    runs .soWake (woken (.swait 14 1) (newObject .bar 16)) (fun t => decide (t.me.gr 14 = 7 ∧ t.me.gr 15 = 0)) = true ∧
    runs .soWake (woken (.sarr 6 1) (newObject .ring 16)) (fun t => decide (t.me = (user.advance 4).ready)) = true ∧
    (let tk : Ticket := { num := 0, cx := 1, tid := 33, kind := .lock, polling := true }
     let s := withObject (asking (.slock 1)) { newObject .lock 1 with owed := [(tk, 0, 7, 9)] }
     runs .soPoll { s with sel := 1 } (fun t => decide (t.me.state = .ready ∧ t.objs = [(2 ^ 44 / 64, newObject .lock 1)])) = true) ∧
    (let s := (asking (.slockCall 1 1)).setCtx 1 { (asking (.slockCall 1 1)).me with sret := some (0x104, 0x1000000) }
     runs .delegatedReply { s with sel := 0, msgs := [.delegated 1 33 (2 ^ 44 / 64) 0 .quad 7 0 false] } (fun t => decide (t.me.gr 0 = 7 ∧ t.me.pc = 0x104 ∧
       t.me.sret = none)) = true) := by decide +kernel
theorem wit_windows : let o := { newObject .lock 1 with mode := modeQUEUE, pol := 0x01000000 }
    runs .soWindowBoundary { withObject m1 o with sel := 2 ^ 38, now := o.wnext } (fun t =>
      decide ((t.obj? (2 ^ 38)).map (fun x => (x.mode, x.swc, x.calls)) = some (modeFLAG, 1, 0))) = true ∧
    runs .soWindowBoundary { withObject m1 { o with wnext := 1 } with sel := 2 ^ 38, now := 0 } (fun t =>
      decide (t.objs = (withObject m1 { o with wnext := 1 }).objs)) = true := by decide +kernel
theorem wit_notices : ctxOfPlace 1 = 1 ∧
    runs .contextFreeNotice { m1 with sel := 0, msgs := [.notice 0 1 33] } (fun t => decide (t.msgs = []) && t.me.fnp) = true ∧
    runs .contextFreeNotice { m1 with sel := 0, msgs := [.notice 0 1 34] } (fun t => decide (t.msgs = []) && !t.me.fnp) = true ∧
    runs .contextFreeNotice { asking (.cfw 3) with sel := 0, msgs := [.notice 0 1 33] } (fun t => decide (t.me.state = .ready) &&
      t.me.pr 3) =
      true ∧
    runs .migrationAbort { machine 1 { user with state := .arriving } with sel := 0, msgs := [.migAbort 1 33] } (fun t =>
      decide (t.me.state = .free)) = true ∧
    runs .migrationAbort { m1 with sel := 0, msgs := [.migAbort 1 33] } (fun t => decide (t.me = user ∧ t.msgs = [])) = true := by
  decide +kernel

/-- Context 1 names the Cupola with g1, and holds the reservation of its first dword where `h`. -/
def cupola (h : Bool) : State :=
  { machine 1 { user with g := user.g.set 1 0x20000000000, resv := if h then some (2 ^ 42, 8) else none } with
    resvq := if h then [{ loc := 2 ^ 42, holder := some (1, 33, span (2 ^ 42) 8, 0), queue := [] }] else [] }

theorem wit_cupola_reservations : (∀ h, (cupola h).translate 0 0 ((cupola h).me.gr 1) .store = .ok (.cupola 0 0)) ∧
    (∀ h, (cupola h).acquiresAtOnce) ∧ (∀ h, (cupola h).flaws = [] ∧ (cupola h).retired = [] ∧ ((cupola h).core 0).l1 = []) ∧
    trips .homeSliceAccess (.resv true false .clus 6 1) (cupola false) (fun t => decide (t.resvq = (cupola true).resvq ∧
      t.me.gr 6 = 0 ∧ t.me.state = .ready)) = true ∧
    trips .homeSliceAccess (.rlse true false .clus 1 1 5) (cupola true) (fun t => decide (t.rd (span (2 ^ 42) 8) = 5 ∧
      t.resvq = [] ∧ t.me.pr 1 = true ∧ t.me.resv = none)) = true := by
  unfold State.acquiresAtOnce; decide +kernel
theorem wit_power_completes :
    let s : State :=
      { m1 with
        cores := [(0, { core0 with req := 7 })], quads := [(0, { Quad.reset with ceil := 7, drth := 0x1000000 })]
        watchdog := false, now := 2000000, sel := 0 }
    (s.quad 0).move = none ∧ (s.quad 0).op ≠ s.opTarget 0 ∧ (s.quad 0).drth.getLsbD 24 = true ∧ s.signal + 2000000 ≤ s.now ∧
      runs .watchdogExpiry s (fun t => t.watchdog) = true ∧
      runs (.lanternPolicyAction 25599 9 99) s (fun t => decide ((t.quad 25599).ceil = 7 ∧ (t.quad 25599).wd = 15)) = true := by
  decide +kernel

-- The ends of the ranges of some clauses

theorem test_decode_rpt_worked : decodeTableWord 32 0x3C470064 = some (.rpt 2 1 6 100) := by decide
/-- R57: in cycle 9 position 9 cannot issue and the eighth after it, 1, can; in cycle 10 position 1 is only seven away. -/
theorem wit_issue_slot_filled :
    let at_ (n : Nat) : State := { m1 with quads := [(0, { Quad.reset with cyc := n })] }
    (at_ 9).posWithdrawn 0 9 = false ∧ (at_ 9).canIssue 0 9 9 = false ∧ (at_ 9).canIssue 0 9 1 = true ∧
    (at_ 10).issueSlot 0 = none ∧ (at_ 2).issueSlot 0 = some 1 ∧ (at_ 3).issueSlot 0 = some 1 := by decide +kernel
/-- R102, R103: `eret` entered an `rpt` of one body word with RFA set; index 5 carries into trip 2 of a count of `n`. -/
theorem wit_repeat_resumes :
    let s (n : Nat) : State :=
      { machine 0 { user with resume := true, rcnt := BitVec.ofNat 32 n, stat := setFrameState 1 true 5 0 } with mem := [(0x107, 0x04)] }
    (match (s 3).fetchWords 0 ((s 3).me.pc + 4) 1 with
      | .ok body _ => decide (badBodyWord body = none ∧ body.length = 1) | _ => false) = true ∧
    (s 3).me.resume = true ∧ statRFA (s 3).me.stat = true ∧ statRIDX (s 3).me.stat = 5 ∧
    runs (.rpt 0 0 0 9) (s 3) (fun t => decide (t.me.rcnt = 3 ∧ statTRIP t.me.stat = 2 ∧ statRIDX t.me.stat = 0) &&
      t.me.frame.isSome) = true ∧
    runs (.rpt 0 0 0 9) (s 2) (fun t => decide (t.me.frame = none ∧ t.me.pc = 0x100000000108 ∧ statRFA t.me.stat = false)) = true := by
  decide +kernel
/-- R96: 2^24 + 1 in F32 ties to 2^24, the even one, and sets NX. -/
theorem wit_fp_rounds :
    let s := machine 1 ((user.setF 2 0x4B800000).setF 3 0x3F800000)
    (match fpExact (.fadd .f32 .rne 1 2 3) s.me with
      | some (_, _, d, x, k) => decide (d = 1 ∧ x = 16777217 * 2 ^ 149 ∧ x.natAbs ≤ (fpMax .f32 * 2 ^ k).natAbs) | none => false) = true ∧
    runs (.fadd .f32 .rne 1 2 3) s (fun t => decide (t.me.fr 1 = 0x4B800000) && t.me.stat.getLsbD 11) = true := by decide +kernel
theorem wit_no_wakes : (withObject m1 (newObject .lock 1)).msgs = [] ∧ (withObject m1 ring1).msgs = [] ∧
    (withObject m1 (newObject .bar 2)).msgs = [] ∧
    m1.me.catches ∧ (newObject .lock 1).mode = 0 := by
  unfold Ctx.catches; decide +kernel
theorem test_far_slock_call :
    let s := withObject (machine 1 (user.setG 5 (2 ^ 63))) (newObject .lock 1)
    runs (.slockCall 5 1) s (fun t =>
      decide (t.me = { s.me.trapped 4 (2 ^ 63) 0x100000000100 with sret := some (0x100000000104, 0x1000000) })) = true := by decide +kernel
/-- R396: a walk whose page tables stand in a retired unit gives a read error. -/
theorem wit_walk_read_error :
    let w : Wait := { i := .nop, ph := 0, acks := 0, next := 0, got := [], recs := [], tbl := none, till := 0, val := 0x100000000008 }
    let s : State :=
      { walking 0x100000000000 [] with
        retired := [1], ctxs := [(1, { user with state := .waiting, why := 17, wait := some w })] }
    (s.walkReads 0 0x100000000000).any (fun x => decide (x / 65536 = 1)) = true ∧
    runs .walkComplete s (fun t => decide (t.ctx 1 = (s.ctx 1).trapped 8 0x100000000008 (s.ctx 1).pc ∧ t.msgs = [])) = true := by
  decide +kernel
/-- R273: the walk of an engine command ends with the command told what it found. -/
theorem wit_walk_unit :
    (match copying.cmds with
      | [c] =>
        let s : State := { copying with
          mem := dwords tables, parts := [(0, { Part.reset with root := some 0x10000 })], sel := 0
          msgs := [.walk (.cmd c.id) 1 0x100000000000 0 0 false] }
        s.lives (.cmd c.id) && runs .walkComplete s (fun t => decide (t.msgs = [] ∧
          t.walked = [(.cmd c.id, 0, 0x100000000000, some ⟨0, 21, 2 ^ 23, 0, true, false⟩)]))
      | _ => false) = true := by decide +kernel
/-- R325: a launch record outside the global window. -/
theorem wit_launch_window :
    orders .launch 0x10 0x1000000 0 (holding record0) 5 (fun t => decide (t.launches = [])) = true := by decide +kernel
/-- R55: a section on pages that the partition was not allotted. -/
theorem wit_load_refused : (mapped.diesOf 0).length = 1 ∧
    runs (.loadObject 0 { image0 with secs := image0.secs.map (fun x => { x with va := 0x2003FF00000 }) }) mapped
      (fun t => decide (t.out = [.refusedLoad 0] ∧ t.mem = mapped.mem)) = true := by decide +kernel

end Sys2Proof.Tests
end

section
/-! Decoding reads back what encoding wrote (R21–R33): the operand codes, the fields of a packed word, the decoder of each
major, and then every instruction. -/

set_option Elab.async false
namespace Sys2Proof

-- Operand codes

@[simp] theorem Cond.ofCode?_code (k : Cond) : Cond.ofCode? k.code = some k := by cases k <;> rfl
@[simp] theorem RMode.ofCode?_code (k : RMode) : RMode.ofCode? k.code = some k := by cases k <;> rfl
@[simp] theorem Prec.ofCode?_code (k : Prec) : Prec.ofCode? k.code = some k := by cases k <;> rfl
@[simp] theorem ITy.ofCode?_code (k : ITy) : ITy.ofCode? k.code = some k := by cases k <;> rfl
@[simp] theorem FCond.ofCode?_code (k : FCond) : FCond.ofCode? k.code = some k := by cases k <;> rfl
@[simp] theorem Sz.ofCode?_code (k : Sz) : Sz.ofCode? k.code = some k := by cases k <;> rfl
@[simp] theorem Scope.ofCode?_code (k : Scope) : Scope.ofCode? k.code = some k := by cases k <;> rfl
@[simp] theorem Ord4.ofCode?_code (k : Ord4) : Ord4.ofCode? k.code = some k := by cases k <;> rfl
@[simp] theorem AmoOp.ofCode?_code (k : AmoOp) : AmoOp.ofCode? k.code = some k := by cases k <;> rfl
@[simp] theorem SoKind.ofCode?_code (k : SoKind) : SoKind.ofCode? k.code = some k := by cases k <;> rfl
@[simp] theorem VTy.ofCode?_code (k : VTy) : VTy.ofCode? k.code = some k := by cases k <;> rfl
@[simp] theorem VCond.ofCode?_code (k : VCond) : VCond.ofCode? k.code = some k := by cases k <;> rfl
@[simp] theorem RedOp.ofCode?_code (k : RedOp) : RedOp.ofCode? k.code = some k := by cases k <;> rfl
@[simp] theorem GTy.ofCode?_code (k : GTy) : GTy.ofCode? k.code = some k := by cases k <;> rfl
@[simp] theorem Vote.ofCode?_code (k : Vote) : Vote.ofCode? k.code = some k := by cases k <;> rfl
@[simp] theorem TFmt.ofCode?_code (k : TFmt) : TFmt.ofCode? k.code = some k := by cases k <;> rfl
@[simp] theorem SysReg.ofCode?_code (k : SysReg) : SysReg.ofCode? k.code = some k := by cases k <;> rfl

@[simp] theorem ITy.ofCode?_zero : ITy.ofCode? 0#2 = some .i32 := rfl
@[simp] theorem Sz.ofCode?_zero : Sz.ofCode? 0#2 = some .b := rfl
@[simp] theorem Sz.code_eq_three (z : Sz) : z.code = 3#2 ↔ z = .d := by cases z <;> decide
@[simp] theorem Scope.code_eq_zero (s : Scope) : s.code = 0#3 ↔ s = .lane := by cases s <;> decide
@[simp] theorem is8_zero : is8 0#4 = true := rfl

/-- No system register has the number of a FIFO (R282). -/
@[simp] theorem SysReg.code_not_fifo (r : SysReg) : r.code.extractLsb' 2 10 ≠ 8#10 := by cases r <;> decide

-- Sets of scopes and types

@[simp] theorem scopeIn_code (l : List Scope) (s : Scope) : scopeIn l s.code = if s ∈ l then some s else none := by
  simp [scopeIn]

@[simp] theorem vtyIn_code (p : VTy → Bool) (t : VTy) : vtyIn p t.code = if p t then some t else none := by
  simp [vtyIn]

theorem mem_coreUp (s : Scope) : s ∈ coreUp ↔ s ≠ .lane := by cases s <;> decide

theorem mem_quadToPkg (s : Scope) : s ∈ [Scope.quad, .clus, .die, .pkg] ↔
    (s ≠ .lane ∧ s ≠ .core) ∧ s ≠ .pod := by
  cases s <;> decide

theorem mem_quadToPod (s : Scope) : s ∈ [Scope.quad, .clus, .die, .pkg, .pod] ↔ s ≠ .lane ∧ s ≠ .core := by
  cases s <;> decide

theorem mem_tlbiScopes (s : Scope) : s ∈ tlbiScopes ↔ ((s = .core ∨ s = .clus) ∨ s = .die) ∨ s = .pkg := by
  cases s <;> decide

/-- Scope and ordering of an atomic agree: no ordering and `.lane`, or an ordering and a wider scope (R242). -/
theorem atomicScopeOk_iff (o : Ord4) (s : Scope) :
    atomicScopeOk o s = true ↔ (o = .none ∧ s = .lane) ∨ (o ≠ .none ∧ s ≠ .lane) := by
  by_cases ho : o = .none <;> simp [atomicScopeOk, ho]

/-- The scope field of a well-formed atomic is read as its scope (R242). -/
theorem atomicScope?_code {o : Ord4} {s : Scope} (h : atomicScopeOk o s = true) : atomicScope? o s.code = some s := by
  rcases (atomicScopeOk_iff o s).1 h with ⟨rfl, rfl⟩ | ⟨ho, hs⟩
  · rfl
  · simp [atomicScope?, ho, hs]

/-- The scope field of a well-formed atomic is 0 where it has no ordering (R242). -/
theorem atomicScope_field {o : Ord4} {s : Scope} (h : atomicScopeOk o s = true) :
    (!decide (o = .none) || s.code == 0#3) = true := by
  rcases (atomicScopeOk_iff o s).1 h with ⟨rfl, rfl⟩ | ⟨ho, -⟩
  · rfl
  · simp [ho]

/-- A load of a dword has no extension (R25, R299). -/
theorem loadOk_iff (z : Sz) (sx : Bool) : loadOk z sx = true ↔ (sx = true → z ≠ .d) := by
  cases sx <;> simp [loadOk]

-- Fields of a concatenation. The boundary lemmas are the library's, indexed so that `simp` finds them at numeral widths.

@[simp] theorem extract_append_high {v w start len : Nat} (a : BitVec v) (b : BitVec w) (h : w ≤ start) :
    BitVec.extractLsb' start len (no_index (a ++ b)) = a.extractLsb' (start - w) len :=
  BitVec.extractLsb'_append_eq_of_le h

@[simp] theorem extract_append_low {v w start len : Nat} (a : BitVec v) (b : BitVec w) (h : start + len ≤ w) :
    BitVec.extractLsb' start len (no_index (a ++ b)) = b.extractLsb' start len :=
  BitVec.extractLsb'_append_eq_of_add_le h

@[simp] theorem fbit_append {v w : Nat} (a : BitVec v) (b : BitVec w) (k : Nat) :
    fbit (no_index (a ++ b)) k = if k < w then fbit b k else fbit a (k - w) := by
  simp [fbit, BitVec.getLsbD_append]

@[simp] theorem fbit_b1 (b : Bool) : fbit (b1 b) 0 = b := by cases b <;> rfl

@[simp] theorem fbit_ofNat (n x k : Nat) : fbit (BitVec.ofNat n x) k = (decide (k < n) && decide (x / 2 ^ k % 2 = 1)) := by
  rw [fbit, BitVec.getLsbD_ofNat, Nat.testBit_eq_decide_div_mod_eq]

/-- The two halves of the offset of a vector load or store make up the offset (R132). -/
@[simp] theorem offset_halves (o : BitVec 6) : o.extractLsb' 3 3 ++ o.extractLsb' 0 3 = o := by revert o; decide

-- The decoder

@[simp] theorem need_true (i : Instr) : need true i = .ok i := rfl

@[simp] theorem sel_some {α : Type} (x : α) (f : α → Dec) : sel (some x) f = f x := rfl

/-- Each major of R23 has its format and its decoder. -/
@[simp] theorem decodeWord_major (sh : Shape) :
    (∀ x, decodeWord (FA.word 0x01#6 x) sh = dec01 x) ∧
    (∀ x, decodeWord (FI.word 0x02#6 x) sh = .ok (.addi x.d x.a x.imm)) ∧
    (∀ x, decodeWord (FI.word 0x03#6 x) sh = dec03 x) ∧
    (∀ x, decodeWord (FI.word 0x04#6 x) sh = dec04 x) ∧
    (∀ x, decodeWord (FU.word 0x05#6 x) sh = .ok (.lui x.d x.imm)) ∧
    (∀ x, decodeWord (FU.word 0x06#6 x) sh = .ok (.adpc x.d x.imm)) ∧
    (∀ x, decodeWord (FA.word 0x07#6 x) sh = dec07 x) ∧
    (∀ x, decodeWord (FI.word 0x08#6 x) sh = dec08 x) ∧
    (∀ x, decodeWord (FA.word 0x09#6 x) sh = dec09 x) ∧
    (∀ x, decodeWord (FA.word 0x0A#6 x) sh = dec0A x) ∧
    (∀ x, decodeWord (FA.word 0x0B#6 x) sh = dec0B x) ∧
    (∀ x, decodeWord (FB.word 0x0C#6 x) sh = dec0C x) ∧
    (∀ x, decodeWord (FJ.word 0x0D#6 x) sh = dec0D x) ∧
    (∀ x, decodeWord (FI.word 0x0E#6 x) sh = dec0E x) ∧
    (∀ x, decodeWord (FP.word 0x0F#6 x) sh = dec0F x) ∧
    (∀ x, decodeWord (FM.word 0x10#6 x) sh = dec10 x) ∧
    (∀ x, decodeWord (FM.word 0x11#6 x) sh = dec11 x) ∧
    (∀ x, decodeWord (FM.word 0x12#6 x) sh = dec12 x) ∧
    (∀ x, decodeWord (FA.word 0x13#6 x) sh = dec13 x) ∧
    (∀ x, decodeWord (FA.word 0x14#6 x) sh = dec14 x) ∧
    (∀ x, decodeWord (FY.word 0x15#6 x) sh = dec15 x) ∧
    (∀ x, decodeWord (FS.word 0x16#6 x) sh = dec16 x) ∧
    (∀ x, decodeWord (FS.word 0x17#6 x) sh = dec17 x) ∧
    (∀ x, decodeWord (FA.word 0x18#6 x) sh = dec18 x) ∧
    (∀ x, decodeWord (FV.word 0x19#6 x) sh = dec19 x) ∧
    (∀ x, decodeWord (FV.word 0x1A#6 x) sh = dec1A x) ∧
    (∀ x, decodeWord (FV.word 0x1B#6 x) sh = dec1B x) ∧
    (∀ x, decodeWord (FV.word 0x1C#6 x) sh = dec1C x) ∧
    (∀ x, decodeWord (FV.word 0x1D#6 x) sh = dec1D x) ∧
    (∀ x, decodeWord (FX.word 0x1E#6 x) sh = dec1E x sh) ∧
    (∀ x, decodeWord (FE.word 0x1F#6 x) sh = dec1F x) ∧
    (∀ x, decodeWord (FY.word 0x20#6 x) sh = dec20 x) ∧
    (∀ x, decodeWord (FY.word 0x21#6 x) sh = dec21 x) ∧
    (∀ x, decodeWord (FE.word 0x22#6 x) sh = dec22 x) ∧
    (∀ x, decodeWord (FY.word 0x23#6 x) sh = dec23 x) := by
  simp [decodeWord]

@[simp] theorem wordY_eq (op : BitVec 6) (d a : BitVec 4) (k : BitVec 6) (n : BitVec 12) :
    wordY op d a k n = FY.word op ⟨d, a, k ++ n⟩ := rfl

/-- The fn of `ldtab` with a register spans the two parts that major 0x1C is decoded by (R138). -/
theorem dec1C_ldtab (a : GReg) : dec1C ⟨0#3, 0#3, 0#3, 0#3, 0#3, 0#2, 3#5 ++ a⟩ = .ok (.ldtab a) := by revert a; decide

-- Reading back

/-- The decoder reads an instruction back from the words that encode it, and leaves the bytes that follow. -/
def ReadsBack (i : Instr) : Prop :=
  ∀ ws, encode i = some ws → ∀ rest, decode (ws.flatMap wordBytes ++ rest) = .ok (i, rest)

/-- An instruction of one word, of any major that no inline words follow. -/
theorem readsBack_one {w : IWord} {i : Instr} (he : encode i = some [w]) (h : decodeWord w ⟨0, 0, 0, 0⟩ = .ok i)
    (hm : majorOf w ≠ 0x1E#6 := by simp) : ReadsBack i := by
  intro ws hws rest
  obtain rfl := Option.some.inj (he.symm.trans hws)
  have hw : inlineWords w = false := by simp [inlineWords, hm]
  simpa using decode_one w i rest hw h

/-- A tensor instruction that no inline words follow (R170). -/
theorem readsBack_tensor {x : FX} {i : Instr} (he : encode i = some [FX.word 0x1E#6 x])
    (h : dec1E x ⟨0, 0, 0, 0⟩ = .ok i)
    (hx : x.fmt ≠ 0#4 ∨ x.fn ≠ 5#8 ∧ x.fn ≠ 6#8 := by simp) : ReadsBack i := by
  intro ws hws rest
  obtain rfl := Option.some.inj (he.symm.trans hws)
  have hw : inlineWords (FX.word 0x1E#6 x) = false := by
    rcases hx with hf | ⟨h5, h6⟩
    · simp [inlineWords, hf]
    · simp [inlineWords, h5, h6]
  simpa using decode_one (FX.word 0x1E#6 x) i rest hw (by simpa using h)

/-- An instruction with a shape record (R33). -/
theorem readsBack_inline {w : IWord} {i : Instr} {sh : Shape} (he : encode i = some (w :: sh.words))
    (hw : inlineWords w = true) (h : decodeWord w sh = .ok i) : ReadsBack i := by
  intro ws hws rest
  obtain rfl := Option.some.inj (he.symm.trans hws)
  simp [decode, Shape.words, wordBytes, shapeOf, hw, h]

/-- `amo` is read back by its operation, a number below 8 (R242). -/
theorem readsBack_amo (k : AmoOp) (z : Bool) (o : Ord4) (s : Scope) (d a b : GReg) (hs : atomicScopeOk o s = true) :
    ReadsBack (.amo k z o s d a b) := by
  have hf := atomicScope_field hs
  cases k <;> exact readsBack_one rfl (by simp [dec14, fnAmo, AmoOp.code, AmoOp.ofCode?, atomicScope?_code hs, hf])

/-- `resv` is read back by its ordering (R242). -/
theorem readsBack_resv (z acq : Bool) (s : Scope) (d a : GReg)
    (hs : atomicScopeOk (if acq then .acq else .none) s = true) : ReadsBack (.resv z acq s d a) := by
  cases acq with
  | false =>
    obtain rfl : s = .lane := of_decide_eq_true hs
    exact readsBack_one rfl (by simp [dec14, fnAmo, atomicScope?, Scope.code])
  | true =>
    have hc := atomicScope?_code (o := .acq) hs
    exact readsBack_one rfl (by simp [dec14, fnAmo, hc])

/-- `rlse` is read back by its ordering (R242). -/
theorem readsBack_rlse (z rel : Bool) (s : Scope) (d : Reg8) (a b : GReg)
    (hs : atomicScopeOk (if rel then .rel else .none) s = true) : ReadsBack (.rlse z rel s d a b) := by
  cases rel with
  | false =>
    obtain rfl : s = .lane := of_decide_eq_true hs
    exact readsBack_one rfl (by simp [dec14, fnAmo, atomicScope?, Scope.code])
  | true =>
    have hc := atomicScope?_code (o := .rel) hs
    exact readsBack_one rfl (by simp [dec14, fnAmo, hc])

/-- `vred` is read back by its operation, whose code spans the two parts that major 0x1D is decoded by (R139). -/
theorem readsBack_vred (o : RedOp) (t : VTy) (d a : Reg8) (m : Reg4) (ht : vredTy t = true) :
    ReadsBack (.vred o t d a m) := by
  cases o <;> exact readsBack_one rfl (by simp [dec1D, RedOp.code, RedOp.ofCode?, ht])

/-- Every well-formed instruction is read back, major by major (R23). -/
theorem readsBack_of_wf (i : Instr) (hwf : i.wf = true) : ReadsBack i := by
  cases i with
  | add | sub | and | or | xor | shl | shr | sar | rol | min | max | minn | maxn | clz | ctz | pop | bfx | bfi | sel =>
    exact readsBack_one rfl (by simp [dec01])
  | addi | lui | adpc => exact readsBack_one rfl (by simp)
  | andi | ori | xori => exact readsBack_one rfl (by simp [dec03])
  | shli | shri | sari | bfxImm | bfiImm => exact readsBack_one rfl (by simp [dec04])
  | cmp => exact readsBack_one rfl (by simp [dec07])
  | cmpi => exact readsBack_one rfl (by simp [dec08])
  | mul | mulh | mulhn | div | divn | rem | remn => exact readsBack_one rfl (by simp [dec09])
  | fadd | fsub | fmul | fma | fdiv | fsqrt | fmin | fmax | fcmp | fclass =>
    exact readsBack_one rfl (by simp [dec0A, fnF])
  | fcvtD2s | fcvtS2d | fcvtD2i | fcvtS2i | fcvtI2d | fcvtI2s | fmvgf | fmvfg =>
    exact readsBack_one rfl (by simp [dec0B, fnC])
  | br => exact readsBack_one rfl (by simp [dec0C])
  | jmp => exact readsBack_one rfl (by simp [dec0D])
  | jal d o =>
    have hd : d ≠ 0 := of_decide_eq_true hwf
    exact readsBack_one rfl (by simpa [dec0D] using hd)
  | jr => exact readsBack_one rfl (by simp [dec0E])
  | jalr d a i =>
    have hd : d ≠ 0 := of_decide_eq_true hwf
    exact readsBack_one rfl (by simpa [dec0E] using hd)
  | rpt | rptReg => exact readsBack_one rfl (by simp [dec0F])
  | ld z sx | ldAcq z sx =>
    have hz := (loadOk_iff z sx).1 hwf
    exact readsBack_one rfl (by simpa [dec10] using hz)
  | st | stRel => exact readsBack_one rfl (by simp [dec11])
  | mig | pf | pfLlc => exact readsBack_one rfl (by simp [dec12])
  | ldf z sx | ldfIndexed z sx =>
    have hz := (loadOk_iff z sx).1 hwf
    exact readsBack_one rfl (by simpa [dec13, fnL] using hz)
  | stf | stfIndexed | rnw | life | fdrop | lifeSet => exact readsBack_one rfl (by simp [dec13, fnL])
  | amo k z o s d a b => exact readsBack_amo k z o s d a b hwf
  | amoSwap _ o s | amoCas _ o s =>
    have hs : atomicScopeOk o s = true := hwf
    exact readsBack_one rfl (by simp [dec14, fnAmo, atomicScope?_code hs, atomicScope_field hs])
  | resv z acq s d a => exact readsBack_resv z acq s d a hwf
  | rlse z rel s d a b => exact readsBack_rlse z rel s d a b hwf
  | fenceAcq s | fenceRel s | fenceAr s =>
    have hs : s ∈ coreUp := (mem_coreUp s).2 (of_decide_eq_true hwf)
    exact readsBack_one rfl (by simp [dec15, hs])
  | iinv s =>
    have hs := (mem_quadToPkg s).2 (by simpa [Instr.wf] using hwf)
    exact readsBack_one rfl (by simp [dec15, -List.mem_cons, hs])
  | qwait s =>
    have hs := (mem_quadToPod s).2 (by simpa [Instr.wf] using hwf)
    exact readsBack_one rfl (by simp [dec15, -List.mem_cons, hs])
  | cwb | cwbAll | cinv | cinvAll | fbar | mfree => exact readsBack_one rfl (by simp [dec15])
  | sinit _ s =>
    have hs : s ∈ coreUp := (mem_coreUp s).2 (of_decide_eq_true hwf)
    exact readsBack_one rfl (by simp [dec16, hs])
  | sfin | slock | slockCall | sunlk | sarr | sarrEos | sexp | swait | smode => exact readsBack_one rfl (by simp [dec16])
  | gmake s =>
    have hs := (mem_quadToPkg s).2 (by simpa [Instr.wf] using hwf)
    exact readsBack_one rfl (by simp [dec17, -List.mem_cons, hs])
  | gjoin | gleave | gbar | gvote | gred | gsize | grank | gstat => exact readsBack_one rfl (by simp [dec17])
  | spawn | quit | reap | kill | cfw | yield | ctxs => exact readsBack_one rfl (by simp [dec18])
  | vadd | vsub | vmul | vfma | vmax | vmin | vabs | vneg => exact readsBack_one rfl (by simp [dec19])
  | vand | vor | vxor | vsel => exact readsBack_one rfl (by simp [dec1A])
  | vshl t | vshr t | vaddInt t | vsubInt t =>
    have ht : t.isInt = true := hwf
    exact readsBack_one rfl (by simp [dec1A, ht])
  | vcmp k t =>
    have ht : vcmpTy k t = true := hwf
    exact readsBack_one rfl (by simp [dec1A, ht])
  | vld | vst | vgath | vscat | vbcast | vperm => exact readsBack_one rfl (by simp [dec1B])
  | vcvtF2i _ t | vcvtI2f _ t =>
    have ht : t.isInt32 = true := hwf
    exact readsBack_one rfl (by simp [dec1C, ht])
  | ldtab a => exact readsBack_one rfl (by simp [dec1C_ldtab])
  | vcvtF2h | vcvtH2fl | vcvtH2fh | vdec | venc | vdot | ldtabQa | ldtabQb => exact readsBack_one rfl (by simp [dec1C])
  | vbfly => exact readsBack_one rfl (by simp [dec1D])
  | vred o t d a m => exact readsBack_vred o t d a m hwf
  | vtwid _ _ l =>
    have hl : l.toNat ≤ 20 := of_decide_eq_true hwf
    exact readsBack_one rfl (by simp [dec1D, hl])
  | mclr | mmaQ8 | mmaH16 | mmrQ8 | mmrH16 | mlatch | mld | mst => exact readsBack_tensor rfl (by simp [dec1E])
  | mcv _ _ _ _ sh | mshp _ sh =>
    have hs : sh.valid = true := hwf
    exact readsBack_inline rfl (by simp [inlineWords]) (by simp [dec1E, hs])
  | cpy s | cpyX s | cpy2 s | cpy2X s | cph s | cvbF2q s | cvbQ2f s | cvbF2h s | cvbH2f s =>
    have hs : s ∈ coreUp := (mem_coreUp s).2 (of_decide_eq_true hwf)
    exact readsBack_one rfl (by simp [dec1F, hs])
  | cpt s =>
    have hs : s = .pkg ∨ s = .pod := by simpa [Instr.wf] using hwf
    exact readsBack_one rfl (by simp [dec1F, hs])
  | cpst | cpw => exact readsBack_one rfl (by simp [dec1F])
  | lnch | tkadd | tkaddAt | tgrun | notify | wwait | wake | wakeAt => exact readsBack_one rfl (by simp [dec20])
  | time | cyc | pwrq | pstat => exact readsBack_one rfl (by simp [dec21])
  | nring | npost | ncnt | ncw => exact readsBack_one rfl (by simp [dec22])
  | nop | trap | brk | eret | mfs | mts | halt => exact readsBack_one rfl (by simp [dec23])
  | fifoPop | fifoPush => exact readsBack_one rfl (by simp [dec23, fifoNum])
  | tlbi s | tlbiAll s =>
    have hs := (mem_tlbiScopes s).2 (by simpa [Instr.wf] using hwf)
    exact readsBack_one rfl (by simp [dec23, hs])
  | _ => exact fun _ he => nomatch he

/-- Settles O2: the bytes of an instruction are those of its words, which are read back. -/
theorem decodeEncode : Obligations.DecodeEncode := by
  unfold Obligations.DecodeEncode
  intro i b rest hwf hb
  rw [encodeBytes] at hb
  split at hb
  · next ws hws =>
    cases hb
    exact readsBack_of_wf i hwf ws hws rest
  · cases hb

end Sys2Proof
end

section
/-! The decoder answers well-formed instructions only (R29, R33), major by major. -/

set_option Elab.async false
namespace Sys2Proof

/-- Whatever a decoder answers is well-formed. -/
def AnswersWf (r : Dec) : Prop := ∀ i, r = .ok i → i.wf = true

@[simp] theorem answersWf_ok (i : Instr) : AnswersWf (.ok i) ↔ i.wf = true :=
  ⟨fun h => h i rfl, fun h _ e => Except.ok.inj e ▸ h⟩

@[simp] theorem answersWf_error (e : DecodeError) : AnswersWf (.error e) := fun _ h => nomatch h

@[simp] theorem answersWf_need (b : Bool) (i : Instr) : AnswersWf (need b i) ↔ (b = true → i.wf = true) := by
  cases b <;> simp [need]

@[simp] theorem answersWf_sel {α : Type} (o : Option α) (f : α → Dec) :
    AnswersWf (sel o f) ↔ ∀ x, o = some x → AnswersWf (f x) := by
  cases o <;> simp [sel]

@[simp] theorem scopeIn_eq_some (l : List Scope) (x : BitVec 3) (s : Scope) :
    scopeIn l x = some s ↔ Scope.ofCode? x = some s ∧ s ∈ l := by
  unfold scopeIn; grind

@[simp] theorem vtyIn_eq_some (p : VTy → Bool) (x : BitVec 3) (t : VTy) :
    vtyIn p x = some t ↔ VTy.ofCode? x = some t ∧ p t = true := by
  unfold vtyIn; grind

theorem Scope.ofCode?_eq_some {x : BitVec 3} {s : Scope} : Scope.ofCode? x = some s ↔ x = s.code := by
  cases s <;> revert x <;> decide

theorem Sz.ofCode?_eq_some {x : BitVec 2} {z : Sz} : Sz.ofCode? x = some z ↔ x = z.code := by
  cases z <;> revert x <;> decide

/-- A scope field that an atomic admits gives a scope that agrees with its ordering (R242). -/
theorem atomicScope?_wf {o : Ord4} {x : BitVec 3} {s : Scope} (h : atomicScope? o x = some s) :
    atomicScopeOk o s = true := by
  rw [atomicScopeOk_iff]
  by_cases ho : o = .none
  · left
    simpa [atomicScope?, ho, eq_comm] using h
  · right
    obtain ⟨hx, hs⟩ : ¬ x = 0#3 ∧ x = s.code := by simpa [atomicScope?, ho, Scope.ofCode?_eq_some] using h
    exact ⟨ho, fun hl => hx (by rw [hs, hl]; rfl)⟩

theorem dec01_wf (x : FA) : AnswersWf (dec01 x) := by unfold dec01; split <;> simp [Instr.wf]

theorem dec03_wf (x : FI) : AnswersWf (dec03 x) := by unfold dec03; dsimp only; split <;> simp [Instr.wf]

theorem dec04_wf (x : FI) : AnswersWf (dec04 x) := by unfold dec04; dsimp only; split <;> simp [Instr.wf]

theorem dec07_wf (x : FA) : AnswersWf (dec07 x) := by simp [dec07, Instr.wf]

theorem dec08_wf (x : FI) : AnswersWf (dec08 x) := by simp [dec08, Instr.wf]

theorem dec09_wf (x : FA) : AnswersWf (dec09 x) := by unfold dec09; split <;> simp [Instr.wf]

theorem dec0A_wf (x : FA) : AnswersWf (dec0A x) := by
  simp only [dec0A, answersWf_sel]
  intro s _
  split <;> simp [Instr.wf]

theorem dec0B_wf (x : FA) : AnswersWf (dec0B x) := by
  simp only [dec0B, answersWf_sel]
  intro t _
  split <;> simp [Instr.wf]

theorem dec0C_wf (x : FB) : AnswersWf (dec0C x) := by simp [dec0C, Instr.wf]

theorem dec0D_wf (x : FJ) : AnswersWf (dec0D x) := by
  unfold dec0D; split <;> simp_all [Instr.wf]

theorem dec0E_wf (x : FI) : AnswersWf (dec0E x) := by
  unfold dec0E; split <;> simp_all [Instr.wf]

theorem dec0F_wf (x : FP) : AnswersWf (dec0F x) := by
  unfold dec0F; split <;> simp [Instr.wf]

theorem dec10_wf (x : FM) : AnswersWf (dec10 x) := by
  simp only [dec10, answersWf_sel]
  intro z hz
  rw [Sz.ofCode?_eq_some] at hz
  split
  · simp
  · next h => split <;> simpa [Instr.wf, loadOk_iff, hz] using h

theorem dec11_wf (x : FM) : AnswersWf (dec11 x) := by
  simp only [dec11, answersWf_sel]
  intro z _
  split <;> simp [Instr.wf]

theorem dec12_wf (x : FM) : AnswersWf (dec12 x) := by
  unfold dec12
  split
  · simp [Instr.wf]
  · split <;> simp [Instr.wf]
  · simp

theorem dec13_wf (x : FA) : AnswersWf (dec13 x) := by
  simp only [dec13, answersWf_sel]
  intro z hz
  rw [Sz.ofCode?_eq_some] at hz
  split
  case h_1 =>
    split
    · simp
    · next h =>
      have hl : loadOk z (fbit x.fn 2) = true := (loadOk_iff _ _).2 (by simpa [hz] using h)
      split <;> simp [Instr.wf, hl]
  case h_2 => split <;> simp [Instr.wf]
  all_goals simp [Instr.wf]

theorem dec14_wf (x : FA) : AnswersWf (dec14 x) := by
  simp only [dec14, answersWf_sel]
  intro o _ s hs
  have hok := atomicScope?_wf hs
  split
  case h_3 | h_4 => split <;> simp [Instr.wf, hok]
  all_goals simp [Instr.wf, hok]

theorem dec15_wf (x : FY) : AnswersWf (dec15 x) := by
  unfold dec15; dsimp only
  split <;> simp +contextual [Instr.wf, mem_coreUp, mem_quadToPkg, mem_quadToPod, -List.mem_cons]

theorem dec16_wf (x : FS) : AnswersWf (dec16 x) := by
  unfold dec16; dsimp only
  split
  case h_1 => simp +contextual [Instr.wf, mem_coreUp]
  case h_9 => simp
  all_goals split <;> simp [Instr.wf]

theorem dec17_wf (x : FS) : AnswersWf (dec17 x) := by
  unfold dec17; dsimp only
  split
  case h_1 => split <;> simp +contextual [Instr.wf, mem_quadToPkg, -List.mem_cons]
  case h_5 | h_6 | h_10 => simp [Instr.wf]
  all_goals split <;> simp [Instr.wf]

theorem dec18_wf (x : FA) : AnswersWf (dec18 x) := by unfold dec18; split <;> simp [Instr.wf]

theorem dec19_wf (x : FV) : AnswersWf (dec19 x) := by unfold dec19; dsimp only; split <;> simp [Instr.wf]

theorem dec1A_wf (x : FV) : AnswersWf (dec1A x) := by
  unfold dec1A; dsimp only; split <;> simp +contextual [Instr.wf, vcmpTy]

theorem dec1B_wf (x : FV) : AnswersWf (dec1B x) := by unfold dec1B; dsimp only; split <;> simp [Instr.wf]

theorem dec1C_wf (x : FV) : AnswersWf (dec1C x) := by
  unfold dec1C; dsimp only
  split
  case h_1 => split <;> simp +contextual [Instr.wf]
  case h_2 => split <;> simp +contextual [Instr.wf]
  case h_5 => split <;> simp [Instr.wf]
  case h_6 =>
    split
    · simp
    · split <;> simp [Instr.wf]
  all_goals simp [Instr.wf]

theorem dec1D_wf (x : FV) : AnswersWf (dec1D x) := by
  unfold dec1D; dsimp only
  split
  · split <;> simp_all [Instr.wf]
  · split
    · simp [Instr.wf]
    · split <;> simp +contextual [Instr.wf, vredTy]

theorem dec1E_wf (x : FX) (sh : Shape) : AnswersWf (dec1E x sh) := by
  unfold dec1E; dsimp only
  split
  case h_2 | h_3 => split <;> simp [Instr.wf]
  case h_5 | h_6 =>
    split
    · split <;> simp_all [Instr.wf]
    · simp
  all_goals simp [Instr.wf]

theorem dec1F_wf (x : FE) : AnswersWf (dec1F x) := by
  unfold dec1F; dsimp only
  split
  case h_6 => simp +contextual [Instr.wf]
  case h_11 | h_12 => split <;> simp [Instr.wf]
  all_goals simp +contextual [Instr.wf, engScopeOk, mem_coreUp]

theorem dec20_wf (x : FY) : AnswersWf (dec20 x) := by unfold dec20; dsimp only; split <;> simp [Instr.wf]

theorem dec21_wf (x : FY) : AnswersWf (dec21 x) := by unfold dec21; dsimp only; split <;> simp [Instr.wf]

theorem dec22_wf (x : FE) : AnswersWf (dec22 x) := by unfold dec22; dsimp only; split <;> simp [Instr.wf]

theorem dec23_wf (x : FY) : AnswersWf (dec23 x) := by
  unfold dec23; dsimp only
  split
  case h_5 | h_6 => split <;> simp [Instr.wf]
  case h_7 =>
    simp only [answersWf_sel, scopeIn_eq_some]
    intro s hs
    split <;> simp [Instr.wf, (mem_tlbiScopes s).1 hs.2]
  all_goals simp [Instr.wf]

/-- Every major answers well-formed instructions only (R23, R29). -/
theorem decodeWord_wf (w : IWord) (sh : Shape) : AnswersWf (decodeWord w sh) := by
  unfold decodeWord
  split
  exacts [dec01_wf _, by simp [Instr.wf], dec03_wf _, dec04_wf _, by simp [Instr.wf], by simp [Instr.wf], dec07_wf _,
    dec08_wf _, dec09_wf _, dec0A_wf _, dec0B_wf _, dec0C_wf _, dec0D_wf _, dec0E_wf _, dec0F_wf _, dec10_wf _, dec11_wf _,
    dec12_wf _, dec13_wf _, dec14_wf _, dec15_wf _, dec16_wf _, dec17_wf _, dec18_wf _, dec19_wf _, dec1A_wf _, dec1B_wf _,
    dec1C_wf _, dec1D_wf _, dec1E_wf _ _, dec1F_wf _, dec20_wf _, dec21_wf _, dec22_wf _, dec23_wf _, answersWf_error _]

/-- An unassigned major is refused, whatever the other bits (R29). -/
theorem decodeWord_unassigned {w : IWord} (sh : Shape) (h : majorOf w = 0 ∨ 0x24 ≤ (majorOf w).toNat) :
    decodeWord w sh = .error .major := by
  replace h : (majorOf w).toNat = 0 ∨ 0x24 ≤ (majorOf w).toNat := h.imp_left (congrArg BitVec.toNat)
  unfold decodeWord
  split
  case h_36 => rfl
  all_goals omega

/-- What bytes decode to is what some word decodes to. -/
theorem decode_ok {b rest : List Byte} {i : Instr} (h : decode b = .ok (i, rest)) : ∃ w sh, decodeWord w sh = .ok i := by
  unfold decode at h
  grind

/-- Settles O3: each major answers well-formed instructions only, and an unassigned one none. -/
theorem decodedIsWellFormed : Obligations.DecodedIsWellFormed := by
  unfold Obligations.DecodedIsWellFormed
  constructor
  · intro b rest i h
    obtain ⟨w, sh, hw⟩ := decode_ok h
    exact decodeWord_wf w sh i hw
  · intro w sh i h he
    rw [decodeWord_unassigned sh h] at he
    cases he

/-- Settles O1, by running the decoder. -/
theorem decodeWords : Obligations.DecodeWords := by
  unfold Obligations.DecodeWords
  decide

end Sys2Proof
end

section
/-! The instruction path (R28, R195): what a fetch reads, and what it leaves as it was. -/

namespace Sys2Proof.Machine

-- Bytes of a range that was read as a number (R5)

theorem memReadAt_lt (m : Memory) (l : List Nat) : memReadAt m l < 2 ^ (8 * l.length) := by
  induction l with
  | nil => exact Nat.one_pos
  | cons a l ih =>
    have hb := (memGet m a).isLt
    rw [memReadAt, List.length_cons, Nat.mul_succ, Nat.pow_add, Nat.shiftLeft_eq]
    omega

theorem memReadAt_byte (m : Memory) (l : List Nat) (k : Nat) (h : k < l.length) :
    memReadAt m l / 2 ^ (8 * k) % 2 ^ 8 = (memGet m l[k]).toNat := by
  induction l generalizing k with
  | nil => exact absurd h (Nat.not_lt_zero _)
  | cons a l ih =>
    have hb := (memGet m a).isLt
    rw [memReadAt, Nat.shiftLeft_eq]
    cases k with
    | zero =>
      rw [Nat.mul_zero, Nat.pow_zero, Nat.div_one, List.getElem_cons_zero]
      omega
    | succ k =>
      have hd : ((memGet m a).toNat + memReadAt m l * 2 ^ 8) / 2 ^ 8 = memReadAt m l := by omega
      have hp : 2 ^ (8 * (k + 1)) = 2 ^ 8 * 2 ^ (8 * k) := by rw [← Nat.pow_add]; congr 1; omega
      rw [hp, ← Nat.div_div_eq_div_mul, hd, List.getElem_cons_succ]
      exact ih k (Nat.lt_of_succ_lt_succ h)

/-- Byte `k` of an image is the byte that was read there. -/
theorem image_byte (m : Memory) (l : List Nat) {n k : Nat} (hn : 8 * l.length = n) (h : k < l.length) :
    (BitVec.ofNat n (memReadAt m l)).extractLsb' (8 * k) 8 = memGet m l[k] := by
  subst hn
  apply BitVec.eq_of_toNat_eq
  rw [BitVec.extractLsb'_toNat, BitVec.toNat_ofNat, Nat.mod_eq_of_lt (memReadAt_lt m l), Nat.shiftRight_eq_div_pow,
    memReadAt_byte m l k h]

/-- Byte `k` of a line's image is the byte at the line's address plus `k`. -/
theorem line_byte (m : Memory) (a k : Nat) (h : k < 64) :
    (BitVec.ofNat 512 (memRead m a 64)).extractLsb' (8 * k) 8 = memGet m (a + k) := by
  have hl : (span a 64).length = 64 := List.length_range'
  rw [memRead, image_byte m (span a 64) (by rw [hl]) (by rw [hl]; exact h)]
  simp [span]

/-- Word `k` of an image is its four bytes there, least significant first. -/
theorem elem_word {n : Nat} (v : BitVec n) (b : Nat → Byte) (k : Nat)
    (h : ∀ j < 4, v.extractLsb' (8 * (4 * k + j)) 8 = b j) : elem 32 v k = leWord (b 0) (b 1) (b 2) (b 3) := by
  have hb : ∀ j < 4, (elem 32 v k).extractLsb' (8 * j) 8 = b j := by
    intro j hj
    rw [← h j hj]
    ext i hi
    have hlt : 8 * j + i < 32 := by omega
    have hs : 32 * k + (8 * j + i) = 8 * (4 * k + j) + i := by omega
    simp only [elem, BitVec.getElem_extractLsb', BitVec.getLsbD_extractLsb', hlt, hs, decide_true, Bool.true_and]
  rw [← leWord_bytes (elem 32 v k), ← hb 0 (by decide), ← hb 1 (by decide), ← hb 2 (by decide), ← hb 3 (by decide)]

/-- The word at an address of a line, from the line's image. -/
theorem line_word (m : Memory) (p : Nat) (h : p % 4 = 0) :
    elem 32 (BitVec.ofNat 512 (memRead m (p / 64 * 64) 64)) (p % 64 / 4) =
      leWord (memGet m p) (memGet m (p + 1)) (memGet m (p + 2)) (memGet m (p + 3)) := by
  refine elem_word _ (fun j => memGet m (p + j)) _ fun j hj => ?_
  rw [line_byte m _ _ (by omega)]
  congr 1
  omega

-- A fetch of a word that nothing holds

/-- The global window is the same for every core (R142). -/
theorem window_global {core : Nat} {a : Word} (h : window core a = .global) (c : Nat) : window c a = .global := by
  unfold window slotWin at *
  grind

/-- An instruction address in the global window is translated by an entry with X = 1 (R272, R273). -/
theorem translate_fetch {s : State} {core part : Nat} {a : Word} {e : TlbEnt} (hw : window core a = .global)
    (ht : tlbFind part a (s.core core).tlb = some e) (hx : e.x = true) :
    s.translate core part a .fetch = .ok (.global (e.base + a.toNat % 2 ^ e.lg)) := by
  simp [State.translate, State.translateIn, hw, ht, tlbCheck, hx, AccKind.writes, tlbLoc, window_global hw 0]

/-- Where nothing is broken, a read at its home finds no error (R396). -/
theorem readCheck_clean {s : State} (locs : List Nat) (tid : BitVec 32) (part : Nat) (hf : s.flaws = [])
    (hr : s.retired = []) (hl : s.lost = []) : s.readCheck locs tid part = (s, false) := by
  simp [State.readCheck, State.gone, State.flawsIn, hf, hr, hl]

theorem icacheHit_of_find?_none {s : State} {q line : Nat}
    (h : (s.quad q).icache.find? (fun e => e.1 == line) = none) : s.icacheHit q line = false :=
  List.any_eq_false.2 (List.find?_eq_none.1 h)

/-- A line that the instruction cache does not hold is read from memory (R195). -/
theorem icacheRead_miss {s : State} {q line : Nat} (h : (s.quad q).icache.find? (fun e => e.1 == line) = none) :
    (s.icacheRead q line).2 = BitVec.ofNat 512 (memRead s.mem (line * 64) 64) := by
  rw [State.icacheRead, h]

@[simp] theorem icacheRead_mem (s : State) (q line : Nat) : (s.icacheRead q line).1.mem = s.mem := by
  unfold State.icacheRead
  split <;> simp

/-- A fetch that no run-ahead word and no line of the instruction cache answers reads its home (R28, R276). -/
theorem fetchWord_miss {s : State} {cx : Nat} {a : Word} {l : Loc} (hrun : (s.ctx cx).run = [])
    (ht : s.translate (coreOf cx) ((s.partOf (coreOf cx)).getD 0) a .fetch = .ok l) (hf : s.flaws = [])
    (hr : s.retired = []) (hl : s.lost = [])
    (hc : (s.quad (quadOf (coreOf cx))).icache.find? (fun e => e.1 == locKey l / 64) = none) :
    s.fetchWord cx a = .ok [elem 32 (BitVec.ofNat 512 (memRead s.mem (locKey l / 64 * 64) 64)) (locKey l % 64 / 4)]
      (s.icacheRead (quadOf (coreOf cx)) (locKey l / 64)).1 := by
  have hhit : s.icacheHit (quadOf (coreOf cx)) (locKey l / 64) = false := icacheHit_of_find?_none hc
  rw [← icacheRead_miss hc]
  simp [State.fetchWord, hrun, ht, hhit, readCheck_clean _ _ _ hf hr hl]

-- A fetch leaves the contexts as they were

theorem readErr_ctxs (tid : BitVec 32) (part : Nat) (s : State) (e : Nat × ReadFault) :
    (State.readErr tid part s e).ctxs = s.ctxs ∧ (State.readErr tid part s e).cur = s.cur := by
  obtain ⟨l, f⟩ := e
  cases f with
  | transient | llcClean | llcDirty => exact ⟨rfl, rfl⟩
  | lasting =>
    simp only [State.readErr]
    split <;> exact ⟨rfl, rfl⟩

theorem readCheck_ctxs (s : State) (locs : List Nat) (tid : BitVec 32) (part : Nat) :
    (s.readCheck locs tid part).1.ctxs = s.ctxs ∧ (s.readCheck locs tid part).1.cur = s.cur := by
  have hfold : ∀ (l : List (Nat × ReadFault)) (t : State),
      (l.foldl (State.readErr tid part) t).ctxs = t.ctxs ∧ (l.foldl (State.readErr tid part) t).cur = t.cur := by
    intro l
    induction l with
    | nil => exact fun t => ⟨rfl, rfl⟩
    | cons e l ih =>
      intro t
      obtain ⟨h1, h2⟩ := ih (State.readErr tid part t e)
      obtain ⟨h3, h4⟩ := readErr_ctxs tid part t e
      exact ⟨h1.trans h3, h2.trans h4⟩
  unfold State.readCheck
  split
  · exact ⟨rfl, rfl⟩
  · split
    · exact ⟨rfl, rfl⟩
    · exact hfold _ _

theorem icacheRead_ctxs (s : State) (q line : Nat) :
    (s.icacheRead q line).1.ctxs = s.ctxs ∧ (s.icacheRead q line).1.cur = s.cur := by
  unfold State.icacheRead
  split <;> simp

/-- A fetch of a word gives one word, and leaves the contexts as they were. -/
theorem fetchWord_ok {s t : State} {cx : Nat} {a : Word} {l : List IWord} (h : s.fetchWord cx a = .ok l t) :
    (∃ w, l = [w]) ∧ t.ctxs = s.ctxs ∧ t.cur = s.cur := by
  unfold State.fetchWord at h
  dsimp only at h
  split at h
  · cases h
    exact ⟨⟨_, rfl⟩, rfl, rfl⟩
  · split at h
    · cases h
    · cases h
    · next loc _ =>
      split at h
      · split at h
        · cases h
        · cases h
          exact ⟨⟨_, rfl⟩, icacheRead_ctxs ..⟩
      · split at h
        · cases h
        · cases h
          obtain ⟨h1, h2⟩ := icacheRead_ctxs
            (s.readCheck (bytesOf loc 4) (s.ctx cx).tid ((s.partOf (coreOf cx)).getD 0)).1
            (quadOf (coreOf cx)) (locKey loc / 64)
          obtain ⟨h3, h4⟩ := readCheck_ctxs s (bytesOf loc 4) (s.ctx cx).tid ((s.partOf (coreOf cx)).getD 0)
          exact ⟨⟨_, rfl⟩, h1.trans h3, h2.trans h4⟩

/-- A fetch of some words is a fetch of the first and a fetch of the others. -/
theorem fetchWords_succ_ok {s t : State} {cx n : Nat} {a : Word} {l : List IWord}
    (h : s.fetchWords cx a (n + 1) = .ok l t) :
    ∃ w r s1, l = w :: r ∧ s.fetchWord cx a = .ok [w] s1 ∧ s1.fetchWords cx (a + 4) n = .ok r t := by
  rw [State.fetchWords] at h
  split at h
  · next l1 s1 h1 =>
    obtain ⟨⟨w, rfl⟩, -⟩ := fetchWord_ok h1
    split at h
    · next r s2 h2 =>
      cases h
      exact ⟨w, r, s1, rfl, h1, h2⟩
    · next hf => exact absurd h (hf _ _)
  · next hf => exact absurd h (hf _ _)

/-- A fetch of `n` words gives `n` words, and leaves the contexts as they were. -/
theorem fetchWords_ok {cx n : Nat} {s t : State} {a : Word} {l : List IWord} (h : s.fetchWords cx a n = .ok l t) :
    l.length = n ∧ t.ctxs = s.ctxs ∧ t.cur = s.cur := by
  induction n generalizing s a l with
  | zero =>
    cases h
    exact ⟨rfl, rfl, rfl⟩
  | succ n ih =>
    obtain ⟨w, r, s1, rfl, h1, h2⟩ := fetchWords_succ_ok h
    obtain ⟨-, hc1, hu1⟩ := fetchWord_ok h1
    obtain ⟨hl, hc2, hu2⟩ := ih h2
    exact ⟨congrArg (· + 1) hl, hc2.trans hc1, hu2.trans hu1⟩

/-- A fetch leaves the current context as it was. -/
theorem me_of_fetchWords {s s1 : State} {cx n : Nat} {a : Word} {l : List IWord} (h : s.fetchWords cx a n = .ok l s1) :
    s1.cur = s.cur ∧ s1.me = s.me := by
  obtain ⟨-, hc, hu⟩ := fetchWords_ok h
  exact ⟨hu, by rw [State.me, State.me, State.ctx, State.ctx, hc, hu]⟩

/-- Settles O5: the word of a line that is read from memory is the four bytes there. -/
theorem fetchReadsMemory : Obligations.FetchReadsMemory := by
  unfold Obligations.FetchReadsMemory
  intro s cx a e hw hrun ha hb hlg ht hx hf hr hl hc
  have h4 : (e.base + a.toNat % 2 ^ e.lg) % 4 = 0 := by
    have : a.toNat % 2 ^ e.lg % 4 = a.toNat % 4 := Nat.mod_mod_of_dvd _ (Nat.pow_dvd_pow 2 hlg)
    omega
  have hfetch := fetchWord_miss hrun (translate_fetch hw ht hx) hf hr hl hc
  rw [locKey, globalLoc, line_word _ _ h4] at hfetch
  exact ⟨_, hfetch, fun x => by rw [State.byteAt, icacheRead_mem, State.byteAt]⟩

end Sys2Proof.Machine
end

section
/-! Control transfers (R26, R100, R101). -/
namespace Sys2Proof.Machine

/-- A word offset in bytes, as an integer (R26). -/
theorem offWords_eq {n : Nat} (o : BitVec n) : offWords o = BitVec.ofInt 64 (4 * o.toInt) := by
  rw [Int.mul_comm, BitVec.ofInt_mul]
  rfl

/-- A target relative to the program counter (R26, R100). -/
theorem pc_add_offWords {n : Nat} (x : Word) (o : BitVec n) : x + offWords o = BitVec.ofInt 64 (x.toNat + 4 * o.toInt) := by
  rw [BitVec.ofInt_add, ← offWords_eq, BitVec.ofInt_natCast, BitVec.ofNat_toNat, BitVec.setWidth_eq]

/-- A target relative to a register (R26, R100). -/
theorem gr_add_offWords {n : Nat} (x : Word) (o : BitVec n) : x + offWords o = BitVec.ofInt 64 (x.toInt + 4 * o.toInt) := by
  rw [BitVec.ofInt_add, ← offWords_eq, BitVec.ofInt_toInt]

theorem wrapPc_toNat (x : Word) : (wrapPc x).toNat = x.toNat % 2 ^ 57 := by
  rw [wrapPc, BitVec.toNat_and]
  exact Nat.and_two_pow_sub_one_eq_mod x.toNat 57

theorem wrapPc_of_lt {x : Word} (h : x.toNat < 2 ^ 57) : wrapPc x = x :=
  BitVec.eq_of_toNat_eq (by rw [wrapPc_toNat, Nat.mod_eq_of_lt h])

/-- No bit of [63:57] is set (R101). -/
theorem shiftRight_57_eq_zero_iff (x : Word) : x >>> 57 = 0 ↔ x.toNat < 2 ^ 57 := by
  rw [← BitVec.toNat_inj, BitVec.toNat_ushiftRight, Nat.shiftRight_eq_div_pow]
  exact Nat.div_eq_zero_iff_lt (by decide)

/-- A multiple of 4 (R21, R101). -/
theorem and_3_eq_zero_iff (x : Word) : x &&& 3 = 0 ↔ x.toNat % 4 = 0 := by
  rw [← BitVec.toNat_inj, BitVec.toNat_and]
  exact (congrArg (· = 0) (Nat.and_two_pow_sub_one_eq_mod x.toNat 2)).to_iff

/-- A transfer to a target inside 57 bits goes there, with its link (R100). -/
theorem transfer_inside {x : Word} (link : Option GReg) (s : State) (h : x.toNat < 2 ^ 57) :
    ∃ t, transfer x link s = .next t ∧ goesTo s t x (link.elim s.me fun d => s.me.setG d (s.me.pc + 4)) := by
  have hx : ¬ x >>> 57 ≠ 0 := fun hn => hn ((shiftRight_57_eq_zero_iff x).2 h)
  have he : transfer x link s =
      .next (s.setCtx s.cur ((link.elim s.me fun d => s.me.setG d (s.me.pc + 4)).goto x).ready) := by
    rw [transfer, if_neg hx]
    cases link <;> rfl
  refine ⟨_, he, onlyContext_setCtx _ _ _, ?_⟩
  rw [ctx_setCtx, if_pos rfl, Ctx.goto, Ctx.ready, wrapPc_of_lt h]

/-- A transfer to a target outside 57 bits faults on the transfer itself (R101). -/
theorem transfer_outside {x : Word} (link : Option GReg) (s : State) (h : 2 ^ 57 ≤ x.toNat) :
    transfer x link s = .next (s.takeTrap s.cur 4 x s.me.pc) := by
  have hx : x >>> 57 ≠ 0 := fun he => Nat.not_lt.2 h ((shiftRight_57_eq_zero_iff x).1 he)
  rw [transfer, if_pos hx]
  rfl

/-- A misaligned computed target traps (R101). -/
theorem transferReg_misaligned {x : Word} (link : Option GReg) (s : State) (h : x.toNat % 4 ≠ 0) :
    transferReg x link s = .next (s.takeTrap s.cur 3 x s.me.pc) := by
  rw [transferReg, if_pos (mt (and_3_eq_zero_iff x).1 h)]
  rfl

/-- An aligned computed target is gone to as any other (R101). -/
theorem transferReg_aligned {x : Word} (link : Option GReg) (s : State) (h : x.toNat % 4 = 0) :
    transferReg x link s = transfer x link s := by
  rw [transferReg, if_neg (not_not.2 ((and_3_eq_zero_iff x).2 h))]

/-- A branch is taken when its predicate differs from `neg` (R100). -/
theorem exec_br_taken {p : Reg8} {neg : Bool} (o : BitVec 22) {s : State} (h : s.me.pr p = !neg) :
    exec (.br p neg o) s = transfer (s.me.pc + offWords o) none s := by
  show execBr p neg o s = _
  rw [execBr, h]
  cases neg <;> rfl

/-- A branch that is not taken moves on (R100). -/
theorem exec_br_not_taken {p : Reg8} {neg : Bool} (o : BitVec 22) {s : State} (h : s.me.pr p = neg) :
    exec (.br p neg o) s = retire id s := by
  show execBr p neg o s = _
  rw [execBr, h]
  cases neg <;> rfl

theorem exec_jmp (o : BitVec 22) (s : State) : exec (.jmp o) s = transfer (s.me.pc + offWords o) none s := rfl
theorem exec_jal (d : GReg) (o : BitVec 22) (s : State) :
    exec (.jal d o) s = transfer (s.me.pc + offWords o) (some d) s := rfl
theorem exec_jr (a : GReg) (n : BitVec 18) (s : State) :
    exec (.jr a n) s = transferReg (s.me.gr a + offWords n) none s := rfl
theorem exec_jalr (d a : GReg) (n : BitVec 18) (s : State) :
    exec (.jalr d a n) s = transferReg (s.me.gr a + offWords n) (some d) s := rfl

/-- Settles O21: every transfer is `transfer` to its target, for `jr` and `jalr` behind the alignment check. -/
theorem transfers : Obligations.Transfers := by
  unfold Obligations.Transfers
  refine ⟨fun s p neg o d a n => ⟨fun hp => ?_, fun ht => ⟨fun hp => ?_, ?_, ?_⟩, fun ht h4 => ⟨?_, ?_⟩⟩,
    fun s p neg o d a n => ⟨fun ht => ⟨fun hp => ?_, ?_, ?_⟩, fun h4 => ⟨?_, ?_⟩, fun h4 ht => ⟨?_, ?_⟩⟩⟩
  · rw [exec_br_not_taken o hp]
    exact retire_completes id s
  · rw [exec_br_taken o hp, pc_add_offWords]
    exact transfer_inside none s ht
  · rw [exec_jmp, pc_add_offWords]
    exact transfer_inside none s ht
  · rw [exec_jal, pc_add_offWords]
    exact transfer_inside (some d) s ht
  · rw [exec_jr, gr_add_offWords, transferReg_aligned _ _ h4]
    exact transfer_inside none s ht
  · rw [exec_jalr, gr_add_offWords, transferReg_aligned _ _ h4]
    exact transfer_inside (some d) s ht
  · rw [exec_br_taken o hp, pc_add_offWords]
    exact transfer_outside none s ht
  · rw [exec_jmp, pc_add_offWords]
    exact transfer_outside none s ht
  · rw [exec_jal, pc_add_offWords]
    exact transfer_outside (some d) s ht
  · rw [exec_jr, gr_add_offWords]
    exact transferReg_misaligned none s h4
  · rw [exec_jalr, gr_add_offWords]
    exact transferReg_misaligned (some d) s h4
  · rw [exec_jr, gr_add_offWords, transferReg_aligned _ _ h4]
    exact transfer_outside none s ht
  · rw [exec_jalr, gr_add_offWords, transferReg_aligned _ _ h4]
    exact transfer_outside (some d) s ht

end Sys2Proof.Machine
end

section
/-! The repeat frame (R102, R103): moving on in a frame, entering one, and resuming one. -/

namespace Sys2Proof.Machine

-- Bit fields after `setBits`

theorem getLsbD_setBits {n : Nat} (x : BitVec n) (hi lo v k : Nat) (h : hi < n) :
    (setBits x hi lo v).getLsbD k = if lo ≤ k ∧ k ≤ hi then v.testBit (k - lo) else x.getLsbD k := by
  rw [setBits]
  simp only [BitVec.getLsbD_or, BitVec.getLsbD_and, BitVec.getLsbD_not, BitVec.getLsbD_shiftLeft, BitVec.getLsbD_ofNat,
    Nat.testBit_mod_two_pow, Nat.testBit_two_pow_sub_one]
  by_cases hin : lo ≤ k ∧ k ≤ hi
  · have h1 : k < n := by omega
    have h2 : ¬ k < lo := by omega
    have h3 : k - lo < n := by omega
    have h4 : k - lo < hi + 1 - lo := by omega
    simp [hin, h1, h2, h3, h4]
  · rw [if_neg hin]
    by_cases hn : k < n
    · by_cases hlo : k < lo
      · simp [hn, hlo]
      · have h4 : ¬ k - lo < hi + 1 - lo := by omega
        simp [hn, hlo, h4]
    · simp [BitVec.getLsbD_of_ge x k (by omega), hn]

theorem testBit_bits {n : Nat} (x : BitVec n) (hi lo k : Nat) :
    (bits x hi lo).testBit k = (decide (k < hi + 1 - lo) && x.getLsbD (lo + k)) := by
  rw [bits, nbits, Nat.testBit_mod_two_pow, Nat.testBit_shiftRight, BitVec.testBit_toNat]

/-- A field reads as what was put into it. -/
theorem bits_setBits_same {n : Nat} (x : BitVec n) (hi lo v : Nat) (h : hi < n) :
    bits (setBits x hi lo v) hi lo = v % 2 ^ (hi + 1 - lo) := by
  apply Nat.eq_of_testBit_eq
  intro k
  rw [testBit_bits, getLsbD_setBits x hi lo v _ h, Nat.testBit_mod_two_pow]
  by_cases hk : k < hi + 1 - lo
  · have : lo + k ≤ hi := by omega
    simp [hk, this]
  · simp [hk]

/-- A field reads as before after one that shares no bit with it was written. -/
theorem bits_setBits_other {n : Nat} (x : BitVec n) (hi lo v a b : Nat) (h : hi < n) (hd : a < lo ∨ hi < b) :
    bits (setBits x hi lo v) a b = bits x a b := by
  apply Nat.eq_of_testBit_eq
  intro k
  rw [testBit_bits, testBit_bits, getLsbD_setBits x hi lo v _ h]
  by_cases hk : k < a + 1 - b
  · have : ¬ (lo ≤ b + k ∧ b + k ≤ hi) := by omega
    simp [this]
  · simp [hk]

-- The frame state of `STAT` (R86, R102)

@[simp] theorem statTRIP_setFrameState (k i : Nat) (r : Bool) (x : Word) :
    statTRIP (setFrameState k r i x) = k % 2 ^ 32 := by
  rw [statTRIP, setFrameState, bits_setBits_other _ _ _ _ _ _ (by decide) (by decide),
    bits_setBits_other _ _ _ _ _ _ (by decide) (by decide), bits_setBits_same _ _ _ _ (by decide)]

@[simp] theorem statRIDX_setFrameState (k i : Nat) (r : Bool) (x : Word) :
    statRIDX (setFrameState k r i x) = i % 32 := by
  rw [statRIDX, setFrameState, bits_setBits_same _ _ _ _ (by decide)]
  rfl

@[simp] theorem statRFA_setFrameState (k i : Nat) (r : Bool) (x : Word) : statRFA (setFrameState k r i x) = r := by
  simp only [statRFA, bit, setFrameState, getLsbD_setBits, Nat.reduceLT]
  cases r <;> rfl

-- Where a frame goes on

/-- Trip and index after an index beyond the body has carried into the trip (R102, R103). -/
def carried (len k i : Nat) : Nat × Nat := if len < i then (k + 1, 0) else (k, i)

theorem carried_fst (len k i : Nat) : (carried len k i).1 = if len < i then k + 1 else k := by
  rw [carried]; split <;> rfl

theorem carried_snd (len k i : Nat) : (carried len k i).2 = if len < i then 0 else i := by
  rw [carried]; split <;> rfl

theorem carried_of_le {len i : Nat} (k : Nat) (h : i ≤ len) : carried len k i = (k, i) := if_neg (Nat.not_lt.2 h)

theorem carried_of_lt {len i : Nat} (k : Nat) (h : len < i) : carried len k i = (k + 1, 0) := if_pos h

theorem carried_snd_le (len k i : Nat) : (carried len k i).2 ≤ len := by
  rw [carried_snd]; split <;> omega

/-- A frame with a trip left goes on at its trip and index (R102). -/
theorem frameNext_goesOn {fr : Frame} {c : Ctx}
    (h : (carried fr.len (statTRIP c.stat) (statRIDX c.stat + 1)).1 < c.rcnt.toNat) :
    c.frameNext fr =
      { c with
        stat := setFrameState (carried fr.len (statTRIP c.stat) (statRIDX c.stat + 1)).1 true
          (carried fr.len (statTRIP c.stat) (statRIDX c.stat + 1)).2 c.stat } := if_pos h

/-- A frame whose trips are done ends, and the context goes on after the body (R102). -/
theorem frameNext_ends {fr : Frame} {c : Ctx}
    (h : c.rcnt.toNat ≤ (carried fr.len (statTRIP c.stat) (statRIDX c.stat + 1)).1) :
    c.frameNext fr = { c with
      stat := setFrameState 0 false 0 c.stat
      frame := none
      pc := wrapPc (fr.addr + BitVec.ofNat 64 (4 * (fr.len + 2))) } := if_neg (Nat.not_lt.2 h)

/-- A frame is entered with a trip left (R102, R103). -/
theorem enterFrame_opens {fr : Frame} {n : BitVec 32} {k i : Nat} (c : Ctx) (h : (carried fr.len k i).1 < n.toNat) :
    c.enterFrame fr n k i = { c with
      rcnt := n, stat := setFrameState (carried fr.len k i).1 true (carried fr.len k i).2 c.stat, frame := some fr
      resume := false } := if_pos h

/-- A frame is entered with no trip left, and ends at once (R102, R103). -/
theorem enterFrame_ends {fr : Frame} {n : BitVec 32} {k i : Nat} (c : Ctx) (h : n.toNat ≤ (carried fr.len k i).1) :
    c.enterFrame fr n k i = { c with
      rcnt := n, stat := setFrameState 0 false 0 c.stat, frame := none, resume := false
      pc := wrapPc (fr.addr + BitVec.ofNat 64 (4 * (fr.len + 2))) } := if_neg (Nat.not_lt.2 h)

/-- The address after the body (R84, R102). -/
theorem afterBody_toNat (a : Word) (len : Nat) :
    (wrapPc (a + BitVec.ofNat 64 (4 * (len + 2)))).toNat = (a.toNat + 4 * (len + 2)) % 2 ^ 57 := by
  rw [wrapPc_toNat, BitVec.toNat_add, BitVec.toNat_ofNat]
  omega

theorem advance_of_frame_none {c : Ctx} (n : Nat) (h : c.frame = none) :
    c.advance n = { c with pc := wrapPc (c.pc + BitVec.ofNat 64 n) } := by rw [Ctx.advance, h]

theorem advance_of_frame_some {c : Ctx} {fr : Frame} (n : Nat) (h : c.frame = some fr) : c.advance n = c.frameNext fr := by
  rw [Ctx.advance, h]

-- The start of a frame

/-- Reading the current context after it was written. -/
theorem me_setCtx_cur (s : State) (c : Ctx) : (s.setCtx s.cur c).me = c := by
  rw [State.me, State.setCtx_cur, ctx_setCtx, if_pos rfl]

/-- The frame of an `rpt` at the current context's program counter (R102). -/
def rptFrame (s : State) (len : BitVec 4) (stride fsel : BitVec 3) (body : List IWord) : Frame :=
  ⟨s.me.pc, len.toNat, stride.toNat, fsel, body⟩

section
variable {s s1 : State} {len : BitVec 4} {body : List IWord}

/-- An `rpt` whose body is fetched and may stand there enters its frame: a new one, or the one that `eret` resumes. -/
theorem startFrame_enters (stride fsel : BitVec 3) (n : BitVec 32)
    (hf : s.fetchWords s.cur (s.me.pc + 4) (len.toNat + 1) = .ok body s1) (hb : badBodyWord body = none) :
    startFrame len stride fsel n s = .next (s1.setCtx s.cur
      (if s.me.resume ∧ statRFA s.me.stat then
        (s.me.enterFrame (rptFrame s len stride fsel body) s.me.rcnt (statTRIP s.me.stat) (statRIDX s.me.stat)).ready
      else (s.me.enterFrame (rptFrame s len stride fsel body) n 0 0).ready)) := by
  obtain ⟨hu, hme⟩ := me_of_fetchWords hf
  rw [State.me, hu] at hme
  rw [startFrame, hf]
  simp only [hb, State.modMe, State.modCtx, hu, hme, rptFrame]
  split <;> rfl

/-- A frame that no `eret` resumes is new: trip 0, index 0 and the count of the `rpt` (R102). -/
theorem startFrame_fresh (stride fsel : BitVec 3) (n : BitVec 32)
    (hf : s.fetchWords s.cur (s.me.pc + 4) (len.toNat + 1) = .ok body s1) (hb : badBodyWord body = none)
    (hr : s.me.resume = false) :
    ∃ t, startFrame len stride fsel n s = .next t ∧ onlyContext s1 t s.cur ∧ t.me.rcnt = n ∧ statTRIP t.me.stat = 0 ∧
      statRIDX t.me.stat = 0 ∧ t.me.state = .ready ∧ t.me.g = s1.me.g ∧
      (n ≠ 0 → t.me.frame = some (rptFrame s len stride fsel body) ∧ statRFA t.me.stat = true ∧
        t.me.pc = s1.me.pc) ∧
      (n = 0 → t.me.frame = none ∧ statRFA t.me.stat = false ∧
        t.me.pc.toNat = (s.me.pc.toNat + 4 * (len.toNat + 2)) % 2 ^ 57) := by
  obtain ⟨hu, hme⟩ := me_of_fetchWords hf
  have hc : carried (rptFrame s len stride fsel body).len 0 0 = (0, 0) := carried_of_le 0 (Nat.zero_le _)
  refine ⟨_, startFrame_enters stride fsel n hf hb, onlyContext_setCtx _ _ _, ?_⟩
  rw [← hu, me_setCtx_cur, hme, hr, if_neg (by simp)]
  by_cases hn : n = 0
  · subst hn
    rw [enterFrame_ends s.me (Nat.zero_le _)]
    simp [rptFrame, afterBody_toNat]
  · have hpos : 0 < n.toNat := Nat.pos_of_ne_zero fun h => hn (BitVec.eq_of_toNat_eq h)
    rw [enterFrame_opens s.me (by rw [hc]; exact hpos), hc]
    simpa using hn

/-- A frame that an `eret` resumes goes on at the trip and index of `STAT` with the count of `RCNT` (R102, R103). -/
theorem startFrame_resumed (stride fsel : BitVec 3) (n : BitVec 32)
    (hf : s.fetchWords s.cur (s.me.pc + 4) (len.toNat + 1) = .ok body s1) (hb : badBodyWord body = none)
    (hr : s.me.resume = true) (ha : statRFA s.me.stat = true) :
    ∃ t, startFrame len stride fsel n s = .next t ∧ onlyContext s1 t s.cur ∧ t.me.rcnt = s.me.rcnt ∧
      t.me.state = .ready ∧ t.me.resume = false ∧ t.me.g = s1.me.g ∧
      ((carried len.toNat (statTRIP s.me.stat) (statRIDX s.me.stat)).1 < s.me.rcnt.toNat →
        t.me.frame = some (rptFrame s len stride fsel body) ∧ statRFA t.me.stat = true ∧
        statTRIP t.me.stat = (carried len.toNat (statTRIP s.me.stat) (statRIDX s.me.stat)).1 ∧
        statRIDX t.me.stat = (carried len.toNat (statTRIP s.me.stat) (statRIDX s.me.stat)).2 ∧ t.me.pc = s1.me.pc) ∧
      (s.me.rcnt.toNat ≤ (carried len.toNat (statTRIP s.me.stat) (statRIDX s.me.stat)).1 →
        t.me.frame = none ∧ statRFA t.me.stat = false ∧ statTRIP t.me.stat = 0 ∧ statRIDX t.me.stat = 0 ∧
        t.me.pc.toNat = (s.me.pc.toNat + 4 * (len.toNat + 2)) % 2 ^ 57) := by
  obtain ⟨hu, hme⟩ := me_of_fetchWords hf
  have hi := carried_snd_le len.toNat (statTRIP s.me.stat) (statRIDX s.me.stat)
  have hlen := len.isLt
  have hcnt := s.me.rcnt.isLt
  refine ⟨_, startFrame_enters stride fsel n hf hb, onlyContext_setCtx _ _ _, ?_⟩
  rw [← hu, me_setCtx_cur, hme, if_pos ⟨hr, ha⟩]
  by_cases hk : (carried len.toNat (statTRIP s.me.stat) (statRIDX s.me.stat)).1 < s.me.rcnt.toNat
  · rw [enterFrame_opens (fr := rptFrame s len stride fsel body) s.me hk]
    simp [rptFrame, hk, Nat.not_le.2 hk]
    omega
  · rw [enterFrame_ends (fr := rptFrame s len stride fsel body) s.me (Nat.not_lt.1 hk)]
    simp [rptFrame, hk, afterBody_toNat]

end

/-- Moving on in a frame (R102). -/
theorem frameNext_cases (c : Ctx) (fr : Frame) (hlen : fr.len < 16)
    (hk : statTRIP c.stat < c.rcnt.toNat) :
    (statRIDX c.stat < fr.len →
      (c.frameNext fr).frame = c.frame ∧ (c.frameNext fr).pc = c.pc ∧
        statRIDX (c.frameNext fr).stat = statRIDX c.stat + 1 ∧
        statTRIP (c.frameNext fr).stat = statTRIP c.stat ∧ statRFA (c.frameNext fr).stat = true) ∧
    (statRIDX c.stat = fr.len → statTRIP c.stat + 1 < c.rcnt.toNat →
      (c.frameNext fr).frame = c.frame ∧ (c.frameNext fr).pc = c.pc ∧ statRIDX (c.frameNext fr).stat = 0 ∧
        statTRIP (c.frameNext fr).stat = statTRIP c.stat + 1 ∧ statRFA (c.frameNext fr).stat = true) ∧
    (statRIDX c.stat = fr.len → statTRIP c.stat + 1 = c.rcnt.toNat →
      (c.frameNext fr).frame = none ∧ (c.frameNext fr).pc.toNat = (fr.addr.toNat + 4 * (fr.len + 2)) % 2 ^ 57 ∧
        statRIDX (c.frameNext fr).stat = 0 ∧ statTRIP (c.frameNext fr).stat = 0 ∧
        statRFA (c.frameNext fr).stat = false) := by
  have hcnt := c.rcnt.isLt
  refine ⟨fun h => ?_, fun h hn => ?_, fun h hn => ?_⟩
  · have hc := carried_of_le (statTRIP c.stat) (show statRIDX c.stat + 1 ≤ fr.len from h)
    rw [frameNext_goesOn (by rw [hc]; exact hk), hc]
    simp
    omega
  · have hc := carried_of_lt (statTRIP c.stat) (show fr.len < statRIDX c.stat + 1 by omega)
    rw [frameNext_goesOn (by rw [hc]; exact hn), hc]
    simp
    omega
  · have hc := carried_of_lt (statTRIP c.stat) (show fr.len < statRIDX c.stat + 1 by omega)
    rw [frameNext_ends (by rw [hc]; exact hn.ge)]
    simp [afterBody_toNat]

theorem exec_rpt (len : BitVec 4) (stride fsel : BitVec 3) (cnt : BitVec 15) (s : State) :
    exec (.rpt len stride fsel cnt) s = startFrame len stride fsel (BitVec.ofNat 32 cnt.toNat) s := by
  rw [BitVec.ofNat_toNat]; rfl

theorem exec_rptReg (len : BitVec 4) (stride fsel : BitVec 3) (g : GReg) (s : State) :
    exec (.rptReg len stride fsel g) s = startFrame len stride fsel (BitVec.ofNat 32 (s.me.gr g).toNat) s := by
  rw [BitVec.ofNat_toNat]; rfl

/-- Settles O8: a frame goes on at the trip and index that `carried` gives, whether it moves on or is entered. -/
theorem repeatFrames : Obligations.RepeatFrames := by
  unfold Obligations.RepeatFrames
  refine ⟨fun c n => ⟨fun hn => ?_, fun fr hfr hlen _ hk => ?_⟩, ?_, ?_⟩
  · rw [advance_of_frame_none n hn]
    refine ⟨?_, rfl⟩
    rw [wrapPc_toNat, BitVec.toNat_add, BitVec.toNat_ofNat]
    omega
  · rw [advance_of_frame_some n hfr, ← hfr]
    exact frameNext_cases c fr hlen hk
  · intro s s1 len stride fsel cnt g body hf hb hr x hx
    simp only [List.mem_cons, List.not_mem_nil, or_false] at hx
    rcases hx with rfl | rfl
    · rw [exec_rpt]
      exact startFrame_fresh stride fsel _ hf hb hr
    · rw [exec_rptReg]
      exact startFrame_fresh stride fsel _ hf hb hr
  · intro s s1 len stride fsel cnt g body k i hf hb hr ha x hx
    simp only [k, i, ← carried_fst, ← carried_snd _ (statTRIP s.me.stat)]
    simp only [List.mem_cons, List.not_mem_nil, or_false] at hx
    rcases hx with rfl | rfl
    · rw [exec_rpt]
      exact startFrame_resumed stride fsel _ hf hb hr ha
    · rw [exec_rptReg]
      exact startFrame_resumed stride fsel _ hf hb hr ha

end Sys2Proof.Machine
end

section
/-! A core's cycle (R28, R57): the context in turn issues what the words at its program counter decode to. -/

namespace Sys2Proof.Machine

/-- Sixteen bytes of words are a record (R33), and fewer words are none. -/
theorem shapeOf_words {r : List IWord} {sh : Shape} {t : List Byte} (h : shapeOf (r.flatMap wordBytes) = some (sh, t)) :
    ∃ q, r = sh.words ++ q ∧ t = q.flatMap wordBytes := by
  match r with
  | [] | [_] | [_, _] | [_, _, _] => simp [shapeOf, wordBytes] at h
  | a :: b :: c :: d :: q =>
    simp only [List.flatMap_cons, wordBytes, List.cons_append, List.nil_append, shapeOf, leWord_bytes, Option.some.injEq,
      Prod.mk.injEq] at h
    obtain ⟨rfl, rfl⟩ := h
    exact ⟨q, rfl, rfl⟩

theorem words_eq_nil {q : List IWord} (h : q.flatMap wordBytes = []) : q = [] := by
  cases q with
  | nil => rfl
  | cons w q => simp [wordBytes] at h

/-- Words that decode to an instruction and to nothing more are its own word, and its record where one follows
(R21, R28). -/
theorem decode_words {w : IWord} {r : List IWord} {i : Instr} (h : decode ((w :: r).flatMap wordBytes) = .ok (i, [])) :
    (inlineWords w = false ∧ r = [] ∧ decodeWord w ⟨0, 0, 0, 0⟩ = .ok i) ∨
      ∃ sh : Shape, inlineWords w = true ∧ r = sh.words ∧ decodeWord w sh = .ok i := by
  simp only [List.flatMap_cons, wordBytes, List.cons_append, List.nil_append, decode, leWord_bytes] at h
  cases hw : inlineWords w with
  | false =>
    rw [if_neg (by simp [hw])] at h
    split at h
    · next hd =>
      obtain ⟨rfl, hr⟩ := Prod.mk.inj (Except.ok.inj h)
      exact .inl ⟨rfl, words_eq_nil hr, hd⟩
    · cases h
  | true =>
    rw [if_pos hw] at h
    split at h
    · next sh t hs =>
      split at h
      · next hd =>
        obtain ⟨rfl, rfl⟩ := Prod.mk.inj (Except.ok.inj h)
        obtain ⟨q, rfl, hq⟩ := shapeOf_words hs
        rw [words_eq_nil hq.symm, List.append_nil]
        exact .inr ⟨sh, rfl, rfl, hd⟩
      · cases h
    · cases h

theorem decoded_ok {w : IWord} {sh : Shape} {i : Instr} (cx : Nat) (s : State) (h : decodeWord w sh = .ok i) :
    decoded cx w sh s = .ok i s := by rw [decoded, h]

/-- The fetch of an instruction gives what the words at the program counter decode to (R28). -/
theorem fetchInstr_ok {s s1 : State} {cx n : Nat} {ws : List IWord} {i : Instr}
    (hf : s.fetchWords cx (s.ctx cx).pc n = .ok ws s1) (hd : decode (ws.flatMap wordBytes) = .ok (i, [])) :
    s.fetchInstr cx = .ok i s1 := by
  cases n with
  | zero =>
    cases hf
    cases hd
  | succ n =>
    obtain ⟨w, r, s0, rfl, hw, hr⟩ := fetchWords_succ_ok hf
    rcases decode_words hd with ⟨hi, rfl, hdw⟩ | ⟨sh, hi, rfl, hdw⟩
    · obtain rfl : 0 = n := (fetchWords_ok hr).1
      cases hr
      simp only [State.fetchInstr, hw, List.headD_cons, hi, Bool.false_eq_true, if_false]
      exact decoded_ok cx s1 hdw
    · obtain rfl : 4 = n := (fetchWords_ok hr).1
      simp only [State.fetchInstr, hw, List.headD_cons, hi, if_true, hr]
      exact decoded_ok cx s1 hdw

/-- The state in which a context fetches its instruction: its issue cycle is noted, and it acts (R57). -/
def State.issuing (s : State) (cx : Nat) : State :=
  { s.modCtx cx (fun c => { c with last := some (s.quad (quadOf (coreOf cx))).cyc }) with cur := cx }

theorem issuing_ctx (s : State) (cx : Nat) :
    (s.issuing cx).ctx cx = { s.ctx cx with last := some (s.quad (quadOf (coreOf cx))).cyc } :=
  (ctx_setCtx s cx cx _).trans (if_pos rfl)

/-- A context in no frame issues the instruction that its fetch gives (R57). -/
theorem issueFrom_fetched {s s1 : State} {cx : Nat} {i : Instr} (hn : (s.ctx cx).frame = none)
    (hf : (s.issuing cx).fetchInstr cx = .ok i s1) : s.issueFrom cx = execNamed i (s1.modCtx cx (Ctx.dropResume i)) := by
  have hfr : ((s.issuing cx).ctx cx).frame = none := by rw [issuing_ctx]; exact hn
  unfold State.issueFrom
  dsimp only
  split
  · next fr h => cases h.symm.trans hfr
  · split
    · next h => cases h.symm.trans hf; rfl
    · next h => cases h.symm.trans hf
    · next h => cases h.symm.trans hf

/-- With no input, a step of a package whose start goes on is what the package does of its own. -/
theorem step_run {s : State} (hin : s.inputs = []) (hst : s.stopped = false) : step s = s.run := by
  rw [step, hin, hst]
  rfl

/-- The core in turn takes its cycle: the context that the rotation gives issues (R57). -/
theorem run_issueFrom {s : State} {core j : Nat} {t : List Nat} (ht : s.turn = core :: t)
    (hj : ({ s with turn := t } : State).issueSlot core = some j) :
    s.run = ({ s with turn := t } : State).issueFrom (core * 16 + j) := by
  rw [State.run, ht]
  dsimp only
  rw [State.coreCycle, hj]

/-- Settles O4: the context that takes the cycle issues what the words at its program counter decode to. -/
theorem stepRunsDecoded : Obligations.StepRunsDecoded := by
  unfold Obligations.StepRunsDecoded
  intro s s1 core j n t ws i s0 hin hst ht hj hslot hfr hf hd hp
  have hcore : coreOf (core * 16 + j) = core := by rw [coreOf]; omega
  have hs0 : ({ s with turn := t } : State).issuing (core * 16 + j) = s0 := by rw [State.issuing, hcore]; rfl
  have hpc : (s0.ctx (core * 16 + j)).pc = (s.ctx (core * 16 + j)).pc := by rw [← hs0, issuing_ctx]; rfl
  have hfetch : s0.fetchInstr (core * 16 + j) = .ok i s1 := fetchInstr_ok (by rw [hpc]; exact hf) hd
  have hissue := issueFrom_fetched (s := { s with turn := t }) hfr (hs0 ▸ hfetch)
  calc step s = s.run := step_run hin hst
    _ = _ := run_issueFrom ht hslot
    _ = _ := hissue
    _ = _ := by rw [execNamed, hp]; rfl

end Sys2Proof.Machine
end

section
/-! The loader at a cluster that the package does not have (R12, R55). No hand-over gives out a cluster beyond 1,599, but a
statement over all states keeps none out of the table, so a partition can hold one of a die 8. The address that R55 gives
a cupola section there lies behind the Cupola window (R142), in no window at all. The loader then asks for no Cupola page:
it looks under the kind that `winCode` gives such an address, 4, and any page serves there. -/

namespace Sys2Proof.Machine

/-- An object with one byte for the Cupola (R54). -/
def oneCupolaByte : ObjImage where
  header := [0x4E, 0x4C, 0x4F, 1, 1, 0, 1, 0, 0, 0, 0, 0, 0, 0, 0, 0] ++ (List.replicate 4 (48#8 :: List.replicate 7 0)).flatten
  tablesOk := true
  secs := [{ name := [], kind := .cupola, align := 1, size := 1, bytes := [5], va := 0x20000000000 }]
  syms := []
  addrs := []
  lays := []
  textWritable := false

/-- Cluster 1600, of a die 8, is all that partition 0 holds. Its page tables begin in page 0, with four pages allotted to
go on in. One page more is allotted, at the key of kind 4 of partition 0, which is that of kind 0 of partition 1. -/
def clusterBeyond : State :=
  { State.reset with
    clusters := [(1600, { Cluster.reset with part := some 0 })]
    parts := [(0, { Part.reset with root := some 0 })]
    allots := [(0, [1, 2, 3, 4]), (4, [5])] }

/-- The place of the byte on die 8: the first address behind the Cupola window. -/
def behindCupola : Word := 0x20020000000

theorem oneCupolaByte_ok : objectOk oneCupolaByte = true := by decide +kernel

theorem clusterBeyond_diesOf : clusterBeyond.diesOf 0 = [8] := by decide +kernel

theorem clusterBeyond_unmapped (e : TlbEnt) : clusterBeyond.walk 0 behindCupola ≠ .leaf e := by
  have h : clusterBeyond.walk 0 behindCupola = .stop 4 0 0 := by decide +kernel
  rw [h]
  exact Walk.noConfusion

theorem clusterBeyond_allotted_cupola : clusterBeyond.allotted 0 1 = [] := by decide

theorem exec_loadObject (part : Nat) (o : ObjImage) (s : State) :
    exec (.loadObject part o) s = execLoadObject part o s := by
  rfl

/-- An object whose ranges can be mapped, and that the loader accepts then, is placed (R55). -/
theorem execLoadObject_placed {s s1 : State} {part : Nat} {o : ObjImage} (ho : objectOk o = true)
    (hm : s.mapAll part (s.loadRanges part o) = some s1) (hl : s1.loadable part o = true) :
    execLoadObject part o s = .next (s1.placeObject part o) := by
  unfold execLoadObject
  rw [if_pos ho]
  split
  · next h =>
    cases h.symm.trans hm
    exact if_pos hl
  · next h => cases h.symm.trans hm

/-- The page of kind 4 serves the address in no window, so the loader places the byte. -/
theorem clusterBeyond_loads : ∃ t, exec (.loadObject 0 oneCupolaByte) clusterBeyond = .next t ∧ t.out = [.loaded 0 []] := by
  have h : (clusterBeyond.mapAll 0 (clusterBeyond.loadRanges 0 oneCupolaByte)).any (fun s1 =>
      s1.loadable 0 oneCupolaByte && decide ((s1.placeObject 0 oneCupolaByte).out = [.loaded 0 []])) = true := by
    decide +kernel
  obtain ⟨s1, hm, h1⟩ := (Option.any_eq_true _ _).mp h
  obtain ⟨hl, hout⟩ := Bool.and_eq_true_iff.mp h1
  exact ⟨_, (exec_loadObject ..).trans (execLoadObject_placed oneCupolaByte_ok hm hl), of_decide_eq_true hout⟩

/-- Refutes O54: its clause on a cupola section without a page does not keep the partition's die below 8. In
`clusterBeyond` that die is 8, the section's page is not mapped and no Cupola page is allotted, but the object is placed,
not refused. -/
theorem not_deviceEvents : ¬ Obligations.DeviceEvents := by
  unfold Obligations.DeviceEvents
  rintro ⟨-, -, hload⟩
  obtain ⟨-, -, hcupola, -⟩ := hload clusterBeyond
  obtain ⟨hrefused, -⟩ := hcupola 0 oneCupolaByte _ 8 ⟨0, 0, 0, 0, false, false⟩ oneCupolaByte_ok rfl rfl rfl
    clusterBeyond_diesOf (by decide) (by decide)
  have hr := hrefused clusterBeyond_unmapped (by rw [clusterBeyond_allotted_cupola]; exact List.forall_mem_nil _)
  obtain ⟨t, ht, hout⟩ := clusterBeyond_loads
  cases ht.symm.trans hr
  exact absurd hout (by decide)

end Sys2Proof.Machine
end

section
/-! The tensor unit while a partition is pre-empted (R163, R278): an operation that has not started does not start, so its
context stays WAITING. -/

namespace Sys2Proof.Machine

@[simp] theorem State.quad_modQuad (s : State) (q : Nat) (f : Quad → Quad) : (s.modQuad q f).quad q = f (s.quad q) := by
  unfold State.modQuad State.quad
  split <;> simp

theorem exec_mclr (n : Reg4) (s : State) : exec (.mclr n) s = execMclr n s := by
  rfl

theorem exec_tensorOpStart (s : State) : exec .tensorOpStart s = execTensorOpStart s := by
  rfl

theorem exec_tensorOpComplete (q k : Nat) (s : State) : exec (.tensorOpComplete q k) s = execTensorOpComplete q k s := by
  rfl

/-- While the partition of its issuer is pre-empted or out, an operation that has not started does not start (R278). -/
theorem tensorReady_of_partOut {s : State} {q : Nat} {o : TOp} {l : List TOp} (hq : (s.quad q).tq = o :: l)
    (hb : o.begun = false) (hp : s.partOut ((s.partOf (coreOf o.cx)).getD 0) = true) : s.tensorReady q = false := by
  unfold State.tensorReady
  cases hr : (s.quad q).trun with
  | some r => rfl
  | none => simp [hq, hb, hp]

theorem execTensorOpStart_of_not_ready {s : State} (h : s.tensorReady s.sel = false) : execTensorOpStart s = .next s := by
  simp [execTensorOpStart, h]

theorem execTensorOpComplete_of_not_running {s : State} {q : Nat} (h : (s.quad q).trun = none) :
    execTensorOpComplete q 0 s = .next s := by
  simp [execTensorOpComplete, h]

/-- The state after an operation of the current context has entered its quad's queue (R163). -/
def State.enqueued (s : State) (o : TOp) : State :=
  (s.block s.cur 3 (mkWait o.i 1 0 0)).modQuad s.myQuad (fun q => { q with tq := q.tq ++ [o] })

/-- The operation that the current context issues (R163). -/
def State.issuedOp (s : State) (i : Instr) (vals : List Nat) : TOp where
  cx := s.cur
  tid := s.me.tid
  i := i
  vals := vals
  fx := s.me.fx
  tbl := (s.core s.myCore).q8
  begun := false

theorem enqueueTensor_eq (i : Instr) (vals : List Nat) (s : State) :
    enqueueTensor i vals s = .next (s.enqueued (s.issuedOp i vals)) := by
  rfl

section
variable (s : State) (o : TOp)

theorem State.enqueued_quad : (s.enqueued o).quad s.myQuad = { s.quad s.myQuad with tq := (s.quad s.myQuad).tq ++ [o] } :=
  State.quad_modQuad ..

theorem State.enqueued_partOf (core : Nat) : (s.enqueued o).partOf core = s.partOf core := by
  simp [State.enqueued, State.partOf, State.cluster]

theorem State.enqueued_part (p : Nat) : (s.enqueued o).part p = s.part p := by
  simp [State.enqueued, State.part]

theorem State.enqueued_partOut (p : Nat) : (s.enqueued o).partOut p = s.partOut p := by
  unfold State.partOut
  rw [s.enqueued_part]

theorem State.enqueued_me : (s.enqueued o).me = { s.me with state := .waiting, why := 3, wait := some (mkWait o.i 1 0 0) } := by
  calc (s.enqueued o).me
    _ = (s.block s.cur 3 (mkWait o.i 1 0 0)).ctx s.cur := by simp [State.enqueued, State.me, State.ctx]
    _ = _ := State.ctx_modCtx ..

end

/-- A tensor instruction that enters the empty queue of an idle unit while its partition is pre-empted or out leaves its
context WAITING: neither its start nor its completion changes the machine. -/
theorem tensorRuns_waits_of_partOut {s u v w : State} {i : Instr} {vals : List Nat} (hi : exec i s = enqueueTensor i vals s)
    (hq : (s.quad s.myQuad).tq = []) (hr : (s.quad s.myQuad).trun = none) (hp : s.partOut s.myPart = true)
    (h : tensorRuns i s u v w) : w.me.state = .waiting := by
  obtain ⟨hissue, hstart, hcomplete⟩ := h
  let o := s.issuedOp i vals
  have hu : s.enqueued o = u := Host.Outcome.next.inj ((hi.trans (enqueueTensor_eq i vals s)).symm.trans hissue)
  have hquad : u.quad s.myQuad = { s.quad s.myQuad with tq := [o] } := by
    rw [← hu, s.enqueued_quad, hq, List.nil_append]
  have hout : u.partOut ((u.partOf s.myCore).getD 0) = true := by
    rw [← hu, s.enqueued_partOut, s.enqueued_partOf]
    exact hp
  have hnot : State.tensorReady { u with sel := s.myQuad } s.myQuad = false :=
    tensorReady_of_partOut (congrArg Quad.tq hquad) rfl hout
  have hv : { u with sel := s.myQuad } = v :=
    Host.Outcome.next.inj ((execTensorOpStart_of_not_ready hnot).symm.trans hstart)
  have hidle : (v.quad s.myQuad).trun = none := by
    rw [← hv]
    exact (congrArg Quad.trun hquad).trans hr
  have hw : v = w := Host.Outcome.next.inj ((execTensorOpComplete_of_not_running hidle).symm.trans hcomplete)
  calc w.me.state
    _ = (s.enqueued o).me.state := by rw [← hw, ← hv, hu]; rfl
    _ = .waiting := by rw [s.enqueued_me]

/-- Context 1 of core 0 acts, in partition 0, whose PREEMPT has begun (R278); the rest of the machine is as after reset. -/
def stoppingPartition : State :=
  { State.reset with
    cur := 1
    ctxs := [(1, { Ctx.reset with state := .ready })]
    clusters := [(0, { Cluster.reset with part := some 0 })]
    parts := [(0, { Part.reset with pre := .stopping })] }

theorem stoppingPartition_noneBefore : stoppingPartition.noneBefore :=
  ⟨fun _ => rfl, fun _ => rfl⟩

theorem stoppingPartition_tensorIdle : stoppingPartition.tensorIdle :=
  ⟨rfl, rfl, rfl, rfl, rfl, stoppingPartition_noneBefore, rfl, rfl, rfl⟩

/-- Refutes O46: an idle tensor unit starts no operation while its partition is pre-empted (R278), and no hypothesis excludes
that. In `stoppingPartition` the unit is idle, but an `mclr` stays in the queue and its context stays WAITING. -/
theorem not_tensorOperations : ¬ Obligations.TensorOperations := by
  unfold Obligations.TensorOperations
  rintro ⟨hunit, -⟩
  obtain ⟨⟨u, v, w, hruns, ⟨hme, -⟩, -⟩, -⟩ := hunit stoppingPartition 0 0 0 0 0 0 0 stoppingPartition_tensorIdle
  have hwaits : w.me.state = .waiting := tensorRuns_waits_of_partOut (vals := []) (exec_mclr 0 _) rfl rfl rfl hruns
  have hready : w.me.state = .ready := congrArg Ctx.state hme
  cases hwaits.symm.trans hready

end Sys2Proof.Machine
end

section
/-! The memory in canonical form (R142), kept by every step. Each function of the model that gives a next state has one lemma:
`f_mem` where it leaves memory as it was, `f_wf` where it keeps the canonical form of a memory that has it. They stand in the
order of the model's files, so that each follows from those of the functions it calls. This part: outcomes, and the
operations that write memory. -/
namespace Sys2Proof.Machine

/-- The next state of an outcome, if there is one, has a memory in canonical form. -/
def outWf (o : Out) : Prop :=
  match o with
  | .next t => t.mem.wf = true
  | _ => True

@[simp] theorem outWf_next (t : State) : outWf (.next t) ↔ t.mem.wf = true := Iff.rfl

@[simp] theorem outWf_fault (r : Fault) : outWf (.fault r) := trivial

@[simp] theorem outWf_refused (r : Refusal) : outWf (.refused r) := trivial

@[simp] theorem outWf_ite (c : Prop) [Decidable c] (a b : Out) :
    outWf (if c then a else b) ↔ if c then outWf a else outWf b := by
  split <;> rfl

@[simp] theorem ite_mem (c : Prop) [Decidable c] (a b : State) :
    (if c then a else b).mem = if c then a.mem else b.mem := by
  split <;> rfl

@[simp] theorem ite_wf (c : Prop) [Decidable c] (a b : Memory) :
    Memory.wf (if c then a else b) = true ↔ if c then a.wf = true else b.wf = true := by
  split <;> rfl

@[simp] theorem ite_fst {β : Type} (c : Prop) [Decidable c] (a b : State × β) :
    (if c then a else b).1 = if c then a.1 else b.1 := by
  split <;> rfl

@[simp] theorem ite_snd {α : Type} (c : Prop) [Decidable c] (a b : α × State) :
    (if c then a else b).2 = if c then a.2 else b.2 := by
  split <;> rfl

theorem foldl_wf {α : Type} {s : State} (f : State → α → State) (l : List α)
    (hf : ∀ (s : State) a, s.mem.wf = true → (f s a).mem.wf = true) (h : s.mem.wf = true) : (l.foldl f s).mem.wf = true := by
  induction l generalizing s with
  | nil => exact h
  | cons a l ih => exact ih (hf s a h)

theorem foldl_mem {α : Type} (s : State) (f : State → α → State) (l : List α)
    (hf : ∀ (s : State) a, (f s a).mem = s.mem) : (l.foldl f s).mem = s.mem := by
  induction l generalizing s with
  | nil => rfl
  | cons a l ih => exact (ih (f s a)).trans (hf s a)

theorem foldl_fst_wf {α β : Type} {x : State × β} (f : State × β → α → State × β) (l : List α)
    (hf : ∀ x a, x.1.mem.wf = true → (f x a).1.mem.wf = true) (h : x.1.mem.wf = true) : (l.foldl f x).1.mem.wf = true := by
  induction l generalizing x with
  | nil => exact h
  | cons a l ih => exact ih (hf x a h)

theorem wf_of_fst {α : Type} {p : State × α} {t : State} {a : α} (h : p.1.mem.wf = true) (e : p = (t, a)) :
    t.mem.wf = true := by
  subst e; exact h

theorem wf_of_snd {α : Type} {p : α × State} {t : State} {a : α} (h : p.2.mem.wf = true) (e : p = (a, t)) :
    t.mem.wf = true := by
  subst e; exact h

theorem mem_of_fst {α : Type} {p : State × α} {t : State} {a : α} {m : Memory} (h : p.1.mem = m) (e : p = (t, a)) :
    t.mem = m := by
  subst e; exact h

@[simp] theorem store_wf {s : State} (l : List Host.Cell) (h : s.mem.wf = true) :
    (s.store l).mem.wf = true := store_inv s l h

@[simp] theorem storeAt_wf {s : State} (l : List Nat) (v : Nat) (h : s.mem.wf = true) :
    (s.storeAt l v).mem.wf = true := storeAt_inv s l v h

@[simp] theorem homeWrite_wf {s : State} (k : Option Nat) (l : List Host.Cell) (h : s.mem.wf = true) :
    (s.homeWrite k l).mem.wf = true := homeWrite_inv s k l h

@[simp] theorem birth_wf {s : State} (t part : Nat) (h : s.mem.wf = true) :
    (s.birth t part).mem.wf = true := birth_inv s t part h

@[simp] theorem markFree_wf {s : State} (part : Option Nat) (b : Nat) (h : s.mem.wf = true) :
    (s.markFree part b).mem.wf = true :=
  markFree_inv s part b h

@[simp] theorem clearScratch_wf {s : State} (k : Nat) (h : s.mem.wf = true) :
    (s.clearScratch k).mem.wf = true := clearScratch_inv s k h

@[simp] theorem copyIn_wf {s : State} (k p : Nat) (h : s.mem.wf = true) :
    (s.copyIn k p).mem.wf = true := copyIn_inv s k p h

@[simp] theorem copyOut_wf {s : State} (k p : Nat) (h : s.mem.wf = true) :
    (s.copyOut k p).mem.wf = true := copyOut_inv s k p h

@[simp] theorem wf_memClear {m : Memory} (a n : Nat) (h : m.wf = true) :
    (memClear m a n).wf = true := memClear_wf m a n h

end Sys2Proof.Machine
end

section
/-! The memory in canonical form: the shared operations, translation, coherence, fetch, accesses and atomics. -/
namespace Sys2Proof.Machine

@[simp] theorem retire_wf (f : Ctx → Ctx) {s : State} (h : s.mem.wf = true) : outWf (retire f s) := by
  simp [retire, h]

@[simp] theorem as_wf {s : State} (cx : Nat) (k : State → Out) (h : s.mem.wf = true)
    (hk : ∀ s : State, s.mem.wf = true → outWf (k s)) : outWf (s.as_ cx k) := by
  have h1 := hk { s with cur := cx } h
  unfold State.as_
  split
  · next e => rw [e] at h1; exact h1
  · exact h1

@[simp] theorem leaveEntries_mem (s : State) (gone : Requester → Bool) : (s.leaveEntries gone).mem = s.mem := rfl

@[simp] theorem withdrawTickets_mem (s : State) (cx : Nat) (tid : BitVec 32) :
    (s.withdrawTickets cx tid).mem = s.mem := rfl

@[simp] theorem trapCtx_mem (s : State) (cx cause : Nat) (val : Word) : (s.trapCtx cx cause val).mem = s.mem := by
  simp [State.trapCtx]

@[simp] theorem trap_wf (cause : Nat) (val : Word) {s : State} (h : s.mem.wf = true) : outWf (trap cause val s) := by
  simp [trap, h]

@[simp] theorem privileged_wf (ok : Bool) {s : State} (k : State → Out) (h : s.mem.wf = true)
    (hk : ∀ s : State, s.mem.wf = true → outWf (k s)) : outWf (privileged ok s k) := by
  simp [privileged, h, hk]

@[simp] theorem tlbFill_mem (s : State) (core : Nat) (e : TlbEnt) : (s.tlbFill core e).mem = s.mem := rfl

@[simp] theorem missWait_mem (s : State) (cx : Nat) (i : Instr) (part : Nat) (va : Word) (k : AccKind) :
    (s.missWait cx i part va k).mem = s.mem := rfl

@[simp] theorem markFault_mem (s : State) (r : Requester) : (s.markFault r).mem = s.mem := by
  fun_cases State.markFault s r <;> simp

theorem queueFault_mem {s t : State} {die part va k win level cause pa : Nat} {f : FaultId} {who : Requester}
    (e : s.queueFault die part va k win level cause pa f who = some t) : t.mem = s.mem := by
  unfold State.queueFault at e
  dsimp only at e
  split at e
  · cases e; simp
  · split at e <;> cases e
    simp

theorem queueFault_getD_mem (s : State) (die part va k win level cause pa : Nat) (f : FaultId) (who : Requester) :
    ((s.queueFault die part va k win level cause pa f who).getD s).mem = s.mem := by
  cases e : s.queueFault die part va k win level cause pa f who with
  | none => rfl
  | some t => exact queueFault_mem e

@[simp] theorem resume_mem (s : State) (r : Requester) : (s.resume r).mem = s.mem := by
  fun_cases State.resume s r <;> simp +zetaDelta

@[simp] theorem unitWalk_mem (s : State) (who : Requester) (core part : Nat) (va : Word) (k : AccKind) :
    (s.unitWalk who core part va k).mem = s.mem := by
  simp [State.unitWalk]

@[simp] theorem unwalk_mem (s : State) (who : Requester) : (s.unwalk who).mem = s.mem := by
  simp [State.unwalk]

@[simp] theorem queueAt_mem (s : State) (loc : Nat) (i : QItem) : (s.queueAt loc i).mem = s.mem := rfl

@[simp] theorem requeueAt_mem (s : State) (loc : Nat) (i : QItem) : (s.requeueAt loc i).mem = s.mem := rfl

@[simp] theorem failHeld_mem (s : State) (line : Nat) : (s.failHeld line).mem = s.mem := rfl

@[simp] theorem readErr_mem (tid : BitVec 32) (part : Nat) (s : State) (e : Nat × ReadFault) :
    (State.readErr tid part s e).mem = s.mem := by
  fun_cases State.readErr tid part s e <;> simp +zetaDelta

@[simp] theorem readCheck_mem (s : State) (locs : List Nat) (tid : BitVec 32) (part : Nat) :
    (s.readCheck locs tid part).1.mem = s.mem := by
  simp [State.readCheck, foldl_mem]

@[simp] theorem l1Drop_mem (s : State) (core line : Nat) : (s.l1Drop core line).mem = s.mem := rfl

@[simp] theorem l1Clean_mem (s : State) (core line : Nat) : (s.l1Clean core line).mem = s.mem := rfl

@[simp] theorem wroteHome_mem (s : State) (core line : Nat) : (s.wroteHome core line).mem = s.mem := rfl

@[simp] theorem l1WriteBack_wf {s : State} (core line : Nat) (h : s.mem.wf = true) :
    (s.l1WriteBack core line).mem.wf = true := by
  fun_cases State.l1WriteBack s core line <;> simp [h]

@[simp] theorem l1Invalidate_wf {s : State} (core line : Nat) (h : s.mem.wf = true) :
    (s.l1Invalidate core line).mem.wf = true := by
  simp [State.l1Invalidate, h]

@[simp] theorem writeBackAll_wf {s : State} (core : Nat) (h : s.mem.wf = true) :
    (s.writeBackAll core).mem.wf = true := by
  simp +contextual [State.writeBackAll, foldl_wf, h]

@[simp] theorem invalidateAll_wf {s : State} (core : Nat) (h : s.mem.wf = true) :
    (s.invalidateAll core).mem.wf = true := by
  simp +contextual [State.invalidateAll, foldl_wf, h]

@[simp] theorem drainCore_wf {s : State} (core : Nat) (g : Sig) (h : s.mem.wf = true) :
    (s.drainCore core g).mem.wf = true := by
  simp +contextual [State.drainCore, foldl_wf, h]

@[simp] theorem invalidateMatching_wf {s : State} (core : Nat) (g : Sig) (h : s.mem.wf = true) :
    (s.invalidateMatching core g).mem.wf = true := by
  simp +contextual [State.invalidateMatching, foldl_wf, h]

@[simp] theorem l1Fill_wf {s : State} (core line : Nat) (h : s.mem.wf = true) : (s.l1Fill core line).mem.wf = true := by
  unfold State.l1Fill
  dsimp only
  repeat' split
  all_goals simp +contextual [h]

@[simp] theorem l1Touch_mem (s : State) (core line : Nat) : (s.l1Touch core line).mem = s.mem := by
  fun_cases State.l1Touch s core line <;> simp

@[simp] theorem l1Store_mem (s : State) (core line o n v : Nat) : (s.l1Store core line o n v).mem = s.mem := by
  simp [State.l1Store]

@[simp] theorem dropRec_wf {s : State} (r : Rec) (h : s.mem.wf = true) : (s.dropRec r).mem.wf = true := by
  simp +contextual [State.dropRec, foldl_wf, h]

@[simp] theorem replaceRec_wf {s : State} (line : Nat) (r : Rec) (h : s.mem.wf = true) :
    (s.replaceRec line r).1.mem.wf = true := by
  fun_cases State.replaceRec s line r <;> simp [h]

@[simp] theorem setRec_wf {s : State} (line : Nat) (r : Rec) (h : s.mem.wf = true) :
    (s.setRec line r).mem.wf = true := by
  have h1 := replaceRec_wf line r h
  unfold State.setRec
  dsimp only
  rw [State.modDie_mem]
  split
  · split
    · exact dropRec_wf _ h1
    · exact h1
  · exact h1

@[simp] theorem askDrain_mem (s : State) (part : Nat) (dest : DrainFor) (r : Rec) :
    (s.askDrain part dest r).mem = s.mem := rfl

@[simp] theorem applyRecs_wf {s : State} (core : Nat) (l : List Rec) (h : s.mem.wf = true) :
    (s.applyRecs core l).mem.wf = true := by
  simp +contextual [State.applyRecs, foldl_wf, h]

@[simp] theorem afterWriteBack_wf {s : State} (why : Nat) (i : Instr) (go : State → Out) (h : s.mem.wf = true)
    (hgo : ∀ s : State, s.mem.wf = true → outWf (go s)) : outWf (s.afterWriteBack why i go) := by
  simp [State.afterWriteBack, h, hgo]

@[simp] theorem afterRelease_wf {s : State} (why : Nat) (rel : Bool) (sc : Scope) (i : Instr) (go : State → Out)
    (h : s.mem.wf = true) (hgo : ∀ s : State, s.mem.wf = true → outWf (go s)) :
    outWf (s.afterRelease why rel sc i go) := by
  simp +contextual [State.afterRelease, h, hgo]

@[simp] theorem makeRelease_wf {s : State} (core : Nat) (sc : Scope) (h : s.mem.wf = true) :
    (s.makeRelease core sc).1.mem.wf = true := by
  simp [State.makeRelease, h]

@[simp] theorem pendRelease_wf {s : State} (cx : Nat) (sc : Scope) (h : s.mem.wf = true) :
    (s.pendRelease cx sc).mem.wf = true := by
  simp [State.pendRelease, h]

@[simp] theorem goTo_mem (s : State) (cx : Nat) (next : Word) : (s.goTo cx next).mem = s.mem := by
  simp [State.goTo]

@[simp] theorem endAcquire_wf {s : State} (cx : Nat) (h : s.mem.wf = true) : (s.endAcquire cx).mem.wf = true := by
  fun_cases State.endAcquire s cx <;> simp +zetaDelta [h]

@[simp] theorem beginAcquire_wf {s : State} (cx : Nat) (i : Instr) (next : Word) (drains recs : List Rec)
    (h : s.mem.wf = true) : (s.beginAcquire cx i next drains recs).mem.wf = true := by
  simp [State.beginAcquire, h]

@[simp] theorem startAcquire_wf {s : State} (cx : Nat) (i : Instr) (next : Word) (recs : List Rec) (h : s.mem.wf = true)
    : (s.startAcquire cx i next recs).mem.wf = true := by
  simp [State.startAcquire, h]

@[simp] theorem startAcquireSig_wf {s : State} (cx : Nat) (i : Instr) (next : Word) (g : Sig) (h : s.mem.wf = true) :
    (s.startAcquireSig cx i next g).mem.wf = true := by
  simp [State.startAcquireSig, h]

@[simp] theorem acquireAll_wf {s : State} (cx : Nat) (i : Instr) (next : Word) (h : s.mem.wf = true) :
    (s.acquireAll cx i next).mem.wf = true := by
  simp [State.acquireAll, h]

theorem fetchWord_mem {s t : State} {cx : Nat} {a : Word} {l : List IWord} (e : s.fetchWord cx a = .ok l t) :
    t.mem = s.mem := by
  unfold State.fetchWord at e
  dsimp only at e
  split at e
  · cases e; rfl
  · split at e
    · cases e
    · cases e
    · split at e
      · split at e
        · cases e
        · cases e
          simp
      · split at e
        · cases e
        · cases e
          simp

theorem fetchWords_mem {n cx : Nat} {s t : State} {a : Word} {l : List IWord} (e : s.fetchWords cx a n = .ok l t) :
    t.mem = s.mem := by
  induction n generalizing s a l with
  | zero => cases e; rfl
  | succ n ih =>
    obtain ⟨w, r, s1, -, h1, h2⟩ := fetchWords_succ_ok e
    exact (ih h2).trans (fetchWord_mem h1)

@[simp] theorem fetchWait_mem (s : State) (cx : Nat) (a : Word) : (s.fetchWait cx a).mem = s.mem := rfl

@[simp] theorem illegal_wf (i : Instr) {s : State} (h : s.mem.wf = true) : outWf (illegal i s) := by
  simp [illegal, h]

@[simp] theorem startRefill_mem (s : State) (core p : Nat) : (s.startRefill core p).mem = s.mem := rfl

theorem pageFault_mem {s t : State} {core p part : Nat} {va : Word} {k : AccKind} {who : Requester}
    (e : s.pageFault core p part va k who = some t) : t.mem = s.mem :=
  queueFault_mem e

@[simp] theorem localPage_wf (i : Instr) (va : Word) (core p : Nat) (k : AccKind) (go busy : State → Out) {s : State}
    (h : s.mem.wf = true) (hgo : ∀ s : State, s.mem.wf = true → outWf (go s))
    (hbusy : ∀ s : State, s.mem.wf = true → outWf (busy s)) : outWf (localPage i va core p k go busy s) := by
  unfold localPage
  dsimp only
  split
  · exact hgo s h
  · simp [h]
  · simp [h]
  · split
    · next e => simp [pageFault_mem e, h]
    · simp [h]
  · simp [h, hbusy]

@[simp] theorem withLoc_wf (i : Instr) (ea : Word) (k : AccKind) {s : State} (go : Loc → Out) (h : s.mem.wf = true)
    (hgo : ∀ l, outWf (go l)) : outWf (withLoc i ea k s go) := by
  fun_cases withLoc i ea k s go <;> simp [h, hgo]

@[simp] theorem checked_wf (i : Instr) (ea : Word) (n : Nat) (k : AccKind) {s : State} (go : Loc → Out)
    (h : s.mem.wf = true) (hgo : ∀ l, outWf (go l)) : outWf (checked i ea n k s go) := by
  simp [checked, h, hgo]

@[simp] theorem ask_mem (s : State) (why : Nat) (r : Req) : (s.ask why r).mem = s.mem := rfl

@[simp] theorem access_wf (why : Nat) (r : Req) (l : Loc) (k : AccKind) (home : Req → State → HomeOut)
    (fin : Reply → State → State) {s : State} (h : s.mem.wf = true)
    (hhome : ∀ r (s : State), s.mem.wf = true → (home r s).1.mem.wf = true)
    (hfin : ∀ r (s : State), s.mem.wf = true → (fin r s).mem.wf = true) : outWf (access why r l k home fin s) := by
  unfold access
  split
  · split
    · refine localPage_wf _ _ _ _ _ _ _ h (fun s h => ?_) (fun s h => by simp [State.ask, h])
      have h1 := hhome r s h
      split
      · simp [State.ask, h]
      · split
        · next e => rw [e] at h1; exact hfin _ _ h1
        · next e => rw [e] at h1; simpa using h1
    · simp [State.ask, h]
  · simp [State.ask, h]

@[simp] theorem finishWith_mem (f : Reply → Ctx → Ctx) (rep : Reply) (s : State) :
    (finishWith f rep s).mem = s.mem := by
  fun_cases finishWith f rep s <;> simp

@[simp] theorem finishAcquiring_wf (i : Instr) (f : Reply → Ctx → Ctx) (rep : Reply) {s : State} (h : s.mem.wf = true) :
    (finishAcquiring i f rep s).mem.wf = true := by
  fun_cases finishAcquiring i f rep s <;> simp [h]

@[simp] theorem ownCopyOut_wf {s : State} (core : Nat) (l : Loc) (h : s.mem.wf = true) :
    (s.ownCopyOut core l).mem.wf = true := by
  fun_cases State.ownCopyOut s core l <;> simp [h]

@[simp] theorem ownCopyOutAt_wf {s : State} (core : Nat) (locs : List Nat) (h : s.mem.wf = true) :
    (s.ownCopyOutAt core locs).mem.wf = true := by
  fun_cases State.ownCopyOutAt s core locs <;> simp [h]

@[simp] theorem homeRead_mem (r : Req) (s : State) : (homeRead r s).1.mem = s.mem := by
  simp [homeRead]

@[simp] theorem withRelease_wf (r : Req) (k : State → HomeOut) {s : State} (h : s.mem.wf = true)
    (hk : ∀ s : State, s.mem.wf = true → (k s).1.mem.wf = true) : (withRelease r k s).1.mem.wf = true := by
  fun_cases withRelease r k s <;> simp [h, hk]

@[simp] theorem releasing_wf (r : Req) (k : State → State × Reply) {s : State} (h : s.mem.wf = true)
    (hk : ∀ s : State, s.mem.wf = true → (k s).1.mem.wf = true) : (releasing r k s).1.mem.wf = true := by
  simp +contextual [releasing, h, hk]

@[simp] theorem homeWrote_wf {s : State} (core : Nat) (locs : List Nat) (h : s.mem.wf = true) :
    (s.homeWrote core locs).mem.wf = true := by
  fun_cases State.homeWrote s core locs <;> simp [h]

@[simp] theorem homeWriteReq_wf (v : Nat) (r : Req) {s : State} (h : s.mem.wf = true) :
    (homeWriteReq v r s).1.mem.wf = true := by
  unfold homeWriteReq
  split
  · exact h
  · split
    · exact h
    · exact releasing_wf _ _ h fun s h => by simp [h]

@[simp] theorem atomicRelease_wf {s : State} (rel : Bool) (sc : Scope) (l : Loc) (h : s.mem.wf = true) :
    (s.atomicRelease rel sc l).2.mem.wf = true := by
  simp [State.atomicRelease, h]

@[simp] theorem atomicAccess_wf (i : Instr) (ea : Word) (n : Nat) (rel : Bool) (sc : Scope) (vals : List Nat)
    (home : Req → State → HomeOut) (fin : Reply → State → State) {s : State} (h : s.mem.wf = true)
    (hhome : ∀ r (s : State), s.mem.wf = true → (home r s).1.mem.wf = true)
    (hfin : ∀ r (s : State), s.mem.wf = true → (fin r s).mem.wf = true) :
    outWf (atomicAccess i ea n rel sc vals home fin s) := by
  unfold atomicAccess
  refine checked_wf _ _ _ _ _ h fun l => ?_
  dsimp only
  split
  · split
    · split
      · exact localPage_wf _ _ _ _ _ _ _ h (fun s h => trap_wf _ _ h) (fun s h => trap_wf _ _ h)
      · exact trap_wf _ _ h
    · exact trap_wf _ _ h
  · exact afterRelease_wf _ _ _ _ _ h fun s h => access_wf _ _ _ _ _ _ (by simp [h]) hhome hfin

@[simp] theorem homeAmo_wf (new : Nat → Option Nat) (r : Req) {s : State} (h : s.mem.wf = true) :
    (homeAmo new r s).1.mem.wf = true := by
  unfold homeAmo
  dsimp only
  split
  · exact h
  · split
    · simp [h]
    · refine releasing_wf _ _ (by simp [h]) fun s h => ?_
      have h1 := ownCopyOutAt_wf (coreOf r.cx) r.locs h
      dsimp only
      split <;> simp [h1]

@[simp] theorem endAmo_wf (i : Instr) (sx : Bool) (dbl acq : Bool) (sc : Scope) (d : GReg) (rep : Reply) {s : State}
    (h : s.mem.wf = true) : (endAmo i sx dbl acq sc d rep s).mem.wf = true := by
  simp [endAmo, h]

@[simp] theorem homeAmoOp_wf (op : AmoOp) (dbl : Bool) (r : Req) {s : State} (h : s.mem.wf = true) :
    (homeAmoOp op dbl r s).1.mem.wf = true := by
  simp [homeAmoOp, h]

@[simp] theorem endAmoOp_wf (op : AmoOp) (dbl : Bool) (o : Ord4) (sc : Scope) (d a b : GReg) (x : Reply) {s : State}
    (h : s.mem.wf = true) : (endAmoOp op dbl o sc d a b x s).mem.wf = true := by
  simp [endAmoOp, h]

@[simp] theorem execAmo_wf (op : AmoOp) (dbl : Bool) (o : Ord4) (sc : Scope) (d a b : GReg) {s : State}
    (h : s.mem.wf = true) : outWf (execAmo op dbl o sc d a b s) := by
  simp +contextual [execAmo, h]

@[simp] theorem homeAmoSwap_wf (r : Req) {s : State} (h : s.mem.wf = true) : (homeAmoSwap r s).1.mem.wf = true := by
  simp [homeAmoSwap, h]

@[simp] theorem endAmoSwap_wf (dbl : Bool) (o : Ord4) (sc : Scope) (d a b : GReg) (x : Reply) {s : State}
    (h : s.mem.wf = true) : (endAmoSwap dbl o sc d a b x s).mem.wf = true := by
  simp [endAmoSwap, h]

@[simp] theorem execAmoSwap_wf (dbl : Bool) (o : Ord4) (sc : Scope) (d a b : GReg) {s : State} (h : s.mem.wf = true) :
    outWf (execAmoSwap dbl o sc d a b s) := by
  simp +contextual [execAmoSwap, h]

@[simp] theorem homeAmoCas_wf (r : Req) {s : State} (h : s.mem.wf = true) : (homeAmoCas r s).1.mem.wf = true := by
  simp [homeAmoCas, h]

@[simp] theorem endAmoCas_wf (dbl : Bool) (o : Ord4) (sc : Scope) (d a b c : GReg) (x : Reply) {s : State}
    (h : s.mem.wf = true) : (endAmoCas dbl o sc d a b c x s).mem.wf = true := by
  simp [endAmoCas, h]

@[simp] theorem execAmoCas_wf (dbl : Bool) (o : Ord4) (sc : Scope) (d a b c : GReg) {s : State} (h : s.mem.wf = true) :
    outWf (execAmoCas dbl o sc d a b c s) := by
  simp +contextual [execAmoCas, h]

@[simp] theorem reserve_mem (s : State) (r : Req) : (s.reserve r).mem = s.mem := by
  simp [State.reserve]

@[simp] theorem homeResv_wf (r : Req) {s : State} (h : s.mem.wf = true) : (homeResv r s).1.mem.wf = true := by
  simp +contextual [homeResv, h]

@[simp] theorem endResv_wf (dbl acq : Bool) (sc : Scope) (d a : GReg) (rep : Reply) {s : State} (h : s.mem.wf = true) :
    (endResv dbl acq sc d a rep s).mem.wf = true := by
  simp [endResv, h]

@[simp] theorem execResv_wf (dbl acq : Bool) (sc : Scope) (d a : GReg) {s : State} (h : s.mem.wf = true) :
    outWf (execResv dbl acq sc d a s) := by
  simp +contextual [execResv, h]

@[simp] theorem passWord_mem (s : State) (ended : ResvQ → Bool) : (s.passWord ended).mem = s.mem := rfl

@[simp] theorem homeRlse_wf (r : Req) {s : State} (h : s.mem.wf = true) : (homeRlse r s).1.mem.wf = true := by
  unfold homeRlse
  split
  · exact h
  · split
    · split
      · exact h
      · exact releasing_wf _ _ h fun s h => by simp [h]
    · exact releasing_wf _ _ h fun s h => by simp [h]

@[simp] theorem endRlse_mem (d : Reg8) (x : Reply) (s : State) : (endRlse d x s).mem = s.mem := by
  simp [endRlse]

@[simp] theorem execRlse_wf (dbl rel : Bool) (sc : Scope) (d : Reg8) (a b : GReg) {s : State} (h : s.mem.wf = true) :
    outWf (execRlse dbl rel sc d a b s) := by
  unfold execRlse
  refine checked_wf _ _ _ _ _ h fun l => afterRelease_wf _ _ _ _ _ h fun s h => ?_
  dsimp only
  split
  · split
    · exact trap_wf _ _ h
    · exact retire_wf _ (by simp [h])
  · split
    · split
      · refine localPage_wf _ _ _ _ _ _ _ (by simp [h]) (fun s h => ?_) (fun s h => by simp [h])
        split
        · next e =>
          have h1 := wf_of_fst (homeRlse_wf _ h) e
          simp [h1]
        · next e =>
          have h1 := wf_of_fst (homeRlse_wf _ h) e
          simp [h1]
      · simp [h]
    · simp [h]

end Sys2Proof.Machine
end

section
/-! The memory in canonical form: power, contexts, control transfers and fleeting tiles. -/
namespace Sys2Proof.Machine

@[simp] theorem execTime_wf (d : GReg) {s : State} (h : s.mem.wf = true) : outWf (execTime d s) :=
  retire_wf _ h

@[simp] theorem execCyc_wf (d : GReg) {s : State} (h : s.mem.wf = true) : outWf (execCyc d s) :=
  retire_wf _ h

@[simp] theorem execPwrq_wf (d a : GReg) {s : State} (h : s.mem.wf = true) : outWf (execPwrq d a s) :=
  retire_wf _ h

@[simp] theorem execPstat_wf (d : GReg) {s : State} (h : s.mem.wf = true) : outWf (execPstat d s) :=
  retire_wf _ h

@[simp] theorem execOpMoveStart_wf {s : State} (h : s.mem.wf = true) : outWf (execOpMoveStart s) := by
  simp [execOpMoveStart, h]

@[simp] theorem execOpMoveEnd_wf {s : State} (h : s.mem.wf = true) : outWf (execOpMoveEnd s) := by
  simp [execOpMoveEnd, h]

@[simp] theorem execDroopTrip_wf {s : State} (h : s.mem.wf = true) : outWf (execDroopTrip s) := by
  simp [execDroopTrip, h]

@[simp] theorem execDroopStretchEnd_wf {s : State} (h : s.mem.wf = true) : outWf (execDroopStretchEnd s) := by
  simp [execDroopStretchEnd, h]

@[simp] theorem execDroopWithdrawalEnd_wf {s : State} (h : s.mem.wf = true) : outWf (execDroopWithdrawalEnd s) := by
  simp [execDroopWithdrawalEnd, h]

@[simp] theorem execCurrentLimitTrip_wf {s : State} (h : s.mem.wf = true) : outWf (execCurrentLimitTrip s) := by
  simp [execCurrentLimitTrip, h]

@[simp] theorem execCurrentLimitRelease_wf {s : State} (h : s.mem.wf = true) : outWf (execCurrentLimitRelease s) := by
  simp [execCurrentLimitRelease, h]

@[simp] theorem modQuadsOfDie_mem (s : State) (die : Nat) (f : Quad → Quad) : (s.modQuadsOfDie die f).mem = s.mem := rfl

@[simp] theorem execThermalTrip_wf {s : State} (h : s.mem.wf = true) : outWf (execThermalTrip s) := by
  simp [execThermalTrip, h]

@[simp] theorem execThermalTripEnd_wf {s : State} (h : s.mem.wf = true) : outWf (execThermalTripEnd s) := by
  simp [execThermalTripEnd, h]

@[simp] theorem execWatchdogExpiry_wf {s : State} (h : s.mem.wf = true) : outWf (execWatchdogExpiry s) := by
  simp [execWatchdogExpiry, h]

@[simp] theorem execLanternSignal_wf {s : State} (h : s.mem.wf = true) : outWf (execLanternSignal s) := by
  simp [execLanternSignal, h]

@[simp] theorem execLanternPolicyAction_wf (quad ceil wd : Nat) {s : State} (h : s.mem.wf = true) :
    outWf (execLanternPolicyAction quad ceil wd s) := by
  simp [execLanternPolicyAction, h]

@[simp] theorem execCapMessage_wf (seq : BitVec 32) (watts : Nat) {s : State} (h : s.mem.wf = true) :
    outWf (execCapMessage seq watts s) := by
  simp [execCapMessage, h]

@[simp] theorem execLeaseExpiry_wf {s : State} (h : s.mem.wf = true) : outWf (execLeaseExpiry s) := by
  simp [execLeaseExpiry, h]

@[simp] theorem execLanternRestart_wf {s : State} (h : s.mem.wf = true) : outWf (execLanternRestart s) := by
  simp [execLanternRestart, h]

@[simp] theorem newCycle_mem (s : State) (q : Nat) : (s.newCycle q).mem = s.mem := by
  unfold State.newCycle execDroopStretchEnd execDroopWithdrawalEnd
  dsimp only
  split
  · simp
  · split
    · simp
    · split
      · simp
      · split <;> simp

@[simp] theorem period_mem (s : State) (q : Nat) : (s.period q).1.mem = s.mem := by
  simp [State.period]

@[simp] theorem boundary_mem (s : State) (q : Nat) (tick : Bool) : (s.boundary q tick).1.mem = s.mem := by
  unfold State.boundary
  split
  · exact period_mem s q
  · simp
  · unfold execOpMoveEnd
    simp

@[simp] theorem clockQuad_mem (s : State) (q : Nat) (tick : Bool) : (s.clockQuad q tick).1.mem = s.mem := by
  simp [State.clockQuad]

@[simp] theorem listRefused_mem (s : State) (core : Nat) (e : BitVec 32 × BitVec 32) :
    (s.listRefused core e).mem = s.mem := rfl

@[simp] theorem countStart_mem (s : State) (from_ : Sender) (core : Nat) : (s.countStart from_ core).mem = s.mem := by
  fun_cases State.countStart s from_ core <;> simp

@[simp] theorem takeSpawn_mem (s : State) (m : SpawnMsg) : (s.takeSpawn m).mem = s.mem := by
  fun_cases State.takeSpawn s m <;> simp +zetaDelta

@[simp] theorem execSpawnMessage_wf {s : State} (h : s.mem.wf = true) : outWf (execSpawnMessage s) := by
  fun_cases execSpawnMessage s <;> simp [h]

@[simp] theorem answered_mem (s : State) (cx reason : Nat) : (s.answered cx reason).mem = s.mem := rfl

@[simp] theorem answerCtx_mem (s : State) (cx : Nat) (tid : BitVec 32) (reason : Nat) :
    (s.answerCtx cx tid reason).mem = s.mem := by
  fun_cases State.answerCtx s cx tid reason <;> simp

@[simp] theorem execSpawn_wf (d : Reg8) (a b c : GReg) {s : State} (h : s.mem.wf = true) :
    outWf (execSpawn d a b c s) := by
  fun_cases execSpawn d a b c s <;> simp [h]

@[simp] theorem execQuit_wf {s : State} (h : s.mem.wf = true) : outWf (execQuit s) := by
  simp [execQuit, h]

@[simp] theorem refillReap_mem (s : State) (core : Nat) : (s.refillReap core).mem = s.mem := by
  fun_cases State.refillReap s core <;> simp

@[simp] theorem execReap_wf (d : GReg) (c : Reg8) {s : State} (h : s.mem.wf = true) : outWf (execReap d c s) := by
  unfold execReap
  refine privileged_wf _ _ h fun s h => ?_
  split
  · exact illegal_wf _ h
  · split
    · exact retire_wf _ (by simp [h])
    · exact retire_wf _ h

@[simp] theorem execKill_wf (d : Reg8) (a : GReg) {s : State} (h : s.mem.wf = true) : outWf (execKill d a s) := by
  simp +contextual [execKill, h]

@[simp] theorem endCfw_mem (s : State) (cx : Nat) (d : Reg8) : (s.endCfw cx d).mem = s.mem := rfl

@[simp] theorem execCfw_wf (d : Reg8) {s : State} (h : s.mem.wf = true) : outWf (execCfw d s) := by
  fun_cases execCfw d s <;> simp [h]

@[simp] theorem wakeCfw_mem (s : State) (cx : Nat) : (s.wakeCfw cx).mem = s.mem := by
  fun_cases State.wakeCfw s cx <;> simp

@[simp] theorem noticeCtx_mem (s : State) (cx : Nat) (tid : BitVec 32) : (s.noticeCtx cx tid).mem = s.mem := by
  simp [State.noticeCtx]

@[simp] theorem execRefusalTimerExpiry_wf {s : State} (h : s.mem.wf = true) : outWf (execRefusalTimerExpiry s) := by
  simp [execRefusalTimerExpiry, h]

@[simp] theorem execYield_wf (n : BitVec 4) {s : State} (h : s.mem.wf = true) : outWf (execYield n s) := by
  simp [execYield, h]

@[simp] theorem execYieldExpiry_wf {s : State} (h : s.mem.wf = true) : outWf (execYieldExpiry s) := by
  fun_cases execYieldExpiry s <;> simp [h]

@[simp] theorem execCtxs_wf (d a : GReg) {s : State} (h : s.mem.wf = true) : outWf (execCtxs d a s) :=
  retire_wf _ h

@[simp] theorem refuseMig_wf (reason : Nat) {s : State} (h : s.mem.wf = true) : outWf (refuseMig reason s) := by
  simp [refuseMig, h]

@[simp] theorem execMig_wf (a : GReg) {s : State} (h : s.mem.wf = true) : outWf (execMig a s) := by
  unfold execMig
  refine privileged_wf _ _ h fun s h => ?_
  split
  · exact refuseMig_wf _ h
  · split
    · exact trap_wf _ _ h
    · refine withLoc_wf _ _ _ _ h fun l => ?_
      split
      · split
        · exact refuseMig_wf _ h
        · split
          · simp [h]
          · exact afterWriteBack_wf _ _ _ h fun s h => by simp [h]
      · exact refuseMig_wf _ h

@[simp] theorem execMigrationMessage_wf {s : State} (h : s.mem.wf = true) : outWf (execMigrationMessage s) := by
  fun_cases execMigrationMessage s <;> simp +zetaDelta [h]

@[simp] theorem countGone_mem (s : State) (launch : Option Nat) (core : Nat) :
    (s.countGone launch core).mem = s.mem := by
  fun_cases State.countGone s launch core <;> simp

@[simp] theorem execMigrationAccept_wf {s : State} (h : s.mem.wf = true) : outWf (execMigrationAccept s) := by
  fun_cases execMigrationAccept s <;> simp +zetaDelta [h]

@[simp] theorem moveTid_mem (s : State) (tid : BitVec 32) (dest : Nat) : (s.moveTid tid dest).mem = s.mem := rfl

@[simp] theorem execMigrationCommit_wf {s : State} (h : s.mem.wf = true) : outWf (execMigrationCommit s) := by
  fun_cases execMigrationCommit s <;> simp +zetaDelta [h]

@[simp] theorem execMigrationAbort_wf {s : State} (h : s.mem.wf = true) : outWf (execMigrationAbort s) := by
  fun_cases execMigrationAbort s <;> simp +zetaDelta [h]

@[simp] theorem transfer_wf (t : Word) (link : Option GReg) {s : State} (h : s.mem.wf = true) :
    outWf (transfer t link s) := by
  simp [transfer, h]

@[simp] theorem transferReg_wf (t : Word) (link : Option GReg) {s : State} (h : s.mem.wf = true) :
    outWf (transferReg t link s) := by
  simp [transferReg, h]

@[simp] theorem execBr_wf (p : Reg8) (neg : Bool) (o : BitVec 22) {s : State} (h : s.mem.wf = true) :
    outWf (execBr p neg o s) := by
  simp [execBr, h]

@[simp] theorem execJmp_wf (o : BitVec 22) {s : State} (h : s.mem.wf = true) : outWf (execJmp o s) := by
  simp [execJmp, h]

@[simp] theorem execJal_wf (d : GReg) (o : BitVec 22) {s : State} (h : s.mem.wf = true) : outWf (execJal d o s) := by
  simp [execJal, h]

@[simp] theorem execJr_wf (a : GReg) (i : BitVec 18) {s : State} (h : s.mem.wf = true) : outWf (execJr a i s) := by
  simp [execJr, h]

@[simp] theorem execJalr_wf (d a : GReg) (i : BitVec 18) {s : State} (h : s.mem.wf = true) :
    outWf (execJalr d a i s) := by
  simp [execJalr, h]

@[simp] theorem startFrame_wf (len : BitVec 4) (stride fsel : BitVec 3) (n : BitVec 32) {s : State}
    (h : s.mem.wf = true) : outWf (startFrame len stride fsel n s) := by
  unfold startFrame
  dsimp only
  split
  · exact trap_wf _ _ h
  · simp [h]
  · next e =>
    have h1 := (congrArg Memory.wf (fetchWords_mem e)).trans h
    split
    · exact trap_wf _ _ h1
    · exact h1

@[simp] theorem execRpt_wf (len : BitVec 4) (stride fsel : BitVec 3) (cnt : BitVec 15) {s : State} (h : s.mem.wf = true)
    : outWf (execRpt len stride fsel cnt s) := by
  simp [execRpt, h]

@[simp] theorem execRptReg_wf (len : BitVec 4) (stride fsel : BitVec 3) (g : GReg) {s : State} (h : s.mem.wf = true) :
    outWf (execRptReg len stride fsel g s) := by
  simp [execRptReg, h]

@[simp] theorem dropTile_mem (s : State) (t : Nat) : (s.dropTile t).mem = s.mem := rfl

@[simp] theorem fleetRead_mem (s : State) (locs : List Nat) (tid : BitVec 32) (part : Nat) :
    (s.fleetRead locs tid part).1.mem = s.mem := by
  simp [State.fleetRead]

@[simp] theorem fleetWrite_wf {s : State} (locs : List Nat) (part v : Nat) (h : s.mem.wf = true) :
    (s.fleetWrite locs part v).1.mem.wf = true := by
  simp [State.fleetWrite, h]

@[simp] theorem fleetAccess_wf (i : Instr) (ea : Word) (n : Nat) (k : AccKind) (vals : List Nat) {s : State}
    (h : s.mem.wf = true) : outWf (fleetAccess i ea n k vals s) := by
  simp [fleetAccess, h]

@[simp] theorem homeLdf_mem (r : Req) (s : State) : (homeLdf r s).1.mem = s.mem := by
  simp [homeLdf]

@[simp] theorem endLdf_mem (z : Sz) (sx : Bool) (d : GReg) (c : Reg8) (x : Reply) (s : State) :
    (endLdf z sx d c x s).mem = s.mem := by
  simp [endLdf]

@[simp] theorem execLdf_wf (z : Sz) (sx : Bool) (d a : GReg) (c : Reg8) {s : State} (h : s.mem.wf = true) :
    outWf (execLdf z sx d a c s) := by
  simp [execLdf, h]

@[simp] theorem execLdfIndexed_wf (z : Sz) (sx : Bool) (d a b : GReg) (c : Reg8) {s : State} (h : s.mem.wf = true) :
    outWf (execLdfIndexed z sx d a b c s) := by
  simp [execLdfIndexed, h]

@[simp] theorem homeStf_wf (r : Req) {s : State} (h : s.mem.wf = true) : (homeStf r s).1.mem.wf = true := by
  simp [homeStf, h]

@[simp] theorem endFleet_mem (x : Reply) (s : State) : (endFleet x s).mem = s.mem := by
  simp [endFleet]

@[simp] theorem execStf_wf (z : Sz) (d a : GReg) {s : State} (h : s.mem.wf = true) : outWf (execStf z d a s) := by
  simp [execStf, h]

@[simp] theorem execStfIndexed_wf (z : Sz) (d a b : GReg) {s : State} (h : s.mem.wf = true) :
    outWf (execStfIndexed z d a b s) := by
  simp [execStfIndexed, h]

@[simp] theorem homeRnw_wf (r : Req) {s : State} (h : s.mem.wf = true) : (homeRnw r s).1.mem.wf = true := by
  simp [homeRnw, h]

@[simp] theorem execRnw_wf (d a : GReg) {s : State} (h : s.mem.wf = true) : outWf (execRnw d a s) := by
  simp [execRnw, h]

@[simp] theorem homeLife_mem (r : Req) (s : State) : (homeLife r s).1.mem = s.mem := by
  simp [homeLife]

@[simp] theorem execLife_wf (d a : GReg) {s : State} (h : s.mem.wf = true) : outWf (execLife d a s) := by
  simp [execLife, h]

@[simp] theorem homeFdrop_mem (r : Req) (s : State) : (homeFdrop r s).1.mem = s.mem := rfl

@[simp] theorem execFdrop_wf (a : GReg) {s : State} (h : s.mem.wf = true) : outWf (execFdrop a s) := by
  simp [execFdrop, h]

@[simp] theorem homeLifeSet_mem (r : Req) (s : State) : (homeLifeSet r s).1.mem = s.mem := rfl

@[simp] theorem endLifeSet_mem (rep : Reply) (s : State) : (endLifeSet rep s).mem = s.mem := by
  fun_cases endLifeSet rep s <;> simp

@[simp] theorem execLifeSet_wf (a b : GReg) {s : State} (h : s.mem.wf = true) : outWf (execLifeSet a b s) := by
  unfold execLifeSet
  dsimp only
  split
  · exact trap_wf _ _ h
  · refine withLoc_wf _ _ _ _ h fun l => ?_
    split
    · exact illegal_wf _ h
    · split
      · simp [h]
      · exact trap_wf _ _ h

@[simp] theorem execTileExpiry_wf {s : State} (h : s.mem.wf = true) : outWf (execTileExpiry s) := by
  simp [execTileExpiry, h]

end Sys2Proof.Machine
end

section
/-! The memory in canonical form: synchronization objects. -/
namespace Sys2Proof.Machine

@[simp] theorem objAccess_wf (i : Instr) (a : GReg) (vals : List Nat) (sig : Option (Sig × Scope))
    (home : Req → State → HomeOut) (fin : Reply → State → State) {s : State} (h : s.mem.wf = true)
    (hhome : ∀ r (s : State), s.mem.wf = true → (home r s).1.mem.wf = true)
    (hfin : ∀ r (s : State), s.mem.wf = true → (fin r s).mem.wf = true) :
    outWf (objAccess i a vals sig home fin s) := by
  unfold objAccess
  dsimp only
  split
  · exact trap_wf _ _ h
  · split
    · exact trap_wf _ _ h
    · exact withLoc_wf _ _ _ _ h fun l => access_wf _ _ _ _ _ _ h hhome hfin

@[simp] theorem withObj_wf (r : Req) (ok : SoKind → Bool) {s : State} (k : Nat → SObj → State → HomeOut)
    (h : s.mem.wf = true) (hk : ∀ n o (s : State), s.mem.wf = true → (k n o s).1.mem.wf = true) :
    (withObj r ok s k).1.mem.wf = true := by
  fun_cases withObj r ok s k <;> simp [h, hk]

@[simp] theorem withObjRelease_wf (r : Req) (o : SObj) {s : State} (k : Sig → State → HomeOut) (h : s.mem.wf = true)
    (hk : ∀ g (s : State), s.mem.wf = true → (k g s).1.mem.wf = true) : (withObjRelease r o s k).1.mem.wf = true := by
  simp [withObjRelease, h, hk]

theorem answered?_mem {r : Req} {line : Nat} {o : SObj} {s t : State} {rep : Option Reply}
    (e : answered? r line o s = some (t, rep)) : t.mem = s.mem := by
  unfold answered? at e
  split at e
  · cases e; rfl
  · split at e
    · cases e; rfl
    · split at e <;> cases e
      rfl

theorem answered?_wf {r : Req} {line : Nat} {o : SObj} {s t : State} {rep : Option Reply}
    (e : answered? r line o s = some (t, rep)) (h : s.mem.wf = true) : t.mem.wf = true := by
  rw [answered?_mem e]
  exact h

@[simp] theorem endObjAcquire_wf {s : State} (cx : Nat) (i : Instr) (next : Word) (g : Sig) (f : Ctx → Ctx)
    (h : s.mem.wf = true) : (s.endObjAcquire cx i next g f).mem.wf = true := by
  simp [State.endObjAcquire, h]

@[simp] theorem onReply_wf (rep : Reply) {s : State} (k : State → State) (h : s.mem.wf = true)
    (hk : ∀ s : State, s.mem.wf = true → (k s).mem.wf = true) : (onReply rep s k).mem.wf = true := by
  fun_cases onReply rep s k <;> simp [h, hk]

@[simp] theorem homeSinit_wf (k : SoKind) (sc : Scope) (r : Req) {s : State} (h : s.mem.wf = true) :
    (homeSinit k sc r s).1.mem.wf = true := by
  simp [homeSinit, h]

@[simp] theorem endG_mem (d : GReg) (x : Reply) (s : State) : (endG d x s).mem = s.mem := by
  simp [endG]

@[simp] theorem execSinit_wf (k : SoKind) (sc : Scope) (d a : GReg) {s : State} (h : s.mem.wf = true) :
    outWf (execSinit k sc d a s) := by
  simp +contextual [execSinit, h]

@[simp] theorem homeSfin_wf (r : Req) {s : State} (h : s.mem.wf = true) : (homeSfin r s).1.mem.wf = true := by
  simp [homeSfin, h]

@[simp] theorem endP_mem (d : Reg8) (x : Reply) (s : State) : (endP d x s).mem = s.mem := by
  simp [endP]

@[simp] theorem execSfin_wf (d : Reg8) (a : GReg) {s : State} (h : s.mem.wf = true) : outWf (execSfin d a s) := by
  simp +contextual [execSfin, h]

@[simp] theorem homeSmode_mem (r : Req) (s : State) : (homeSmode r s).1.mem = s.mem := by
  fun_cases homeSmode r s <;> simp

@[simp] theorem execSmode_wf (d a : GReg) {s : State} (h : s.mem.wf = true) : outWf (execSmode d a s) := by
  simp [execSmode, h]

@[simp] theorem homeSlock_wf (r : Req) {s : State} (h : s.mem.wf = true) : (homeSlock r s).1.mem.wf = true :=
  withObj_wf _ _ _ h fun _ _ _ h => by
    split
    · next e => exact answered?_wf e h
    · exact h

@[simp] theorem homeSlockCall_wf (kind : TKind) (r : Req) {s : State} (h : s.mem.wf = true) :
    (homeSlockCall kind r s).1.mem.wf = true := by
  unfold homeSlockCall
  refine withObj_wf _ _ _ h fun _ _ s h => ?_
  dsimp only
  split
  · exact h
  · split
    · exact h
    · split
      · next e => exact answered?_wf e h
      · simp [h]

@[simp] theorem endSlock_wf (a : GReg) (rep : Reply) {s : State} (h : s.mem.wf = true) :
    (endSlock a rep s).mem.wf = true := by
  simp +contextual [endSlock, h]

@[simp] theorem execSlock_wf (a : GReg) {s : State} (h : s.mem.wf = true) : outWf (execSlock a s) := by
  simp +contextual [execSlock, h]

@[simp] theorem endCall_wf {s : State} (cx : Nat) (i : Instr) (g : Sig) (reply : Option Word) (h : s.mem.wf = true) :
    (s.endCall cx i g reply).mem.wf = true := by
  fun_cases State.endCall s cx i g reply <;> simp [h]

@[simp] theorem endSlockCall_wf (d a : GReg) (rep : Reply) {s : State} (h : s.mem.wf = true) :
    (endSlockCall d a rep s).mem.wf = true := by
  simp +contextual [endSlockCall, h]

@[simp] theorem execSlockCall_wf (d a : GReg) {s : State} (h : s.mem.wf = true) : outWf (execSlockCall d a s) := by
  simp +contextual [execSlockCall, h]

@[simp] theorem homeSunlk_wf (r : Req) {s : State} (h : s.mem.wf = true) : (homeSunlk r s).1.mem.wf = true := by
  unfold homeSunlk
  refine withObj_wf _ _ _ h fun _ o s h => ?_
  split
  · split
    · exact h
    · refine withObjRelease_wf _ _ _ h fun g s h => ?_
      dsimp only
      split
      · simp [h]
      · split <;> simp [h]
  · exact h

@[simp] theorem endSunlk_wf (a : GReg) (rep : Reply) {s : State} (h : s.mem.wf = true) :
    (endSunlk a rep s).mem.wf = true := by
  unfold endSunlk
  refine onReply_wf _ _ h fun s h => ?_
  dsimp only
  rw [ite_mem, goTo_mem, State.setCtx_mem, State.setCtx_mem, ite_self]
  split <;> exact h

@[simp] theorem execSunlk_wf (a : GReg) {s : State} (h : s.mem.wf = true) : outWf (execSunlk a s) := by
  simp +contextual [execSunlk, h]

@[simp] theorem homePush_wf (d : GReg) (eos : Bool) (r : Req) (line : Nat) (o : SObj) {s : State} (h : s.mem.wf = true)
    : (homePush d eos r line o s).1.mem.wf = true := by
  unfold homePush
  dsimp only
  split
  · exact h
  · split
    · next e => exact answered?_wf e h
    · split
      · exact h
      · exact withObjRelease_wf _ _ _ h fun g s h => by simp [h]

@[simp] theorem homeSarr_wf (d : GReg) (r : Req) {s : State} (h : s.mem.wf = true) :
    (homeSarr d r s).1.mem.wf = true := by
  simp +contextual [homeSarr, h]

@[simp] theorem endSarr_mem (d : GReg) (x : Reply) (s : State) : (endSarr d x s).mem = s.mem := by
  simp [endSarr]

@[simp] theorem execSarr_wf (d a : GReg) {s : State} (h : s.mem.wf = true) : outWf (execSarr d a s) := by
  simp +contextual [execSarr, h]

@[simp] theorem homeSarrEos_wf (d : GReg) (r : Req) {s : State} (h : s.mem.wf = true) :
    (homeSarrEos d r s).1.mem.wf = true := by
  simp +contextual [homeSarrEos, h]

@[simp] theorem execSarrEos_wf (d a : GReg) {s : State} (h : s.mem.wf = true) : outWf (execSarrEos d a s) := by
  simp +contextual [execSarrEos, h]

@[simp] theorem homeSexp_wf (r : Req) {s : State} (h : s.mem.wf = true) : (homeSexp r s).1.mem.wf = true := by
  simp [homeSexp, h]

@[simp] theorem execSexp_wf (d a : GReg) {s : State} (h : s.mem.wf = true) : outWf (execSexp d a s) := by
  simp +contextual [execSexp, h]

@[simp] theorem homeSwait_wf (d : GReg) (r : Req) {s : State} (h : s.mem.wf = true) :
    (homeSwait d r s).1.mem.wf = true := by
  unfold homeSwait
  refine withObj_wf _ _ _ h fun line o s h => ?_
  by_cases hk : o.kind = .bar
  · rw [if_pos hk]
    rcases ha : answered? r line o s with _ | ⟨t, rep⟩
    · rcases o.await r.cx r.tid (r.vals.headD 0) with ⟨o1, _ | ⟨st, g⟩⟩ <;> exact h
    · exact answered?_wf ha h
  · rw [if_neg hk]
    split
    · exact h
    · split
      · next e => exact answered?_wf e h
      · next e => exact answered?_wf e h
      · rcases o.pop r.cx r.tid with ⟨o1, w, _ | ⟨v, st, g⟩⟩ <;> simp [h]

@[simp] theorem endSwait_wf (d a : GReg) (rep : Reply) {s : State} (h : s.mem.wf = true) :
    (endSwait d a rep s).mem.wf = true := by
  simp +contextual [endSwait, h]

@[simp] theorem execSwait_wf (d a : GReg) {s : State} (h : s.mem.wf = true) : outWf (execSwait d a s) := by
  simp +contextual [execSwait, h]

@[simp] theorem wake_wf {s : State} (cx : Nat) (tid : BitVec 32) (line : Nat) (ring : Bool) (g : Sig) (v st : Word)
    (h : s.mem.wf = true) : (s.wake cx tid line ring g v st).mem.wf = true := by
  fun_cases State.wake s cx tid line ring g v st <;> simp [h]

@[simp] theorem oweWake_mem (s : State) (line cx : Nat) (tid : BitVec 32) (g : Sig) (v st : Word) :
    (s.oweWake line cx tid g v st).mem = s.mem := by
  fun_cases State.oweWake s line cx tid g v st <;> simp

@[simp] theorem execDelegatedReply_wf {s : State} (h : s.mem.wf = true) : outWf (execDelegatedReply s) := by
  fun_cases execDelegatedReply s <;> simp +zetaDelta [h]

@[simp] theorem engWake_mem (s : State) (id : Nat) (g : Sig) : (s.engWake id g).mem = s.mem := rfl

@[simp] theorem execSoWake_wf {s : State} (h : s.mem.wf = true) : outWf (execSoWake s) := by
  fun_cases execSoWake s <;> simp +zetaDelta [h]

@[simp] theorem execSoPoll_wf {s : State} (h : s.mem.wf = true) : outWf (execSoPoll s) := by
  fun_cases execSoPoll s <;> simp +zetaDelta [h]

@[simp] theorem windowEnd_mem (s : State) (line : Nat) : (s.windowEnd line).mem = s.mem := by
  fun_cases State.windowEnd s line <;> simp

@[simp] theorem execSoWindowBoundary_wf {s : State} (h : s.mem.wf = true) : outWf (execSoWindowBoundary s) := by
  simp [execSoWindowBoundary, h]

@[simp] theorem judge_mem (s : State) (line : Nat) : (s.judge line).mem = s.mem := by
  fun_cases State.judge s line <;> simp

@[simp] theorem keptWindows_mem (s : State) : (s.keptWindows).mem = s.mem := rfl

@[simp] theorem objectsEnd_mem (s : State) : (s.objectsEnd).mem = s.mem := by
  simp [State.objectsEnd, foldl_mem]

end Sys2Proof.Machine
end

section
/-! The memory in canonical form: the units' own accesses, engines, fences, floating point and pages. -/
namespace Sys2Proof.Machine

@[simp] theorem takeHead_mem (s : State) (core page : Nat) (who : Requester) :
    (s.takeHead core page who).mem = s.mem := by
  simp [State.takeHead]

@[simp] theorem unhead_mem (s : State) (who : Requester) : (s.unhead who).mem = s.mem := by
  simp [State.unhead]

@[simp] theorem unitDone_mem (s : State) (who : Requester) : (s.unitDone who).mem = s.mem := by
  simp [State.unitDone]

@[simp] theorem unitWait_mem (s : State) (who : Requester) (core part : Nat) (p : Plan) :
    (s.unitWait who core part p).mem = s.mem := by
  unfold State.unitWait
  split
  · simp
  · exact (queueFault_getD_mem ..).trans (takeHead_mem ..)
  · simp
  · simp
  all_goals rfl

@[simp] theorem readPage_mem (tid : BitVec 32) (part : Nat) (x : UnitRead) (locs : List Nat) :
    (readPage tid part x locs).s.mem = x.s.mem := by
  unfold readPage
  split <;> simp

theorem readPages_mem (tid : BitVec 32) (part : Nat) (l : List (List Nat)) (x : UnitRead) :
    (l.foldl (readPage tid part) x).s.mem = x.s.mem := by
  induction l generalizing x with
  | nil => rfl
  | cons a l ih => exact (ih _).trans (readPage_mem ..)

@[simp] theorem unitRead_mem (s : State) (locs : List Nat) (tid : BitVec 32) (part : Nat) :
    (s.unitRead locs tid part).1.mem = s.mem :=
  readPages_mem ..

@[simp] theorem engPut_mem (s : State) (c : EngCmd) : (s.engPut c).mem = s.mem := rfl

@[simp] theorem engIssue_wf (i : Instr) {s : State} (h : s.mem.wf = true) : outWf (engIssue i s) := by
  fun_cases engIssue i s <;> simp [h]

@[simp] theorem execCpy_wf (sc : Scope) (t : GReg) (c : Reg8) (d a n : GReg) {s : State} (h : s.mem.wf = true) :
    outWf (execCpy sc t c d a n s) := by
  simp [execCpy, h]

@[simp] theorem execCpyX_wf (sc : Scope) (t : GReg) (c : Reg8) (d a n : GReg) {s : State} (h : s.mem.wf = true) :
    outWf (execCpyX sc t c d a n s) := by
  simp [execCpyX, h]

@[simp] theorem execCpy2_wf (sc : Scope) (t : GReg) (c : Reg8) (d a n : GReg) {s : State} (h : s.mem.wf = true) :
    outWf (execCpy2 sc t c d a n s) := by
  simp [execCpy2, h]

@[simp] theorem execCpy2X_wf (sc : Scope) (t : GReg) (c : Reg8) (d a n : GReg) {s : State} (h : s.mem.wf = true) :
    outWf (execCpy2X sc t c d a n s) := by
  simp [execCpy2X, h]

@[simp] theorem execCph_wf (sc : Scope) (t : GReg) (c : Reg8) (a n : GReg) {s : State} (h : s.mem.wf = true) :
    outWf (execCph sc t c a n s) := by
  simp [execCph, h]

@[simp] theorem execCpt_wf (sc : Scope) (t : GReg) (c : Reg8) (d a n : GReg) {s : State} (h : s.mem.wf = true) :
    outWf (execCpt sc t c d a n s) := by
  simp [execCpt, h]

@[simp] theorem execCvbF2q_wf (sc : Scope) (t : GReg) (c : Reg8) (d a n : GReg) {s : State} (h : s.mem.wf = true) :
    outWf (execCvbF2q sc t c d a n s) := by
  simp [execCvbF2q, h]

@[simp] theorem execCvbQ2f_wf (sc : Scope) (t : GReg) (c : Reg8) (d a n : GReg) {s : State} (h : s.mem.wf = true) :
    outWf (execCvbQ2f sc t c d a n s) := by
  simp [execCvbQ2f, h]

@[simp] theorem execCvbF2h_wf (sc : Scope) (t : GReg) (c : Reg8) (d a n : GReg) {s : State} (h : s.mem.wf = true) :
    outWf (execCvbF2h sc t c d a n s) := by
  simp [execCvbF2h, h]

@[simp] theorem execCvbH2f_wf (sc : Scope) (t : GReg) (c : Reg8) (d a n : GReg) {s : State} (h : s.mem.wf = true) :
    outWf (execCvbH2f sc t c d a n s) := by
  simp [execCvbH2f, h]

@[simp] theorem execCpst_wf (d : GReg) (c : Reg8) {s : State} (h : s.mem.wf = true) : outWf (execCpst d c s) :=
  retire_wf _ h

@[simp] theorem execCpw_wf (c : Reg8) (a : GReg) {s : State} (h : s.mem.wf = true) : outWf (execCpw c a s) := by
  simp [execCpw, h]

@[simp] theorem engWriteOne_wf (c : EngCmd) (x : EngWrite) (p : List Nat × List Byte) (h : x.s.mem.wf = true) :
    (engWriteOne c x p).s.mem.wf = true := by
  unfold engWriteOne
  split
  · exact h
  · split
    · exact fleetWrite_wf _ _ _ h
    · dsimp only
      split
      · exact h
      · exact store_wf _ h

theorem engWrites_wf (c : EngCmd) (l : List (List Nat × List Byte)) (x : EngWrite) (h : x.s.mem.wf = true) :
    (l.foldl (engWriteOne c) x).s.mem.wf = true := by
  induction l generalizing x with
  | nil => exact h
  | cons a l ih => exact ih _ (engWriteOne_wf c x a h)

@[simp] theorem setEng_mem (s : State) (id : Nat) (f : EngCmd → EngCmd) : (s.setEng id f).mem = s.mem := rfl

@[simp] theorem engEndAs_mem (s : State) (id code bytes : Nat) (exp born : Bool) (sig : Sig) :
    (s.engEndAs id code bytes exp born sig).mem = s.mem := by
  simp [State.engEndAs]

@[simp] theorem engEnd_mem (s : State) (id code : Nat) : (s.engEnd id code).mem = s.mem := by
  simp [State.engEnd]

@[simp] theorem engCredit_mem (s : State) (obj : Option Nat) (n : Nat) : (s.engCredit obj n).mem = s.mem := by
  fun_cases State.engCredit s obj n <;> simp

@[simp] theorem engPerform_wf {s : State} (c : EngCmd) (r w : List Nat) (obj : Option Nat) (h : s.mem.wf = true) :
    (s.engPerform c r w obj).mem.wf = true := by
  unfold State.engPerform
  have hr := readPages_mem c.tid c.part (chunks c.reads r) { s := s, bytes := [], exp := false, bad := false }
  revert hr
  generalize (chunks c.reads r).foldl (readPage c.tid c.part) { s := s, bytes := [], exp := false, bad := false } = rd
  intro hr
  have h1 : rd.s.mem.wf = true := by rw [hr]; exact h
  dsimp only
  split
  · rw [engEndAs_mem]
    exact h1
  · rw [engEndAs_mem, engCredit_mem]
    exact engWrites_wf _ _ _ h1

@[simp] theorem engArrive_mem (s : State) (c : EngCmd) (desc : List Nat) (line : Nat) :
    (s.engArrive c desc line).mem = s.mem := by
  fun_cases State.engArrive s c desc line <;> simp +zetaDelta

@[simp] theorem engHold_mem (s : State) (c : EngCmd) : (s.engHold c).mem = s.mem := by
  simp [State.engHold]

@[simp] theorem engWaitFor_mem (s : State) (c : EngCmd) (p : Plan) : (s.engWaitFor c p).mem = s.mem := by
  simp [State.engWaitFor]

@[simp] theorem engDescribed_mem (s : State) (c : EngCmd) (l : List Nat) : (s.engDescribed c l).mem = s.mem := by
  unfold State.engDescribed
  dsimp only
  split
  · simp
  · split
    · simp
    · simp
    · simp
    · simp

@[simp] theorem engAdmit_mem (s : State) (conv : Bool) (core : Nat) : (s.engAdmit conv core).mem = s.mem := by
  fun_cases State.engAdmit s conv core <;> simp +zetaDelta

@[simp] theorem engFirst_wf {s : State} (c : EngCmd) (h : s.mem.wf = true) : (s.engFirst c).mem.wf = true := by
  unfold State.engFirst
  split
  · exact writeBackAll_wf _ h
  · exact applyRecs_wf _ _ (foldl_wf _ _ (fun s r h => drainCore_wf _ _ h) h)
  · exact h

@[simp] theorem execEngineCommandStart_wf {s : State} (h : s.mem.wf = true) : outWf (execEngineCommandStart s) := by
  unfold execEngineCommandStart
  split
  · exact h
  · next c _ =>
    have h1 := engFirst_wf c h
    split
    · exact h
    · rw [outWf_next, engAdmit_mem]
      split
      · simp [h1]
      · split <;> simp [h1]

@[simp] theorem writeToken_mem (s : State) (c : EngCmd) : (s.writeToken c).mem = s.mem := by
  simp [State.writeToken]

@[simp] theorem wakeCpw_mem (s : State) (core : Nat) : (s.wakeCpw core).mem = s.mem := by
  unfold State.wakeCpw
  refine foldl_mem _ _ _ fun s j => ?_
  dsimp only
  split
  · split
    · split <;> simp
    · rfl
  · rfl

@[simp] theorem engTask_mem (s : State) (c : EngCmd) : (s.engTask c).mem = s.mem := by
  fun_cases State.engTask s c <;> simp

@[simp] theorem execEngineCommandComplete_wf {s : State} (h : s.mem.wf = true) :
    outWf (execEngineCommandComplete s) := by
  fun_cases execEngineCommandComplete s <;> simp +zetaDelta [h]

@[simp] theorem execFenceAcq_wf (sc : Scope) {s : State} (h : s.mem.wf = true) : outWf (execFenceAcq sc s) := by
  simp [execFenceAcq, h]

@[simp] theorem execFenceRel_wf (sc : Scope) {s : State} (h : s.mem.wf = true) : outWf (execFenceRel sc s) :=
  afterRelease_wf _ _ _ _ _ h fun _ h => retire_wf _ (pendRelease_wf _ _ h)

@[simp] theorem execFenceAr_wf (sc : Scope) {s : State} (h : s.mem.wf = true) : outWf (execFenceAr sc s) := by
  simp [execFenceAr, h]

@[simp] theorem globalOnly_wf (i : Instr) (x : Word) {s : State} (go : Nat → Out) (h : s.mem.wf = true)
    (hgo : ∀ n, outWf (go n)) : outWf (globalOnly i x s go) := by
  unfold globalOnly
  split
  · exact trap_wf _ _ h
  · refine withLoc_wf _ _ _ _ h fun l => ?_
    split
    · exact hgo _
    · exact trap_wf _ _ h
  · exact trap_wf _ _ h

@[simp] theorem whenWritten_wf (i : Instr) (line : Option Nat) {s : State} (h : s.mem.wf = true) :
    outWf (whenWritten i line s) := by
  simp [whenWritten, h]

@[simp] theorem execCwb_wf (a : GReg) {s : State} (h : s.mem.wf = true) : outWf (execCwb a s) :=
  globalOnly_wf _ _ _ h fun _ => whenWritten_wf _ _ (l1WriteBack_wf _ _ h)

@[simp] theorem execCwbAll_wf {s : State} (h : s.mem.wf = true) : outWf (execCwbAll s) := by
  simp [execCwbAll, h]

@[simp] theorem execCinv_wf (a : GReg) {s : State} (h : s.mem.wf = true) : outWf (execCinv a s) :=
  globalOnly_wf _ _ _ h fun _ => whenWritten_wf _ _ (l1Invalidate_wf _ _ h)

@[simp] theorem execCinvAll_wf {s : State} (h : s.mem.wf = true) : outWf (execCinvAll s) := by
  simp [execCinvAll, h]

@[simp] theorem icacheDrop_mem (s : State) (part : Option Nat) (core : Nat) (sc : Scope) (line : Nat) :
    (s.icacheDrop part core sc line).mem = s.mem := rfl

@[simp] theorem execIinv_wf (sc : Scope) (a : GReg) {s : State} (h : s.mem.wf = true) : outWf (execIinv sc a s) := by
  simp [execIinv, h]

@[simp] theorem execFbar_wf {s : State} (h : s.mem.wf = true) : outWf (execFbar s) :=
  retire_wf _ h

@[simp] theorem execQwait_wf (sc : Scope) (t : Bool) {s : State} (h : s.mem.wf = true) : outWf (execQwait sc t s) := by
  simp [execQwait, h]

@[simp] theorem execQuietReport_wf {s : State} (h : s.mem.wf = true) : outWf (execQuietReport s) := by
  fun_cases execQuietReport s <;> simp [h]

@[simp] theorem execMfree_wf (d a : GReg) {s : State} (h : s.mem.wf = true) : outWf (execMfree d a s) := by
  unfold execMfree
  dsimp only
  split
  · exact trap_wf _ _ h
  · split
    · exact illegal_wf _ h
    · split
      · exact trap_wf _ _ (by simp [h])
      · simp [h]
      · exact retire_wf _ (foldl_wf _ _ (fun s b h => markFree_wf _ _ h) (by simp [h]))

@[simp] theorem execL1Eviction_wf (core line : Nat) {s : State} (h : s.mem.wf = true) :
    outWf (execL1Eviction core line s) := by
  simp [execL1Eviction, h]

@[simp] theorem execDrain_wf {s : State} (h : s.mem.wf = true) : outWf (execDrain s) := by
  fun_cases execDrain s <;> simp +zetaDelta [h]

@[simp] theorem ackDrain_wf {s : State} (cx : Nat) (tid : BitVec 32) (h : s.mem.wf = true) :
    (s.ackDrain cx tid).mem.wf = true := by
  fun_cases State.ackDrain s cx tid <;> simp +zetaDelta [h]

@[simp] theorem execDrainAck_wf {s : State} (h : s.mem.wf = true) : outWf (execDrainAck s) := by
  fun_cases execDrainAck s <;> simp +zetaDelta [h]

@[simp] theorem sweepPass_wf {s : State} (part : Nat) (h : s.mem.wf = true) : (s.sweepPass part).mem.wf = true :=
  foldl_wf _ _ (fun _ _ h => h) (foldl_wf _ _ (fun _ _ h => invalidateAll_wf _ h) h)

@[simp] theorem sweepClear_wf {s : State} (part : Nat) (h : s.mem.wf = true) : (s.sweepClear part).mem.wf = true := by
  simp +contextual [State.sweepClear, foldl_wf, h]

@[simp] theorem execSweep_wf {s : State} (h : s.mem.wf = true) : outWf (execSweep s) := by
  simp [execSweep, h]

@[simp] theorem execSweepEnd_wf {s : State} (h : s.mem.wf = true) : outWf (execSweepEnd s) := by
  simp +contextual [execSweepEnd, foldl_wf, h]

@[simp] theorem fpResult_wf (d : Reg8) (k : Ctx → Word × FFlags) {s : State} (h : s.mem.wf = true) :
    outWf (fpResult d k s) := by
  simp [fpResult, h]

@[simp] theorem execFadd_wf (z : Prec) (r : RMode) (d a b : Reg8) {s : State} (h : s.mem.wf = true) :
    outWf (execFadd z r d a b s) :=
  retire_wf _ h

@[simp] theorem execFsub_wf (z : Prec) (r : RMode) (d a b : Reg8) {s : State} (h : s.mem.wf = true) :
    outWf (execFsub z r d a b s) :=
  retire_wf _ h

@[simp] theorem execFmul_wf (z : Prec) (r : RMode) (d a b : Reg8) {s : State} (h : s.mem.wf = true) :
    outWf (execFmul z r d a b s) :=
  retire_wf _ h

@[simp] theorem execFdiv_wf (z : Prec) (r : RMode) (d a b : Reg8) {s : State} (h : s.mem.wf = true) :
    outWf (execFdiv z r d a b s) :=
  retire_wf _ h

@[simp] theorem execFma_wf (z : Prec) (r : RMode) (d a b e : Reg8) {s : State} (h : s.mem.wf = true) :
    outWf (execFma z r d a b e s) :=
  retire_wf _ h

@[simp] theorem execFsqrt_wf (z : Prec) (r : RMode) (d a : Reg8) {s : State} (h : s.mem.wf = true) :
    outWf (execFsqrt z r d a s) :=
  retire_wf _ h

@[simp] theorem execFmin_wf (z : Prec) (d a b : Reg8) {s : State} (h : s.mem.wf = true) : outWf (execFmin z d a b s) :=
  retire_wf _ h

@[simp] theorem execFmax_wf (z : Prec) (d a b : Reg8) {s : State} (h : s.mem.wf = true) : outWf (execFmax z d a b s) :=
  retire_wf _ h

@[simp] theorem execFcmp_wf (k : FCond) (z : Prec) (d a b : Reg8) {s : State} (h : s.mem.wf = true) :
    outWf (execFcmp k z d a b s) :=
  retire_wf _ h

@[simp] theorem execFclass_wf (z : Prec) (d : GReg) (a : Reg8) {s : State} (h : s.mem.wf = true) :
    outWf (execFclass z d a s) :=
  retire_wf _ h

@[simp] theorem execFcvtD2s_wf (r : RMode) (d a : Reg8) {s : State} (h : s.mem.wf = true) :
    outWf (execFcvtD2s r d a s) :=
  retire_wf _ h

@[simp] theorem execFcvtS2d_wf (d a : Reg8) {s : State} (h : s.mem.wf = true) : outWf (execFcvtS2d d a s) :=
  retire_wf _ h

@[simp] theorem execFcvtD2i_wf (r : RMode) (t : ITy) (d : GReg) (a : Reg8) {s : State} (h : s.mem.wf = true) :
    outWf (execFcvtD2i r t d a s) :=
  retire_wf _ h

@[simp] theorem execFcvtS2i_wf (r : RMode) (t : ITy) (d : GReg) (a : Reg8) {s : State} (h : s.mem.wf = true) :
    outWf (execFcvtS2i r t d a s) :=
  retire_wf _ h

@[simp] theorem execFcvtI2d_wf (r : RMode) (t : ITy) (d : Reg8) (a : GReg) {s : State} (h : s.mem.wf = true) :
    outWf (execFcvtI2d r t d a s) :=
  retire_wf _ h

@[simp] theorem execFcvtI2s_wf (r : RMode) (t : ITy) (d : Reg8) (a : GReg) {s : State} (h : s.mem.wf = true) :
    outWf (execFcvtI2s r t d a s) :=
  retire_wf _ h

@[simp] theorem execFmvgf_wf (d : Reg8) (a : GReg) {s : State} (h : s.mem.wf = true) : outWf (execFmvgf d a s) :=
  retire_wf _ h

@[simp] theorem execFmvfg_wf (d : GReg) (a : Reg8) {s : State} (h : s.mem.wf = true) : outWf (execFmvfg d a s) :=
  retire_wf _ h

@[simp] theorem readPageAt_mem (s : State) (core loc : Nat) : (s.readPageAt core loc).1.mem = s.mem := by
  simp [State.readPageAt]

@[simp] theorem refillPage_wf {s : State} (core page : Nat) (h : s.mem.wf = true) :
    (s.refillPage core page).mem.wf = true := by
  have h1 : (s.readPageAt core (globalLoc (s.page core page).frame)).1.mem.wf = true := by simp [h]
  unfold State.refillPage
  split
  · next e => simp [wf_of_fst h1 e]
  · next e => simp [wf_of_fst h1 e]

@[simp] theorem writeBackPage_wf {s : State} (core page : Nat) (h : s.mem.wf = true) :
    (s.writeBackPage core page).mem.wf = true := by
  simp [State.writeBackPage, h]

@[simp] theorem execRefillComplete_wf (core page : Nat) {s : State} (h : s.mem.wf = true) :
    outWf (execRefillComplete core page s) := by
  simp [execRefillComplete, h]

@[simp] theorem unpin_mem (s : State) (core page : Nat) : (s.unpin core page).mem = s.mem := by
  simp [State.unpin]

@[simp] theorem execPageWritebackComplete_wf (core page : Nat) {s : State} (h : s.mem.wf = true) :
    outWf (execPageWritebackComplete core page s) := by
  simp [execPageWritebackComplete, h]

@[simp] theorem unpinNow_wf {s : State} (core page : Nat) (h : s.mem.wf = true) :
    (s.unpinNow core page).mem.wf = true := by
  simp [State.unpinNow, h]

end Sys2Proof.Machine
end

section
/-! The memory in canonical form: launches, task graphs, groups, loads and stores. -/
namespace Sys2Proof.Machine

@[simp] theorem releaseStore_wf {s : State} (core : Nat) (locs : List Nat) (v : Nat) (g : Sig) (h : s.mem.wf = true) :
    (s.releaseStore core locs v g).mem.wf = true := by
  fun_cases State.releaseStore s core locs v g with
  | case1 l _ s1 =>
    have h1 : s1.mem.wf = true := by
      simp only [s1]
      split <;> simp [h]
    simp [h1]
  | case2 => simp [h]

@[simp] theorem acceptRecord_mem (s : State) (die part : Nat) (b : List Byte) (node : Option (Nat × Nat)) :
    (s.acceptRecord die part b node).1.mem = s.mem := by
  simp [State.acceptRecord]

@[simp] theorem modLaunch_mem (s : State) (id : Nat) (f : Launch → Launch) : (s.modLaunch id f).mem = s.mem := rfl

@[simp] theorem launchOver_mem (s : State) (l : Launch) : (s.launchOver l).mem = s.mem := by
  fun_cases State.launchOver s l <;> simp +zetaDelta

/-- The state a device's write leaves, if it is done, has its memory in canonical form. -/
def DevWrite.stateWf : DevWrite → Prop
  | .done s => s.mem.wf = true
  | _ => True

/-- The state a device's read leaves, unless it waits, has its memory in canonical form. -/
def DevRead.stateWf : DevRead → Prop
  | .got s _ => s.mem.wf = true
  | .bad s => s.mem.wf = true
  | .wait _ => True

/-- The state a read of a task graph leaves, unless it waits, has its memory in canonical form. -/
def TgRead.stateWf : TgRead → Prop
  | .ok s _ => s.mem.wf = true
  | .invalid s => s.mem.wf = true
  | .bad s => s.mem.wf = true
  | .wait _ => True

theorem devWrite_wf {s : State} (who : Requester) (die part : Nat) (va : Word) (v : Nat) (g : Sig) (h : s.mem.wf = true)
    : (s.devWrite who die part va v g).stateWf := by
  fun_cases State.devWrite s who die part va v g with
  | case3 _ _ _ _ old s1 =>
    have h1 : s1.mem.wf = true := by
      cases ho : old <;> simp [s1, ho, h]
    exact releaseStore_wf _ _ _ _ (by simp [h1])
  | _ => trivial

@[simp] theorem devWait_mem (s : State) (who : Requester) (die part : Nat) (p : Plan) :
    (s.devWait who die part p).mem = s.mem := by
  simp [State.devWait]

theorem devRead_wf {s : State} (who : Requester) (die part : Nat) (va : Word) (n : Nat) (h : s.mem.wf = true) :
    (s.devRead who die part va n).stateWf := by
  have h1 (l : List Nat) : ((s.recsAt l).foldl (fun s r => s.drainCore r.core r.sig) s).mem.wf = true := by
    simp +contextual [foldl_wf, h]
  fun_cases State.devRead s who die part va n with
  | case1 | case5 => trivial
  | case2 _ _ _ _ _ _ e | case3 _ _ _ _ _ e => exact wf_of_fst (by simpa using h1 _) e
  | case4 => simpa [DevRead.stateWf] using h

@[simp] theorem launchWait_mem (s : State) (l : Launch) (p : Plan) : (s.launchWait l p).mem = s.mem := by
  simp [State.launchWait]

@[simp] theorem launchDone_wf {s : State} (l : Launch) (h : s.mem.wf = true) : (s.launchDone l).mem.wf = true := by
  have h1 := devWrite_wf (.launch l.id) l.die l.part l.doneW l.doneWord l.sig h
  fun_cases State.launchDone s l with
  | case1 s1 e =>
    rw [e] at h1
    exact (congrArg Memory.wf (launchOver_mem ..)).trans h1
  | _ => simp [h]

@[simp] theorem launchSettle_wf {s : State} (id : Nat) (h : s.mem.wf = true) : (s.launchSettle id).mem.wf = true := by
  fun_cases State.launchSettle s id <;> simp [h]

@[simp] theorem launchStop_wf {s : State} (id code : Nat) (h : s.mem.wf = true) :
    (s.launchStop id code).mem.wf = true := by
  simp [State.launchStop, h]

@[simp] theorem readDeps_mem (s : State) (l : Launch) (w : List Word) : (s.readDeps l w).1.mem = s.mem := by
  have hc {s t : State} {locs b} (e : (s.unitDone (.launch l.id)).readCheck locs 4294967295 l.part = (t, b)) : t.mem = s.mem :=
    mem_of_fst (by simp) e
  fun_induction State.readDeps s l w with
  | case1 | case7 | case8 => rfl
  | case2 _ _ _ _ _ _ e | case3 _ _ _ _ _ _ _ e => exact hc e
  | case4 _ _ _ _ _ _ _ e _ _ _ _ ih => exact ih.trans (hc e)
  | case5 _ _ _ _ _ _ _ e _ _ _ _ e2 ih => exact (mem_of_fst ih e2).trans (hc e)
  | case6 _ _ _ _ _ _ _ e _ _ _ _ ih => exact ih.trans (hc e)

@[simp] theorem imageFrame_mem (s : State) (core page : Nat) : (s.imageFrame core page).mem = s.mem := by
  fun_cases State.imageFrame s core page <;> simp +zetaDelta

@[simp] theorem imagePage_wf {s : State} (core page lay : Nat) (b : List Byte) (h : s.mem.wf = true) :
    (s.imagePage core page lay b).mem.wf = true := by
  fun_cases State.imagePage s core page lay b with
  | case1 s1 _ s2 =>
    have h2 : s2.mem.wf = true := refillPage_wf _ _ (by simp [s1, h])
    simp [h2]
  | case2 s1 => exact refillPage_wf _ _ (by simp [s1, h])
  | case3 => simp +zetaDelta [h]

@[simp] theorem placeImage_wf {s : State} (l : Launch) (b : List Byte) (core : Nat) (h : s.mem.wf = true) :
    (s.placeImage l b core).mem.wf = true := by
  simp +contextual [State.placeImage, foldl_wf, h]

@[simp] theorem launchSpawn_mem (s : State) (l : Launch) : (s.launchSpawn l).mem = s.mem := by
  simp [State.launchSpawn]

@[simp] theorem placeLater_mem (s : State) (id die core : Nat) : (s.placeLater id die core).mem = s.mem := rfl

@[simp] theorem placeOn_mem (s : State) (l : Launch) (core : Nat) : (s.placeOn l core).mem = s.mem := by
  simp [State.placeOn]

@[simp] theorem placeNext_mem (s : State) (id die : Nat) : (s.placeNext id die).mem = s.mem := by
  fun_cases State.placeNext s id die <;> simp

@[simp] theorem launchPlace_wf {s : State} (l : Launch) (h : s.mem.wf = true) : (s.launchPlace l).mem.wf = true := by
  fun_cases State.launchPlace s l with
  | case2 _ _ _ _ e => exact launchStop_wf _ _ (wf_of_fst (by simpa using h) e)
  | case3 _ _ _ _ _ e =>
    have h1 := wf_of_fst (by simpa using h) e
    simp +contextual [foldl_wf, h1]
  | _ => simp [h]

@[simp] theorem execDepRecheck_wf {s : State} (h : s.mem.wf = true) : outWf (execDepRecheck s) := by
  have hd {t : State} {l : Launch} {d} (e : s.readDeps l l.deps = (t, d)) : t.mem.wf = true :=
    wf_of_fst (by simpa using h) e
  fun_cases execDepRecheck s with
  | case3 _ _ _ _ _ e | case4 _ _ _ _ _ e | case5 _ _ _ _ _ e | case6 _ _ _ _ _ e | case7 _ _ _ _ _ _ e => simp [hd e]
  | _ => simp [h]

@[simp] theorem execLaunchSelect_wf {s : State} (h : s.mem.wf = true) : outWf (execLaunchSelect s) := by
  fun_cases execLaunchSelect s <;> simp +zetaDelta [h]

@[simp] theorem placed_mem (s : State) (id core : Nat) : (s.placed id core).mem = s.mem := rfl

@[simp] theorem answerDisp_wf {s : State} (id die core reason : Nat) (h : s.mem.wf = true) :
    (s.answerDisp id die core reason).mem.wf = true := by
  simp [State.answerDisp, h]

@[simp] theorem execDispatcherSpawnRetry_wf {s : State} (h : s.mem.wf = true) : outWf (execDispatcherSpawnRetry s) := by
  fun_cases execDispatcherSpawnRetry s <;> simp +zetaDelta [h]

@[simp] theorem noticeDisp_mem (s : State) (die core : Nat) : (s.noticeDisp die core).mem = s.mem := rfl

@[simp] theorem execCoreDoneReport_wf {s : State} (id core : Nat) (h : s.mem.wf = true) :
    outWf (execCoreDoneReport id core s) := by
  have hr {t : State} {g} (e : s.makeRelease core .pkg = (t, g)) : t.mem.wf = true := wf_of_fst (makeRelease_wf _ _ h) e
  fun_cases execCoreDoneReport id core s with
  | case1 _ _ _ _ _ e | case2 _ _ _ _ _ e => simp [hr e]
  | _ => simp [h]

@[simp] theorem homeLnch_wf {s : State} (r : Req) (h : s.mem.wf = true) : (homeLnch r s).1.mem.wf = true := by
  have hc {t : State} {b} (e : s.readCheck r.locs r.tid r.part = (t, b)) : t.mem.wf = true :=
    wf_of_fst (by simpa using h) e
  fun_cases homeLnch r s with
  | case1 | case3 => exact hc ‹_›
  | case2 _ _ _ e =>
    have h1 := hc e
    exact launchDone_wf _ h1
  | case4 _ _ _ e _ _ _ _ e2 => exact wf_of_fst (by simpa using hc e) e2

@[simp] theorem endCode_mem (d : GReg) (x : Reply) (s : State) : (endCode d x s).mem = s.mem := by
  simp [endCode]

@[simp] theorem execLnch_wf (d a : GReg) {s : State} (h : s.mem.wf = true) : outWf (execLnch d a s) := by
  simp [execLnch, h]

@[simp] theorem execTeardownNotice_wf {s : State} (h : s.mem.wf = true) : outWf (execTeardownNotice s) := by
  fun_cases execTeardownNotice s <;> simp +zetaDelta [h]

@[simp] theorem launchDenied_wf {s : State} (id : Nat) (h : s.mem.wf = true) : (s.launchDenied id).mem.wf = true := by
  fun_cases State.launchDenied s id <;> simp [h]

@[simp] theorem putGraph_wf {s : State} (g : Graph) (sig : Sig) (h : s.mem.wf = true) :
    (s.putGraph g sig).mem.wf = true := by
  fun_cases State.putGraph s g sig with
  | case3 _ s1 _ _ s2 e =>
    have h1 := devWrite_wf (s := s1) (.graph g.part g.handle 0) g.die g.part (g.addr + 32) g.status sig h
    rw [e] at h1
    exact h1
  | _ => simp +zetaDelta [h]

@[simp] theorem putStatus_wf {s : State} (k : Nat) (h : s.mem.wf = true) : (s.putStatus k).mem.wf = true := by
  fun_cases State.putStatus s k with
  | case1 die part handle va v sig _ who s1 e =>
    have h1 := devWrite_wf who die part va v sig h
    rw [e] at h1
    exact (congrArg Memory.wf (State.dropMsg_mem ..)).trans h1
  | _ => simp [h]

@[simp] theorem readyNode_wf {s : State} (g : Graph) (n : Nat) (sig : Sig) (h : s.mem.wf = true) :
    (s.readyNode g n sig).mem.wf = true := by
  fun_cases State.readyNode s g n sig <;> simp [h]

@[simp] theorem decNode_wf {s : State} (part handle n : Nat) (sig : Sig) (h : s.mem.wf = true) :
    (s.decNode part handle n sig).mem.wf = true := by
  fun_cases State.decNode s part handle n sig <;> simp [h]

@[simp] theorem endRun_wf {s : State} (part handle n : Nat) (sig : Sig) (h : s.mem.wf = true) :
    (s.endRun part handle n sig).mem.wf = true := by
  fun_cases State.endRun s part handle n sig <;> simp [h]

@[simp] theorem failNode_wf {s : State} (g : Graph) (n : Nat) (sig : Sig) (h : s.mem.wf = true) :
    (s.failNode g n sig).mem.wf = true := by
  simp [State.failNode, h]

theorem nodeRead_wf {s : State} (g : Graph) (x : Node) (h : s.mem.wf = true) : (s.nodeRead g x).stateWf := by
  fun_cases State.nodeRead s g x <;> first | exact devRead_wf _ _ _ _ _ h | simpa [DevRead.stateWf] using h

@[simp] theorem execNodeRun_wf {s : State} (h : s.mem.wf = true) : outWf (execNodeRun s) := by
  have hr {g x r} (e : s.nodeRead g x = r) : r.stateWf := e ▸ nodeRead_wf g x h
  have ha {g x t b die part node u n} (e : s.nodeRead g x = .got t b)
      (e2 : (t.dropMsg s.sel).acceptRecord die part b node = (u, n)) : u.mem.wf = true :=
    wf_of_fst (by simpa using show t.mem.wf = true from hr e) e2
  fun_cases execNodeRun s with
  | case4 _ _ _ _ _ _ _ _ s1 e =>
    have h1 : s1.mem.wf = true := hr e
    simp [h1]
  | case5 _ _ _ _ _ _ _ _ _ _ e _ _ _ e2 => exact ha e e2
  | case6 _ _ _ _ _ _ _ _ _ _ e _ _ _ _ _ e2 => simp [ha e e2]
  | case7 _ _ _ _ _ _ _ _ s1 _ e =>
    have h1 : s1.mem.wf = true := hr e
    simp +zetaDelta [h1]
  | _ => simp [h]

@[simp] theorem nodeDenied_wf {s : State} (part handle : Nat) (h : s.mem.wf = true) :
    (s.nodeDenied part handle).mem.wf = true := by
  fun_cases State.nodeDenied s part handle <;> simp [h]

@[simp] theorem execPlainNodeComplete_wf {s : State} (h : s.mem.wf = true) : outWf (execPlainNodeComplete s) := by
  have h1 : (s.dropMsg s.sel).mem.wf = true := by simpa using h
  fun_cases execPlainNodeComplete s with
  | case2 =>
    exact endRun_wf _ _ _ _ (decNode_wf _ _ _ _ (decNode_wf _ _ _ _ (putGraph_wf _ _ h1)))
  | _ => simp +zetaDelta [h]

@[simp] theorem tellAsker_mem (s : State) (asker : Option (Nat × BitVec 32)) (code : Nat) :
    (s.tellAsker asker code).mem = s.mem := by
  fun_cases State.tellAsker s asker code <;> simp

@[simp] theorem applyTask_wf {s : State} (part : Nat) (w : Word) (asker : Option (Nat × BitVec 32))
    (h : s.mem.wf = true) : (s.applyTask part w asker).mem.wf = true := by
  fun_cases State.applyTask s part w asker <;> simp [h]

@[simp] theorem execTaskRecord_wf {s : State} (h : s.mem.wf = true) : outWf (execTaskRecord s) := by
  fun_cases execTaskRecord s <;> simp [h]

@[simp] theorem execTkadd_wf (d a : GReg) {s : State} (h : s.mem.wf = true) : outWf (execTkadd d a s) := by
  simp [execTkadd, h]

theorem TgRead.cons_wf {r : TgRead} (x : Node) (h : r.stateWf) : (r.cons x).stateWf := by
  cases r <;> exact h

theorem readNodes_wf {s : State} (who : Requester) (die part nnode : Nat) (l : List (List Byte)) (h : s.mem.wf = true) :
    (s.readNodes who die part nnode l).stateWf := by
  have hr {s : State} {va n r} (h : s.mem.wf = true) (e : s.devRead who die part va n = r) : r.stateWf :=
    e ▸ devRead_wf who die part va n h
  fun_induction State.readNodes s who die part nnode l with
  | case1 | case2 => exact h
  | case3 _ _ _ _ _ _ ih => exact TgRead.cons_wf _ (ih h)
  | case4 => trivial
  | case5 | case7 => exact hr h ‹_›
  | case6 _ _ _ _ _ _ _ _ e _ _ ih => exact TgRead.cons_wf _ (ih (hr h e))

theorem readGraph_wf {s : State} (who : Requester) (die part : Nat) (b : List Byte) (h : s.mem.wf = true) :
    (s.readGraph who die part b).stateWf := by
  have hr {va n r} (e : s.devRead who die part va n = r) : r.stateWf := e ▸ devRead_wf who die part va n h
  fun_cases State.readGraph s who die part b with
  | case1 => exact h
  | case2 => trivial
  | case3 => exact hr ‹_›
  | case4 _ _ _ _ e => exact readNodes_wf _ _ _ _ _ (hr e)

@[simp] theorem homeTgrun_wf {s : State} (r : Req) (h : s.mem.wf = true) : (homeTgrun r s).1.mem.wf = true := by
  have hc {t : State} {b} (e : s.readCheck r.locs r.tid r.part = (t, b)) : t.mem.wf = true :=
    wf_of_fst (by simpa using h) e
  have hr {t : State} {bad who die b x} (e : s.readCheck r.locs r.tid r.part = (t, bad))
      (e2 : t.readGraph who die r.part b = x) :
      x.stateWf := e2 ▸ readGraph_wf who die r.part b (hc e)
  fun_cases homeTgrun r s with
  | case1 | case2 | case3 => exact hc ‹_›
  | _ => exact hr ‹_› ‹_›

@[simp] theorem execTgrun_wf (d a : GReg) {s : State} (h : s.mem.wf = true) : outWf (execTgrun d a s) := by
  simp [execTgrun, h]

@[simp] theorem notifyWrite_wf {s : State} (part n v : Nat) (h : s.mem.wf = true) :
    (s.notifyWrite part n v).mem.wf = true := by
  fun_cases State.notifyWrite s part n v <;> simp +zetaDelta [h]

theorem ringRead_wf {s : State} (g : Graph) (slot : Nat) (h : s.mem.wf = true) : (s.ringRead g slot).stateWf :=
  devRead_wf _ _ _ _ _ h

@[simp] theorem ringStep_mem (s : State) (k part handle slot n : Nat) :
    (s.ringStep k part handle slot n).mem = s.mem := by
  simp [State.ringStep]

@[simp] theorem ringLost_wf {s : State} (k part handle slot n : Nat) (h : s.mem.wf = true) :
    (s.ringLost k part handle slot n).mem.wf = true := by
  fun_cases State.ringLost s k part handle slot n <;> simp +zetaDelta [h]

@[simp] theorem admitRing_wf {s : State} (k : Nat) (h : s.mem.wf = true) : (s.admitRing k).mem.wf = true := by
  have hr {g slot r} (e : s.ringRead g slot = r) : r.stateWf := e ▸ ringRead_wf g slot h
  fun_cases State.admitRing s k with
  | case2 _ _ _ _ _ _ _ s1 _ e =>
    have h1 : s1.mem.wf = true := hr e
    simp [h1]
  | case3 _ _ _ _ _ _ _ s1 e =>
    have h1 : s1.mem.wf = true := hr e
    simp [h1]
  | _ => simp [h]

@[simp] theorem ringDenied_wf {s : State} (part handle : Nat) (h : s.mem.wf = true) :
    (s.ringDenied part handle).mem.wf = true := by
  fun_cases State.ringDenied s part handle <;> simp [h]

@[simp] theorem graphDenied_wf {s : State} (part handle kind : Nat) (h : s.mem.wf = true) :
    (s.graphDenied part handle kind).mem.wf = true := by
  fun_cases State.graphDenied s part handle kind <;> simp [h]

@[simp] theorem homeNotify_wf {s : State} (r : Req) (h : s.mem.wf = true) : (homeNotify r s).1.mem.wf = true := by
  simp [homeNotify, h]

@[simp] theorem execNotify_wf (a b : GReg) {s : State} (h : s.mem.wf = true) : outWf (execNotify a b s) := by
  simp [execNotify, h]

@[simp] theorem wakeAccess_wf (i : Instr) (x : Word) (k : AccKind) {s : State} (go : Loc → Out) (h : s.mem.wf = true)
    (hgo : ∀ l, outWf (go l)) : outWf (wakeAccess i x k s go) := by
  simp [wakeAccess, h, hgo]

@[simp] theorem homeWwait_mem (r : Req) (s : State) : (homeWwait r s).1.mem = s.mem := by
  simp [homeWwait]

@[simp] theorem dropClean_mem (s : State) (core : Nat) : (s.dropClean core).mem = s.mem := rfl

@[simp] theorem endWwait_mem (d : GReg) (rep : Reply) (s : State) : (endWwait d rep s).mem = s.mem := by
  simp [endWwait]

@[simp] theorem execWwait_wf (d a b : GReg) {s : State} (h : s.mem.wf = true) : outWf (execWwait d a b s) := by
  simp [execWwait, h]

@[simp] theorem homeWake_wf (r : Req) {s : State} (h : s.mem.wf = true) : (homeWake r s).1.mem.wf = true := by
  simp [homeWake, h]

@[simp] theorem execWake_wf {s : State} (a : GReg) (h : s.mem.wf = true) : outWf (execWake a s) :=
  wakeAccess_wf _ _ _ _ h fun _ => afterWriteBack_wf _ _ _ h fun _ h1 =>
    access_wf _ _ _ _ _ _ h1 (fun _ _ h => by simp [h]) (fun _ _ h => by simp [h])

@[simp] theorem homeTimer_mem (r : Req) (s : State) : (homeTimer r s).1.mem = s.mem := by
  simp [homeTimer]

@[simp] theorem execTkaddAt_wf (d a t : GReg) {s : State} (h : s.mem.wf = true) : outWf (execTkaddAt d a t s) := by
  simp [execTkaddAt, h]

@[simp] theorem execWakeAt_wf (d a t : GReg) {s : State} (h : s.mem.wf = true) : outWf (execWakeAt d a t s) := by
  simp [execWakeAt, h]

@[simp] theorem wakeWord_wf {s : State} (part : Nat) (locs : List Nat) (h : s.mem.wf = true) :
    (s.wakeWord part locs).mem.wf = true := by
  simp [State.wakeWord, h]

@[simp] theorem putWake_wf {s : State} (k : Nat) (h : s.mem.wf = true) : (s.putWake k).mem.wf = true := by
  fun_cases State.putWake s k <;> simp [h]

@[simp] theorem timerActs_wf {s : State} (t : Timer) (h : s.mem.wf = true) : (s.timerActs t).mem.wf = true := by
  fun_cases State.timerActs s t <;> simp [h]

@[simp] theorem execBelfryTimer_wf {s : State} (h : s.mem.wf = true) : outWf (execBelfryTimer s) := by
  fun_cases execBelfryTimer s <;> simp [h]

@[simp] theorem groupFail_wf (d : Reg8) (reason : Nat) {s : State} (h : s.mem.wf = true) :
    outWf (groupFail d reason s) := by
  simp [groupFail, h]

@[simp] theorem groupName_wf (i : Instr) (d h : Reg8) (a : GReg) {s : State} (hs : s.mem.wf = true) :
    outWf (groupName i d h a s) := by
  simp [groupName, hs]

@[simp] theorem homeGmake_mem (sc : Scope) (r : Req) (s : State) : (homeGmake sc r s).1.mem = s.mem := by
  fun_cases homeGmake sc r s <;> simp

@[simp] theorem homeGjoin_mem (r : Req) (s : State) : (homeGjoin r s).1.mem = s.mem := by
  fun_cases homeGjoin r s <;> simp

@[simp] theorem endHandle_mem (d h : Reg8) (x : Reply) (s : State) : (endHandle d h x s).mem = s.mem := by
  simp [endHandle]

@[simp] theorem execGmake_wf (sc : Scope) (d h : Reg8) (a : GReg) {s : State} (hs : s.mem.wf = true) :
    outWf (execGmake sc d h a s) := by
  simp [execGmake, hs]

@[simp] theorem execGjoin_wf (d h : Reg8) (a : GReg) {s : State} (hs : s.mem.wf = true) :
    outWf (execGjoin d h a s) := by
  simp [execGjoin, hs]

@[simp] theorem groupReleased_wf (i : Instr) (h : Reg8) (vals : List Nat) {s : State} (hs : s.mem.wf = true) :
    outWf (groupReleased i h vals s) := by
  simp +contextual [groupReleased, hs]

@[simp] theorem homeGleave_mem (r : Req) (s : State) : (homeGleave r s).1.mem = s.mem := by
  fun_cases homeGleave r s <;> simp

@[simp] theorem endGleave_mem (d h : Reg8) (x : Reply) (s : State) : (endGleave d h x s).mem = s.mem := by
  simp [endGleave]

@[simp] theorem execGleave_wf (d h : Reg8) {s : State} (hs : s.mem.wf = true) : outWf (execGleave d h s) := by
  simp [execGleave, hs]

@[simp] theorem homeArrive_mem (k : GKind) (r : Req) (s : State) : (homeArrive k r s).1.mem = s.mem := by
  fun_cases homeArrive k r s <;> simp

@[simp] theorem groupArrive_wf (i : Instr) (h : Reg8) (ok : Bool) (x : Nat) {s : State} (hs : s.mem.wf = true) :
    outWf (groupArrive i h ok x s) := by
  simp [groupArrive, hs]

@[simp] theorem endArrive_mem (x : Reply) (s : State) : (endArrive x s).mem = s.mem := by
  simp [endArrive]

@[simp] theorem execGbar_wf (d : GReg) (h : Reg8) {s : State} (hs : s.mem.wf = true) : outWf (execGbar d h s) := by
  simp [execGbar, hs]

@[simp] theorem execGvote_wf (v : Vote) (d : GReg) (h : Reg8) (a : GReg) {s : State} (hs : s.mem.wf = true) :
    outWf (execGvote v d h a s) := by
  simp [execGvote, hs]

@[simp] theorem execGred_wf (o : RedOp) (t : GTy) (d : GReg) (h : Reg8) (a : GReg) {s : State} (hs : s.mem.wf = true) :
    outWf (execGred o t d h a s) := by
  simp [execGred, hs]

@[simp] theorem groupRead_wf (i : Instr) (h : Reg8) {s : State} (hs : s.mem.wf = true) : outWf (groupRead i h s) := by
  simp [groupRead, hs]

@[simp] theorem homeGsize_mem (r : Req) (s : State) : (homeGsize r s).1.mem = s.mem := by
  fun_cases homeGsize r s <;> simp

@[simp] theorem homeGrank_mem (r : Req) (s : State) : (homeGrank r s).1.mem = s.mem := by
  fun_cases homeGrank r s <;> simp

@[simp] theorem endGroupRead_mem (d : GReg) (x : Reply) (s : State) : (endGroupRead d x s).mem = s.mem := by
  simp [endGroupRead]

@[simp] theorem execGsize_wf (d : GReg) (h : Reg8) {s : State} (hs : s.mem.wf = true) : outWf (execGsize d h s) := by
  simp [execGsize, hs]

@[simp] theorem execGrank_wf (d : GReg) (h : Reg8) {s : State} (hs : s.mem.wf = true) : outWf (execGrank d h s) := by
  simp [execGrank, hs]

@[simp] theorem execGstat_wf (d : GReg) (h : Reg8) {s : State} (hs : s.mem.wf = true) : outWf (execGstat d h s) :=
  retire_wf _ hs

@[simp] theorem endGroup_wf {s : State} (cx : Nat) (g : Sig) (val : Bool) (res st : Word) (h : s.mem.wf = true) :
    (s.endGroup cx g val res st).mem.wf = true := by
  fun_cases State.endGroup s cx g val res st with
  | case3 =>
    rename_i s1 _ e
    have h1 : s1.mem.wf = true := wf_of_fst (by split <;> exact h) e
    simp [h1]
  | _ => simp [h]

@[simp] theorem execGroupCompletion_wf {s : State} (h : s.mem.wf = true) : outWf (execGroupCompletion s) := by
  fun_cases execGroupCompletion s <;> simp +zetaDelta [h]

@[simp] theorem homeLd_wf (z : Sz) (r : Req) {s : State} (h : s.mem.wf = true) : (homeLd z r s).1.mem.wf = true := by
  unfold homeLd
  split <;> simp [h]

@[simp] theorem endLd_mem (z : Sz) (sx : Bool) (d : GReg) (x : Reply) (s : State) : (endLd z sx d x s).mem = s.mem := by
  simp [endLd]

@[simp] theorem execLd_wf (z : Sz) (sx : Bool) (d a : GReg) (o : BitVec 14) {s : State} (h : s.mem.wf = true) :
    outWf (execLd z sx d a o s) := by
  refine checked_wf _ _ _ _ _ h fun l => ?_
  have ha (r : Req) : outWf (access 1 r l .load (homeLd z) (endLd z sx d) s) :=
    access_wf _ _ _ _ _ _ h (fun _ _ => homeLd_wf _ _) (fun _ _ h => by simp [h])
  dsimp only
  split
  · split <;> simp [h]
  · exact ha _

@[simp] theorem homeLdAcq_wf (r : Req) {s : State} (h : s.mem.wf = true) : (homeLdAcq r s).1.mem.wf = true := by
  simp [homeLdAcq, h]

@[simp] theorem endLdAcq_wf (z : Sz) (sx : Bool) (d a : GReg) (o : BitVec 14) (x : Reply) {s : State}
    (h : s.mem.wf = true) : (endLdAcq z sx d a o x s).mem.wf = true := by
  simp [endLdAcq, h]

@[simp] theorem execLdAcq_wf (z : Sz) (sx : Bool) (d a : GReg) (o : BitVec 14) {s : State} (h : s.mem.wf = true) :
    outWf (execLdAcq z sx d a o s) :=
  checked_wf _ _ _ _ _ h fun _ => access_wf _ _ _ _ _ _ (ownCopyOut_wf _ _ h) (fun _ _ => homeLdAcq_wf _)
    (fun _ _ h => by simp [h])

@[simp] theorem homeSt_wf (z : Sz) (r : Req) {s : State} (h : s.mem.wf = true) : (homeSt z r s).1.mem.wf = true := by
  unfold homeSt
  split <;> simp [h]

@[simp] theorem endSt_mem (x : Reply) (s : State) : (endSt x s).mem = s.mem := by
  simp [endSt]

@[simp] theorem execSt_wf (z : Sz) (d a : GReg) (o : BitVec 14) {s : State} (h : s.mem.wf = true) :
    outWf (execSt z d a o s) := by
  refine checked_wf _ _ _ _ _ h fun l => ?_
  have ha (r : Req) {t : State} (h : t.mem.wf = true) : outWf (access 1 r l .store (homeSt z) endSt t) :=
    access_wf _ _ _ _ _ _ h (fun _ _ => homeSt_wf _ _) (fun _ _ h => by simp [h])
  dsimp only
  split
  · exact ha _ (ownCopyOut_wf _ _ h)
  · split
    · split <;> simp [h]
    · exact ha _ h

@[simp] theorem homeStRel_wf (r : Req) {s : State} (h : s.mem.wf = true) : (homeStRel r s).1.mem.wf = true := by
  simp [homeStRel, h]

@[simp] theorem execStRel_wf (z : Sz) (d a : GReg) (o : BitVec 14) {s : State} (h : s.mem.wf = true) :
    outWf (execStRel z d a o s) := by
  refine checked_wf _ _ _ _ _ h fun _ => ?_
  have h1 := makeRelease_wf s.myCore .die h
  exact access_wf _ _ _ _ _ _ (ownCopyOut_wf _ _ h1) (fun _ _ => homeStRel_wf _) (fun _ _ h => by simp [h])

@[simp] theorem prefetchPage_mem (core off : Nat) (s : State) : (prefetchPage core off s).mem = s.mem := by
  simp [prefetchPage]

@[simp] theorem execPf_wf (a : GReg) (o : BitVec 14) {s : State} (h : s.mem.wf = true) : outWf (execPf a o s) := by
  unfold execPf
  split <;> simp [h]

@[simp] theorem execPfLlc_wf (a : GReg) (o : BitVec 14) {s : State} (h : s.mem.wf = true) :
    outWf (execPfLlc a o s) := by
  unfold execPfLlc
  split <;> simp [h]

end Sys2Proof.Machine
end

section
/-! The memory in canonical form: lanes, the vector unit and the network. -/
namespace Sys2Proof.Machine

@[simp] theorem takeSlot_mem (s : State) (cx : Nat) : (s.takeSlot cx).mem = s.mem := rfl

@[simp] theorem keepOld_mem (s : State) (cx till : Nat) : (s.keepOld cx till).mem = s.mem := rfl

@[simp] theorem awaitSlot_mem (s : State) (cx : Nat) (i : Instr) : (s.awaitSlot cx i).mem = s.mem := rfl

@[simp] theorem vecOp_wf (i : Instr) (f : Ctx → Ctx) {s : State} (h : s.mem.wf = true) : outWf (vecOp i f s) := by
  fun_cases vecOp i f s <;> simp [h]

@[simp] theorem execVadd_wf (r : RMode) (d a b : Reg8) (m : Reg4) {s : State} (h : s.mem.wf = true) :
    outWf (execVadd r d a b m s) := by
  simp [execVadd, h]

@[simp] theorem execVsub_wf (r : RMode) (d a b : Reg8) (m : Reg4) {s : State} (h : s.mem.wf = true) :
    outWf (execVsub r d a b m s) := by
  simp [execVsub, h]

@[simp] theorem execVmul_wf (r : RMode) (d a b : Reg8) (m : Reg4) {s : State} (h : s.mem.wf = true) :
    outWf (execVmul r d a b m s) := by
  simp [execVmul, h]

@[simp] theorem execVfma_wf (r : RMode) (d a b x : Reg8) (m : Reg4) {s : State} (h : s.mem.wf = true) :
    outWf (execVfma r d a b x m s) := by
  simp [execVfma, h]

@[simp] theorem execVmax_wf (d a b : Reg8) (m : Reg4) {s : State} (h : s.mem.wf = true) :
    outWf (execVmax d a b m s) := by
  simp [execVmax, h]

@[simp] theorem execVmin_wf (d a b : Reg8) (m : Reg4) {s : State} (h : s.mem.wf = true) :
    outWf (execVmin d a b m s) := by
  simp [execVmin, h]

@[simp] theorem execVabs_wf (d a : Reg8) (m : Reg4) {s : State} (h : s.mem.wf = true) : outWf (execVabs d a m s) := by
  simp [execVabs, h]

@[simp] theorem execVneg_wf (d a : Reg8) (m : Reg4) {s : State} (h : s.mem.wf = true) : outWf (execVneg d a m s) := by
  simp [execVneg, h]

@[simp] theorem execVand_wf (d a b : Reg8) (m : Reg4) {s : State} (h : s.mem.wf = true) :
    outWf (execVand d a b m s) := by
  simp [execVand, h]

@[simp] theorem execVor_wf (d a b : Reg8) (m : Reg4) {s : State} (h : s.mem.wf = true) : outWf (execVor d a b m s) := by
  simp [execVor, h]

@[simp] theorem execVxor_wf (d a b : Reg8) (m : Reg4) {s : State} (h : s.mem.wf = true) :
    outWf (execVxor d a b m s) := by
  simp [execVxor, h]

@[simp] theorem execVshl_wf (t : VTy) (d a b : Reg8) (m : Reg4) {s : State} (h : s.mem.wf = true) :
    outWf (execVshl t d a b m s) := by
  simp [execVshl, h]

@[simp] theorem execVshr_wf (t : VTy) (d a b : Reg8) (m : Reg4) {s : State} (h : s.mem.wf = true) :
    outWf (execVshr t d a b m s) := by
  simp [execVshr, h]

@[simp] theorem execVaddInt_wf (t : VTy) (d a b : Reg8) (m : Reg4) {s : State} (h : s.mem.wf = true) :
    outWf (execVaddInt t d a b m s) := by
  simp [execVaddInt, h]

@[simp] theorem execVsubInt_wf (t : VTy) (d a b : Reg8) (m : Reg4) {s : State} (h : s.mem.wf = true) :
    outWf (execVsubInt t d a b m s) := by
  simp [execVsubInt, h]

@[simp] theorem execVcmp_wf (k : VCond) (t : VTy) (d : Reg4) (a b : Reg8) (m : Reg4) {s : State} (h : s.mem.wf = true) :
    outWf (execVcmp k t d a b m s) := by
  simp [execVcmp, h]

@[simp] theorem execVsel_wf (d a b : Reg8) (q m : Reg4) {s : State} (h : s.mem.wf = true) :
    outWf (execVsel d a b q m s) := by
  simp [execVsel, h]

@[simp] theorem execVbcast_wf (d : Reg8) (g : GReg) (m : Reg4) {s : State} (h : s.mem.wf = true) :
    outWf (execVbcast d g m s) := by
  simp [execVbcast, h]

@[simp] theorem execVperm_wf (d a b : Reg8) (g : GReg) (m : Reg4) {s : State} (h : s.mem.wf = true) :
    outWf (execVperm d a b g m s) := by
  simp [execVperm, h]

@[simp] theorem execVcvtF2h_wf (r : RMode) (d a b : Reg8) (m : Reg4) {s : State} (h : s.mem.wf = true) :
    outWf (execVcvtF2h r d a b m s) := by
  simp [execVcvtF2h, h]

@[simp] theorem execVcvtH2fl_wf (r : RMode) (d a : Reg8) (m : Reg4) {s : State} (h : s.mem.wf = true) :
    outWf (execVcvtH2fl r d a m s) := by
  simp [execVcvtH2fl, h]

@[simp] theorem execVcvtH2fh_wf (r : RMode) (d a : Reg8) (m : Reg4) {s : State} (h : s.mem.wf = true) :
    outWf (execVcvtH2fh r d a m s) := by
  simp [execVcvtH2fh, h]

@[simp] theorem execVcvtF2i_wf (r : RMode) (t : VTy) (d a : Reg8) (m : Reg4) {s : State} (h : s.mem.wf = true) :
    outWf (execVcvtF2i r t d a m s) := by
  simp [execVcvtF2i, h]

@[simp] theorem execVcvtI2f_wf (r : RMode) (t : VTy) (d a : Reg8) (m : Reg4) {s : State} (h : s.mem.wf = true) :
    outWf (execVcvtI2f r t d a m s) := by
  simp [execVcvtI2f, h]

@[simp] theorem execVdec_wf (d a : Reg8) (n : BitVec 2) (m : Reg4) {s : State} (h : s.mem.wf = true) :
    outWf (execVdec d a n m s) := by
  simp [execVdec, h]

@[simp] theorem execVenc_wf (d a : Reg8) (n : BitVec 2) (m : Reg4) {s : State} (h : s.mem.wf = true) :
    outWf (execVenc d a n m s) := by
  simp [execVenc, h]

@[simp] theorem execVdot_wf (d a b x : Reg8) (m : Reg4) {s : State} (h : s.mem.wf = true) :
    outWf (execVdot d a b x m s) := by
  simp [execVdot, h]

@[simp] theorem execVred_wf (o : RedOp) (t : VTy) (d a : Reg8) (m : Reg4) {s : State} (h : s.mem.wf = true) :
    outWf (execVred o t d a m s) := by
  simp [execVred, h]

@[simp] theorem execVbfly_wf (d a b x : Reg8) (m : Reg4) {s : State} (h : s.mem.wf = true) :
    outWf (execVbfly d a b x m s) := by
  simp [execVbfly, h]

@[simp] theorem execVtwid_wf (d a : Reg8) (l : BitVec 5) (m : Reg4) {s : State} (h : s.mem.wf = true) :
    outWf (execVtwid d a l m s) := by
  simp [execVtwid, h]

@[simp] theorem vecMem_wf (i : Instr) {s : State} (h : s.mem.wf = true) : outWf (vecMem i s) := by
  fun_cases vecMem i s <;> simp +zetaDelta [h]

@[simp] theorem vecPreset_wf (i : Instr) {s : State} (h : s.mem.wf = true) : outWf (vecPreset i s) := by
  fun_cases vecPreset i s <;> simp [h]

@[simp] theorem execVld_wf (d : Reg8) (g : GReg) (o : BitVec 6) (m : Reg4) {s : State} (h : s.mem.wf = true) :
    outWf (execVld d g o m s) := by
  simp [execVld, h]

@[simp] theorem execVst_wf (x : Reg8) (g : GReg) (o : BitVec 6) (m : Reg4) {s : State} (h : s.mem.wf = true) :
    outWf (execVst x g o m s) := by
  simp [execVst, h]

@[simp] theorem execVgath_wf (d : Reg8) (g : GReg) (b : Reg8) (m : Reg4) {s : State} (h : s.mem.wf = true) :
    outWf (execVgath d g b m s) := by
  simp [execVgath, h]

@[simp] theorem execVscat_wf (x : Reg8) (g : GReg) (b : Reg8) (m : Reg4) {s : State} (h : s.mem.wf = true) :
    outWf (execVscat x g b m s) := by
  simp [execVscat, h]

@[simp] theorem execLdtab_wf (a : GReg) {s : State} (h : s.mem.wf = true) : outWf (execLdtab a s) := by
  simp [execLdtab, h]

@[simp] theorem execLdtabQa_wf {s : State} (h : s.mem.wf = true) : outWf (execLdtabQa s) := by
  simp [execLdtabQa, h]

@[simp] theorem execLdtabQb_wf {s : State} (h : s.mem.wf = true) : outWf (execLdtabQb s) := by
  simp [execLdtabQb, h]

@[simp] theorem storeReads_mem (s : State) (r : Req) (l : List Nat) : (s.storeReads r l).1.mem = s.mem := by
  fun_induction State.storeReads s r l with
  | case1 => rfl
  | case2 _ _ _ _ _ _ e => exact mem_of_fst (by simp) e
  | case3 _ _ _ _ _ _ _ e _ ih => exact ih.trans (mem_of_fst (by simp) e)
  | case4 _ _ _ _ _ ih => exact ih

@[simp] theorem homeVec_wf (n : Nat) (r : Req) {s : State} (h : s.mem.wf = true) : (homeVec n r s).1.mem.wf = true := by
  unfold homeVec
  extract_lets core k isSt addr bad rep step
  have hs (x) (j : Nat) (hx : x.1.mem.wf = true) : (step x j).1.mem.wf = true := by
    obtain ⟨s, got, recs, tr⟩ := x
    have h1 : s.mem.wf = true := hx
    dsimp only [step]
    split
    · split
      · split
        · simp [h1]
        · exact storeAt_wf _ _ (homeWrote_wf _ _ (setRec_wf _ _ h1))
      · exact storeAt_wf _ _ h1
    · split <;> (try split) <;> simp [h1]
  rcases bad with _ | j
  · dsimp only
    split
    · simpa using h
    · split <;> rename_i e
      all_goals have h1 := wf_of_fst (by split <;> simp [h]) e
      · exact h1
      · exact foldl_fst_wf step _ hs h1
  · exact h

@[simp] theorem endVec_mem (s : State) (cx : Nat) (i : Instr) (got : List (Nat × Nat)) (made : Bool) :
    (s.endVec cx i got made).mem = s.mem := by
  fun_cases State.endVec s cx i got made <;> simp +zetaDelta

@[simp] theorem vecReply_mem (s : State) (rep : Reply) : (s.vecReply rep).mem = s.mem := by
  fun_cases State.vecReply s rep <;> simp +zetaDelta

@[simp] theorem laneHits_mem (s : State) (core n : Nat) (src : Option VWord) (l : List (Nat × Word × Loc)) :
    (s.laneHits core n src l).1.mem = s.mem := by
  fun_induction State.laneHits s core n src l with
  | case1 => rfl
  | case2 _ _ _ _ _ _ _ _ e ih =>
    subst e
    exact ih.trans (l1Store_mem ..)
  | case3 _ _ _ _ _ _ _ e0 _ _ _ e ih =>
    subst e0
    exact ih.trans (l1Touch_mem ..)
  | case4 _ _ _ _ _ _ ih | case5 _ _ _ _ ih => exact ih

@[simp] theorem refillLanes_wf {s : State} (core : Nat) (l : List (Nat × Word × Loc)) (h : s.mem.wf = true) :
    (s.refillLanes core l).mem.wf = true := by
  refine foldl_wf _ _ (fun s a h => ?_) h
  split
  · split <;> simp [h]
  · exact h

@[simp] theorem vecAccess_wf (i : Instr) (n : Nat) (src : Option VWord) (ls : List (Nat × Word × Loc)) {s : State}
    (h : s.mem.wf = true) : outWf (vecAccess i n src ls s) := by
  unfold vecAccess
  extract_lets core anyG rel hits rest
  split
  rename_i s1 got1 recs1 e
  extract_lets reqs late here own far
  split
  rename_i s2 got2 e2
  have h1 : s1.mem.wf = true := wf_of_fst (by simpa using h) e
  have h2 : s2.mem.wf = true := by
    refine wf_of_fst (foldl_fst_wf _ _ (fun x r hx => ?_) (refillLanes_wf core rest h1)) e2
    have := homeVec_wf n r hx
    split
    · exact wf_of_fst this ‹_›
    · exact wf_of_fst this ‹_›
  simp [h2]

@[simp] theorem vecEnter_wf (i : Instr) {s : State} (h : s.mem.wf = true) : outWf (vecEnter i s) := by
  fun_cases vecEnter i s <;> simp [h]

@[simp] theorem passSlot_mem (s : State) (core : Nat) : (s.passSlot core).mem = s.mem := by
  fun_cases State.passSlot s core <;> simp +zetaDelta

@[simp] theorem vecDone_wf {s : State} (core : Nat) (h : s.mem.wf = true) : (s.vecDone core).mem.wf = true := by
  refine foldl_wf _ _ (fun s j h => ?_) h
  dsimp only
  split
  · split
    · split <;> simp [h]
    · exact h
  · exact h

@[simp] theorem enterVec_wf {s : State} (cx : Nat) (h : s.mem.wf = true) : outWf (s.enterVec cx) := by
  fun_cases State.enterVec s cx <;> simp +zetaDelta +contextual [h]

@[simp] theorem execVectorSlotEntry_wf {s : State} (h : s.mem.wf = true) : outWf (execVectorSlotEntry s) := by
  fun_cases execVectorSlotEntry s <;> simp +zetaDelta [h]

@[simp] theorem putEp_mem (s : State) (e : Endpoint) : (s.putEp e).mem = s.mem := rfl

@[simp] theorem wakeNcw_wf {s : State} (die part : Nat) (h : s.mem.wf = true) : (s.wakeNcw die part).mem.wf = true := by
  refine foldl_wf _ _ (fun s cx h => ?_) h
  split
  · split
    · split <;> simp [h]
    · exact h
  · exact h

@[simp] theorem netSettled_wf {s : State} (e : Endpoint) (idx : Nat) (ok : Bool) (g : Sig) (h : s.mem.wf = true) :
    (s.netSettled e idx ok g).mem.wf = true := by
  simp [State.netSettled, h]

@[simp] theorem netWrite_wf {s : State} (e : Endpoint) (r : NReq) (h : s.mem.wf = true) :
    (s.netWrite e r).mem.wf = true := by
  fun_cases State.netWrite s e r <;> simp +zetaDelta [h]

@[simp] theorem netCompleteWith_wf {s : State} (die part ep idx code mask : Nat) (g : Sig) (h : s.mem.wf = true) :
    (s.netCompleteWith die part ep idx code mask g).mem.wf = true := by
  fun_cases State.netCompleteWith s die part ep idx code mask g <;> simp [h]

@[simp] theorem netComplete_wf {s : State} (die part ep idx code mask : Nat) (h : s.mem.wf = true) :
    (s.netComplete die part ep idx code mask).mem.wf = true := by
  simp [State.netComplete, h]

@[simp] theorem netFail_wf {s : State} (e : Endpoint) (code : Nat) (h : s.mem.wf = true) :
    (s.netFail e code).mem.wf = true := by
  simp [State.netFail, h]

@[simp] theorem netGo_wf {s : State} (e : Endpoint) (b src : List Byte) (h : s.mem.wf = true) :
    (s.netGo e b src).mem.wf = true := by
  fun_cases State.netGo s e b src <;> simp [h]

@[simp] theorem netStart_wf {s : State} (e : Endpoint) (h : s.mem.wf = true) : (s.netStart e).mem.wf = true := by
  have hc {t u : State} {l bad tid part} (h : t.mem.wf = true) (e : t.readCheck l tid part = (u, bad)) : u.mem.wf = true :=
    wf_of_fst (by simpa using h) e
  have hd {t : State} {who} (h : t.mem.wf = true) : (t.unitDone who).mem.wf = true := by simpa using h
  fun_cases State.netStart s e with
  | case1 | case2 => exact netFail_wf _ _ (hd (hc h ‹_›))
  | case3 =>
    have h1 := hc h ‹s.readCheck _ _ _ = _›
    simpa using h1
  | case4 => exact netFail_wf _ _ (hc (hd (hc h ‹s.readCheck _ _ _ = _›)) ‹State.readCheck _ _ _ _ = (_, true)›)
  | case5 => exact netGo_wf _ _ _ (hc (hd (hc h ‹s.readCheck _ _ _ = _›)) ‹State.readCheck _ _ _ _ = _›)
  | case6 => exact netFail_wf _ _ (hd h)
  | case7 => simpa using h

@[simp] theorem execWorkRequestStart_wf {s : State} (die part ep : Nat) (h : s.mem.wf = true) :
    outWf (execWorkRequestStart die part ep s) := by
  fun_cases execWorkRequestStart die part ep s <;> simp [h]

@[simp] theorem netDenied_wf {s : State} (die part ep idx : Nat) (h : s.mem.wf = true) :
    (s.netDenied die part ep idx).mem.wf = true := by
  fun_cases State.netDenied s die part ep idx <;> simp +zetaDelta [h]

@[simp] theorem transmit_wf {s : State} (e : Endpoint) (r : NReq) (p : NPkt) (h : s.mem.wf = true) :
    (s.transmit e r p).mem.wf = true := by
  fun_cases State.transmit s e r p <;> simp +zetaDelta [h]

@[simp] theorem execPacketSend_wf {s : State} (h : s.mem.wf = true) : outWf (execPacketSend s) := by
  fun_cases execPacketSend s <;> simp +zetaDelta [h]

@[simp] theorem resend_wf {s : State} (die part ep num : Nat) (h : s.mem.wf = true) :
    (s.resend die part ep num).mem.wf = true := by
  fun_cases State.resend s die part ep num <;> simp [h]

@[simp] theorem execRetransmitTimeout_wf {s : State} (die part ep num : Nat) (h : s.mem.wf = true) :
    outWf (execRetransmitTimeout die part ep num s) := by
  simp [execRetransmitTimeout, h]

@[simp] theorem execAckReceive_wf {s : State} (a : Ack) (h : s.mem.wf = true) : outWf (execAckReceive a s) := by
  fun_cases execAckReceive a s with
  | case1 => exact h
  | case2 =>
    refine foldl_wf _ _ (fun _ _ => resend_wf _ _ _ _) (foldl_wf _ _ (fun _ _ => netComplete_wf _ _ _ _ _ _)
      (foldl_wf _ _ (fun _ _ => netComplete_wf _ _ _ _ _ _) ?_))
    exact (congrArg Memory.wf (putEp_mem ..)).trans h

@[simp] theorem execPortLinkDown_wf {s : State} (h : s.mem.wf = true) : outWf (execPortLinkDown s) := by
  refine foldl_wf _ _ (fun _ _ => foldl_wf _ _ fun _ _ => resend_wf _ _ _ _) ?_
  simpa using h

@[simp] theorem execPortLinkUp_wf {s : State} (h : s.mem.wf = true) : outWf (execPortLinkUp s) := by
  simp [execPortLinkUp, h]

@[simp] theorem rxWait_mem (s : State) (die part : Nat) (x : RxDo) : (s.rxWait die part x).mem = s.mem := by
  fun_cases State.rxWait s die part x <;> simp

@[simp] theorem place_wf {s : State} (die part : Nat) (l : List (Word × Nat)) (b : List Byte) (h : s.mem.wf = true) :
    (s.place die part l b).1.mem.wf = true := by
  fun_induction State.place s die part l b with
  | case1 => exact h
  | case2 =>
    rename_i e ih
    exact wf_of_fst (ih (store_wf _ h)) e
  | case3 =>
    rename_i e ih
    exact wf_of_fst (ih h) e

@[simp] theorem rcRise_wf {s : State} (e : Endpoint) (roff len : Nat) (h : s.mem.wf = true) :
    (s.rcRise e roff len).mem.wf = true := by
  simp [State.rcRise, h]

@[simp] theorem sendAck_mem (s : State) (p : Packet) (covers : List Nat) (codes : List (Nat × Nat)) :
    (s.sendAck p covers codes).mem = s.mem := rfl

@[simp] theorem ackAll_mem (s : State) (e : Endpoint) (p : Packet) : (s.ackAll e p).mem = s.mem := rfl

@[simp] theorem placePacket_wf {s : State} (e : Endpoint) (p : Packet) (h : s.mem.wf = true) :
    (s.placePacket e p).mem.wf = true := by
  simp [State.placePacket, h]

@[simp] theorem execPacketReceive_wf {s : State} (p : Packet) (h : s.mem.wf = true) :
    outWf (execPacketReceive p s) := by
  fun_cases execPacketReceive p s <;> simp [h]

@[simp] theorem execFlitReceive_wf {s : State} (f : Flit) (h : s.mem.wf = true) : outWf (execFlitReceive f s) := by
  fun_cases execFlitReceive f s <;> simp +zetaDelta [h]

@[simp] theorem netLater_mem (s : State) (e : Endpoint) (core : Nat) : (s.netLater e core).mem = s.mem := rfl

@[simp] theorem netSpawn_mem (s : State) (e : Endpoint) : (s.netSpawn e).mem = s.mem := by
  fun_cases State.netSpawn s e <;> simp +zetaDelta

@[simp] theorem execNeSpawnSend_wf (die part ep : Nat) {s : State} (h : s.mem.wf = true) :
    outWf (execNeSpawnSend die part ep s) := by
  fun_cases execNeSpawnSend die part ep s <;> simp [h]

@[simp] theorem execNeSpawnRetry_wf (die part ep : Nat) {s : State} (h : s.mem.wf = true) :
    outWf (execNeSpawnRetry die part ep s) := by
  fun_cases execNeSpawnRetry die part ep s <;> simp [h]

@[simp] theorem answerNet_mem (s : State) (die part ep core reason : Nat) :
    (s.answerNet die part ep core reason).mem = s.mem := by
  fun_cases State.answerNet s die part ep core reason <;> simp

@[simp] theorem noticeNet_mem (s : State) (die core : Nat) : (s.noticeNet die core).mem = s.mem := rfl

@[simp] theorem endLate_mem (s : State) : (s.endLate).mem = s.mem := rfl

@[simp] theorem putRed_mem (s : State) (k : Nat) (r : Reduction) : (s.putRed k r).mem = s.mem := rfl

@[simp] theorem redFor_mem (s : State) (c : Contrib) : (s.redFor c).2.mem = s.mem := by
  fun_cases State.redFor s c <;> simp

@[simp] theorem switchAdd_wf {s : State} (c : Contrib) (h : s.mem.wf = true) : (s.switchAdd c).mem.wf = true := by
  have hr {k t} (e : s.endLate.redFor c = (k, t)) : t.mem.wf = true := wf_of_snd (by simp [h]) e
  fun_cases State.switchAdd s c <;> simpa using hr ‹_›

@[simp] theorem execReduceContribution_wf {s : State} (c : Contrib) (h : s.mem.wf = true) :
    outWf (execReduceContribution c s) := by
  simp [execReduceContribution, h]

@[simp] theorem execReduceTimeout_wf {s : State} (h : s.mem.wf = true) : outWf (execReduceTimeout s) := by
  fun_cases execReduceTimeout s <;> simp [h]

@[simp] theorem execReduceResult_wf {s : State} (h : s.mem.wf = true) : outWf (execReduceResult s) := by
  have h0 : (s.dropMsg s.sel).mem.wf = true := by simpa using h
  have hp {die part l b t x} (e : (s.dropMsg s.sel).place die part l b = (t, x)) : t.mem.wf = true :=
    wf_of_fst (place_wf die part l b h0) e
  fun_cases execReduceResult s with
  | case5 =>
    rename_i e
    have h1 := hp e
    exact netCompleteWith_wf _ _ _ _ _ _ _ (by simpa +zetaDelta using h1)
  | case6 =>
    rename_i s1 _ _ e s2 _ _ s3
    have h1 := hp e
    exact netCompleteWith_wf _ _ _ _ _ _ _ (by simp [s3, s2, h1])
  | _ => simp +zetaDelta [h]

@[simp] theorem homeNring_wf {s : State} (r : Req) (h : s.mem.wf = true) : (homeNring r s).1.mem.wf = true := by
  have hc {t : State} {b} (e : s.readCheck r.locs r.tid r.part = (t, b)) : t.mem.wf = true :=
    wf_of_fst (by simpa using h) e
  fun_cases homeNring r s with
  | case3 =>
    have h1 := hc ‹_›
    exact wakeNcw_wf _ _ h1
  | _ => exact hc ‹_›

@[simp] theorem execNring_wf (d a : GReg) {s : State} (h : s.mem.wf = true) : outWf (execNring d a s) := by
  simp [execNring, h]

@[simp] theorem homeNpost_mem (r : Req) (s : State) : (homeNpost r s).1.mem = s.mem := by
  fun_cases homeNpost r s <;> simp

@[simp] theorem execNpost_wf (d a n : GReg) {s : State} (h : s.mem.wf = true) : outWf (execNpost d a n s) := by
  simp [execNpost, h]

@[simp] theorem execNcnt_wf (d a : GReg) {s : State} (h : s.mem.wf = true) : outWf (execNcnt d a s) :=
  retire_wf _ h

@[simp] theorem execNcw_wf (a n : GReg) {s : State} (h : s.mem.wf = true) : outWf (execNcw a n s) := by
  fun_cases execNcw a n s <;> simp [h]

end Sys2Proof.Machine
end

section
/-! The memory in canonical form: the host link, system state, the tensor unit, service commands, walks and preemption. -/
namespace Sys2Proof.Machine

@[simp] theorem hostAnswer_mem (s : State) (h : HostAcc) (v : Nat) : (s.hostAnswer h v).mem = s.mem := by
  simp [State.hostAnswer]

@[simp] theorem hostDiscard_mem (s : State) (kind : Nat) (h : HostAcc) : (s.hostDiscard kind h).mem = s.mem := by
  simp [State.hostDiscard]

@[simp] theorem hostMem_wf {s : State} (kind : Nat) (h : HostAcc) (va : Word) (hs : s.mem.wf = true) :
    (s.hostMem kind h va).mem.wf = true := by
  unfold State.hostMem
  split <;> simp [hs]

@[simp] theorem hostNotify_wf {s : State} (h : HostAcc) (hs : s.mem.wf = true) : (s.hostNotify h).mem.wf = true := by
  simp [State.hostNotify, hs]

@[simp] theorem hostDo_wf {s : State} (kind : Nat) (h : HostAcc) (hs : s.mem.wf = true) :
    (s.hostDo kind h).mem.wf = true := by
  fun_cases State.hostDo s kind h <;> simp [hs]

@[simp] theorem hostAsk_mem (s : State) (kind : Nat) (h : HostAcc) : (s.hostAsk kind h).mem = s.mem := by
  fun_cases State.hostAsk s kind h <;> simp

@[simp] theorem hostEnter_wf {s : State} (kind : Nat) (h : HostAcc) (hs : s.mem.wf = true) :
    (s.hostEnter kind h).mem.wf = true := by
  simp [State.hostEnter, hs]

@[simp] theorem execHostBarAccess_wf (h : HostAcc) {s : State} (hs : s.mem.wf = true) :
    outWf (execHostBarAccess h s) := by
  simp [execHostBarAccess, hs]

@[simp] theorem execNotifyPageWrite_wf (h : HostAcc) {s : State} (hs : s.mem.wf = true) :
    outWf (execNotifyPageWrite h s) := by
  simp [execNotifyPageWrite, hs]

@[simp] theorem execWakePageWrite_wf (h : HostAcc) {s : State} (hs : s.mem.wf = true) :
    outWf (execWakePageWrite h s) := by
  simp [execWakePageWrite, hs]

@[simp] theorem execAttestationRequest_wf (nonce : BitVec 256) (vf : Option Nat) {s : State} (h : s.mem.wf = true) :
    outWf (execAttestationRequest nonce vf s) := by
  simp [execAttestationRequest, h]

@[simp] theorem execNop_wf {s : State} (h : s.mem.wf = true) : outWf (execNop s) :=
  retire_wf _ h

@[simp] theorem execTrap_wf (n : BitVec 12) {s : State} (h : s.mem.wf = true) : outWf (execTrap n s) := by
  simp [execTrap, h]

@[simp] theorem execBrk_wf (n : BitVec 12) {s : State} (h : s.mem.wf = true) : outWf (execBrk n s) :=
  trap_wf _ _ h

@[simp] theorem execEret_wf {s : State} (h : s.mem.wf = true) : outWf (execEret s) := by
  simp [execEret, h]

@[simp] theorem execHalt_wf {s : State} (h : s.mem.wf = true) : outWf (execHalt s) := by
  simp [execHalt, h]

@[simp] theorem execMfs_wf (d : GReg) (r : SysReg) {s : State} (h : s.mem.wf = true) : outWf (execMfs d r s) :=
  retire_wf _ h

@[simp] theorem mtsField_wf (r : SysReg) (a : GReg) (rsv v : Word) (f : Ctx → Ctx) {s : State} (h : s.mem.wf = true) :
    outWf (mtsField r a rsv v f s) := by
  simp [mtsField, h]

@[simp] theorem execMts_wf (r : SysReg) (a : GReg) {s : State} (h : s.mem.wf = true) : outWf (execMts r a s) := by
  fun_cases execMts r a s <;> simp +zetaDelta +contextual [h]

@[simp] theorem fifoDone_mem (s : State) (x : FifoWait) (v : Word) : (s.fifoDone x v).mem = s.mem := by
  fun_cases State.fifoDone s x v <;> simp

@[simp] theorem servePush_mem (s : State) (core : Nat) (c : Reg4) : (s.servePush core c).mem = s.mem := by
  fun_cases State.servePush s core c <;> simp

@[simp] theorem servePop_mem (s : State) (core : Nat) (c : Reg4) : (s.servePop core c).mem = s.mem := by
  fun_cases State.servePop s core c <;> simp

@[simp] theorem execFifoPop_wf {s : State} (d : GReg) (c : Reg4) (h : s.mem.wf = true) : outWf (execFifoPop d c s) := by
  have hr {f k o} (e : retire f (s.setCore s.myCore k) = o) : outWf o := e ▸ retire_wf f h
  fun_cases execFifoPop d c s with
  | case1 =>
    have h1 := hr ‹_›
    exact (congrArg Memory.wf (servePush_mem ..)).trans h1
  | case2 => exact hr rfl
  | case3 => simpa using h

@[simp] theorem execFifoPush_wf {s : State} (c : Reg4) (a : GReg) (h : s.mem.wf = true) :
    outWf (execFifoPush c a s) := by
  have hr {f k o} (e : retire f (s.setCore s.myCore k) = o) : outWf o := e ▸ retire_wf f h
  fun_cases execFifoPush c a s with
  | case1 =>
    have h1 := hr ‹_›
    exact (congrArg Memory.wf (servePop_mem ..)).trans h1
  | case2 => exact hr rfl
  | case3 => simpa using h

@[simp] theorem tlbShoot_mem (s : State) (part : Nat) (va : Option Word) (core cluster : Nat → Bool) :
    (s.tlbShoot part va core cluster).mem = s.mem := rfl

@[simp] theorem tlbInval_wf (i : Instr) (sc : Scope) (va : Option Word) {s : State} (h : s.mem.wf = true) :
    outWf (tlbInval i sc va s) := by
  simp [tlbInval, h]

@[simp] theorem execTlbi_wf (sc : Scope) (a : GReg) {s : State} (h : s.mem.wf = true) : outWf (execTlbi sc a s) := by
  simp [execTlbi, h]

@[simp] theorem execTlbiAll_wf (sc : Scope) {s : State} (h : s.mem.wf = true) : outWf (execTlbiAll sc s) := by
  simp [execTlbiAll, h]

theorem aheadWord_mem {s t : State} {cx : Nat} {a : Word} {w : IWord} (e : s.aheadWord cx a = some (w, t)) :
    t.mem = s.mem := by
  revert e
  fun_cases State.aheadWord s cx a <;> intro e <;> cases e
  exact mem_of_fst (icacheRead_mem ..) ‹_›

@[simp] theorem fetchAhead_mem (s : State) (cx : Nat) (a : Word) (n : Nat) : (s.fetchAhead cx a n).1.mem = s.mem := by
  fun_induction State.fetchAhead s cx a n with
  | case1 | case4 => rfl
  | case2 =>
    rename_i e ih
    exact mem_of_fst ih e
  | case3 =>
    rename_i e0 _ _ e ih
    exact (mem_of_fst ih e).trans (aheadWord_mem e0)

@[simp] theorem execRunAheadFetch_wf {s : State} (cx n : Nat) (h : s.mem.wf = true) :
    outWf (execRunAheadFetch cx n s) := by
  simp [execRunAheadFetch, h]

@[simp] theorem execReadRetry_wf (line : Nat) (f : ReadFault) {s : State} (h : s.mem.wf = true) :
    outWf (execReadRetry line f s) := by
  simp [execReadRetry, h]

@[simp] theorem checkImg_wf (x : Word) (al : Nat) (kind : ImgKind) {s : State} (go : State → Out) (h : s.mem.wf = true)
    (hgo : ∀ s : State, s.mem.wf = true → outWf (go s)) : outWf (checkImg x al kind s go) := by
  fun_cases checkImg x al kind s go <;> simp [h, hgo]

@[simp] theorem enqueueTensor_wf (i : Instr) (vals : List Nat) {s : State} (h : s.mem.wf = true) :
    outWf (enqueueTensor i vals s) := by
  simp [enqueueTensor, h]

@[simp] theorem execMclr_wf (n : Reg4) {s : State} (h : s.mem.wf = true) : outWf (execMclr n s) := by
  simp [execMclr, h]

@[simp] theorem execMmaQ8_wf {s : State} (n : Reg4) (a b z : GReg) (h : s.mem.wf = true) :
    outWf (execMmaQ8 n a b z s) :=
  checkImg_wf _ _ _ _ h fun _ h => checkImg_wf _ _ _ _ h fun _ h => checkImg_wf _ _ _ _ h fun _ h =>
    enqueueTensor_wf _ _ h

@[simp] theorem execMmaH16_wf {s : State} (n : Reg4) (a b : GReg) (h : s.mem.wf = true) : outWf (execMmaH16 n a b s) :=
  checkImg_wf _ _ _ _ h fun _ h => checkImg_wf _ _ _ _ h fun _ h => enqueueTensor_wf _ _ h

@[simp] theorem execMmrQ8_wf {s : State} (n : Reg4) (a z : GReg) (h : s.mem.wf = true) : outWf (execMmrQ8 n a z s) :=
  checkImg_wf _ _ _ _ h fun _ h => checkImg_wf _ _ _ _ h fun _ h => enqueueTensor_wf _ _ h

@[simp] theorem execMmrH16_wf (n : Reg4) (a : GReg) {s : State} (h : s.mem.wf = true) : outWf (execMmrH16 n a s) := by
  simp +contextual [execMmrH16, h]

@[simp] theorem execMlatch_wf (f : TFmt) (b : GReg) {s : State} (h : s.mem.wf = true) : outWf (execMlatch f b s) := by
  simp +contextual [execMlatch, h]

@[simp] theorem execMld_wf (n : Reg4) (a : GReg) {s : State} (h : s.mem.wf = true) : outWf (execMld n a s) := by
  simp +contextual [execMld, h]

@[simp] theorem execMst_wf (n : Reg4) (a : GReg) {s : State} (h : s.mem.wf = true) : outWf (execMst n a s) := by
  simp +contextual [execMst, h]

@[simp] theorem execMshp_wf (a : GReg) (sh : Shape) {s : State} (h : s.mem.wf = true) : outWf (execMshp a sh s) := by
  simp [execMshp, h]

@[simp] theorem execMcv_wf {s : State} (n : Reg4) (a b z : GReg) (sh : Shape) (h : s.mem.wf = true) :
    outWf (execMcv n a b z sh s) := by
  unfold execMcv
  extract_lets i x
  split
  · exact illegal_wf _ h
  · split
    · exact illegal_wf _ h
    · exact checkImg_wf _ _ _ _ h fun _ h => checkImg_wf _ _ _ _ h fun _ h => enqueueTensor_wf _ _ h

@[simp] theorem setAcc_mem (s : State) (core n : Nat) (v : BitVec 8192) : (s.setAcc core n v).mem = s.mem := rfl

@[simp] theorem tensorTrap_mem (s : State) (q : Nat) (o : TOp) (cause : Nat) (va : Word) (ptyp pfx : Bool) :
    (s.tensorTrap q o cause va ptyp pfx).mem = s.mem := by
  simp [State.tensorTrap]

@[simp] theorem tensorRun_mem (s : State) (q : Nat) (o : TOp) : (s.tensorRun q o).mem = s.mem := by
  simp [State.tensorRun]

@[simp] theorem runMmr_mem (s : State) (q : Nat) (o : TOp) (h16 : Bool) (x : BitVec 4096) (sc : Nat) :
    (s.runMmr q o h16 x sc).mem = s.mem := by
  fun_cases State.runMmr s q o h16 x sc <;> simp +zetaDelta

@[simp] theorem tensorPerform_mem (s : State) (q : Nat) (o : TOp) (locs : List Nat) :
    (s.tensorPerform q o locs).mem = s.mem := by
  fun_cases State.tensorPerform s q o locs <;> simp

@[simp] theorem tensorRead_mem (s : State) (o : TOp) (l : List (Word × Nat)) : (s.tensorRead o l).1.mem = s.mem := by
  fun_induction State.tensorRead s o l with
  | case1 => rfl
  | case2 => exact mem_of_fst (readCheck_mem ..) ‹_›
  | case3 =>
    rename_i e _ ih
    exact ih.trans (mem_of_fst (readCheck_mem ..) e)

@[simp] theorem tensorStore_wf {s : State} (q : Nat) (o : TOp) (h : s.mem.wf = true) :
    (s.tensorStore q o).mem.wf = true := by
  simp [State.tensorStore, h]

@[simp] theorem tensorBegin_mem (s : State) (q : Nat) : (s.tensorBegin q).mem = s.mem := by
  simp [State.tensorBegin]

@[simp] theorem execTensorOpStart_wf {s : State} (h : s.mem.wf = true) : outWf (execTensorOpStart s) := by
  have hr {o l t x} (e : (s.tensorBegin s.sel).tensorRead o l = (t, x)) : t.mem.wf = true :=
    wf_of_fst (by simpa using h) e
  fun_cases execTensorOpStart s with
  | case4 | case5 | case6 =>
    have h1 := hr ‹_›
    simp [h1]
  | _ => simp +zetaDelta [h]

@[simp] theorem tensorRelease_mem (s : State) (o : TOp) : (s.tensorRelease o).mem = s.mem := by
  simp [State.tensorRelease]

@[simp] theorem execTensorOpComplete_wf (quad k : Nat) {s : State} (h : s.mem.wf = true) :
    outWf (execTensorOpComplete quad k s) := by
  fun_cases execTensorOpComplete quad k s <;> simp [h]

@[simp] theorem execTileArrival_wf {s : State} (h : s.mem.wf = true) : outWf (execTileArrival s) := by
  fun_cases execTileArrival s <;> simp [h]

@[simp] theorem cmdDone_mem (s : State) (die : Nat) (c : Cmd) (status : Nat) :
    (s.cmdDone die c status).mem = s.mem := rfl

@[simp] theorem cmdStage_mem (s : State) (die : Nat) (c : Cmd) (n : Nat) : (s.cmdStage die c n).mem = s.mem := rfl

@[simp] theorem withCmd_wf (i : Instr) {s : State} (k : CmdRec → State → State) (h : s.mem.wf = true)
    (hk : ∀ r (s : State), s.mem.wf = true → (k r s).mem.wf = true) : outWf (withCmd i s k) := by
  fun_cases withCmd i s k <;> simp +zetaDelta [h, hk]

@[simp] theorem withPage_wf {s : State} (c : Cmd) (k : Nat → Nat → State) (h : s.mem.wf = true)
    (hk : ∀ core page, (k core page).mem.wf = true) : (s.withPage c k).mem.wf = true := by
  simp [State.withPage, h, hk]

@[simp] theorem execPdesc_wf {s : State} (h : s.mem.wf = true) : outWf (execPdesc s) := by
  simp +contextual [execPdesc, h]

@[simp] theorem execUnpin_wf {s : State} (h : s.mem.wf = true) : outWf (execUnpin s) := by
  simp +contextual [execUnpin, h]

@[simp] theorem execSetregMring_wf {s : State} (h : s.mem.wf = true) : outWf (execSetregMring s) := by
  simp [execSetregMring, h]

@[simp] theorem execSetregSopol_wf {s : State} (h : s.mem.wf = true) : outWf (execSetregSopol s) := by
  simp [execSetregSopol, h]

@[simp] theorem execSetregGpol_wf {s : State} (h : s.mem.wf = true) : outWf (execSetregGpol s) := by
  simp [execSetregGpol, h]

@[simp] theorem execPtroot_wf {s : State} (h : s.mem.wf = true) : outWf (execPtroot s) := by
  simp [execPtroot, h]

@[simp] theorem withEntry_wf {s : State} (c : Cmd) (k : FaultEnt → State) (h : s.mem.wf = true)
    (hk : ∀ e, (k e).mem.wf = true) : (s.withEntry c k).mem.wf = true := by
  fun_cases State.withEntry s c k <;> simp [h, hk]

@[simp] theorem dropEntry_mem (s : State) (c : Cmd) : (s.dropEntry c).mem = s.mem := rfl

@[simp] theorem execFqreplay_wf {s : State} (h : s.mem.wf = true) : outWf (execFqreplay s) :=
  withCmd_wf _ _ h fun _ _ h => withEntry_wf _ _ h fun _ => by simp +contextual [foldl_wf, h]

@[simp] theorem refuseReq_mem (s : State) (cause page cx : Nat) (tid : BitVec 32) :
    (s.refuseReq cause page cx tid).mem = s.mem := rfl

@[simp] theorem refuseTensor_mem (s : State) (cause : Nat) (cx : Nat) (tid : BitVec 32) (va : Nat) :
    (s.refuseTensor cause cx tid va).mem = s.mem := by
  fun_cases State.refuseTensor s cause cx tid va <;> simp +zetaDelta

@[simp] theorem refuse_wf (cause va page : Nat) {s : State} (r : Requester) (h : s.mem.wf = true) :
    (State.refuse cause va page s r).mem.wf = true := by
  fun_cases State.refuse cause va page s r <;> simp [h]

@[simp] theorem execFqdeny_wf {s : State} (h : s.mem.wf = true) : outWf (execFqdeny s) := by
  refine withCmd_wf _ _ h fun _ _ h => withEntry_wf _ _ h fun _ => ?_
  exact (congrArg Memory.wf (cmdDone_mem ..)).trans (foldl_wf _ _ (fun _ _ => refuse_wf _ _ _ _) (by simpa using h))

@[simp] theorem execTlbshoot_wf {s : State} (h : s.mem.wf = true) : outWf (execTlbshoot s) := by
  simp [execTlbshoot, h]

@[simp] theorem execResume0_wf {s : State} (h : s.mem.wf = true) : outWf (execResume0 s) := by
  simp [execResume0, h]

@[simp] theorem execLaunch_wf {s : State} (h : s.mem.wf = true) : outWf (execLaunch s) := by
  refine withCmd_wf _ _ h fun r s h => ?_
  dsimp only
  repeat' split
  all_goals simp [h]

@[simp] theorem dropGraph_mem (s : State) (part handle : Nat) : (s.dropGraph part handle).mem = s.mem := by
  simp [State.dropGraph]

@[simp] theorem execTgdrop_wf {s : State} (h : s.mem.wf = true) : outWf (execTgdrop s) := by
  simp [execTgdrop, h]

@[simp] theorem execSettres_wf {s : State} (h : s.mem.wf = true) : outWf (execSettres s) := by
  simp [execSettres, h]

@[simp] theorem execSetdrth_wf {s : State} (h : s.mem.wf = true) : outWf (execSetdrth s) := by
  simp +contextual [execSetdrth, foldl_wf, h]

@[simp] theorem execRecclr_wf {s : State} (h : s.mem.wf = true) : outWf (execRecclr s) := by
  simp [execRecclr, h]

@[simp] theorem execUnassignedCommand_wf {s : State} (h : s.mem.wf = true) : outWf (execUnassignedCommand s) := by
  simp +contextual [execUnassignedCommand, h]

@[simp] theorem execSpawnAnswer_wf {s : State} (h : s.mem.wf = true) : outWf (execSpawnAnswer s) := by
  fun_cases execSpawnAnswer s <;> simp +zetaDelta [h]

@[simp] theorem execContextFreeNotice_wf {s : State} (h : s.mem.wf = true) : outWf (execContextFreeNotice s) := by
  fun_cases execContextFreeNotice s <;> simp +zetaDelta [h]

@[simp] theorem readEntries_mem (s : State) (tid : BitVec 32) (part : Nat) (l : List Nat) :
    (s.readEntries tid part l).1.mem = s.mem := by
  fun_induction State.readEntries s tid part l with
  | case1 => rfl
  | case2 => exact mem_of_fst (readCheck_mem ..) ‹_›
  | case3 =>
    rename_i e ih
    exact ih.trans (mem_of_fst (readCheck_mem ..) e)

@[simp] theorem walkEnd_mem (s : State) (core part : Nat) (va : Word) (tid : BitVec 32) :
    (s.walkEnd core part va tid).1.mem = s.mem := by
  have hr {t x} (e : s.readEntries tid part (s.walkReads part va) = (t, x)) : t.mem = s.mem :=
    mem_of_fst (readEntries_mem ..) e
  fun_cases State.walkEnd s core part va tid with
  | case1 => rfl
  | _ => exact hr ‹_›

@[simp] theorem ghostLeaves_mem (s : State) (who : Requester) : (s.ghostLeaves who).mem = s.mem := by
  fun_cases State.ghostLeaves s who <;> simp

@[simp] theorem blockReq_mem (s : State) (who : Requester) : (s.blockReq who).mem = s.mem := by
  fun_cases State.blockReq s who <;> simp

@[simp] theorem keepWalk_mem (s : State) (who : Requester) (part va : Nat) (e : Option TlbEnt) :
    (s.keepWalk who part va e).mem = s.mem := by
  fun_cases State.keepWalk s who part va e <;> simp +zetaDelta

@[simp] theorem endWalk_wf {s : State} (who : Requester) (cx va kind part : Nat) (h : s.mem.wf = true) :
    (s.endWalk who cx va kind part).mem.wf = true := by
  have hw {tid t x} (e : s.walkEnd (coreOf cx) part (BitVec.ofNat 64 va) tid = (t, x)) : t.mem.wf = true :=
    wf_of_fst (by simpa using h) e
  fun_cases State.endWalk s who cx va kind part with
  | case5 =>
    rename_i e
    have h1 := hw ‹_›
    simp [queueFault_mem e, h1]
  | case8 => exact h
  | _ =>
    have h1 := hw ‹_›
    simp [h1]

@[simp] theorem endWalks_wf {s : State} (l : List Msg) (h : s.mem.wf = true) : (s.endWalks l).mem.wf = true := by
  fun_induction State.endWalks s l with
  | case1 => exact h
  | case2 _ _ _ _ _ _ _ _ ih => exact ih (endWalk_wf _ _ _ _ _ h)
  | case3 _ _ _ _ ih => exact ih h

@[simp] theorem execWalkComplete_wf {s : State} (h : s.mem.wf = true) : outWf (execWalkComplete s) := by
  fun_cases execWalkComplete s <;> simp +zetaDelta [h]

@[simp] theorem execClusterTlbHit_wf {s : State} (h : s.mem.wf = true) : outWf (execClusterTlbHit s) := by
  fun_cases execClusterTlbHit s <;> simp +zetaDelta [h]

@[simp] theorem dropBlocked_mem (s : State) (part : Nat) : (s.dropBlocked part).mem = s.mem := by
  refine (foldl_mem _ _ _ fun t m => ?_).trans rfl
  split
  · split <;> simp
  · rfl

@[simp] theorem putFields_wf {s : State} (base : Nat) (l : List Field) (h : s.mem.wf = true) :
    (s.putFields base l).mem.wf = true := by
  simp +contextual [State.putFields, foldl_wf, h]

@[simp] theorem saveCore_wf {s : State} (area n core : Nat) (h : s.mem.wf = true) :
    (s.saveCore area n core).mem.wf = true :=
  foldl_wf _ _ (fun _ _ => putFields_wf _ _) (putFields_wf _ _ (memClear_wf _ _ _ h))

@[simp] theorem saveCores_wf {s : State} (area n : Nat) (l : List Nat) (h : s.mem.wf = true) :
    (s.saveCores area n l).mem.wf = true := by
  induction l generalizing s n with
  | nil => exact h
  | cons k l ih => exact ih _ (saveCore_wf _ _ _ h)

@[simp] theorem suspend_mem (s : State) (part : Nat) (b : Bool) : (s.suspend part b).mem = s.mem := rfl

@[simp] theorem finishHands_mem (s : State) (part : Nat) : (s.finishHands part).mem = s.mem := by
  refine foldl_mem _ _ _ fun t e => ?_
  split
  · split <;> simp
  · rfl

@[simp] theorem leaveQueues_mem (s : State) (part : Nat) : (s.leaveQueues part).mem = s.mem := rfl

@[simp] theorem clearOut_mem (s : State) (part : Nat) : (s.clearOut part).mem = s.mem := rfl

@[simp] theorem unpinAll_wf {s : State} (part : Nat) (h : s.mem.wf = true) : (s.unpinAll part).mem.wf = true :=
  foldl_wf _ _ (fun _ _ => foldl_wf _ _ fun _ _ => unpinNow_wf _ _) h

@[simp] theorem putOut_wf {s : State} (part area : Nat) (h : s.mem.wf = true) : (s.putOut part area).mem.wf = true := by
  unfold State.putOut
  extract_lets s1 s2 s3 kept s4 s5
  have h2 : s2.mem.wf = true := foldl_wf _ _ (fun _ _ h => by simpa using h) (by simpa [s1] using h)
  have h3 : s3.mem.wf = true := by simp [s3, h2]
  have h4 : s4.mem.wf = true := by simp [s4, h3]
  have h5 : s5.mem.wf = true := by simp [s5, h4]
  simpa using h5

@[simp] theorem execPreempt_wf {s : State} (h : s.mem.wf = true) : outWf (execPreempt s) := by
  simp +contextual [execPreempt, h]

@[simp] theorem loadCore_wf {s : State} (k : Kept) (area n core : Nat) (h : s.mem.wf = true) :
    (s.loadCore k area n core).mem.wf = true := by
  simp +contextual [State.loadCore, foldl_wf, h]

@[simp] theorem loadCores_wf {s : State} (k : Kept) (area n : Nat) (l : List Nat) (h : s.mem.wf = true) :
    (s.loadCores k area n l).mem.wf = true := by
  induction l generalizing s n with
  | nil => exact h
  | cons c l ih => exact ih _ (loadCore_wf _ _ _ _ h)

@[simp] theorem readArea_mem (s : State) (part base n : Nat) : (s.readArea part base n).mem = s.mem := by
  simp [State.readArea]

@[simp] theorem resumePart_mem (s : State) (part : Nat) : (s.resumePart part).mem = s.mem := rfl

@[simp] theorem execRestore_wf {s : State} (h : s.mem.wf = true) : outWf (execRestore s) := by
  refine withCmd_wf _ _ h fun r s h => ?_
  dsimp only
  split
  · split <;> simp [h]
  · split
    · simp [h]
    · simp [h]

end Sys2Proof.Machine
end

section
/-! The memory in canonical form: requests at their homes, teardown, start, the loader and scalar instructions. -/
namespace Sys2Proof.Machine

@[simp] theorem performAt_wf (r : Req) {s : State} (h : s.mem.wf = true) : (performAt r s).1.mem.wf = true := by
  fun_cases performAt r s <;> simp [h]

@[simp] theorem endWith_wf (i : Instr) (rep : Reply) {s : State} (h : s.mem.wf = true) :
    (endWith i rep s).mem.wf = true := by
  fun_cases endWith i rep s <;> simp [h]

@[simp] theorem execRemoteReply_wf {s : State} (h : s.mem.wf = true) : outWf (execRemoteReply s) := by
  fun_cases execRemoteReply s <;> simp +zetaDelta [h]

@[simp] theorem localWhy_mem (s : State) (r : Req) (why : Nat) : (s.localWhy r why).mem = s.mem := by
  simp [State.localWhy]

@[simp] theorem perform_wf {s : State} (r : Req) (h : s.mem.wf = true) : (s.perform r).mem.wf = true := by
  have hp {t x} (e : performAt r s = (t, x)) : t.mem.wf = true := wf_of_fst (performAt_wf r h) e
  fun_cases State.perform s r <;> simp +zetaDelta [hp ‹_›]

@[simp] theorem takeReq_mem (s : State) (k : Nat) (r : Req) : (s.takeReq k r).mem = s.mem := by
  fun_cases State.takeReq s k r <;> simp

@[simp] theorem toFront_mem (s : State) (k page : Nat) (r : Req) : (s.toFront k page r).mem = s.mem := by
  fun_cases State.toFront s k page r <;> simp +zetaDelta

@[simp] theorem reqFault_mem (s : State) (k : Nat) (r : Req) (core page : Nat) :
    (s.reqFault k r core page).mem = s.mem := by
  fun_cases State.reqFault s k r core page with
  | case1 _ e => simpa using pageFault_mem e
  | case2 => rfl

@[simp] theorem performOrWait_wf {s : State} (k : Nat) (r : Req) (h : s.mem.wf = true) :
    (s.performOrWait k r).mem.wf = true := by
  fun_cases State.performOrWait s k r <;> simp +zetaDelta [h]

@[simp] theorem arrive_wf {s : State} (k : Nat) (r : Req) (h : s.mem.wf = true) : (s.arrive k r).mem.wf = true := by
  fun_cases State.arrive s k r <;> simp [h]

@[simp] theorem execRemoteRequest_wf {s : State} (h : s.mem.wf = true) : outWf (execRemoteRequest s) := by
  fun_cases execRemoteRequest s <;> simp [h]

@[simp] theorem execHomeSliceAccess_wf {s : State} (h : s.mem.wf = true) : outWf (execHomeSliceAccess s) := by
  fun_cases execHomeSliceAccess s <;> simp [h]

@[simp] theorem setQueue_mem (s : State) (loc : Nat) (t : List QItem) : (s.setQueue loc t).mem = s.mem := rfl

@[simp] theorem grantTo_wf {s : State} (loc : Nat) (r : Req) (t : List QItem) (h : s.mem.wf = true) :
    (s.grantTo loc r t).mem.wf = true := by
  simp [State.grantTo, h]

@[simp] theorem grantItem_wf {s : State} (loc : Nat) (i : QItem) (t : List QItem) (h : s.mem.wf = true) :
    (s.grantItem loc i t).mem.wf = true := by
  fun_cases State.grantItem s loc i t <;> simp +zetaDelta [h]

@[simp] theorem execReservationGrant_wf {s : State} (h : s.mem.wf = true) : outWf (execReservationGrant s) := by
  fun_cases execReservationGrant s <;> simp [h]

@[simp] theorem execReservationBreak_wf {s : State} (h : s.mem.wf = true) : outWf (execReservationBreak s) := by
  simp [execReservationBreak, h]

@[simp] theorem dropContexts_mem (s : State) (cluster : Nat) : (s.dropContexts cluster).mem = s.mem := rfl

@[simp] theorem resetCluster_wf (s0 : State) (cluster : Nat) (h : s0.mem.wf = true) :
    (s0.resetCluster cluster).mem.wf = true := by
  simp [State.resetCluster, h]

@[simp] theorem execClusterHandover_wf {s : State} (cluster : Nat) (part : Option Nat) (h : s.mem.wf = true) :
    outWf (execClusterHandover cluster part s) := by
  fun_cases execClusterHandover cluster part s with
  | case1 => exact h
  | case2 _ s1 =>
    have h1 : s1.mem.wf = true := foldl_wf _ _ (fun _ _ => invalidateAll_wf _) h
    simp [h1]

@[simp] theorem termLaunch_wf (tstat : Nat) {s : State} (l : Launch) (h : s.mem.wf = true) :
    (State.termLaunch tstat s l).mem.wf = true := by
  simp [State.termLaunch, h]

@[simp] theorem termLaunches_wf {s : State} (part tstat : Nat) (h : s.mem.wf = true) :
    (s.termLaunches part tstat).mem.wf = true := by
  simp +contextual [State.termLaunches, foldl_wf, h]

@[simp] theorem termLost_mem (s : State) (l : Launch) : (s.termLost l).mem = s.mem := by
  simp [State.termLost]

@[simp] theorem dropUnits_wf {s : State} (part : Nat) (h : s.mem.wf = true) : (s.dropUnits part).mem.wf = true := by
  simp +contextual [State.dropUnits, foldl_wf, h]

@[simp] theorem dropFaults_mem (s : State) (part : Nat) : (s.dropFaults part).mem = s.mem := rfl

@[simp] theorem endLaunchCmds_mem (s : State) (part : Nat) : (s.endLaunchCmds part).mem = s.mem := rfl

@[simp] theorem endAll_mem (s : State) (part : Nat) : (s.endAll part).mem = s.mem := by
  simp [State.endAll, foldl_mem]

@[simp] theorem dropMsgs_mem (s : State) (part : Nat) : (s.dropMsgs part).mem = s.mem := rfl

@[simp] theorem termStop_wf {s : State} (part tstat : Nat) (h : s.mem.wf = true) :
    (s.termStop part tstat).mem.wf = true := by
  simp [State.termStop, h]

@[simp] theorem termFleet_mem (s : State) (part : Nat) : (s.termFleet part).mem = s.mem := rfl

@[simp] theorem termEnd_wf {s : State} (part : Nat) (h : s.mem.wf = true) : (s.termEnd part).mem.wf = true := by
  unfold State.termEnd
  extract_lets s0 s1 s2 s3
  have h0 : s0.mem.wf = true := foldl_wf _ _ (fun _ _ h => by simp [h]) h
  have h1 : s1.mem.wf = true := by
    have h2 := sweepClear_wf part (sweepPass_wf part h0)
    simp [s1, h2]
  have h3 : s3.mem.wf = true := by simp [s3, s2, h1]
  simp +contextual [foldl_wf, h3]

@[simp] theorem execTerm_wf {s : State} (h : s.mem.wf = true) : outWf (execTerm s) := by
  simp +contextual [execTerm, h]

@[simp] theorem started_wf (s : State) (i : StartInput) (x : StartRun) : (s.started i x).mem.wf = true := rfl

@[simp] theorem execDeviceReset_wf (i : StartInput) (s : State) : outWf (execDeviceReset i s) := by
  fun_cases execDeviceReset i s
  · rfl
  · exact started_wf _ _ _

@[simp] theorem expose_mem (s : State) : (s.expose).mem = s.mem := rfl

@[simp] theorem execFirmwareUpdate_wf (lantern : Bool) (version : Nat) (verified : Bool) {s : State}
    (h : s.mem.wf = true) : outWf (execFirmwareUpdate lantern version verified s) := by
  simp [execFirmwareUpdate, h]

theorem takeAllotted_mem {s t : State} {part kind p : Nat} {ok : Nat → Bool}
    (e : s.takeAllotted part kind ok = some (p, t)) : t.mem = s.mem := by
  obtain ⟨_, _, h⟩ := Option.map_eq_some_iff.mp e
  cases h
  rfl

@[simp] theorem putEntry_wf {s : State} (pa v : Nat) (h : s.mem.wf = true) : (s.putEntry pa v).mem.wf = true := by
  simp [State.putEntry, h]

theorem mapIn_wf {s t : State} {part : Nat} {va : Word} {leaf level table : Nat} (h : s.mem.wf = true)
    (e : State.mapIn part va leaf level table s = some t) : t.mem.wf = true := by
  revert e
  fun_induction State.mapIn part va leaf level table s <;> intro e
  case case1 =>
    cases e
    exact putEntry_wf _ _ h
  case case3 ih => exact ih h e
  case case4 e1 s2 ih =>
    have h2 : s2.mem.wf = true := memClear_wf _ _ _ (takeAllotted_mem e1 ▸ h)
    exact ih (putEntry_wf _ _ h2) e
  all_goals cases e

theorem mapPage_wf {s t : State} {part : Nat} {va : Word} (h : s.mem.wf = true) (e : s.mapPage part va = some t) :
    t.mem.wf = true := by
  revert e
  fun_cases State.mapPage s part va <;> intro e
  case case1 =>
    cases e
    exact h
  case case3 e1 _ => exact mapIn_wf (takeAllotted_mem e1 ▸ h) e
  all_goals cases e

theorem mapAll_wf {s t : State} {part : Nat} {l : List (Word × Nat)} (h : s.mem.wf = true)
    (e : s.mapAll part l = some t) : t.mem.wf = true := by
  induction l generalizing s with
  | nil =>
    cases e
    exact h
  | cons x l ih =>
    obtain ⟨s1, h1, h2⟩ := Option.bind_eq_some_iff.mp e
    exact ih (mapPage_wf h h1) h2

@[simp] theorem setPerm_wf {s : State} (part : Nat) (va : Word) (w x : Bool) (h : s.mem.wf = true) :
    (s.setPerm part va w x).mem.wf = true := by
  fun_cases State.setPerm s part va w x <;> simp [h]

@[simp] theorem setPerms_wf {s : State} (part : Nat) (o : ObjImage) (x : ObjSec) (h : s.mem.wf = true) :
    (s.setPerms part o x).mem.wf = true := by
  fun_cases State.setPerms s part o x <;> simp +zetaDelta +contextual [foldl_wf, h]

@[simp] theorem loadBytes_wf {s : State} (part : Nat) (va : Word) (b : List Byte) (h : s.mem.wf = true) :
    (s.loadBytes part va b).mem.wf = true := by
  fun_cases State.loadBytes s part va b <;> simp [h]

@[simp] theorem placeObject_wf {s : State} (part : Nat) (o : ObjImage) (h : s.mem.wf = true) :
    (s.placeObject part o).mem.wf = true := by
  unfold State.placeObject
  extract_lets s1 s2 s3
  have h1 : s1.mem.wf = true := foldl_wf _ _ (fun _ _ h => by simp [h]) h
  have h2 : s2.mem.wf = true := foldl_wf _ _ (fun _ _ h => by simp [h]) h1
  simp only [s3]
  split <;> exact h2

@[simp] theorem execLoadObject_wf {s : State} (part : Nat) (o : ObjImage) (h : s.mem.wf = true) :
    outWf (execLoadObject part o s) := by
  unfold execLoadObject
  extract_lets refuse
  have hr : outWf refuse := h
  split
  · split
    · rename_i e _
      split at e
      · exact placeObject_wf _ _ (mapAll_wf h e)
      · cases e
    · exact hr
  · exact hr

@[simp] theorem divide_wf (f : Word → Word → Word) (d a b : GReg) {s : State} (h : s.mem.wf = true) :
    outWf (divide f d a b s) := by
  simp [divide, h]

@[simp] theorem execAdd_wf (d a b : GReg) {s : State} (h : s.mem.wf = true) : outWf (execAdd d a b s) :=
  retire_wf _ h

@[simp] theorem execSub_wf (d a b : GReg) {s : State} (h : s.mem.wf = true) : outWf (execSub d a b s) :=
  retire_wf _ h

@[simp] theorem execAnd_wf (d a b : GReg) {s : State} (h : s.mem.wf = true) : outWf (execAnd d a b s) :=
  retire_wf _ h

@[simp] theorem execOr_wf (d a b : GReg) {s : State} (h : s.mem.wf = true) : outWf (execOr d a b s) :=
  retire_wf _ h

@[simp] theorem execXor_wf (d a b : GReg) {s : State} (h : s.mem.wf = true) : outWf (execXor d a b s) :=
  retire_wf _ h

@[simp] theorem execShl_wf (d a b : GReg) {s : State} (h : s.mem.wf = true) : outWf (execShl d a b s) :=
  retire_wf _ h

@[simp] theorem execShr_wf (d a b : GReg) {s : State} (h : s.mem.wf = true) : outWf (execShr d a b s) :=
  retire_wf _ h

@[simp] theorem execSar_wf (d a b : GReg) {s : State} (h : s.mem.wf = true) : outWf (execSar d a b s) :=
  retire_wf _ h

@[simp] theorem execRol_wf (d a b : GReg) {s : State} (h : s.mem.wf = true) : outWf (execRol d a b s) :=
  retire_wf _ h

@[simp] theorem execMin_wf (d a b : GReg) {s : State} (h : s.mem.wf = true) : outWf (execMin d a b s) :=
  retire_wf _ h

@[simp] theorem execMax_wf (d a b : GReg) {s : State} (h : s.mem.wf = true) : outWf (execMax d a b s) :=
  retire_wf _ h

@[simp] theorem execMinn_wf (d a b : GReg) {s : State} (h : s.mem.wf = true) : outWf (execMinn d a b s) :=
  retire_wf _ h

@[simp] theorem execMaxn_wf (d a b : GReg) {s : State} (h : s.mem.wf = true) : outWf (execMaxn d a b s) :=
  retire_wf _ h

@[simp] theorem execClz_wf (d a : GReg) {s : State} (h : s.mem.wf = true) : outWf (execClz d a s) :=
  retire_wf _ h

@[simp] theorem execCtz_wf (d a : GReg) {s : State} (h : s.mem.wf = true) : outWf (execCtz d a s) :=
  retire_wf _ h

@[simp] theorem execPop_wf (d a : GReg) {s : State} (h : s.mem.wf = true) : outWf (execPop d a s) :=
  retire_wf _ h

@[simp] theorem execBfx_wf (d a b : GReg) {s : State} (h : s.mem.wf = true) : outWf (execBfx d a b s) :=
  retire_wf _ h

@[simp] theorem execBfi_wf (d a b : GReg) {s : State} (h : s.mem.wf = true) : outWf (execBfi d a b s) :=
  retire_wf _ h

@[simp] theorem execSel_wf (d a b : GReg) (q : Reg8) {s : State} (h : s.mem.wf = true) : outWf (execSel d a b q s) :=
  retire_wf _ h

@[simp] theorem execAddi_wf (d a : GReg) (i : BitVec 18) {s : State} (h : s.mem.wf = true) : outWf (execAddi d a i s) :=
  retire_wf _ h

@[simp] theorem execAndi_wf (d a : GReg) (i : BitVec 16) {s : State} (h : s.mem.wf = true) : outWf (execAndi d a i s) :=
  retire_wf _ h

@[simp] theorem execOri_wf (d a : GReg) (i : BitVec 16) {s : State} (h : s.mem.wf = true) : outWf (execOri d a i s) :=
  retire_wf _ h

@[simp] theorem execXori_wf (d a : GReg) (i : BitVec 16) {s : State} (h : s.mem.wf = true) : outWf (execXori d a i s) :=
  retire_wf _ h

@[simp] theorem execShli_wf (d a : GReg) (n : BitVec 6) {s : State} (h : s.mem.wf = true) : outWf (execShli d a n s) :=
  retire_wf _ h

@[simp] theorem execShri_wf (d a : GReg) (n : BitVec 6) {s : State} (h : s.mem.wf = true) : outWf (execShri d a n s) :=
  retire_wf _ h

@[simp] theorem execSari_wf (d a : GReg) (n : BitVec 6) {s : State} (h : s.mem.wf = true) : outWf (execSari d a n s) :=
  retire_wf _ h

@[simp] theorem execBfxImm_wf (d a : GReg) (l w : BitVec 6) {s : State} (h : s.mem.wf = true) :
    outWf (execBfxImm d a l w s) :=
  retire_wf _ h

@[simp] theorem execBfiImm_wf (d a : GReg) (l w : BitVec 6) {s : State} (h : s.mem.wf = true) :
    outWf (execBfiImm d a l w s) :=
  retire_wf _ h

@[simp] theorem execLui_wf (d : GReg) (i : BitVec 22) {s : State} (h : s.mem.wf = true) : outWf (execLui d i s) :=
  retire_wf _ h

@[simp] theorem execAdpc_wf (d : GReg) (i : BitVec 22) {s : State} (h : s.mem.wf = true) : outWf (execAdpc d i s) :=
  retire_wf _ h

@[simp] theorem execCmp_wf (k : Cond) (d : Reg8) (a b : GReg) {s : State} (h : s.mem.wf = true) :
    outWf (execCmp k d a b s) :=
  retire_wf _ h

@[simp] theorem execCmpi_wf (k : Cond) (d : Reg8) (a : GReg) (i : BitVec 15) {s : State} (h : s.mem.wf = true) :
    outWf (execCmpi k d a i s) :=
  retire_wf _ h

@[simp] theorem execMul_wf (d a b : GReg) {s : State} (h : s.mem.wf = true) : outWf (execMul d a b s) :=
  retire_wf _ h

@[simp] theorem execMulh_wf (d a b : GReg) {s : State} (h : s.mem.wf = true) : outWf (execMulh d a b s) :=
  retire_wf _ h

@[simp] theorem execMulhn_wf (d a b : GReg) {s : State} (h : s.mem.wf = true) : outWf (execMulhn d a b s) :=
  retire_wf _ h

@[simp] theorem execDiv_wf (d a b : GReg) {s : State} (h : s.mem.wf = true) : outWf (execDiv d a b s) := by
  simp [execDiv, h]

@[simp] theorem execDivn_wf (d a b : GReg) {s : State} (h : s.mem.wf = true) : outWf (execDivn d a b s) := by
  simp [execDivn, h]

@[simp] theorem execRem_wf (d a b : GReg) {s : State} (h : s.mem.wf = true) : outWf (execRem d a b s) := by
  simp [execRem, h]

@[simp] theorem execRemn_wf (d a b : GReg) {s : State} (h : s.mem.wf = true) : outWf (execRemn d a b s) := by
  simp [execRemn, h]

end Sys2Proof.Machine
end

section
/-! The memory in canonical form: the dispatch, the issue, the moves between issues, and the step. -/
namespace Sys2Proof.Machine

@[simp] theorem exec_wf (i : Instr) {s : State} (h : s.mem.wf = true) : outWf (exec i s) := by
  cases i <;> simp [exec, h]

@[simp] theorem execNamed_wf (i : Instr) {s : State} (h : s.mem.wf = true) : outWf (execNamed i s) := by
  simp [execNamed, h]

/-- The state a fetch leaves, unless it misses, has its memory in canonical form. -/
def Fetched.stateWf : Fetched → Prop
  | .ok _ s => s.mem.wf = true
  | .trap _ _ s => s.mem.wf = true
  | .miss _ => True

theorem decoded_wf {s : State} (cx : Nat) (w : IWord) (sh : Shape) (h : s.mem.wf = true) :
    (decoded cx w sh s).stateWf := by
  fun_cases decoded cx w sh s <;> exact h

theorem fetchInstr_wf {s : State} (cx : Nat) (h : s.mem.wf = true) : (s.fetchInstr cx).stateWf := by
  have hf {t l} (e : s.fetchWord cx (s.ctx cx).pc = .ok l t) : t.mem.wf = true := fetchWord_mem e ▸ h
  fun_cases State.fetchInstr s cx with
  | case1 => exact h
  | case2 | case4 => trivial
  | case3 => simpa [Fetched.stateWf] using hf ‹s.fetchWord cx _ = _›
  | case5 =>
    rename_i e
    exact decoded_wf _ _ _ (fetchWords_mem e ▸ hf ‹_›)
  | case6 => exact decoded_wf _ _ _ (hf ‹_›)

@[simp] theorem issueFrom_wf {s : State} (cx : Nat) (h : s.mem.wf = true) : outWf (s.issueFrom cx) := by
  unfold State.issueFrom
  extract_lets t u s0
  have h0 : s0.mem.wf = true := h
  have hf := fetchInstr_wf cx h0
  clear_value s0
  split
  · split
    · exact execNamed_wf _ h0
    · exact trap_wf _ _ h0
  · split <;> rename_i e
    · rw [e] at hf
      exact execNamed_wf _ hf
    · rw [e] at hf
      exact trap_wf _ _ hf
    · simpa using h0

@[simp] theorem coreCycle_wf {s : State} (core : Nat) (h : s.mem.wf = true) : outWf (s.coreCycle core) := by
  fun_cases State.coreCycle s core <;> simp [h]

@[simp] theorem execAgain_wf (i : Instr) {s : State} (h : s.mem.wf = true) : outWf (execAgain i s) := by
  fun_cases execAgain i s <;> simp [h]

@[simp] theorem ghostGo_wf {s : State} (cx : Nat) (tid : BitVec 32) (g : Ctx) (h : s.mem.wf = true) :
    outWf (s.ghostGo cx tid g) := by
  unfold State.ghostGo
  extract_lets s0
  have h0 : s0.mem.wf = true := h
  clear_value s0
  split
  · rename_i w _
    have h1 : outWf (execAgain w.i (s0.setCtx cx g.goOn)) := execAgain_wf _ h0
    split <;> rename_i e
    · rw [e] at h1
      have h2 : _ = true := h1
      simp [h2]
    · exact h1
  · exact h0

@[simp] theorem retry_wf {s : State} (cx : Nat) (tid : BitVec 32) (h : s.mem.wf = true) : outWf (s.retry cx tid) := by
  fun_cases State.retry s cx tid <;> simp +zetaDelta [h]

@[simp] theorem retryMsg_wf {s : State} (k : Nat) (h : s.mem.wf = true) : outWf (s.retryMsg k) := by
  fun_cases State.retryMsg s k <;> simp [h]

@[simp] theorem putUnitWrite_wf {s : State} (k : Nat) (h : s.mem.wf = true) : (s.putUnitWrite k).mem.wf = true := by
  fun_cases State.putUnitWrite s k <;> simp [h]

@[simp] theorem putRecord_mem (s : State) (die : Nat) : (s.putRecord die).mem = s.mem := by
  fun_cases State.putRecord s die <;> simp

@[simp] theorem use_mem (s : State) (i : Instr) (k : Nat) : (s.use i k).mem = s.mem := by
  fun_cases State.use s i k <;> simp

@[simp] theorem passQuad_mem (s : State) (q : Nat) (tick : Bool) : (s.passQuad q tick).1.mem = s.mem := by
  simp [State.passQuad]

@[simp] theorem clockQuads_mem (s : State) (tick : Bool) (l : List Nat) : (s.clockQuads tick l).1.mem = s.mem := by
  induction l generalizing s with
  | nil => rfl
  | cons q l ih => exact (ih _).trans (passQuad_mem ..)

@[simp] theorem nextCycle_mem (s : State) : s.nextCycle.mem = s.mem := by
  simp [State.nextCycle]

@[simp] theorem make_wf {s : State} (m : Move) (h : s.mem.wf = true) : outWf (s.make m) := by
  fun_cases State.make s m <;> simp [h]

@[simp] theorem between_wf {s : State} (h : s.mem.wf = true) : outWf s.between := by
  fun_cases State.between s <;> simp [h]

@[simp] theorem takeInput_wf {s : State} (x : Input) (h : s.mem.wf = true) : outWf (s.takeInput x) := by
  fun_cases State.takeInput s x <;> simp [h]

@[simp] theorem run_wf {s : State} (h : s.mem.wf = true) : outWf s.run := by
  fun_cases State.run s <;> simp [h]

theorem step_wf {s : State} (h : s.mem.wf = true) : outWf (step s) := by
  fun_cases step s <;> simp [h]

/-- Settles O10: the memory after reset lists nothing. -/
theorem invAtReset : Obligations.InvAtReset := rfl

/-- Settles O11: a step gives no memory but one made by `memSet`, `memClear` and `memCopy`, which keep the canonical form. -/
theorem stepKeepsInv : Obligations.StepKeepsInv := by
  intro s t h e
  have h1 := step_wf h
  rwa [e] at h1

end Sys2Proof.Machine
end

section
/-! The checks of an access (R157, R25, R243, R244): alignment, then the fleeting window, then the translation. -/
namespace Sys2Proof.Machine

/-- The effective address of format M is the base plus the signed offset in units of the size, modulo 2^64 (R25). -/
theorem eaSpec_eq_eaM (s : State) (z : Sz) (a : GReg) (o : BitVec 14) : eaSpec (s.me.gr a) z o = eaM z a o s := by
  have hoff : BitVec.ofInt 64 (o.toInt * (szBytes z : Int)) = offM z o := by
    rw [BitVec.ofInt_mul, BitVec.ofInt_natCast]
    rfl
  have hsum : eaSpec (s.me.gr a) z o = BitVec.ofInt 64 ((s.me.gr a).toNat + o.toInt * (szBytes z : Int)) := by
    cases z <;> rfl
  rw [hsum, BitVec.ofInt_add, hoff, BitVec.ofInt_natCast, BitVec.ofNat_toNat, BitVec.setWidth_eq]
  rfl

/-- What `AccessChecks` says of one access that runs as `r`. -/
def trapsFirst (s : State) (ea : Word) (n : Nat) (k : AccKind) (r : Out) : Prop :=
  (ea.toNat % n ≠ 0 → r = .next (s.takeTrap s.cur 3 ea s.me.pc)) ∧
    (ea.toNat % n = 0 → inFleet ea = true → r = .next (s.takeTrap s.cur 5 ea s.me.pc)) ∧
    ∀ c, ea.toNat % n = 0 → inFleet ea = false → s.translate s.myCore s.myPart ea k = .trap c →
      r = .next (s.takeTrap s.cur c ea s.me.pc)

theorem checked_trapsFirst (i : Instr) (ea : Word) (n : Nat) (k : AccKind) (s : State) (go : Loc → Out) :
    trapsFirst s ea n k (checked i ea n k s go) := by
  refine ⟨fun hal => if_pos hal, fun hal hfl => ?_, fun c hal hfl htr => ?_⟩
  · rw [checked, if_neg (not_not.mpr hal), if_pos hfl]
    rfl
  · rw [checked, if_neg (not_not.mpr hal), hfl, if_neg Bool.false_ne_true, withLoc, htr]
    rfl

/-- Settles O22: every load, store and atomic runs through `checked` (R157, R243, R244). -/
theorem accessChecks : Obligations.AccessChecks := by
  intro s z sx dbl acq d a b e p o op od sc x hx
  rw [eaSpec_eq_eaM] at hx
  simp only [List.mem_cons, List.not_mem_nil, or_false] at hx
  rcases hx with rfl | rfl | rfl | rfl | rfl | rfl | rfl | rfl | rfl <;> exact checked_trapsFirst ..

end Sys2Proof.Machine
end

section
/-! Operations on storage: what a store, an L1 line and a page descriptor change (R146, R149), and what a home's bytes read as. -/
namespace Sys2Proof.Machine

-- What an operation on storage changes at most

/-- `t` differs from `s` in memory with its free marks, in the cores' pages and L1s, in watches and messages at most. -/
def storageOnly (s t : State) : Prop :=
  t = { s with mem := t.mem, freeMarks := t.freeMarks, cores := t.cores, watches := t.watches, msgs := t.msgs }

theorem storageOnly.refl (s : State) : storageOnly s s := rfl

theorem storageOnly.trans {s t u : State} (h1 : storageOnly s t) (h2 : storageOnly t u) : storageOnly s u := by
  have h3 : u = { t with mem := u.mem, freeMarks := u.freeMarks, cores := u.cores, watches := u.watches, msgs := u.msgs } := h2
  rw [h1] at h3
  exact h3

section
variable {s t : State} (h : storageOnly s t)
include h

theorem storageOnly.cur : t.cur = s.cur := by rw [h]

theorem storageOnly.ctxs : t.ctxs = s.ctxs := by rw [h]

theorem storageOnly.tiles : t.tiles = s.tiles := by rw [h]

theorem storageOnly.objs : t.objs = s.objs := by rw [h]

theorem storageOnly.ctx (k : Nat) : t.ctx k = s.ctx k := by
  unfold State.ctx
  rw [h.ctxs]

theorem storageOnly.me : t.me = s.me := by
  unfold State.me
  rw [h.ctx, h.cur]

end

theorem modCore_storageOnly (s : State) (k : Nat) (f : Core → Core) : storageOnly s (s.modCore k f) := rfl

theorem modPage_storageOnly (s : State) (k p : Nat) (f : PageDesc → PageDesc) : storageOnly s (s.modPage k p f) := rfl

theorem l1Drop_storageOnly (s : State) (core line : Nat) : storageOnly s (s.l1Drop core line) := rfl

theorem dirtyPages_storageOnly (s : State) (l : List Host.Cell) : storageOnly s (s.dirtyPages l) := by
  induction l with
  | nil => exact storageOnly.refl s
  | cons c l ih =>
    unfold State.dirtyPages
    dsimp only
    split
    · split
      · exact ih
      · exact ih.trans (modPage_storageOnly ..)
    · exact ih

theorem store_storageOnly (s : State) (l : List Host.Cell) : storageOnly s (s.store l) := by
  have h1 (t : State) : storageOnly t (t.wakeWatches l) := rfl
  have h0 : storageOnly s { s with
      mem := l.foldl (fun m c => memSet m (s.phys c.1) c.2) s.mem
      freeMarks := s.freeMarks.filter (fun b => l.all (fun c => decide (c.1 / 65536 ≠ b))) } := rfl
  exact h0.trans ((dirtyPages_storageOnly _ l).trans (h1 _))

theorem homeWrite_storageOnly {s : State} (core : Option Nat) (l : List Host.Cell) (h : s.resvq = []) :
    storageOnly s (s.homeWrite core l) := by
  unfold State.homeWrite
  have hq (c : List Nat) : s.resvOn c = none := by rw [State.resvOn, h]; rfl
  dsimp only
  rw [hq]
  dsimp only
  split
  · exact storageOnly.refl s
  · exact store_storageOnly ..

theorem l1WriteBack_storageOnly {s : State} (core line : Nat) (h : s.resvq = []) :
    storageOnly s (s.l1WriteBack core line) := by
  have h1 : storageOnly s ((s.l1Clean core line).wroteHome core line) :=
    (modCore_storageOnly ..).trans (modCore_storageOnly ..)
  fun_cases State.l1WriteBack s core line
  · exact storageOnly.refl s
  · exact h1.trans (homeWrite_storageOnly _ _ h)
  · exact storageOnly.refl s

theorem l1Invalidate_storageOnly {s : State} (core line : Nat) (h : s.resvq = []) :
    storageOnly s (s.l1Invalidate core line) :=
  (l1WriteBack_storageOnly core line h).trans (l1Drop_storageOnly ..)

theorem l1Fill_storageOnly {s : State} (core line : Nat) (h : s.resvq = []) : storageOnly s (s.l1Fill core line) := by
  unfold State.l1Fill
  dsimp only
  split
  · exact modCore_storageOnly ..
  · refine storageOnly.trans ?_ (modCore_storageOnly ..)
    split
    · split
      · exact l1Invalidate_storageOnly _ _ h
      · exact storageOnly.refl s
    · exact storageOnly.refl s

-- Page descriptors

theorem State.page_modPage (s : State) (core p k q : Nat) (f : PageDesc → PageDesc) :
    (s.modPage core p f).page k q = if k = core ∧ q = p then f (s.page core p) else s.page k q := by
  unfold State.page State.modPage
  by_cases hk : k = core
  · subst hk
    by_cases hq : q = p
    · subst hq
      simp
    · simp [hq, tget_tset_ne]
  · simp [hk, State.core_modCore_ne]

theorem dirtyPages_lay (s : State) (l : List Host.Cell) (k q : Nat) : ((s.dirtyPages l).page k q).lay = (s.page k q).lay := by
  induction l with
  | nil => rfl
  | cons c l ih =>
    unfold State.dirtyPages
    dsimp only
    split
    · split
      · exact ih
      · rw [State.page_modPage, ← ih]
        split
        · next h => rw [h.1, h.2]
        · rfl
    · exact ih

theorem store_lay (s : State) (l : List Host.Cell) (k q : Nat) : ((s.store l).page k q).lay = (s.page k q).lay :=
  dirtyPages_lay _ l k q

-- Where a byte lies, and what it reads as

theorem phys_congr {s t : State} (h : ∀ k q, (t.page k q).lay = (s.page k q).lay) (x : Nat) : t.phys x = s.phys x := by
  simp only [State.phys, h]

theorem sameReads_of_mem {s t : State} (hmem : t.mem = s.mem) (hobj : t.objs = s.objs)
    (hlay : ∀ k q, (t.page k q).lay = (s.page k q).lay) : sameReads s t := by
  intro x
  unfold State.rdByte State.obj?
  rw [hobj, hmem, phys_congr hlay]

-- Prefetches (R158)

theorem prefetchPage_storageOnly (core off : Nat) (s : State) : storageOnly s (prefetchPage core off s) := by
  unfold prefetchPage
  split
  · exact modPage_storageOnly ..
  · exact storageOnly.refl s

theorem prefetchPage_sameReads (core off : Nat) (s : State) : sameReads s (prefetchPage core off s) := by
  have hlay (k q : Nat) : ((prefetchPage core off s).page k q).lay = (s.page k q).lay := by
    unfold prefetchPage State.startRefill
    split
    · rw [State.page_modPage]
      split
      · next h =>
        rw [h.1, h.2]
        split <;> rfl
      · rfl
    · rfl
  refine sameReads_of_mem ?_ (prefetchPage_storageOnly ..).objs hlay
  unfold prefetchPage
  split <;> rfl

/-- A valid page that is neither resident nor on its way is on its way after a prefetch. -/
theorem prefetchPage_busy {core off : Nat} {s : State} (hv : (s.page core (off / 4096)).v = true)
    (hres : (s.page core (off / 4096)).res = false) (hbusy : (s.page core (off / 4096)).busy = false) :
    ((prefetchPage core off s).page core (off / 4096)).busy = true := by
  rw [prefetchPage, if_pos hv, State.startRefill, State.page_modPage, if_pos ⟨rfl, rfl⟩]
  simp [hres, hbusy]

/-- The address of a prefetch is the base plus the offset in units of a line (R25). -/
theorem eaPf_eq (s : State) (a : GReg) (o : BitVec 14) :
    eaPf a o s = BitVec.ofInt 64 ((s.me.gr a).toNat + o.toInt * 64) := by
  rw [BitVec.ofInt_add, BitVec.ofInt_natCast, BitVec.ofNat_toNat, BitVec.setWidth_eq, BitVec.ofInt_mul]
  rfl

theorem find_of_translate {s : State} {who : Requester} {core part : Nat} {va : Word} {k : AccKind} {l : Loc}
    (h : s.translate core part va k = .ok l) : s.find who core part va k = .ok l := by
  rw [State.find, h]

/-- What an instruction leaves that changes storage at most and moves on. -/
def movesOn (s u t : State) : Prop :=
  t.me = (s.me.advance 4).ready ∧ (∀ k, k ≠ s.cur → t.ctx k = s.ctx k) ∧ t.tiles = s.tiles ∧
    t = { u with ctxs := t.ctxs }

theorem retire_id_movesOn {s u : State} (h : storageOnly s u) : ∃ t, retire id u = .next t ∧ movesOn s u t := by
  refine ⟨u.finish u.cur 4 id, rfl, ?_, fun k hk => ?_, h.tiles, rfl⟩
  · rw [← h.me]
    exact State.ctx_finish ..
  · rw [State.ctx_finish_ne _ _ _ _ _ (h.cur ▸ hk), h.ctx]

/-- A prefetch of a scratchpad's page completes, and starts the refill of a valid one (R158). -/
theorem retire_prefetchPage (s : State) (core off : Nat) :
    ∃ t, retire id (prefetchPage core off s) = .next t ∧ movesOn s (prefetchPage core off s) t ∧ sameReads s t ∧
      ((s.page core (off / 4096)).v = true → (s.page core (off / 4096)).res = false →
        (s.page core (off / 4096)).busy = false → (t.page core (off / 4096)).busy = true) := by
  obtain ⟨t, ht, hm⟩ := retire_id_movesOn (prefetchPage_storageOnly core off s)
  have htu : t = { prefetchPage core off s with ctxs := t.ctxs } := hm.2.2.2
  refine ⟨t, ht, hm, fun x => ?_, fun hv hres hbusy => ?_⟩
  · rw [htu]
    exact prefetchPage_sameReads core off s x
  · rw [htu]
    exact prefetchPage_busy hv hres hbusy

theorem movesOn.sameReads {s t : State} (h : movesOn s s t) : sameReads s t := by
  intro x
  rw [h.2.2.2]
  rfl

/-- Elsewhere than on a scratchpad `pf` changes the core's L1 at most, and `pf.llc` nothing. -/
theorem exec_pf_elsewhere {s : State} {a : GReg} {o : BitVec 14} (hq : s.resvq = [])
    (h : ∀ core off, s.find (.ctx s.cur s.me.tid) s.myCore s.myPart (eaPf a o s) .load ≠ .ok (.scratch core off)) :
    (∃ u, exec (.pf a o) s = retire id u ∧ storageOnly s u) ∧ exec (.pfLlc a o) s = retire id s := by
  change (∃ u, execPf a o s = retire id u ∧ _) ∧ execPfLlc a o s = _
  constructor
  · refine ⟨_, rfl, ?_⟩
    split
    · next hf => exact absurd hf (h _ _)
    · split
      · exact storageOnly.refl s
      · exact l1Fill_storageOnly _ _ hq
    · exact storageOnly.refl s
  · unfold execPfLlc
    split
    · next hf => exact absurd hf (h _ _)
    · rfl

theorem exec_pf_scratch {s : State} {a : GReg} {o : BitVec 14} {core off : Nat}
    (h : s.find (.ctx s.cur s.me.tid) s.myCore s.myPart (eaPf a o s) .load = .ok (.scratch core off)) :
    exec (.pf a o) s = retire id (prefetchPage core off s) ∧ exec (.pfLlc a o) s = retire id (prefetchPage core off s) := by
  change execPf a o s = _ ∧ execPfLlc a o s = _
  rw [execPf, execPfLlc, h]
  exact ⟨rfl, rfl⟩

/-- Settles O25, by whether the translation finds a page of a scratchpad. -/
theorem prefetches : Obligations.Prefetches := by
  intro s a o hq i hi
  simp only [List.mem_cons, List.not_mem_nil, or_false] at hi
  have hfound {core off} (h : s.translate s.myCore s.myPart (eaPf a o s) .load = .ok (.scratch core off)) :
      s.find (.ctx s.cur s.me.tid) s.myCore s.myPart (eaPf a o s) .load = .ok (.scratch core off) := find_of_translate h
  rw [← eaPf_eq]
  by_cases hscr : ∃ core off, s.find (.ctx s.cur s.me.tid) s.myCore s.myPart (eaPf a o s) .load = .ok (.scratch core off)
  case pos =>
    obtain ⟨core, off, hf⟩ := hscr
    obtain ⟨t, ht, ⟨hme, hctx, htiles, -⟩, hreads, hpage⟩ := retire_prefetchPage s core off
    obtain ⟨hpf, hllc⟩ := exec_pf_scratch hf
    have hexec : exec i s = .next t := by
      rcases hi with rfl | rfl
      · exact hpf.trans ht
      · exact hllc.trans ht
    refine ⟨t, hexec, hme, hctx, fun _ => hreads, htiles, fun core' off' h' => ?_⟩
    cases (hfound h').symm.trans hf
    exact ⟨hreads, hpage⟩
  case neg =>
    have hno {P : Prop} {core off} (h : s.translate s.myCore s.myPart (eaPf a o s) .load = .ok (.scratch core off)) : P :=
      absurd ⟨core, off, hfound h⟩ hscr
    obtain ⟨⟨u, hpf, hu⟩, hllc⟩ := exec_pf_elsewhere hq fun core off h => hscr ⟨core, off, h⟩
    rcases hi with rfl | rfl
    · obtain ⟨t, ht, hme, hctx, htiles, -⟩ := retire_id_movesOn hu
      exact ⟨t, hpf.trans ht, hme, hctx, nofun, htiles, fun _ _ h => hno h⟩
    · obtain ⟨t, ht, hm⟩ := retire_id_movesOn (storageOnly.refl s)
      have hreads : sameReads s t := hm.sameReads
      obtain ⟨hme, hctx, htiles, -⟩ := hm
      exact ⟨t, hllc.trans ht, hme, hctx, fun _ => hreads, htiles, fun _ _ h => hno h⟩

end Sys2Proof.Machine
end

section
/-! Loads and stores on the own scratchpad (R157, R222). -/
namespace Sys2Proof.Machine

-- The place of a byte in memory: the layouts of a page are permutations

/-- Bits [hi:lo] of `o`, toggled into lower bits as layouts do (R149): done twice, nothing changes. -/
theorem xor_nbits_twice {o hi lo m : Nat} (h : 2 ^ (hi + 1 - lo) * m ≤ 2 ^ lo) (hm : 0 < m) :
    (o ^^^ (nbits o hi lo * m)) ^^^ (nbits (o ^^^ (nbits o hi lo * m)) hi lo * m) = o := by
  have hlt : nbits o hi lo * m < 2 ^ lo :=
    lt_of_lt_of_le (Nat.mul_lt_mul_of_pos_right (Nat.mod_lt _ (Nat.two_pow_pos _)) hm) h
  have hsame : nbits (o ^^^ (nbits o hi lo * m)) hi lo = nbits o hi lo := by
    rw [nbits, Nat.shiftRight_xor_distrib, Nat.shiftRight_eq_zero _ _ hlt, Nat.xor_zero, ← nbits]
  rw [hsame, Nat.xor_assoc, Nat.xor_self, Nat.xor_zero]

theorem layoutPerm_layoutPerm (lay o : Nat) : layoutPerm lay (layoutPerm lay o) = o := by
  match lay with
  | 1 | 2 | 3 | 4 | 5 => exact xor_nbits_twice (by decide) (by decide)
  | 0 | _ + 6 => rfl

theorem layoutPerm_injective (lay : Nat) : Function.Injective (layoutPerm lay) :=
  Function.LeftInverse.injective (layoutPerm_layoutPerm lay)

theorem layoutPerm_lt (lay : Nat) {o : Nat} (h : o < 4096) : layoutPerm lay o < 4096 := by
  have hn (hi lo m : Nat) (hm : 2 ^ (hi + 1 - lo) * m ≤ 4096) (hpos : 0 < m) : o ^^^ (nbits o hi lo * m) < 4096 :=
    Nat.xor_lt_two_pow (n := 12) h
      (lt_of_lt_of_le (Nat.mul_lt_mul_of_pos_right (Nat.mod_lt _ (Nat.two_pow_pos _)) hpos) hm)
  match lay with
  | 1 | 2 | 3 | 4 | 5 => exact hn _ _ _ (by decide) (by decide)
  | 0 | _ + 6 => exact h

/-- How the bytes of a 4 KiB frame of locations lie in it: a page of a scratchpad follows its layout. -/
def State.permOf (s : State) (q : Nat) : Nat → Nat :=
  if q < 2 ^ 32 then id else layoutPerm (s.page ((q - 2 ^ 32) / 16) ((q - 2 ^ 32) % 16)).lay

theorem permOf_injective (s : State) (q : Nat) : Function.Injective (s.permOf q) := by
  unfold State.permOf
  split
  · exact Function.injective_id
  · exact layoutPerm_injective _

theorem permOf_lt (s : State) (q : Nat) {o : Nat} (h : o < 4096) : s.permOf q o < 4096 := by
  unfold State.permOf
  split
  · exact h
  · exact layoutPerm_lt _ h

/-- A byte stays in its 4 KiB frame. -/
theorem phys_eq (s : State) (l : Nat) : s.phys l = l / 4096 * 4096 + s.permOf (l / 4096) (l % 4096) := by
  unfold State.phys State.permOf
  by_cases hl : l < 2 ^ 44
  · rw [if_pos hl, if_pos (by omega), id]
    omega
  · have hc : (l - 2 ^ 44) / 65536 = (l / 4096 - 2 ^ 32) / 16 := by omega
    have hp : (l - 2 ^ 44) % 65536 / 4096 = (l / 4096 - 2 ^ 32) % 16 := by omega
    have hr : (l - 2 ^ 44) % 65536 % 4096 = l % 4096 := by omega
    rw [if_neg hl, if_neg (by omega)]
    dsimp only
    rw [hc, hp, hr]
    omega

/-- No two locations lie at the same byte of memory. -/
theorem phys_injective (s : State) : Function.Injective s.phys := by
  intro l l' h
  rw [phys_eq, phys_eq] at h
  have hl := permOf_lt s (l / 4096) (Nat.mod_lt l (by decide : 0 < 4096))
  have hl' := permOf_lt s (l' / 4096) (Nat.mod_lt l' (by decide : 0 < 4096))
  have hq : l / 4096 = l' / 4096 := by omega
  rw [hq] at h
  have hr : l % 4096 = l' % 4096 := permOf_injective s _ (Nat.add_left_cancel h)
  omega

-- What a store of a number leaves at each byte

theorem store_cellsOf_mem (s : State) (v : Nat) (l : List Nat) :
    (s.storeAt l v).mem = memWriteAt s.mem v (l.map s.phys) := by
  rw [State.storeAt, store_mem]
  generalize s.mem = m
  induction l generalizing v m with
  | nil => rfl
  | cons a l ih => exact ih (v >>> 8) _

theorem memGet_memWriteAt_mem {v : Nat} {l : List Nat} {m : Memory} (hl : l.Nodup) {k : Nat} (hk : k < l.length) :
    memGet (memWriteAt m v l) l[k] = BitVec.ofNat 8 (v / 256 ^ k) := by
  induction l generalizing v m k with
  | nil => exact absurd hk (Nat.not_lt_zero _)
  | cons a l ih =>
    obtain ⟨ha, hl⟩ := List.nodup_cons.mp hl
    cases k with
    | zero =>
      rw [List.getElem_cons_zero, memWriteAt, memGet_memWriteAt _ _ _ _ ha, memGet_memSet, Nat.pow_zero, Nat.div_one]
    | succ k =>
      rw [List.getElem_cons_succ, memWriteAt, ih hl (Nat.lt_of_succ_lt_succ hk), Nat.shiftRight_eq_div_pow,
        Nat.div_div_eq_div_mul, Nat.pow_succ' (n := k)]

/-- A store of `n` bytes where no object lies: the bytes are those of the number, and every other reads as before. -/
theorem storeAt_storesNum (s : State) (a n v : Nat) (h : ∀ x, a ≤ x → x < a + n → s.obj? (x / 64) = none) :
    storesNum s (s.storeAt (span a n) v) a n v := by
  intro x
  have hphys (x : Nat) : (s.storeAt (span a n) v).phys x = s.phys x := phys_congr (store_lay s _) x
  have hobj (x : Nat) : (s.storeAt (span a n) v).obj? x = s.obj? x := by
    rw [State.obj?, State.obj?, show (s.storeAt (span a n) v).objs = s.objs from (store_storageOnly ..).objs]
  unfold State.rdByte
  rw [hobj, hphys, store_cellsOf_mem]
  by_cases hx : a ≤ x ∧ x < a + n
  · have hk : x - a < ((span a n).map s.phys).length := by simp [span]; omega
    have hget : ((span a n).map s.phys)[x - a] = s.phys x := by simp [span, Nat.add_sub_cancel' hx.1]
    rw [if_pos hx, h x hx.1 hx.2, ← hget]
    exact memGet_memWriteAt_mem ((span_nodup a n).map (phys_injective s)) hk
  · have hout : s.phys x ∉ (span a n).map s.phys := by
      rw [List.mem_map_of_injective (phys_injective s), span, List.mem_range'_1]
      exact hx
    rw [if_neg hx, memGet_memWriteAt _ _ _ _ hout]

end Sys2Proof.Machine
end

section
/-! Loads and stores on the own scratchpad (R157, R222): their path through the access. -/
namespace Sys2Proof.Machine

-- The values of loads

theorem rd_lt (s : State) (l : List Nat) : s.rd l < 2 ^ (8 * l.length) := by
  induction l with
  | nil => exact Nat.one_pos
  | cons a l ih =>
    have hb : (s.rdByte a).toNat < 2 ^ 8 := (s.rdByte a).isLt
    have hs : (s.rd l + 1) * 2 ^ 8 ≤ 2 ^ (8 * l.length) * 2 ^ 8 := Nat.mul_le_mul_right _ ih
    rw [List.length_cons, Nat.mul_succ, Nat.pow_add]
    refine lt_of_lt_of_le ?_ hs
    rw [State.rd, Nat.shiftLeft_eq]
    omega

theorem sext_ofNat {n v : Nat} (hn : 0 < n) (h : v < 2 ^ n) :
    sext (BitVec.ofNat n v) = BitVec.ofInt 64 (if 2 ^ (n - 1) ≤ v then (v : Int) - 2 ^ n else v) := by
  rw [sext, BitVec.signExtend, BitVec.toInt_eq_toNat_cond, BitVec.toNat_ofNat, Nat.mod_eq_of_lt h]
  have h2 : 2 ^ n = 2 * 2 ^ (n - 1) := by rw [← Nat.pow_succ', Nat.succ_eq_add_one, Nat.sub_add_cancel hn]
  split_ifs <;> first | rfl | omega

theorem extend_unsigned (z : Sz) {v : Nat} (h : v < 2 ^ (8 * szBytes z)) : extend z false v = BitVec.ofNat 64 v := by
  cases z <;> exact BitVec.setWidth_ofNat_of_le_of_lt (by decide) h

theorem extend_signed (z : Sz) (v : Nat) : extend z true v = sext (BitVec.ofNat (8 * szBytes z) v) := by
  cases z with
  | d => exact (BitVec.signExtend_eq ..).symm
  | _ => rfl

/-- What a load writes is the number sign-extended or zero-extended (R157). -/
theorem extend_eq_loadSpec (z : Sz) (sx : Bool) {v : Nat} (h : v < 2 ^ (8 * szBytes z)) :
    extend z sx v = loadSpec (szBytes z) sx v := by
  cases sx with
  | false => rw [extend_unsigned z h, loadSpec, if_neg Bool.false_ne_true, BitVec.ofInt_natCast]
  | true =>
    rw [extend_signed, sext_ofNat (by cases z <;> decide) h, loadSpec, if_pos rfl, signedNum]

-- Where the own scratchpad's locations lie

theorem window_of_translate {s : State} {core part c off : Nat} {va : Word} {k : AccKind}
    (h : s.translate core part va k = .ok (.scratch c off)) : window core va = .scratch c off := by
  unfold State.translate State.translateIn at h
  split at h
  · cases h
  · cases h
  · next hw =>
    split at h
    · cases h
    · cases h
      exact hw
  · split at h
    · cases h
    · split at h
      · unfold tlbCheck tlbLoc at h
        grind
      · cases h

/-- The windows of scratchpads begin at multiples of 64 KiB (R142). -/
theorem window_scratch_mod {core c off : Nat} {va : Word} (h : window core va = .scratch c off) :
    off % 64 = va.toNat % 64 := by
  unfold window slotWin at h
  grind

theorem scratch_line {core off n x : Nat} (h : off % 64 + n ≤ 64) (hlo : scratchLoc core off ≤ x)
    (hhi : x < scratchLoc core off + n) : x / 64 = scratchLoc core off / 64 := by
  unfold scratchLoc at *
  omega

end Sys2Proof.Machine
end

section
/-! Loads and stores on the own scratchpad (R157, R222): their path through the access, and what they leave. -/
namespace Sys2Proof.Machine

-- The path of an access on the own scratchpad

theorem checked_found {i : Instr} {ea : Word} {n : Nat} {k : AccKind} {s : State} {l : Loc} (go : Loc → Out)
    (hal : ea.toNat % n = 0) (hfl : inFleet ea = false) (h : s.translate s.myCore s.myPart ea k = .ok l) :
    checked i ea n k s go = go l := by
  rw [checked, if_neg (not_not.mpr hal), hfl, if_neg Bool.false_ne_true, withLoc, h]

/-- On a resident page with no reservation in the way, the access is performed at once (R157). -/
theorem access_own {why off : Nat} {r : Req} {k : AccKind} {home : Req → State → HomeOut} (fin : Reply → State → State)
    {s s1 : State} {rep : Reply} (hpage : s.pageSt s.myCore (off / 4096) = .ready) (hres : s.resvOn r.locs = none)
    (hhome : home r s = (s1, some rep)) : access why r (.scratch s.myCore off) k home fin s = .next (fin rep s1) := by
  rw [access, if_pos rfl, localPage, hpage]
  dsimp only
  rw [hres, if_neg (by decide), hhome]

theorem span_scratchLoc_cons (core off n : Nat) (h : 0 < n) :
    ∃ t, span (scratchLoc core off) n = scratchLoc core off :: t := by
  obtain ⟨m, rfl⟩ := Nat.exists_eq_succ_of_ne_zero h.ne'
  exact ⟨_, List.range'_succ ..⟩

theorem not_isGlobalLoc_scratchLoc (core off : Nat) : isGlobalLoc (scratchLoc core off) = false := by
  rw [isGlobalLoc, decide_eq_false_iff_not, scratchLoc]
  omega

theorem szBytes_pos (z : Sz) : 0 < szBytes z := by cases z <;> decide

-- A request whose first byte lies on a scratchpad

theorem gone_clean {s : State} (l : Nat) (hr : s.retired = []) (hl : s.lost = []) : s.gone l = false := by
  rw [State.gone, hr, hl]
  rfl

section
variable {core off : Nat} {t : List Nat}

theorem recsFor_scratch (s : State) : s.recsFor (scratchLoc core off :: t) = [] := by
  rw [State.recsFor, not_isGlobalLoc_scratchLoc, if_neg Bool.false_ne_true]

theorem homeWrote_scratch (s : State) (k : Nat) : s.homeWrote k (scratchLoc core off :: t) = s := by
  rw [State.homeWrote, not_isGlobalLoc_scratchLoc, if_neg Bool.false_ne_true]

theorem ownCopyOutAt_scratch (s : State) (k : Nat) : s.ownCopyOutAt k (scratchLoc core off :: t) = s := by
  rw [State.ownCopyOutAt, not_isGlobalLoc_scratchLoc, if_neg Bool.false_ne_true]

theorem onObject_scratch {s : State} (h : s.obj? (scratchLoc core off / 64) = none) :
    s.onObject (scratchLoc core off :: t) = false := by
  rw [State.onObject, h]
  rfl

variable {s : State} {r : Req} (hl : r.locs = scratchLoc core off :: t) (hr : s.retired = []) (hlost : s.lost = [])
include hl hr hlost

section
variable (hf : s.flaws = [])
include hf

theorem homeRead_scratch : homeRead r s = (s, some (r.reply [s.rd r.locs])) := by
  rw [homeRead, readCheck_clean _ _ _ hf hr hlost]
  dsimp only
  rw [if_neg Bool.false_ne_true, hl, recsFor_scratch]
  rfl

theorem homeLd_scratch (z : Sz) : homeLd z r s = (s, some (r.reply [s.rd r.locs])) := by
  have hread := homeRead_scratch hl hr hlost hf
  rw [homeLd]
  split
  · next l _ h =>
    rw [hl] at h
    cases h
    rw [not_isGlobalLoc_scratchLoc, if_neg Bool.false_ne_true, hread]
  · exact hread

theorem homeLdAcq_scratch (ho : s.obj? (scratchLoc core off / 64) = none) :
    homeLdAcq r s = (s, some (r.reply [s.rd r.locs])) := by
  rw [homeLdAcq, hl, onObject_scratch ho, if_neg Bool.false_ne_true, ownCopyOutAt_scratch, homeRead_scratch hl hr hlost hf, hl]

end

/-- A write on a scratchpad is stored at once and records no release (R157, R184). -/
theorem homeWriteReq_scratch (v : Nat) (ho : s.obj? (scratchLoc core off / 64) = none) :
    homeWriteReq v r s = (s.storeAt r.locs v, some (r.reply [])) := by
  have hgone : r.locs.any s.gone = false := List.any_eq_false.2 fun l _ => by simp [gone_clean l hr hlost]
  have hwith (k : State → HomeOut) : withRelease r k s = k s := by
    rw [withRelease]
    split
    · next l' _ _ h =>
      rw [hl] at h
      cases h
      rw [not_isGlobalLoc_scratchLoc, if_neg Bool.false_ne_true]
    · rfl
  rw [homeWriteReq, hgone, hl, onObject_scratch ho, if_neg Bool.false_ne_true, if_neg Bool.false_ne_true, releasing, hwith]
  dsimp only
  rw [hl, recsFor_scratch, homeWrote_scratch, List.headD_cons, not_isGlobalLoc_scratchLoc, Bool.and_false]
  rfl

theorem homeSt_scratch (z : Sz) (ho : s.obj? (scratchLoc core off / 64) = none) :
    homeSt z r s = (s.storeAt r.locs (r.vals.headD 0), some (r.reply [])) := by
  have hwrite := homeWriteReq_scratch hl hr hlost (r.vals.headD 0) ho
  rw [homeSt]
  split
  · next l' _ h _ =>
    rw [hl] at h
    cases h
    rw [not_isGlobalLoc_scratchLoc, if_neg Bool.false_ne_true, hwrite]
  · exact hwrite

end

-- The ends of the instructions

theorem brought_nothing {rep : Reply} (hrecs : rep.recs = []) (hmade : rep.made = false) (c : Ctx) : c.brought rep = c := by
  rw [Ctx.brought, hrecs, hmade, List.append_nil]
  rfl

theorem onlyContext.trans {s t u : State} {k : Nat} (h1 : onlyContext s t k) (h2 : onlyContext t u k) : onlyContext s u k := by
  obtain ⟨e1, c1⟩ := h1
  obtain ⟨e2, c2⟩ := h2
  refine ⟨?_, fun j hj => (c2 j hj).trans (c1 j hj)⟩
  rw [e1] at e2
  exact e2

theorem onlyContext_modCtx (s : State) (k : Nat) (f : Ctx → Ctx) : onlyContext s (s.modCtx k f) k := onlyContext_setCtx ..

theorem finishWith_lands (f : Reply → Ctx → Ctx) {rep : Reply} (s : State) (htrap : rep.trap = none) (hrecs : rep.recs = [])
    (hmade : rep.made = false) :
    onlyContext s (finishWith f rep s) rep.cx ∧
      (finishWith f rep s).ctx rep.cx = ((f rep (s.ctx rep.cx)).advance 4).ready := by
  rw [finishWith, htrap]
  dsimp only
  rw [State.ctx_finish, State.ctx_modCtx, brought_nothing hrecs hmade]
  exact ⟨(onlyContext_modCtx ..).trans (onlyContext_modCtx ..), rfl⟩

theorem endAcquire_goesOn {s : State} {cx : Nat} {w : Wait} (hw : (s.ctx cx).wait = some w) (hrecs : w.recs = [])
    (hi : ∀ sc, w.i ≠ .fenceAr sc) (hnext : w.next >>> 57 = 0) :
    s.endAcquire cx = s.modCtx cx (fun c => ({ c with pc := w.next } : Ctx).ready) := by
  have happly : s.applyRecs (coreOf cx) w.recs = s := by rw [hrecs]; rfl
  rw [State.endAcquire, hw]
  dsimp only
  rw [happly, State.goTo, if_neg (not_not.mpr hnext)]
  split
  · next sc h => exact absurd h (hi sc)
  · rfl

theorem beginAcquire_nothing {s : State} {cx : Nat} (i : Instr) (next : Word) (h : s.sweepingFor cx = false) :
    s.beginAcquire cx i next [] [] = (s.block cx (whyAcquire i) (mkWait i 2 0 next)).endAcquire cx := by
  have hsend (t : State) : t.sendAll [] = t := by rw [State.sendAll, List.append_nil]
  rw [State.beginAcquire, h]
  exact congrArg (State.endAcquire · cx) (hsend _)

/-- An acquire with no records to take, in a partition that sweeps nothing, moves its context on at once (R188). -/
theorem acquireAll_lands {s : State} {cx : Nat} {i : Instr} {next : Word} (hi : ∀ sc, i ≠ .fenceAr sc)
    (hnext : next >>> 57 = 0) (hrecs : (s.ctx cx).recs = []) (hsweep : s.sweepingFor cx = false) :
    onlyContext s (s.acquireAll cx i next) cx ∧
      (s.acquireAll cx i next).ctx cx = ({ s.ctx cx with pc := next } : Ctx).ready := by
  rw [State.acquireAll, hrecs]
  generalize hs1 : s.modCtx cx (fun c => { c with recs := [] }) = s1
  have hsweep1 : s1.sweepingFor cx = false := hs1 ▸ hsweep
  have hs1c : s1.ctx cx = s.ctx cx := by
    rw [← hs1, State.ctx_modCtx, ← hrecs]
  dsimp only
  rw [State.startAcquire, List.filter_nil, List.eraseDups_nil, beginAcquire_nothing i next hsweep1]
  have hend := endAcquire_goesOn (s := s1.block cx (whyAcquire i) (mkWait i 2 0 next)) (w := mkWait i 2 0 next)
    (by rw [State.block, State.ctx_modCtx]) rfl hi hnext
  rw [hend, State.ctx_modCtx, State.block, State.ctx_modCtx, hs1c]
  exact ⟨(hs1 ▸ onlyContext_modCtx ..).trans ((onlyContext_modCtx ..).trans (onlyContext_modCtx ..)), rfl⟩

theorem finishAcquiring_lands {i : Instr} (f : Reply → Ctx → Ctx) {rep : Reply} (s : State) (htrap : rep.trap = none)
    (hrecs : rep.recs = []) (hmade : rep.made = false) (hi : ∀ sc, i ≠ .fenceAr sc)
    (hc : (f rep (s.ctx rep.cx)).recs = []) (hframe : (f rep (s.ctx rep.cx)).frame = none)
    (hpc : (f rep (s.ctx rep.cx)).pc = (s.ctx rep.cx).pc) (hsweep : s.sweepingFor rep.cx = false) :
    onlyContext s (finishAcquiring i f rep s) rep.cx ∧
      (finishAcquiring i f rep s).ctx rep.cx = ((f rep (s.ctx rep.cx)).advance 4).ready := by
  have hnext : (wrapPc ((s.ctx rep.cx).pc + 4)) >>> 57 = 0 := by
    rw [shiftRight_57_eq_zero_iff, wrapPc_toNat]
    exact Nat.mod_lt _ (by decide)
  have hctx : (s.modCtx rep.cx (fun c => f rep (c.brought rep))).ctx rep.cx = f rep (s.ctx rep.cx) := by
    rw [State.ctx_modCtx, brought_nothing hrecs hmade]
  obtain ⟨honly, hat⟩ := acquireAll_lands (s := s.modCtx rep.cx (fun c => f rep (c.brought rep))) hi hnext
    (by rw [hctx, hc]) (by exact hsweep)
  rw [finishAcquiring, htrap, Ctx.advance_plain _ _ hframe, hpc]
  dsimp only
  rw [hat, hctx]
  exact ⟨(onlyContext_modCtx ..).trans honly, rfl⟩

-- The statement

theorem rd_span_lt (s : State) (a n : Nat) : s.rd (span a n) < 2 ^ (8 * n) := by
  have h := rd_lt s (span a n)
  rwa [span, List.length_range'] at h

/-- An access on the own scratchpad passes its checks and ends with what its home answers (R157). -/
theorem checked_own {i : Instr} {ea : Word} {n why off : Nat} {k : AccKind} {r : Req} {home : Req → State → HomeOut}
    {fin : Reply → State → State} {s s1 : State} {rep : Reply} {go : Loc → Out} (h : s.ownAt ea n k off)
    (hgo : go (.scratch s.myCore off) = access why r (.scratch s.myCore off) k home fin s)
    (hl : r.locs = span (scratchLoc s.myCore off) n) (hhome : home r s = (s1, some rep)) :
    checked i ea n k s go = .next (fin rep s1) := by
  obtain ⟨hal, hfl, htr, hpage, hres, -⟩ := h
  rw [checked_found _ hal hfl htr, hgo]
  exact access_own fin hpage (by rwa [hl]) hhome

section
variable {s : State} {z : Sz} {a : GReg} {o : BitVec 14} {off : Nat}

theorem exec_ld_own (sx : Bool) (d : GReg) (h : s.ownAt (eaM z a o s) (szBytes z) .load off) :
    ∃ t, exec (.ld z sx d a o) s = .next t ∧
      completes s t 4 (s.me.setG d (extend z sx (s.rd (span (scratchLoc s.myCore off) (szBytes z))))) := by
  obtain ⟨tl, hspan⟩ := span_scratchLoc_cons s.myCore off (szBytes z) (szBytes_pos z)
  have ⟨_, _, _, _, _, hflaws, hret, hlost⟩ := h
  let r := s.mkReq (.ld z sx d a o) (eaM z a o s) (.scratch s.myCore off) (szBytes z) [] none
  have hhome := homeLd_scratch (s := s) (r := r) hspan hret hlost hflaws z
  have hend := finishWith_lands (fun rep c => c.setG d (extend z sx rep.val)) (rep := r.reply [s.rd r.locs]) s rfl rfl rfl
  exact ⟨_, checked_own h rfl rfl hhome, hend⟩

theorem exec_ldAcq_own (sx : Bool) (d : GReg) (h : s.ownAt (eaM z a o s) (szBytes z) .load off) (hacq : s.acquiresAtOnce)
    (hobj : s.obj? (scratchLoc s.myCore off / 64) = none) :
    ∃ t, exec (.ldAcq z sx d a o) s = .next t ∧
      completes s t 4 (s.me.setG d (extend z sx (s.rd (span (scratchLoc s.myCore off) (szBytes z))))) := by
  obtain ⟨tl, hspan⟩ := span_scratchLoc_cons s.myCore off (szBytes z) (szBytes_pos z)
  obtain ⟨hrecs, hsweep, hframe⟩ := hacq
  have ⟨_, _, _, _, _, hflaws, hret, hlost⟩ := h
  let r := s.mkReq (.ldAcq z sx d a o) (eaM z a o s) (.scratch s.myCore off) (szBytes z) [] none
  have hhome := homeLdAcq_scratch (s := s) (r := r) hspan hret hlost hflaws hobj
  have hend := finishAcquiring_lands (i := .ldAcq z sx d a o) (fun rep c => c.setG d (extend z sx rep.val))
    (rep := r.reply [s.rd r.locs]) s rfl rfl rfl nofun hrecs hframe rfl hsweep
  exact ⟨_, checked_own h rfl rfl hhome, hend⟩

end

theorem storageOnly.memoryAndContext {s u t : State} {k : Nat} (h : storageOnly s u) (ho : onlyContext u t k) :
    memoryAndContext s t k := by
  obtain ⟨e, hne⟩ := ho
  refine ⟨?_, fun j hj => (hne j hj).trans (h.ctx j)⟩
  rw [h] at e
  rw [e]

theorem onlyContext.rdByte {s t : State} {k : Nat} (h : onlyContext s t k) (x : Nat) : t.rdByte x = s.rdByte x := by
  rw [h.1]
  rfl

/-- What a store to the own scratchpad leaves (R157). -/
def ownStored (s t : State) (off n v : Nat) : Prop :=
  memoryAndContext s t s.cur ∧ t.me = (s.me.advance 4).ready ∧ storesNum s t (scratchLoc s.myCore off) n v

/-- Bytes of one line of the own scratchpad are stored, and the context moves on. -/
theorem ownStored_endSt {s : State} {rep : Reply} {n off : Nat} (v : Nat) (hin : off % 64 + n ≤ 64)
    (hobj : s.obj? (scratchLoc s.myCore off / 64) = none) (hcx : rep.cx = s.cur) (htrap : rep.trap = none)
    (hrecs : rep.recs = []) (hmade : rep.made = false) :
    ownStored s (endSt rep (s.storeAt (span (scratchLoc s.myCore off) n) v)) off n v := by
  have hstores := storeAt_storesNum s (scratchLoc s.myCore off) n v fun x hlo hhi => by
    rw [scratch_line hin hlo hhi]
    exact hobj
  have hu : storageOnly s (s.storeAt (span (scratchLoc s.myCore off) n) v) := store_storageOnly ..
  obtain ⟨honly, hctx⟩ := finishWith_lands (fun _ c => c) (s.storeAt (span (scratchLoc s.myCore off) n) v) htrap hrecs hmade
  rw [hcx] at honly hctx
  have hmc := hu.memoryAndContext honly
  have hcur : (endSt rep (s.storeAt (span (scratchLoc s.myCore off) n) v)).cur = s.cur := by rw [endSt, hmc.1]
  refine ⟨hmc, ?_, fun x => (honly.rdByte x).trans (hstores x)⟩
  rw [State.me, hcur, endSt, hctx, hu.ctx]
  rfl

section
variable {s : State} {z : Sz} {a : GReg} {o : BitVec 14} {off : Nat} (h : s.ownAt (eaM z a o s) (szBytes z) .store off)
  (hobj : s.obj? (scratchLoc s.myCore off / 64) = none)
include h

/-- An aligned access does not cross the end of its line. -/
theorem ownAt_in_line : off % 64 + szBytes z ≤ 64 := by
  obtain ⟨hal, -, htr, -⟩ := h
  have hmod : off % 64 = (eaM z a o s).toNat % 64 := window_scratch_mod (window_of_translate htr)
  cases z <;> simp only [szBytes] at hal ⊢ <;> omega

include hobj

theorem exec_st_own (d : GReg) : ∃ t, exec (.st z d a o) s = .next t ∧ ownStored s t off (szBytes z) (s.me.gr d).toNat := by
  obtain ⟨tl, hspan⟩ := span_scratchLoc_cons s.myCore off (szBytes z) (szBytes_pos z)
  have ⟨_, _, _, _, _, _, hret, hlost⟩ := h
  let r := s.mkReq (.st z d a o) (eaM z a o s) (.scratch s.myCore off) (szBytes z) [(s.me.gr d).toNat] none
  have hhome := homeSt_scratch (s := s) (r := r) hspan hret hlost z hobj
  exact ⟨_, checked_own h rfl rfl hhome, ownStored_endSt _ (ownAt_in_line h) hobj rfl rfl rfl rfl⟩

theorem exec_stRel_own (d : GReg) :
    ∃ t, exec (.stRel z d a o) s = .next t ∧ ownStored s t off (szBytes z) (s.me.gr d).toNat := by
  obtain ⟨tl, hspan⟩ := span_scratchLoc_cons s.myCore off (szBytes z) (szBytes_pos z)
  have ⟨_, _, _, _, _, _, hret, hlost⟩ := h
  let r := s.mkReq (.stRel z d a o) (eaM z a o s) (.scratch s.myCore off) (szBytes z) [(s.me.gr d).toNat]
    (some (s.relSig s.myCore, .die))
  have hhome := homeWriteReq_scratch (s := s) (r := r) hspan hret hlost (s.me.gr d).toNat hobj
  exact ⟨_, checked_own (home := homeStRel) h rfl rfl hhome, ownStored_endSt _ (ownAt_in_line h) hobj rfl rfl rfl rfl⟩

end

/-- Settles O23: the access passes its checks, its home is the own page, and the end of the instruction moves on. -/
theorem ownLoadsAndStores : Obligations.OwnLoadsAndStores := by
  refine ⟨fun s z sx d a o off h => ?_, fun s z d a o off h hobj i hi => ?_⟩
  · rw [eaSpec_eq_eaM] at h
    rw [← extend_eq_loadSpec z sx (rd_span_lt ..)]
    exact ⟨exec_ld_own sx d h, fun hacq hobj => exec_ldAcq_own sx d h hacq hobj⟩
  · rw [eaSpec_eq_eaM] at h
    simp only [List.mem_cons, List.not_mem_nil, or_false] at hi
    rcases hi with rfl | rfl
    · exact exec_st_own h hobj d
    · exact exec_stRel_own h hobj d

end Sys2Proof.Machine
end

section
/-! Lines of an L1 (R184): what a read, a store and a fill leave. -/
namespace Sys2Proof.Machine

-- Bytes of a line

theorem testBit_ones {n k : Nat} : (ones n).testBit k = decide (k < n) := Nat.testBit_two_pow_sub_one ..

/-- A byte of a line after a store of `n` bytes into it: its data and whether it is dirty. -/
theorem write_byte (e : L1Line) {o n : Nat} (v : Nat) (hn : 0 < n) (h : o + n ≤ 64) (k : Nat) :
    (elem 8 (e.write o n v).data k, (e.write o n v).dirty.getLsbD k) =
      if o ≤ k ∧ k < o + n then (BitVec.ofNat 8 (v / 256 ^ (k - o)), true)
      else (elem 8 e.data k, e.dirty.getLsbD k) := by
  have hdirty : (e.write o n v).dirty.getLsbD k = if o ≤ k ∧ k ≤ o + n - 1 then decide (k - o < n) else e.dirty.getLsbD k := by
    have hhi : o + n - 1 < 64 := by omega
    rw [L1Line.write, getLsbD_setBits _ _ _ _ _ hhi, testBit_ones]
  have hdata (i : Nat) (hi : i < 8) : (elem 8 (e.write o n v).data k).getLsbD i =
      if 8 * o ≤ 8 * k + i ∧ 8 * k + i ≤ 8 * (o + n) - 1 then v.testBit (8 * k + i - 8 * o) else (elem 8 e.data k).getLsbD i := by
    rw [elem, BitVec.getLsbD_extractLsb', L1Line.write, getLsbD_setBits _ _ _ _ _ (by omega), elem, BitVec.getLsbD_extractLsb']
    simp only [hi, decide_true, Bool.true_and]
  by_cases hin : o ≤ k ∧ k < o + n
  · rw [if_pos hin, hdirty, if_pos (by omega), decide_eq_true (by omega)]
    congr 1
    apply BitVec.eq_of_getLsbD_eq
    intro i hi
    rw [hdata i hi, if_pos (by omega), BitVec.getLsbD_ofNat, show 256 = 2 ^ 8 from rfl, ← Nat.pow_mul, Nat.testBit_div_two_pow,
      decide_eq_true hi, Bool.true_and]
    congr 1
    omega
  · rw [if_neg hin, hdirty, if_neg (by omega)]
    congr 1
    apply BitVec.eq_of_getLsbD_eq
    intro i hi
    rw [hdata i hi, if_neg (by omega)]

theorem L1Line.read_eq (e : L1Line) (o n : Nat) : e.read o n = e.data.toNat / 2 ^ (8 * o) % 2 ^ (8 * n) := by
  rw [L1Line.read, Nat.shiftRight_eq_div_pow]

theorem L1Line.read_lt (e : L1Line) (o n : Nat) : e.read o n < 2 ^ (8 * n) := Nat.mod_lt _ (Nat.two_pow_pos _)

-- Slices of an image of memory

theorem memReadAt_append (m : Memory) (l l' : List Nat) :
    memReadAt m (l ++ l') = memReadAt m l + memReadAt m l' * 2 ^ (8 * l.length) := by
  induction l with
  | nil => simp [memReadAt]
  | cons a l ih =>
    rw [List.cons_append, memReadAt, memReadAt, ih, List.length_cons, Nat.mul_succ, Nat.pow_add, Nat.shiftLeft_eq, Nat.shiftLeft_eq]
    ring

/-- The bytes of a range inside a longer one. -/
theorem memRead_slice (m : Memory) (a : Nat) {o n k : Nat} (h : o + n ≤ k) :
    memRead m a k / 2 ^ (8 * o) % 2 ^ (8 * n) = memRead m (a + o) n := by
  obtain ⟨j, rfl⟩ := Nat.exists_eq_add_of_le h
  have hspan : span a (o + n + j) = span a o ++ (span (a + o) n ++ span (a + o + n) j) := by
    rw [Nat.add_assoc o]
    rw [span, span, span, span, List.range'_append_1, List.range'_append_1]
  have h1 := memReadAt_lt m (span a o)
  have h2 := memReadAt_lt m (span (a + o) n)
  simp only [span, List.length_range'] at h1 h2
  rw [memRead, hspan, memReadAt_append, memReadAt_append]
  simp only [span, List.length_range']
  rw [Nat.add_mul_div_right _ _ (Nat.two_pow_pos _), Nat.div_eq_of_lt h1, Nat.zero_add, Nat.add_mul_mod_self_right,
    Nat.mod_eq_of_lt h2]
  rfl

end Sys2Proof.Machine
end

section
/-! What the operations of an L1 leave in it and in memory (R184). -/
namespace Sys2Proof.Machine

-- Finding a line

theorem line_of_l1? {s : State} {core line : Nat} {e : L1Line} (h : s.l1? core line = some e) : e.line = line :=
  by
  have hb := List.find?_some h
  exact eq_of_beq hb

theorem find?_of_only_last {l : List L1Line} {e : L1Line} {line : Nat} (hl : ∀ x ∈ l, x.line ≠ line) (he : e.line = line) :
    (l ++ [e]).find? (fun x => x.line == line) = some e := by
  have hnone : l.find? (fun x => x.line == line) = none := List.find?_eq_none.2 fun x hx => by simpa using hl x hx
  rw [List.find?_append, hnone, Option.none_or, List.find?_cons_of_pos]
  exact beq_iff_eq.2 he

/-- The core's L1 holds no copy of the line. -/
def l1Without (s : State) (core line : Nat) : Prop := ∀ x ∈ (s.core core).l1, x.line ≠ line

theorem l1Without_iff {s : State} {core line : Nat} : s.l1? core line = none ↔ l1Without s core line := by
  rw [State.l1?, List.find?_eq_none]
  exact forall₂_congr fun x _ => by rw [beq_iff_eq]

/-- A line that the L1 holds is the last one after its use. -/
theorem l1Touch_eq {s : State} {core line : Nat} {e : L1Line} (h : s.l1? core line = some e) :
    s.l1Touch core line =
      s.modCore core (fun c => { c with l1 := c.l1.filter (fun x => decide (x.line ≠ line)) ++ [e] }) := by
  rw [State.l1Touch, h]

theorem l1Touch_storageOnly (s : State) (core line : Nat) : storageOnly s (s.l1Touch core line) := by
  unfold State.l1Touch
  split
  · exact modCore_storageOnly ..
  · exact storageOnly.refl s

theorem l1Store_storageOnly (s : State) (core line o n v : Nat) : storageOnly s (s.l1Store core line o n v) :=
  (l1Touch_storageOnly ..).trans (modCore_storageOnly ..)

theorem l1Store_msgs (s : State) (core line o n v : Nat) : (s.l1Store core line o n v).msgs = s.msgs := by
  unfold State.l1Store State.l1Touch
  split <;> rfl

theorem l1?_l1Store {s : State} {core line : Nat} {e : L1Line} (o n v : Nat) (h : s.l1? core line = some e) :
    (s.l1Store core line o n v).l1? core line = some (e.write o n v) := by
  have hline := line_of_l1? h
  rw [State.l1Store, l1Touch_eq h, State.l1?, State.core_modCore, State.core_modCore]
  dsimp only
  rw [List.map_append, List.map_singleton, if_pos hline]
  refine find?_of_only_last (fun x hx => ?_) hline
  obtain ⟨y, hy, rfl⟩ := List.mem_map.1 hx
  have hne : y.line ≠ line := of_decide_eq_true (List.mem_filter.1 hy).2
  rwa [if_neg hne]

-- What a write-back leaves

theorem dirtyPages_l1 (s : State) (l : List Host.Cell) (k : Nat) : ((s.dirtyPages l).core k).l1 = (s.core k).l1 := by
  induction l with
  | nil => rfl
  | cons c l ih =>
    unfold State.dirtyPages
    dsimp only
    split
    · split
      · exact ih
      · rw [← ih, State.modPage]
        by_cases hk : k = (c.1 - 2 ^ 44) / 65536
        · subst hk
          rw [State.core_modCore]
        · rw [State.core_modCore_ne _ _ _ _ hk]
    · exact ih

theorem store_l1 (s : State) (l : List Host.Cell) (k : Nat) : ((s.store l).core k).l1 = (s.core k).l1 := dirtyPages_l1 _ l k

theorem homeWrite_eq {s : State} (core : Option Nat) (l : List Host.Cell) (h : s.resvq = []) :
    s.homeWrite core l = s ∨ s.homeWrite core l = s.store (l.filter (fun c => !s.gone c.1)) := by
  have hq (c : List Nat) : s.resvOn c = none := by rw [State.resvOn, h]; rfl
  unfold State.homeWrite
  dsimp only
  rw [hq]
  dsimp only
  split
  · exact .inl rfl
  · exact .inr rfl

theorem homeWrite_l1 {s : State} (core : Option Nat) (l : List Host.Cell) (h : s.resvq = []) (k : Nat) :
    ((s.homeWrite core l).core k).l1 = (s.core k).l1 := by
  rcases homeWrite_eq core l h with he | he <;> rw [he]
  exact store_l1 ..

/-- A byte that no written cell lies at is as before. -/
theorem homeWrite_other {s : State} (core : Option Nat) (l : List Host.Cell) (h : s.resvq = []) {x : Nat}
    (hx : ∀ c ∈ l, x ≠ s.phys c.1) : (s.homeWrite core l).byteAt x = s.byteAt x := by
  rcases homeWrite_eq core l h with he | he <;> rw [he]
  exact store_other s _ x fun c hc => hx c (List.mem_filter.1 hc).1

theorem l1Clean_without {s : State} {core line : Nat} (l : Nat) (h : l1Without s core line) :
    l1Without (s.l1Clean core l) core line := by
  intro x hx
  rw [State.l1Clean, State.core_modCore] at hx
  obtain ⟨y, hy, rfl⟩ := List.mem_map.1 hx
  split
  · exact h y hy
  · exact h y hy

theorem l1WriteBack_without {s : State} {core line : Nat} (l : Nat) (hq : s.resvq = []) (h : l1Without s core line) :
    l1Without (s.l1WriteBack core l) core line := by
  fun_cases State.l1WriteBack s core l
  · exact h
  · intro x hx
    rw [homeWrite_l1 (s := (s.l1Clean core l).wroteHome core l) _ _ hq, State.wroteHome, State.core_modCore] at hx
    exact l1Clean_without l h x hx
  · exact h

theorem l1Invalidate_without {s : State} {core line : Nat} (l : Nat) (hq : s.resvq = []) (h : l1Without s core line) :
    l1Without (s.l1Invalidate core l) core line := by
  intro x hx
  rw [State.l1Invalidate, State.l1Drop, State.core_modCore] at hx
  exact l1WriteBack_without l hq h x (List.mem_filter.1 hx).1

theorem phys_global (s : State) {x : Nat} (h : x < 2 ^ 44) : s.phys x = x := if_pos h

/-- A cell of a line lies in that line. -/
theorem cells_line {e : L1Line} {c : Host.Cell} (h : c ∈ e.cells) : c.1 / 64 = e.line := by
  obtain ⟨i, hi, rfl⟩ := List.mem_map.1 h
  have hlt := List.mem_range.1 (List.mem_filter.1 hi).1
  dsimp only
  omega

/-- The write-back of a line writes no byte of another one in global memory. -/
theorem l1WriteBack_other {s : State} {core line x : Nat} (hq : s.resvq = []) (hx : x < 2 ^ 44) (hne : x / 64 ≠ line) :
    (s.l1WriteBack core line).byteAt x = s.byteAt x := by
  fun_cases State.l1WriteBack s core line
  · rfl
  · next e he _ =>
    refine homeWrite_other (s := (s.l1Clean core line).wroteHome core line) _ _ hq fun c hc heq => ?_
    rw [← phys_global _ hx] at heq
    have hcx : x = c.1 := phys_injective _ heq
    exact hne (by rw [hcx, cells_line hc, line_of_l1? he])
  · rfl

-- What a fill of a line that is not held leaves

theorem queuedCells_of_no_words {s : State} (core : Nat) (hq : s.resvq = []) : s.queuedCells core = [] := by
  rw [State.queuedCells, State.queuedWrites, hq]
  rfl

theorem writesQueued_of_no_words {s : State} (core : Nat) (p : Nat → Bool) (hq : s.resvq = []) :
    s.writesQueued core p = false := by
  rw [State.writesQueued, queuedCells_of_no_words core hq]
  rfl

theorem lineFor_home {s : State} (core line : Nat) (hq : s.resvq = []) :
    s.lineFor core line = BitVec.ofNat 512 (memRead s.mem (line * 64) 64) := by
  rw [State.lineFor, writesQueued_of_no_words core _ hq]
  rfl

/-- The line that a fill brings. -/
def filledLine (s : State) (line : Nat) : L1Line where
  line := line
  data := BitVec.ofNat 512 (memRead s.mem (line * 64) 64)
  dirty := 0
  rrec := s.recOf line

/-- A fill puts the line last, after it made room by taking out one of the lines that are held. -/
theorem l1Fill_eq {s : State} {core line : Nat} (hq : s.resvq = []) (h : s.l1? core line = none) :
    ∃ s1, (s1 = s ∨ ∃ v ∈ (s.core core).l1, s1 = s.l1Invalidate core v.line) ∧
      s.l1Fill core line = s1.modCore core (fun c => { c with l1 := c.l1 ++ [filledLine s line] }) := by
  unfold State.l1Fill
  dsimp only
  rw [h, lineFor_home core line hq]
  dsimp only
  refine ⟨_, ?_, rfl⟩
  split
  · next v tl hset =>
    split
    · exact .inr ⟨v, (List.mem_filter.1 (hset ▸ List.mem_cons_self)).1, rfl⟩
    · exact .inl rfl
  · exact .inl rfl

theorem l1?_l1Fill {s : State} {core line : Nat} (hq : s.resvq = []) (h : s.l1? core line = none) :
    (s.l1Fill core line).l1? core line = some (filledLine s line) := by
  obtain ⟨s1, hs1, heq⟩ := l1Fill_eq hq h
  have hwithout : l1Without s1 core line := by
    rcases hs1 with rfl | ⟨v, _, rfl⟩
    · exact l1Without_iff.1 h
    · exact l1Invalidate_without _ hq (l1Without_iff.1 h)
  rw [heq, State.l1?, State.core_modCore]
  exact find?_of_only_last hwithout rfl

/-- The line that a fill brings is in memory as before. -/
theorem l1Fill_line {s : State} {core line x : Nat} (hq : s.resvq = []) (h : s.l1? core line = none) (hx : x < 2 ^ 44)
    (hl : x / 64 = line) : (s.l1Fill core line).byteAt x = s.byteAt x := by
  obtain ⟨s1, hs1, heq⟩ := l1Fill_eq hq h
  rw [heq]
  rcases hs1 with rfl | ⟨v, hv, rfl⟩
  · rfl
  · refine l1WriteBack_other hq hx fun hlv => ?_
    exact l1Without_iff.1 h v hv (hlv.symm.trans hl)

end Sys2Proof.Machine
end

section
/-! Loads and stores of global memory: in the L1, and by a request to the home slice (R146, R184). -/
namespace Sys2Proof.Machine

-- Where a context moves on to

/-- Where a context goes depends on its place and its repeat frame only. -/
theorem advance_pc_congr {c c' : Ctx} (n : Nat) (hpc : c'.pc = c.pc) (hframe : c'.frame = c.frame) (hstat : c'.stat = c.stat)
    (hrcnt : c'.rcnt = c.rcnt) : (c'.advance n).pc = (c.advance n).pc := by
  unfold Ctx.advance
  rw [hframe, hpc]
  split
  · unfold Ctx.frameNext
    rw [hstat, hrcnt]
    dsimp only
    split
    · split
      · exact hpc
      · rfl
    · split
      · exact hpc
      · rfl
  · rfl

theorem Ctx.gr_setG_same (c : Ctx) (d : GReg) (v : Word) : (c.setG d v).gr d = v := by
  rw [Ctx.gr, Ctx.setG]
  exact Vector.getElem_set_self ..

-- A line that the L1 holds

section
variable {s : State} {z : Sz} {a : GReg} {o : BitVec 14} {pa : Nat} {e : L1Line} (hal : (eaM z a o s).toNat % szBytes z = 0)
  (hfl : inFleet (eaM z a o s) = false) (hline : s.l1? s.myCore (pa / 64) = some e)
include hal hfl hline

theorem exec_ld_hit (sx : Bool) (d : GReg) (htr : s.translate s.myCore s.myPart (eaM z a o s) .load = .ok (.global pa)) :
    exec (.ld z sx d a o) s =
      retire (fun c => ({ c with recs := c.recs ++ e.rrec.toList } : Ctx).setG d (extend z sx (e.read (pa % 64) (szBytes z))))
        (s.l1Touch s.myCore (pa / 64)) := by
  change execLd z sx d a o s = _
  rw [execLd, checked_found _ hal hfl htr]
  dsimp only
  rw [hline]

theorem exec_st_hit (d : GReg) (htr : s.translate s.myCore s.myPart (eaM z a o s) .store = .ok (.global pa))
    (hrel : s.me.relp = none) :
    exec (.st z d a o) s = retire id (s.l1Store s.myCore (pa / 64) (pa % 64) (szBytes z) (s.me.gr d).toNat) := by
  change execSt z d a o s = _
  rw [execSt, checked_found _ hal hfl htr]
  dsimp only
  rw [State.pendingFor, hrel]
  dsimp only
  rw [hline, Option.isSome_some, if_pos rfl]

end

/-- An instruction that ends in a state of other storage ends in its own context. -/
theorem retire_lands {s u : State} (h : storageOnly s u) (f : Ctx → Ctx) :
    ∃ t, retire f u = .next t ∧ t.mem = u.mem ∧ t.msgs = u.msgs ∧ t.cores = u.cores ∧
      t.me = ((f s.me).advance 4).ready := by
  refine ⟨u.finish u.cur 4 f, rfl, rfl, rfl, rfl, ?_⟩
  rw [← h.me]
  exact State.ctx_finish ..

-- A request to a home and its reply

/-- The state in which a home takes the request that an instruction of the current context has sent. -/
def State.sentReq (s : State) (r : Req) : State := { s.ask 1 r with sel := s.msgs.length }

/-- The state in which the home performs that request. -/
def State.asked (s : State) (r : Req) : State := (s.sentReq r).takeReq s.msgs.length r

/-- The context of an instruction that waits for the reply to a request. -/
def waitingCtx (s : State) (r : Req) : Ctx := { s.me with state := .waiting, why := 1, wait := some (s.waitFor r) }

theorem sentReq_msg (s : State) (r : Req) : (s.sentReq r).msgs[(s.sentReq r).sel]? = some (.req r) :=
  List.getElem?_concat_length ..

theorem sentReq_me (s : State) (r : Req) : (s.sentReq r).me = waitingCtx s r :=
  State.ctx_modCtx s s.cur (fun c => { c with state := .waiting, why := 1, wait := some (s.waitFor r) })

section
variable {s : State} {r : Req}

theorem asked_storageOnly (hhome : (∃ d q, r.home = .llc d q) ∨ ∃ k, r.home = .core k) :
    storageOnly (s.sentReq r) (s.asked r) := by
  have hdrop : storageOnly (s.sentReq r) ((s.sentReq r).dropMsg s.msgs.length) := rfl
  rw [State.asked, State.takeReq]
  rcases hhome with ⟨d, q, h⟩ | ⟨k, h⟩
  · rw [h]
    exact hdrop
  · rw [h]
    dsimp only
    split
    · exact hdrop.trans (modCore_storageOnly ..)
    · exact hdrop

theorem gate_of_pages {i : Instr} (hi : r.i = i) (hword : waitsAtWord i = true) (hq : s.resvq = [])
    (hpages : ∀ k, r.home = .core k → s.pageGate k (pagesOf r.locs) = .go) : s.gate r = .go := by
  have hresv : s.resvFor r = none := if_pos (List.isEmpty_iff.2 hq)
  have hword' : waitsAtWord r.i = true := hi ▸ hword
  rw [State.gate]
  cases hhome : r.home with
  | core k =>
    dsimp only
    rw [hpages k hhome]
    dsimp only
    rw [if_pos hword', hresv]
  | _ =>
    dsimp only
    rw [if_pos hword', hresv]

/-- A request that nothing holds back is performed when it arrives. -/
theorem arrive_asked {i : Instr} (hi : r.i = i) (hplain : ∀ g h, i ≠ .tgrun g h) (hblocked : r.blocked = false)
    (hgate : (s.sentReq r).gate r = .go) : (s.sentReq r).arrive s.msgs.length r = (s.asked r).perform r := by
  have htg : (s.sentReq r).tgWaits r = none := by
    rw [State.tgWaits, hi]
    split
    · next g h => exact absurd rfl (hplain g h)
    · rfl
  rw [State.arrive, hblocked, if_neg Bool.false_ne_true, hgate]
  dsimp only
  rw [State.performOrWait, htg]
  rfl

end

/-- A request whose context waits for it is answered with a message. -/
theorem perform_replies {s0 s2 : State} {r : Req} {rep : Reply} (hperf : performAt r s0 = (s2, some rep))
    (hended : s2.ended r.cx r.tid = false) : s0.perform r = s2.send (.reply rep) := by
  rw [State.perform, hperf]
  dsimp only
  rw [hended, if_neg Bool.false_ne_true]

/-- A request that its home performs as soon as it arrives, with a reply that ends the instruction. -/
theorem roundTrip_performed {s s2 : State} {ev i : Instr} {r : Req} {rep : Reply} (hexec : exec i s = .next (s.ask 1 r))
    (hi : r.i = i) (hhome : (∃ d q, r.home = .llc d q) ∨ ∃ k, r.home = .core k) (hcx : r.cx = s.cur)
    (htid : r.tid = s.me.tid) (hev : exec ev (s.sentReq r) = .next ((s.asked r).perform r))
    (hperf : performAt r (s.asked r) = (s2, some rep)) (hs2 : storageOnly (s.asked r) s2) (hrcx : rep.cx = s.cur)
    (hrtid : rep.tid = s.me.tid) :
    ∃ t s3, roundTrip ev i s (s.ask 1 r) t (endWith i rep s3) ∧ t.mem = s2.mem ∧
      s3 = { s2 with msgs := s3.msgs, sel := s3.sel } ∧ s3.cur = s.cur ∧ s3.me = waitingCtx s r := by
  have hstorage := (asked_storageOnly hhome).trans hs2
  have hcur : s2.cur = s.cur := hstorage.cur
  have hme : s2.ctx s.cur = waitingCtx s r := by rw [← sentReq_me, ← hstorage.me, State.me, hcur]
  have hended : s2.ended r.cx r.tid = false := by
    rw [State.ended, hcx, hme, htid]
    simp [waitingCtx]
  let t := s2.send (.reply rep)
  let t0 : State := { t with sel := t.msgs.length - 1 }
  let s3 := t0.dropMsg t0.sel
  have hrep : t0.msgs[t0.sel]? = some (.reply rep) := by
    have hlen : t0.sel = s2.msgs.length := by simp [t0, t, State.send]
    rw [hlen]
    exact List.getElem?_concat_length ..
  have hctx : s3.ctx rep.cx = waitingCtx s r := by
    rw [hrcx, ← hme]
    rfl
  have hwaits : (s3.ctx rep.cx).waits rep.tid 1 = true := by
    rw [hctx, Ctx.waits, hrtid]
    simp [waitingCtx, State.waitFor, mkWait]
  refine ⟨t, s3, ⟨hexec, ?_, ?_⟩, rfl, rfl, hcur, ?_⟩
  · exact hev.trans (congrArg _ (perform_replies hperf hended))
  · change execRemoteReply t0 = _
    rw [execRemoteReply, hrep]
    have hwait : (s3.ctx rep.cx).wait = some (s.waitFor r) := congrArg Ctx.wait hctx
    dsimp only
    rw [show ((t0.dropMsg t0.sel).ctx rep.cx).wait = some (s.waitFor r) from hwait]
    dsimp only
    rw [if_pos hwaits, show (s.waitFor r).i = i from hi]
  · rw [State.me, show s3.cur = s.cur from hcur, ← hrcx, hctx]

/-- A load or store of global memory is performed as soon as its home slice takes it. -/
theorem exec_homeSliceAccess_sentReq {s : State} {i : Instr} {r : Req} {d q : Nat} (hi : r.i = i) (hword : waitsAtWord i = true)
    (hplain : ∀ g h, i ≠ .tgrun g h) (hhome : r.home = .llc d q) (hblocked : r.blocked = false) (hq : s.resvq = []) :
    exec .homeSliceAccess (s.sentReq r) = .next ((s.asked r).perform r) := by
  have hgate : (s.sentReq r).gate r = .go := gate_of_pages hi hword hq fun k h => nomatch hhome.symm.trans h
  have harrive := arrive_asked hi hplain hblocked hgate
  change execHomeSliceAccess (s.sentReq r) = _
  rw [execHomeSliceAccess, sentReq_msg]
  dsimp only
  rw [hhome]
  exact congrArg _ harrive

end Sys2Proof.Machine
end

section
/-! Loads and stores of global memory: the statement (R146, R184). -/
namespace Sys2Proof.Machine

-- What the home slice does for a line that the L1 does not hold

theorem filledLine_byte (s : State) (line : Nat) {k : Nat} (h : k < 64) :
    (elem 8 (filledLine s line).data k, (filledLine s line).dirty.getLsbD k) = (s.byteAt (line * 64 + k), false) := by
  have hdata : elem 8 (filledLine s line).data k = s.byteAt (line * 64 + k) := line_byte _ _ _ h
  have hdirty : (filledLine s line).dirty.getLsbD k = false := BitVec.getLsbD_zero
  rw [hdata, hdirty]

theorem filledLine_read (s : State) (line : Nat) {o n : Nat} (h : o + n ≤ 64) :
    (filledLine s line).read o n = memRead s.mem (line * 64 + o) n := by
  have hlt : memRead s.mem (line * 64) 64 < 2 ^ 512 := by
    have hl := memReadAt_lt s.mem (span (line * 64) 64)
    rwa [span, List.length_range'] at hl
  rw [L1Line.read_eq, filledLine, BitVec.toNat_ofNat, Nat.mod_eq_of_lt hlt, memRead_slice _ _ h]

/-- What the home slice answers to a load or store of global memory: the values, and what its line's record says (R187). -/
def Req.answer (r : Req) (s : State) (vals : List Nat) : Reply := { r.reply vals with recs := s.recsFor r.locs }

/-- The state after the home slice has brought a line into the L1 and stored into it. -/
def filledAndStored (s : State) (core pa n v : Nat) : State :=
  (s.l1Fill core (pa / 64)).l1Store core (pa / 64) (pa % 64) n v

theorem filledAndStored_storageOnly (s : State) (core pa n v : Nat) (hq : s.resvq = []) :
    storageOnly s (filledAndStored s core pa n v) :=
  (l1Fill_storageOnly _ _ hq).trans (l1Store_storageOnly ..)

section
variable {s : State} {r : Req} {pa : Nat} {t : List Nat} (hl : r.locs = pa :: t) (hpa : pa < 2 ^ 42)
  (hf : s.flaws = []) (hr : s.retired = []) (hlost : s.lost = [])
include hl hpa hf hr hlost

theorem homeLd_global (z : Sz) (hq : s.resvq = []) (hmiss : s.l1? (coreOf r.cx) (pa / 64) = none) :
    homeLd z r s = (s.l1Fill (coreOf r.cx) (pa / 64),
      some (r.answer (s.l1Fill (coreOf r.cx) (pa / 64)) [(filledLine s (pa / 64)).read (pa % 64) (szBytes z)])) := by
  have hg : isGlobalLoc pa = true := decide_eq_true hpa
  rw [homeLd, Req.answer, hl]
  dsimp only
  rw [hg, if_pos rfl, readCheck_clean _ _ _ hf hr hlost]
  dsimp only
  rw [if_neg Bool.false_ne_true, l1?_l1Fill hq hmiss]

theorem homeSt_global (z : Sz) (hsig : r.sig = none) :
    homeSt z r s = (filledAndStored s (coreOf r.cx) pa (szBytes z) (r.vals.headD 0),
      some (r.answer (filledAndStored s (coreOf r.cx) pa (szBytes z) (r.vals.headD 0)) [])) := by
  have hg : isGlobalLoc pa = true := decide_eq_true hpa
  rw [homeSt, Req.answer, hl, hsig]
  dsimp only
  rw [hg, if_pos rfl, readCheck_clean _ _ _ hf hr hlost]
  dsimp only
  rw [if_neg Bool.false_ne_true]
  rfl

end

theorem l1?_congr {s t : State} (h : t.cores = s.cores) (core line : Nat) : t.l1? core line = s.l1? core line := by
  rw [State.l1?, State.l1?, State.core, State.core, h]

-- The whole of an access that goes to the home slice

theorem finishWith_me (f : Reply → Ctx → Ctx) {rep : Reply} {s : State} (htrap : rep.trap = none) (hcx : rep.cx = s.cur) :
    (finishWith f rep s).me = ((f rep (s.me.brought rep)).advance 4).ready ∧ (finishWith f rep s).cores = s.cores := by
  have hctx := State.ctx_finish (s.modCtx rep.cx (Ctx.brought rep)) rep.cx 4 (f rep)
  rw [State.ctx_modCtx] at hctx
  rw [finishWith, htrap]
  refine ⟨?_, rfl⟩
  rw [hcx] at hctx ⊢
  exact hctx

/-- An instruction whose reply ends it with `f`: the storage is what the home slice left. -/
theorem roundTrip_ends {s s2 : State} {i : Instr} {r : Req} {rep : Reply} {d q : Nat} {f : Reply → Ctx → Ctx}
    (hexec : exec i s = .next (s.ask 1 r)) (hi : r.i = i) (hword : waitsAtWord i = true) (hplain : ∀ g h, i ≠ .tgrun g h)
    (hhome : r.home = .llc d q) (hblocked : r.blocked = false) (hcx : r.cx = s.cur) (htid : r.tid = s.me.tid)
    (hq : s.resvq = []) (hperf : performAt r (s.asked r) = (s2, some rep)) (hs2 : storageOnly (s.asked r) s2)
    (hrcx : rep.cx = s.cur) (hrtid : rep.tid = s.me.tid) (htrap : rep.trap = none)
    (hend : endWith i rep = finishWith f rep) :
    ∃ u t w, roundTrip .homeSliceAccess i s u t w ∧ t.mem = s2.mem ∧ w.cores = s2.cores ∧
      w.me = ((f rep ((waitingCtx s r).brought rep)).advance 4).ready := by
  have hev := exec_homeSliceAccess_sentReq hi hword hplain hhome hblocked hq
  obtain ⟨t, s3, htrip, hmem, hs3, hcur, hme⟩ := roundTrip_performed hexec hi (.inl ⟨d, q, hhome⟩) hcx htid hev hperf hs2 hrcx
    hrtid
  have hcores : s3.cores = s2.cores := by rw [hs3]
  obtain ⟨hwme, hwcores⟩ := finishWith_me f htrap (hrcx.trans hcur.symm)
  rw [hend] at htrip
  exact ⟨_, t, _, htrip, hmem, hwcores.trans hcores, hme ▸ hwme⟩

theorem span_cons {n : Nat} (a : Nat) (h : 0 < n) : ∃ t, span a n = a :: t := by
  obtain ⟨m, rfl⟩ := Nat.exists_eq_succ_of_ne_zero h.ne'
  exact ⟨_, List.range'_succ ..⟩

section
variable {s : State} {z : Sz} {a : GReg} {o : BitVec 14} {pa : Nat} (hal : (eaM z a o s).toNat % szBytes z = 0)
  (hfl : inFleet (eaM z a o s) = false) (hmiss : s.l1? s.myCore (pa / 64) = none) (hin : pa % 64 + szBytes z ≤ 64)
  (hpa : pa < 2 ^ 41) (hq : s.resvq = []) (hf : s.flaws = []) (hr : s.retired = []) (hlost : s.lost = [])
include hal hfl hmiss hin hpa hq hf hr hlost

theorem ld_miss (sx : Bool) (d : GReg) (htr : s.translate s.myCore s.myPart (eaM z a o s) .load = .ok (.global pa)) :
    ∃ u t w, roundTrip .homeSliceAccess (.ld z sx d a o) s u t w ∧ w.me.pc = (s.me.advance 4).pc ∧
      w.me.state = .ready ∧ (w.l1? s.myCore (pa / 64)).isSome = true ∧
      w.me.gr d = loadSpec (szBytes z) sx (memRead t.mem pa (szBytes z)) := by
  let r := s.mkReq (.ld z sx d a o) (eaM z a o s) (.global pa) (szBytes z) [] none
  have hexec : exec (.ld z sx d a o) s = .next (s.ask 1 r) := by
    change execLd z sx d a o s = _
    rw [execLd, checked_found _ hal hfl htr]
    dsimp only
    rw [hmiss]
  obtain ⟨tl, hspan⟩ := span_cons pa (szBytes_pos z)
  have hperf := homeLd_global (s := s.asked r) (r := r) hspan (by omega) hf hr hlost z hq hmiss
  obtain ⟨u, t, w, htrip, hmem, hcores, hme⟩ := roundTrip_ends (f := fun rep c => c.setG d (extend z sx rep.val)) hexec rfl rfl
    nofun rfl rfl rfl rfl hq hperf (l1Fill_storageOnly _ _ hq) rfl rfl rfl rfl
  have hline := l1?_l1Fill (s := s.asked r) hq hmiss
  have hsame : memRead t.mem pa (szBytes z) = memRead s.mem pa (szBytes z) := by
    refine memReadAt_congr _ _ _ fun x hx => ?_
    obtain ⟨hlo, hhi⟩ := List.mem_range'_1.1 hx
    rw [hmem]
    exact l1Fill_line (s := s.asked r) hq hmiss (by omega) (by omega)
  have hread : (filledLine (s.asked r) (pa / 64)).read (pa % 64) (szBytes z) = memRead s.mem pa (szBytes z) := by
    rw [filledLine_read _ _ hin, Nat.div_add_mod']
    rfl
  refine ⟨u, t, w, htrip, ?_, ?_, ?_, ?_⟩
  · rw [hme]
    exact advance_pc_congr 4 rfl rfl rfl rfl
  · rw [hme]
    rfl
  · rw [l1?_congr hcores]
    exact Option.isSome_iff_exists.2 ⟨_, hline⟩
  · rw [hme, hsame, ← hread, ← extend_eq_loadSpec z sx (L1Line.read_lt ..), Ctx.gr, Ctx.ready_g, Ctx.advance_g]
    exact Ctx.gr_setG_same ..

theorem st_miss (d : GReg) (htr : s.translate s.myCore s.myPart (eaM z a o s) .store = .ok (.global pa))
    (hrel : s.me.relp = none) :
    ∃ u t w, roundTrip .homeSliceAccess (.st z d a o) s u t w ∧ w.me.pc = (s.me.advance 4).pc ∧
      w.me.state = .ready ∧ w.me.g = s.me.g ∧ ∃ e, w.l1? s.myCore (pa / 64) = some e ∧ ∀ k, k < 64 →
        (elem 8 e.data k, e.dirty.getLsbD k) =
          if pa % 64 ≤ k ∧ k < pa % 64 + szBytes z then (BitVec.ofNat 8 ((s.me.gr d).toNat / 256 ^ (k - pa % 64)), true)
          else (t.byteAt (pa / 64 * 64 + k), false) := by
  let r := s.mkReq (.st z d a o) (eaM z a o s) (.global pa) (szBytes z) [(s.me.gr d).toNat] none
  have hexec : exec (.st z d a o) s = .next (s.ask 1 r) := by
    change execSt z d a o s = _
    rw [execSt, checked_found _ hal hfl htr]
    dsimp only
    rw [State.pendingFor, hrel]
    dsimp only
    rw [hmiss, Option.isSome_none, if_neg Bool.false_ne_true]
  obtain ⟨tl, hspan⟩ := span_cons pa (szBytes_pos z)
  have hperf := homeSt_global (s := s.asked r) (r := r) hspan (by omega) hf hr hlost z rfl
  obtain ⟨u, t, w, htrip, hmem, hcores, hme⟩ := roundTrip_ends (f := fun _ c => c) hexec rfl rfl
    nofun rfl rfl rfl rfl hq hperf (filledAndStored_storageOnly _ _ _ _ _ hq) rfl rfl rfl rfl
  have hline := l1?_l1Store (pa % 64) (szBytes z) (s.me.gr d).toNat (l1?_l1Fill (s := s.asked r) hq hmiss)
  refine ⟨u, t, w, htrip, ?_, ?_, ?_, _, (l1?_congr hcores ..).trans hline, fun k hk => ?_⟩
  · rw [hme]
    exact advance_pc_congr 4 rfl rfl rfl rfl
  · rw [hme]
    rfl
  · rw [hme, Ctx.ready_g, Ctx.advance_g]
    rfl
  · have hbyte : t.byteAt (pa / 64 * 64 + k) = (s.asked r).byteAt (pa / 64 * 64 + k) := by
      rw [State.byteAt, hmem, filledAndStored, l1Store_mem]
      exact l1Fill_line hq hmiss (by omega) (by omega)
    rw [write_byte _ _ (szBytes_pos z) hin, filledLine_byte _ _ hk, hbyte]

end

theorem sameBytes_of_mem {s t : State} (h : t.mem = s.mem) : sameBytes s t := fun x => by rw [State.byteAt, h, State.byteAt]

/-- Settles O24, by whether the L1 holds the line. -/
theorem globalLoadsAndStores : Obligations.GlobalLoadsAndStores := by
  constructor
  case left =>
    intro s z sx d a o pa e ea hal hfl hline hin
    have hea : ea = eaM z a o s := eaSpec_eq_eaM ..
    rw [hea] at hal hfl ⊢
    refine ⟨fun htr => ?_, fun htr hrel => ?_⟩
    · obtain ⟨t, ht, hmem, hmsgs, -, hme⟩ := retire_lands (l1Touch_storageOnly s s.myCore (pa / 64)) (fun c =>
        ({ c with recs := c.recs ++ e.rrec.toList } : Ctx).setG d (extend z sx (e.read (pa % 64) (szBytes z))))
      refine ⟨t, (exec_ld_hit hal hfl hline sx d htr).trans ht, sameBytes_of_mem (hmem.trans (l1Touch_mem ..)), ?_, ?_, ?_⟩
      · rw [hmsgs, l1Touch_eq hline]
        rfl
      · rw [hme]
        exact advance_pc_congr 4 rfl rfl rfl rfl
      · rw [hme, ← L1Line.read_eq, ← extend_eq_loadSpec z sx (L1Line.read_lt ..), Ctx.ready_g, Ctx.advance_g]
        rfl
    · obtain ⟨t, ht, hmem, hmsgs, hcores, hme⟩ := retire_lands
        (l1Store_storageOnly s s.myCore (pa / 64) (pa % 64) (szBytes z) (s.me.gr d).toNat) id
      have hl1 := l1?_l1Store (pa % 64) (szBytes z) (s.me.gr d).toNat hline
      exact ⟨t, (exec_st_hit hal hfl hline d htr hrel).trans ht, sameBytes_of_mem (hmem.trans (l1Store_mem ..)),
        hmsgs.trans (l1Store_msgs ..), hme, _, (l1?_congr hcores ..).trans hl1,
        fun k _ => write_byte e _ (szBytes_pos z) hin k⟩
  case right =>
    intro s z sx d a o pa ea hal hfl hmiss hin hpa hq hf hr hlost
    have hea : ea = eaM z a o s := eaSpec_eq_eaM ..
    rw [hea] at hal hfl ⊢
    exact ⟨ld_miss hal hfl hmiss hin hpa hq hf hr hlost sx d, st_miss hal hfl hmiss hin hpa hq hf hr hlost d⟩

end Sys2Proof.Machine
end

section
/-! Copies of memory, and the ends of a page's refill and write-back (R149, R151). -/
namespace Sys2Proof.Machine

-- What a copy leaves

theorem tget_filter {α : Type} (d : α) (k : Nat) (p : Nat × α → Bool) (hp : ∀ v, p (k, v) = true) (t : Tbl α) :
    tget d k (t.filter p) = tget d k t := by
  induction t with
  | nil => rfl
  | cons e t ih =>
    obtain ⟨j, v⟩ := e
    by_cases hj : j = k
    · subst hj
      rw [List.filter_cons_of_pos (hp v), tget, tget, if_pos rfl, if_pos rfl]
    · by_cases hpj : p (j, v) = true
      · rw [List.filter_cons_of_pos hpj, tget, tget, if_neg hj, if_neg hj, ih]
      · rw [List.filter_cons_of_neg hpj, ih, tget, if_neg hj]

/-- Cells moved from `src` to `dst`: what none of them lands at is as before. -/
theorem memGet_moved_other (src dst : Nat) {l : List Host.Cell} {x : Nat} (h : ∀ c ∈ l, x ≠ c.1 - src + dst) (m : Memory) :
    memGet (l.foldl (fun acc c => memSet acc (c.1 - src + dst) c.2) m) x = memGet m x := by
  induction l generalizing m with
  | nil => rfl
  | cons c l ih =>
    rw [List.foldl_cons, ih fun d hd => h d (List.mem_cons_of_mem c hd), memGet_memSet_ne _ _ _ _ (h c List.mem_cons_self)]

/-- Cells moved from `src` to `dst`, over bytes that read 0: what stood at `src + i` stands at `i + dst`. -/
theorem memGet_moved (src dst i : Nat) {l : Memory} (hsort : l.Pairwise (fun a b => a.1 < b.1)) (hsrc : ∀ c ∈ l, src ≤ c.1)
    {m : Memory} (hm : memGet m (i + dst) = memDefault) :
    memGet (l.foldl (fun acc c => memSet acc (c.1 - src + dst) c.2) m) (i + dst) = memGet l (src + i) := by
  induction l generalizing m with
  | nil => exact hm
  | cons c l ih =>
    obtain ⟨hc, hsort⟩ := List.pairwise_cons.1 hsort
    have hge := hsrc c List.mem_cons_self
    have hsrc' : ∀ e ∈ l, src ≤ e.1 := fun e he => hsrc e (List.mem_cons_of_mem c he)
    rw [List.foldl_cons]
    by_cases hk : c.1 = src + i
    · have hland : c.1 - src + dst = i + dst := by omega
      have hother : ∀ e ∈ l, i + dst ≠ e.1 - src + dst := fun e he => by
        have hlt := hc e he
        omega
      rw [memGet_moved_other src dst hother, hland, memGet_memSet, memGet, tget, if_pos hk]
    · have hne : i + dst ≠ c.1 - src + dst := by omega
      rw [ih hsort hsrc' (by rw [memGet_memSet_ne _ _ _ _ hne, hm]), memGet, memGet, tget, if_neg hk]

theorem memGet_memCopy {m : Memory} (h : m.wf = true) (src dst n x : Nat) :
    memGet (memCopy m src dst n) x = if dst ≤ x ∧ x < dst + n then memGet m (src + (x - dst)) else memGet m x := by
  have hin (c : Host.Cell) (hc : c ∈ m.filter (fun c => decide (src ≤ c.1) && decide (c.1 < src + n))) :
      src ≤ c.1 ∧ c.1 < src + n := by simpa using (List.mem_filter.1 hc).2
  unfold memCopy
  split
  · next hx =>
    obtain ⟨i, rfl⟩ := Nat.exists_eq_add_of_le' hx.1
    have hclear : memGet (memClear m dst n) (i + dst) = memDefault := by rw [memGet_memClear, if_pos hx]
    have hi : i < n := by omega
    rw [memGet_moved src dst i (((tcanon_iff ..).1 h).1.filter _) (fun c hc => (hin c hc).1) hclear, Nat.add_sub_cancel]
    exact tget_filter _ _ _ (fun _ => by simp [hi]) m
  · next hx =>
    rw [memGet_moved_other, memGet_memClear, if_neg hx]
    intro c hc
    have hc' := hin c hc
    omega

-- Refills and write-backs

theorem page_modPage_same (s : State) (core p : Nat) (f : PageDesc → PageDesc) :
    (s.modPage core p f).page core p = f (s.page core p) := by
  rw [State.page_modPage, if_pos ⟨rfl, rfl⟩]

theorem exec_refillComplete {s : State} {core page : Nat} (hbusy : (s.page core page).busy = true)
    (hwb : (s.page core page).wb = false) : exec (.refillComplete core page) s = .next (s.refillPage core page) := by
  change execRefillComplete core page s = _
  rw [execRefillComplete, hbusy, hwb]
  rfl

theorem exec_pageWritebackComplete {s : State} {core page : Nat} (hbusy : (s.page core page).busy = true)
    (hwb : (s.page core page).wb = true) :
    exec (.pageWritebackComplete core page) s = .next (s.writeBackPage core page) := by
  change execPageWritebackComplete core page s = _
  rw [execPageWritebackComplete, hbusy, hwb]
  rfl

/-- A page's frame or place of which no unit is retired and no line is lost reads without an error (R396). -/
theorem readPageAt_clean {s : State} {core loc : Nat} (hf : s.flaws = []) (hl : s.lost = [])
    (hr : ∀ x ∈ pageLines loc, x / 65536 ∉ s.retired) : s.readPageAt core loc = (s, false) := by
  have hgone : (pageLines loc).any s.gone = false := List.any_eq_false.2 fun x hx => by
    simp [State.gone, hl, hr x hx]
  rw [State.readPageAt, State.readCheck, hgone, State.flawsIn, hf]
  rfl

theorem readPageAt_retired {s : State} {core loc : Nat} (hr : loc / 65536 ∈ s.retired) :
    s.readPageAt core loc = (s, true) := by
  have hgone : (pageLines loc).any s.gone = true :=
    List.any_eq_true.2 ⟨loc, List.mem_map.2 ⟨0, by simp, by simp⟩, by simp [State.gone, hr]⟩
  rw [State.readPageAt, State.readCheck, hgone]
  rfl

theorem refill_of_retired {s : State} {core page : Nat} (hbusy : (s.page core page).busy = true)
    (hwb : (s.page core page).wb = false) (hr : (s.page core page).frame / 65536 ∈ s.retired) :
    ∃ t, exec (.refillComplete core page) s = .next t ∧ t.page core page = { s.page core page with busy := false } ∧
      sameBytes s t := by
  refine ⟨_, exec_refillComplete hbusy hwb, ?_⟩
  rw [State.refillPage, readPageAt_retired (loc := globalLoc (s.page core page).frame) hr]
  exact ⟨page_modPage_same .., fun _ => rfl⟩

section
variable {s : State} {core page : Nat} (hbusy : (s.page core page).busy = true) (hf : s.flaws = []) (hl : s.lost = [])
include hbusy hf hl

theorem refill_copies (hinv : s.Inv) (hwb : (s.page core page).wb = false) (hr : s.retired = []) :
    ∃ t, exec (.refillComplete core page) s = .next t ∧
      t.page core page = { s.page core page with res := true, dirty := false, busy := false } ∧
      ∀ x, t.byteAt x = if scratchLoc core (page * 4096) ≤ x ∧ x < scratchLoc core (page * 4096) + 4096
        then s.byteAt ((s.page core page).frame + (x - scratchLoc core (page * 4096))) else s.byteAt x := by
  refine ⟨_, exec_refillComplete hbusy hwb, ?_⟩
  rw [State.refillPage, readPageAt_clean hf hl (by simp [hr])]
  exact ⟨page_modPage_same .., fun x => memGet_memCopy hinv ..⟩

theorem writeBack_of_retired (hwb : (s.page core page).wb = true) (hframe : (s.page core page).frame + 4096 ≤ 2 ^ 41)
    (hr : s.retired = [(s.page core page).frame / 65536]) :
    ∃ t, exec (.pageWritebackComplete core page) s = .next t ∧
      t.page core page = { s.page core page with res := false, dirty := false, busy := false, wb := false } ∧
      sameBytes s t := by
  have hgone : s.frameGone core page = true := by simp [State.frameGone, globalLoc, hr]
  have hplace : ∀ x ∈ pageLines (pageLoc core page), x / 65536 ∉ s.retired := by
    intro x hx
    obtain ⟨i, _, rfl⟩ := List.mem_map.1 hx
    rw [hr, List.mem_singleton, pageLoc, scratchLoc]
    omega
  refine ⟨_, exec_pageWritebackComplete hbusy hwb, ?_⟩
  rw [State.writeBackPage, readPageAt_clean hf hl hplace]
  dsimp only
  rw [hgone, Bool.false_or, if_pos rfl]
  exact ⟨page_modPage_same .., fun _ => rfl⟩

theorem writeBack_copies (hinv : s.Inv) (hwb : (s.page core page).wb = true) (hr : s.retired = []) :
    ∃ t, exec (.pageWritebackComplete core page) s = .next t ∧
      t.page core page = { s.page core page with res := false, dirty := false, busy := false, wb := false } ∧
      ∀ x, t.byteAt x = if (s.page core page).frame ≤ x ∧ x < (s.page core page).frame + 4096
        then s.byteAt (scratchLoc core (page * 4096) + (x - (s.page core page).frame)) else s.byteAt x := by
  have hgone : s.frameGone core page = false := by simp [State.frameGone, hr, hl]
  refine ⟨_, exec_pageWritebackComplete hbusy hwb, ?_⟩
  rw [State.writeBackPage, readPageAt_clean hf hl (by simp [hr])]
  dsimp only
  rw [hgone, Bool.false_or, if_neg Bool.false_ne_true]
  exact ⟨page_modPage_same .., fun x => memGet_memCopy hinv ..⟩

end

end Sys2Proof.Machine
end

section
/-! Evictions, drains, sweeps and the ends of acquires (R184, R187 to R189). -/
namespace Sys2Proof.Machine

-- What the write-back of a line leaves in memory

/-- Cells stored one after the other: a cell that agrees with every other one at its place stands there. -/
theorem memGet_stored {l : List Host.Cell} {c : Host.Cell} (f : Nat → Nat) (hc : c ∈ l)
    (hsame : ∀ e ∈ l, f e.1 = f c.1 → e.2 = c.2) (m : Memory) :
    memGet (l.foldl (fun m c => memSet m (f c.1) c.2) m) (f c.1) = c.2 := by
  have keeps (t : List Host.Cell) (ht : ∀ e ∈ t, f e.1 = f c.1 → e.2 = c.2) (m : Memory) (hm : memGet m (f c.1) = c.2) :
      memGet (t.foldl (fun m c => memSet m (f c.1) c.2) m) (f c.1) = c.2 := by
    induction t generalizing m with
    | nil => exact hm
    | cons e t ih =>
      refine ih (fun x hx => ht x (List.mem_cons_of_mem e hx)) _ ?_
      by_cases he : f e.1 = f c.1
      · dsimp only
        rw [he, memGet_memSet, ht e List.mem_cons_self he]
      · exact (memGet_memSet_ne _ _ _ _ (Ne.symm he)).trans hm
  induction l generalizing m with
  | nil => exact absurd hc List.not_mem_nil
  | cons e l ih =>
    have hsame' : ∀ x ∈ l, f x.1 = f c.1 → x.2 = c.2 := fun x hx => hsame x (List.mem_cons_of_mem e hx)
    rcases List.mem_cons.1 hc with rfl | hc
    · exact keeps l hsame' _ (memGet_memSet ..)
    · exact ih hc hsame' _

theorem homeWrite_mem_clean {s : State} (core : Option Nat) (l : List Host.Cell) (hq : s.resvq = []) (hr : s.retired = [])
    (hl : s.lost = []) : (s.homeWrite core l).mem = l.foldl (fun m c => memSet m (s.phys c.1) c.2) s.mem := by
  have hall : l.filter (fun c => !s.gone c.1) = l := List.filter_eq_self.2 fun c _ => by rw [gone_clean _ hr hl]; rfl
  have hword : s.resvOn (l.map Prod.fst) = none := by rw [State.resvOn, hq]; rfl
  rw [State.homeWrite, hall, hword]
  change (if l.isEmpty then s else s.store l).mem = _
  split
  · next hnil => rw [List.isEmpty_iff.1 hnil, List.foldl_nil]
  · exact store_mem s l

/-- The dirty bytes of a line are in memory, and every other byte is as before. -/
def lineWritten (s : State) (e : L1Line) (t : State) : Prop :=
  ∀ x, t.byteAt x = if x / 64 = e.line ∧ e.dirty.getLsbD (x % 64) = true then elem 8 e.data (x % 64) else s.byteAt x

theorem mem_cells {e : L1Line} {c : Host.Cell} :
    c ∈ e.cells ↔ c.1 / 64 = e.line ∧ e.dirty.getLsbD (c.1 % 64) = true ∧ c.2 = elem 8 e.data (c.1 % 64) := by
  obtain ⟨x, b⟩ := c
  constructor
  · intro h
    obtain ⟨i, hi, heq⟩ := List.mem_map.1 h
    obtain ⟨hi64, hd⟩ := List.mem_filter.1 hi
    have hlt := List.mem_range.1 hi64
    obtain ⟨rfl, rfl⟩ := Prod.mk.inj heq
    have hm : (e.line * 64 + i) % 64 = i := by omega
    exact ⟨by dsimp only; omega, by rw [hm]; exact hd, by rw [hm]⟩
  · rintro ⟨hx, hd, hb⟩
    dsimp only at hx hd hb
    rw [hb]
    refine List.mem_map.2 ⟨x % 64, List.mem_filter.2 ⟨List.mem_range.2 (Nat.mod_lt _ (by decide)), hd⟩, ?_⟩
    rw [← hx, Nat.div_add_mod']

theorem homeWrite_cells {s : State} (core : Option Nat) {e : L1Line} (hq : s.resvq = []) (hr : s.retired = [])
    (hl : s.lost = []) (hglobal : e.line * 64 + 64 ≤ 2 ^ 42) : lineWritten s e (s.homeWrite core e.cells) := by
  intro x
  have hphys {c : Host.Cell} (hc : c ∈ e.cells) : s.phys c.1 = c.1 := by
    have hline := (mem_cells.1 hc).1
    exact phys_global _ (by omega)
  have hmem := homeWrite_mem_clean core e.cells hq hr hl
  by_cases hx : x / 64 = e.line ∧ e.dirty.getLsbD (x % 64) = true
  · have hin : ((x, elem 8 e.data (x % 64)) : Host.Cell) ∈ e.cells := mem_cells.2 ⟨hx.1, hx.2, rfl⟩
    have hst := memGet_stored s.phys hin (fun c hc heq => by rw [(mem_cells.1 hc).2.2, phys_injective _ heq]) s.mem
    rw [← hmem, hphys hin] at hst
    rw [if_pos hx]
    exact hst
  · rw [if_neg hx]
    refine homeWrite_other core e.cells hq fun c hc heq => hx ?_
    rw [hphys hc] at heq
    rw [heq]
    exact ⟨(mem_cells.1 hc).1, (mem_cells.1 hc).2.1⟩

section
variable {s : State} {core : Nat} {e : L1Line} (hq : s.resvq = []) (hr : s.retired = []) (hl : s.lost = [])
  (hglobal : e.line * 64 + 64 ≤ 2 ^ 42) (he : s.l1? core e.line = some e)
include hq hr hl hglobal he

theorem l1WriteBack_written : lineWritten s e (s.l1WriteBack core e.line) := by
  unfold State.l1WriteBack
  rw [he]
  dsimp only
  split
  · next h0 =>
    intro x
    have hclean : e.dirty.getLsbD (x % 64) = false := by rw [h0]; exact BitVec.getLsbD_zero
    rw [hclean, if_neg (by simp)]
  · exact homeWrite_cells (s := (s.l1Clean core e.line).wroteHome core e.line) (some core) hq hr hl hglobal

theorem exec_l1Eviction_written :
    ∃ t, exec (.l1Eviction core e.line) s = .next t ∧ lineWritten s e t ∧ t.l1? core e.line = none := by
  refine ⟨s.l1Invalidate core e.line, rfl, l1WriteBack_written hq hr hl hglobal he, ?_⟩
  rw [l1Without_iff, State.l1Invalidate, State.l1Drop]
  intro x hx
  rw [State.core_modCore] at hx
  exact of_decide_eq_true (List.mem_filter.1 hx).2

end

-- Drains

theorem l1?_of_only {s : State} {core : Nat} {e : L1Line} (h : (s.core core).l1 = [e]) : s.l1? core e.line = some e := by
  rw [State.l1?, h]
  exact List.find?_cons_of_pos (beq_self_eq_true _)

/-- A drain of a core that holds one line: the line is written back if the signature names it. -/
theorem drainCore_only {s : State} {core : Nat} {e : L1Line} (g : Sig) (h : (s.core core).l1 = [e]) :
    s.drainCore core g = if inSig g e.line then s.l1WriteBack core e.line else s := by
  rw [State.drainCore, State.l1Lines, h]
  by_cases hg : inSig g e.line = true
  · simp [hg]
  · simp [hg]

theorem exec_drain_only {s : State} {core part : Nat} {e : L1Line} {g : Sig} {dest : DrainFor} (hq : s.resvq = [])
    (hr : s.retired = []) (hl : s.lost = []) (hglobal : e.line * 64 + 64 ≤ 2 ^ 42)
    (hmsg : s.msgs[s.sel]? = some (.drain core g part dest)) (honly : (s.core core).l1 = [e]) :
    ∃ t, exec .drain s = .next t ∧ t.msgs.getLast? = some (.drainAck dest) ∧
      (s.partOf core = some part → inSig g e.line = true → lineWritten s e t) ∧
      (inSig g e.line = false → sameBytes s t) := by
  let s0 := s.dropMsg s.sel
  have hexec (s1 : State) (h1 : (if s0.inPart core part then s0.drainCore core g else s0) = s1) (hq1 : s1.resvq = []) :
      exec .drain s = .next (s1.send (.drainAck dest)) := by
    change execDrain s = _
    rw [execDrain, hmsg]
    dsimp only
    rw [h1, writesQueued_of_no_words core _ hq1, Bool.and_false, if_neg Bool.false_ne_true]
  have hlast (s1 : State) : (s1.send (.drainAck dest)).msgs.getLast? = some (.drainAck dest) := List.getLast?_concat ..
  have hback : storageOnly s0 (s0.l1WriteBack core e.line) := l1WriteBack_storageOnly core e.line hq
  have hdrain := drainCore_only (s := s0) g honly
  by_cases hin : s0.inPart core part = true ∧ inSig g e.line = true
  · obtain ⟨hp, hg⟩ := hin
    refine ⟨_, hexec (s0.l1WriteBack core e.line) (by rw [if_pos hp, hdrain, if_pos hg]) (by rw [hback]; exact hq), hlast _,
      fun _ _ => ?_, fun hno => absurd (hno.symm.trans hg) Bool.false_ne_true⟩
    exact l1WriteBack_written (s := s0) hq hr hl hglobal (l1?_of_only honly)
  · refine ⟨_, hexec s0 ?_ hq, hlast _, fun hp hg => absurd ⟨?_, hg⟩ hin, fun _ _ => rfl⟩
    · split
      · next hp => rw [hdrain, if_neg fun hg => hin ⟨hp, hg⟩]
      · rfl
    · exact beq_iff_eq.2 hp

theorem exec_drainAck_req {s : State} {r : Req} (hmsg : s.msgs[s.sel]? = some (.drainAck (.req r))) :
    exec .drainAck s = .next { s with msgs := dropAt s.sel s.msgs ++ [.req r] } := by
  change execDrainAck s = _
  rw [execDrainAck, hmsg]
  rfl

end Sys2Proof.Machine
end

section
/-! Sweeps, and the ends of the acquires that wait for them (R184, R188, R189). -/
namespace Sys2Proof.Machine

-- What an operation on lines of an L1 changes at most, where writes may have to wait at reserved words

/-- `t` differs from `s` in storage, in messages and in what waits at reserved words at most. -/
def linesOnly (s t : State) : Prop :=
  t = { s with mem := t.mem, freeMarks := t.freeMarks, cores := t.cores, watches := t.watches, msgs := t.msgs, resvq := t.resvq }

theorem linesOnly.refl (s : State) : linesOnly s s := rfl

theorem linesOnly.trans {s t u : State} (h1 : linesOnly s t) (h2 : linesOnly t u) : linesOnly s u := by
  have h3 : u = { t with mem := u.mem, freeMarks := u.freeMarks, cores := u.cores, watches := u.watches, msgs := u.msgs, resvq := u.resvq } := h2
  rw [h1] at h3
  exact h3

theorem storageOnly.linesOnly {s t : State} (h : storageOnly s t) : linesOnly s t := by
  have h2 : t.resvq = s.resvq := by rw [h]
  rw [Machine.linesOnly, h2]
  exact h

section
variable {s t : State} (h : linesOnly s t)
include h

theorem linesOnly.ctx (k : Nat) : t.ctx k = s.ctx k := by
  rw [h]
  rfl

theorem linesOnly.sel : t.sel = s.sel := by rw [h]

theorem linesOnly.partOf (k : Nat) : t.partOf k = s.partOf k := by
  rw [h]
  rfl

theorem linesOnly.part (k : Nat) : t.part k = s.part k := by
  rw [h]
  rfl

end

theorem foldl_linesOnly {β : Type} {f : State → β → State} (h : ∀ s b, linesOnly s (f s b)) (l : List β) (s : State) :
    linesOnly s (l.foldl f s) := by
  induction l generalizing s with
  | nil => exact linesOnly.refl s
  | cons b l ih => exact (h s b).trans (ih _)

theorem modCore_linesOnly (s : State) (k : Nat) (f : Core → Core) : linesOnly s (s.modCore k f) := rfl

theorem homeWrite_linesOnly (s : State) (core : Option Nat) (l : List Host.Cell) : linesOnly s (s.homeWrite core l) := by
  unfold State.homeWrite
  dsimp only
  split
  · rfl
  · split
    · rfl
    · exact (store_storageOnly ..).linesOnly

theorem l1WriteBack_linesOnly (s : State) (core line : Nat) : linesOnly s (s.l1WriteBack core line) := by
  have h1 : linesOnly s ((s.l1Clean core line).wroteHome core line) := (modCore_linesOnly ..).trans (modCore_linesOnly ..)
  fun_cases State.l1WriteBack s core line
  · exact linesOnly.refl s
  · exact h1.trans (homeWrite_linesOnly ..)
  · exact linesOnly.refl s

theorem l1Invalidate_linesOnly (s : State) (core line : Nat) : linesOnly s (s.l1Invalidate core line) :=
  (l1WriteBack_linesOnly ..).trans (l1Drop_storageOnly ..).linesOnly

theorem invalidateAll_linesOnly (s : State) (core : Nat) : linesOnly s (s.invalidateAll core) :=
  foldl_linesOnly (fun s l => l1Invalidate_linesOnly s core l) _ s

theorem applyRecs_linesOnly (s : State) (core : Nat) (l : List Rec) : linesOnly s (s.applyRecs core l) :=
  foldl_linesOnly (fun s _ => (foldl_linesOnly (fun s l => l1Invalidate_linesOnly s core l) _ s).trans
    (modCore_linesOnly ..)) l s

-- Acquires that have nothing more to wait for

/-- The context of an acquire that goes on. -/
def acquiredCtx (c : Ctx) (w : Wait) : Ctx := ({ c with pc := w.next } : Ctx).ready

theorem endAcquire_ctx {s : State} {cx : Nat} {w : Wait} (hw : (s.ctx cx).wait = some w) (hi : ∀ sc, w.i ≠ .fenceAr sc)
    (hnext : w.next.toNat < 2 ^ 57) : (s.endAcquire cx).ctx cx = acquiredCtx (s.ctx cx) w := by
  have hctx := (applyRecs_linesOnly s (coreOf cx) w.recs).ctx cx
  rw [State.endAcquire, hw]
  dsimp only
  rw [State.goTo, if_neg (not_not.mpr ((shiftRight_57_eq_zero_iff _).2 hnext))]
  split
  · next sc h => exact absurd h (hi sc)
  · rw [State.ctx_modCtx, hctx]
    rfl

section
variable {s : State} {cx : Nat} {w : Wait} (hstate : (s.ctx cx).state = .waiting) (hw : (s.ctx cx).wait = some w)
  (hph : w.ph = 2) (hi : ∀ sc, w.i ≠ .fenceAr sc) (hnext : w.next.toNat < 2 ^ 57)
include hstate hw hph hi hnext

/-- The last acknowledgement lets an acquire go on; an earlier one is counted (R187). -/
theorem exec_drainAck_ctx {tag : Bool} (hmsg : s.msgs[s.sel]? = some (.drainAck (.ctx cx (s.ctx cx).tid tag)))
    (hsweep : s.sweepingFor cx = false) :
    ∃ t, exec .drainAck s = .next t ∧
      t.ctx cx = if w.acks ≤ 1 then acquiredCtx (s.ctx cx) w else { s.ctx cx with wait := some { w with acks := w.acks - 1 } } := by
  let s0 := s.dropMsg s.sel
  have hexec : exec .drainAck s = .next (s0.ackDrain cx (s.ctx cx).tid) := by
    change execDrainAck s = _
    rw [execDrainAck, hmsg]
  have hwaits : (s0.ctx cx).waits (s.ctx cx).tid 2 = true := by
    have hsame : s0.ctx cx = s.ctx cx := rfl
    rw [hsame, Ctx.waits, hstate, hw]
    simp [hph]
  refine ⟨_, hexec, ?_⟩
  rw [State.ackDrain, if_pos hwaits]
  generalize hs1 : s0.modCtx cx (fun c => { c with wait := c.wait.map (fun w => { w with acks := w.acks - 1 }) }) = s1
  have hctx : s1.ctx cx = { s.ctx cx with wait := some { w with acks := w.acks - 1 } } := by
    have hsame : s0.ctx cx = s.ctx cx := rfl
    rw [← hs1, State.ctx_modCtx, hsame, hw]
    rfl
  have hsweep1 : s1.sweepingFor cx = false := hs1 ▸ hsweep
  dsimp only
  rw [hctx, hsweep1]
  by_cases hacks : w.acks ≤ 1
  · have hzero : w.acks - 1 = 0 := by omega
    rw [if_pos hacks]
    dsimp only
    rw [if_pos ⟨hzero, rfl⟩, endAcquire_ctx (congrArg Ctx.wait hctx) hi hnext, hctx]
    rfl
  · have hpos : w.acks - 1 ≠ 0 := by omega
    rw [if_neg hacks]
    dsimp only
    rw [if_neg fun h => hpos h.1]
    exact hctx

end

-- The end of a sweep

/-- The state in which the end of a sweep lets acquires go on (R189). -/
def State.swept (s : State) : State := (s.modPart s.sel (fun p => { p with sweeping := false })).sweepClear s.sel

theorem sweepClear_linesOnly (s : State) (part : Nat) : linesOnly s (s.sweepClear part) :=
  foldl_linesOnly (fun s k => modCore_linesOnly s k _) _ s

theorem sweepClear_mem (s : State) (part : Nat) : (s.sweepClear part).mem = s.mem := by
  unfold State.sweepClear
  generalize s.coresOf part = l
  induction l generalizing s with
  | nil => rfl
  | cons k l ih => exact ih _

/-- The context waits for the end of a sweep, with no acknowledgement to come. -/
def State.dueAtSweepEnd (s : State) (part cx : Nat) : Bool :=
  s.partOf (coreOf cx) == some part && decide ((s.ctx cx).state = .waiting) &&
    (match (s.ctx cx).wait with | some w => decide (w.ph = 2) && decide (w.acks = 0) | none => false)

theorem exec_sweepEnd (s : State) : exec .sweepEnd s = .next
    (((s.swept.ctxs.map Prod.fst).filter (s.swept.dueAtSweepEnd s.sel)).foldl (fun s cx => s.endAcquire cx) s.swept) := rfl

theorem swept_ctxs (s : State) : s.swept.ctxs = s.ctxs := by
  rw [State.swept, sweepClear_linesOnly]
  rfl

theorem swept_ctx (s : State) (k : Nat) : s.swept.ctx k = s.ctx k := by rw [State.ctx, swept_ctxs, State.ctx]

theorem swept_partOf (s : State) (k : Nat) : s.swept.partOf k = s.partOf k := by
  rw [State.swept, (sweepClear_linesOnly ..).partOf]
  rfl

theorem swept_sweeping (s : State) : (s.swept.part s.sel).sweeping = false := by
  rw [State.swept, (sweepClear_linesOnly ..).part, State.part_modPart]

theorem exec_sweepEnd_goesOn {s : State} {cx : Nat} {w : Wait} (hstate : (s.ctx cx).state = .waiting)
    (hw : (s.ctx cx).wait = some w) (hph : w.ph = 2) (hi : ∀ sc, w.i ≠ .fenceAr sc) (hnext : w.next.toNat < 2 ^ 57)
    (hacks : w.acks = 0) (hpart : s.partOf (coreOf cx) = some s.sel) (honly : s.ctxs.map Prod.fst = [cx]) :
    ∃ t, exec .sweepEnd s = .next t ∧ t.ctx cx = acquiredCtx (s.ctx cx) w := by
  have hdue : s.swept.dueAtSweepEnd s.sel cx = true := by
    rw [State.dueAtSweepEnd, swept_partOf, swept_ctx, hpart, hstate, hw]
    simp [hph, hacks]
  refine ⟨_, exec_sweepEnd s, ?_⟩
  rw [swept_ctxs, honly, List.filter_cons_of_pos hdue, List.filter_nil, List.foldl_cons, List.foldl_nil,
    endAcquire_ctx (by rw [swept_ctx]; exact hw) hi hnext, swept_ctx]

/-- A core that no operation has touched is as at reset. -/
theorem core_of_not_listed {s : State} {k : Nat} (h : k ∉ s.listedCores) : s.core k = Core.reset := by
  rw [State.core]
  rw [State.listedCores] at h
  generalize s.cores = l at h
  induction l with
  | nil => rfl
  | cons e l ih =>
    obtain ⟨j, c⟩ := e
    rw [List.map_cons, List.mem_cons, not_or] at h
    rw [tget, if_neg (Ne.symm h.1), ih h.2]

/-- What one step of a fold establishes and every step keeps holds after the fold. -/
theorem foldl_establishes {β : Type} {P : State → Prop} {f : State → β → State} (hkeep : ∀ s b, P s → P (f s b)) {b : β}
    (hset : ∀ s, P (f s b)) {l : List β} (hb : b ∈ l) (s : State) : P (l.foldl f s) := by
  have keeps (t : List β) (s : State) (hs : P s) : P (t.foldl f s) := by
    induction t generalizing s with
    | nil => exact hs
    | cons c t ih => exact ih _ (hkeep s c hs)
  induction l generalizing s with
  | nil => exact absurd hb List.not_mem_nil
  | cons c l ih =>
    rcases List.mem_cons.1 hb with rfl | hb
    · exact keeps l _ (hset s)
    · exact ih hb _

theorem foldl_keeps {β : Type} {P : State → Prop} {f : State → β → State} (hkeep : ∀ s b, P s → P (f s b)) (l : List β)
    {s : State} (hs : P s) : P (l.foldl f s) := by
  induction l generalizing s with
  | nil => exact hs
  | cons c l ih => exact ih (hkeep s c hs)

/-- A step on each core of a partition: what it establishes for its core, and what a core has at reset, holds for each. -/
theorem foldl_coresOf {P : State → Prop} {f : State → Nat → State} {s : State} {part k : Nat} (hpart : s.partOf k = some part)
    (hreset : s.core k = Core.reset → P s) (hkeep : ∀ s j, P s → P (f s j)) (hset : ∀ s, P (f s k)) :
    P ((s.coresOf part).foldl f s) := by
  by_cases hk : k ∈ s.listedCores
  · exact foldl_establishes hkeep hset (List.mem_filter.2 ⟨hk, by rw [State.inPart, hpart]; exact beq_self_eq_true _⟩) s
  · exact foldl_keeps hkeep _ (hreset (core_of_not_listed hk))

theorem swept_inh {s : State} {k : Nat} (hpart : s.partOf k = some s.sel) : (s.swept.core k).inh = 0 := by
  refine foldl_coresOf (P := fun t => (t.core k).inh = 0) (k := k) (by exact hpart) (fun h => by rw [h]; rfl) (fun t j ht => ?_)
    (fun t => ?_)
  · by_cases hj : k = j
    · subst hj
      rw [State.core_modCore]
    · rw [State.core_modCore_ne _ _ _ _ hj, ht]
  · rw [State.core_modCore]

theorem ctx_mem_ctxs {s : State} {cx : Nat} (h : cx ∈ s.ctxs.map Prod.fst) : (cx, s.ctx cx) ∈ s.ctxs := by
  rw [State.ctx]
  generalize s.ctxs = l at h
  induction l with
  | nil => exact absurd h List.not_mem_nil
  | cons e l ih =>
    obtain ⟨j, c⟩ := e
    by_cases hj : j = cx
    · rw [tget, if_pos hj, hj]
      exact List.mem_cons_self
    · rw [tget, if_neg hj]
      rw [List.map_cons, List.mem_cons] at h
      exact List.mem_cons_of_mem _ (ih (h.resolve_left (Ne.symm hj)))

theorem exec_sweepEnd_nothingDue {s : State} (hno : ∀ e ∈ s.ctxs, ∀ w, e.2.wait = some w → w.ph ≠ 2) :
    ∃ t, exec .sweepEnd s = .next t ∧ (t.part s.sel).sweeping = false ∧ sameBytes s t ∧
      ∀ k, s.partOf k = some s.sel → (t.core k).inh = 0 := by
  have hnone : (s.swept.ctxs.map Prod.fst).filter (s.swept.dueAtSweepEnd s.sel) = [] := by
    rw [List.filter_eq_nil_iff]
    intro cx hcx hdue
    rw [swept_ctxs] at hcx
    rw [State.dueAtSweepEnd, swept_ctx] at hdue
    split at hdue
    · next w hw =>
      have hph := hno _ (ctx_mem_ctxs hcx) w hw
      simp [hph] at hdue
    · simp at hdue
  refine ⟨s.swept, ?_, swept_sweeping s, sameBytes_of_mem (sweepClear_mem ..), fun k hk => swept_inh hk⟩
  rw [exec_sweepEnd, hnone]
  rfl

end Sys2Proof.Machine
end

section
/-! A sweep empties the L1s of a partition (R188). -/
namespace Sys2Proof.Machine

-- The lines that an L1 holds

theorem l1Lines_of_l1 {s t : State} {k : Nat} (h : (t.core k).l1 = (s.core k).l1) : t.l1Lines k = s.l1Lines k := by
  rw [State.l1Lines, h, State.l1Lines]

theorem homeWrite_l1Lines (s : State) (core : Option Nat) (l : List Host.Cell) (k : Nat) :
    (s.homeWrite core l).l1Lines k = s.l1Lines k := by
  unfold State.homeWrite
  dsimp only
  split
  · rfl
  · split
    · rfl
    · exact l1Lines_of_l1 (store_l1 ..)

theorem modCore_l1Lines {s : State} {j : Nat} {f : Core → Core} (h : ∀ c, (f c).l1.map (·.line) = c.l1.map (·.line)) (k : Nat) :
    (s.modCore j f).l1Lines k = s.l1Lines k := by
  rw [State.l1Lines, State.l1Lines]
  by_cases hk : k = j
  · subst hk
    rw [State.core_modCore, h]
  · rw [State.core_modCore_ne _ _ _ _ hk]

theorem l1WriteBack_l1Lines (s : State) (j line k : Nat) : (s.l1WriteBack j line).l1Lines k = s.l1Lines k := by
  have hclean : (s.l1Clean j line).l1Lines k = s.l1Lines k := by
    refine modCore_l1Lines (fun c => ?_) k
    rw [List.map_map]
    refine List.map_congr_left fun e _ => ?_
    rw [Function.comp_apply]
    split <;> rfl
  fun_cases State.l1WriteBack s j line
  · rfl
  · have hwrote : ((s.l1Clean j line).wroteHome j line).l1Lines k = s.l1Lines k :=
      (modCore_l1Lines (f := fun c => { c with wsig := sigAdd c.wsig line }) (fun _ => rfl) k).trans hclean
    rw [homeWrite_l1Lines, hwrote]
  · rfl

/-- An invalidation takes the line out of its L1, and out of no other. -/
theorem mem_l1Lines_l1Invalidate {s : State} {j line k x : Nat} :
    x ∈ (s.l1Invalidate j line).l1Lines k ↔ x ∈ s.l1Lines k ∧ (k = j → x ≠ line) := by
  rw [← l1WriteBack_l1Lines s j line k, State.l1Invalidate]
  generalize s.l1WriteBack j line = t
  rw [State.l1Lines, State.l1Lines, State.l1Drop]
  by_cases hk : k = j
  · subst hk
    rw [State.core_modCore]
    simp only [List.mem_map, List.mem_filter, decide_eq_true_eq]
    constructor
    · rintro ⟨e, ⟨he, hne⟩, rfl⟩
      exact ⟨⟨e, he, rfl⟩, fun _ => hne⟩
    · rintro ⟨⟨e, he, rfl⟩, hne⟩
      exact ⟨e, ⟨he, hne trivial⟩, rfl⟩
  · rw [State.core_modCore_ne _ _ _ _ hk]
    exact ⟨fun h => ⟨h, fun h' => absurd h' hk⟩, fun h => h.1⟩

theorem mem_l1Lines_invalidated {l : List Nat} {s : State} {j k x : Nat} :
    x ∈ (l.foldl (fun s line => s.l1Invalidate j line) s).l1Lines k ↔ x ∈ s.l1Lines k ∧ (k = j → x ∉ l) := by
  induction l generalizing s with
  | nil => simp
  | cons line l ih =>
    rw [List.foldl_cons, ih, mem_l1Lines_l1Invalidate, List.mem_cons, and_assoc]
    refine and_congr_right fun _ => ?_
    by_cases hk : k = j <;> simp [hk]

theorem l1_eq_nil_iff {s : State} {k : Nat} : (s.core k).l1 = [] ↔ ∀ x, x ∉ s.l1Lines k := by
  rw [← List.eq_nil_iff_forall_not_mem, State.l1Lines, List.map_eq_nil_iff]

theorem invalidateAll_empties (s : State) (k : Nat) : ((s.invalidateAll k).core k).l1 = [] :=
  l1_eq_nil_iff.2 fun _ hx => (mem_l1Lines_invalidated.1 hx).2 rfl (mem_l1Lines_invalidated.1 hx).1

theorem invalidateAll_keeps_empty {s : State} (j : Nat) {k : Nat} (h : (s.core k).l1 = []) :
    ((s.invalidateAll j).core k).l1 = [] :=
  l1_eq_nil_iff.2 fun x hx => l1_eq_nil_iff.1 h x (mem_l1Lines_invalidated.1 hx).1

-- The sweep

theorem invalidateAll_resvq {s : State} (k : Nat) (h : s.resvq = []) : (s.invalidateAll k).resvq = [] := by
  refine foldl_keeps (P := fun t => t.resvq = []) (fun t line ht => ?_) _ h
  rw [show (t.l1Invalidate k line).resvq = t.resvq by rw [l1Invalidate_storageOnly k line ht], ht]

/-- What a core's releases name after a sweep: the lines whose writes wait at a reserved word. -/
def sweptWsig (s : State) (k : Nat) : State :=
  s.modCore k (fun c => { c with wsig := (s.queuedCells k).foldl (fun g x => sigAdd g (x.1 / 64)) 0 })

theorem sweepPass_eq (s : State) (part : Nat) : s.sweepPass part =
    (((s.coresOf part).foldl (fun s k => s.invalidateAll k) s).coresOf part).foldl sweptWsig
      ((s.coresOf part).foldl (fun s k => s.invalidateAll k) s) := rfl

theorem sweptWsig_linesOnly (s : State) (k : Nat) : linesOnly s (sweptWsig s k) := modCore_linesOnly ..

theorem sweptWsig_l1 (s : State) (j k : Nat) : ((sweptWsig s j).core k).l1 = (s.core k).l1 := by
  unfold sweptWsig
  by_cases hk : k = j
  · subst hk
    rw [State.core_modCore]
  · rw [State.core_modCore_ne _ _ _ _ hk]

/-- The invalidation of the lines of every core of a partition. -/
theorem coresOf_invalidated {s : State} {part k : Nat} (hpart : s.partOf k = some part) :
    (((s.coresOf part).foldl (fun s k => s.invalidateAll k) s).core k).l1 = [] :=
  foldl_coresOf (P := fun t => (t.core k).l1 = []) hpart (fun h => by rw [h]; rfl)
    (fun _ j h => invalidateAll_keeps_empty j h) (fun t => invalidateAll_empties t k)

theorem sweptWsig_wsig {s : State} (j k : Nat) (hq : s.resvq = []) (h : k = j ∨ (s.core k).wsig = 0) :
    ((sweptWsig s j).core k).wsig = 0 := by
  unfold sweptWsig
  by_cases hk : k = j
  · subst hk
    rw [State.core_modCore, queuedCells_of_no_words k hq]
    rfl
  · rw [State.core_modCore_ne _ _ _ _ hk, h.resolve_left hk]

theorem exec_sweep_empties (s : State) :
    ∃ t, exec .sweep s = .next t ∧ (t.part s.sel).sweeping = true ∧
      ∀ k, s.partOf k = some s.sel → (t.core k).l1 = [] ∧ (s.resvq = [] → (t.core k).wsig = 0) := by
  generalize hs0 : s.modPart s.sel (fun p => { p with sweeping := true }) = s0
  generalize hs1 : (s0.coresOf s.sel).foldl (fun s k => s.invalidateAll k) s0 = s1
  have h01 : linesOnly s0 s1 := hs1 ▸ foldl_linesOnly invalidateAll_linesOnly _ s0
  have hpart0 (k : Nat) : s0.partOf k = s.partOf k := by rw [← hs0]; rfl
  have hexec : exec .sweep s = .next ((s1.coresOf s.sel).foldl sweptWsig s1) := by
    change Host.Outcome.next ((s.modPart s.sel (fun p => { p with sweeping := true })).sweepPass s.sel) = _
    rw [hs0, sweepPass_eq, hs1]
  refine ⟨_, hexec, ?_, fun k hk => ⟨?_, fun hq => ?_⟩⟩
  · have h1t : linesOnly s1 ((s1.coresOf s.sel).foldl sweptWsig s1) := foldl_linesOnly sweptWsig_linesOnly _ s1
    rw [h1t.part, h01.part, ← hs0, State.part_modPart]
  · refine foldl_keeps (P := fun t => (t.core k).l1 = []) (fun t j ht => (sweptWsig_l1 t j k).trans ht) _ ?_
    rw [← hs1]
    exact coresOf_invalidated ((hpart0 k).trans hk)
  · have hq1 : s1.resvq = [] := by
      rw [← hs1]
      exact foldl_keeps (P := fun t => t.resvq = []) (fun t j ht => invalidateAll_resvq j ht) _ (by rw [← hs0]; exact hq)
    have hdone := foldl_coresOf (P := fun t => t.resvq = [] → (t.core k).wsig = 0) (f := sweptWsig) (s := s1) (k := k)
      ((h01.partOf k).trans ((hpart0 k).trans hk)) (fun h _ => by rw [h]; rfl)
      (fun t j ht hqt => sweptWsig_wsig j k hqt (.inr (ht hqt))) (fun t hqt => sweptWsig_wsig k k hqt (.inl rfl))
    refine hdone ?_
    exact foldl_keeps (P := fun t => t.resvq = []) (f := sweptWsig) (fun _ _ ht => ht) _ hq1

end Sys2Proof.Machine
end

section
/-! A load from the scratchpad of another core (R146). -/
namespace Sys2Proof.Machine

theorem State.rd_congr {s t : State} (h : sameReads s t) (l : List Nat) : t.rd l = s.rd l := by
  induction l with
  | nil => rfl
  | cons a l ih => rw [State.rd, State.rd, h a, ih]

theorem modCore_page {s : State} {j : Nat} {f : Core → Core} (h : ∀ c, (f c).pages = c.pages) (k q : Nat) :
    (s.modCore j f).page k q = s.page k q := by
  rw [State.page, State.page]
  by_cases hk : k = j
  · subst hk
    rw [State.core_modCore, h]
  · rw [State.core_modCore_ne _ _ _ _ hk]

/-- A home that takes a request has the same bytes as before it was sent. -/
theorem asked_sameReads {s : State} {r : Req} (hhome : (∃ d q, r.home = .llc d q) ∨ ∃ k, r.home = .core k) :
    sameReads s (s.asked r) := by
  refine sameReads_of_mem (takeReq_mem ..) (asked_storageOnly hhome).objs fun k q => ?_
  have hdrop : ((s.sentReq r).dropMsg s.msgs.length).page k q = s.page k q := rfl
  rw [State.asked, State.takeReq]
  rcases hhome with ⟨d, q, h⟩ | ⟨j, h⟩
  · rw [h, hdrop]
  · rw [h]
    dsimp only
    split
    · rw [modCore_page (f := fun c => { c with head := none }) (fun _ => rfl), hdrop]
    · rw [hdrop]

theorem pageGate_go {s : State} {core : Nat} {l : List Nat} (h : ∀ p ∈ l, s.pageSt core p = .ready) :
    s.pageGate core l = .go := by
  induction l with
  | nil => rfl
  | cons p l ih =>
    rw [State.pageGate, h p List.mem_cons_self]
    exact ih fun q hq => h q (List.mem_cons_of_mem p hq)

/-- An aligned access to a scratchpad lies on one page. -/
theorem pagesOf_aligned {core off p : Nat} {z : Sz} (hal : off % szBytes z = 0) (hoff : off < 49152)
    (h : p ∈ pagesOf (span (scratchLoc core off) (szBytes z))) : p = off / 4096 := by
  rw [pagesOf, List.mem_eraseDups] at h
  obtain ⟨x, hx, rfl⟩ := List.mem_map.1 h
  obtain ⟨hlo, hhi⟩ := List.mem_range'_1.1 hx
  rw [scratchLoc] at hlo hhi
  cases z <;> simp only [szBytes] at hal hhi <;> omega

/-- A context that was waiting, made ready when it moves on. -/
theorem advance_waitingCtx_ready (s : State) (r : Req) (d : GReg) (v : Word) (n : Nat) :
    (((waitingCtx s r).setG d v).advance n).ready = ((s.me.setG d v).advance n).ready := by
  unfold Ctx.advance Ctx.frameNext
  dsimp only [waitingCtx, Ctx.setG, Ctx.ready]
  split
  · split <;> split <;> rfl
  · rfl

theorem exec_remoteRequest_sentReq {s : State} {i : Instr} {r : Req} {core : Nat} (hi : r.i = i) (hword : waitsAtWord i = true)
    (hplain : ∀ g h, i ≠ .tgrun g h) (hhome : r.home = .core core) (hblocked : r.blocked = false) (hq : s.resvq = [])
    (hpages : ∀ p ∈ pagesOf r.locs, s.pageSt core p = .ready) :
    exec .remoteRequest (s.sentReq r) = .next ((s.asked r).perform r) := by
  have hgate : (s.sentReq r).gate r = .go := gate_of_pages hi hword hq fun k h => by
    cases hhome.symm.trans h
    exact pageGate_go hpages
  have harrive := arrive_asked hi hplain hblocked hgate
  change execRemoteRequest (s.sentReq r) = _
  rw [execRemoteRequest, sentReq_msg]
  dsimp only
  rw [hhome]
  exact congrArg _ harrive

theorem ld_remote {s : State} {z : Sz} {a : GReg} {o : BitVec 14} {core off : Nat} (sx : Bool) (d : GReg)
    (hal : (eaM z a o s).toNat % szBytes z = 0) (hfl : inFleet (eaM z a o s) = false) (hcore : core ≠ s.myCore)
    (hoffal : off % szBytes z = 0) (hoff : off < 49152)
    (htr : s.translate s.myCore s.myPart (eaM z a o s) .load = .ok (.scratch core off))
    (hpage : s.pageSt core (off / 4096) = .ready) (hq : s.resvq = []) (hf : s.flaws = []) (hr : s.retired = [])
    (hlost : s.lost = []) :
    ∃ u t w, roundTrip .remoteRequest (.ld z sx d a o) s u t w ∧ sameReads s w ∧
      w.me = ((s.me.setG d (loadSpec (szBytes z) sx (s.rd (span (scratchLoc core off) (szBytes z))))).advance 4).ready := by
  let r := s.mkReq (.ld z sx d a o) (eaM z a o s) (.scratch core off) (szBytes z) [] none
  have hexec : exec (.ld z sx d a o) s = .next (s.ask 1 r) := by
    change execLd z sx d a o s = _
    rw [execLd, checked_found _ hal hfl htr]
    dsimp only
    rw [access, if_neg hcore]
  obtain ⟨tl, hspan⟩ := span_scratchLoc_cons core off (szBytes z) (szBytes_pos z)
  have hreads : sameReads s (s.asked r) := asked_sameReads (.inr ⟨core, rfl⟩)
  have hrd : (s.asked r).rd r.locs = s.rd (span (scratchLoc core off) (szBytes z)) := State.rd_congr hreads _
  have hstorage : storageOnly (s.sentReq r) (s.asked r) := asked_storageOnly (.inr ⟨core, rfl⟩)
  have hperf : performAt r (s.asked r) = (s.asked r, some (r.reply [(s.asked r).rd r.locs])) :=
    homeLd_scratch (s := s.asked r) (r := r) hspan (by rw [hstorage]; exact hr) (by rw [hstorage]; exact hlost)
      (by rw [hstorage]; exact hf) z
  have hev : exec .remoteRequest (s.sentReq r) = .next ((s.asked r).perform r) :=
    exec_remoteRequest_sentReq rfl rfl nofun rfl rfl hq fun p hp => by
      rw [pagesOf_aligned hoffal hoff hp, hpage]
  obtain ⟨t, s3, htrip, -, hs3, hcur, hme⟩ := roundTrip_performed hexec rfl (.inr ⟨core, rfl⟩) rfl rfl hev hperf
    (storageOnly.refl _) rfl rfl
  obtain ⟨hwme, -⟩ := finishWith_me (fun rep c => c.setG d (extend z sx rep.val)) (rep := r.reply [(s.asked r).rd r.locs])
    (s := s3) rfl hcur.symm
  have honly := (finishWith_lands (fun rep c => c.setG d (extend z sx rep.val)) (rep := r.reply [(s.asked r).rd r.locs]) s3
    rfl rfl rfl).1
  refine ⟨_, t, _, htrip, fun x => ?_, ?_⟩
  · have h3 : s3.rdByte x = (s.asked r).rdByte x := by
      rw [hs3]
      rfl
    exact (honly.rdByte x).trans (h3.trans (hreads x))
  · rw [← extend_eq_loadSpec z sx (rd_span_lt ..), ← hrd, ← advance_waitingCtx_ready s r, ← hme]
    rw [brought_nothing rfl rfl] at hwme
    exact hwme

end Sys2Proof.Machine
end

section
/-! The ends of walks of page tables (R273, R274). -/
namespace Sys2Proof.Machine

-- What a walk ends with

theorem window_of_inGlobal {a : Word} (h : inGlobal a = true) (core : Nat) : window core a = .global := by
  refine window_global (core := 0) ?_ core
  rw [inGlobal] at h
  split at h
  · assumption
  · exact absurd h Bool.false_ne_true

theorem readCheck_flawless (s : State) (locs : List Nat) (tid : BitVec 32) (part : Nat) (hf : s.flaws = []) :
    s.readCheck locs tid part = (s, locs.any s.gone) := by
  rw [State.readCheck, State.flawsIn, hf]
  cases locs.any s.gone <;> rfl

/-- A walk's reads meet an error exactly if one of the entries lies in what is gone (R396). -/
theorem readEntries_flawless {s : State} (tid : BitVec 32) (part : Nat) (hf : s.flaws = []) (l : List Nat) :
    s.readEntries tid part l = (s, l.any (fun pa => (span (globalLoc pa) 8).any s.gone)) := by
  induction l with
  | nil => rfl
  | cons pa l ih =>
    rw [State.readEntries, readCheck_flawless _ _ _ _ hf, List.any_cons]
    by_cases h : (span (globalLoc pa) 8).any s.gone = true
    · rw [h]
      rfl
    · rw [Bool.not_eq_true] at h
      rw [h, Bool.false_or]
      exact ih

theorem walkEnd_global {s : State} (core part : Nat) {a : Word} (tid : BitVec 32) (ha : inGlobal a = true) (hf : s.flaws = []) :
    s.walkEnd core part a tid = (s, if (s.walkReads part a).any (fun pa => (span (globalLoc pa) 8).any s.gone) then .bad
      else match s.walk part a with
        | .leaf e => .found (some e)
        | .stop level cause pa => .fault 3 level cause pa) := by
  have hwin : winCode a = 3 := by rw [winCode, window_of_inGlobal ha]
  rw [State.walkEnd, window_of_inGlobal ha]
  dsimp only
  rw [readEntries_flawless tid part hf]
  split
  · next s1 h =>
    obtain ⟨rfl, hbad⟩ := Prod.mk.inj h
    rw [if_pos hbad]
  · next s1 h =>
    obtain ⟨rfl, hgood⟩ := Prod.mk.inj h
    rw [if_neg (by rw [hgood]; exact Bool.false_ne_true), hwin]
    cases s.walk part a <;> rfl

theorem nothing_gone {s : State} (l : List Nat) (hr : s.retired = []) (hl : s.lost = []) :
    l.any (fun pa => (span (globalLoc pa) 8).any s.gone) = false := by
  refine List.any_eq_false.2 fun pa _ => ?_
  rw [List.any_eq_true]
  rintro ⟨x, -, hx⟩
  rw [gone_clean x hr hl] at hx
  exact Bool.false_ne_true hx

theorem mem_tlbAdd (cap : Nat) (e : TlbEnt) (l : List TlbEnt) : e ∈ tlbAdd cap e l :=
  List.mem_append_right _ List.mem_cons_self

theorem tlbFill_core (s : State) (core : Nat) (e : TlbEnt) : e ∈ ((s.tlbFill core e).core core).tlb := by
  have h : (s.tlbFill core e).core core = { s.core core with tlb := tlbAdd 128 e (s.core core).tlb } :=
    State.core_modCore s core (fun c => { c with tlb := tlbAdd 128 e c.tlb })
  rw [h]
  exact mem_tlbAdd ..

theorem tlbFill_cluster (s : State) (core : Nat) (e : TlbEnt) :
    e ∈ ((s.tlbFill core e).cluster (clusterOf core)).tlb := by
  rw [State.tlbFill, State.cluster_modCluster]
  exact mem_tlbAdd ..

-- The end of a walk that no other requester has joined

/-- No other walk for the same page waits. -/
def walksAlone (s : State) (cx va part : Nat) : Prop := ∀ m ∈ dropAt s.sel s.msgs, joinsWalk cx va part m = false

theorem exec_walkComplete_alone {s : State} {who : Requester} {cx va kind part : Nat} {b : Bool}
    (hmsg : s.msgs[s.sel]? = some (.walk who cx va kind part b)) (halone : walksAlone s cx va part) :
    exec .walkComplete s = .next ((s.dropMsg s.sel).endWalk who cx va kind part) := by
  have hjoined : (s.dropMsg s.sel).msgs.filter (joinsWalk cx va part) = [] :=
    List.filter_eq_nil_iff.2 fun m hm => by rw [halone m hm]; exact Bool.false_ne_true
  have hrest : (s.dropMsg s.sel).msgs.filter (fun m => !joinsWalk cx va part m) = (s.dropMsg s.sel).msgs :=
    List.filter_eq_self.2 fun m hm => by rw [halone m hm]; rfl
  change execWalkComplete s = _
  rw [execWalkComplete, hmsg]
  dsimp only
  rw [hjoined, hrest]
  rfl

-- Walks of contexts

section
variable {s : State} {cx va kind part : Nat} {tid : BitVec 32} (htid : (s.ctx cx).tid = tid)
  (hstate : (s.ctx cx).state = .waiting)
include htid hstate

theorem walkWaits_waiting : s.walkWaits (.ctx cx tid) = true := by
  rw [State.walkWaits, hstate, htid]
  simp

theorem resume_waiting : s.resume (.ctx cx tid) = s.send (.retry cx tid) := by
  rw [State.resume, if_pos (.inl ⟨htid, hstate⟩)]

/-- A context that waits for a walk performs its access again (R273). -/
theorem keepWalk_resume (e : Option TlbEnt) :
    ∃ t, (s.keepWalk (.ctx cx tid) part va e).resume (.ctx cx tid) = t ∧
      t = { s with walked := t.walked, msgs := s.msgs ++ [.retry cx tid] } := by
  refine ⟨_, rfl, ?_⟩
  rw [State.keepWalk]
  split
  · rw [resume_waiting (by exact htid) (by exact hstate)]
    rfl
  · rw [resume_waiting htid hstate]
    rfl

variable (ha : inGlobal (BitVec.ofNat 64 va) = true) (hf : s.flaws = [])
include ha hf

theorem endWalk_leaf {e : TlbEnt} (hr : s.retired = []) (hl : s.lost = []) (hwalk : s.walk part (BitVec.ofNat 64 va) = .leaf e) :
    s.endWalk (.ctx cx tid) cx va kind part =
      ((s.tlbFill (coreOf cx) e).keepWalk (.ctx cx tid) part va (some e)).resume (.ctx cx tid) := by
  rw [State.endWalk, if_pos (walkWaits_waiting htid hstate)]
  dsimp only
  rw [walkEnd_global _ _ _ ha hf, nothing_gone _ hr hl, if_neg Bool.false_ne_true, hwalk]

theorem endWalk_stop {level cause pa : Nat} (hr : s.retired = []) (hl : s.lost = [])
    (hwalk : s.walk part (BitVec.ofNat 64 va) = .stop level cause pa) {s2 : State}
    (hqueue : s.queueFault (dieOf (coreOf cx)) part va kind 3 level cause pa ⟨tid, coreOf cx, ctxNo cx⟩ (.ctx cx tid) = some s2) :
    s.endWalk (.ctx cx tid) cx va kind part = s2.ghostLeaves (.ctx cx tid) := by
  have hq : s.queueFault (faultDie (coreOf cx)) part va kind 3 level cause pa (s.faultId (faultDie (coreOf cx)) (.ctx cx tid))
      (.ctx cx tid) = some s2 := hqueue
  rw [State.endWalk, if_pos (walkWaits_waiting htid hstate)]
  dsimp only
  rw [walkEnd_global _ _ _ ha hf, nothing_gone _ hr hl, if_neg Bool.false_ne_true, hwalk]
  dsimp only
  rw [hq]
  rfl

theorem endWalk_bad (hbad : ∃ x ∈ s.walkReads part (BitVec.ofNat 64 va), x / 65536 ∈ s.retired) :
    s.endWalk (.ctx cx tid) cx va kind part = (s.refuse causeData va 0 (.ctx cx tid)).ghostLeaves (.ctx cx tid) := by
  have hgone : (s.walkReads part (BitVec.ofNat 64 va)).any (fun pa => (span (globalLoc pa) 8).any s.gone) = true := by
    obtain ⟨x, hx, hret⟩ := hbad
    refine List.any_eq_true.2 ⟨x, hx, List.any_eq_true.2 ⟨x, List.mem_range'_1.2 ⟨Nat.le_refl _, ?_⟩, ?_⟩⟩
    · exact Nat.lt_add_of_pos_right (by decide)
    · rw [State.gone, List.contains_iff_mem.2 hret, Bool.true_or]
  rw [State.endWalk, if_pos (walkWaits_waiting htid hstate)]
  dsimp only
  rw [walkEnd_global _ _ _ ha hf, hgone, if_pos rfl]
  rfl

end

theorem exec_clusterTlbHit_fills {s : State} {cx va kind part : Nat} {b : Bool} {tid : BitVec 32}
    (hmsg : s.msgs[s.sel]? = some (.walk (.ctx cx tid) cx va kind part b)) (htid : (s.ctx cx).tid = tid)
    (hstate : (s.ctx cx).state = .waiting) {e : TlbEnt}
    (hfind : tlbFind part (BitVec.ofNat 64 va) (s.cluster (clusterOf (coreOf cx))).tlb = some e) :
    ∃ t, exec .clusterTlbHit s = .next t ∧ e ∈ (t.core (coreOf cx)).tlb ∧ t.ctxs = s.ctxs ∧
      t.msgs = dropAt s.sel s.msgs ++ [.retry cx tid] := by
  generalize hu : (s.dropMsg s.sel).modCore (coreOf cx) (fun c => { c with tlb := tlbAdd 128 e c.tlb }) = u
  have hutid : (u.ctx cx).tid = tid := hu ▸ htid
  have hustate : (u.ctx cx).state = .waiting := hu ▸ hstate
  obtain ⟨t, ht, htu⟩ := keepWalk_resume (part := part) (va := va) hutid hustate (some e)
  have hexec : exec .clusterTlbHit s = .next t := by
    change execClusterTlbHit s = _
    rw [execClusterTlbHit, hmsg]
    dsimp only
    rw [hfind]
    dsimp only
    rw [walkWaits_waiting htid hstate, if_pos rfl, hu, ht]
  have hcore : t.core (coreOf cx) = u.core (coreOf cx) := by
    rw [htu]
    rfl
  refine ⟨t, hexec, ?_, ?_, ?_⟩
  · rw [hcore, ← hu, State.core_modCore]
    exact mem_tlbAdd ..
  · rw [htu, ← hu]
    rfl
  · rw [htu, ← hu]
    rfl

section
variable {s : State} {cx va kind part : Nat} {b : Bool} {tid : BitVec 32}
  (hmsg : s.msgs[s.sel]? = some (.walk (.ctx cx tid) cx va kind part b)) (htid : (s.ctx cx).tid = tid)
  (hstate : (s.ctx cx).state = .waiting) (halone : walksAlone s cx va part) (ha : inGlobal (BitVec.ofNat 64 va) = true)
  (hf : s.flaws = [])
include hmsg htid hstate halone ha hf

theorem exec_walkComplete_leaf {e : TlbEnt} (hr : s.retired = []) (hl : s.lost = [])
    (hwalk : s.walk part (BitVec.ofNat 64 va) = .leaf e) :
    ∃ t, exec .walkComplete s = .next t ∧ e ∈ (t.core (coreOf cx)).tlb ∧ e ∈ (t.cluster (clusterOf (coreOf cx))).tlb ∧
      t.ctxs = s.ctxs ∧ t.msgs = dropAt s.sel s.msgs ++ [.retry cx tid] := by
  have hend := endWalk_leaf (s := s.dropMsg s.sel) (kind := kind) htid hstate ha hf hr hl hwalk
  obtain ⟨t, ht, htu⟩ := keepWalk_resume (s := (s.dropMsg s.sel).tlbFill (coreOf cx) e) (part := part) (va := va) htid hstate
    (some e)
  refine ⟨t, ?_, ?_, ?_, ?_, ?_⟩
  · rw [exec_walkComplete_alone hmsg halone, hend, ht]
  · rw [htu]
    exact tlbFill_core (s.dropMsg s.sel) _ e
  · rw [htu]
    exact tlbFill_cluster (s.dropMsg s.sel) _ e
  · rw [htu]
    rfl
  · rw [htu]
    rfl

end

end Sys2Proof.Machine
end

section
/-! Walks that end in a fault or a read error, and walks of engine commands (R273, R274, R396). -/
namespace Sys2Proof.Machine

-- A fault that is queued

/-- The first fault of a die takes entry 0 of its queue (R274). -/
theorem queueFault_first {s : State} {die : Nat} (part : Nat) (va : Nat) (k win level cause pa : Nat) (f : FaultId)
    (who : Requester) (hfq : (s.die die).fq = []) :
    s.queueFault die part va k win level cause pa f who = some ((s.modDie die fun d => { d with fq :=
      [(0, { va := va % 2 ^ 57, tid := f.tid, core := f.core, cx := f.cx, kind := k, level := level, cause := cause,
             win := win, part := part, count := 1, pa := pa, who := [who] })] }).markFault who) := by
  rw [State.queueFault]
  dsimp only
  rw [hfq]
  have hidx : findIdxFrom (fun i => (([] : Tbl FaultEnt).find? (fun e => e.1 == i)).isNone) 512 0 = some 0 := rfl
  rw [List.find?_nil]
  dsimp only
  rw [hidx]
  dsimp only
  congr 2
  rw [State.modDie, State.modDie, hfq]
  rfl

theorem ghostLeaves_none {s : State} (who : Requester) (h : s.ghosts = []) : s.ghostLeaves who = s := by
  unfold State.ghostLeaves
  split
  · rw [State.ghost?, h]
    rfl
  · rfl

-- A trap of a context that owns no lock

theorem addrField_eq (x : Word) : addrField x = addrSpec x := by
  have hmask : ∀ i < 64, (0x01FFFFFFFFFFFFFC : Word).getLsbD i = (decide (2 ≤ i) && decide (i < 57)) := by decide
  apply BitVec.eq_of_getLsbD_eq
  intro i hi
  have hfloor : x.toNat % 2 ^ 57 / 4 * 4 = ((x.toNat % 2 ^ 57) >>> 2) <<< 2 := by
    rw [Nat.shiftLeft_eq, Nat.shiftRight_eq_div_pow]
  rw [addrField, addrSpec, BitVec.getLsbD_and, hmask i hi, BitVec.getLsbD_ofNat, hfloor, Nat.testBit_shiftLeft]
  by_cases h2 : 2 ≤ i
  · have hsub : 2 + (i - 2) = i := by omega
    rw [Nat.testBit_shiftRight, hsub, Nat.testBit_mod_two_pow, BitVec.testBit_toNat]
    simp [h2, hi, Bool.and_comm]
  · simp [h2]

theorem setIH_true (x : Word) : setIH true x = x ||| 1 := by
  apply BitVec.eq_of_getLsbD_eq
  intro i hi
  have hone : ∀ i < 64, (1 : Word).getLsbD i = decide (i = 0) := by decide
  rw [setIH, getLsbD_setBits _ _ _ _ _ (by decide), BitVec.getLsbD_or, hone i hi]
  by_cases h0 : i = 0
  · subst h0
    simp
  · simp [h0]

/-- A trap of a context that has a handler, is in none and owns no lock (R270). -/
theorem takeTrap_caught {s : State} {cx : Nat} (cause : Nat) (val at_ : Word) (hcatch : (s.ctx cx).catches)
    (hdeleg : (s.ctx cx).deleg = []) (hobjs : s.objs = []) :
    s.takeTrap cx cause val at_ = s.setCtx cx ((s.ctx cx).trapped cause val at_) := by
  obtain ⟨hvec, hih⟩ := hcatch
  have hlocks (l : List Nat) : s.fallbackLocks cx (s.ctx cx).tid l = s := by
    have hset : ∀ l, s.objs = l → { s with objs := l } = s := by
      rintro _ rfl
      rfl
    rw [State.fallbackLocks, hobjs]
    exact hset [] hobjs
  have hfall : s.ownerFallback cx at_ = (s, at_, false) := by
    rw [State.ownerFallback, hlocks, hdeleg]
    rfl
  have hcaught : ¬(addrField (s.ctx cx).tvec = 0 ∨ statIH (s.ctx cx).stat) := by
    rw [addrField_eq, statIH, bit, hih]
    rintro (h | h)
    · exact hvec h
    · exact Bool.false_ne_true h
  rw [State.takeTrap, State.takeTrapAs, hfall]
  dsimp only
  rw [if_neg hcaught, addrField_eq, addrField_eq, setIH_true]
  rfl

-- The ends of walks

section
variable {s : State} {cx va kind part : Nat} {b : Bool} {tid : BitVec 32}
  (hmsg : s.msgs[s.sel]? = some (.walk (.ctx cx tid) cx va kind part b)) (htid : (s.ctx cx).tid = tid)
  (hstate : (s.ctx cx).state = .waiting) (halone : walksAlone s cx va part) (ha : inGlobal (BitVec.ofNat 64 va) = true)
  (hf : s.flaws = []) (hghosts : s.ghosts = [])
include hmsg htid hstate halone ha hf hghosts

theorem exec_walkComplete_stop {level cause pa : Nat} (hr : s.retired = []) (hl : s.lost = [])
    (hwalk : s.walk part (BitVec.ofNat 64 va) = .stop level cause pa) (hfq : (s.die (dieOf (coreOf cx))).fq = []) :
    ∃ t, exec .walkComplete s = .next t ∧ t.msgs = dropAt s.sel s.msgs ∧ t.ctx cx = { s.ctx cx with why := 13 } ∧
      (t.die (dieOf (coreOf cx))).fq = [(0, { va := va % 2 ^ 57, tid := tid, core := coreOf cx, cx := ctxNo cx, kind := kind
                                              level := level, cause := cause, win := 3, part := part, count := 1, pa := pa
                                              who := [.ctx cx tid] })] := by
  have hqueue := queueFault_first (s := s.dropMsg s.sel) part va kind 3 level cause pa ⟨tid, coreOf cx, ctxNo cx⟩ (.ctx cx tid)
    hfq
  have hend := endWalk_stop (s := s.dropMsg s.sel) htid hstate ha hf hr hl hwalk hqueue
  refine ⟨_, (exec_walkComplete_alone hmsg halone).trans (congrArg _ hend), ?_⟩
  rw [ghostLeaves_none _ (by exact hghosts), State.markFault]
  have hdie (u : State) (f : Die → Die) (g : Ctx → Ctx) : ((u.modDie (dieOf (coreOf cx)) f).modCtx cx g).die (dieOf (coreOf cx)) =
      f (u.die (dieOf (coreOf cx))) := State.die_modDie ..
  refine ⟨rfl, ?_, by rw [hdie]⟩
  rw [State.ctx_modCtx, if_pos]
  · rfl
  · exact ⟨htid, hstate⟩

theorem exec_walkComplete_bad {w : Wait} (hw : (s.ctx cx).wait = some w)
    (hbad : ∃ x ∈ s.walkReads part (BitVec.ofNat 64 va), x / 65536 ∈ s.retired) (hcatch : (s.ctx cx).catches)
    (hdeleg : (s.ctx cx).deleg = []) (hobjs : s.objs = []) :
    ∃ t, exec .walkComplete s = .next t ∧ t.msgs = dropAt s.sel s.msgs ∧
      t.ctx cx = (s.ctx cx).trapped 8 w.val (s.ctx cx).pc := by
  have hend := endWalk_bad (s := s.dropMsg s.sel) (kind := kind) htid hstate ha hf hbad
  have haddr : ((s.dropMsg s.sel).ctx cx).faultAddr va = w.val := by
    rw [Ctx.faultAddr, show ((s.dropMsg s.sel).ctx cx).wait = some w from hw]
  have hrefuse : State.refuse causeData va 0 (s.dropMsg s.sel) (.ctx cx tid) =
      (s.dropMsg s.sel).setCtx cx (((s.dropMsg s.sel).ctx cx).trapped 8 w.val (s.ctx cx).pc) := by
    rw [State.refuse, if_pos ⟨by exact htid, by exact hstate⟩, haddr]
    exact takeTrap_caught _ _ _ hcatch hdeleg hobjs
  rw [hrefuse, ghostLeaves_none _ (by exact hghosts)] at hend
  refine ⟨_, (exec_walkComplete_alone hmsg halone).trans (congrArg _ hend), rfl, ?_⟩
  rw [ctx_setCtx, if_pos rfl]
  rfl

end

theorem exec_walkComplete_cmd {s : State} {id cx va kind part : Nat} {b : Bool} {e : TlbEnt}
    (hmsg : s.msgs[s.sel]? = some (.walk (.cmd id) cx va kind part b)) (hlives : s.lives (.cmd id) = true)
    (ha : inGlobal (BitVec.ofNat 64 va) = true) (hf : s.flaws = []) (hr : s.retired = []) (hl : s.lost = [])
    (halone : walksAlone s cx va part) (hwalk : s.walk part (BitVec.ofNat 64 va) = .leaf e) :
    ∃ t, exec .walkComplete s = .next t ∧ t.msgs = dropAt s.sel s.msgs ∧ t.ctxs = s.ctxs ∧
      e ∈ (t.core (coreOf cx)).tlb ∧ t.walked = s.walked ++ [(.cmd id, part, va, some e)] := by
  have hend : (s.dropMsg s.sel).endWalk (.cmd id) cx va kind part =
      (((s.dropMsg s.sel).tlbFill (coreOf cx) e).keepWalk (.cmd id) part va (some e)).resume (.cmd id) := by
    rw [State.endWalk, if_pos (by exact hlives)]
    dsimp only
    rw [walkEnd_global (s := s.dropMsg s.sel) _ _ _ ha hf, nothing_gone (s := s.dropMsg s.sel) _ hr hl,
      if_neg Bool.false_ne_true, show (s.dropMsg s.sel).walk part (BitVec.ofNat 64 va) = .leaf e from hwalk]
  refine ⟨_, (exec_walkComplete_alone hmsg halone).trans (congrArg _ hend), rfl, rfl, ?_, rfl⟩
  exact tlbFill_core (s.dropMsg s.sel) _ e

end Sys2Proof.Machine
end

section
/-! Tiles whose time is over, and reserved words (R209, R244, R304). -/
namespace Sys2Proof.Machine

theorem exec_tileExpiry_dies {s : State} (hexp : expiredSpec s s.sel) (hpart : (s.tile s.sel).tpart = s.myPart)
    (hlive : (s.tile s.sel).dead = false) :
    ∃ t, exec .tileExpiry s = .next t ∧ t.tile s.sel = { s.tile s.sel with dead := true } ∧ t.ctxs = s.ctxs ∧
      ∀ x, t.byteAt x = if 2 ^ 43 + s.sel * 4096 ≤ x ∧ x < 2 ^ 43 + (s.sel + 1) * 4096 then 0 else s.byteAt x := by
  have hover : s.tileOver s.sel = true := by
    rcases hexp with h | h | h
    · exact absurd (hlive.symm.trans h) Bool.false_ne_true
    · exact absurd hpart h
    · exact decide_eq_true h
  refine ⟨{ s.dropTile s.sel with mem := memClear s.mem (tileLoc s.sel) 4096 }, ?_, ?_, rfl, fun x => ?_⟩
  · change execTileExpiry s = _
    rw [execTileExpiry, if_pos ⟨hover, hlive⟩]
  · exact tget_tset ..
  · have hend : 2 ^ 43 + (s.sel + 1) * 4096 = tileLoc s.sel + 4096 := by rw [tileLoc]; omega
    rw [hend]
    exact memGet_memClear ..

-- Reserved words

theorem exec_reservationBreak_over {s : State} {q : ResvQ} {cx : Nat} {tid : BitVec 32} {locs : List Nat} {tick : Nat}
    (hq : s.resvq = [q]) (hloc : q.loc = s.sel) (hheld : q.holder = some (cx, tid, locs, tick)) (h : tick + 16384 ≤ s.now) :
    ∃ t, exec .reservationBreak s = .next t ∧
      t = { s with resvq := if q.queue = [] then [] else [{ q with holder := none }] } := by
  have hover : (q.loc == s.sel && s.resvOver q) = true := by
    rw [hloc, State.resvOver, hheld]
    simp [resvTicks, h]
  refine ⟨_, rfl, ?_⟩
  rw [State.passWord, hq, List.map_singleton, hover, if_pos rfl]
  by_cases hnone : q.queue = []
  · rw [if_pos hnone, List.filter_cons_of_neg (by simp [ResvQ.live, hnone])]
    rfl
  · rw [if_neg hnone, List.filter_cons_of_pos (by simp [ResvQ.live, hnone])]
    rfl

theorem exec_reservationBreak_early {s : State} {q : ResvQ} {cx : Nat} {tid : BitVec 32} {locs : List Nat} {tick : Nat}
    (hq : s.resvq = [q]) (hheld : q.holder = some (cx, tid, locs, tick)) (h : s.now < tick + 16384) :
    exec .reservationBreak s = .next s := by
  have hearly : (q.loc == s.sel && s.resvOver q) = false := by
    have hnot : s.resvOver q = false := by
      rw [State.resvOver, hheld]
      exact decide_eq_false (Nat.not_le.2 h)
    rw [hnot, Bool.and_false]
  have hset : ∀ l, s.resvq = l → { s with resvq := l } = s := by
    rintro _ rfl
    rfl
  have hpass : s.passWord (fun q => q.loc == s.sel && s.resvOver q) = { s with resvq := [q] } := by
    rw [State.passWord, hq, List.map_singleton, hearly, if_neg Bool.false_ne_true, List.filter_cons_of_pos]
    · rfl
    · simp [ResvQ.live, hheld]
  exact congrArg _ (hpass.trans (hset [q] hq))

/-- The word is free, and `i` waits for it alone. -/
theorem exec_reservationGrant_only {s : State} {i : QItem} (hq : s.resvq = [{ loc := s.sel, holder := none, queue := [i] }]) :
    exec .reservationGrant s = .next (s.grantItem s.sel i []) := by
  change execReservationGrant s = _
  rw [execReservationGrant, hq, List.find?_cons_of_pos (by simp)]

theorem setQueue_only {s : State} {q : ResvQ} (hq : s.resvq = [q]) (hheld : q.holder = none) :
    s.setQueue q.loc [] = { s with resvq := [] } := by
  rw [State.setQueue, hq, List.map_singleton, if_pos rfl, List.filter_cons_of_neg (by simp [ResvQ.live, hheld])]
  rfl

theorem exec_reservationGrant_write {s : State} {k : Option Nat} {n a : Nat} {b : Byte}
    (hq : s.resvq = [{ loc := s.sel, holder := none, queue := [.write k [(a, b)] n] }]) (ha : a < 2 ^ 42) :
    ∃ t, exec .reservationGrant s = .next t ∧ t.resvq = [] ∧ t.ctxs = s.ctxs ∧
      ∀ x, t.byteAt x = if x = a then b else s.byteAt x := by
  let s0 : State := { s with resvq := [] }
  have hgrant : s.grantItem s.sel (.write k [(a, b)] n) [] = s0.store [(a, b)] := by
    have hset := setQueue_only hq rfl
    rw [State.grantItem, hq, List.filter_cons_of_neg (by simp)]
    exact congrArg (State.store · [(a, b)]) hset
  have hstorage : storageOnly s0 (s0.store [(a, b)]) := store_storageOnly ..
  refine ⟨_, (exec_reservationGrant_only hq).trans (congrArg _ hgrant), ?_, ?_, fun x => ?_⟩
  · rw [hstorage]
  · rw [hstorage]
  · rw [State.byteAt, store_mem, List.foldl_cons, List.foldl_nil, phys_global _ (Nat.lt_trans ha (by decide))]
    by_cases hx : x = a
    · subst hx
      rw [if_pos rfl]
      exact memGet_memSet ..
    · rw [if_neg hx]
      exact memGet_memSet_ne _ _ _ _ hx

-- A reservation that is granted

theorem not_isGlobalLoc_cupola (pa : Nat) : isGlobalLoc (2 ^ 42 + pa) = false :=
  decide_eq_false (Nat.not_lt.2 (Nat.le_add_right ..))

/-- The state after the word of `r`, at `loc`, has been reserved for its context; nobody waits for it. -/
def reservedFor (s : State) (r : Req) (loc : Nat) : State :=
  { s with resvq := [{ loc := loc, holder := some (r.cx, r.tid, r.locs, s.now), queue := [] }] }

section
variable {s : State} {r : Req} {pa : Nat} {tl : List Nat} (htl : r.locs = (2 ^ 42 + pa) :: tl)
include htl

/-- A request to Cupola waits for no drain. -/
theorem relDrain_cupola (hlanes : r.lanes = []) : s.relDrain r = none := by
  rw [State.relDrain, hlanes, htl]
  cases r.sig with
  | none => rfl
  | some g =>
    dsimp only
    rw [not_isGlobalLoc_cupola, if_neg Bool.false_ne_true]
    rfl

theorem homeResv_cupola (hq : s.resvq = []) (hobjs : s.objs = []) (hf : s.flaws = []) (hr : s.retired = [])
    (hl : s.lost = []) (htid : (s.ctx r.cx).tid = r.tid) :
    ∃ rep, homeResv r s = (reservedFor s r (2 ^ 42 + pa), some rep) ∧ rep.cx = r.cx ∧ rep.tid = r.tid ∧ rep.trap = none ∧
      rep.vals = [s.rd r.locs, 2 ^ 42 + pa] := by
  have hobj : s.onObject r.locs = false := by
    have hnone : s.obj? ((2 ^ 42 + pa) / 64) = none := by
      rw [State.obj?, hobjs]
      rfl
    rw [htl]
    exact congrArg Option.isSome hnone
  have hwith (k : State → HomeOut) : withRelease r k s = k s := by
    rw [withRelease, htl]
    split
    · next l _ _ h =>
      cases h
      rw [not_isGlobalLoc_cupola, if_neg Bool.false_ne_true]
    · rfl
  have hreserve : (s.ownCopyOutAt (coreOf r.cx) r.locs).reserve r = reservedFor s r (2 ^ 42 + pa) := by
    have hcopy : s.ownCopyOutAt (coreOf r.cx) r.locs = s := by
      rw [htl, State.ownCopyOutAt, not_isGlobalLoc_cupola, if_neg Bool.false_ne_true]
    have hhead : r.locs.headD 0 = 2 ^ 42 + pa := by rw [htl, List.headD_cons]
    rw [hcopy, State.reserve, if_pos htid, hq, hhead, List.nil_append, reservedFor]
  have hrd : (reservedFor s r (2 ^ 42 + pa)).rd r.locs = s.rd r.locs :=
    State.rd_congr (s := s) (t := reservedFor s r (2 ^ 42 + pa)) (fun _ => rfl) _
  refine ⟨{ r.reply [s.rd r.locs, 2 ^ 42 + pa] with
    recs := s.recsFor r.locs, made := r.sig.isSome && isGlobalLoc (r.locs.headD (2 ^ 44)) }, ?_, rfl, rfl, rfl, rfl⟩
  rw [homeResv, hobj, if_neg Bool.false_ne_true, readCheck_clean _ _ _ hf hr hl]
  dsimp only
  rw [if_neg Bool.false_ne_true, releasing]
  dsimp only
  rw [hwith, hreserve, hrd, htl, List.headD_cons]

/-- A free word is reserved for the first context that waits for it, with a reply (R244). -/
theorem exec_reservationGrant_resv {dbl acq : Bool} {sc : Scope} {d a : GReg} {die slice : Nat}
    (hq : s.resvq = [{ loc := s.sel, holder := none, queue := [.req r] }]) (hi : r.i = .resv dbl acq sc d a)
    (hlanes : r.lanes = []) (hhome : r.home = .cupola die slice) (hobjs : s.objs = []) (hf : s.flaws = [])
    (hr : s.retired = []) (hl : s.lost = []) (htid : (s.ctx r.cx).tid = r.tid) (hstate : (s.ctx r.cx).state = .waiting) :
    ∃ t rep, exec .reservationGrant s = .next t ∧ sameReads s t ∧ t.msgs = s.msgs ++ [.reply rep] ∧ rep.cx = r.cx ∧
      rep.tid = r.tid ∧ rep.trap = none ∧ rep.vals = [s.rd r.locs, 2 ^ 42 + pa] ∧
      t.resvq = [{ loc := 2 ^ 42 + pa, holder := some (r.cx, r.tid, r.locs, s.now), queue := [] }] := by
  let s0 : State := { s with resvq := [] }
  have hfilter : s.resvq.filter (fun q => decide (q.loc ≠ s.sel)) = [] := by
    rw [hq, List.filter_cons_of_neg (by simp)]
    rfl
  obtain ⟨rep, hhomeResv, hcx, hrtid, htrap, hvals⟩ := homeResv_cupola (s := s0) htl rfl hobjs hf hr hl htid
  have hperf : performAt r s0 = (reservedFor s0 r (2 ^ 42 + pa), some rep) := by
    rw [performAt, hi]
    exact hhomeResv
  have hended : (reservedFor s0 r (2 ^ 42 + pa)).ended r.cx r.tid = false := by
    have hctx : (reservedFor s0 r (2 ^ 42 + pa)).ctx r.cx = s.ctx r.cx := rfl
    rw [State.ended, hctx, htid, hstate]
    simp
  have hperform : s0.perform r = (reservedFor s0 r (2 ^ 42 + pa)).send (.reply rep) := perform_replies hperf hended
  have hgate : s0.gate r = .go := gate_of_pages hi rfl rfl fun k h => nomatch hhome.symm.trans h
  have hgrant : s.grantItem s.sel (.req r) [] = (reservedFor s0 r (2 ^ 42 + pa)).send (.reply rep) := by
    rw [State.grantItem, hfilter]
    dsimp only
    rw [hgate, relDrain_cupola htl hlanes, hi]
    dsimp only
    rw [State.grantTo, hfilter]
    dsimp only
    rw [hperform, if_neg (by exact Nat.one_ne_zero)]
    have hset : ∀ (u : State) l, u.resvq = l → { u with resvq := l } = u := by
      rintro u _ rfl
      rfl
    refine hset _ _ ?_
    change [_] = List.map _ [_]
    rw [List.map_singleton]
    split <;> rfl
  refine ⟨_, rep, (exec_reservationGrant_only hq).trans (congrArg _ hgrant), fun _ => rfl, rfl, hcx, hrtid, htrap, ?_, rfl⟩
  rw [hvals]
  exact congrArg (fun n => [n, 2 ^ 42 + pa]) (State.rd_congr (s := s) (t := s0) (fun _ => rfl) _)

end

end Sys2Proof.Machine
end

section
/-! Events of memory: the statement. -/
namespace Sys2Proof.Machine

/-- Settles O58: each event of pages, L1s and remote loads, then of walks, tiles and reserved words. -/
theorem memoryEvents : Obligations.MemoryEvents := by
  refine ⟨⟨?pages, ?lines, ?drainForRequest, ?acquires, ?sweeps, ?remote⟩, fun s => ⟨?walks, ?commands, ?tiles, ?writes, ?resv, ?breaks⟩⟩
  case pages =>
    intro s core page hinv d at_ hbusy hframe hf hl
    exact ⟨fun hwb hr => refill_of_retired hbusy hwb hr, fun hwb hr => writeBack_of_retired hbusy hf hl hwb hframe hr,
      fun hr => ⟨fun hwb => refill_copies hbusy hf hl hinv hwb hr, fun hwb => writeBack_copies hbusy hf hl hinv hwb hr⟩⟩
  case lines =>
    intro s core e hq hr hl hglobal written
    exact ⟨fun he => exec_l1Eviction_written hq hr hl hglobal he,
      fun g part dest hmsg honly => exec_drain_only hq hr hl hglobal hmsg honly⟩
  case drainForRequest =>
    intro s r hmsg
    exact ⟨_, exec_drainAck_req hmsg, rfl⟩
  case acquires =>
    intro s cx w hstate hw hph _ hi on
    exact ⟨fun tag hmsg hsweep hnext => exec_drainAck_ctx hstate hw hph hi hnext hmsg hsweep,
      fun hacks hnext hpart honly => exec_sweepEnd_goesOn hstate hw hph hi hnext hacks hpart honly⟩
  case sweeps =>
    intro s
    exact ⟨exec_sweep_empties s, exec_sweepEnd_nothingDue⟩
  case remote =>
    intro s z sx d a o core off ea loc hal hfl hcore hoffal hoff htr hpage hq hf hr hlost
    have hea : ea = eaM z a o s := eaSpec_eq_eaM ..
    rw [hea] at hal hfl htr
    exact ld_remote sx d hal hfl hcore hoffal hoff htr hpage hq hf hr hlost
  case walks =>
    intro cx va kind part b tid hmsg hstate a die ha
    refine ⟨fun hf hghosts halone => ⟨fun hr hl => ⟨fun e hwalk => ?_, fun level cause pa hwalk hfq => ?_⟩, ?_⟩, fun e hfind => ?_⟩
    · exact exec_walkComplete_leaf hmsg rfl hstate halone ha hf hr hl hwalk
    · exact exec_walkComplete_stop hmsg rfl hstate halone ha hf hghosts hr hl hwalk hfq
    · intro w hw hbad hcatch hdeleg hobjs
      exact exec_walkComplete_bad hmsg rfl hstate halone ha hf hghosts hw hbad hcatch hdeleg hobjs
    · exact exec_clusterTlbHit_fills hmsg rfl hstate hfind
  case commands =>
    intro id cx va kind part b e hmsg hlives ha hf hr hl halone hwalk
    exact exec_walkComplete_cmd hmsg hlives ha hf hr hl halone hwalk
  case tiles => exact exec_tileExpiry_dies
  case writes =>
    intro k c n a b hq hc ha
    subst hc
    exact exec_reservationGrant_write hq ha
  case resv =>
    intro r dbl acq sc d a pa hq hi hlanes hhome hlocs _ hobjs hf hr hl _ htid hstate
    obtain ⟨tl, htl⟩ : ∃ tl, r.locs = (2 ^ 42 + pa) :: tl := by
      rw [hlocs]
      exact span_cons _ (by cases dbl <;> decide)
    exact exec_reservationGrant_resv htl hq hi hlanes hhome hobjs hf hr hl htid hstate
  case breaks =>
    intro q cx tid locs tick hq hloc hheld
    exact ⟨exec_reservationBreak_over hq hloc hheld, exec_reservationBreak_early hq hheld⟩

end Sys2Proof.Machine
end
